-- ==== Sys2Proof/Word.lean ====
section
/-! DEFINITION. The word types of the ZN4-2304. -/
namespace Sys2Proof

/-- A byte of memory. -/
abbrev Byte := BitVec 8
/-- A scalar register, a virtual address, a 64-bit field (R71, R89). -/
abbrev Word := BitVec 64
/-- A ZIS instruction word (R214). -/
abbrev IWord := BitVec 96

end Sys2Proof
end

