-- ==== Sys2Proof/Syntax.lean ====
section
/-! DEFINITION. The instructions of the ZN4-2304: one constructor for each row of the opcode table.
Rows 1 to 178 are ZIS instructions (R214 to R229); their arguments are the fields of the word, with reserved fields
left out. The other rows are steps of the device's units and of the outside world; their arguments say which object the
step acts on and what the outside supplies. -/
namespace Sys2Proof

/-- Guard and hints of a word (R214, R216, R217). -/
structure Head where
  ginv  : Bool
  gpred : Nat
  endH  : Bool
  yld   : Bool
  pri   : Nat
  dly   : Nat
  deriving DecidableEq, Repr, Inhabited

/-- Source modifiers of a register field (R221). -/
structure SrcMod where
  neg  : Bool
  abs  : Bool
  conj : Bool
  deriving DecidableEq, Repr, Inhabited

/-- An A or B field (R220). `fe` is the full/empty mode bit (R225). -/
inductive Src where
  | tile  (n : Nat) (m : SrcMod) (fe : Bool)
  | scal  (n : Nat) (m : SrcMod) (fe : Bool)
  | cbank (bank size off : Nat)
  | lit   (v : BitVec 22)
  deriving DecidableEq, Repr, Inhabited

/-- Integer types (R9, R219). -/
inductive ITy where
  | i8 | i16 | i32 | i64 | n8 | n16 | n32 | n64
  deriving DecidableEq, Repr, Inhabited

/-- Class I modifier (R219). -/
structure IMod where
  ty  : ITy
  sat : Bool
  deriving DecidableEq, Repr, Inhabited

/-- Rounding modes (R47). -/
inductive Rnd where
  | rne | rtz | rup | rdn
  deriving DecidableEq, Repr, Inhabited

/-- Tile formats (R40). -/
inductive Fmt where
  | fp64 | fp32 | fp16 | bf16 | e4m3 | e5m2 | e3m2 | e2m3 | e2m1
  | mxe4m3 | mxe5m2 | mxe3m2 | mxe2m3 | mxfp4 | e8m0 | dxf4 | dxf8
  | int4 | int8 | nat8 | int16 | int32 | nat32 | int64 | cf32 | cf64
  deriving DecidableEq, Repr, Inhabited

/-- Class F modifier of a scalar float instruction (R219, R247). -/
structure FMod where
  fmt : Fmt
  rnd : Rnd
  deriving DecidableEq, Repr, Inhabited

/-- The fields FMT, RND and SATX of a tile modifier (R267). -/
structure TMod where
  fmt  : Option Fmt
  rnd  : Rnd
  satx : Bool
  deriving DecidableEq, Repr, Inhabited

/-- Accumulator formats (R99, R292, R296). -/
inductive AFmt where
  | fp32 | fp64 | i32 | cf32 | cf64
  deriving DecidableEq, Repr, Inhabited

/-- Scalar types of CVT (R262). -/
inductive CTy where
  | fp64 | fp32 | fp16 | bf16 | e4m3 | e5m2 | int (t : ITy)
  deriving DecidableEq, Repr, Inhabited

/-- Kinds of TIOTA's MODE (R276). -/
inductive IotaMode where
  | lin | row | col
  deriving DecidableEq, Repr, Inhabited

/-- Operation of TRED (R282). -/
inductive RedOp where
  | sum | min | max
  deriving DecidableEq, Repr, Inhabited

/-- Axis of TRED (R282). -/
inductive RedAxis where
  | row | col | all
  deriving DecidableEq, Repr, Inhabited

/-- Rotation of TCONV (R62, R284). -/
inductive Had where
  | none | h16 | h32
  deriving DecidableEq, Repr, Inhabited

/-- Fence scopes (R325). -/
inductive Scope where
  | seat | core | die | dev | fab
  deriving DecidableEq, Repr, Inhabited

/-- Fence kinds (R325). -/
inductive FenceKind where
  | acq | rel | full
  deriving DecidableEq, Repr, Inhabited

/-- Kinds of sync slot (R328). -/
inductive SyKind where
  | ph | join | tq
  deriving DecidableEq, Repr, Inhabited

/-- Forms of SYSR and SYSW (R358). -/
inductive SysForm where
  | seat | core | tab | eng
  deriving DecidableEq, Repr, Inhabited

/-- Scopes of TLBINV (R361). -/
inductive InvScope where
  | page | dom | vdev
  deriving DecidableEq, Repr, Inhabited

/-- The strands of a thread (R22). -/
inductive StrandK where
  | main | matrix | copy
  deriving DecidableEq, Repr, Inhabited

/-- Host registers without behaviour of their own (REGISTER_WRITE): R132, R384, R389, R394, R403, R409, R411. -/
inductive HostReg where
  | qbase | qsize | qpri | qown | qseq
  | ldsrc | ldlen | lddst | ldcap | ldsig
  | qtsel | qtimg
  | cpkind | cppage | cpcnt | cpent | cproot
  | dbgsrc | fwsel | fwsrc | fwlen
  | qkey | ldstate | lderr | ldsel | ldrev | ldused | cpstat | cpdone   -- BAR0 registers that the host only reads (R408)
  | qkill | qkstat                          -- BAR2: QKILL without GO, QKSTAT (R394)
  | eccc | eccu | mscc | mscu | drc | dru   -- counters, written 0 by the management core (R186, R194)
  deriving DecidableEq, Repr, Inhabited

/-- Operation of an atomic (R323). -/
inductive AtomOp where
  | add | min | max | and | or | xor | xchg | cas (new : BitVec 64) | incw | fadd (f : Fmt) (r : Rnd)
  deriving DecidableEq, Repr, Inhabited

/-- What an outside agent asks of a home: a read or a write of bytes, or an atomic in a type (R110, R111). -/
inductive OutAcc where
  | read  (len : Nat)
  | write (bytes : List (BitVec 8))
  | atomic (op : AtomOp) (ty : ITy) (v : BitVec 64)
  deriving DecidableEq, Repr, Inhabited

/-- A 64-byte line of device memory, in the device that the host answers for (R110). -/
structure HostLine where
  vdev : Nat
  line : Nat
  deriving DecidableEq, Repr, Inhabited

/-- A step of the power limit: up or down, and the module's power in watts at that moment (R414). -/
structure PowerStep where
  up    : Bool
  power : Nat
  deriving DecidableEq, Repr, Inhabited

/-- What a page that is to be pulled is committed with: its owner and who else may reach it (R158, R397). -/
structure PulledPage where
  owner   : Nat
  shared  : Bool
  hostvis : Bool
  deriving DecidableEq, Repr, Inhabited

/-- A proposal that the tenant makes within its SPDM session (R408). -/
structure SessionReq where
  page : BitVec 26
  cnt  : BitVec 16
  ent  : BitVec 64
  root : BitVec 64
  deriving DecidableEq, Repr, Inhabited

/-- One constructor for each row of the opcode table. -/
inductive Instr where
  -- family 0x0 (R249)
  | nop (h : Head)
  | bra (h : Head) (a : Src)
  | brx (h : Head) (lim : Nat) (a b : Src)
  | call (h : Head) (d : Nat) (a : Src)
  | ret (h : Head) (a : Src)
  | loop (h : Head) (d : Nat) (a : Src)
  | rep (h : Head) (ds as bs : Nat) (a : Src)
  | exit (h : Head)
  | waitf (h : Head) (a : Src) (b : Option Src)
  -- family 0x1 (R254)
  | mov (h : Head) (ty : ITy) (d : Nat) (a : Src)
  | ldil (h : Head) (d : Nat) (k : BitVec 32)
  | ldih (h : Head) (d : Nat) (k : BitVec 32)
  | add (h : Head) (m : IMod) (d : Nat) (a b : Src)
  | sub (h : Head) (m : IMod) (d : Nat) (a b : Src)
  | mul (h : Head) (m : IMod) (d : Nat) (a b : Src)
  | mulh (h : Head) (ty : ITy) (d : Nat) (a b : Src)
  | mad (h : Head) (m : IMod) (d : Nat) (a b : Src)
  | div (h : Head) (m : IMod) (d : Nat) (a b : Src)
  | rem (h : Head) (ty : ITy) (d : Nat) (a b : Src)
  | neg (h : Head) (m : IMod) (d : Nat) (a : Src)
  | abs (h : Head) (m : IMod) (d : Nat) (a : Src)
  | min (h : Head) (ty : ITy) (d : Nat) (a b : Src)
  | max (h : Head) (ty : ITy) (d : Nat) (a b : Src)
  | and (h : Head) (ty : ITy) (d : Nat) (a b : Src)
  | or (h : Head) (ty : ITy) (d : Nat) (a b : Src)
  | xor (h : Head) (ty : ITy) (d : Nat) (a b : Src)
  | andn (h : Head) (ty : ITy) (d : Nat) (a b : Src)
  | shl (h : Head) (ty : ITy) (d : Nat) (a b : Src)
  | shr (h : Head) (ty : ITy) (d : Nat) (a b : Src)
  | sar (h : Head) (ty : ITy) (d : Nat) (a b : Src)
  | rol (h : Head) (ty : ITy) (d : Nat) (a b : Src)
  | bext (h : Head) (ty : ITy) (d : Nat) (a b : Src)
  | bins (h : Head) (ty : ITy) (d : Nat) (a b : Src)
  | clz (h : Head) (ty : ITy) (d : Nat) (a : Src)
  | ctz (h : Head) (ty : ITy) (d : Nat) (a : Src)
  | popc (h : Head) (ty : ITy) (d : Nat) (a : Src)
  | sel (h : Head) (ty : ITy) (psel : Nat) (pinv : Bool) (d : Nat) (a b : Src)
  | gaddr (h : Head) (d : Nat) (a b : Src)
  -- family 0x2 (R260 to R262)
  | fadd (h : Head) (m : FMod) (d : Nat) (a b : Src)
  | fmul (h : Head) (m : FMod) (d : Nat) (a b : Src)
  | ffma (h : Head) (m : FMod) (d : Nat) (a b : Src)
  | fmin (h : Head) (f : Fmt) (d : Nat) (a b : Src)
  | fmax (h : Head) (f : Fmt) (d : Nat) (a b : Src)
  | fcmp (h : Head) (f : Fmt) (cc : Nat) (d : Nat) (a b : Src)
  | cvt (h : Head) (dty sty : CTy) (rnd : Rnd) (satc : Bool) (d : Nat) (a : Src)
  -- family 0x3 (R263, R264)
  | cmp (h : Head) (ty : ITy) (cc : Nat) (d : Nat) (a b : Src)
  | pset (h : Head) (pa pb lut : Nat) (d : Nat)
  -- family 0x4 (R272, R276)
  | tview (h : Head) (d : Nat) (a : Src)
  | tvalid (h : Head) (clamp : Bool) (d : Nat) (a b : Src)
  | tget (h : Head) (d : Nat) (a b : Src)
  | tldr (h : Head) (d : Nat) (a : Src)
  | tmov (h : Head) (f : Option Fmt) (d : Nat) (a : Src)
  | tcopy (h : Head) (f : Option Fmt) (d : Nat) (a : Src)
  | tfill (h : Head) (f : Option Fmt) (d : Nat) (a : Src)
  | tiota (h : Head) (m : TMod) (mode : IotaMode) (d : Nat) (a b : Src)
  -- family 0x5 (R276 to R282)
  | tbcast (h : Head) (f : Option Fmt) (col : Bool) (d : Nat) (a : Src)
  | ttrans (h : Head) (f : Option Fmt) (d : Nat) (a : Src)
  | tgather (h : Head) (f : Option Fmt) (flat : Bool) (d : Nat) (a b : Src)
  | tadd (h : Head) (m : TMod) (d : Nat) (a b : Src)
  | tsub (h : Head) (m : TMod) (d : Nat) (a b : Src)
  | tmul (h : Head) (m : TMod) (d : Nat) (a b : Src)
  | tfma (h : Head) (m : TMod) (d : Nat) (a b : Src)
  | tdiv (h : Head) (f : Option Fmt) (rnd : Rnd) (d : Nat) (a b : Src)
  | tmin (h : Head) (f : Option Fmt) (d : Nat) (a b : Src)
  | tmax (h : Head) (f : Option Fmt) (d : Nat) (a b : Src)
  | tabs (h : Head) (f : Option Fmt) (satx : Bool) (d : Nat) (a : Src)
  | tneg (h : Head) (f : Option Fmt) (satx : Bool) (d : Nat) (a : Src)
  | tand (h : Head) (f : Option Fmt) (d : Nat) (a b : Src)
  | tor (h : Head) (f : Option Fmt) (d : Nat) (a b : Src)
  | txor (h : Head) (f : Option Fmt) (d : Nat) (a b : Src)
  | tshl (h : Head) (f : Option Fmt) (d : Nat) (a b : Src)
  | tshr (h : Head) (f : Option Fmt) (d : Nat) (a b : Src)
  | tcmp (h : Head) (f : Option Fmt) (cc : Nat) (d : Nat) (a b : Src)
  | tsel (h : Head) (f : Option Fmt) (mv : Nat) (d : Nat) (a b : Src)
  | tcmul (h : Head) (f : Option Fmt) (rnd : Rnd) (d : Nat) (a b : Src)
  | tcfma (h : Head) (f : Option Fmt) (rnd : Rnd) (d : Nat) (a b : Src)
  | tred (h : Head) (m : TMod) (op : RedOp) (axis : RedAxis) (d : Nat) (a : Src)
  -- family 0x6 (R283 to R286)
  | texp2 (h : Head) (f : Option Fmt) (d : Nat) (a : Src)
  | tlog2 (h : Head) (f : Option Fmt) (d : Nat) (a : Src)
  | trcp (h : Head) (f : Option Fmt) (rnd : Rnd) (d : Nat) (a : Src)
  | trsq (h : Head) (f : Option Fmt) (d : Nat) (a : Src)
  | tsqrt (h : Head) (f : Option Fmt) (rnd : Rnd) (d : Nat) (a : Src)
  | tsin (h : Head) (f : Option Fmt) (d : Nat) (a : Src)
  | tcos (h : Head) (f : Option Fmt) (d : Nat) (a : Src)
  | tconv (h : Head) (m : TMod) (had : Had) (d : Nat) (a : Src) (b : Option Src)
  | tscale (h : Head) (f : Option Fmt) (rnd : Rnd) (d : Nat) (a b : Src)
  | tsplit (h : Head) (f : Option Fmt) (d : Nat) (a : Src)
  -- family 0x7 (R292 to R298)
  | mma (h : Head) (af : AFmt) (sat : Bool) (d : Nat) (a b : Src)
  | mmac (h : Head) (af : AFmt) (d : Nat) (a b : Src)
  | mzero (h : Head) (af : AFmt) (d : Nat) (a b : Src)
  | mload (h : Head) (af : AFmt) (d : Nat) (a : Src)
  | mdrain (h : Head) (af : AFmt) (rnd : Rnd) (satx clr : Bool) (d : Nat) (a : Src) (b : Option Src)
  | mdrainc (h : Head) (af : AFmt) (z : Nat) (add clr satx t : Bool) (d : Nat) (a : Src) (b : Option Src)
  | mgang (h : Head) (af : AFmt) (sat : Bool) (d : Nat) (a b : Src)
  -- family 0x8 (R302 to R311)
  | cpyLd (h : Head) (z : Nat) (t c fit : Bool) (d : Nat) (a : Src)
  | cpySt (h : Head) (z : Nat) (t c : Bool) (d : Nat) (a : Src)
  | cpyg (h : Head) (z : Nat) (c : Bool) (d : Nat) (a b : Src)
  | cpys (h : Head) (z : Nat) (c : Bool) (d : Nat) (a b : Src)
  | cpyadd (h : Head) (z : Nat) (t c : Bool) (d : Nat) (a : Src)
  | cpyx (h : Head) (a : Src)
  | tlwait (h : Head) (d : Nat) (a : Src)
  | tlget (h : Head) (d : Nat) (a b : Src)
  | tladv (h : Head) (d : Nat) (a : Src)
  -- family 0x9 (R318)
  | ld (h : Head) (sz : Nat) (sx : Bool) (d : Nat) (a b : Src)
  | ldTile (h : Head) (d : Nat) (a b : Src)
  | st (h : Head) (sz : Nat) (d : Nat) (a b : Src)
  | stTile (h : Head) (d : Nat) (a b : Src)
  | lda (h : Head) (sz : Nat) (sx : Bool) (d : Nat) (a b : Src)
  | stl (h : Head) (sz : Nat) (d : Nat) (a b : Src)
  | pref (h : Head) (a b : Src)
  -- family 0xA (R323 to R326)
  | aadd (h : Head) (ty : ITy) (d : Option Nat) (a b : Src)
  | amin (h : Head) (ty : ITy) (d : Option Nat) (a b : Src)
  | amax (h : Head) (ty : ITy) (d : Option Nat) (a b : Src)
  | aand (h : Head) (ty : ITy) (d : Option Nat) (a b : Src)
  | aor (h : Head) (ty : ITy) (d : Option Nat) (a b : Src)
  | axor (h : Head) (ty : ITy) (d : Option Nat) (a b : Src)
  | axchg (h : Head) (ty : ITy) (d : Option Nat) (a b : Src)
  | acas (h : Head) (ty : ITy) (d : Option Nat) (a b : Src)
  | aincw (h : Head) (ty : ITy) (d : Option Nat) (a b : Src)
  | afadd (h : Head) (m : FMod) (d : Option Nat) (a b : Src)
  | fence (h : Head) (scope : Scope) (kind : FenceKind)
  | codefLoc (h : Head)
  | codefDev (h : Head) (a b : Src)
  -- family 0xB (R328 to R331)
  | synew (h : Head) (kind : SyKind) (pst : Nat) (d : Nat) (a : Src)
  | syfree (h : Head) (d : Nat)
  | phreg (h : Head) (d : Nat) (a : Src) (b : Option Src)
  | phdrop (h : Head) (d : Nat) (a : Src) (b : Option Src)
  | phsig (h : Head) (d : Nat) (b : Option Src)
  | phwait (h : Head) (mem : Bool) (d : Nat) (a b : Option Src)
  | phnext (h : Head) (d : Nat) (b : Option Src)
  | tqacq (h : Head) (slot : Nat) (d : Nat) (b : Option Src)
  | tqpost (h : Head) (d : Nat) (a : Src) (b : Option Src)
  | tqtake (h : Head) (slot : Nat) (d : Nat) (b : Option Src)
  | tqrel (h : Head) (d : Nat) (a : Src) (b : Option Src)
  | sstep (h : Head)
  | join (h : Head) (d : Nat) (b : Option Src)
  | leave (h : Head) (d : Nat) (b : Option Src)
  -- family 0xC (R332 to R339)
  | fork (h : Head) (a b : Src)
  | rfork (h : Head) (a b : Src)
  | task (h : Head) (d : Nat)
  | taskEv (h : Head) (pst : Nat) (d : Nat)
  | tdone (h : Head) (d : Nat) (b : Option Src)
  | efork (h : Head) (copy : Bool) (pst : Nat) (a : Src)
  | rdv (h : Head)
  | launch (h : Head) (d : Option Nat) (a b : Src)
  | send (h : Head) (len : Nat) (xl : Bool) (a b : Src)
  | recv (h : Head) (d : Nat)
  -- family 0xD (R341)
  | gpost (h : Head) (d : Nat) (a : Src)
  | gretract (h : Head) (pst : Nat) (a : Src)
  | gwin (h : Head) (wr ww : Bool) (d : Nat) (a b : Src)
  | gcall (h : Head) (a : Src) (b : Option Src)
  | gret (h : Head)
  | ginfo (h : Head) (d : Nat) (a : Src)
  | gclean (h : Head)
  | drevoke (h : Head) (a : Src)
  | drevokeKill (h : Head) (a : Src)
  -- family 0xE, Escapement (R350)
  | esubOpen (h : Head) (pst : Nat) (d : Nat) (a : Src)
  | esub (h : Head) (a b : Src)
  | ecloseCut (h : Head) (a : Src)
  | ecloseEnd (h : Head) (a : Src)
  | enext (h : Head) (d : Nat) (a b : Src)
  | enextDone (h : Head) (a b : Src)
  | estat (h : Head) (d : Nat) (a : Src)
  -- family 0xE, system (R357)
  | sysr (h : Head) (form : SysForm) (d : Nat) (a : Src) (b : Option Src)
  | sysw (h : Head) (form : SysForm) (d : Option Nat) (a b : Src)
  | trap (h : Head) (a : Src)
  | eret (h : Head)
  | wait (h : Head) (tmo : Nat) (d : Nat) (a b : Src)
  | tlbinv (h : Head) (sc : InvScope) (d : Nat) (a b : Option Src)
  | hinst (h : Head) (a : Src)
  | chkp (h : Head) (d : Nat) (a : Src)
  | chkx (h : Head)
  | follow (h : Head) (w ht : Nat) (d : Nat) (a : Src)
  | unfollow (h : Head)
  | capr (h : Head) (d : Nat) (a : Src)
  | sigcorePre (h : Head) (pst : Nat) (a : Src)
  | sigcoreSpawn (h : Head) (pst : Nat) (a : Src) (b : Src)
  | sigcoreRes (h : Head) (pst : Nat) (a : Src) (b : Src)
  -- steps of homes, walkers and engines
  | accessReply (n : Nat)
  | homeFailureReport (n : Nat)
  | remoteAccess (n p : Nat)
  | deviceHomeAccess (n p : Nat)
  | translationWalk (n : Nat)
  | dirtyLogAtomic (n : Nat)
  | tlbinvComplete (vd : Nat)
  | copyOpRetire (c k op : Nat)
  | matrixOpRetire (c op : Nat)
  | engineFault (c x op : Nat)
  -- steps of the core's units
  | messageArrival (n : Nat)
  | messageRetry (n : Nat)
  | superstepRelease (lid : Nat)
  | idleSeatSearch (c k : Nat)
  | returnSlotEntry (c : Nat)
  | issueHoldExpiry (c k : Nat) (st : StrandK)
  | waitTimeout (c k : Nat)
  | chkpTimeout (c : Nat)
  | chkxTimeout (c : Nat)
  | quotaExpiry (c k : Nat)
  | threadSave (c k : Nat)
  | savefaultTimeout (c k : Nat)
  | coreImageSave (c addr : Nat)
  | turnStart (vd : Nat)
  | handlerTimeout (c k : Nat)
  | unwindTake (c k : Nat)
  | unwindPop (c k : Nat)
  | cleanupOverrun (c k : Nat)
  | domainFreed (vd d : Nat)
  | escapementBatchRelease (die : Nat)
  -- steps of the Regulator, the dispatcher and the loader
  | regulatorFire (slot : Nat)
  | doorbell (vd q : Nat) (put : BitVec 32)
  | qcmdEnd (vd q : Nat)
  | qcmdLaunch (vd q : Nat)
  | qcmdCopy (vd q : Nat)
  | qcmdSignal (vd q : Nat)
  | qcmdWait (vd q : Nat)
  | copyCommandComplete (vd q : Nat)
  | dispatchVisit (vd : Nat)
  | startMessage (lid c : Nat)
  | launchComplete (lid : Nat)
  | queueEnable (vd q : Nat)
  | queueKill (vd q : Nat) (domk : Bool)
  | loadGo (vd : Nat)
  | loadComplete (vd : Nat)
  -- host and firmware
  | quotaWrite
  | quotaTeardown
  | dlgetWrite (vd : Nat) (v : BitVec 64)
  | registerWrite (r : HostReg) (vd q : Nat) (v : BitVec 64)
  | hostMemAccess (vd dpa : Nat) (acc : OutAcc)
  | backInvalidateResponse (l : HostLine)
  | fabricRequest (vd dom : Nat) (va : BitVec 64) (acc : OutAcc)
  | pullDataArrival (page : Nat) (bytes : List (BitVec 8))
  | pullFail (page : Nat)
  -- the Caddy
  | proposePage (vd : Nat) (req : Option SessionReq)
  | proposeDomain (vd : Nat) (req : Option SessionReq)
  | reclaimZeroFillDone (page : Nat)
  | getVersion
  | getCapabilities
  | negotiateAlgorithms (asym hash dhe aead : Nat)
  | getDigests
  | getCertificate (slot off len : Nat)
  | setCertificate (slot : Nat) (chain : List (BitVec 8))
  | challenge (slot : Nat) (nonce : BitVec 256)
  | getMeasurements (index : Nat)
  | keyExchange (slot : Nat) (peer : BitVec 768)
  | finish (mac : BitVec 512)
  | endSession
  | keySlotLoad (vd slot use q : Nat)
  | keySlotErase (vd slot : Nat)
  | ideKm (fn : Nat)
  | ideStreamFailure (fn : Nat)
  | lockInterfaceRequest (fn : Nat)
  | startInterfaceRequest (fn : Nat) (nonce : BitVec 256)
  | stopInterfaceRequest (fn : Nat)
  | getDeviceInterfaceReport (fn : Nat)
  | getDeviceInterfaceState (fn : Nat)
  | debugTokenSubmit
  | fwStage
  | fwActivate
  | fwSwitch (sub : Nat) (selfTest : Bool)
  -- links, reset, time, power
  | flitTagFail (link : Nat) (retrained : Bool)
  | linkRekey (link : Nat)
  | coreRetire (n : Nat)
  | ptpSync (offsetNs : Int) (elapsedNs : Nat)
  | thermalStep (temp : Nat)
  | thermalTrip (temp : Nat)
  | coolantFlowLow (flow : Nat)
  | powerLimitStep (p : PowerStep)
  | dieReset (die : Nat) (reason : BitVec 64)
  | moduleColdReset
  | migrationStart (vd page srcdev key : Nat) (own : PulledPage)
  | challengeResponseSent
  | storeAcknowledgement (n : Nat)
  | remoteSyncArrival (n : Nat)
  | coolantFlowRestored (flow : Nat)
  deriving DecidableEq, Repr, Inhabited

/-- Rows of the table that are steps of units or of the outside, not ZIS words. -/
def Instr.isEvent : Instr → Bool
  | .accessReply .. | .homeFailureReport .. | .remoteAccess .. | .deviceHomeAccess .. | .translationWalk ..
  | .dirtyLogAtomic .. | .tlbinvComplete .. | .copyOpRetire .. | .matrixOpRetire .. | .engineFault ..
  | .messageArrival .. | .messageRetry .. | .superstepRelease .. | .idleSeatSearch .. | .returnSlotEntry ..
  | .issueHoldExpiry .. | .waitTimeout .. | .chkpTimeout .. | .chkxTimeout .. | .quotaExpiry .. | .threadSave ..
  | .savefaultTimeout .. | .coreImageSave .. | .turnStart .. | .handlerTimeout .. | .unwindTake .. | .unwindPop ..
  | .cleanupOverrun .. | .domainFreed .. | .escapementBatchRelease .. | .regulatorFire .. | .doorbell ..
  | .qcmdEnd .. | .qcmdLaunch .. | .qcmdCopy .. | .qcmdSignal .. | .qcmdWait .. | .copyCommandComplete ..
  | .dispatchVisit .. | .startMessage .. | .launchComplete .. | .queueEnable .. | .queueKill .. | .loadGo ..
  | .loadComplete .. | .quotaWrite | .quotaTeardown | .dlgetWrite .. | .registerWrite .. | .hostMemAccess ..
  | .backInvalidateResponse .. | .fabricRequest .. | .pullDataArrival .. | .pullFail .. | .proposePage ..
  | .proposeDomain .. | .reclaimZeroFillDone .. | .getVersion | .getCapabilities | .negotiateAlgorithms ..
  | .getDigests | .getCertificate .. | .setCertificate .. | .challenge .. | .getMeasurements .. | .keyExchange ..
  | .finish .. | .endSession | .keySlotLoad .. | .keySlotErase .. | .ideKm .. | .ideStreamFailure ..
  | .lockInterfaceRequest .. | .startInterfaceRequest .. | .stopInterfaceRequest .. | .getDeviceInterfaceReport ..
  | .getDeviceInterfaceState .. | .debugTokenSubmit | .fwStage | .fwActivate | .fwSwitch .. | .flitTagFail ..
  | .linkRekey .. | .coreRetire .. | .ptpSync .. | .thermalStep .. | .thermalTrip .. | .coolantFlowLow ..
  | .powerLimitStep .. | .dieReset .. | .moduleColdReset | .migrationStart .. | .challengeResponseSent
  | .storeAcknowledgement .. | .remoteSyncArrival .. | .coolantFlowRestored .. => true
  | _ => false

/-- Memories that an error correcting code protects (R91, R99, R106, R108, R213). -/
inductive EccMem where
  | bank | acc | cache | dram | deque | sync | table
  deriving DecidableEq, Repr, Inhabited

/-- What acts next: one issue of an engine strand, one choice of a core's issue port (R20), or one step of another unit or
of the outside. `pre` is how many words the strand then prefetches (R376, R386). `reach` says how many granules the tile
engine moves before it pauses, and which come first, none for all (R270). `flaw` is a bit error that strikes word or line
`n` of a memory, or the deque or sync unit of core `n`, or a table of virtual device `n`: one that can be corrected, or
`hard` (R91, R108, R213). `pass` is time that goes by: nanoseconds of the reference clock, arithmetic-clock cycles (R83,
R186, R195). -/
inductive Move where
  | strand (c k : Nat) (st : StrandK) (pre : Nat)
  | port (c : Nat) (pre : Nat)
  | event (i : Instr)
  | reach (l : Option (List Nat))
  | flaw (m : EccMem) (n : Nat) (hard : Bool)
  | pass (ns cycles : Nat)
  | flits (link : Nat) (tx : Bool) (n : Nat)
  deriving DecidableEq, Repr, Inhabited

/-! ### Fynik programs (R382) -/

/-- Scopes of the Fynik model. -/
inductive FyScope where
  | unit | core | device | fabric
  deriving DecidableEq, Repr, Inhabited

/-- What orders accesses of a Fynik unit. -/
inductive FyOrd where
  | acquire | release | fence | atomic
  deriving DecidableEq, Repr, Inhabited

/-- One operation of a unit. A read may be an acquire of a scope, a write a release. -/
inductive FyOp where
  | read   (addr len : Nat) (acq : Option FyScope)
  | write  (addr : Nat) (bytes : List (BitVec 8)) (rel : Option FyScope)
  | atomic (op : AtomOp) (addr : Nat) (ty : ITy) (v : Nat) (sc : FyScope)
  | fence  (sc : FyScope)
  deriving DecidableEq, Repr, Inhabited

/-- A work unit: its declared regions (address, length), the orders that it uses, and its next operation after the values
returned so far, none at its end. -/
structure FyUnit where
  reads  : List (Nat × Nat)
  writes : List (Nat × Nat)
  uses   : List (FyOrd × FyScope)
  next   : List (List (BitVec 8)) → Option FyOp
  deriving Inhabited

/-- A step: work units, or transfers, each a logical rank and the fields of a transfer-table entry (R150). -/
inductive FyStep where
  | compute (us : List FyUnit)
  | comm (ts : List (Nat × List (BitVec 8)))
  deriving Inhabited

/-- A program entry: its tensor entries (R147) and its steps; bytes of a core's local memory and depth of seats that it needs
(R383). -/
structure FyEntry where
  local_  : Nat
  depth   : Nat
  tensors : List (List (BitVec 8))
  steps   : List FyStep
  deriving Inhabited

end Sys2Proof
end

