-- ==== Sys2Proof/Config.lean ====
section
/-! DEFINITION. What the manual leaves open: constants without a body, so that a claim holds whatever they are. Each is
named in the assumption log. -/
namespace Sys2Proof.Config

/-- Which agent acts at the n-th free choice (R231, R375; log 1). -/
opaque nextMove : Nat → Move

/-- Which of the cores that still have transfers in a superstep moves next (R151, log 1). -/
opaque nextRank : Nat → Nat

/-- Functions of R283 whose result is bounded but not fixed. -/
inductive Special where
  | exp2 | log2 | rsq | sin | cos
  deriving DecidableEq, Repr

/-- Result bits of a special function in FP64 or FP32: function, double precision, argument bits. The model takes them
where they lie within the bound of R283 (log 9). -/
opaque special : Special → Bool → BitVec 64 → BitVec 64

/-- Header bytes of a block that a copy puts together from two blocks (R302; log 16). -/
opaque blockHdr : Nat → BitVec 16

/-- Bytes of a core image whose layout R208 does not give: image number, offset (log 18). -/
opaque imageByte : Nat → Nat → BitVec 8

/-- An E8M0 pattern for ±m · 2^e that is zero, negative, rounds to zero, or overflows where no largest value is delivered
(R41, R48, R50; log 13). -/
opaque scaleOf : Bool → Nat → Int → BitVec 8

/-- An E8M0 pattern for an infinity of a sign (R50; log 13). -/
opaque scaleInf : Bool → BitVec 8

/-- AES-256-GMAC tag of a command segment: key slot, its generation, nonce, bytes (R133, log 10). -/
opaque gmac : Nat → Nat → BitVec 96 → List (BitVec 8) → BitVec 128

/-- Signature check of a debug token or firmware image (R409, R411; log 10). -/
opaque sigOk : Nat → List (BitVec 8) → Bool

/-- A signature that the Caddy makes over a transcript (R405, log 10). -/
opaque sign : List (BitVec 8) → List (BitVec 8)

/-- A number drawn by the Caddy: nonces and keys (R400, R408, R409; log 10). -/
opaque random : Nat → BitVec 256

/-- The session message check of FINISH (R405, log 10). -/
opaque finishOk : BitVec 768 → BitVec 512 → Bool

/-- The Caddy's public value of a key exchange (R405, log 10). -/
opaque keyShare : Nat → BitVec 768

/-- The program that a Fynik image holds, by its entries; none where the image breaks its format (R382, R383, log 11). -/
opaque fynikProgram : List (BitVec 8) → Option (List FyEntry)

/-- The translation of a Fynik image: image bytes, REV, capability words; none ends the load with error 0x06
(R383, log 11). -/
opaque fynik : List (BitVec 8) → Nat → List (BitVec 64) → Option (List (BitVec 8))

/-- Whether, at a free choice, the drain port sends before the unit drains on (R291, R298; log 1). -/
opaque portFirst : Nat → Bool

/-- The highest Fynik version that the firmware accepts (R381, log 11). -/
opaque fynikVer : Nat

/-- The security version that a firmware image states (R411, log 10). -/
opaque secVersion : List (BitVec 8) → Nat

/-- Lanes in use of a link after it has retrained, as its event names them (R141, log 64). -/
opaque linkLanes : Nat → Nat → Nat

/-- The module serial number in a debug token (R409, log 10). -/
opaque serial : BitVec 64

/-- The identity chain of certificate slot 0, fixed at manufacture (R407, log 10). -/
opaque identityChain : List (BitVec 8)

/-- The digest of a subsystem's first firmware image, blocks 1 to 6 (R406, log 10). -/
opaque firstMeasurement : Nat → BitVec 512

/-- A line's new entry takes the place of which cached translation (R114, log 12): the position in the full cache. -/
opaque tlbVictim : Nat → Nat

end Sys2Proof.Config
end

