-- ==== Sys2Proof/Decode.lean ====
section
/-! DEFINITION. From words to instructions and back (R214 to R233). `decode` is total: it answers an instruction, or
the decode check of R232 that refuses the word. -/
namespace Sys2Proof

/-- Bits `lo + w - 1 : lo` of a natural number. -/
def bitsAt (v lo w : Nat) : Nat := v / 2 ^ lo % 2 ^ w

/-- Bit `lo` of a natural number. -/
def bitAt (v lo : Nat) : Bool := v / 2 ^ lo % 2 == 1

/-- The fields of a word (R214). -/
structure Fields where
  opc   : Nat
  ginv  : Bool
  gpred : Nat
  endH  : Bool
  yld   : Bool
  pri   : Nat
  dly   : Nat
  dkind : Nat
  dnum  : Nat
  dmod  : Nat
  akind : Nat
  afe   : Bool
  aval  : Nat
  bkind : Nat
  bfe   : Bool
  bval  : Nat
  deriving DecidableEq, Repr

/-- The fields of a word (R214). -/
def fieldsOf (w : IWord) : Fields :=
  let n := w.toNat
  { opc := bitsAt n 86 10, ginv := bitAt n 85, gpred := bitsAt n 82 3, endH := bitAt n 81, yld := bitAt n 80,
    pri := bitsAt n 78 2, dly := bitsAt n 74 4, dkind := bitsAt n 72 2, dnum := bitsAt n 64 8,
    dmod := bitsAt n 50 14, akind := bitsAt n 48 2, afe := bitAt n 47, aval := bitsAt n 25 22,
    bkind := bitsAt n 23 2, bfe := bitAt n 22, bval := bitsAt n 0 22 }

/-- The word that holds these fields (R214). -/
def wordOf (f : Fields) : IWord :=
  BitVec.ofNat 96 (f.opc * 2 ^ 86 + f.ginv.toNat * 2 ^ 85 + f.gpred * 2 ^ 82 + f.endH.toNat * 2 ^ 81
    + f.yld.toNat * 2 ^ 80 + f.pri * 2 ^ 78 + f.dly * 2 ^ 74 + f.dkind * 2 ^ 72 + f.dnum * 2 ^ 64 + f.dmod * 2 ^ 50
    + f.akind * 2 ^ 48 + f.afe.toNat * 2 ^ 47 + f.aval * 2 ^ 25 + f.bkind * 2 ^ 23 + f.bfe.toNat * 2 ^ 22 + f.bval)

/-! ### Codes -/

/-- R219. -/
def ITy.code : ITy → Nat
  | .i8 => 0 | .i16 => 1 | .i32 => 2 | .i64 => 3 | .n8 => 4 | .n16 => 5 | .n32 => 6 | .n64 => 7

/-- R219. -/
def ITy.ofCode (c : Nat) : ITy :=
  if c = 0 then .i8 else if c = 1 then .i16 else if c = 2 then .i32 else if c = 3 then .i64
  else if c = 4 then .n8 else if c = 5 then .n16 else if c = 6 then .n32 else .n64

/-- R47. -/
def Rnd.code : Rnd → Nat
  | .rne => 0 | .rtz => 1 | .rup => 2 | .rdn => 3

/-- R47. -/
def Rnd.ofCode (c : Nat) : Rnd :=
  if c = 0 then .rne else if c = 1 then .rtz else if c = 2 then .rup else .rdn

/-- R40. -/
def Fmt.code : Fmt → Nat
  | .fp64 => 0x01 | .fp32 => 0x02 | .fp16 => 0x03 | .bf16 => 0x04 | .e4m3 => 0x05 | .e5m2 => 0x06 | .e3m2 => 0x07
  | .e2m3 => 0x08 | .e2m1 => 0x09 | .mxe4m3 => 0x0A | .mxe5m2 => 0x0B | .mxe3m2 => 0x0C | .mxe2m3 => 0x0D
  | .mxfp4 => 0x0E | .e8m0 => 0x0F | .dxf4 => 0x10 | .dxf8 => 0x11 | .int4 => 0x18 | .int8 => 0x19 | .nat8 => 0x1A
  | .int16 => 0x1B | .int32 => 0x1C | .nat32 => 0x1D | .int64 => 0x1E | .cf32 => 0x20 | .cf64 => 0x21

/-- R40: the format that a code names, none for an unassigned code. -/
def Fmt.ofCode (c : Nat) : Option Fmt :=
  [Fmt.fp64, .fp32, .fp16, .bf16, .e4m3, .e5m2, .e3m2, .e2m3, .e2m1, .mxe4m3, .mxe5m2, .mxe3m2, .mxe2m3, .mxfp4,
   .e8m0, .dxf4, .dxf8, .int4, .int8, .nat8, .int16, .int32, .nat32, .int64, .cf32, .cf64].find? (fun f => f.code == c)

/-- FMT of a tile modifier (R267): 0 means no check. The outer none is an unassigned code. -/
def fmtOpt (c : Nat) : Option (Option Fmt) :=
  if c = 0 then some none else (Fmt.ofCode c).map some

/-- Code of FMT in a tile modifier. -/
def fmtOptCode : Option Fmt → Nat
  | none => 0
  | some f => f.code

/-- R262. -/
def CTy.code : CTy → Nat
  | .fp64 => 0 | .fp32 => 1 | .fp16 => 2 | .bf16 => 3 | .e4m3 => 4 | .e5m2 => 5 | .int t => 8 + t.code

/-- R262. -/
def CTy.ofCode (c : Nat) : Option CTy :=
  if c = 0 then some .fp64 else if c = 1 then some .fp32 else if c = 2 then some .fp16 else if c = 3 then some .bf16
  else if c = 4 then some .e4m3 else if c = 5 then some .e5m2
  else if 8 ≤ c ∧ c < 16 then some (.int (ITy.ofCode (c - 8))) else none

/-- A floating-point type of R262. -/
def CTy.isFloat : CTy → Bool
  | .int _ => false
  | _ => true

/-- AFMT with the complex bit (R292, R296). -/
def AFmt.code : AFmt → Nat
  | .fp32 => 0 | .fp64 => 1 | .i32 => 2 | .cf32 => 0 | .cf64 => 1

/-- Complex accumulator formats. -/
def AFmt.cplx : AFmt → Bool
  | .cf32 | .cf64 => true
  | _ => false

/-- AFMT of a real accumulator (R292). -/
def AFmt.ofReal (c : Nat) : Option AFmt :=
  if c = 0 then some .fp32 else if c = 1 then some .fp64 else if c = 2 then some .i32 else none

/-- AFMT of a complex accumulator (R292). -/
def AFmt.ofCplx (c : Nat) : Option AFmt :=
  if c = 0 then some .cf32 else if c = 1 then some .cf64 else none

/-- AFMT and the complex bit (R296). -/
def AFmt.ofBoth (cplx : Bool) (c : Nat) : Option AFmt :=
  if cplx then AFmt.ofCplx c else AFmt.ofReal c

/-- R276. -/
def IotaMode.code : IotaMode → Nat
  | .lin => 0 | .row => 1 | .col => 2
/-- R276. -/
def IotaMode.ofCode (c : Nat) : Option IotaMode :=
  if c = 0 then some .lin else if c = 1 then some .row else if c = 2 then some .col else none
/-- R282. -/
def RedOp.code : RedOp → Nat
  | .sum => 0 | .min => 1 | .max => 2
/-- R282. -/
def RedOp.ofCode (c : Nat) : Option RedOp :=
  if c = 0 then some .sum else if c = 1 then some .min else if c = 2 then some .max else none
/-- R282. -/
def RedAxis.code : RedAxis → Nat
  | .row => 0 | .col => 1 | .all => 2
/-- R282. -/
def RedAxis.ofCode (c : Nat) : Option RedAxis :=
  if c = 0 then some .row else if c = 1 then some .col else if c = 2 then some .all else none
/-- R284. -/
def Had.code : Had → Nat
  | .none => 0 | .h16 => 1 | .h32 => 2
/-- R284. -/
def Had.ofCode (c : Nat) : Option Had :=
  if c = 0 then some .none else if c = 1 then some .h16 else if c = 2 then some .h32 else none
/-- R325. -/
def Scope.code : Scope → Nat
  | .seat => 0 | .core => 1 | .die => 2 | .dev => 3 | .fab => 4
/-- R325. -/
def Scope.ofCode (c : Nat) : Option Scope :=
  if c = 0 then some .seat else if c = 1 then some .core else if c = 2 then some .die
  else if c = 3 then some .dev else if c = 4 then some .fab else none
/-- R325. -/
def FenceKind.code : FenceKind → Nat
  | .acq => 0 | .rel => 1 | .full => 2
/-- R325. -/
def FenceKind.ofCode (c : Nat) : Option FenceKind :=
  if c = 0 then some .acq else if c = 1 then some .rel else if c = 2 then some .full else none
/-- R328. -/
def SyKind.code : SyKind → Nat
  | .ph => 0 | .join => 1 | .tq => 2
/-- R328. -/
def SyKind.ofCode (c : Nat) : Option SyKind :=
  if c = 0 then some .ph else if c = 1 then some .join else if c = 2 then some .tq else none
/-- R358. -/
def SysForm.code : SysForm → Nat
  | .seat => 0 | .core => 1 | .tab => 2 | .eng => 3
/-- R358. -/
def SysForm.ofCode (c : Nat) : SysForm :=
  if c = 0 then .seat else if c = 1 then .core else if c = 2 then .tab else .eng
/-- R361. -/
def InvScope.code : InvScope → Nat
  | .page => 0 | .dom => 1 | .vdev => 2
/-- R361. -/
def InvScope.ofCode (c : Nat) : Option InvScope :=
  if c = 0 then some .page else if c = 1 then some .dom else if c = 2 then some .vdev else none

/-! ### Operand fields -/

/-- A or B field as it stands in a word. -/
structure OpField where
  kind : Nat
  fe   : Bool
  val  : Nat
  deriving DecidableEq, Repr

/-- The all-zero field of an absent operand (R224). -/
def OpField.absent : OpField := ⟨0, false, 0⟩

/-- Source modifier bits (R221). -/
def SrcMod.val (m : SrcMod) : Nat := m.neg.toNat * 2 ^ 13 + m.abs.toNat * 2 ^ 12 + m.conj.toNat * 2 ^ 11

/-- Source modifier of a value (R221). -/
def SrcMod.ofVal (v : Nat) : SrcMod := ⟨bitAt v 13, bitAt v 12, bitAt v 11⟩

/-- The field of a source (R220). -/
def Src.field : Src → OpField
  | .tile n m fe => ⟨0, fe, n * 2 ^ 14 + m.val⟩
  | .scal n m fe => ⟨1, fe, n * 2 ^ 14 + m.val⟩
  | .cbank b sz off => ⟨2, false, b * 2 ^ 18 + sz * 2 ^ 16 + off⟩
  | .lit v => ⟨3, false, v.toNat⟩

/-- The source that a field names (R220). -/
def Src.ofField (f : OpField) : Src :=
  if f.kind = 0 then .tile (f.val / 2 ^ 14) (SrcMod.ofVal f.val) f.fe
  else if f.kind = 1 then .scal (f.val / 2 ^ 14) (SrcMod.ofVal f.val) f.fe
  else if f.kind = 2 then .cbank (bitsAt f.val 18 4) (bitsAt f.val 16 2) (bitsAt f.val 0 16)
  else .lit (BitVec.ofNat 22 f.val)

/-- The field of an optional source (R224). -/
def optField : Option Src → OpField
  | none => .absent
  | some x => x.field

/-- The optional source that a field names: all zero is absent (R224). -/
def optOfField (f : OpField) : Option Src :=
  if f = .absent then none else some (Src.ofField f)

/-- The A field of a word. -/
def Fields.a (f : Fields) : OpField := ⟨f.akind, f.afe, f.aval⟩
/-- The B field of a word. -/
def Fields.b (f : Fields) : OpField := ⟨f.bkind, f.bfe, f.bval⟩
/-- The guard and hints of a word. -/
def Fields.head (f : Fields) : Head := ⟨f.ginv, f.gpred, f.endH, f.yld, f.pri, f.dly⟩

/-- D field: kind and number. -/
abbrev DField := Nat × Nat
/-- No D operand (R218). -/
def dNone : DField := (3, 0)
/-- A tile view in D. -/
def dTile (n : Nat) : DField := (0, n)
/-- A scalar in D. -/
def dScal (n : Nat) : DField := (1, n)
/-- A predicate, timeline or sync slot in D. -/
def dObj (n : Nat) : DField := (2, n)
/-- A scalar or no D operand. -/
def dOpt : Option Nat → DField
  | none => dNone
  | some n => dScal n

/-- Put a word's fields together. -/
def mkF (h : Head) (opc : Nat) (d : DField) (dmod : Nat) (a b : OpField) : Fields :=
  { opc, ginv := h.ginv, gpred := h.gpred, endH := h.endH, yld := h.yld, pri := h.pri, dly := h.dly,
    dkind := d.1, dnum := d.2, dmod, akind := a.kind, afe := a.fe, aval := a.val, bkind := b.kind, bfe := b.fe,
    bval := b.val }

/-- Class I modifier (R219). -/
def IMod.val (m : IMod) : Nat := m.ty.code * 2 ^ 11 + m.sat.toNat * 2 ^ 10
/-- Class F modifier (R219). -/
def FMod.val (m : FMod) : Nat := m.fmt.code * 2 ^ 8 + m.rnd.code * 2 ^ 6
/-- Tile modifier (R267). -/
def TMod.val (m : TMod) : Nat := fmtOptCode m.fmt * 2 ^ 8 + m.rnd.code * 2 ^ 6 + m.satx.toNat * 2 ^ 5
/-- AFMT and the complex bit (R296). -/
def AFmt.val (a : AFmt) : Nat := a.code * 2 ^ 12 + a.cplx.toNat * 2 ^ 11

/-! ### Encoding -/

set_option maxHeartbeats 4000000 in
/-- The fields that encode an instruction (R226, R229, R249 to R357). The steps of units have no word: opcode 0. -/
def toFields : Instr → Fields
  | .nop h => mkF h 0x001 dNone 0 .absent .absent
  | .bra h a => mkF h 0x002 dNone 0 a.field .absent
  | .brx h lim a b => mkF h 0x003 dNone lim a.field b.field
  | .call h d a => mkF h 0x004 (dScal d) 0 a.field .absent
  | .ret h a => mkF h 0x005 dNone 0 a.field .absent
  | .loop h d a => mkF h 0x006 (dScal d) 0 a.field .absent
  | .rep h ds as bs a => mkF h 0x007 dNone (ds * 2 ^ 12 + as * 2 ^ 10 + bs * 2 ^ 8) a.field .absent
  | .exit h => mkF h 0x008 dNone 0 .absent .absent
  | .waitf h a b => mkF h 0x009 dNone (b.isSome.toNat * 2 ^ 13) a.field (optField b)
  | .mov h ty d a => mkF h 0x040 (dScal d) (ty.code * 2 ^ 11) a.field .absent
  | .ldil h d k => mkF h 0x041 (dScal d) 0 ⟨3, false, k.toNat % 2 ^ 22⟩ ⟨3, false, k.toNat / 2 ^ 22⟩
  | .ldih h d k => mkF h 0x042 (dScal d) 0 ⟨3, false, k.toNat % 2 ^ 22⟩ ⟨3, false, k.toNat / 2 ^ 22⟩
  | .add h m d a b => mkF h 0x043 (dScal d) m.val a.field b.field
  | .sub h m d a b => mkF h 0x044 (dScal d) m.val a.field b.field
  | .mul h m d a b => mkF h 0x045 (dScal d) m.val a.field b.field
  | .mulh h ty d a b => mkF h 0x046 (dScal d) (ty.code * 2 ^ 11) a.field b.field
  | .mad h m d a b => mkF h 0x047 (dScal d) m.val a.field b.field
  | .div h m d a b => mkF h 0x048 (dScal d) m.val a.field b.field
  | .rem h ty d a b => mkF h 0x049 (dScal d) (ty.code * 2 ^ 11) a.field b.field
  | .neg h m d a => mkF h 0x04A (dScal d) m.val a.field .absent
  | .abs h m d a => mkF h 0x04B (dScal d) m.val a.field .absent
  | .min h ty d a b => mkF h 0x04C (dScal d) (ty.code * 2 ^ 11) a.field b.field
  | .max h ty d a b => mkF h 0x04D (dScal d) (ty.code * 2 ^ 11) a.field b.field
  | .and h ty d a b => mkF h 0x04E (dScal d) (ty.code * 2 ^ 11) a.field b.field
  | .or h ty d a b => mkF h 0x04F (dScal d) (ty.code * 2 ^ 11) a.field b.field
  | .xor h ty d a b => mkF h 0x050 (dScal d) (ty.code * 2 ^ 11) a.field b.field
  | .andn h ty d a b => mkF h 0x051 (dScal d) (ty.code * 2 ^ 11) a.field b.field
  | .shl h ty d a b => mkF h 0x052 (dScal d) (ty.code * 2 ^ 11) a.field b.field
  | .shr h ty d a b => mkF h 0x053 (dScal d) (ty.code * 2 ^ 11) a.field b.field
  | .sar h ty d a b => mkF h 0x054 (dScal d) (ty.code * 2 ^ 11) a.field b.field
  | .rol h ty d a b => mkF h 0x055 (dScal d) (ty.code * 2 ^ 11) a.field b.field
  | .bext h ty d a b => mkF h 0x056 (dScal d) (ty.code * 2 ^ 11) a.field b.field
  | .bins h ty d a b => mkF h 0x057 (dScal d) (ty.code * 2 ^ 11) a.field b.field
  | .clz h ty d a => mkF h 0x058 (dScal d) (ty.code * 2 ^ 11) a.field .absent
  | .ctz h ty d a => mkF h 0x059 (dScal d) (ty.code * 2 ^ 11) a.field .absent
  | .popc h ty d a => mkF h 0x05A (dScal d) (ty.code * 2 ^ 11) a.field .absent
  | .sel h ty psel pinv d a b =>
    mkF h 0x05B (dScal d) (ty.code * 2 ^ 11 + psel * 2 ^ 7 + pinv.toNat * 2 ^ 6) a.field b.field
  | .gaddr h d a b => mkF h 0x05C (dScal d) 0 a.field b.field
  | .fadd h m d a b => mkF h 0x080 (dScal d) m.val a.field b.field
  | .fmul h m d a b => mkF h 0x081 (dScal d) m.val a.field b.field
  | .ffma h m d a b => mkF h 0x082 (dScal d) m.val a.field b.field
  | .fmin h f d a b => mkF h 0x083 (dScal d) (f.code * 2 ^ 8) a.field b.field
  | .fmax h f d a b => mkF h 0x084 (dScal d) (f.code * 2 ^ 8) a.field b.field
  | .fcmp h f cc d a b => mkF h 0x085 (dObj d) (f.code * 2 ^ 8 + cc * 2 ^ 2) a.field b.field
  | .cvt h dty sty rnd satc d a =>
    mkF h 0x086 (dScal d) (dty.code * 2 ^ 9 + sty.code * 2 ^ 4 + rnd.code * 2 ^ 2 + satc.toNat * 2) a.field .absent
  | .cmp h ty cc d a b => mkF h 0x0C0 (dObj d) (ty.code * 2 ^ 11 + cc * 2 ^ 7) a.field b.field
  | .pset h pa pb lut d => mkF h 0x0C1 (dObj d) (pa * 2 ^ 11 + pb * 2 ^ 8 + lut * 2 ^ 4) .absent .absent
  | .tview h d a => mkF h 0x100 (dTile d) 0 a.field .absent
  | .tvalid h clamp d a b => mkF h 0x101 (dTile d) (clamp.toNat * 2 ^ 4) a.field b.field
  | .tget h d a b => mkF h 0x102 (dScal d) 0 a.field b.field
  | .tmov h f d a => mkF h 0x103 (dTile d) (fmtOptCode f * 2 ^ 8) a.field .absent
  | .tfill h f d a => mkF h 0x104 (dTile d) (fmtOptCode f * 2 ^ 8) a.field .absent
  | .tiota h m mode d a b => mkF h 0x105 (dTile d) (m.val + mode.code * 2 ^ 3) a.field b.field
  | .tcopy h f d a => mkF h 0x106 (dTile d) (fmtOptCode f * 2 ^ 8) a.field .absent
  | .tldr h d a => mkF h 0x107 (dTile d) 0 a.field .absent
  | .tadd h m d a b => mkF h 0x140 (dTile d) m.val a.field b.field
  | .tsub h m d a b => mkF h 0x141 (dTile d) m.val a.field b.field
  | .tmul h m d a b => mkF h 0x142 (dTile d) m.val a.field b.field
  | .tfma h m d a b => mkF h 0x143 (dTile d) m.val a.field b.field
  | .tdiv h f rnd d a b => mkF h 0x144 (dTile d) (fmtOptCode f * 2 ^ 8 + rnd.code * 2 ^ 6) a.field b.field
  | .tmin h f d a b => mkF h 0x145 (dTile d) (fmtOptCode f * 2 ^ 8) a.field b.field
  | .tmax h f d a b => mkF h 0x146 (dTile d) (fmtOptCode f * 2 ^ 8) a.field b.field
  | .tabs h f satx d a => mkF h 0x147 (dTile d) (fmtOptCode f * 2 ^ 8 + satx.toNat * 2 ^ 5) a.field .absent
  | .tneg h f satx d a => mkF h 0x148 (dTile d) (fmtOptCode f * 2 ^ 8 + satx.toNat * 2 ^ 5) a.field .absent
  | .tand h f d a b => mkF h 0x149 (dTile d) (fmtOptCode f * 2 ^ 8) a.field b.field
  | .tor h f d a b => mkF h 0x14A (dTile d) (fmtOptCode f * 2 ^ 8) a.field b.field
  | .txor h f d a b => mkF h 0x14B (dTile d) (fmtOptCode f * 2 ^ 8) a.field b.field
  | .tshl h f d a b => mkF h 0x14C (dTile d) (fmtOptCode f * 2 ^ 8) a.field b.field
  | .tshr h f d a b => mkF h 0x14D (dTile d) (fmtOptCode f * 2 ^ 8) a.field b.field
  | .tcmp h f cc d a b => mkF h 0x14E (dTile d) (fmtOptCode f * 2 ^ 8 + cc * 2 ^ 2) a.field b.field
  | .tsel h f mv d a b => mkF h 0x14F (dTile d) (fmtOptCode f * 2 ^ 8 + mv) a.field b.field
  | .tcmul h f rnd d a b => mkF h 0x150 (dTile d) (fmtOptCode f * 2 ^ 8 + rnd.code * 2 ^ 6) a.field b.field
  | .tcfma h f rnd d a b => mkF h 0x151 (dTile d) (fmtOptCode f * 2 ^ 8 + rnd.code * 2 ^ 6) a.field b.field
  | .tred h m op axis d a => mkF h 0x152 (dTile d) (m.val + op.code * 2 ^ 3 + axis.code * 2) a.field .absent
  | .tbcast h f col d a => mkF h 0x153 (dTile d) (fmtOptCode f * 2 ^ 8 + col.toNat * 2 ^ 4) a.field .absent
  | .ttrans h f d a => mkF h 0x154 (dTile d) (fmtOptCode f * 2 ^ 8) a.field .absent
  | .tgather h f flat d a b => mkF h 0x155 (dTile d) (fmtOptCode f * 2 ^ 8 + flat.toNat * 2 ^ 4) a.field b.field
  | .texp2 h f d a => mkF h 0x180 (dTile d) (fmtOptCode f * 2 ^ 8) a.field .absent
  | .tlog2 h f d a => mkF h 0x181 (dTile d) (fmtOptCode f * 2 ^ 8) a.field .absent
  | .trcp h f rnd d a => mkF h 0x182 (dTile d) (fmtOptCode f * 2 ^ 8 + rnd.code * 2 ^ 6) a.field .absent
  | .trsq h f d a => mkF h 0x183 (dTile d) (fmtOptCode f * 2 ^ 8) a.field .absent
  | .tsqrt h f rnd d a => mkF h 0x184 (dTile d) (fmtOptCode f * 2 ^ 8 + rnd.code * 2 ^ 6) a.field .absent
  | .tsin h f d a => mkF h 0x185 (dTile d) (fmtOptCode f * 2 ^ 8) a.field .absent
  | .tcos h f d a => mkF h 0x186 (dTile d) (fmtOptCode f * 2 ^ 8) a.field .absent
  | .tconv h m had d a b => mkF h 0x187 (dTile d) (m.val + had.code * 2 ^ 3) a.field (optField b)
  | .tscale h f rnd d a b => mkF h 0x188 (dTile d) (fmtOptCode f * 2 ^ 8 + rnd.code * 2 ^ 6) a.field b.field
  | .tsplit h f d a => mkF h 0x189 (dTile d) (fmtOptCode f * 2 ^ 8) a.field .absent
  | .mma h af sat d a b => mkF h 0x1C0 (dScal d) (af.code * 2 ^ 12 + sat.toNat * 2 ^ 11) a.field b.field
  | .mmac h af d a b => mkF h 0x1C1 (dScal d) (af.code * 2 ^ 12) a.field b.field
  | .mzero h af d a b => mkF h 0x1C2 (dScal d) af.val a.field b.field
  | .mload h af d a => mkF h 0x1C3 (dScal d) af.val a.field .absent
  | .mdrain h af rnd satx clr d a b =>
    mkF h 0x1C4 (dTile d) (af.val + rnd.code * 2 ^ 9 + satx.toNat * 2 ^ 8 + clr.toNat * 2 ^ 7) a.field (optField b)
  | .mdrainc h af z add clr satx t d a b =>
    mkF h 0x1C5 (dTile d)
      (af.code * 2 ^ 12 + z * 2 ^ 4 + add.toNat * 2 ^ 3 + clr.toNat * 2 ^ 2 + satx.toNat * 2 + t.toNat)
      a.field (optField b)
  | .mgang h af sat d a b => mkF h 0x1C6 (dScal d) (af.code * 2 ^ 12 + sat.toNat * 2 ^ 11) a.field b.field
  | .cpyLd h z t c fit d a =>
    mkF h 0x200 (dTile d) (z * 2 ^ 6 + t.toNat * 2 ^ 3 + c.toNat * 2 ^ 2 + fit.toNat * 2) a.field .absent
  | .cpySt h z t c d a =>
    mkF h 0x200 (dTile d) (z * 2 ^ 6 + 1 * 2 ^ 4 + t.toNat * 2 ^ 3 + c.toNat * 2 ^ 2) a.field .absent
  | .cpyg h z c d a b => mkF h 0x201 (dTile d) (z * 2 ^ 6 + c.toNat * 2 ^ 2) a.field b.field
  | .cpys h z c d a b => mkF h 0x202 (dTile d) (z * 2 ^ 6 + c.toNat * 2 ^ 2) a.field b.field
  | .cpyadd h z t c d a => mkF h 0x203 (dTile d) (z * 2 ^ 6 + t.toNat * 2 ^ 3 + c.toNat * 2 ^ 2) a.field .absent
  | .cpyx h a => mkF h 0x204 dNone 0 a.field .absent
  | .tlwait h d a => mkF h 0x210 (dObj d) 0 a.field .absent
  | .tlget h d a b => mkF h 0x211 (dScal d) 0 a.field b.field
  | .tladv h d a => mkF h 0x212 (dObj d) 0 a.field .absent
  | .ld h sz sx d a b => mkF h 0x240 (dScal d) (sz * 2 ^ 11 + sx.toNat * 2 ^ 10) a.field b.field
  | .ldTile h d a b => mkF h 0x240 (dTile d) 0 a.field b.field
  | .st h sz d a b => mkF h 0x241 (dScal d) (sz * 2 ^ 11) a.field b.field
  | .stTile h d a b => mkF h 0x241 (dTile d) 0 a.field b.field
  | .lda h sz sx d a b => mkF h 0x242 (dScal d) (sz * 2 ^ 11 + sx.toNat * 2 ^ 10) a.field b.field
  | .stl h sz d a b => mkF h 0x243 (dScal d) (sz * 2 ^ 11) a.field b.field
  | .pref h a b => mkF h 0x244 dNone 0 a.field b.field
  | .aadd h ty d a b => mkF h 0x280 (dOpt d) (ty.code * 2 ^ 11) a.field b.field
  | .amin h ty d a b => mkF h 0x281 (dOpt d) (ty.code * 2 ^ 11) a.field b.field
  | .amax h ty d a b => mkF h 0x282 (dOpt d) (ty.code * 2 ^ 11) a.field b.field
  | .aand h ty d a b => mkF h 0x283 (dOpt d) (ty.code * 2 ^ 11) a.field b.field
  | .aor h ty d a b => mkF h 0x284 (dOpt d) (ty.code * 2 ^ 11) a.field b.field
  | .axor h ty d a b => mkF h 0x285 (dOpt d) (ty.code * 2 ^ 11) a.field b.field
  | .axchg h ty d a b => mkF h 0x286 (dOpt d) (ty.code * 2 ^ 11) a.field b.field
  | .acas h ty d a b => mkF h 0x287 (dOpt d) (ty.code * 2 ^ 11) a.field b.field
  | .aincw h ty d a b => mkF h 0x288 (dOpt d) (ty.code * 2 ^ 11) a.field b.field
  | .afadd h m d a b => mkF h 0x289 (dOpt d) m.val a.field b.field
  | .fence h scope kind => mkF h 0x2A0 dNone (scope.code * 2 ^ 11 + kind.code * 2 ^ 9) .absent .absent
  | .codefLoc h => mkF h 0x2A1 dNone 0 .absent .absent
  | .codefDev h a b => mkF h 0x2A1 dNone (3 * 2 ^ 11) a.field b.field
  | .synew h kind pst d a => mkF h 0x2C0 (dObj d) (kind.code * 2 ^ 12 + pst * 2 ^ 9) a.field .absent
  | .syfree h d => mkF h 0x2C1 (dObj d) 0 .absent .absent
  | .phreg h d a b => mkF h 0x2C2 (dObj d) 0 a.field (optField b)
  | .phdrop h d a b => mkF h 0x2C3 (dObj d) 0 a.field (optField b)
  | .phsig h d b => mkF h 0x2C4 (dObj d) 0 .absent (optField b)
  | .phwait h mem d a b => mkF h 0x2C5 (dObj d) (mem.toNat * 2 ^ 13) (optField a) (optField b)
  | .phnext h d b => mkF h 0x2C6 (dObj d) 0 .absent (optField b)
  | .tqacq h slot d b => mkF h 0x2C8 (dScal d) (slot * 2 ^ 6) .absent (optField b)
  | .tqpost h d a b => mkF h 0x2C9 (dObj d) 0 a.field (optField b)
  | .tqtake h slot d b => mkF h 0x2CA (dScal d) (slot * 2 ^ 6) .absent (optField b)
  | .tqrel h d a b => mkF h 0x2CB (dObj d) 0 a.field (optField b)
  | .sstep h => mkF h 0x2D0 dNone 0 .absent .absent
  | .join h d b => mkF h 0x2D1 (dObj d) 0 .absent (optField b)
  | .leave h d b => mkF h 0x2D2 (dObj d) 0 .absent (optField b)
  | .fork h a b => mkF h 0x300 dNone 0 a.field b.field
  | .rfork h a b => mkF h 0x301 dNone 0 a.field b.field
  | .task h d => mkF h 0x302 (dObj d) 0 .absent .absent
  | .taskEv h pst d => mkF h 0x302 (dScal d) (1 * 2 ^ 13 + pst * 2 ^ 10) .absent .absent
  | .tdone h d b => mkF h 0x303 (dObj d) 0 .absent (optField b)
  | .efork h copy pst a => mkF h 0x304 dNone (copy.toNat * 2 ^ 13 + pst * 2 ^ 10) a.field .absent
  | .rdv h => mkF h 0x305 dNone 0 .absent .absent
  | .launch h d a b => mkF h 0x306 (dOpt d) 0 a.field b.field
  | .send h len xl a b => mkF h 0x307 dNone (len * 2 ^ 7 + xl.toNat * 2 ^ 6) a.field b.field
  | .recv h d => mkF h 0x308 (dScal d) 0 .absent .absent
  | .gpost h d a => mkF h 0x340 (dScal d) 0 a.field .absent
  | .gretract h pst a => mkF h 0x341 dNone (pst * 2 ^ 10) a.field .absent
  | .gwin h wr ww d a b => mkF h 0x342 (dScal d) (ww.toNat * 2 ^ 13 + wr.toNat * 2 ^ 12) a.field b.field
  | .gcall h a b => mkF h 0x343 dNone 0 a.field (optField b)
  | .gret h => mkF h 0x344 dNone 0 .absent .absent
  | .ginfo h d a => mkF h 0x345 (dScal d) 0 a.field .absent
  | .gclean h => mkF h 0x346 dNone 0 .absent .absent
  | .drevoke h a => mkF h 0x347 dNone 0 a.field .absent
  | .drevokeKill h a => mkF h 0x347 dNone (1 * 2 ^ 13) a.field .absent
  | .esubOpen h pst d a => mkF h 0x380 (dScal d) (1 * 2 ^ 13 + pst * 2 ^ 10) a.field .absent
  | .esub h a b => mkF h 0x380 dNone 0 a.field b.field
  | .ecloseCut h a => mkF h 0x381 dNone 0 a.field .absent
  | .ecloseEnd h a => mkF h 0x381 dNone (1 * 2 ^ 13) a.field .absent
  | .enext h d a b => mkF h 0x382 (dScal d) 0 a.field b.field
  | .enextDone h a b => mkF h 0x382 dNone (1 * 2 ^ 13) a.field b.field
  | .estat h d a => mkF h 0x383 (dScal d) 0 a.field .absent
  | .sysr h form d a b => mkF h 0x390 (dScal d) (form.code * 2 ^ 12) a.field (optField b)
  | .sysw h form d a b => mkF h 0x391 (dOpt d) (form.code * 2 ^ 12) a.field b.field
  | .trap h a => mkF h 0x392 dNone 0 a.field .absent
  | .eret h => mkF h 0x393 dNone 0 .absent .absent
  | .wait h tmo d a b => mkF h 0x394 (dObj d) tmo a.field b.field
  | .tlbinv h sc d a b => mkF h 0x395 (dScal d) (sc.code * 2 ^ 12) (optField a) (optField b)
  | .hinst h a => mkF h 0x396 dNone 0 a.field .absent
  | .chkp h d a => mkF h 0x397 (dObj d) 0 a.field .absent
  | .chkx h => mkF h 0x398 dNone 0 .absent .absent
  | .follow h w ht d a => mkF h 0x399 (dObj d) (w * 2 ^ 12 + ht * 2 ^ 10) a.field .absent
  | .unfollow h => mkF h 0x39A dNone 0 .absent .absent
  | .capr h d a => mkF h 0x39B (dScal d) 0 a.field .absent
  | .sigcorePre h pst a => mkF h 0x39C dNone (pst * 2 ^ 9) a.field .absent
  | .sigcoreSpawn h pst a b => mkF h 0x39C dNone (1 * 2 ^ 12 + pst * 2 ^ 9) a.field b.field
  | .sigcoreRes h pst a b => mkF h 0x39C dNone (2 * 2 ^ 12 + pst * 2 ^ 9) a.field b.field
  | _ => mkF ⟨false, 0, false, false, 0, 0⟩ 0 dNone 0 .absent .absent

/-- The word of an instruction (R214). -/
def encode (i : Instr) : IWord := wordOf (toFields i)

/-! ### Parsing -/

/-- Bits of DMOD, by their place in DMOD (word bit - 50). -/
def Fields.m (f : Fields) (lo w : Nat) : Nat := bitsAt f.dmod lo w
/-- One bit of DMOD. -/
def Fields.mb (f : Fields) (lo : Nat) : Bool := bitAt f.dmod lo
/-- The source that A names. -/
def Fields.sa (f : Fields) : Src := Src.ofField f.a
/-- The source that B names. -/
def Fields.sb (f : Fields) : Src := Src.ofField f.b
/-- The optional source that A names. -/
def Fields.oa (f : Fields) : Option Src := optOfField f.a
/-- The optional source that B names. -/
def Fields.ob (f : Fields) : Option Src := optOfField f.b
/-- TY of class I. -/
def Fields.ty (f : Fields) : ITy := ITy.ofCode (f.m 11 3)
/-- Modifier of class I. -/
def Fields.im (f : Fields) : IMod := ⟨f.ty, f.mb 10⟩
/-- FMT of a tile modifier. -/
def Fields.fo (f : Fields) : Option (Option Fmt) := fmtOpt (f.m 8 6)
/-- FMT of class F where the instruction needs a format. -/
def Fields.fm (f : Fields) : Option Fmt := Fmt.ofCode (f.m 8 6)
/-- RND in its class F place. -/
def Fields.rnd (f : Fields) : Rnd := Rnd.ofCode (f.m 6 2)
/-- Optional scalar destination. -/
def Fields.od (f : Fields) : Option Nat := if f.dkind = 3 then none else some f.dnum

/-- Family 0x0 (R249). -/
def build0 (f : Fields) : Option Instr :=
  let h := f.head
  if f.opc = 0x001 then some (.nop h)
  else if f.opc = 0x002 then some (.bra h f.sa)
  else if f.opc = 0x003 then some (.brx h f.dmod f.sa f.sb)
  else if f.opc = 0x004 then some (.call h f.dnum f.sa)
  else if f.opc = 0x005 then some (.ret h f.sa)
  else if f.opc = 0x006 then some (.loop h f.dnum f.sa)
  else if f.opc = 0x007 then some (.rep h (f.m 12 2) (f.m 10 2) (f.m 8 2) f.sa)
  else if f.opc = 0x008 then some (.exit h)
  else if f.opc = 0x009 then some (.waitf h f.sa (if f.mb 13 then some f.sb else none))
  else none

/-- Family 0x1 (R254). -/
def build1 (f : Fields) : Option Instr :=
  let h := f.head
  let d := f.dnum
  if f.opc = 0x040 then some (.mov h f.ty d f.sa)
  else if f.opc = 0x041 then some (.ldil h d (BitVec.ofNat 32 (f.bval % 2 ^ 10 * 2 ^ 22 + f.aval % 2 ^ 22)))
  else if f.opc = 0x042 then some (.ldih h d (BitVec.ofNat 32 (f.bval % 2 ^ 10 * 2 ^ 22 + f.aval % 2 ^ 22)))
  else if f.opc = 0x043 then some (.add h f.im d f.sa f.sb)
  else if f.opc = 0x044 then some (.sub h f.im d f.sa f.sb)
  else if f.opc = 0x045 then some (.mul h f.im d f.sa f.sb)
  else if f.opc = 0x046 then some (.mulh h f.ty d f.sa f.sb)
  else if f.opc = 0x047 then some (.mad h f.im d f.sa f.sb)
  else if f.opc = 0x048 then some (.div h f.im d f.sa f.sb)
  else if f.opc = 0x049 then some (.rem h f.ty d f.sa f.sb)
  else if f.opc = 0x04A then some (.neg h f.im d f.sa)
  else if f.opc = 0x04B then some (.abs h f.im d f.sa)
  else if f.opc = 0x04C then some (.min h f.ty d f.sa f.sb)
  else if f.opc = 0x04D then some (.max h f.ty d f.sa f.sb)
  else if f.opc = 0x04E then some (.and h f.ty d f.sa f.sb)
  else if f.opc = 0x04F then some (.or h f.ty d f.sa f.sb)
  else if f.opc = 0x050 then some (.xor h f.ty d f.sa f.sb)
  else if f.opc = 0x051 then some (.andn h f.ty d f.sa f.sb)
  else if f.opc = 0x052 then some (.shl h f.ty d f.sa f.sb)
  else if f.opc = 0x053 then some (.shr h f.ty d f.sa f.sb)
  else if f.opc = 0x054 then some (.sar h f.ty d f.sa f.sb)
  else if f.opc = 0x055 then some (.rol h f.ty d f.sa f.sb)
  else if f.opc = 0x056 then some (.bext h f.ty d f.sa f.sb)
  else if f.opc = 0x057 then some (.bins h f.ty d f.sa f.sb)
  else if f.opc = 0x058 then some (.clz h f.ty d f.sa)
  else if f.opc = 0x059 then some (.ctz h f.ty d f.sa)
  else if f.opc = 0x05A then some (.popc h f.ty d f.sa)
  else if f.opc = 0x05B then some (.sel h f.ty (f.m 7 3) (f.mb 6) d f.sa f.sb)
  else if f.opc = 0x05C then some (.gaddr h d f.sa f.sb)
  else none

/-- Families 0x2 and 0x3 (R260 to R264). -/
def build2 (f : Fields) : Option Instr :=
  let h := f.head
  let d := f.dnum
  if f.opc = 0x080 then f.fm.map (fun x => .fadd h ⟨x, f.rnd⟩ d f.sa f.sb)
  else if f.opc = 0x081 then f.fm.map (fun x => .fmul h ⟨x, f.rnd⟩ d f.sa f.sb)
  else if f.opc = 0x082 then f.fm.map (fun x => .ffma h ⟨x, f.rnd⟩ d f.sa f.sb)
  else if f.opc = 0x083 then f.fm.map (fun x => .fmin h x d f.sa f.sb)
  else if f.opc = 0x084 then f.fm.map (fun x => .fmax h x d f.sa f.sb)
  else if f.opc = 0x085 then f.fm.map (fun x => .fcmp h x (f.m 2 3) d f.sa f.sb)
  else if f.opc = 0x086 then
    match CTy.ofCode (f.m 9 5), CTy.ofCode (f.m 4 5) with
    | some dt, some st => some (.cvt h dt st (Rnd.ofCode (f.m 2 2)) (f.mb 1) d f.sa)
    | _, _ => none
  else if f.opc = 0x0C0 then some (.cmp h f.ty (f.m 7 3) d f.sa f.sb)
  else if f.opc = 0x0C1 then some (.pset h (f.m 11 3) (f.m 8 3) (f.m 4 4) d)
  else none

/-- Family 0x4 (R272, R276). -/
def build4 (f : Fields) : Option Instr :=
  let h := f.head
  let d := f.dnum
  if f.opc = 0x100 then some (.tview h d f.sa)
  else if f.opc = 0x101 then some (.tvalid h (f.mb 4) d f.sa f.sb)
  else if f.opc = 0x102 then some (.tget h d f.sa f.sb)
  else if f.opc = 0x103 then f.fo.map (fun x => .tmov h x d f.sa)
  else if f.opc = 0x104 then f.fo.map (fun x => .tfill h x d f.sa)
  else if f.opc = 0x105 then
    match f.fo, IotaMode.ofCode (f.m 3 2) with
    | some x, some mode => some (.tiota h ⟨x, f.rnd, f.mb 5⟩ mode d f.sa f.sb)
    | _, _ => none
  else if f.opc = 0x106 then f.fo.map (fun x => .tcopy h x d f.sa)
  else if f.opc = 0x107 then some (.tldr h d f.sa)
  else none

/-- Family 0x5 (R276 to R282). -/
def build5 (f : Fields) : Option Instr :=
  let h := f.head
  let d := f.dnum
  if f.opc = 0x140 then f.fo.map (fun x => .tadd h ⟨x, f.rnd, f.mb 5⟩ d f.sa f.sb)
  else if f.opc = 0x141 then f.fo.map (fun x => .tsub h ⟨x, f.rnd, f.mb 5⟩ d f.sa f.sb)
  else if f.opc = 0x142 then f.fo.map (fun x => .tmul h ⟨x, f.rnd, f.mb 5⟩ d f.sa f.sb)
  else if f.opc = 0x143 then f.fo.map (fun x => .tfma h ⟨x, f.rnd, f.mb 5⟩ d f.sa f.sb)
  else if f.opc = 0x144 then f.fo.map (fun x => .tdiv h x f.rnd d f.sa f.sb)
  else if f.opc = 0x145 then f.fo.map (fun x => .tmin h x d f.sa f.sb)
  else if f.opc = 0x146 then f.fo.map (fun x => .tmax h x d f.sa f.sb)
  else if f.opc = 0x147 then f.fo.map (fun x => .tabs h x (f.mb 5) d f.sa)
  else if f.opc = 0x148 then f.fo.map (fun x => .tneg h x (f.mb 5) d f.sa)
  else if f.opc = 0x149 then f.fo.map (fun x => .tand h x d f.sa f.sb)
  else if f.opc = 0x14A then f.fo.map (fun x => .tor h x d f.sa f.sb)
  else if f.opc = 0x14B then f.fo.map (fun x => .txor h x d f.sa f.sb)
  else if f.opc = 0x14C then f.fo.map (fun x => .tshl h x d f.sa f.sb)
  else if f.opc = 0x14D then f.fo.map (fun x => .tshr h x d f.sa f.sb)
  else if f.opc = 0x14E then f.fo.map (fun x => .tcmp h x (f.m 2 3) d f.sa f.sb)
  else if f.opc = 0x14F then f.fo.map (fun x => .tsel h x (f.m 0 6) d f.sa f.sb)
  else if f.opc = 0x150 then f.fo.map (fun x => .tcmul h x f.rnd d f.sa f.sb)
  else if f.opc = 0x151 then f.fo.map (fun x => .tcfma h x f.rnd d f.sa f.sb)
  else if f.opc = 0x152 then
    match f.fo, RedOp.ofCode (f.m 3 2), RedAxis.ofCode (f.m 1 2) with
    | some x, some op, some ax => some (.tred h ⟨x, f.rnd, f.mb 5⟩ op ax d f.sa)
    | _, _, _ => none
  else if f.opc = 0x153 then f.fo.map (fun x => .tbcast h x (f.mb 4) d f.sa)
  else if f.opc = 0x154 then f.fo.map (fun x => .ttrans h x d f.sa)
  else if f.opc = 0x155 then f.fo.map (fun x => .tgather h x (f.mb 4) d f.sa f.sb)
  else none

/-- Family 0x6 (R283 to R286). -/
def build6 (f : Fields) : Option Instr :=
  let h := f.head
  let d := f.dnum
  if f.opc = 0x180 then f.fo.map (fun x => .texp2 h x d f.sa)
  else if f.opc = 0x181 then f.fo.map (fun x => .tlog2 h x d f.sa)
  else if f.opc = 0x182 then f.fo.map (fun x => .trcp h x f.rnd d f.sa)
  else if f.opc = 0x183 then f.fo.map (fun x => .trsq h x d f.sa)
  else if f.opc = 0x184 then f.fo.map (fun x => .tsqrt h x f.rnd d f.sa)
  else if f.opc = 0x185 then f.fo.map (fun x => .tsin h x d f.sa)
  else if f.opc = 0x186 then f.fo.map (fun x => .tcos h x d f.sa)
  else if f.opc = 0x187 then
    match f.fo, Had.ofCode (f.m 3 2) with
    | some x, some had => some (.tconv h ⟨x, f.rnd, f.mb 5⟩ had d f.sa f.ob)
    | _, _ => none
  else if f.opc = 0x188 then f.fo.map (fun x => .tscale h x f.rnd d f.sa f.sb)
  else if f.opc = 0x189 then f.fo.map (fun x => .tsplit h x d f.sa)
  else none

/-- Family 0x7 (R292 to R298). -/
def build7 (f : Fields) : Option Instr :=
  let h := f.head
  let d := f.dnum
  if f.opc = 0x1C0 then (AFmt.ofReal (f.m 12 2)).map (fun x => .mma h x (f.mb 11) d f.sa f.sb)
  else if f.opc = 0x1C1 then (AFmt.ofCplx (f.m 12 2)).map (fun x => .mmac h x d f.sa f.sb)
  else if f.opc = 0x1C2 then (AFmt.ofBoth (f.mb 11) (f.m 12 2)).map (fun x => .mzero h x d f.sa f.sb)
  else if f.opc = 0x1C3 then (AFmt.ofBoth (f.mb 11) (f.m 12 2)).map (fun x => .mload h x d f.sa)
  else if f.opc = 0x1C4 then
    (AFmt.ofBoth (f.mb 11) (f.m 12 2)).map
      (fun x => .mdrain h x (Rnd.ofCode (f.m 9 2)) (f.mb 8) (f.mb 7) d f.sa f.ob)
  else if f.opc = 0x1C5 then
    (AFmt.ofReal (f.m 12 2)).map (fun x => .mdrainc h x (f.m 4 8) (f.mb 3) (f.mb 2) (f.mb 1) (f.mb 0) d f.sa f.ob)
  else if f.opc = 0x1C6 then (AFmt.ofReal (f.m 12 2)).map (fun x => .mgang h x (f.mb 11) d f.sa f.sb)
  else none

/-- Family 0x8 (R302 to R311). -/
def build8 (f : Fields) : Option Instr :=
  let h := f.head
  let d := f.dnum
  if f.opc = 0x200 then
    if f.m 4 2 = 0 then some (.cpyLd h (f.m 6 8) (f.mb 3) (f.mb 2) (f.mb 1) d f.sa)
    else if f.m 4 2 = 1 then some (.cpySt h (f.m 6 8) (f.mb 3) (f.mb 2) d f.sa)
    else none
  else if f.opc = 0x201 then some (.cpyg h (f.m 6 8) (f.mb 2) d f.sa f.sb)
  else if f.opc = 0x202 then some (.cpys h (f.m 6 8) (f.mb 2) d f.sa f.sb)
  else if f.opc = 0x203 then some (.cpyadd h (f.m 6 8) (f.mb 3) (f.mb 2) d f.sa)
  else if f.opc = 0x204 then some (.cpyx h f.sa)
  else if f.opc = 0x210 then some (.tlwait h d f.sa)
  else if f.opc = 0x211 then some (.tlget h d f.sa f.sb)
  else if f.opc = 0x212 then some (.tladv h d f.sa)
  else none

/-- Family 0x9 (R318). -/
def build9 (f : Fields) : Option Instr :=
  let h := f.head
  let d := f.dnum
  if f.opc = 0x240 then
    if f.dkind = 0 then some (.ldTile h d f.sa f.sb) else some (.ld h (f.m 11 3) (f.mb 10) d f.sa f.sb)
  else if f.opc = 0x241 then
    if f.dkind = 0 then some (.stTile h d f.sa f.sb) else some (.st h (f.m 11 3) d f.sa f.sb)
  else if f.opc = 0x242 then some (.lda h (f.m 11 3) (f.mb 10) d f.sa f.sb)
  else if f.opc = 0x243 then some (.stl h (f.m 11 3) d f.sa f.sb)
  else if f.opc = 0x244 then some (.pref h f.sa f.sb)
  else none

/-- Family 0xA (R323 to R326). -/
def buildA (f : Fields) : Option Instr :=
  let h := f.head
  if f.opc = 0x280 then some (.aadd h f.ty f.od f.sa f.sb)
  else if f.opc = 0x281 then some (.amin h f.ty f.od f.sa f.sb)
  else if f.opc = 0x282 then some (.amax h f.ty f.od f.sa f.sb)
  else if f.opc = 0x283 then some (.aand h f.ty f.od f.sa f.sb)
  else if f.opc = 0x284 then some (.aor h f.ty f.od f.sa f.sb)
  else if f.opc = 0x285 then some (.axor h f.ty f.od f.sa f.sb)
  else if f.opc = 0x286 then some (.axchg h f.ty f.od f.sa f.sb)
  else if f.opc = 0x287 then some (.acas h f.ty f.od f.sa f.sb)
  else if f.opc = 0x288 then some (.aincw h f.ty f.od f.sa f.sb)
  else if f.opc = 0x289 then f.fm.map (fun x => .afadd h ⟨x, f.rnd⟩ f.od f.sa f.sb)
  else if f.opc = 0x2A0 then
    match Scope.ofCode (f.m 11 3), FenceKind.ofCode (f.m 9 2) with
    | some sc, some k => some (.fence h sc k)
    | _, _ => none
  else if f.opc = 0x2A1 then
    if f.m 11 3 = 0 then some (.codefLoc h)
    else if f.m 11 3 = 3 then some (.codefDev h f.sa f.sb)
    else none
  else none

/-- Family 0xB (R328 to R331). -/
def buildB (f : Fields) : Option Instr :=
  let h := f.head
  let d := f.dnum
  if f.opc = 0x2C0 then (SyKind.ofCode (f.m 12 2)).map (fun k => .synew h k (f.m 9 3) d f.sa)
  else if f.opc = 0x2C1 then some (.syfree h d)
  else if f.opc = 0x2C2 then some (.phreg h d f.sa f.ob)
  else if f.opc = 0x2C3 then some (.phdrop h d f.sa f.ob)
  else if f.opc = 0x2C4 then some (.phsig h d f.ob)
  else if f.opc = 0x2C5 then some (.phwait h (f.mb 13) d f.oa f.ob)
  else if f.opc = 0x2C6 then some (.phnext h d f.ob)
  else if f.opc = 0x2C8 then some (.tqacq h (f.m 6 8) d f.ob)
  else if f.opc = 0x2C9 then some (.tqpost h d f.sa f.ob)
  else if f.opc = 0x2CA then some (.tqtake h (f.m 6 8) d f.ob)
  else if f.opc = 0x2CB then some (.tqrel h d f.sa f.ob)
  else if f.opc = 0x2D0 then some (.sstep h)
  else if f.opc = 0x2D1 then some (.join h d f.ob)
  else if f.opc = 0x2D2 then some (.leave h d f.ob)
  else none

/-- Family 0xC (R332 to R339). -/
def buildC (f : Fields) : Option Instr :=
  let h := f.head
  let d := f.dnum
  if f.opc = 0x300 then some (.fork h f.sa f.sb)
  else if f.opc = 0x301 then some (.rfork h f.sa f.sb)
  else if f.opc = 0x302 then if f.mb 13 then some (.taskEv h (f.m 10 3) d) else some (.task h d)
  else if f.opc = 0x303 then some (.tdone h d f.ob)
  else if f.opc = 0x304 then some (.efork h (f.mb 13) (f.m 10 3) f.sa)
  else if f.opc = 0x305 then some (.rdv h)
  else if f.opc = 0x306 then some (.launch h f.od f.sa f.sb)
  else if f.opc = 0x307 then some (.send h (f.m 7 7) (f.mb 6) f.sa f.sb)
  else if f.opc = 0x308 then some (.recv h d)
  else none

/-- Family 0xD (R341). -/
def buildD (f : Fields) : Option Instr :=
  let h := f.head
  let d := f.dnum
  if f.opc = 0x340 then some (.gpost h d f.sa)
  else if f.opc = 0x341 then some (.gretract h (f.m 10 3) f.sa)
  else if f.opc = 0x342 then if f.m 12 2 = 0 then none else some (.gwin h (f.mb 12) (f.mb 13) d f.sa f.sb)
  else if f.opc = 0x343 then some (.gcall h f.sa f.ob)
  else if f.opc = 0x344 then some (.gret h)
  else if f.opc = 0x345 then some (.ginfo h d f.sa)
  else if f.opc = 0x346 then some (.gclean h)
  else if f.opc = 0x347 then if f.mb 13 then some (.drevokeKill h f.sa) else some (.drevoke h f.sa)
  else none

/-- Family 0xE (R350, R357). -/
def buildE (f : Fields) : Option Instr :=
  let h := f.head
  let d := f.dnum
  if f.opc = 0x380 then if f.mb 13 then some (.esubOpen h (f.m 10 3) d f.sa) else some (.esub h f.sa f.sb)
  else if f.opc = 0x381 then if f.mb 13 then some (.ecloseEnd h f.sa) else some (.ecloseCut h f.sa)
  else if f.opc = 0x382 then if f.mb 13 then some (.enextDone h f.sa f.sb) else some (.enext h d f.sa f.sb)
  else if f.opc = 0x383 then some (.estat h d f.sa)
  else if f.opc = 0x390 then
    some (.sysr h (SysForm.ofCode (f.m 12 2)) d f.sa (if 2 ≤ f.m 12 2 then some f.sb else none))
  else if f.opc = 0x391 then
    some (.sysw h (SysForm.ofCode (f.m 12 2)) (if f.m 12 2 = 2 then some d else none) f.sa f.sb)
  else if f.opc = 0x392 then some (.trap h f.sa)
  else if f.opc = 0x393 then some (.eret h)
  else if f.opc = 0x394 then some (.wait h f.dmod d f.sa f.sb)
  else if f.opc = 0x395 then (InvScope.ofCode (f.m 12 2)).map (fun sc => .tlbinv h sc d f.oa f.ob)
  else if f.opc = 0x396 then some (.hinst h f.sa)
  else if f.opc = 0x397 then some (.chkp h d f.sa)
  else if f.opc = 0x398 then some (.chkx h)
  else if f.opc = 0x399 then some (.follow h (f.m 12 2) (f.m 10 2) d f.sa)
  else if f.opc = 0x39A then some (.unfollow h)
  else if f.opc = 0x39B then some (.capr h d f.sa)
  else if f.opc = 0x39C then
    if f.m 12 2 = 0 then some (.sigcorePre h (f.m 9 3) f.sa)
    else if f.m 12 2 = 1 then some (.sigcoreSpawn h (f.m 9 3) f.sa f.sb)
    else if f.m 12 2 = 2 then some (.sigcoreRes h (f.m 9 3) f.sa f.sb)
    else none
  else none

/-- The instruction that a word's opcode and modifiers name, reserved bits aside; none where the opcode or a coded
modifier is unassigned (R229, R232). -/
def build (f : Fields) : Option Instr :=
  let fam := f.opc / 64
  if fam = 0x0 then build0 f
  else if fam = 0x1 then build1 f
  else if fam = 0x2 then build2 f
  else if fam = 0x3 then build2 f
  else if fam = 0x4 then build4 f
  else if fam = 0x5 then build5 f
  else if fam = 0x6 then build6 f
  else if fam = 0x7 then build7 f
  else if fam = 0x8 then build8 f
  else if fam = 0x9 then build9 f
  else if fam = 0xA then buildA f
  else if fam = 0xB then buildB f
  else if fam = 0xC then buildC f
  else if fam = 0xD then buildD f
  else if fam = 0xE then buildE f
  else none

/-! ### What each operand field accepts -/

/-- Kinds and modifiers that an A or B field accepts (R220, R221). `csize` is the size code that a constant-bank
operand must have (R222); `opt` says that an all-zero field is absent (R224). -/
structure SrcSpec where
  tile  : Bool := false
  scal  : Bool := false
  cbank : Bool := false
  lit   : Bool := false
  neg   : Bool := false
  abs   : Bool := false
  conj  : Bool := false
  csize : Option Nat := none
  opt   : Bool := false
  deriving DecidableEq, Repr

/-- Kinds that a D field accepts, and the limit of a number of kind 0b10 (R218). -/
structure DSpec where
  tile : Bool := false
  scal : Bool := false
  obj  : Option Nat := none
  absent : Bool := false
  deriving DecidableEq, Repr

/-- What the three operand fields of an instruction accept. -/
structure OpRow where
  d : DSpec
  a : SrcSpec
  b : SrcSpec
  deriving DecidableEq, Repr

def kNo : SrcSpec := { opt := true }
def kT : SrcSpec := { tile := true }
def kS : SrcSpec := { scal := true }
def kL : SrcSpec := { lit := true }
def kSC : SrcSpec := { scal := true, cbank := true }
def kSL : SrcSpec := { scal := true, lit := true }
def kSCL : SrcSpec := { scal := true, cbank := true, lit := true }
def kTS : SrcSpec := { tile := true, scal := true }
def kTSCL : SrcSpec := { tile := true, scal := true, cbank := true, lit := true }
/-- NEG and ABS accepted. -/
def SrcSpec.na (s : SrcSpec) : SrcSpec := { s with neg := true, abs := true }
/-- NEG, ABS and CONJ accepted. -/
def SrcSpec.nac (s : SrcSpec) : SrcSpec := { s with neg := true, abs := true, conj := true }
/-- NEG accepted. -/
def SrcSpec.n (s : SrcSpec) : SrcSpec := { s with neg := true }
/-- NEG and CONJ accepted. -/
def SrcSpec.nc (s : SrcSpec) : SrcSpec := { s with neg := true, conj := true }
/-- The field may be absent. -/
def SrcSpec.o (s : SrcSpec) : SrcSpec := { s with opt := true }
/-- A constant-bank operand has this size. -/
def SrcSpec.z (s : SrcSpec) (c : Option Nat) : SrcSpec := { s with csize := c }

def dS : DSpec := { scal := true }
def dT : DSpec := { tile := true }
def dP : DSpec := { obj := some 8 }
def dY : DSpec := { obj := some 256 }
def dN : DSpec := { absent := true }
def dSN : DSpec := { scal := true, absent := true }
def dTS : DSpec := { tile := true, scal := true }

/-- Size code of a constant-bank operand of a floating-point or complex format (R222), none where any size will do. No size
code is 4: none suits a format of 4 or 6 bits or of 16 bytes. -/
def Fmt.csize : Fmt → Option Nat
  | .fp64 => some 3 | .fp32 => some 2 | .fp16 => some 1 | .bf16 => some 1 | .e4m3 => some 0 | .e5m2 => some 0
  | .e8m0 => some 0 | .cf32 => some 3 | .e3m2 | .e2m3 | .e2m1 | .cf64 => some 4 | _ => none

/-- A source of a tile instruction whose word names a format: the constant-bank size, and no modifier that the format does
not take (R222, R268). -/
def SrcSpec.zf (s : SrcSpec) : Option Fmt → SrcSpec
  | none => s
  | some g =>
    if g = .cf32 ∨ g = .cf64 then { s with csize := g.csize, abs := false } else { s with csize := g.csize, conj := false }

/-- Size code for the format in DMOD 13:8. -/
def Fields.csz (f : Fields) : Option Nat := (Fmt.ofCode (f.m 8 6)).bind Fmt.csize

/-- Size code for a CVT source (R262). -/
def CTy.csize : CTy → Option Nat
  | .fp64 => some 3 | .fp32 => some 2 | .fp16 => some 1 | .bf16 => some 1 | .e4m3 => some 0 | .e5m2 => some 0
  | .int _ => none

/-- Families 0x0 to 0x3 (R249, R253 to R264). -/
def rowScalar (f : Fields) : OpRow :=
  let o := f.opc
  if o ≤ 0x001 then ⟨dN, kNo, kNo⟩
  else if o = 0x002 then ⟨dN, kSCL, kNo⟩
  else if o = 0x003 then ⟨dN, kSCL, kSL⟩
  else if o = 0x004 then ⟨dS, kSCL, kNo⟩
  else if o = 0x005 then ⟨dN, kS, kNo⟩
  else if o = 0x006 then ⟨dS, kSCL, kNo⟩
  else if o = 0x007 then ⟨dN, kSL, kNo⟩
  else if o = 0x008 then ⟨dN, kNo, kNo⟩
  else if o = 0x009 then ⟨dN, kTS, if f.mb 13 then kTS else kNo⟩
  else if o = 0x040 then ⟨dS, kSCL, kNo⟩
  else if o = 0x041 ∨ o = 0x042 then ⟨dS, kL, kL⟩
  else if o ≤ 0x049 ∨ o = 0x04C ∨ o = 0x04D then ⟨dS, kSCL.na, kSCL.na⟩
  else if o = 0x04A ∨ o = 0x04B then ⟨dS, kSCL, kNo⟩
  else if o = 0x058 ∨ o = 0x059 ∨ o = 0x05A then ⟨dS, kSCL, kNo⟩
  else if o ≤ 0x05B then ⟨dS, kSCL, kSCL⟩
  else if o = 0x05C then ⟨dS, kSL, kS⟩
  else if o = 0x085 then ⟨dP, (kSCL.na).z f.csz, (kSCL.na).z f.csz⟩
  else if o ≤ 0x084 then ⟨dS, (kSCL.na).z f.csz, (kSCL.na).z f.csz⟩
  else if o = 0x086 then
    match CTy.ofCode (f.m 4 5) with
    | some t => ⟨dS, (if t.isFloat then kSCL.na else kSCL).z t.csize, kNo⟩
    | none => ⟨dS, kSCL, kNo⟩
  else if o = 0x0C0 then ⟨dP, kSCL.na, kSCL.na⟩
  else ⟨dP, kNo, kNo⟩

/-- Families 0x4 to 0x6 (R268, R272 to R286). -/
def rowTile (f : Fields) : OpRow :=
  let o := f.opc
  let c := Fmt.ofCode (f.m 8 6)
  if o = 0x100 then ⟨dT, kSC, kNo⟩
  else if o = 0x101 then ⟨dT, kSCL, kSCL⟩
  else if o = 0x102 then ⟨dS, kT, kL⟩
  else if o = 0x103 ∨ o = 0x106 then ⟨dT, kT, kNo⟩
  else if o = 0x104 then ⟨dT, kSCL.zf c, kNo⟩
  else if o = 0x105 then ⟨dT, kSCL.zf c, kSCL.zf c⟩
  else if o = 0x107 then ⟨dT, kSCL, kNo⟩
  else if o = 0x140 ∨ o = 0x141 then ⟨dT, kTSCL.nac.zf c, kTSCL.nac.zf c⟩
  else if o = 0x147 then ⟨dT, kTSCL.na.zf c, kNo⟩
  else if o = 0x148 then ⟨dT, kTSCL.nac.zf c, kNo⟩
  else if o ≤ 0x14D then ⟨dT, kTSCL.na.zf c, kTSCL.na.zf c⟩
  else if o = 0x14E then ⟨dT, kTSCL, kTSCL⟩
  else if o = 0x14F then ⟨dT, kTSCL.zf c, kTSCL.zf c⟩
  else if o = 0x150 ∨ o = 0x151 then ⟨dT, kTSCL.nc.zf c, kTSCL.nc.zf c⟩
  else if o = 0x152 ∨ o = 0x153 ∨ o = 0x154 then ⟨dT, kT, kNo⟩
  else if o = 0x155 then ⟨dT, kT, kTSCL⟩
  else if o ≤ 0x186 then ⟨dT, kTSCL.zf c, kNo⟩
  else if o = 0x187 then ⟨dT, kT, kSCL.o⟩
  else if o = 0x188 then ⟨dT, kTSCL.zf c, kTSCL⟩
  else ⟨dT, kT, kNo⟩

/-- Families 0x7 to 0xB (R292 to R331). -/
def rowEngine (f : Fields) : OpRow :=
  let o := f.opc
  if o = 0x1C0 ∨ o = 0x1C6 then ⟨dS, kT.n, kT.n⟩
  else if o = 0x1C1 then ⟨dS, kT.nc, kT.nc⟩
  else if o = 0x1C2 then ⟨dS, kSCL, kSCL⟩
  else if o = 0x1C3 then ⟨dS, kT, kNo⟩
  else if o = 0x1C4 ∨ o = 0x1C5 then ⟨dT, kS, kSCL.o⟩
  else if o = 0x200 ∨ o = 0x203 then ⟨dT, kS, kNo⟩
  else if o = 0x201 ∨ o = 0x202 then ⟨dT, kS, kT⟩
  else if o = 0x204 then ⟨dN, kSCL, kNo⟩
  else if o = 0x210 ∨ o = 0x212 then ⟨dP, kSCL, kNo⟩
  else if o = 0x211 then ⟨dS, kSL, kL⟩
  else if o = 0x240 ∨ o = 0x241 then ⟨dTS, kS, kSCL⟩
  else if o = 0x242 ∨ o = 0x243 then ⟨dS, kS, kSCL⟩
  else if o = 0x244 then ⟨dN, kS, kSCL⟩
  else if o = 0x287 then ⟨dSN, kS, kS⟩
  else if o = 0x289 then ⟨dSN, kS, kSCL.z f.csz⟩
  else if o ≤ 0x288 then ⟨dSN, kS, kSCL⟩
  else if o = 0x2A0 then ⟨dN, kNo, kNo⟩
  else if o = 0x2A1 then if f.m 11 3 = 3 then ⟨dN, kSCL, kSL⟩ else ⟨dN, kNo, kNo⟩
  else if o = 0x2C0 then ⟨dY, kSCL, kNo⟩
  else if o = 0x2C1 then ⟨dY, kNo, kNo⟩
  else if o = 0x2C5 then ⟨dY, if f.mb 13 then kNo else kSCL.o, kSCL.o⟩
  else if o = 0x2C2 ∨ o = 0x2C3 ∨ o = 0x2C9 ∨ o = 0x2CB then ⟨dY, kSCL, kSCL.o⟩
  else if o = 0x2C8 ∨ o = 0x2CA then ⟨dS, kNo, kSCL.o⟩
  else if o = 0x2D0 then ⟨dN, kNo, kNo⟩
  else ⟨dY, kNo, kSCL.o⟩

/-- Families 0xC to 0xE (R332 to R365). -/
def rowSystem (f : Fields) : OpRow :=
  let o := f.opc
  if o = 0x300 ∨ o = 0x301 then ⟨dN, kSCL, kS⟩
  else if o = 0x302 then ⟨if f.mb 13 then dS else dP, kNo, kNo⟩
  else if o = 0x303 then ⟨dY, kNo, kSCL.o⟩
  else if o = 0x304 then ⟨dN, kSCL, kNo⟩
  else if o = 0x305 then ⟨dN, kNo, kNo⟩
  else if o = 0x306 then ⟨dSN, kSCL, kSL⟩
  else if o = 0x307 then ⟨dN, kS, kS⟩
  else if o = 0x308 then ⟨dS, kNo, kNo⟩
  else if o = 0x340 then ⟨dS, kSCL, kNo⟩
  else if o = 0x341 then ⟨dN, kSC, kNo⟩
  else if o = 0x342 then ⟨dS, kS, kSCL⟩
  else if o = 0x343 then ⟨dN, kSC, kS.o⟩
  else if o = 0x344 ∨ o = 0x346 then ⟨dN, kNo, kNo⟩
  else if o = 0x345 then ⟨dS, kSL, kNo⟩
  else if o = 0x347 then ⟨dN, kSL, kNo⟩
  else if o = 0x380 then if f.mb 13 then ⟨dS, kSCL, kNo⟩ else ⟨dN, kSCL, kS⟩
  else if o = 0x381 then ⟨dN, kSCL, kNo⟩
  else if o = 0x382 then ⟨if f.mb 13 then dN else dS, kSCL, kSCL⟩
  else if o = 0x383 then ⟨dS, kSCL, kNo⟩
  else if o = 0x390 then ⟨dS, kL, if 2 ≤ f.m 12 2 then kSL else kNo⟩
  else if o = 0x391 then ⟨if f.m 12 2 = 2 then dS else dN, kL, kSCL⟩
  else if o = 0x392 then ⟨dN, kSL, kNo⟩
  else if o = 0x394 then ⟨dP, kSL, kSL⟩
  else if o = 0x395 then ⟨dS, kS.o, kSL.o⟩
  else if o = 0x396 then ⟨dN, kS, kNo⟩
  else if o = 0x397 ∨ o = 0x399 then ⟨dP, kSL, kNo⟩
  else if o = 0x39B then ⟨dS, kSL, kNo⟩
  else if o = 0x39C then ⟨dN, kSL, if f.m 12 2 = 0 then kNo else kS⟩
  else ⟨dN, kNo, kNo⟩

/-- What the operand fields of a word's instruction accept. -/
def rowOf (f : Fields) : OpRow :=
  if f.opc < 0x100 then rowScalar f
  else if f.opc < 0x1C0 then rowTile f
  else if f.opc < 0x300 then rowEngine f
  else rowSystem f

/-- The source modifier bits of a register field are ones the instruction accepts (check 3 of R232). -/
def SrcSpec.modsOk (s : SrcSpec) (x : OpField) : Bool :=
  if x.kind < 2 then
    let m := SrcMod.ofVal x.val
    (s.neg || !m.neg) && (s.abs || !m.abs) && (s.conj || !m.conj)
  else true

/-- Kind, number and constant-bank place of an A or B field are ones the instruction accepts (check 5 of R232). -/
def SrcSpec.kindOk (s : SrcSpec) (x : OpField) : Bool :=
  (s.opt && x == .absent) ||
  (if x.kind = 0 then s.tile && decide (x.val / 2 ^ 14 < 64)
   else if x.kind = 1 then s.scal && decide (x.val / 2 ^ 14 < 64)
   else if x.kind = 2 then
     s.cbank && decide (bitsAt x.val 0 16 % 2 ^ bitsAt x.val 16 2 = 0)
       && (match s.csize with | none => true | some c => bitsAt x.val 16 2 == c)
   else s.lit)

/-- Kind and number of a D field are ones the instruction accepts (check 5 of R232). -/
def DSpec.kindOk (s : DSpec) (kind num : Nat) : Bool :=
  if kind = 0 then s.tile && decide (num < 64)
  else if kind = 1 then s.scal && decide (num < 64)
  else if kind = 2 then match s.obj with | some l => decide (num < l) | none => false
  else s.absent

/-- CVT's SATC is reserved from float to integer (R262). -/
def satcOk (f : Fields) : Bool :=
  if f.opc = 0x086 then
    match CTy.ofCode (f.m 9 5), CTy.ofCode (f.m 4 5) with
    | some dt, some st => !(st.isFloat && !dt.isFloat && f.mb 1)
    | _, _ => true
  else true

/-- SZ and SX of a load or store hold assigned codes (R318). -/
def szOk (f : Fields) : Bool :=
  if 0x240 ≤ f.opc ∧ f.opc ≤ 0x243 then decide (f.m 11 3 ≤ 4) && (!f.mb 10 || decide (f.m 11 3 < 3)) else true

/-- PHWAIT.mem takes no A (R224, R329). -/
def phmOk (f : Fields) : Bool := f.opc != 0x2C5 || !f.mb 13 || f.a == .absent

/-- SAT of MMA and MGANG is reserved but for .i32 (R292). -/
def msatOk (f : Fields) : Bool :=
  if f.opc = 0x1C0 ∨ f.opc = 0x1C6 then f.m 12 2 == 2 || !f.mb 11 else true

/-- D, A or B, as ECAUSE.OPND names a field (R197). -/
inductive OpName where
  | d | a | b
  deriving DecidableEq, Repr

/-- What decoding answers: the instruction, or the first decode check of R232 that fails. -/
inductive Decoded where
  | ok (i : Instr)
  | illegal
  | operand (n : OpName)
  deriving DecidableEq, Repr

/-- Check 5 of R232: the first offending field in the order D, A, B. -/
def operandBad (f : Fields) : Option OpName :=
  let r := rowOf f
  if !r.d.kindOk f.dkind f.dnum then some .d
  else if !r.a.kindOk f.a then some .a
  else if !r.b.kindOk f.b then some .b
  else none

/-- Reserved bits of a field of LDIL or LDIH of any kind: the mode bit of kinds 0b10 and 0b11, and the source modifier
of a register kind (R220, R221, R257). -/
def litFieldClean (x : OpField) : Bool :=
  if x.kind = 3 then !x.fe else (Src.ofField x).field == x && SrcSpec.modsOk kL x

/-- Reserved bits, by coding the instruction again: every field must come back, D's kind and number aside where the
kind differs (check 3 of R232). -/
def reservedOk (f : Fields) (i : Instr) : Bool :=
  let g := toFields i
  let dOk := f.dkind == g.dkind || (f.dkind != 3 || f.dnum == 0)
  if (f.opc = 0x041 ∨ f.opc = 0x042) ∧ (f.akind ≠ 3 ∨ f.bkind ≠ 3) then
    f.dmod == 0 && (f.dkind != 3 || f.dnum == 0) && litFieldClean f.a && litFieldClean f.b && decide (f.bval < 2 ^ 10)
  else dOk && (if f.dkind = g.dkind then f == g else { f with dkind := g.dkind, dnum := g.dnum } == g)

/-- Decode a word from its fields: checks 3 and 5 of R232 (check 4, the strand's subset, stands between them in
Machine/Issue). -/
def ofFields (f : Fields) : Decoded :=
  match build f with
  | none => .illegal
  | some i =>
    if !reservedOk f i || (f.ginv && f.gpred == 0) || !(rowOf f).a.modsOk f.a || !(rowOf f).b.modsOk f.b
        || !satcOk f || !szOk f || !phmOk f || !msatOk f then .illegal
    else match operandBad f with
      | some n => .operand n
      | none => .ok i

/-- The decoder. -/
def decode (w : IWord) : Decoded := ofFields (fieldsOf w)

/-- The 96-bit word whose three 32-bit words are given in storage order (R215). -/
def iword (w0 w1 w2 : BitVec 32) : IWord := w2 ++ w1 ++ w0

/-- The instruction that the decoder reads from an instruction whose bits are `w`, numbered as the opcode table
numbers them: bit 0 is the least significant bit of word 0 (R215). -/
def decodeTableWord (nbits w : Nat) : Option Instr :=
  match decode (BitVec.ofNat 96 (w % 2 ^ nbits)) with
  | .ok i => some i
  | _ => none

end Sys2Proof
end

