-- ==== Sys2Proof/Machine/Map.lean ====
section
/-! DEFINITION. Sparse data by key: lists of key and value in one canonical form, keys strictly rising and no entry equal
to what an unlisted key reads as. -/
namespace Sys2Proof.Machine

/-- The entry at a key. -/
def mapFind {α : Type} (k : Nat) : List (Nat × α) → Option α
  | [] => none
  | (j, v) :: m => if j = k then some v else mapFind k m

/-- Put an entry at a key. -/
def mapPut {α : Type} (k : Nat) (v : α) : List (Nat × α) → List (Nat × α)
  | [] => [(k, v)]
  | (j, w) :: m =>
    if j < k then (j, w) :: mapPut k v m
    else if j = k then (k, v) :: m
    else (k, v) :: (j, w) :: m

/-- Remove the entry at a key. -/
def mapDel {α : Type} (k : Nat) : List (Nat × α) → List (Nat × α)
  | [] => []
  | (j, w) :: m => if j = k then m else (j, w) :: mapDel k m

/-- Read with a default. -/
def mapGet {α : Type} (d : α) (k : Nat) (m : List (Nat × α)) : α := (mapFind k m).getD d

/-- Write, keeping the canonical form. -/
def mapSet {α : Type} [DecidableEq α] (d : α) (k : Nat) (v : α) (m : List (Nat × α)) : List (Nat × α) :=
  if v = d then mapDel k m else mapPut k v m

/-- The canonical form: keys strictly rising above `lo`, no entry equal to the default. -/
def mapWfFrom {α : Type} [DecidableEq α] (d : α) (lo : Nat) : List (Nat × α) → Bool
  | [] => true
  | (j, w) :: m => decide (lo ≤ j) && decide (w ≠ d) && mapWfFrom d (j + 1) m

/-- The canonical form. -/
def mapWf {α : Type} [DecidableEq α] (d : α) (m : List (Nat × α)) : Bool := mapWfFrom d 0 m

/-- Change every entry. -/
def mapVals {α : Type} (f : Nat → α → α) (m : List (Nat × α)) : List (Nat × α) := m.map (fun e => (e.1, f e.1 e.2))

/-- Memory: the bytes that are not zero, by address. -/
abbrev Memory := List (Nat × Byte)

/-- What an address that is not listed reads as: every memory of the device is zero at reset (R2); host and fabric
memory are taken as zero (log 4). -/
def unwritten : Byte := 0

/-- The canonical form of a memory. -/
abbrev Memory.wf (m : Memory) : Bool := mapWf unwritten m

/-- Read one byte. -/
def memRead (m : Memory) (a : Nat) : Byte := mapGet unwritten a m

/-- Write one byte. -/
def memWrite (m : Memory) (a : Nat) (b : Byte) : Memory := mapSet unwritten a b m

/-- Read `n` bytes from an address up. -/
def memReads (m : Memory) (a : Nat) : Nat → List Byte
  | 0 => []
  | n + 1 => memRead m a :: memReads m (a + 1) n

/-- Write bytes from an address up. -/
def memWrites (m : Memory) (a : Nat) : List Byte → Memory
  | [] => m
  | b :: bs => memWrites (memWrite m a b) (a + 1) bs

/-- The number that bytes hold, least significant first (R7). -/
def leNat : List Byte → Nat
  | [] => 0
  | b :: bs => b.toNat + 256 * leNat bs

/-- The `n` bytes of a number, least significant first (R7). -/
def leBytes (v : Nat) : Nat → List Byte
  | 0 => []
  | n + 1 => BitVec.ofNat 8 v :: leBytes (v / 256) n

/-- Element of a vector, or a default beyond its end. -/
def vget {α : Type} {n : Nat} (v : Vector α n) (i : Nat) (d : α) : α := (v[i]?).getD d

/-- Replace an element of a vector; nothing beyond its end. -/
def vset {α : Type} {n : Nat} (v : Vector α n) (i : Nat) (x : α) : Vector α n := v.setIfInBounds i x

/-- Numbers 0 to n - 1. -/
def upto (n : Nat) : List Nat := List.range n

end Sys2Proof.Machine
end

