-- ==== Sys2Proof/Machine/State.lean ====
section
/-! DEFINITION. The state of the ZN4-2304, as plain data. Whole-device tables are sparse (Machine/Map): an unlisted
core, slot or entry is as reset leaves it. Numbers that the manual compares or counts are Nat; register contents that
software reads and writes as words are bit vectors. -/
namespace Sys2Proof.Machine

/-! ### Seats -/

/-- PC and EPC (R78). -/
structure Pc where
  seg : Nat := 0
  idx : Nat := 0
  deriving DecidableEq, Repr, Inhabited

/-- REPC (R80); strides in their two-bit code. -/
structure Rep where
  count : Nat := 0
  done  : Nat := 0
  dstr  : Nat := 0
  astr  : Nat := 0
  bstr  : Nat := 0
  deriving DecidableEq, Repr, Inhabited

/-- A tile view (R65). FMT is its code. -/
structure View where
  defd   : Bool := false
  fe     : Bool := true
  prog   : Nat := 0
  vcols  : Nat := 0
  vrows  : Nat := 0
  layout : Nat := 0
  fmt    : Nat := 0
  colsm1 : Nat := 0
  rowsm1 : Nat := 0
  pitch  : Nat := 0
  base   : Nat := 0
  deriving DecidableEq, Repr, Inhabited

/-- A trap's cause (R197). -/
inductive Cause where
  | illegal | operand | strand | empty | privilege | address | localperm | pagefault | poison | fetchbound
  | syncstate | dequefull | software | mismatch | savefault | engine
  deriving DecidableEq, Repr, Inhabited

/-- A trap: cause, the operand at fault (0 none, 1 D, 2 A, 3 B) and EVAL (R79, R197). -/
structure Trap where
  cause : Cause := .illegal
  opnd  : Nat := 0
  val   : Word := 0
  deriving DecidableEq, Repr, Inhabited

/-- Why a strand cannot issue until another unit answers. -/
inductive Blk where
  | none
  | slot (core y : Nat)          -- its slot instruction waits at that slot (R327)
  | sent (n : Nat)               -- its slot instruction n travels to another core (R327)
  | timed (off val : Nat) (ended : Option Bool)   -- WAIT sleeps on a word (R360): a write has made it differ, or the time is over
  | pairing                      -- CHKP waits for its partner (R363)
  | unpairing                    -- CHKX waits for its partner (R363)
  | following (leader w h pd : Nat)   -- FOLLOW waits for its gang: leader, shape, the predicate that it writes (R364)
  | sstep                        -- arrived at SSTEP (R331)
  | comparing                    -- its store waits for the partner's (R210)
  deriving DecidableEq, Repr, Inhabited

/-- A strand (R22, R23). `hold` is the DLY hold (R217); `fbuf` its fetch buffer, the bytes by local address (R376). -/
structure Strand where
  live : Bool := false
  pc   : Pc := {}
  rep  : Rep := {}
  hold : Bool := false
  fbuf : List (Nat × Byte) := []
  blk  : Blk := .none
  deriving DecidableEq, Repr, Inhabited

/-- A resolved argument window (R174). -/
structure Window where
  base : Nat := 0
  size : Nat := 0
  wr   : Bool := false
  ww   : Bool := false
  dom  : Nat := 0
  deriving DecidableEq, Repr, Inhabited

/-- A domain-stack frame (R171). -/
structure Frame where
  retpc    : Pc
  handle   : BitVec 32
  caller   : Nat
  callee   : Nat
  cstat    : BitVec 32
  csegb    : Nat
  gsegb    : Nat
  clean    : Nat
  gcseg    : Nat
  doom     : Bool
  rsn      : Bool
  bdoom    : Bool
  brsn     : Bool
  cln      : Bool
  ceil     : Nat
  bud      : Nat
  win      : Window
  ssave    : List Word
  tsave    : List View
  deriving DecidableEq, Repr, Inhabited

/-- A launch's hold on a seat: LAUNCH fields, LIMIT and thread-image base that its threads there take (R36, R173, R205). -/
structure SeatHome where
  lid   : Nat
  queue : Nat
  limit : Nat
  image : Nat
  deriving DecidableEq, Repr, Inhabited

/-- What a seat holds (R19, R21); `saved` is the seat of a launch whose thread stands in its image (R204). -/
inductive Occ where
  | free | idle | thread | saved
  deriving DecidableEq, Repr, Inhabited

/-- An installed resident handler (R201, R362). -/
structure HRec where
  hseg  : Nat
  hent  : Nat
  hbnd  : Nat
  hdata : Nat
  deriving DecidableEq, Repr, Inhabited

/-- What the seat keeps while its handler runs (R202): the installation that its entry used, the strand that trapped,
the main strand's own PC and REPC, whether SAVEFAULT of the sequencer entered the handler (R206), the trap, and whether the
main strand's next issue was an ERET's resumption (R69). `fins` are the writes to s56 to s63 and to predicates that other
units have finished for the held strands, `ret` the PC at which a follower goes on whose gang has ended (R25). -/
structure Held where
  inst  : HRec
  trap  : Trap
  strn  : StrandK
  mpc   : Pc
  mrep  : Rep
  mblk  : Blk
  save  : Bool
  res   : Bool
  fins  : List (Option (Nat × Word) × Option (Nat × Bool)) := []
  ret   : Option Pc := none
  deriving DecidableEq, Repr, Inhabited

/-- A trap that waits for its entry (R202, R315). -/
structure PendTrap where
  trap : Trap
  strn : StrandK
  pc   : Pc
  save : Bool
  deriving DecidableEq, Repr, Inhabited

/-- The unwinding of a thread (R180). `run` says that a cleanup runs. -/
structure Unwind where
  target : Nat
  retire : Bool
  rsn    : Bool
  hnd    : BitVec 32
  xdom   : Nat
  run    : Bool
  deriving DecidableEq, Repr, Inhabited

/-- Progress of the save and restore sequencer on a seat (R206). -/
inductive Seq where
  | none
  | saving (n : Nat) (fault : Bool)         -- n units of the image are written; SAVEFAULT has been raised
  | restoring (image : Nat) (fault : Bool)  -- the image at an address is read back; SAVEFAULT has been raised
  deriving DecidableEq, Repr, Inhabited

/-- A seat (R65 to R85). STATUS.CSTR, MSTR, MHOLD, LEVEL and CHK, DSP.HWN and SEAT have their home elsewhere and are
computed. -/
structure Seat where
  occ     : Occ := .free
  home    : Option SeatHome := none
  views   : Vector View 64 := Vector.replicate 64 {}
  scal    : Vector Word 64 := Vector.replicate 64 0
  scalFe  : Vector Bool 64 := Vector.replicate 64 true
  main    : Strand := {}
  mat     : Strand := {}
  cpy     : Strand := {}
  pred    : BitVec 8 := 1
  ftz     : Bool := false
  rsm     : Bool := false
  hnd     : Bool := false
  gang    : Bool := false
  lead    : Bool := false
  fstat   : BitVec 7 := 0
  amax    : Word := 0
  epc     : Pc := {}
  ecause  : BitVec 16 := 0
  eval    : Word := 0
  repSys  : Rep := {}            -- REPC as the handler sees it (R80)
  basedom : Nat := 0
  vdev    : Nat := 0
  curdom  : Nat := 0
  limit   : Nat := 0
  depth   : Nat := 0
  frames  : List Frame := []     -- hardware frames, innermost first (R172)
  gstat   : BitVec 16 := 0
  lid     : Nat := 0
  queue   : Nat := 0
  cyc     : BitVec 48 := 0
  segb    : Nat := 0
  age     : Nat := 0             -- age count (R20)
  pri     : Nat := 1
  yld     : Bool := false
  image   : Nat := 0             -- thread-image base (R205)
  resume  : Bool := false        -- the next issue is ERET's, with RSM = 1 (R69)
  sliced  : Bool := false        -- CYC has been set since the device's turn began (R193)
  held    : Option Held := none
  pend    : Option PendTrap := none
  reports : List (StrandK × Trap) := []   -- home-side reports not yet raised (R315)
  unw     : Option Unwind := none
  marked  : Bool := false        -- a frame carries a mark that no target has taken in yet (R179, R180)
  ending  : Bool := false        -- retired at its next boundary without cleanup (R183)
  seq     : Seq := .none
  record  : Option (BitVec 256) := none   -- the task record that created the thread (R210)
  engDefer : Bool := false       -- an ENGINE fault is deferred into the image (R200, R205)
  deriving DecidableEq, Repr, Inhabited

/-! ### Places -/

/-- The unit that performs an access (R89). -/
inductive Home where
  | bank (core : Nat) | slice (m : Nat) | host | fabric (dev : Nat)
  deriving DecidableEq, Repr, Inhabited

/-- Bits at a home: first bit at the home's own address, and length. -/
structure Frag where
  home : Home
  at_  : Nat
  len  : Nat
  deriving DecidableEq, Repr, Inhabited

/-- A place: bits of frags in order, least significant first. -/
abbrev Loc := List Frag

/-- What is moved: the bits of a place, or a number. -/
inductive Val where
  | loc (l : Loc)
  | num (n : Nat)
  deriving DecidableEq, Repr, Inhabited

/-- One move. `elem` says that it is an element, to which conjugation and adds apply. -/
structure Mv where
  dst  : Loc
  src  : Val
  elem : Bool
  deriving DecidableEq, Repr, Inhabited

/-- Where a tile instruction stands in a row group (R270): before it, among its reads with what has been read, or among its
writes, those of one view before those of the next; `all` is all that the group writes. -/
inductive TilePhase where
  | start
  | reads (todo : List Loc) (got : List (Loc × Nat))
  | writes (all : List Frag) (todo : List (List (Loc × Nat)))
  deriving DecidableEq, Repr, Inhabited

/-- The tile engine while an instruction of a seat occupies it (R271): its restart view, whether it fills that view
(R320), the row group. -/
structure TileRun where
  seat  : Nat
  view  : Nat
  fills : Bool
  group : Nat
  phase : TilePhase
  deriving DecidableEq, Repr, Inhabited

/-! ### Engines -/

/-- A tensor entry as an operation captured it (R147). Strides and extents by dimension. -/
structure Tensor where
  base : Nat
  fmt  : Nat
  dims : List Nat
  strs : List Nat
  deriving DecidableEq, Repr, Inhabited

/-- Address space in which an operation reaches tensors: the issuer's CURDOM and its window at issue (R300). -/
structure Space where
  vdev : Nat
  dom  : Nat
  win  : Option Window
  deriving DecidableEq, Repr, Inhabited

/-- Kinds of copy operation (R302 to R305). -/
inductive CopyKind where
  | load | store | gather | scatter | add
  | move (t2 : Tensor) (org2 : List Int) (nrows ncols : Nat) (adds : Bool)
  deriving DecidableEq, Repr, Inhabited

/-- A copy operation that has not retired (R301). `before` is the access count at issue (R301: its accesses follow the
strand's earlier ones); `ranges` its scoreboard entries (R96). -/
structure CopyOp where
  num    : Nat
  seat   : Nat
  strn   : StrandK
  kind   : CopyKind
  vnum   : Nat
  view   : View
  idx    : Option View
  tens   : Tensor
  org    : List Int
  t      : Bool
  c      : Bool
  space  : Space
  group  : Nat := 0
  before : Nat
  ranges : List (Nat × Nat)
  deriving DecidableEq, Repr, Inhabited

/-- The state of R308 of a copy context or the matrix unit. -/
structure EngWords where
  efop    : Word := 0
  efcode  : Word := 0
  efval   : Word := 0
  efrst   : Word := 0
  errlast : Word := 0
  stopped : Bool := false         -- a restartable fault stops the context (R306)
  deriving DecidableEq, Repr, Inhabited

/-- A copy context (R131). `held` are operations whose strand waits at issue for room, their scoreboard entries taken
(R301). -/
structure CopyCtx where
  ops : List CopyOp := []
  held : List CopyOp := []
  eng : EngWords := {}
  deriving DecidableEq, Repr, Inhabited

/-- Kinds of matrix operation (R292 to R298). -/
inductive MatKind where
  | mma (sat : Bool) | mmac | mgang (sat : Bool)
  | zero (rows cols : Nat)
  | load
  | drain (e : Int) (rnd : Rnd) (satx clr : Bool)
  | drainc (e : Int) (satx clr : Bool) (add t : Bool) (tens : Tensor) (org : List Int)
  deriving DecidableEq, Repr, Inhabited

/-- A line of a bit-plane operand as it was read: its bytes, and the columns whose bytes had an uncorrectable error. -/
structure Line where
  bytes : List Byte
  bad   : List Nat
  deriving DecidableEq, Repr, Inhabited

/-- A matrix operation that has not retired (R291). `port` holds the moves of the row groups handed to the drain port and not
yet performed (R298). -/
structure MatOp where
  num    : Nat
  seat   : Nat
  strn   : StrandK
  kind   : MatKind
  af     : AFmt
  row0   : Nat
  col0   : Nat
  va     : View
  vb     : View
  ma     : SrcMod
  mb     : SrcMod
  vnum   : Nat
  vbnum  : Nat
  space  : Space
  ftz    : Bool
  group  : Nat := 0
  port   : List (List Mv) := []
  err    : Nat := 0            -- the error that it ends with once the port is empty (R307)
  before : Nat
  gid    : Option (Nat × Nat) := none   -- MGANG in a gang: the leader and the instruction's own number (R295)
  deriving DecidableEq, Repr, Inhabited

/-- The matrix unit (R18, R131). -/
structure MatUnit where
  holder : Option Nat := none
  ops    : List MatOp := []
  eng    : EngWords := {}
  deriving DecidableEq, Repr, Inhabited

/-- A timeline's counters (R186). -/
structure Timeline where
  iss  : Nat := 0
  done : Nat := 0
  deriving DecidableEq, Repr, Inhabited

/-! ### Sync unit, deque, inbox -/

/-- A waiter of a sync slot (R329, R330). -/
inductive WaitKind where
  | phase (old : Nat) | join | acq (d : Nat) | take (d : Nat)
  deriving DecidableEq, Repr, Inhabited

/-- A strand that waits at a slot; `hnd` says that the seat's handler does (R202). -/
structure Waiter where
  core : Nat
  seat : Nat
  strn : StrandK
  hnd  : Bool := false
  kind : WaitKind
  deriving DecidableEq, Repr, Inhabited

/-- An arrival held for the next phase: a thread's PHSIG, or PHNEXT that then waits, or a stream's (R329, R355). -/
inductive HeldArr where
  | thread (core seat : Nat) (strn : StrandK) (hnd next : Bool)
  | stream (id : Nat)
  deriving DecidableEq, Repr, Inhabited

/-- State of a place of a token queue (R129). -/
inductive Place where
  | free | resv | posted | taken
  deriving DecidableEq, Repr, Inhabited

/-- A member of a phaser slot (R329). -/
structure Member where
  core : Nat
  seat : Nat
  arr  : Bool
  deriving DecidableEq, Repr, Inhabited

/-- A sync slot in use (R129, R186, R328). -/
structure Slot where
  kind    : SyKind
  phase   : Nat := 0
  nreg    : Nat := 0
  narr    : Nat := 0
  jcount  : Nat := 0
  cap     : Nat := 0
  members : List Member := []
  places  : List Place := []
  freeL   : List Nat := []
  postL   : List Nat := []
  waiters : List Waiter := []
  held    : List HeldArr := []
  lid     : Nat := 0
  vdev    : Nat := 0
  deriving DecidableEq, Repr, Inhabited

/-- An inbox entry (R126). -/
structure Msg where
  lid   : Nat
  src   : Nat
  dseat : Nat
  len   : Nat
  tag   : BitVec 32
  data  : List Byte
  deriving DecidableEq, Repr, Inhabited

/-- A cached translation (R114). `oa` is the page's base, `leaf` the address of its entry, both device physical. -/
structure TlbEntry where
  vdev : Nat
  dom  : Nat
  va   : Nat
  bits : Nat
  oa   : Nat
  tgt  : Nat
  log  : Bool
  x    : Bool
  w    : Bool
  r    : Bool
  leaf : Nat
  deriving DecidableEq, Repr, Inhabited

/-- A line of the constant cache (R102). -/
structure CLine where
  lid  : Nat
  bank : Nat
  line : Nat
  data : List Byte
  deriving DecidableEq, Repr, Inhabited

/-! ### Accesses in flight -/

/-- What became of a piece of an access. -/
inductive PieceSt where
  | sent | done (data : List Byte) | failed (t : Trap)
  deriving DecidableEq, Repr, Inhabited

/-- One single-copy-atomic piece of a scalar access (R316). `addr` is the home's own address, `va` the virtual address
as the accessor names it, `vdev` and `dom` the accessor at its check, `win` says that its argument window grants it;
`tva` and `tdom` are what its translation was looked up by (R116, R377). -/
structure Piece where
  home : Home
  addr : Nat
  va   : Nat
  len  : Nat
  vdev : Nat
  dom  : Nat
  win  : Bool
  tva  : Nat := 0
  tdom : Nat := 0
  st   : PieceSt := .sent
  deriving DecidableEq, Repr, Inhabited

/-- What an access in flight does. -/
inductive AccKind where
  | load (sx : Bool) | store (data : List Byte) | atomic (op : AtomOp) (ty : ITy) (b : Word)
  deriving DecidableEq, Repr, Inhabited

/-- A scalar access that has issued and is not yet acknowledged (R315, R317). -/
structure Access where
  num    : Nat
  core   : Nat
  seat   : Nat
  strn   : StrandK
  kind   : AccKind
  len    : Nat
  dst    : Option Nat
  pair   : Bool          -- .b128 into D and D + 1
  acq    : Bool          -- LDA
  va     : Word
  dom    : Nat
  vdev   : Nat
  pieces : List Piece
  twin   : Option Nat := none    -- the partner's access that this one performs as well (R210)
  ghost  : Bool := false         -- the partner's access performs this one (R210)
  deriving DecidableEq, Repr, Inhabited

/-- A store, atomic or tile store that waits for its comparison with the partner's (R210): the access to be put in flight
(none for a tile store), the hints of its word, the address, and what is compared with it. -/
structure Offer where
  acc  : Option Access
  head : Head
  addr : Nat
  size : Nat
  data : List (Nat × List Byte)
  deriving DecidableEq, Repr, Inhabited

/-- A core's place in a checked pair (R363): the direction asked, the partner, whether the pair holds, whether CHKX has
been issued, and the store that waits for its comparison. -/
structure Pair where
  dir   : Nat
  mate  : Nat
  on    : Bool
  bye   : Bool
  pd    : Nat := 0               -- the predicate that CHKP writes
  offer : Option Offer := none
  deriving DecidableEq, Repr, Inhabited

/-- A core's place in a gang (R25, R364): the leader, the shape, the seat, the member's done bit, the PC after a follower's
FOLLOW, and on the leader the instruction that members still have to execute, with the PC and REPC at which the leader
issued it. -/
structure Gang where
  leader : Nat
  w      : Nat
  h      : Nat
  seat   : Nat
  gdone  : Bool
  ret    : Pc
  fwd    : Option (Instr × Pc × Rep) := none
  mg     : Nat := 0              -- on the leader: own number of the MGANG issued last
  deriving DecidableEq, Repr, Inhabited

/-- Why a core is being pre-empted (R204). -/
inductive PreWhy where
  | slice | sigcore | retire | pass
  deriving DecidableEq, Repr, Inhabited

/-- Operand lines that a gang member has forwarded (R295): the MGANG's own number, A or B, the group. -/
structure Fed where
  uid   : Nat
  isA   : Bool
  group : Nat
  lines : List Line
  deriving DecidableEq, Repr, Inhabited

/-- A core (R15 to R18, R86, R96 to R99). -/
structure Core where
  seats   : Vector Seat 4 := Vector.replicate 4 {}
  last    : Nat := 0
  dqh     : Nat := 0
  dqt     : Nat := 0
  dqs     : List (Nat × BitVec 256) := []
  retSlot : Option (BitVec 256) := none
  inbox   : List Msg := []
  slots   : List (Nat × Slot) := []
  tls     : Vector Timeline 8 := Vector.replicate 8 {}
  ctxs    : Vector CopyCtx 4 := Vector.replicate 4 {}
  mat     : MatUnit := {}
  fed     : List Fed := []
  tile    : Option TileRun := none
  sboard  : List (Nat × List (Nat × Nat)) := []   -- scoreboard entries of superstep transfers: launch, ranges (R96)
  lrt     : List (Nat × BitVec 32) := []
  hinst   : Option HRec := none
  ccache  : List CLine := []
  tlb     : List TlbEntry := []
  halted  : Bool := false
  pre     : Option PreWhy := none
  retiring : Bool := false             -- packets bound for its logical number are held until that has passed on (R165)
  pair    : Option Pair := none
  gang    : Option Gang := none
  ibdisc  : Nat := 0
  eccc    : Nat := 0
  eccu    : Nat := 0
  deriving DecidableEq, Repr, Inhabited

/-! ### Messages in flight -/

/-- A message that has left its sender (R128). -/
structure Flying where
  num   : Nat
  src   : Nat
  seat  : Nat
  dest  : Nat
  vdev  : Nat
  ref   : Bool
  msg   : Msg
  deriving DecidableEq, Repr, Inhabited

/-- A slot instruction (R327 to R330). -/
inductive SlotOp where
  | phreg (n : Nat) | phdrop (n : Nat) | phsig | phwait (v : Word) | phwaitMem | phwaitJoin | phnext
  | tqacq (d : Nat) | tqpost (p : Word) | tqtake (d : Nat) | tqrel (p : Word) | join | leave | tdone
  deriving DecidableEq, Repr, Inhabited

/-- A slot instruction on its way to another core (R327). -/
structure SlotReq where
  num  : Nat
  core : Nat
  seat : Nat
  strn : StrandK
  hnd  : Bool := false
  dest : Nat
  y    : Nat
  op   : SlotOp
  deriving DecidableEq, Repr, Inhabited

/-- A translation walk in progress, or one that joins or queues behind another (R114): the core whose miss asked for it and
the strand that waits; `at_` is the address that a fault names, `num` the access count when it began. -/
structure Walk where
  core : Nat
  seat : Nat
  strn : StrandK
  vdev : Nat
  dom  : Nat
  va   : Nat
  at_  : Nat
  num  : Nat := 0
  deriving DecidableEq, Repr, Inhabited

/-- An atomic on a LOG bit that the write of a strand waits for (R115). -/
structure LogReq where
  core : Nat
  seat : Nat
  strn : StrandK
  entry : TlbEntry
  done : Bool := false            -- the atomic found LOG = 0
  deriving DecidableEq, Repr, Inhabited

/-! ### Escapement -/

/-- State of a stream (R349). -/
inductive StreamSt where
  | free | opened | ended | error
  deriving DecidableEq, Repr, Inhabited

/-- A constraint (R138, R352). -/
structure Constraint where
  cut    : Nat
  index  : Nat
  bodies : List Nat
  deriving DecidableEq, Repr, Inhabited

/-- A stream (R349). PENDING is the length of `pendC`. `arr` says that the Escapement's party has arrived in the
current phase (R355). -/
structure Stream where
  st     : StreamSt := .free
  cfg    : BitVec 58 := 0
  lid    : Nat := 0
  vdev   : Nat := 0
  pendC  : List Constraint := []
  cut    : Nat := 0
  sealed : Nat := 0
  batch  : Nat := 0
  remain : Nat := 0
  infl   : Bool := false
  store  : List Constraint := []
  arr    : Bool := false
  deriving DecidableEq, Repr, Inhabited

/-! ### Launches and queues -/

/-- A launch record (R33). -/
structure LRec where
  codeaddr : Nat := 0
  entry    : Nat := 0
  segbound : Nat := 0
  tidtab   : Nat := 0
  disttab  : Nat := 0
  xfertab  : Nat := 0
  cbanktab : Nat := 0
  setx     : Nat := 0
  sety     : Nat := 0
  setw     : Nat := 0
  seth     : Nat := 0
  seats    : Nat := 0
  cbmask   : Nat := 0
  codeoff  : Nat := 0
  savesz   : Nat := 0
  savebase : Nat := 0
  waits    : List (BitVec 64) := []
  signal   : Nat := 0
  arg      : BitVec 64 := 0
  ldsize   : Nat := 0
  ldloc    : Nat := 0
  raw      : List Byte := []     -- the record's bytes
  deriving DecidableEq, Repr, Inhabited

/-- Progress of a core's transfers in a superstep (R151): the entry count as it was read, and the transfer that runs, as its
table entries stood when it began (R145). -/
structure XferSt where
  rank  : Nat
  entry : Nat
  group : Nat
  count : Option Nat := none
  op    : Option CopyOp := none
  stop  : Option Nat      -- the seat whose SSTEP took the fault, until it waits there again
  deriving DecidableEq, Repr, Inhabited

/-- A launch that the dispatcher has accepted and that has not completed (R33 to R37); those of one queue stand in queue
order. `started` separates waiting from running; `met` is the RCLK time at
which its waits were met (R137); `child` the core and tl5 number of a device-side LAUNCH; `starts` the cores whose start
message has not arrived; `sst` the superstep's transfers while they run, `arrived` the seats whose threads wait for them. -/
structure Launch where
  lid     : Nat
  vdev    : Nat
  queue   : Nat
  base    : Nat
  rcd     : LRec
  addr    : Nat
  started : Bool := false
  met     : Option Nat := none
  child   : Option (Nat × Nat) := none
  slot    : Option Nat := none
  starts  : List Nat := []
  step    : Nat := 0
  banks   : List (Nat × Nat) := []   -- CBADDR and CBSIZE of c0 to c15 (R101)
  ovPost  : Bool := false            -- event 0x09 has been posted since the list was last read (R124)
  sst     : Option (List XferSt) := none
  arrived : List (Nat × Nat) := []   -- core and seat (R32)
  list    : List (Home × Nat × Nat) := []   -- where the start wrote the overflow descriptor (R124)
  deriving DecidableEq, Repr, Inhabited

/-- QSTATE (R132). -/
inductive QState where
  | idle | run | error
  deriving DecidableEq, Repr, Inhabited

/-- A COPY command that has started, and its segment's SEQ (R134). -/
structure QCopy where
  src  : Nat
  dst  : Nat
  left : Nat
  seq  : Nat
  deriving DecidableEq, Repr, Inhabited

/-- A launch queue (R132, R394). `seg` is the accepted segment and `off` the next command in it. -/
structure Queue where
  qbase  : Nat := 0
  qsize  : Nat := 0
  qpri   : Nat := 0
  qkey   : Nat := 0
  qput   : Nat := 0
  qget   : Nat := 0
  qseq   : Nat := 0
  state  : QState := .idle
  qown   : Nat := 0
  qgo    : Bool := false         -- QKILL.GO and QKILL.DOMK, as last written (R394)
  qdomk  : Bool := false
  qkstat : Nat := 0
  qkdom  : Bool := false         -- the kill in progress kills QOWN as well
  qkleft : Bool := false         -- its steps 1 to 4 are still to be done (R395)
  qtl    : Nat := 0
  seg    : Option (List Byte) := none
  off    : Nat := 0
  copy   : Option QCopy := none
  deriving DecidableEq, Repr, Inhabited

/-- An event record held because the ring is full (R141, R142). -/
structure Event where
  lid  : Nat
  code : Nat
  w0   : Word
  w1   : Word
  w2   : Word
  deriving DecidableEq, Repr, Inhabited

/-- States of a TDI (R408). -/
inductive Tdi where
  | unlocked | locked | run | error
  deriving DecidableEq, Repr, Inhabited

/-- Load registers (R384). LDSTATE: 0 idle, 1 busy, 2 done, 3 error. -/
structure Loader where
  ldsrc   : Word := 0
  ldlen   : Word := 0
  lddst   : Word := 0
  ldcap   : Word := 0
  ldsig   : Word := 0
  ldctl   : Bool := false
  ldstate : Nat := 0
  lderr   : Nat := 0
  ldsel   : Nat := 0
  ldrev   : Nat := 1
  ldused  : Word := 0
  deriving DecidableEq, Repr, Inhabited

/-- Proposal registers (R403). `at_` is the page a running PAGE proposal has reached. -/
structure Proposal where
  cpkind : Nat := 0
  cppage : Nat := 0
  cpcnt  : Nat := 0
  cpent  : Word := 0
  cproot : Word := 0
  cpgo   : Bool := false
  cpstat : Nat := 0
  cpdone : Nat := 0
  deriving DecidableEq, Repr, Inhabited

/-- A thread that stands in its image (R204, R205): a number by which sync slots name it, the core and seat, the image's
base, the thread's base domain and LID. The rest is what the image's layout gives no place: what each strand waits for,
the instructions that have been finished since, GSTAT, which no restore changes (R75), the PC, and the task record
(R210). -/
structure SavedImage where
  id    : Nat
  core  : Nat
  seat  : Nat
  image : Nat
  dom   : Nat
  lid   : Nat
  cur   : Nat := 0
  queue : Nat := 0
  depth : Nat := 0
  limit : Nat := 0
  gstat : BitVec 16 := 0
  pc    : Pc := {}
  slice : Bool := false            -- to be restored with the start of a slice (R193)
  main  : Blk := .none
  mat   : Blk := .none
  cpy   : Blk := .none
  fin   : List (StrandK × Option (Nat × Word) × Option (Nat × Bool)) := []
  record : Option (BitVec 256) := none
  deriving DecidableEq, Repr, Inhabited

/-- The part of a core image that R208 gives no byte layout: sync slots and token store, matrix holder and handler
record, the return slot, engine words with the operations that a deferred fault stops, gang and pair, and the seats as
launches hold them. -/
structure CoreMisc where
  slots   : List (Nat × Slot)
  hinst   : Option HRec
  retSlot : Option (BitVec 256)
  ctxs    : Vector CopyCtx 4
  mat     : MatUnit
  gang    : Option Gang
  pair    : Option Pair
  seats   : Vector Seat 4
  deriving DecidableEq, Repr, Inhabited

/-- A virtual device (R132, R139, R186, R384 to R408). -/
structure VDev where
  queues  : List (Nat × Queue) := []
  xtl     : Nat := 0
  xiss    : Nat := 0
  invs    : List (Nat × InvScope × Nat × Nat × Nat) := []   -- TLBINV in progress: number, scope, domain, address, access count at issue
  vused   : Nat := 0
  clovr   : Nat := 0
  cr      : Int := 0
  evput   : Nat := 0
  evget   : Nat := 0
  heldEv  : List Event := []
  dlput   : Nat := 0
  dlget   : Nat := 0
  dlthr   : Bool := false
  loader  : Loader := {}
  prop    : Proposal := {}
  tdi     : Tdi := .unlocked
  nonce   : BitVec 256 := 0
  ide     : Bool := false
  ideKey  : Nat := 0
  hold    : Bool := false        -- launches held by TDI ERROR (R408)
  fencing : List Nat := []       -- domains whose DREVOKE waits for its domain fence (R179)
  killing : List Nat := []       -- domains whose reclamation runs (R348)
  rrq     : Nat := 0             -- queue served last among equal priorities (R137)
  saved   : List SavedImage := []
  cores   : List (Nat × Nat) := []   -- core images: core, address (R208)
  cmisc   : List (Nat × CoreMisc) := []
  down    : Bool := false        -- torn down and not created again: domain 0 is not live (R157, R213)
  deriving DecidableEq, Repr, Inhabited

/-! ### Tables -/

/-- A quota entry (R168). -/
structure Quota where
  active  : Bool := false
  fixed   : Bool := false
  weight  : Nat := 0
  nqueue  : Nat := 0
  slice   : Nat := 0
  rows    : BitVec 128 := 0
  slices  : BitVec 192 := 0
  keybase : Nat := 0
  keycnt  : Nat := 0
  gcap    : Nat := 0
  gbase   : Nat := 0
  dcap    : Nat := 0
  dbase   : Nat := 0
  evbase  : Nat := 0
  evcap   : Nat := 0
  dlbase  : Nat := 0
  dlcap   : Nat := 0
  deriving DecidableEq, Repr, Inhabited

/-- A key slot's visible status (R160). KSTATE: 0 empty, 1 loaded, 2 erasing. -/
structure KeySlot where
  kgen   : Nat := 0
  vdev   : Nat := 0
  use    : Nat := 0
  kstate : Nat := 0
  deriving DecidableEq, Repr, Inhabited

/-- An ownership entry (R156). STATE: 0 free, 1 owned, 2 reclaim. -/
structure Owner where
  vdev    : Nat := 0
  owner   : Nat := 0
  key     : Nat := 0
  state   : Nat := 0
  shared  : Bool := false
  hostvis : Bool := false
  pull    : Bool := false
  lost    : Bool := false
  srcdev  : Nat := 0
  deriving DecidableEq, Repr, Inhabited

/-- A page whose zero-fill runs (R107, R158): the entry it will hold, with the device in whose slices it lies, and the
proposal that waits for it. -/
structure Reclaim where
  page  : Nat
  next  : Owner
  prop  : Option Nat
  deriving DecidableEq, Repr, Inhabited

/-- A request of the host to a device physical address (R110). -/
structure OutReq where
  vdev : Nat
  dpa  : Nat
  acc  : OutAcc
  deriving DecidableEq, Repr, Inhabited

/-- What a home answers to a request from outside (R108, R110, R111, R399). -/
inductive OutResp where
  | data (b : List Byte) | done | poison | fault (t : Trap)
  deriving DecidableEq, Repr, Inhabited

/-- What is held at a page that is being pulled (R398): a piece of an access, a walk, a request of the host, or the access of
a unit, which makes it again in the move that made it. -/
inductive HeldAcc where
  | piece (n i : Nat)
  | walk (w : Walk)
  | req (r : OutReq)
  | unit (vdev dom va : Nat) (mv : Option Move)
  deriving DecidableEq, Repr, Inhabited

/-- A pull in progress (R398), with the virtual address of its first access (R399) and what is held, in order of arrival. -/
structure Pull where
  page  : Nat
  req   : Bool
  va    : Nat
  queue : List HeldAcc := []
  deriving DecidableEq, Repr, Inhabited

/-- A Regulator slot (R166, R186). -/
structure RegSlot where
  arm    : Bool := false
  vdev   : Nat := 0
  queue  : Nat := 0
  period : Nat := 0
  next   : Nat := 0
  rcd    : Nat := 0
  infl   : Nat := 0
  rgovr  : Nat := 0
  deriving DecidableEq, Repr, Inhabited

/-- A direction of a link: its counter, and how many keys it has had (R401). -/
structure Way where
  count  : Nat := 0
  keygen : Nat := 0
  deriving DecidableEq, Repr, Inhabited

/-- A link with its two directions, how often in succession it has failed to retrain, and whether it is retired (R401). -/
structure Link where
  tx      : Way := {}
  rx      : Way := {}
  fails   : Nat := 0
  retired : Bool := false
  deriving DecidableEq, Repr, Inhabited

/-- A response of the Caddy in a mailbox (R405 to R408). -/
inductive Resp where
  | none
  | error (code : Nat)
  | version (v : Nat)             -- major · 16 + minor
  | capabilities (ct : Nat)       -- the CT exponent
  | algorithms (asym hash dhe aead : Nat)
  | digests (d : List (Nat × BitVec 512))
  | certificate (slot : Nat) (part : List Byte)
  | setCertificate (slot : Nat)
  | vendor                        -- a vendor-defined request has been performed (R406)
  | challengeAuth (slot : Nat) (sig : List Byte)
  | measurements (m : List (Nat × BitVec 512))
  | keyExchange (share : BitVec 768) (sig : List Byte)
  | finish | endSession
  | ideKm (fn : Nat)
  | lock (nonce : BitVec 256)
  | started (fn : Nat) | stopped (fn : Nat)
  | report (fn : Nat) (bar0Locked bar2Run : Bool)
  | state (fn : Nat) (t : Tdi)
  deriving DecidableEq, Repr, Inhabited

/-- SPDM state of the Caddy (R405 to R407): 0 not started, 1 after VERSION, 2 after CAPABILITIES, 3 negotiated. -/
structure Spdm where
  conn    : Nat := 0
  peer    : Option (BitVec 768) := none
  session : Bool := false
  certs   : List (Nat × List Byte) := []
  chal    : Option (Nat × BitVec 256 × Nat) := none   -- pending CHALLENGE: slot, nonce, RCLK at its arrival
  resp    : Resp := .none
  deriving DecidableEq, Repr, Inhabited

/-- A firmware subsystem (R411): measurement, security version, staging buffer, activation asked; `next` is the link that the
link controllers retrain next. -/
structure FwSub where
  meas   : Option (BitVec 512) := none
  secver : Nat := 0
  staged : Option (List Byte) := none
  act    : Bool := false
  next   : Nat := 0
  deriving DecidableEq, Repr, Inhabited

/-- The module's own registers and units. -/
structure Module where
  qtsel    : Nat := 0
  qtimg    : Word := 0
  qtcmd    : Nat := 0
  qtstat   : Nat := 0
  rclk     : Nat := 0
  clock    : Nat := 16          -- arithmetic clock in sixteenths (R12)
  coolLow  : Bool := false
  hot      : Bool := false      -- a junction sensor's last reading was 100 °C or above (R414)
  tripped  : Bool := false
  tripRep  : Bool := false      -- a thermal trip has been reported on the management bus (R414)
  mscc     : List (Nat × Nat) := []
  mscu     : List (Nat × Nat) := []
  drc      : List (Nat × Nat) := []
  dru      : List (Nat × Nat) := []
  links    : List (Nat × Link) := []
  spdm     : Spdm := {}
  unlocked : Bool := false      -- debug state (R410)
  dbgstat  : Nat := 0
  dbgnonce : BitVec 256 := 0
  dbgsrc   : Word := 0
  fwsel    : Nat := 0
  fwsrc    : Word := 0
  fwlen    : Word := 0
  fwcmd    : Nat := 0
  fwstat   : Nat := 0
  fws      : List (Nat × FwSub) := []
  lastVd   : Nat := 0           -- virtual device the dispatcher served last (R391)
  turn     : Option Nat := none -- virtual device whose turn of the pool it is (R392)
  synced   : Bool := false      -- the first time synchronisation has completed (R195)
  rrStream : List (Nat × Nat) := []  -- stream served last, per die (R354)
  deriving DecidableEq, Repr, Inhabited

/-- A strand of a seat of a core, as the issuer of an instruction. Where an instruction is finished by another unit,
`hnd` says that the seat's handler issued it. -/
structure Agent where
  core : Nat := 0
  seat : Nat := 0
  strn : StrandK := .main
  hnd  : Bool := false
  deriving DecidableEq, Repr, Inhabited

/-- The whole machine. -/
structure State where
  cores   : List (Nat × Core) := []
  vdevs   : List (Nat × VDev) := []
  lmem    : Memory := []
  acc     : Memory := []
  dram    : Memory := []
  host    : Memory := []
  fabric  : Memory := []
  lpoison : List (Nat × Unit) := []     -- 8-byte words of local memory and accumulator store that SECDED cannot correct
  apoison : List (Nat × Unit) := []
  dpoison : List (Nat × Unit) := []     -- 64-byte lines of device, host and fabric memory (R108, R307)
  hpoison : List (Nat × Unit) := []
  fpoison : List (Nat × Unit) := []
  snoops  : List (Nat × Unit) := []     -- lines the host may cache (R110)
  flight  : List Access := []
  accNum  : Nat := 0
  msgs    : List Flying := []
  slotReqs : List SlotReq := []
  walks   : List Walk := []
  logs    : List LogReq := []
  dieTlb  : List (Nat × List TlbEntry) := []
  streams : List (Nat × Stream) := []
  launches : List Launch := []
  nextLid : Nat := 1
  lpt     : List (Nat × BitVec 16) := []   -- logical-to-physical entries that differ from reset (R164)
  route   : List (Nat × BitVec 32) := []
  owners  : List (Nat × Owner) := []
  keys    : List (Nat × KeySlot) := []
  quotas  : List (Nat × Quota) := []
  rowVd   : List (Nat × Nat) := []      -- by logical row, the virtual device that last held it (R169)
  regs    : List (Nat × RegSlot) := []
  reclaims : List Reclaim := []
  pulls   : List Pull := []
  lostAt  : List (Nat × Nat × Nat) := []   -- device, domain and address of units' accesses that a failed pull held (R399)
  resps   : List OutResp := []          -- what homes last answered to requests from outside
  modl    : Module := {}
  cur     : Agent := {}
  agenda  : List Move := []
  reach   : Option (List Nat) := none   -- how far the tile engine goes in a step (R270)
  moves   : Nat := 0
  fresh   : Nat := 0
  did     : Bool := false               -- the instruction of this step has issued
  deriving DecidableEq, Repr, Inhabited

/-- Why the machine stops. -/
inductive Fault where
  /-- Raised by `step` after a thermal trip has stopped the module's clocks, for every move but a cold reset (R413, R414).
  Safe: the manual gives the module no other later step. -/
  | clocksStopped
  deriving DecidableEq, Repr

/-- Why an instruction has no meaning. -/
inductive Refusal where
  /-- Raised by an arm of `exec` whose instruction is not modelled. Safe: nothing is claimed of it. -/
  | notModelled (mnemonic : String)
  deriving DecidableEq, Repr

/-- Key slot 0: the memory key of virtual device 0, loaded from module cold reset (R160). -/
def resetKeys : List (Nat × KeySlot) := [(0, { kstate := 1 })]

/-- Quota entry 0 at module cold reset (R389): active, fixed, channel slices 0 to 7. Its other fields are a choice of
the model (log 5): no row, one queue, weight 1, one domain record, no gate. -/
def resetQuotas : List (Nat × Quota) :=
  [(0, { active := true, fixed := true, weight := 1, nqueue := 1, slices := 0xFF#192, keycnt := 1, dcap := 1 })]

/-- The machine right after module cold reset (R2, R65, R71, R75, R160, R164, R186, R389, R410, R413). -/
def State.reset : State :=
  { keys := resetKeys, quotas := resetQuotas }

end Sys2Proof.Machine
end

