-- ==== Sys2Proof/Machine/Base.lean ====
section
/-! DEFINITION. The result of an instruction, access to the parts of the state, and the advance of a strand. -/
namespace Sys2Proof.Machine

/-- How an instruction ends without completing. `trap` and `wait` leave the state as it stood before the instruction;
`trapAt` and `waitAt` keep what the instruction has done (row groups, requests to other units); `double` is a double
fault (R203, R212). -/
inductive Stop where
  | trap (t : Trap) | trapAt (t : Trap) | wait | waitAt | double
  deriving DecidableEq, Repr

/-- A computation on the state that completes or stops. -/
abbrev M (α : Type) := EStateM Stop State α

/-- What `exec` and `step` answer. -/
abbrev Out := Host.Outcome State Fault Refusal

/-- Raise a trap, taking no effect. -/
def raise {α : Type} (c : Cause) (opnd : Nat) (val : Nat) : M α :=
  throw (.trap { cause := c, opnd := opnd, val := BitVec.ofNat 64 val })

/-- Raise OPERAND where a condition fails. -/
def need (b : Bool) (opnd val : Nat) : M Unit := if b then pure () else raise .operand opnd val

/-- Wait where a condition fails. -/
def waitFor (b : Bool) : M Unit := if b then pure () else throw .wait

/-! ### Parts of the state -/

def State.core (s : State) (c : Nat) : Core := mapGet {} c s.cores
def State.setCore (s : State) (c : Nat) (x : Core) : State := { s with cores := mapPut c x s.cores }
def State.modCore (s : State) (c : Nat) (f : Core → Core) : State := s.setCore c (f (s.core c))
def Core.seat (x : Core) (k : Nat) : Seat := vget x.seats k {}
def Core.modSeat (x : Core) (k : Nat) (f : Seat → Seat) : Core := { x with seats := vset x.seats k (f (x.seat k)) }
def State.seat (s : State) (c k : Nat) : Seat := (s.core c).seat k
def State.modSeat (s : State) (c k : Nat) (f : Seat → Seat) : State := s.modCore c (fun x => x.modSeat k f)
def State.vd (s : State) (v : Nat) : VDev := mapGet {} v s.vdevs
def State.modVd (s : State) (v : Nat) (f : VDev → VDev) : State := { s with vdevs := mapPut v (f (s.vd v)) s.vdevs }
def State.quota (s : State) (v : Nat) : Quota := mapGet {} v s.quotas
def State.owner (s : State) (p : Nat) : Owner := mapGet {} p s.owners
def State.setOwner (s : State) (p : Nat) (o : Owner) : State := { s with owners := mapSet {} p o s.owners }
def State.key (s : State) (k : Nat) : KeySlot := mapGet {} k s.keys
def State.setKey (s : State) (k : Nat) (x : KeySlot) : State := { s with keys := mapSet {} k x s.keys }
def VDev.queue (v : VDev) (q : Nat) : Queue := mapGet {} q v.queues
def VDev.modQueue (v : VDev) (q : Nat) (f : Queue → Queue) : VDev := { v with queues := mapPut q (f (v.queue q)) v.queues }
def State.queue (s : State) (v q : Nat) : Queue := (s.vd v).queue q
def State.modQueue (s : State) (v q : Nat) (f : Queue → Queue) : State := s.modVd v (fun x => x.modQueue q f)
def State.modModule (s : State) (f : Module → Module) : State := { s with modl := f s.modl }
def State.stream (s : State) (i : Nat) : Stream := mapGet {} i s.streams
def State.setStream (s : State) (i : Nat) (x : Stream) : State := { s with streams := mapPut i x s.streams }

def Seat.strand (x : Seat) : StrandK → Strand
  | .main => x.main | .matrix => x.mat | .copy => x.cpy
def Seat.setStrand (x : Seat) (k : StrandK) (t : Strand) : Seat :=
  match k with
  | .main => { x with main := t } | .matrix => { x with mat := t } | .copy => { x with cpy := t }
def Seat.modStrand (x : Seat) (k : StrandK) (f : Strand → Strand) : Seat := x.setStrand k (f (x.strand k))
def State.strand (s : State) (a : Agent) : Strand := (s.seat a.core a.seat).strand a.strn
def State.modStrand (s : State) (a : Agent) (f : Strand → Strand) : State :=
  s.modSeat a.core a.seat (fun x => x.modStrand a.strn f)

/-- What a strand waits for lets its instruction be tried again. -/
def Blk.open_ : Blk → Bool
  | .none | .timed .. | .pairing | .unpairing | .following .. => true
  | _ => false

/-- The seat of the instruction's issuer. -/
def State.me (s : State) : Seat := s.seat s.cur.core s.cur.seat
/-- The core of the instruction's issuer. -/
def State.myCore (s : State) : Core := s.core s.cur.core
/-- Change the issuer's seat. -/
def State.modMe (s : State) (f : Seat → Seat) : State := s.modSeat s.cur.core s.cur.seat f
/-- Change the issuer's core. -/
def State.modMyCore (s : State) (f : Core → Core) : State := s.modCore s.cur.core f

/-- Change every core listed. -/
def State.modCores (s : State) (f : Nat → Core → Core) : State := { s with cores := mapVals f s.cores }

/-- Read something from the state. -/
def look {α : Type} (f : State → α) : M α := fun s => .ok (f s) s
/-- Change the state. -/
def change (f : State → State) : M Unit := fun s => .ok () (f s)
/-- The issuer's seat. -/
def me : M Seat := look State.me
/-- Change the issuer's seat. -/
def modMe (f : Seat → Seat) : M Unit := change (fun s => s.modMe f)

/-- A computation on the state as one function: the state where it completes, none where it stops. -/
def M.run? {α : Type} (m : M α) (s : State) : Option (α × State) :=
  match m s with
  | .ok a s' => some (a, s')
  | .error _ _ => none

/-- Run `f` for each element of a list, in order. -/
def forL {α : Type} (l : List α) (f : α → M Unit) : M Unit :=
  match l with
  | [] => pure ()
  | x :: xs => do f x; forL xs f

/-- Run `f` for each element of a list, in order, and keep the answers. -/
def mapL {α β : Type} (l : List α) (f : α → M β) : M (List β) :=
  match l with
  | [] => pure []
  | x :: xs => do
    let y ← f x
    let ys ← mapL xs f
    pure (y :: ys)

/-! ### Views, registers, flags -/

def Seat.view (x : Seat) (n : Nat) : View := vget x.views n {}
def Seat.setView (x : Seat) (n : Nat) (v : View) : Seat := { x with views := vset x.views n v }
def Seat.reg (x : Seat) (n : Nat) : Word := vget x.scal n 0
def Seat.full (x : Seat) (n : Nat) : Bool := vget x.scalFe n true
def Seat.setReg (x : Seat) (n : Nat) (v : Word) : Seat := { x with scal := vset x.scal n v }
def Seat.setFull (x : Seat) (n : Nat) (b : Bool) : Seat := { x with scalFe := vset x.scalFe n b }

/-- Predicate n; p0 reads 1 (R73). -/
def Seat.p (x : Seat) (n : Nat) : Bool := if n = 0 then true else x.pred.getLsbD n
/-- Write a predicate; a write to p0 is discarded (R73). -/
def Seat.setP (x : Seat) (n : Nat) (b : Bool) : Seat :=
  if n = 0 ∨ 8 ≤ n then x
  else { x with pred := if b then x.pred ||| BitVec.twoPow 8 n else x.pred &&& ~~~(BitVec.twoPow 8 n) }

/-- The guard of an instruction (R216). -/
def guardOk (h : Head) (x : Seat) : Bool := xor (x.p h.gpred) h.ginv

/-! ### FSTAT flags (R43, R77) -/

/-- A set of flags to raise, as FSTAT's bits. -/
abbrev Flags := BitVec 7
def fNV : Flags := 0x01
def fDZ : Flags := 0x02
def fOF : Flags := 0x04
def fUF : Flags := 0x08
def fNX : Flags := 0x10
def fSAT : Flags := 0x20
def fNAN : Flags := 0x40

/-- One more on a 32-bit counter that saturates (R186, R194). -/
def satInc (n : Nat) : Nat := min (n + 1) (2 ^ 32 - 1)

/-- Raise flags; they are sticky (R43, R77). -/
def Seat.raiseFlags (x : Seat) (f : Flags) : Seat := { x with fstat := x.fstat ||| f }

/-! ### Advance -/

/-- A PC one instruction on (R215). -/
def Pc.next (p : Pc) : Pc := { p with idx := (p.idx + 1) % 2 ^ 32 }

/-- A strand after an instruction that completes in sequence: the next repetition, or the next word (R80, R226). -/
def Strand.advance (t : Strand) : Strand :=
  if t.rep.count = 0 then { t with pc := t.pc.next }
  else if t.rep.count = 1 then { t with pc := t.pc.next, rep := {} }
  else { t with rep := { t.rep with count := t.rep.count - 1, done := t.rep.done + 1 } }

/-- While the handler runs, REPC is the seat register, and its own repeat stands there (R80, R202). -/
def Seat.syncRep (x : Seat) (old : Rep) : Seat :=
  if x.hnd ∧ x.main.rep ≠ old then { x with repSys := x.main.rep } else x

/-- Advance a strand of a seat in sequence. -/
def Seat.advance (x : Seat) (k : StrandK) : Seat :=
  (x.modStrand k Strand.advance).syncRep x.main.rep

/-- The hints of an issued word, and the issue port's record of the issue (R20, R217). A throttled device holds the
main strand after each issue (R396). -/
def State.hints (s : State) (h : Head) : State :=
  let a := s.cur
  let hold := decide (h.dly ≠ 0) || (a.strn == .main && (s.vd (s.seat a.core a.seat).vdev).dlthr)
  let mine (c k : Nat) (t : StrandK) : Bool := c == a.core && k == a.seat && t == a.strn
  let s0 := { s with did := true, walks := s.walks.filter (fun w => !mine w.core w.seat w.strn)
                     logs := s.logs.filter (fun r => !mine r.core r.seat r.strn) }
  let s1 := s0.modStrand a (fun t => { t with hold := hold })
  if a.strn = .main then
    (s1.modSeat a.core a.seat (fun x => { x with age := 0, pri := h.pri, yld := h.yld, resume := false })).modCore
      a.core (fun x => { x with last := a.seat })
  else s1

/-- The issuer's strand after an instruction that completes in sequence. -/
def State.advance (s : State) (h : Head) : State :=
  (s.modMe (fun x => x.advance s.cur.strn)).hints h

/-- Set the issuer's IDX; a taken branch empties its fetch buffer (R248, R376). -/
def State.goto (s : State) (taken : Bool) (i : Nat) : State :=
  s.modStrand s.cur (fun t => { t with
    pc := { t.pc with idx := i % 2 ^ 32 }, fbuf := if taken then [] else t.fbuf })

end Sys2Proof.Machine
end

