-- ==== Sys2Proof/Machine/Number.lean ====
section
/-! DEFINITION. Number formats and arithmetic (R40 to R52, R245 to R262): decoding to exact values, exact operations, and
one rounding into a format. -/
namespace Sys2Proof.Machine

/-! ### Integers -/

/-- Width of an integer type (R9). -/
def wOf : ITy → Nat
  | .i8 | .n8 => 8 | .i16 | .n16 => 16 | .i32 | .n32 => 32 | .i64 | .n64 => 64

/-- A type read as two's complement (R9). -/
def sgn : ITy → Bool
  | .i8 | .i16 | .i32 | .i64 => true
  | _ => false

/-- The number that the low `w` bits of `v` hold, two's complement or unsigned (R245). -/
def readBits (signed : Bool) (w : Nat) (v : Int) : Int :=
  let u := v % (2 ^ w : Nat)
  if signed ∧ (2 ^ (w - 1) : Nat) ≤ u then u - (2 ^ w : Nat) else u

/-- Smallest value of an integer kind (R46). -/
def loOf (signed : Bool) (w : Nat) : Int := if signed then -((2 ^ (w - 1) : Nat) : Int) else 0
/-- Largest value of an integer kind (R46). -/
def hiOf (signed : Bool) (w : Nat) : Int := if signed then ((2 ^ (w - 1) : Nat) : Int) - 1 else ((2 ^ w : Nat) : Int) - 1

/-- Clamp into an integer kind; true where the value was outside. -/
def clampInt (signed : Bool) (w : Nat) (v : Int) : Int × Bool :=
  if v < loOf signed w then (loOf signed w, true)
  else if hiOf signed w < v then (hiOf signed w, true)
  else (v, false)

/-- R246: saturate, setting SAT, or keep the low bits. -/
def fitInt (signed sat : Bool) (w : Nat) (v : Int) : Int × Flags :=
  if sat then
    let (c, o) := clampInt signed w v
    (c, if o then fSAT else 0)
  else (readBits signed w v, 0)

/-! ### Formats -/

/-- Element width in bits, complex components together (R40). -/
def fmtWidth : Fmt → Nat
  | .fp64 | .int64 | .cf32 => 64 | .fp32 | .int32 | .nat32 => 32 | .fp16 | .bf16 | .int16 => 16
  | .e4m3 | .e5m2 | .e8m0 | .mxe4m3 | .mxe5m2 | .dxf8 | .int8 | .nat8 => 8
  | .e3m2 | .e2m3 | .mxe3m2 | .mxe2m3 => 6
  | .e2m1 | .mxfp4 | .dxf4 | .int4 => 4
  | .cf64 => 128

def isFL : Fmt → Bool
  | .fp64 | .fp32 | .fp16 | .bf16 => true
  | _ => false
def isIN : Fmt → Bool
  | .int8 | .nat8 | .int16 | .int32 | .nat32 | .int64 => true
  | _ => false
def isCX : Fmt → Bool
  | .cf32 | .cf64 => true
  | _ => false
/-- Integer formats, INT4 among them. -/
def isInt (f : Fmt) : Bool := isIN f || f == .int4
/-- Signed integer formats. -/
def isSigned : Fmt → Bool
  | .int4 | .int8 | .int16 | .int32 | .int64 => true
  | _ => false
def isMX : Fmt → Bool
  | .mxe4m3 | .mxe5m2 | .mxe3m2 | .mxe2m3 | .mxfp4 => true
  | _ => false
def isDXF : Fmt → Bool
  | .dxf4 | .dxf8 => true
  | _ => false
/-- Block formats (R45). -/
def isBlock (f : Fmt) : Bool := isMX f || isDXF f
/-- Component format of a complex format (R46). -/
def compOf : Fmt → Fmt
  | .cf32 => .fp32 | .cf64 => .fp64 | f => f
/-- Element format of an MX block (R51). -/
def elemOf : Fmt → Fmt
  | .mxe4m3 => .e4m3 | .mxe5m2 => .e5m2 | .mxe3m2 => .e3m2 | .mxe2m3 => .e2m3 | .mxfp4 => .e2m1 | f => f

/-- How a floating-point format codes its top exponent (R41). -/
inductive Top where
  | ieee | e4m3 | plain
  deriving DecidableEq, Repr

/-- Parameters of a floating-point format (R41). -/
structure FPar where
  ebits : Nat
  fbits : Nat
  bias  : Nat
  top   : Top
  deriving DecidableEq, Repr

/-- R41. -/
def fpar : Fmt → FPar
  | .fp64 | .cf64 => ⟨11, 52, 1023, .ieee⟩
  | .fp32 | .cf32 => ⟨8, 23, 127, .ieee⟩
  | .fp16 => ⟨5, 10, 15, .ieee⟩
  | .bf16 => ⟨8, 7, 127, .ieee⟩
  | .e4m3 | .mxe4m3 => ⟨4, 3, 7, .e4m3⟩
  | .e5m2 | .mxe5m2 => ⟨5, 2, 15, .ieee⟩
  | .e3m2 | .mxe3m2 => ⟨3, 2, 3, .plain⟩
  | .e2m3 | .mxe2m3 => ⟨2, 3, 1, .plain⟩
  | .e2m1 | .mxfp4 => ⟨2, 1, 1, .plain⟩
  | _ => ⟨11, 52, 1023, .ieee⟩

/-- FTZ acts on these formats (R49). -/
def ftzActs : Fmt → Bool
  | .fp16 | .bf16 | .e4m3 | .e5m2 | .e3m2 | .e2m3 | .e2m1
  | .mxe4m3 | .mxe5m2 | .mxe3m2 | .mxe2m3 | .mxfp4 => true
  | _ => false

/-- An exact value: `fin neg m e` is (-1)^neg · m · 2^e, zero where m = 0. -/
inductive FVal where
  | nan (signalling : Bool)
  | inf (neg : Bool)
  | fin (neg : Bool) (m : Nat) (e : Int)
  deriving DecidableEq, Repr, Inhabited

def FVal.isNan : FVal → Bool
  | .nan _ => true
  | _ => false
def FVal.neg? : FVal → Bool
  | .nan _ => false | .inf n => n | .fin n _ _ => n
/-- NV for a signalling NaN that is read (R42). -/
def FVal.nvOf : FVal → Flags
  | .nan true => fNV
  | _ => 0
def FVal.negate : FVal → FVal
  | .inf n => .inf !n | .fin n m e => .fin (!n) m e | x => x
def FVal.isZero : FVal → Bool
  | .fin _ 0 _ => true
  | _ => false
/-- The exact value of an integer. -/
def FVal.ofInt (v : Int) : FVal := .fin (decide (v < 0)) v.natAbs 0

/-- The value of a pattern (R41, R42, R49). -/
def decodeF (f : Fmt) (ftz : Bool) (v : Nat) : FVal :=
  if f = .e8m0 then
    let e := v % 256
    if e = 255 then .nan false else .fin false 1 ((e : Int) - 127)
  else
    let p := fpar f
    let frac := v % 2 ^ p.fbits
    let ex := v / 2 ^ p.fbits % 2 ^ p.ebits
    let neg := v / 2 ^ (p.fbits + p.ebits) % 2 == 1
    let allOnes := 2 ^ p.ebits - 1
    if p.top = .ieee ∧ ex = allOnes then
      if frac = 0 then .inf neg
      else .nan (decide (frac < 2 ^ (p.fbits - 1)) && (isFL f || isCX f))
    else if p.top = .e4m3 ∧ ex = allOnes ∧ frac = 2 ^ p.fbits - 1 then .nan false
    else if ex = 0 then
      if ftz ∧ ftzActs f then .fin neg 0 0 else .fin neg frac (1 - (p.bias : Int) - p.fbits)
    else .fin neg (frac + 2 ^ p.fbits) ((ex : Int) - p.bias - p.fbits)

/-- Default NaN (R41). -/
def defaultNan (f : Fmt) : Nat :=
  let p := fpar f
  match p.top with
  | .ieee => (2 ^ p.ebits - 1) * 2 ^ p.fbits + 2 ^ (p.fbits - 1)
  | .e4m3 => 0x7F
  | .plain => 0

/-- Put sign, exponent field and fraction together. -/
def packF (p : FPar) (neg : Bool) (ex frac : Nat) : Nat := neg.toNat * 2 ^ (p.ebits + p.fbits) + ex * 2 ^ p.fbits + frac

/-- Infinity's pattern. -/
def infBits (f : Fmt) (neg : Bool) : Nat := packF (fpar f) neg (2 ^ (fpar f).ebits - 1) 0

/-- Pattern of the largest finite value (R41). -/
def maxBits (f : Fmt) (neg : Bool) : Nat :=
  let p := fpar f
  match p.top with
  | .ieee => packF p neg (2 ^ p.ebits - 2) (2 ^ p.fbits - 1)
  | .e4m3 => packF p neg (2 ^ p.ebits - 1) (2 ^ p.fbits - 2)
  | .plain => packF p neg (2 ^ p.ebits - 1) (2 ^ p.fbits - 1)

/-- RoundInteger of R47 on the quotient n + rem / 2^sh: whether to add one. -/
def roundUp (r : Rnd) (neg : Bool) (n rem sh : Nat) : Bool :=
  match r with
  | .rne => decide (2 ^ sh < 2 * rem) || (decide (2 * rem = 2 ^ sh) && decide (n % 2 = 1))
  | .rtz => false
  | .rup => !neg && decide (rem ≠ 0)
  | .rdn => neg && decide (rem ≠ 0)

/-- m · 2^e in units of 2^u, rounded to an integer; true where inexact (R47). -/
def roundAt (r : Rnd) (neg : Bool) (m : Nat) (e u : Int) : Nat × Bool :=
  if u ≤ e then (m * 2 ^ (e - u).toNat, false)
  else
    let sh := (u - e).toNat
    let n := m / 2 ^ sh
    let rem := m % 2 ^ sh
    (if roundUp r neg n rem sh then n + 1 else n, decide (rem ≠ 0))

/-- What an overflow or an infinity gives in a format without infinity (R50). -/
inductive Over where
  | sat | nan
  deriving DecidableEq, Repr

/-- The value of an overflow (R48, R50). -/
def overflowBits (f : Fmt) (r : Rnd) (ov : Over) (neg : Bool) : Nat :=
  let toInf := match r with
    | .rne => true | .rtz => false | .rup => !neg | .rdn => neg
  if !toInf then maxBits f neg
  else match (fpar f).top with
    | .ieee => infBits f neg
    | .e4m3 => match ov with | .sat => maxBits f neg | .nan => defaultNan f
    | .plain => maxBits f neg

/-- Round an exact value into a floating-point format, with the conversion rules of R50 for formats that lack infinity
or NaN (R47 to R50). Answers the pattern and the flags; NV of a signalling NaN is the reader's (R42). -/
def roundF (f : Fmt) (ftz : Bool) (r : Rnd) (ov : Over) (x : FVal) : Nat × Flags :=
  let p := fpar f
  match x with
  | .nan _ => if p.top = .plain then (0, fNV) else (defaultNan f, 0)
  | .inf neg =>
    match p.top with
    | .ieee => (infBits f neg, 0)
    | .e4m3 => (match ov with | .sat => (maxBits f neg, fOF ||| fNX ||| fNV) | .nan => (defaultNan f, fOF ||| fNX))
    | .plain => (maxBits f neg, if ov = .sat then fOF ||| fNX ||| fNV else fOF ||| fNX)
  | .fin neg m e =>
    if m = 0 then (packF p neg 0 0, 0)
    else
      let emin : Int := 1 - p.bias
      let lg : Int := (Nat.log2 m : Int) + e
      let tiny := decide (lg < emin)
      if ftz ∧ ftzActs f ∧ tiny then (packF p neg 0 0, fUF ||| fNX)
      else
        let u := max lg emin - p.fbits
        let (n0, inex) := roundAt r neg m e u
        let (n, u) := if n0 = 2 ^ (p.fbits + 1) then (2 ^ p.fbits, u + 1) else (n0, u)
        let ex : Int := if n < 2 ^ p.fbits then 0 else u + p.fbits + p.bias
        let frac := n % 2 ^ p.fbits
        let topEx : Int := 2 ^ p.ebits - 1
        let ovf := match p.top with
          | .ieee => decide (topEx ≤ ex)
          | .e4m3 => decide (topEx < ex) || (decide (ex = topEx) && decide (frac = 2 ^ p.fbits - 1))
          | .plain => decide (topEx < ex)
        if ovf then (overflowBits f r ov neg, fOF ||| fNX)
        else (packF p neg ex.toNat frac, if inex then (if tiny then fNX ||| fUF else fNX) else 0)

/-- Round to an integer of a kind, from a floating-point value (R50). -/
def roundToInt (signed : Bool) (w : Nat) (r : Rnd) (x : FVal) : Int × Flags :=
  match x with
  | .nan _ => (0, fNV)
  | .inf neg => (if neg then loOf signed w else hiOf signed w, fNV ||| fSAT)
  | .fin neg m e =>
    let (n, inex) := roundAt r neg m e 0
    let v : Int := if neg then -(n : Int) else n
    let (c, o) := clampInt signed w v
    if o then (c, fNV ||| fSAT) else (c, if inex then fNX else 0)

/-! ### Exact operations -/

/-- Signed significand of a finite value in units of 2^u, u ≤ its exponent. -/
def sigAt (neg : Bool) (m : Nat) (e u : Int) : Int :=
  let n : Int := m * 2 ^ (e - u).toNat
  if neg then -n else n

/-- Value times a power of two, exact. -/
def FVal.scale (x : FVal) (k : Int) : FVal :=
  match x with
  | .fin n m e => .fin n m (e + k)
  | y => y

/-- Exact sum; an exact zero takes its sign as R260 says. -/
def fAdd (r : Rnd) (a b : FVal) : FVal × Flags :=
  match a, b with
  | .nan s, .nan t => (.nan false, if s || t then fNV else 0)
  | .nan s, _ => (.nan false, if s then fNV else 0)
  | _, .nan t => (.nan false, if t then fNV else 0)
  | .inf n, .inf m => if n = m then (.inf n, 0) else (.nan false, fNV)
  | .inf n, _ => (.inf n, 0)
  | _, .inf n => (.inf n, 0)
  | .fin n1 m1 e1, .fin n2 m2 e2 =>
    if m1 = 0 ∧ m2 = 0 then (.fin (if n1 = n2 then n1 else r == .rdn) 0 0, 0)
    else
      let u := if m1 = 0 then e2 else if m2 = 0 then e1 else min e1 e2
      let v := (if m1 = 0 then 0 else sigAt n1 m1 e1 u) + (if m2 = 0 then 0 else sigAt n2 m2 e2 u)
      if v = 0 then (.fin (r == .rdn) 0 0, 0) else (.fin (decide (v < 0)) v.natAbs u, 0)

/-- NV of +∞ and −∞ in one sum, in whatever order they stand (R43, log 93). -/
def infClash (l : List FVal) : Flags := if l.contains (.inf false) && l.contains (.inf true) then fNV else 0

/-- Exact product. -/
def fMul (a b : FVal) : FVal × Flags :=
  match a, b with
  | .nan s, .nan t => (.nan false, if s || t then fNV else 0)
  | .nan s, _ => (.nan false, if s then fNV else 0)
  | _, .nan t => (.nan false, if t then fNV else 0)
  | .inf n, .inf m => (.inf (xor n m), 0)
  | .inf n, .fin k m _ => if m = 0 then (.nan false, fNV) else (.inf (xor n k), 0)
  | .fin k m _, .inf n => if m = 0 then (.nan false, fNV) else (.inf (xor n k), 0)
  | .fin n1 m1 e1, .fin n2 m2 e2 => (.fin (xor n1 n2) (m1 * m2) (e1 + e2), 0)

/-- Exact a · b + c; NV for 0 · ∞ even where c is a quiet NaN (R260). -/
def fFma (r : Rnd) (a b c : FVal) : FVal × Flags :=
  let (p, f1) := fMul a b
  let (s, f2) := fAdd r p c
  (s, f1 ||| f2)

/-- Quotient, precise enough for one rounding: 128 bits and a sticky bit (R278). -/
def fDiv (a b : FVal) : FVal × Flags :=
  match a, b with
  | .nan s, .nan t => (.nan false, if s || t then fNV else 0)
  | .nan s, _ => (.nan false, if s then fNV else 0)
  | _, .nan t => (.nan false, if t then fNV else 0)
  | .inf _, .inf _ => (.nan false, fNV)
  | .inf n, .fin k _ _ => (.inf (xor n k), 0)
  | .fin k _ _, .inf n => (.fin (xor n k) 0 0, 0)
  | .fin n1 m1 e1, .fin n2 m2 e2 =>
    if m2 = 0 then (if m1 = 0 then (.nan false, fNV) else (.inf (xor n1 n2), fDZ))
    else if m1 = 0 then (.fin (xor n1 n2) 0 0, 0)
    else
      let k := 128 + Nat.log2 m2
      let q := m1 * 2 ^ k / m2
      let rem := m1 * 2 ^ k % m2
      (.fin (xor n1 n2) (2 * q + (if rem = 0 then 0 else 1)) (e1 - e2 - k - 1), 0)

/-- Integer square root, one bit of the root at a time from bit `k - 1` down. -/
def natSqrtFrom (n : Nat) : Nat → Nat → Nat
  | 0, q => q
  | k + 1, q => natSqrtFrom n k (if (q + 2 ^ k) * (q + 2 ^ k) ≤ n then q + 2 ^ k else q)

/-- Integer square root. -/
def natSqrt (n : Nat) : Nat := natSqrtFrom n (Nat.log2 n / 2 + 1) 0

/-- Square root, precise enough for one rounding (R283). -/
def fSqrt (a : FVal) : FVal × Flags :=
  match a with
  | .nan s => (.nan false, if s then fNV else 0)
  | .inf n => if n then (.nan false, fNV) else (.inf false, 0)
  | .fin n m e =>
    if m = 0 then (.fin n 0 0, 0)
    else if n then (.nan false, fNV)
    else
      let (m, e) := if e % 2 = 0 then (m, e) else (2 * m, e - 1)
      let q := natSqrt (m * 2 ^ 256)
      (.fin false (2 * q + (if q * q = m * 2 ^ 256 then 0 else 1)) (e / 2 - 129), 0)

/-- Order of two values that are no NaN, −0 equal to +0. -/
def fLt (a b : FVal) : Bool :=
  match a, b with
  | .inf n, .inf m => n && !m
  | .inf n, _ => n
  | _, .inf n => !n
  | .fin n1 m1 e1, .fin n2 m2 e2 =>
    let u := min e1 e2
    decide (sigAt n1 m1 e1 u < sigAt n2 m2 e2 u)
  | _, _ => false

/-- Smaller or larger value, −0 below +0; a NaN gives NaN (R261). -/
def fMinMax (isMax : Bool) (a b : FVal) : FVal × Flags :=
  if a.isNan || b.isNan then (.nan false, a.nvOf ||| b.nvOf)
  else
    let less := fLt a b || (!fLt b a && a.neg? && !b.neg?)
    (if less == isMax then b else a, 0)

/-- The condition CC of a floating-point comparison (R261). -/
def fCond (cc : Nat) (a b : FVal) : Bool × Flags :=
  let un := a.isNan || b.isNan
  let eq := !un && !fLt a b && !fLt b a
  let r := match cc with
    | 0 => eq
    | 1 => !eq
    | 2 => !un && fLt a b
    | 3 => !un && (fLt a b || eq)
    | 4 => !un && fLt b a
    | 5 => !un && (fLt b a || eq)
    | 6 => un
    | _ => !un
  (r, a.nvOf ||| b.nvOf)

/-- The condition CC of an integer comparison (R263), at width `w`. -/
def iCond (cc w : Nat) (a b : Int) : Bool :=
  let tst := decide ((a % (2 ^ w : Nat)).toNat &&& (b % (2 ^ w : Nat)).toNat ≠ 0)
  match cc with
  | 0 => decide (a = b)
  | 1 => decide (a ≠ b)
  | 2 => decide (a < b)
  | 3 => decide (a ≤ b)
  | 4 => decide (b < a)
  | 5 => decide (b ≤ a)
  | 6 => tst
  | _ => !tst

/-- Apply the modifiers of R221 to a floating-point pattern: sign bits only. -/
def modBitsF (f : Fmt) (m : SrcMod) (v : Nat) : Nat :=
  let w := fmtWidth f
  if w = 0 then v
  else
    let s := v / 2 ^ (w - 1) % 2
    let mag := v % 2 ^ (w - 1)
    let s1 := if m.abs then 0 else s
    let s2 := if m.neg then 1 - s1 else s1
    s2 * 2 ^ (w - 1) + mag

/-- Apply the modifiers of R221 to an integer at width `w`, wrapping. -/
def modInt (signed : Bool) (w : Nat) (m : SrcMod) (v : Int) : Int :=
  let a := if m.abs then readBits signed w v.natAbs else v
  if m.neg then readBits signed w (-a) else a

/-- The FP32 value of a 22-bit literal, as a pattern (R223). -/
def litFp32 (v : BitVec 22) : Nat := v.toNat * 2 ^ 10

/-- The same value as an FP64 pattern, a NaN with its sign and fraction (R223). -/
def litFp64 (v : BitVec 22) : Nat :=
  let n := litFp32 v
  if bitsAt n 23 8 = 255 ∧ bitsAt n 0 23 ≠ 0 then n / 2 ^ 31 * 2 ^ 63 + 0x7FF * 2 ^ 52 + bitsAt n 0 23 * 2 ^ 29
  else (roundF .fp64 false .rne .sat (decodeF .fp32 false n)).1

/-- A literal as a pattern of a floating-point format: FP32 and FP64 take the value exactly, any other RNE and no flag
(R223). -/
def litF (f : Fmt) (v : BitVec 22) : Nat :=
  if f = .fp32 then litFp32 v else if f = .fp64 then litFp64 v
  else (roundF f false .rne .sat (decodeF .fp32 false (litFp32 v))).1

end Sys2Proof.Machine
end

