-- ==== Sys2Proof/Machine/Space.lean ====
section
/-! DEFINITION. Where things are and who may touch them: the core grid (R10, R11, R164), device physical addresses (R103,
R104), the local region check (R94), the address map (R89, R90), ownership (R105), domain records (R157) and page-table
walks (R112, R113). -/
namespace Sys2Proof.Machine

/-! ### The grid -/

/-- Logical cores (R11). -/
def nCores : Nat := 16128
/-- Die of a logical core (R10, R87). -/
def dieOf (n : Nat) : Nat := (n / 128) / 63 * 2 + n % 128 / 64
/-- Index of a logical core in its die's table (R164). -/
def dieIdx (n : Nat) : Nat := n / 128 % 63 * 64 + n % 64
/-- A die's logical-to-physical entry (R164): at reset MAPPED and PHYS = index. -/
def State.lptEntry (s : State) (die i : Nat) : BitVec 16 :=
  mapGet (BitVec.ofNat 16 (0x8000 + i)) (die * 4096 + i) s.lpt
/-- The logical core is mapped to a physical one (R165). -/
def State.mapped (s : State) (n : Nat) : Bool :=
  decide (n < nCores) && (s.lptEntry (dieOf n) (dieIdx n)).getLsbD 15
/-- COREID (R87). -/
def State.coreId (s : State) (n : Nat) : Nat :=
  (s.lptEntry (dieOf n) (dieIdx n)).toNat % 4096 * 2 ^ 16 + dieOf n * 2 ^ 14 + n
/-- The neighbour of a core `k` hops in a direction, 0 east, 1 south, 2 west, 3 north (R28, R363). -/
def neighbour (n dir k : Nat) : Option Nat :=
  let x := n % 128
  let y := n / 128
  if dir = 0 then (if x + k < 128 then some (n + k) else none)
  else if dir = 1 then (if y + k < 126 then some (n + 128 * k) else none)
  else if dir = 2 then (if k ≤ x then some (n - k) else none)
  else (if k ≤ y then some (n - 128 * k) else none)

/-- RowList (R169). -/
def Quota.rowList (q : Quota) : List Nat := (upto 126).filter (fun y => q.rows.getLsbD y)
/-- The slice list SL (R103, R169). -/
def Quota.sliceList (q : Quota) : List Nat := (upto 192).filter (fun m => q.slices.getLsbD m)
/-- The core's logical row is held by the virtual device (R94, R169). -/
def State.holdsCore (s : State) (vd n : Nat) : Bool :=
  decide (n < nCores) && (s.quota vd).active && (s.quota vd).rows.getLsbD (n / 128)
/-- Element of a list, 0 beyond its end. -/
def nth (l : List Nat) (i : Nat) : Nat := (l[i]?).getD 0

/-! ### Device physical addresses -/

/-- Bytes of a channel slice (R103). -/
def sliceBytes : Nat := 12 * 2 ^ 30
/-- The slice and slice-local address of a device physical address, none beyond the virtual device's memory (R103). -/
def State.dpaHome (s : State) (vd dpa : Nat) : Option (Nat × Nat) :=
  let sl := (s.quota vd).sliceList
  let n := sl.length
  if dpa < n * sliceBytes then
    let q := dpa / 4096
    some (nth sl (q % n), q / n * 4096 + dpa % 4096)
  else none
/-- Place in `State.dram` of a device physical address. -/
def State.dpaAddr (s : State) (vd dpa : Nat) : Option Nat :=
  (s.dpaHome vd dpa).map (fun (m, l) => m * sliceBytes + l)
/-- Module page of a device physical address (R104). -/
def State.modPage (s : State) (vd dpa : Nat) : Option Nat :=
  let sl := (s.quota vd).sliceList
  let n := sl.length
  if dpa < n * sliceBytes then
    let p := dpa / 65536
    some (nth sl (p % n) * 196608 + p / n)
  else none
/-- Bytes of device memory from a device physical address up; none where one does not exist. -/
def State.devRead (s : State) (vd dpa : Nat) : Nat → Option (List Byte)
  | 0 => some []
  | n + 1 => do
    let a ← s.dpaAddr vd dpa
    let r ← s.devRead vd (dpa + 1) n
    some (memRead s.dram a :: r)
/-- Put bytes into device memory at the addresses that a test admits and that exist. -/
def State.devPut (s : State) (ok : Nat → Bool) (vd dpa : Nat) : List Byte → State
  | [] => s
  | b :: bs =>
    let s' := match s.dpaAddr vd dpa with
      | some a => if ok dpa then { s with dram := memWrite s.dram a b } else s
      | none => s
    s'.devPut ok vd (dpa + 1) bs
/-- Marked lines without those that a range of device physical addresses names. -/
def State.unmark (s : State) (vd line : Nat) : Nat → List (Nat × Unit) → List (Nat × Unit)
  | 0, l => l
  | n + 1, l =>
    let l' := s.unmark vd line n l
    match s.dpaAddr vd (64 * (line + n)) with | some a => mapDel (a / 64) l' | none => l'
/-- Write bytes of device memory. A line written whole has no error any more; a narrower write to a poisoned line is not
performed (R108). A line that the host may cache has been taken back from it (R110, log 99). -/
def State.devWrite (s : State) (vd dpa : Nat) (bs : List Byte) : State :=
  let bad (d : Nat) : Bool := match s.dpaAddr vd d with | some a => (mapFind (a / 64) s.dpoison).isSome | none => false
  let whole (l : Nat) : Bool := decide (dpa ≤ 64 * l) && decide (64 * l + 64 ≤ dpa + bs.length)
  let t := s.devPut (fun d => s.dpoison.isEmpty || whole (d / 64) || !bad d) vd dpa bs
  let lo := (dpa + 63) / 64
  { t with dpoison := if s.dpoison.isEmpty then [] else s.unmark vd lo ((dpa + bs.length) / 64 - lo) s.dpoison
           snoops := if s.snoops.isEmpty then [] else
             s.unmark vd (dpa / 64) ((dpa + bs.length + 63) / 64 - dpa / 64) s.snoops }
/-- The host may cache some line of these bytes (R110). -/
def State.devSnooped (s : State) (vd dpa n : Nat) : Bool :=
  !s.snoops.isEmpty && (upto n).any (fun i => match s.dpaAddr vd (dpa + i) with
    | some a => (mapFind (a / 64) s.snoops).isSome
    | none => false)
/-- A little-endian number in device memory, 0 where it does not exist. -/
def State.devNum (s : State) (vd dpa n : Nat) : Nat := ((s.devRead vd dpa n).map leNat).getD 0
/-- Some line of these bytes is poisoned (R108). -/
def State.devPoisoned (s : State) (vd dpa n : Nat) : Bool :=
  !s.dpoison.isEmpty && (upto n).any (fun i => match s.dpaAddr vd (dpa + i) with
    | some a => (mapFind (a / 64) s.dpoison).isSome
    | none => false)

/-! ### Domains, ownership -/

/-- DSTATE of a domain (R157): 0 free, 1 live, 2 revoked. Domain 0 of an active virtual device is live
until it is torn down. -/
def State.dstate (s : State) (vd dom : Nat) : Nat :=
  if dom = 0 ∧ (s.quota vd).active then (if (s.vd vd).down then 0 else 1)
  else s.devNum 0 ((s.quota vd).dbase + 32 * dom + 8) 1 % 4
/-- The domain has a live record (R157). -/
def State.domLive (s : State) (vd dom : Nat) : Bool :=
  decide (dom < (s.quota vd).dcap) && s.dstate vd dom == 1
/-- ROOT of a domain (R157). -/
def State.domRoot (s : State) (vd dom : Nat) : Nat :=
  s.devNum 0 ((s.quota vd).dbase + 32 * dom) 8 % 2 ^ 56 / 4096 * 4096
/-- Write DSTATE (R157). -/
def State.setDstate (s : State) (vd dom v : Nat) : State :=
  s.devWrite 0 ((s.quota vd).dbase + 32 * dom + 8) [BitVec.ofNat 8 v]
/-- The ownership check of one 64 KiB page (R105, R156). -/
def State.pageOk (s : State) (vd dom dpa : Nat) : Bool :=
  match s.modPage vd dpa with
  | none => false
  | some p =>
    let e := s.owner p
    e.state == 1 && e.vdev == vd && (e.owner == dom || e.shared)

/-! ### Local region table -/

/-- What an access does, for its rights. -/
inductive Right where
  | r | w | rw | x
  deriving DecidableEq, Repr

/-- A region entry's bits R and W satisfy the right (R94). -/
def rightsOk (k : Right) (r w : Bool) : Bool :=
  match k with
  | .r => r | .w => w | .rw => r && w | .x => false

/-- An accessor at a core's bank units: virtual device, domain, and the window of its current frame (R94). `seq` marks
the hardware that keeps a thread's save area: spill slots are its own (R171), and it works for a revoked base domain, too
(R184, log 96). -/
structure Who where
  vdev : Nat
  dom  : Nat
  win  : Option Window
  seq  : Bool := false
  deriving DecidableEq, Repr, Inhabited

/-- First window address of a core's local memory (R89). -/
def coreVa (n off : Nat) : Nat := 0x10000000000 + n * 2 ^ 18 + off

/-- Bytes of a core's local memory lie inside an argument window (R94). -/
def inWindow (w : Window) (n off len : Nat) : Bool :=
  decide (w.base ≤ coreVa n off) && decide (coreVa n off + len ≤ w.base + w.size)

/-- Local region entry (R161); one that nothing has written since its row passed holds the row's VDEV alone (R118,
R169). -/
def State.lrtEntry (s : State) (n g : Nat) : BitVec 32 :=
  mapGet (BitVec.ofNat 32 (mapGet 0 (n / 128) s.rowVd * 2 ^ 28)) g (s.core n).lrt

/-- The local region check on one granule (R94, R95). `storeLike` marks stores and copy-engine writes.
DESIGN CHOICE, unsafe (log 122): R94 passes bytes inside the window on the window's rights alone; R174 says a resolved
window never names memory its lender cannot reach, and R116 that the window's rights are asked for as well. The model
follows R94: a local window grants its bytes in a granule that the lender does not own, too. -/
def granuleOk (s : State) (n g : Nat) (who : Who) (k : Right) (storeLike winOk : Bool) : Bool :=
  let e := s.lrtEntry n g
  let r := e.getLsbD 6
  let w := e.getLsbD 7
  let owned := e.getLsbD 11
  let own := (owned && e.toNat / 2 ^ 12 % 2 ^ 16 == who.dom) || (!owned && who.dom == 0)
  e.toNat / 2 ^ 28 == who.vdev &&
    (match k with
     | .x => own && e.getLsbD 8 && e.getLsbD 9
     | _ => (own && rightsOk k r w) || winOk || (e.getLsbD 9 && storeLike && who.dom == 0))

/-- The accessor's window grants these local bytes (R94). -/
def Who.winLocal (who : Who) (n off len : Nat) (k : Right) : Bool :=
  match who.win with
  | none => false
  | some w => inWindow w n off len && rightsOk k w.wr w.ww

/-- The local region check of an access, its window decided (R94). -/
def localOkAt (s : State) (n off len : Nat) (who : Who) (k : Right) (storeLike winOk : Bool) : Bool :=
  s.holdsCore who.vdev n && decide (off + len ≤ 2 ^ 18) &&
    (List.range' (off / 4096) ((off + len - 1) / 4096 - off / 4096 + 1)).all
      (fun g => granuleOk s n g who k storeLike winOk)

/-- The local region check of an access (R94). -/
def localOk (s : State) (n off len : Nat) (who : Who) (k : Right) (storeLike : Bool) : Bool :=
  localOkAt s n off len who k storeLike (who.winLocal n off len k)

/-- Place of a local byte in `State.lmem`. -/
def lkey (n off : Nat) : Nat := n * 2 ^ 18 + off
/-- Read local bytes. -/
def State.locRead (s : State) (n off len : Nat) : List Byte := memReads s.lmem (lkey n off) len
/-- Write local bytes. A write of a whole aligned 8-byte word clears its error (R91). -/
def State.locWrite (s : State) (n off : Nat) (bs : List Byte) : State :=
  { s with lmem := memWrites s.lmem (lkey n off) bs
           lpoison := s.lpoison.filter (fun (w, _) =>
             !(decide (lkey n off ≤ 8 * w) && decide (8 * w + 8 ≤ lkey n off + bs.length))) }
/-- A little-endian number in local memory. -/
def State.locNum (s : State) (n off len : Nat) : Nat := leNat (s.locRead n off len)
/-- Offset of the first local byte, from `off` on, whose word SECDED cannot correct, among the words that an access
reads. -/
def State.locBad (s : State) (n off len : Nat) : Option Nat :=
  (upto len).find? (fun i => (mapFind (lkey n (off + i) / 8) s.lpoison).isSome)
/-- The words at the two ends of a write that it covers only in part (R91, R92). -/
def State.locPartBad (s : State) (n off len : Nat) : Option Nat :=
  if len = 0 then none
  else
    let bad (o : Nat) : Bool := decide (o % 8 ≠ 0) && (mapFind (lkey n o / 8) s.lpoison).isSome
    if bad off then some 0
    else if bad (off + len) then some (len - 1)
    else none

/-! ### Translation -/

/-- Regions of the address map (R89). -/
inductive Region where
  | local_ | device | window | host | fabric
  deriving DecidableEq, Repr

/-- Region of an address, none in the guard region, a gap or beyond bit 56 (R89, R90). -/
def regionOf (va : Nat) : Option Region :=
  if va < 0x10000000000 then none
  else if va < 0x100FC000000 then some .local_
  else if va < 0x20000000000 then none
  else if va < 0x7F0000000000 then some .device
  else if va < 0x7F0000100000 then some .window
  else if va < 0x800000000000 then none
  else if va < 0x100000000000000 then some .host
  else if va < 0x200000000000000 then some .fabric
  else none

/-- The address check of R90 on the first and last byte. -/
def regionSpan (va len : Nat) : Option Region :=
  match regionOf va, regionOf (va + (len - 1)) with
  | some a, some b => if a = b then some a else none
  | _, _ => none

/-- A PAGEFAULT with its reason (R198). -/
def pageFault (va reason : Nat) : Trap :=
  { cause := .pagefault, val := BitVec.ofNat 64 (va % 2 ^ 57 + reason * 2 ^ 60) }

/-- A trap with an address. -/
def addrTrap (c : Cause) (va : Nat) : Trap := { cause := c, val := BitVec.ofNat 64 va }

/-- TGT that a region needs (R89, R112). -/
def tgtOf : Region → Nat
  | .device => 0 | .host => 1 | .fabric => 2 | _ => 3

/-- One level of a walk: lowest index bit, index width, alignment of the next node, page size if a leaf is allowed. -/
structure Level where
  lo   : Nat
  w    : Nat
  next : Nat
  leaf : Bool
  last : Bool
  deriving DecidableEq, Repr

/-- The five levels (R112). -/
def levels : List Level :=
  [⟨48, 9, 12, false, false⟩, ⟨39, 9, 12, false, false⟩, ⟨30, 9, 12, true, false⟩, ⟨21, 9, 8, true, false⟩,
   ⟨16, 5, 0, true, true⟩]

/-- Walk the levels from a node (R112, R113). -/
def walkFrom (s : State) (vd dom va : Nat) (reg : Region) : List Level → Nat → Except Trap TlbEntry
  | [], _ => .error (pageFault va 2)
  | l :: ls, node =>
    let at_ := node + 8 * (va / 2 ^ l.lo % 2 ^ l.w)
    if (s.dpaAddr vd at_).isNone then .error (pageFault va 3)
    else if s.devPoisoned vd at_ 8 then .error (addrTrap .poison va)
    else
      let e := s.devNum vd at_ 8
      let leaf := bitAt e 1
      let oa := bitsAt e 8 48 * 256
      let tgt := bitsAt e 6 2
      if !bitAt e 0 then .error (pageFault va 0)
      else if e / 2 ^ 56 ≠ 0 then .error (pageFault va 2)
      else if leaf then
        if !l.leaf then .error (pageFault va 2)
        else if oa % 2 ^ l.lo ≠ 0 then .error (pageFault va 2)
        else if tgt ≠ tgtOf reg then .error (pageFault va 2)
        else if reg = .device ∧
            !((upto (2 ^ (l.lo - 16))).all (fun i => s.pageOk vd dom (oa + i * 65536))) then .error (pageFault va 3)
        else .ok { vdev := vd, dom := dom, va := va / 2 ^ l.lo * 2 ^ l.lo, bits := l.lo, oa := oa, tgt := tgt,
                   log := bitAt e 5, x := bitAt e 4, w := bitAt e 3, r := bitAt e 2, leaf := at_ }
      else if l.last then .error (pageFault va 2)
      else if oa % 2 ^ l.next ≠ 0 then .error (pageFault va 2)
      else walkFrom s vd dom va reg ls oa

/-- The page still to be pulled in which a walk from a node meets its next entry, if there is one (R398). -/
def pullFrom (s : State) (vd va : Nat) : List Level → Nat → Option Nat
  | [], _ => none
  | l :: ls, node =>
    let at_ := node + 8 * (va / 2 ^ l.lo % 2 ^ l.w)
    match s.modPage vd at_ with
    | none => none
    | some p =>
      if (s.owner p).pull then some p
      else if s.devPoisoned vd at_ 8 then none
      else
        let e := s.devNum vd at_ 8
        if bitAt e 1 || !bitAt e 0 then none else pullFrom s vd va ls (bitsAt e 8 48 * 256)

/-- The page still to be pulled that holds back a walk, if there is one (R398). -/
def State.walkPull (s : State) (vd dom va : Nat) : Option Nat :=
  if (s.quota vd).dcap ≤ dom ∨ s.dstate vd dom = 0 then none else pullFrom s vd va levels (s.domRoot vd dom)

/-- A whole walk, with the domain check first (R113). -/
def walk (s : State) (vd dom va : Nat) (reg : Region) : Except Trap TlbEntry :=
  if !s.domLive vd dom then .error (pageFault va 3)
  else walkFrom s vd dom va reg levels (s.domRoot vd dom)

/-- The walk for a thread's save area: a domain that has been revoked still has its root (R184, log 96). -/
def saveWalk (s : State) (vd dom va : Nat) (reg : Region) : Except Trap TlbEntry :=
  if (s.quota vd).dcap ≤ dom ∨ s.dstate vd dom = 0 then .error (pageFault va 3)
  else walkFrom s vd dom va reg levels (s.domRoot vd dom)

/-- A cached translation serves an address. -/
def TlbEntry.hits (e : TlbEntry) (vd dom va : Nat) : Bool :=
  e.vdev == vd && e.dom == dom && va / 2 ^ e.bits * 2 ^ e.bits == e.va

/-- The two levels of translation cache (R114). -/
def State.tlbFind (s : State) (n vd dom va : Nat) : Option TlbEntry :=
  match (s.core n).tlb.find? (fun e => e.hits vd dom va) with
  | some e => some e
  | none => (mapGet [] (dieOf n) s.dieTlb).find? (fun e => e.hits vd dom va)

/-- Add an entry to a cache of a capacity; a full cache gives up an entry (R114, log 12). -/
def tlbInsert (cap fresh : Nat) (e : TlbEntry) (l : List TlbEntry) : List TlbEntry :=
  if l.length < cap then l ++ [e] else l.eraseIdx (Config.tlbVictim fresh % cap) ++ [e]

/-- Fill both caches (R114). -/
def State.tlbFill (s : State) (n : Nat) (e : TlbEntry) : State :=
  let s1 := s.modCore n (fun x => { x with tlb := tlbInsert 32 s.fresh e x.tlb })
  { s1 with dieTlb := mapPut (dieOf n) (tlbInsert 16384 (s.fresh + 1) e (mapGet [] (dieOf n) s.dieTlb)) s1.dieTlb
            fresh := s.fresh + 2 }

/-- Drop the cached translations that a test names, on every core and die (R115, R361). -/
def State.tlbDrop (s : State) (p : TlbEntry → Bool) : State :=
  { s with cores := s.cores.map (fun (n, x) => (n, { x with tlb := x.tlb.filter (fun e => !p e) }))
           dieTlb := s.dieTlb.map (fun (d, l) => (d, l.filter (fun e => !p e))) }

/-- The entry grants the right, else PAGEFAULT with reason RIGHTS (R113). -/
def TlbEntry.right (e : TlbEntry) (k : Right) : Bool :=
  match k with
  | .r => e.r | .w => e.w | .rw => e.r && e.w | .x => e.x

/-- Home and home's own address of a translated byte (R89, R103, R109, R111). -/
def State.homeOf (s : State) (e : TlbEntry) (va : Nat) : Option (Home × Nat) :=
  let oa := e.oa + (va - e.va)
  if e.tgt = 0 then (s.dpaHome e.vdev oa).map (fun (m, l) => (.slice m, l))
  else if e.tgt = 1 then some (.host, oa)
  else some (.fabric (oa / 2 ^ 48 % 256), oa)

/-- Virtual-device-wide: the current window of a seat, none without frames (R175). -/
def Seat.window (x : Seat) : Option Window :=
  match x.frames with
  | [] => none
  | f :: _ => if f.win.size = 0 then none else some f.win

/-- The accessor that a seat is: its CURDOM with its window, or domain 0 in the handler (R94, R203). -/
def Seat.who (x : Seat) : Who :=
  if x.hnd then { vdev := x.vdev, dom := 0, win := none }
  else { vdev := x.vdev, dom := x.curdom, win := x.window }

end Sys2Proof.Machine
end

