-- ==== Sys2Proof/Machine/Access.lean ====
section
/-! DEFINITION. Reaching memory: where an address leads (R89, R90, R116, R175), translation with its caches and the dirty
log (R114, R115), the accesses of units that wait for their result, and scalar accesses in flight (R315 to R317). -/
namespace Sys2Proof.Machine

/-! ### Chunks and routes -/

/-- Cut a range at 4 KiB boundaries. -/
def chunksFrom : Nat → Nat → Nat → List (Nat × Nat)
  | 0, _, _ => []
  | f + 1, a, n =>
    if n = 0 then []
    else
      let k := min n (4096 - a % 4096)
      (a, k) :: chunksFrom f (a + k) (n - k)

/-- Cut a range at 4 KiB boundaries: within a chunk core, page, granule and slice are one. -/
def chunks (a n : Nat) : List (Nat × Nat) := chunksFrom (n / 4096 + 2) a n

/-- Cut a range where the accessor's memory changes: in the window region at the lender's boundaries, elsewhere at the
range's own (R116). -/
def Who.chunks (w : Who) (va len : Nat) : List (Nat × Nat) :=
  match regionOf va, w.win with
  | some .window, some win =>
    let b := win.base + (va - 0x7F0000000000)
    (Machine.chunks b len).map (fun e => (va + (e.1 - b), e.2))
  | _, _ => Machine.chunks va len

/-- Where an access is performed: its address, the domain whose translation serves it, its region. -/
structure Route where
  va  : Nat
  dom : Nat
  reg : Region
  deriving DecidableEq, Repr

/-- The address checks of R90 and the argument window of R175. -/
def route (s : State) (w : Who) (va len : Nat) (k : Right) : Except Trap Route :=
  match regionSpan va len with
  | none => .error (addrTrap .address va)
  | some .window =>
    let off := va - 0x7F0000000000
    match w.win with
    | none => .error (pageFault va 4)
    | some win =>
      if win.size < off + len then .error (pageFault va 4)
      else if !rightsOk k win.wr win.ww then .error (pageFault va 4)
      else if !s.domLive w.vdev win.dom then .error (pageFault va 4)
      else match regionSpan (win.base + off) len with
        | none => .error (addrTrap .address va)
        | some r => .ok ⟨win.base + off, win.dom, r⟩
  | some r => .ok ⟨va, w.dom, r⟩

/-- Fail with a trap, or go on. -/
def orTrap {α : Type} (e : Except Trap α) : M α :=
  match e with
  | .ok a => pure a
  | .error t => throw (.trap t)

/-- Logical core and local offset of a local window address (R93). -/
def coreOf (va : Nat) : Nat × Nat := ((va - 0x10000000000) / 2 ^ 18, va % 2 ^ 18)

/-! ### Home memory -/

/-- Place of a home's byte in its memory. -/
def State.homeRead (s : State) (h : Home) (addr len : Nat) : List Byte :=
  match h with
  | .bank n => s.locRead n addr len
  | .slice m => memReads s.dram (m * sliceBytes + addr) len
  | .host => memReads s.host addr len
  | .fabric _ => memReads s.fabric addr len

/-- First byte of a home's part in the memory that holds it. -/
def Home.base (h : Home) : Nat :=
  match h with | .bank n => n * 2 ^ 18 | .slice m => m * sliceBytes | _ => 0

/-- Units with an error that cannot be corrected, in the memory that holds a home: 8-byte words of local memory, 64-byte
lines elsewhere (R91, R108, R307). -/
def State.poison (s : State) (h : Home) : List (Nat × Unit) :=
  match h with
  | .bank _ => s.lpoison | .slice _ => s.dpoison | .host => s.hpoison | .fabric _ => s.fpoison
def State.setPoison (s : State) (h : Home) (l : List (Nat × Unit)) : State :=
  match h with
  | .bank _ => { s with lpoison := l } | .slice _ => { s with dpoison := l } | .host => { s with hpoison := l }
  | .fabric _ => { s with fpoison := l }

/-- Units of `u` bytes that a write of `n` bytes from `a` on does not cover whole. -/
def uncovered (u a n : Nat) (l : List (Nat × Unit)) : List (Nat × Unit) :=
  l.filter (fun e => !(decide (a ≤ u * e.1) && decide (u * e.1 + u ≤ a + n)))

/-- Write at a home. A write of a whole word or line clears its error (R91, R108). -/
def State.homeWrite (s : State) (h : Home) (addr : Nat) (bs : List Byte) : State :=
  match h with
  | .bank n => s.locWrite n addr bs
  | _ =>
    let a := h.base + addr
    let t := s.setPoison h (uncovered 64 a bs.length (s.poison h))
    match h with
    | .slice _ => { t with dram := memWrites t.dram a bs }
    | .host => { t with host := memWrites t.host a bs }
    | _ => { t with fabric := memWrites t.fabric a bs }

/-- Some byte of a read lies in a unit with an error (R91, R108). -/
def State.homeBad (s : State) (h : Home) (addr len : Nat) : Bool :=
  match h with
  | .bank n => (s.locBad n addr len).isSome
  | _ => (upto len).any (fun i => (mapFind ((h.base + addr + i) / 64) (s.poison h)).isSome)

/-- Some byte of a write lies in a unit with an error that the write covers in part (R91, R108). -/
def State.homePartBad (s : State) (h : Home) (addr len : Nat) : Bool :=
  match h with
  | .bank n => (s.locPartBad n addr len).isSome
  | _ =>
    let l := uncovered 64 (h.base + addr) len (s.poison h)
    (upto len).any (fun i => (mapFind ((h.base + addr + i) / 64) l).isSome)

/-- The device physical address of a slice-local byte of a virtual device (R103). -/
def State.sliceDpa (s : State) (vd m l : Nat) : Nat :=
  let sl := (s.quota vd).sliceList
  (l / 4096 * sl.length + (sl.idxOf m)) * 4096 + l % 4096

/-- The module page of a slice's byte, if it is being pulled (R397, R398). -/
def State.pulling (s : State) (vd : Nat) (h : Home) (addr : Nat) : Option Nat :=
  match h with
  | .slice m =>
    match s.modPage vd (s.sliceDpa vd m addr) with
    | some p => if (s.owner p).pull then some p else none
    | none => none
  | _ => none

/-- Die of a module page (R104). -/
def pageDie (p : Nat) : Nat := p / 196608 / 48

/-- Two held accesses are one. -/
def HeldAcc.same (a b : HeldAcc) : Bool :=
  match a, b with
  | .unit v d x _, .unit w e y _ => v == w && d == e && x == y
  | a, b => a == b

/-- Hold an access at a page, in order of arrival; the first one asks for the pull; at most 16 pulls run on a die (R398). -/
def State.startPull (s : State) (p va : Nat) (h : HeldAcc) : State :=
  if s.pulls.any (fun x => x.page == p) then
    { s with pulls := s.pulls.map (fun x =>
        if x.page = p ∧ !x.queue.any h.same then { x with queue := x.queue ++ [h] } else x) }
  else
    let n := (s.pulls.filter (fun x => x.req && pageDie x.page == pageDie p)).length
    { s with pulls := s.pulls ++ [{ page := p, req := decide (n < 16), va := va, queue := [h] }] }

/-- The access of a unit is held at a page, or, where a failed pull held it before, ends with SOURCELOST in place of the POISON
`bad` that the pull has left (R398, R399). -/
def unitPull (vd dom va : Nat) (bad : Bool) (p : Option Nat) : M Unit := do
  let lost ← look (fun s => s.lostAt.contains (vd, dom, va))
  if lost then change (fun s => { s with lostAt := s.lostAt.filter (fun e => e != (vd, dom, va)) }) else pure ()
  if lost && bad then throw (.trapAt (pageFault va 5))
  else match p with
    | some p => do change (fun s => s.startPull p va (.unit vd dom va none)); throw .waitAt
    | none => pure ()

/-- A function's traffic with the host is performed only while its stream is secure (R402). -/
def State.linkOpen (s : State) (vd : Nat) (h : Home) : Bool := match h with | .host => (s.vd vd).ide | _ => true

/-- The line may be cached by the host (R110). -/
def State.snooped (s : State) (h : Home) (addr len : Nat) : Bool :=
  match h with
  | .slice m => (upto len).any (fun i => (mapFind ((m * sliceBytes + addr + i) / 64) s.snoops).isSome)
  | _ => false

/-! ### The dirty log -/

/-- PUT − GET of the dirty log, both 64 bits wide (R389). -/
def VDev.dlFill (v : VDev) : Nat := (v.dlput + 2 ^ 64 - v.dlget) % 2 ^ 64

/-- The throttle of R396. -/
def State.dlThrottle (s : State) (vd : Nat) : State :=
  let cap := (s.quota vd).dlcap
  s.modVd vd (fun v =>
    if 3 * cap / 4 < v.dlFill then { v with dlthr := true }
    else if v.dlFill ≤ cap / 2 then { v with dlthr := false }
    else v)

/-- Code of a page size: 64 KiB, 2 MiB, 1 GiB (R143). -/
def sizeCode (bits : Nat) : Nat := if bits = 16 then 0 else if bits = 21 then 1 else 2

/-- The atomic on a leaf's LOG bit, with the append and the invalidation that follow it; none while the ring is full or its
line is poisoned, or while the host may cache a line that it writes (R108, R110, R115, R143). True where the atomic found LOG = 1. -/
def State.logAtomic (s : State) (e : TlbEntry) : Option (Bool × State) :=
  let w := s.devNum e.vdev e.leaf 8
  if s.devSnooped e.vdev e.leaf 8 then none
  else if !bitAt w 5 then some (false, s)
  else
    let q := s.quota e.vdev
    let v := s.vd e.vdev
    let slot := q.dlbase + 8 * (v.dlput % q.dlcap)
    if q.dlcap ≤ v.dlFill ∨ s.devPoisoned 0 slot 8 ∨ s.devSnooped 0 slot 8 then none
    else
      let rcd := e.oa / 65536 * 65536 + 4 * sizeCode e.bits + 1
      let s1 := s.devWrite e.vdev e.leaf (leBytes (w - 32) 8)
      let s2 := s1.devWrite 0 slot (leBytes rcd 8)
      let s3 := (s2.modVd e.vdev (fun v => { v with dlput := (v.dlput + 1) % 2 ^ 64 })).dlThrottle e.vdev
      some (true, s3.tlbDrop (fun t => t.vdev == e.vdev && t.leaf == e.leaf))

/-! ### Accesses of units -/

/-! ### Spill slots -/

/-- Bytes beyond the cores that a range of a domain's addresses leads to. -/
def State.savePlaces (s : State) (vd dom va len : Nat) : List (Home × Nat × Nat) :=
  (chunks va len).filterMap (fun (a, n) =>
    match regionOf a with
    | none => none
    | some .local_ => none
    | some r =>
      match saveWalk s vd dom a r with
      | .ok e => (s.homeOf e a).map (fun h => (h.1, h.2, n))
      | .error _ => none)

/-- Spill slots 1 to LIMIT of a device's threads, resident and saved: base domain, first address, length (R172, R205). -/
def State.slots (s : State) (vd : Nat) : List (Nat × Nat × Nat) :=
  (s.cores.flatMap (fun e => (upto 4).filterMap (fun k =>
    let t := e.2.seat k
    if t.occ = .thread ∧ t.vdev = vd ∧ t.limit ≠ 0 then some (t.basedom, t.image + 0x1B00, 1472 * t.limit) else none))) ++
  (s.vd vd).saved.filterMap (fun i => if i.limit = 0 then none else some (i.dom, i.image + 0x1B00, 1472 * i.limit))

/-- Bytes of a home that a spill slot of the device holds: no access of a domain other than 0 reaches them (R171, log 36). -/
def State.slotHeld (s : State) (vd : Nat) (h : Home) (addr len : Nat) : Bool :=
  match h with
  | .bank _ => false
  | _ => (s.slots vd).any (fun e => (s.savePlaces vd e.1 e.2.1 e.2.2).any (fun p =>
      p.1 == h && decide (p.2.1 < addr + len) && decide (addr < p.2.1 + p.2.2)))

/-- Two walks of one die go to one page (R114). -/
def Walk.joins (w v : Walk) : Bool :=
  dieOf w.core == dieOf v.core && w.vdev == v.vdev && w.dom == v.dom && w.va / 65536 == v.va / 65536

/-- The distinct walks of a list, each by the miss that came first. -/
def distinctWalks (l : List Walk) : List Walk := l.foldl (fun d w => if d.any w.joins then d else d ++ [w]) []

/-- A walk of core n's engines begins now: none to that page is outstanding, which it would join, and a walker of the die is
free (R114). -/
def State.mayWalk (s : State) (n vd dom va : Nat) : Bool :=
  let mine := s.walks.filter (fun v => dieOf v.core == dieOf n)
  !mine.any (fun v => v.vdev == vd && v.dom == dom && v.va / 65536 == va / 65536) &&
    decide ((distinctWalks mine).length < 64)

/-- The translation a unit uses: a core's engine looks in the caches and fills them, any other unit walks (R114). -/
def unitXlate (c : Option Nat) (w : Who) (r : Route) (k : Right) (at_ : Nat) : M TlbEntry := do
  let vd := w.vdev
  let found ← look (fun s => if w.seq then none else c.bind (fun n => s.tlbFind n vd r.dom r.va))
  let e ← match found with
    | some e => pure e
    | none => do
      let pg ← look (fun s => s.walkPull vd r.dom r.va)
      let bad ← look (fun s => match saveWalk s vd r.dom r.va r.reg with | .error t => t.cause == .poison | .ok _ => false)
      unitPull vd r.dom at_ bad pg
      let ok ← look (fun s => w.seq || (match c with | some n => s.mayWalk n vd r.dom r.va | none => true))
      waitFor ok
      let e ← (do
        let x ← look (fun s => if w.seq then saveWalk s vd r.dom r.va r.reg else walk s vd r.dom r.va r.reg)
        orTrap x)
      match c, w.seq with
      | some n, false => do change (fun s => s.tlbFill n e); pure e
      | _, _ => pure e
  if e.right k then pure e else throw (.trap (pageFault at_ 1))

/-- Check and translate one chunk of a unit's access (R306 step 1, R314). Answers the home and the home's address. -/
def unitPlace (c : Option Nat) (w : Who) (va len : Nat) (k : Right) (storeLike : Bool) : M (Home × Nat) := do
  let r ← (do let x ← look (fun s => route s w va len k); orTrap x)
  match r.reg with
  | .local_ => do
    let (n, off) := coreOf r.va
    let mapped ← look (fun s => s.mapped n)
    if !mapped then throw (.trap (addrTrap .address va)) else pure ()
    let ok ← look (fun s => localOk s n off len w k storeLike)
    if ok then pure (.bank n, off) else throw (.trap (addrTrap .localperm (coreVa n off)))
  | _ => do
    let e ← unitXlate c w r k va
    let writes := k == .w || k == .rw
    if writes && e.log then do
      let bad ← look (fun s => s.devPoisoned e.vdev e.leaf 8)
      if bad then throw (.trap (addrTrap .poison va)) else pure ()
      let l ← look (fun s => s.logAtomic e)
      match l with
      | none => throw .wait
      | some (_, s') => change (fun _ => s')
    else pure ()
    let h ← look (fun s => s.homeOf e r.va)
    match h with
    | none => throw (.trap (pageFault va 3))
    | some (h, addr) => do
      let slot ← look (fun s => w.dom != 0 && !w.seq && s.slotHeld w.vdev h addr len)
      if slot then throw (.trap (pageFault va 1)) else pure ()
      let p ← look (fun s => s.pulling w.vdev h addr)
      let bad ← look (fun s => s.homeBad h addr len)
      unitPull w.vdev r.dom va bad p
      let shut ← look (fun s => !s.linkOpen w.vdev h)
      waitFor (!shut)
      let sn ← look (fun s => writes && s.snooped h addr len)
      if sn then throw .wait else pure (h, addr)

/-- Check and translate a whole range, its first and last byte in one region (R90). -/
def unitPlaces (c : Option Nat) (w : Who) (va len : Nat) (k : Right) (storeLike : Bool) : M (List (Home × Nat × Nat)) := do
  if len != 0 && (regionSpan va len).isNone then throw (.trap (addrTrap .address va)) else pure ()
  mapL (w.chunks va len) (fun (a, n) => do
    let (h, addr) ← unitPlace c w a n k storeLike
    pure (h, addr, n))

/-- Read a range; POISON where a byte is poisoned. -/
def unitRead (c : Option Nat) (w : Who) (va len : Nat) : M (List Byte) := do
  let ps ← unitPlaces c w va len .r false
  let bad ← look (fun s => ps.any (fun (h, a, n) => s.homeBad h a n))
  if bad then throw (.trap (addrTrap .poison va)) else pure ()
  look (fun s => ps.flatMap (fun (h, a, n) => s.homeRead h a n))

/-- Write chunk after chunk. -/
def State.writePlaces (s : State) : List (Home × Nat × Nat) → List Byte → State
  | [], _ => s
  | (h, a, n) :: ps, bs => (s.homeWrite h a (bs.take n)).writePlaces ps (bs.drop n)

/-- Write a range; POISON where it would have to read a poisoned unit. -/
def unitWrite (c : Option Nat) (w : Who) (va : Nat) (bs : List Byte) : M Unit := do
  let ps ← unitPlaces c w va bs.length .w true
  let bad ← look (fun s => ps.any (fun (h, a, n) => s.homePartBad h a n))
  if bad then throw (.trap (addrTrap .poison va)) else pure ()
  change (fun s => s.writePlaces ps bs)

/-- A unit's access without its failures: none where it traps or waits. -/
def State.tryUnit {α : Type} (s : State) (m : M α) : Option (α × State) := m.run? s

/-- The trap that a unit's access meets, if any. -/
def State.trapOf {α : Type} (s : State) (m : M α) : Option Trap :=
  match m s with
  | .error (.trap t) _ => some t
  | .error (.trapAt t) _ => some t
  | _ => none

/-! ### The scoreboard -/

/-- A copy's range spares the accesses that its own strand issued before it, which it follows (R97, R301). -/
def CopyOp.spares (o : CopyOp) (a : Option (Nat × StrandK × Nat)) : Bool :=
  match a with
  | some (k, st, num) => o.seat == k && o.strn == st && decide (num < o.before)
  | none => false

/-- The scoreboard of the core holds a range that meets these local bytes, for an access of its own seat and strand by
number, or any other (R96, R97). -/
def Core.heldRange (x : Core) (off len : Nat) (a : Option (Nat × StrandK × Nat)) : Bool :=
  let meets (l : List (Nat × Nat)) : Bool := l.any (fun (lo, hi) => decide (off / 32 * 32 < hi) && decide (lo < off + len))
  x.ctxs.toList.any (fun c => (c.ops ++ c.held).any (fun op => !op.spares a && meets op.ranges)) ||
    x.sboard.any (fun e => meets e.2)

/-! ### Scalar accesses -/

/-- Cut a scalar access at a 32-byte boundary of its address (R316). -/
def split32 (va len : Nat) : List (Nat × Nat) :=
  let k := 32 - va % 32
  if len ≤ k then [(va, len)] else [(va, k), (va + k, len - k)]

/-- The seat's translation; a miss starts a walk and the strand waits (R114). -/
def seatXlate (dom va : Nat) (reg : Region) (k : Right) (at_ : Nat) : M TlbEntry := do
  let x ← me
  let a ← look State.cur
  let found ← look (fun s => s.tlbFind a.core x.vdev dom va)
  match found with
  | none => do
    change (fun s =>
      let wk : Walk := { core := a.core, seat := a.seat, strn := a.strn, vdev := x.vdev, dom := dom, va := va, at_ := at_, num := s.accNum }
      if s.walks.any (fun w => { w with num := wk.num } == wk) then s else { s with walks := s.walks ++ [wk] })
    throw .waitAt
  | some e => do
    if e.tgt ≠ tgtOf reg then throw (.trap (pageFault at_ 2)) else pure ()
    if !e.right k then throw (.trap (pageFault at_ 1)) else pure ()
    if (k == .w || k == .rw) && e.log then do
      let bad ← look (fun s => s.devPoisoned e.vdev e.leaf 8)
      if bad then throw (.trap (addrTrap .poison at_)) else pure ()
      let rq : LogReq := { core := a.core, seat := a.seat, strn := a.strn, entry := e }
      let ls ← look State.logs
      if ls.contains { rq with done := true } then pure e
      else do
        change (fun s => if s.logs.contains rq then s else { s with logs := s.logs ++ [rq] })
        throw .waitAt
    else pure e

/-- Check and translate one piece of a seat's access (R314). `store` marks stores, `atom` atomics. -/
def seatPiece (w : Who) (va pva len dom : Nat) (reg : Region) (k : Right) (store atom : Bool) : M Piece := do
  let a ← look State.cur
  match reg with
  | .local_ => do
    let (n, off) := coreOf pva
    let mapped ← look (fun s => s.mapped n)
    if !mapped then throw (.trap (addrTrap .address va)) else pure ()
    let win := w.winLocal n off len k
    let pc : Piece := { home := .bank n, addr := off, va := va, len := len, vdev := w.vdev, dom := w.dom, win := win }
    if n = a.core then do
      let ok ← look (fun s => localOk s n off len w k store)
      if !ok then throw (.trap (addrTrap .localperm (coreVa n off))) else pure ()
      let held ← look (fun s => (s.core n).heldRange off len none)
      waitFor (!held)
      let bad ← look (fun s => if store then (s.locPartBad n off len).isSome else (s.locBad n off len).isSome)
      if bad then throw (.trap (addrTrap .poison off)) else pure pc
    else pure pc
  | _ => do
    if atom && reg == .host then raise .operand 2 va else pure ()
    let e ← seatXlate dom pva reg k va
    let h ← look (fun s => s.homeOf e pva)
    match h with
    | none => throw (.trap (pageFault va 3))
    | some (h, addr) => do
      let slot ← look (fun s => w.dom != 0 && s.slotHeld w.vdev h addr len)
      if slot then throw (.trap (pageFault va 1))
      else pure { home := h, addr := addr, va := va, len := len, vdev := w.vdev, dom := dom, win := false
                  tva := pva, tdom := dom }

/-- Route of a seat's access, with its lender's address for a window (R116). -/
def seatRoute (va len : Nat) (k : Right) : M (Who × Route) := do
  let x ← me
  let r ← look (fun s => route s x.who va len k)
  let r ← orTrap r
  pure (x.who, r)

/-- All pieces of a scalar access at `va` (R314, R316). `strict` demands natural alignment. -/
def seatPieces (va len : Nat) (k : Right) (store atom strict : Bool) : M (List Piece) := do
  let (w, r) ← seatRoute va len k
  if strict && r.va % len ≠ 0 then raise .operand 2 va else pure ()
  mapL (split32 r.va len) (fun (p, n) => seatPiece w (va + (p - r.va)) p n r.dom r.reg k store atom)

/-- Put an access in flight; answers its number. -/
def State.launchAccess (s : State) (a : Access) : State :=
  { s with accNum := s.accNum + 1, flight := s.flight ++ [{ a with num := s.accNum }] }

/-- Accesses of a strand in flight. -/
def State.myFlight (s : State) (a : Agent) : List Access :=
  s.flight.filter (fun x => x.core == a.core && x.seat == a.seat && x.strn == a.strn)

/-- A piece that has not been performed. -/
def Piece.sent (p : Piece) : Bool := p.st == .sent

/-- Every piece of the access has been decided. -/
def Access.decided (a : Access) : Bool := a.pieces.all (fun p => !p.sent)

/-- Some piece of the access failed. -/
def Access.failed (a : Access) : Option Trap :=
  a.pieces.findSome? (fun p => match p.st with | .failed t => some t | _ => none)

/-- Every earlier load, store and atomic of the strand has been performed at its home and its outcome has returned
(R315, R321, R327). -/
def State.quiet (s : State) (a : Agent) : Bool := (s.myFlight a).isEmpty

/-- A load or returning atomic. -/
def Access.returns (a : Access) : Bool :=
  match a.kind with
  | .load _ => true
  | .store _ => false
  | .atomic .. => a.dst.isSome

/-- An LDA whose value has not returned holds every later access of its strand (R321). -/
def State.ldaOpen (s : State) (a : Agent) : Bool := (s.myFlight a).any (fun x => x.acq)

/-- Wait until the strand's earlier accesses are acknowledged. -/
def release : M Unit := do
  let ok ← look (fun s => s.quiet s.cur)
  waitFor ok

/-- The homes that a scope covers (R325). -/
def scopeHas (c : Nat) (sc : Scope) (h : Home) : Bool :=
  match sc, h with
  | .seat, .bank n => n == c
  | .core, .bank n => n == c
  | .die, .bank n => dieOf n == dieOf c
  | .die, .slice m => m / 48 == dieOf c
  | .dev, .fabric _ => false
  | .dev, _ => true
  | .fab, _ => true
  | _, _ => false

/-- The wait of a fence: the covered earlier accesses of the strand are acknowledged, or, for .acq, have returned
their value (R325). -/
def fenced (scope : Scope) (kind : FenceKind) : M Unit := do
  let ok ← look (fun s => (s.myFlight s.cur).all (fun a =>
    !(a.pieces.any (fun p => scopeHas s.cur.core scope p.home)) || (kind == .acq && !a.returns)))
  waitFor ok

/-- The strand's earlier accesses and messages to its own core have been performed there (R288, R317). -/
def State.bankDone (s : State) : Bool :=
  let c := s.cur.core
  (s.myFlight s.cur).all (fun a => a.pieces.all (fun p => !p.sent || p.home != .bank c)) &&
    (s.cur.strn != .main || s.msgs.all (fun m => m.src != c || m.seat != s.cur.seat || m.dest != c || m.ref))

/-- Wait until the strand's earlier accesses to its own core's banks have been performed there (R288, R317). -/
def bankQuiet : M Unit := do
  let ok ← look State.bankDone
  waitFor ok

/-- Wait while an LDA of the strand is open. -/
def afterLda : M Unit := do
  let bad ← look (fun s => s.ldaOpen s.cur)
  waitFor (!bad)

/-! ### Performance at a home -/

/-- Numeric value read in a type. -/
def tyVal (ty : ITy) (v : Nat) : Int := readBits (sgn ty) (wOf ty) v

/-- New value of an atomic's location (R323). FSTAT is not touched and FTZ does not act. -/
def atomNew (op : AtomOp) (ty : ITy) (m b : Nat) : Nat :=
  let w := wOf ty
  let lt (x y : Nat) : Bool := decide (tyVal ty x < tyVal ty y)
  match op with
  | .add => (m + b) % 2 ^ w
  | .min => if lt b m then b else m
  | .max => if lt m b then b else m
  | .and => m &&& b
  | .or => m ||| b
  | .xor => m ^^^ b
  | .xchg => b
  | .cas new => if m = b then new.toNat % 2 ^ w else m
  | .incw => if lt m b then (m + 1) % 2 ^ w else 0
  | .fadd f r =>
    let (v, _) := fAdd r (decodeF f false m) (decodeF f false b)
    (roundF f false r .sat v).1

/-- Perform a piece whose turn has come: the checks made at another core's banks, poison, then the read or write. -/
def State.performPiece (s : State) (a : Access) (p : Piece) : Piece × State :=
  let right : Right := match a.kind with | .load _ => .r | .store _ => .w | .atomic .. => .rw
  let isSt := match a.kind with | .store _ => true | _ => false
  let who : Who := { vdev := p.vdev, dom := p.dom, win := none }
  let permBad := match p.home with
    | .bank n => n != a.core && !localOkAt s n p.addr p.len who right isSt p.win
    | _ => false
  let poison := if isSt then s.homePartBad p.home p.addr p.len else s.homeBad p.home p.addr p.len
  let slot := p.dom != 0 && s.slotHeld p.vdev p.home p.addr p.len
  let gone := match p.home with | .bank n => n != a.core && !s.mapped n | _ => false
  if slot then ({ p with st := .failed (pageFault p.va 1) }, s)
  else if gone then ({ p with st := .failed (addrTrap .address p.va) }, s)
  else if permBad then
    ({ p with st := .failed (addrTrap .localperm (match p.home with | .bank n => coreVa n p.addr | _ => p.va)) }, s)
  else if poison then ({ p with st := .failed (addrTrap .poison p.va) }, s)
  else match a.kind with
    | .load _ => ({ p with st := .done (s.homeRead p.home p.addr p.len) }, s)
    | .store bs => ({ p with st := .done [] }, s.homeWrite p.home p.addr ((bs.drop (p.va - a.va.toNat)).take p.len))
    | .atomic op ty b =>
      let old := s.homeRead p.home p.addr p.len
      let new := atomNew op ty (leNat old) (b.toNat % 2 ^ (8 * p.len))
      ({ p with st := .done old }, s.homeWrite p.home p.addr (leBytes new p.len))

/-- A packet of core c to a home is on its way that was sent before number `num`: the mesh and the host port keep their
order (R16, R109). -/
def State.sentTo (s : State) (c num : Nat) (h : Home) : Bool :=
  s.flight.any (fun x => decide (x.num < num) && x.core == c && x.pieces.any (fun q => q.sent && q.home == h)) ||
  (match h with
   | .bank n => s.msgs.any (fun m => decide (m.num < num) && m.src == c && m.dest == n && !m.ref) ||
       s.slotReqs.any (fun r => decide (r.num < num) && r.core == c && r.dest == n)
   | _ => false)

/-- A unit of core c that reaches these homes now would overtake a packet of its core (R16, R109). -/
def State.overtakes (s : State) (c : Nat) (hs : List Home) : Bool :=
  hs.any (fun h => h != .bank c && s.sentTo c s.accNum h)

/-- An earlier access, message or slot instruction of the same source holds this piece back (R16, R97, R109, R317): in its
own core's banks those of its strand, elsewhere those of its core. -/
def State.pieceBehind (s : State) (a : Access) (i : Nat) (p : Piece) : Bool :=
  (a.pieces.take i).any (fun q => q.sent && q.home == p.home) ||
  (if p.home = .bank a.core then
    s.flight.any (fun x => decide (x.num < a.num) && x.core == a.core && x.seat == a.seat && x.strn == a.strn &&
      x.pieces.any (fun q => q.sent && q.home == p.home)) ||
    s.msgs.any (fun m => decide (m.num < a.num) && m.src == a.core && m.dest == a.core && !m.ref) ||
    s.slotReqs.any (fun r => decide (r.num < a.num) && r.core == a.core && r.dest == a.core)
  else s.sentTo a.core a.num p.home)

/-- A read by which an instruction takes in data as it issues: behind an LDA that is open, the strand's earlier accesses to
the same homes, its core's packets and the scoreboard (R16, R97, R317, R321). -/
def seatRead (w : Who) (va len : Nat) : M (List Byte) := do
  afterLda
  let c ← look (fun s => s.cur.core)
  let ps ← unitPlaces (some c) w va len .r false
  let ok ← look (fun s => !s.overtakes c (ps.map (fun p => p.1)) &&
    ps.all (fun p => p.1 != .bank c || (s.bankDone && !(s.core c).heldRange p.2.1 p.2.2 none)))
  waitFor ok
  unitRead (some c) w va len

/-- The copy ranges of its core hold a piece back (R97), or the retirement of a core that it is bound for (R165). -/
def State.pieceHeld (s : State) (a : Access) (p : Piece) : Bool :=
  match p.home with
  | .bank n => (s.core n).heldRange p.addr p.len (if n = a.core then some (a.seat, a.strn, a.num) else none) ||
      (n != a.core && (s.core n).retiring)
  | _ => false

/-- Replace an access in flight. -/
def State.setAccess (s : State) (a : Access) : State :=
  { s with flight := s.flight.map (fun x => if x.num = a.num then a else x) }

/-- Access in flight by number. -/
def State.access (s : State) (n : Nat) : Option Access := s.flight.find? (fun x => x.num == n)

/-- Remove an access. -/
def State.dropAccess (s : State) (n : Nat) : State := { s with flight := s.flight.filter (fun x => x.num != n) }

/-- Perform piece `i` of access `n`, or hold it at a page that is being pulled; nothing where its turn has not come. -/
def State.stepPiece (s : State) (n i : Nat) : State :=
  match s.access n with
  | none => s
  | some a =>
    match a.pieces[i]? with
    | none => s
    | some p =>
      if a.ghost || !p.sent || s.pieceBehind a i p || s.pieceHeld a p then s
      else match s.pulling p.vdev p.home p.addr with
        | some pg => s.startPull pg p.va (.piece n i)
        | none =>
          let writes := match a.kind with | .load _ => false | _ => true
          if !s.linkOpen p.vdev p.home || (writes && s.snooped p.home p.addr p.len) then s
          else
            let (q, t) := s.performPiece a p
            let t1 := t.setAccess { a with pieces := a.pieces.set i q }
            match a.twin.bind t1.access with
            | some b => t1.setAccess { b with pieces := b.pieces.set i q }
            | none => t1

/-- Virtual devices whose gate table or domain records lie on a line of device memory (R152, R157). -/
def State.tablesOn (s : State) (line : Nat) : List Nat :=
  let m := line * 64 / sliceBytes
  if !(s.quota 0).sliceList.contains m then []
  else
    let a := s.sliceDpa 0 m (line * 64 % sliceBytes)
    let on (base n : Nat) : Bool := decide (base < a + 64) && decide (a < base + n)
    (upto 16).filter (fun v => let q := s.quota v; q.active && (on q.gbase (64 * q.gcap) || on q.dbase (32 * q.dcap)))

/-- The host may cache a line of the device's gate table or domain records: a write there waits for its answer (R110). -/
def State.tablesHeld (s : State) (vd : Nat) : Bool := s.snoops.any (fun e => (s.tablesOn e.1).contains vd)

/-- Bytes that a completed access returns. -/
def Access.bytes (a : Access) : List Byte :=
  a.pieces.flatMap (fun p => match p.st with | .done bs => bs | _ => [])

end Sys2Proof.Machine
end

