-- ==== Sys2Proof/Machine/Places.lean ====
section
/-! DEFINITION. Places: bits at homes, their poison (R91, R108), and the aligned 16-byte granules in which the tile engine
moves them (R270, R320). -/
namespace Sys2Proof.Machine

/-- The home's memory and the bit where its part starts. -/
def Frag.base (f : Frag) : Nat := 8 * f.home.base
def State.homeMem (s : State) (h : Home) : Memory :=
  match h with
  | .bank _ => s.lmem | .slice _ => s.dram | .host => s.host | .fabric _ => s.fabric
def State.setHomeMem (s : State) (h : Home) (m : Memory) : State :=
  match h with
  | .bank _ => { s with lmem := m } | .slice _ => { s with dram := m } | .host => { s with host := m }
  | .fabric _ => { s with fabric := m }
/-- First bit in the memory that holds the home. -/
def Frag.abs (f : Frag) : Nat := f.base + f.at_
def Frag.read (s : State) (f : Frag) : Nat :=
  let n := if f.len = 0 then 0 else (f.abs + f.len + 7) / 8 - f.abs / 8
  bitsAt (leNat (memReads (s.homeMem f.home) (f.abs / 8) n)) (f.abs % 8) f.len
def Frag.write (s : State) (f : Frag) (v : Nat) : State :=
  if f.len = 0 then s
  else
    let n := (f.abs + f.len + 7) / 8 - f.abs / 8
    let m := s.homeMem f.home
    let old := leNat (memReads m (f.abs / 8) n)
    let lo := f.abs % 8
    let new := old % 2 ^ lo + (v % 2 ^ f.len) * 2 ^ lo + old / 2 ^ (lo + f.len) * 2 ^ (lo + f.len)
    s.setHomeMem f.home (memWrites m (f.abs / 8) (leBytes new n))
/-- Bits of a unit of error correction: an 8-byte word or a 64-byte line (R91, R108, R307). -/
def Frag.unit (f : Frag) : Nat := match f.home with | .bank _ => 64 | _ => 512
/-- Units with an error that the bits lie in, by number. -/
def Frag.bad (s : State) (f : Frag) : List Nat :=
  let l := s.poison f.home
  if f.len = 0 ∨ l.isEmpty then []
  else (List.range' (f.abs / f.unit) ((f.abs + f.len - 1) / f.unit - f.abs / f.unit + 1)).filter (fun i => (mapFind i l).isSome)
/-- Bits of byte `b` of the memory that the frags write. -/
def coverOf (fs : List Frag) (b : Nat) : Nat :=
  fs.foldl (fun n f => n + (min (f.abs + f.len) (8 * b + 8) - max f.abs (8 * b))) 0
/-- Every byte of unit i is written whole. -/
def unitCovered (fs : List Frag) (u i : Nat) : Bool := (upto (u / 8)).all (fun b => decide (8 ≤ coverOf fs (i * (u / 8) + b)))
/-- Clear a unit's error. -/
def State.unpoison (s : State) (h : Home) (i : Nat) : State := s.setPoison h (mapDel i (s.poison h))

/-- Bits of a place. -/
def Loc.read (s : State) : Loc → Nat
  | [] => 0
  | f :: l => f.read s + Loc.read s l * 2 ^ f.len
def Loc.write (s : State) (v : Nat) : Loc → State
  | [] => s
  | f :: l => Loc.write (f.write s v) (v / 2 ^ f.len) l

/-- Cut a frag at 16-byte boundaries of its home. -/
def Frag.cutFrom : Nat → Frag → List Frag
  | 0, _ => []
  | n + 1, f =>
    let k := 128 - f.at_ % 128
    if f.len ≤ k then [f] else { f with len := k } :: Frag.cutFrom n { f with at_ := f.at_ + k, len := f.len - k }
def Frag.cut (f : Frag) : List Frag := if f.len = 0 then [] else Frag.cutFrom (f.len / 128 + 2) f

/-- The granule that a frag of one granule lies in. -/
def Frag.granule (f : Frag) : Nat := f.abs / 128

/-- Put a frag with the others of its granule. -/
def joinUnit (f : Frag) : List Loc → List Loc
  | [] => [[f]]
  | l :: ls => if l.any (fun g => g.home == f.home && g.granule == f.granule) then (l ++ [f]) :: ls else l :: joinUnit f ls

/-- The granules of some frags: each holds the bits that are moved of it, in one single-copy-atomic unit (R270, R320). -/
def unitsOf (fs : List Frag) : List Loc := (fs.flatMap Frag.cut).foldl (fun us f => joinUnit f us) []

/-- Write a granule, the errors of the words and lines cleared that the writes `all` cover whole (R91, R108). -/
def State.writeUnit (s : State) (all : List Frag) (u : Loc) (v : Nat) : State :=
  u.foldl (fun t f => (f.bad s).foldl (fun t i =>
    if unitCovered (all.filter (fun y => y.home == f.home)) f.unit i then t.unpoison f.home i else t) t)
    (Loc.write s v u)

/-- Clear the errors of the words and lines that a write of some frags covered whole (R91, R108). -/
def State.clearWhole (s : State) (all : List Frag) : State :=
  all.foldl (fun (t : State) f => (f.bad t).foldl (fun t i =>
    if unitCovered (all.filter (fun y => y.home == f.home)) f.unit i then t.unpoison f.home i else t) t) s

/-- Words and lines that some frags cover only in part and that have an uncorrectable error (R91, R108). -/
def State.partBad (s : State) (all : List Frag) : Bool :=
  all.any (fun f => (f.bad s).any (fun i => !unitCovered (all.filter (fun y => y.home == f.home)) f.unit i))

end Sys2Proof.Machine
end

