-- ==== Sys2Proof/Machine/Moves.lean ====
section
/-! DEFINITION. Elements as patterns (R46, R221), and moves between places: one row group's moves with the errors of R307,
adds at the home (R304). -/
namespace Sys2Proof.Machine

/-! ### Elements -/

/-- Two components of a complex pattern, real first (R46). -/
def comps (f : Fmt) (v : Nat) : Nat × Nat :=
  let w := fmtWidth (compOf f)
  (v % 2 ^ w, v / 2 ^ w % 2 ^ w)
/-- A complex pattern. -/
def pairUp (f : Fmt) (re im : Nat) : Nat := re + im * 2 ^ fmtWidth (compOf f)

/-- The integer of an element pattern (R46). -/
def elemInt (f : Fmt) (v : Nat) : Int := readBits (isSigned f) (fmtWidth f) v
/-- An integer as an element pattern. -/
def intElem (f : Fmt) (v : Int) : Nat := (v % (2 ^ fmtWidth f : Nat)).toNat

/-- Source modifiers on an element (R221, R268). -/
def modElem (f : Fmt) (m : SrcMod) (v : Nat) : Nat :=
  if isInt f then intElem f (modInt (isSigned f) (fmtWidth f) m (elemInt f v))
  else if isCX f then
    let (re, im) := comps f v
    let c := compOf f
    pairUp f (modBitsF c { m with conj := false } re)
      (modBitsF c { m with conj := false } (if m.conj then modBitsF c ⟨true, false, false⟩ im else im))
  else modBitsF f m v

/-! ### Moves of a group -/

/-- Add at the home (R304): the new element. -/
def addEl (f : Fmt) (m v : Nat) : Nat :=
  if isInt f then (m + v) % 2 ^ fmtWidth f
  else
    let g := compOf f
    let one (x y : Nat) : Nat := (roundF g false .rne .sat (fAdd .rne (decodeF g false x) (decodeF g false y)).1).1
    if isCX f then
      let (mr, mi) := comps f m
      let (vr, vi) := comps f v
      pairUp f (one mr vr) (one mi vi)
    else one m v

/-- Formats that adds at the home accept (R304). -/
def addFmt (f : Fmt) : Bool :=
  match f with
  | .fp32 | .fp64 | .fp16 | .bf16 | .cf32 | .cf64 | .int32 | .nat32 | .int64 => true
  | _ => false

/-- The imaginary part negated where C is set (R300). -/
def conjEl (f : Fmt) (c : Bool) (v : Nat) : Nat := if c then modElem f ⟨false, false, true⟩ v else v

/-- Value of a move's source. -/
def Val.get (s : State) : Val → Nat
  | .loc l => Loc.read s l
  | .num n => n

/-- A move reads a unit with an error (R307). -/
def Mv.srcBad (s : State) (m : Mv) : Bool := match m.src with | .loc l => l.any (fun x => !(x.bad s).isEmpty) | .num _ => false
/-- A move must read a unit with an error at its destination: one that the group does not write whole, or any under an add. -/
def Mv.dstBad (s : State) (adds : Bool) (all : List Frag) (m : Mv) : Bool :=
  m.dst.any (fun x => (x.bad s).any (fun i => adds || !unitCovered (all.filter (fun y => y.home == x.home)) x.unit i))
/-- An add at the host port, which performs none (R304). -/
def Mv.atHost (adds : Bool) (m : Mv) : Bool := adds && m.dst.any (fun x => x.home == .host)

/-- The moves of a group that are performed (R307). -/
def State.performed (s : State) (adds : Bool) (ms : List Mv) : List Mv :=
  let good := ms.filter (fun m => !m.srcBad s)
  good.filter (fun m => !m.dstBad s adds (good.flatMap (fun m => m.dst)) && !m.atHost adds)

/-- The error that a group ends with, 0 for none (R307). -/
def State.moveError (s : State) (adds : Bool) (ms : List Mv) : Nat :=
  let good := ms.filter (fun m => !m.srcBad s)
  if good.length < ms.length then 1
  else if good.any (fun m => m.dstBad s adds (good.flatMap (fun m => m.dst))) then 2
  else if good.any (fun m => m.atHost adds) then 4 else 0

/-- Perform a group's moves (R306 steps 3 and 4) with the errors of R307; answers the error code. `s` is what is read. -/
def State.doMoves (s : State) (f : Fmt) (cj adds : Bool) (ms : List Mv) : State × Nat :=
  let t := (s.performed adds ms).foldl (fun t m =>
    let v := if m.elem then conjEl f cj (m.src.get s) else m.src.get s
    let v := if adds && m.elem then addEl f (Loc.read t m.dst) v else v
    let t1 := Loc.write t v m.dst
    m.dst.foldl (fun t x => (x.bad s).foldl (fun t i => t.unpoison x.home i) t) t1) s
  (t, s.moveError adds ms)

/-- Homes that a group's moves touch. -/
def homesOf (ms : List Mv) : List Home :=
  ms.flatMap (fun m => m.dst.map (fun x => x.home) ++ (match m.src with | .loc l => l.map (fun x => x.home) | .num _ => []))

end Sys2Proof.Machine
end

