-- ==== Sys2Proof/Machine/Operands.lean ====
section
/-! DEFINITION. Reading operands and writing scalar results (R70 to R72, R101, R102, R220 to R225, R245, R247). Operand
numbers: 1 D, 2 A, 3 B (R79). -/
namespace Sys2Proof.Machine

/-- Read a register whose full/empty bit is `full` under a mode bit: wait, or raise EMPTY with the operand kind and the
register number (R70, R72, R197, R225). -/
def fullOr (full fe : Bool) (opnd kind n : Nat) : M Unit :=
  if full then pure () else if fe then raise .empty opnd (kind * 256 + n) else throw .wait

/-- Read a scalar register. -/
def readScal (opnd n : Nat) (fe : Bool) : M Word := do
  if 64 ≤ n then raise .operand opnd n else pure ()
  let x ← me
  fullOr (x.full n) fe opnd 1 n
  pure (x.reg n)

/-- Read `k` scalars in a row. -/
def readScals (opnd n k : Nat) (fe : Bool) : M (List Word) := mapL (upto k) (fun i => readScal opnd (n + i) fe)

/-- Write a scalar register; waits while it is empty (R72). -/
def writeScal (n : Nat) (v : Word) : M Unit := do
  if 64 ≤ n then raise .operand 1 n else pure ()
  let x ← me
  waitFor (x.full n)
  modMe (fun x => x.setReg n v)

/-- Write scalars in a row. -/
def writeScals (n : Nat) (vs : List Word) : M Unit :=
  match vs with
  | [] => pure ()
  | v :: r => do writeScal n v; writeScals (n + 1) r

/-- Read D as a source: it carries no mode bit (R218). -/
def readD (n : Nat) : M Word := readScal 1 n false

/-- The launch that an identifier names, if it is running or waiting in the virtual device. -/
def State.launch (s : State) (vd lid : Nat) : Option Launch := s.launches.find? (fun l => l.lid == lid && l.vdev == vd)

/-- The launch of the issuer's thread. -/
def myLaunch : M (Option Launch) := do
  let x ← me
  look (fun s => s.launch x.vdev x.lid)

/-- Capacity of the constant cache in lines (R102). -/
def ccLines : Nat := 256

/-- The bytes of a constant-bank operand (R101, R102, R222). -/
def readBank (opnd bank size off : Nat) : M (List Byte) := do
  let n := 2 ^ size
  let field := bank * 2 ^ 18 + size * 2 ^ 16 + off
  let l ← myLaunch
  match l with
  | none => raise .operand opnd field
  | some l => do
    let (addr, sz) := (l.banks[bank]?).getD (0, 0)
    if !l.rcd.cbmask.testBit bank || sz < off + n then raise .operand opnd field else pure ()
    let c ← look (fun s => s.cur.core)
    let line := off / 64
    let hit ← look (fun s => (s.core c).ccache.find? (fun e => e.lid == l.lid && e.bank == bank && e.line == line))
    let data ← match hit with
      | some e => pure e.data
      | none => do
        let who : Who := { vdev := l.vdev, dom := l.base, win := none }
        let bs ← unitRead (some c) who (addr + 64 * line) (min 64 (sz - 64 * line))
        let e : CLine := { lid := l.lid, bank := bank, line := line, data := bs }
        change (fun s => s.modCore c (fun x =>
          { x with ccache := (if x.ccache.length < ccLines then x.ccache else x.ccache.drop 1) ++ [e] }))
        pure bs
    pure ((data.drop (off % 64)).take n)

/-- An integer source at the width of its type (R245). -/
def readInt (ty : ITy) (opnd : Nat) (a : Src) : M Int := do
  let w := wOf ty
  match a with
  | .tile n _ _ => raise .operand opnd n
  | .scal n m fe => do
    let v ← readScal opnd n fe
    pure (modInt (sgn ty) w m (readBits (sgn ty) w v.toNat))
  | .cbank bank size off => do
    let bs ← readBank opnd bank size off
    pure (readBits (sgn ty) w (readBits (sgn ty) (8 * 2 ^ size) (leNat bs)))
  | .lit v => pure (readBits (sgn ty) w v.toInt)

/-- A source read as .n64. -/
def readN64 (opnd : Nat) (a : Src) : M Nat := do
  let v ← readInt .n64 opnd a
  pure v.toNat

/-- A source read as .i64. -/
def readI64 (opnd : Nat) (a : Src) : M Int := readInt .i64 opnd a

/-- An absent source reads as a default. -/
def readOpt {α : Type} (d : α) (rd : Src → M α) (a : Option Src) : M α :=
  match a with
  | none => pure d
  | some x => rd x

/-- A floating-point source as a pattern of its format (R221, R247). -/
def readF (f : Fmt) (opnd : Nat) (a : Src) : M Nat := do
  let w := fmtWidth f
  match a with
  | .tile n _ _ => raise .operand opnd n
  | .scal n m fe => do
    let v ← readScal opnd n fe
    pure (modBitsF f m (v.toNat % 2 ^ w))
  | .cbank bank size off => do
    let bs ← readBank opnd bank size off
    pure (leNat bs)
  | .lit v => pure (litF f v)

/-- Register number of a scalar source and its mode bit; any other kind is refused. -/
def scalNum (opnd : Nat) (a : Src) : M (Nat × Bool) :=
  match a with
  | .scal n _ fe => pure (n, fe)
  | .tile n _ _ => raise .operand opnd n
  | .cbank _ _ off => raise .operand opnd off
  | .lit v => raise .operand opnd v.toNat

/-- Scalars in a row named by a source: its first register at most `64 - k`. -/
def readRow (opnd k : Nat) (a : Src) : M (List Word) := do
  let (n, fe) ← scalNum opnd a
  if 64 < n + k then raise .operand opnd n else pure ()
  readScals opnd n k fe

/-- Scalars in a row named by an even register. -/
def readPair (opnd : Nat) (a : Src) : M (Word × Word) := do
  let (n, _) ← scalNum opnd a
  need (n % 2 == 0) opnd n
  let ws ← readRow opnd 2 a
  match ws with
  | [x, y] => pure (x, y)
  | _ => raise .operand opnd n

/-- An even destination register of a pair. -/
def evenD (d : Nat) : M Unit := need (d % 2 == 0 && decide (d ≤ 62)) 1 d

/-- View of a tile source. -/
def tileNum (opnd : Nat) (a : Src) : M (Nat × SrcMod × Bool) :=
  match a with
  | .tile n m fe => pure (n, m, fe)
  | .scal n _ _ => raise .operand opnd n
  | .cbank _ _ off => raise .operand opnd off
  | .lit v => raise .operand opnd v.toNat

/-- A view that an instruction names: the empty view is refused (R67). -/
def useView (opnd n : Nat) : M View := do
  if 64 ≤ n then raise .operand opnd n else pure ()
  let x ← me
  let v := x.view n
  if v.defd then pure v else raise .operand opnd n

/-- Wait on, or trap on, the full/empty bit of a view that is read (R70). -/
def viewFull (opnd n : Nat) (fe : Bool) : M Unit := do
  let x ← me
  fullOr (x.view n).fe fe opnd 0 n

/-- Wait until a view that is written is full (R70). -/
def viewFree (n : Nat) : M Unit := do
  let x ← me
  waitFor (x.view n).fe

/-- Write a predicate. -/
def writeP (n : Nat) (b : Bool) : M Unit := modMe (fun x => x.setP n b)

end Sys2Proof.Machine
end

