-- ==== Sys2Proof/Machine/Flags.lean ====
section
/-! DEFINITION. Results with their flags (R43, R246, R247). -/
namespace Sys2Proof.Machine

/-- Raise flags on the issuer's FSTAT (R43, R77). -/
def flag (f : Flags) : M Unit := modMe (fun x => x.raiseFlags f)

/-- Write an integer result: saturate or wrap at the type's width, then extend to 64 bits (R246). -/
def writeInt (ty : ITy) (sat : Bool) (d : Nat) (v : Int) : M Unit := do
  let (r, f) := fitInt (sgn ty) sat (wOf ty) v
  flag f
  writeScal d (BitVec.ofInt 64 r)

/-- Write a floating-point pattern, right-aligned (R247). -/
def writeF (d v : Nat) : M Unit := writeScal d (BitVec.ofNat 64 v)

/-- Round an exact result into a scalar format and write it (R247). -/
def writeRound (f : Fmt) (r : Rnd) (d : Nat) (x : FVal) (fl : Flags) : M Unit := do
  let s ← me
  let (v, f2) := roundF f s.ftz r .sat x
  flag (fl ||| f2)
  writeF d v

end Sys2Proof.Machine
end

