-- ==== Sys2Proof/Machine/Sync.lean ====
section
/-! DEFINITION. Sync slots: phasers, join counters, token queues (R129, R130, R186, R191, R192, R327 to R330), and the
stream state that a phase completion changes (R355). -/
namespace Sys2Proof.Machine

/-- Offset of a seat's part of the handler data area (R201). -/
def HRec.area (h : HRec) (k : Nat) : Nat := h.hdata + 0x40 + 128 * k

/-- Record an instruction that has finished in the saved thread of that number (R209, R328). -/
def State.finishSaved (s : State) (a : Agent) (d : Option (Nat × Word)) (p : Option (Nat × Bool)) : State :=
  let done (i : SavedImage) : SavedImage :=
    if i.core = a.core ∧ i.id = a.seat then
      let i1 := { i with fin := i.fin ++ [(a.strn, d, p)] }
      match a.strn with
      | .main => { i1 with main := .none } | .matrix => { i1 with mat := .none } | .copy => { i1 with cpy := .none }
    else i
  { s with vdevs := mapVals (fun _ (v : VDev) => { v with saved := v.saved.map done }) s.vdevs }

/-- Complete an instruction that another unit has finished: D and a predicate are written and the strand goes on. While
the seat's handler runs, what the handler has not issued belongs to a held strand, whose s56 to s63 and predicates lie in
the data area: their writes wait for the return from the handler (R201, R202). -/
def State.finish (s : State) (a : Agent) (d : Option (Nat × Word)) (p : Option (Nat × Bool)) : State :=
  let x := s.seat a.core a.seat
  let plain := s.modSeat a.core a.seat (fun x =>
    let x1 := match d with | some (n, v) => x.setReg n v | none => x
    let x2 := match p with | some (n, b) => x1.setP n b | none => x1
    (x2.modStrand a.strn (fun t => { t with blk := .none })).advance a.strn)
  if 4 ≤ a.seat then s.finishSaved a d p
  else match x.held with
  | some h =>
    if !a.hnd then
      let late := match d with | some (n, _) => decide (56 ≤ n) | none => false
      let now := if late then none else d
      let fin := (if late then d else none, p)
      s.modSeat a.core a.seat (fun x =>
        let x1 := match now with | some (n, v) => x.setReg n v | none => x
        let h1 := if fin = (none, none) then h else { h with fins := h.fins ++ [fin] }
        match a.strn with
        | .main =>
          let t : Strand := Strand.advance { pc := h.mpc, rep := h.mrep }
          { x1 with held := some { h1 with mpc := t.pc, mrep := t.rep, mblk := .none } }
        | k => { x1 with held := some h1 }.modStrand k (fun t => ({ t with blk := .none } : Strand).advance))
    else plain
  | none => plain

/-- The strand that waits. -/
def Waiter.agent (w : Waiter) : Agent := ⟨w.core, w.seat, w.strn, w.hnd⟩

/-- Anonymous parties of a phaser (R329). -/
def Slot.anon (l : Slot) : Nat := l.nreg - l.members.length
/-- Anonymous arrivals of the current phase (R329). -/
def Slot.aa (l : Slot) : Nat := l.narr - (l.members.filter (fun m => m.arr)).length
/-- The thread is a member. -/
def Slot.member? (l : Slot) (c k : Nat) : Option Member := l.members.find? (fun m => m.core == c && m.seat == k)

/-- Sync slot y of a core. -/
def State.slot (s : State) (c y : Nat) : Option Slot := mapFind y (s.core c).slots
/-- Write a sync slot. -/
def State.setSlot (s : State) (c y : Nat) (l : Slot) : State :=
  s.modCore c (fun x => { x with slots := mapPut y l x.slots })

/-! ### Streams and their slot -/

/-- Target core and slot of a stream (R351). -/
def Stream.target (x : Stream) : Nat × Nat := (x.cfg.toNat % 2 ^ 14, x.cfg.toNat / 2 ^ 16 % 2 ^ 8)
/-- The stream is open or ended. -/
def Stream.alive (x : Stream) : Bool := x.st == .opened || x.st == .ended
/-- The stream becomes FREE; BATCH keeps its value (R356). -/
def Stream.freed (x : Stream) : Stream :=
  { x with st := .free, pendC := [], store := [], remain := 0, infl := false, arr := false }
/-- Streams, by identifier. -/
def streamIds : List Nat := upto 64

/-- The slot has been freed: its streams go to ERROR (R355). -/
def State.streamsErr (s : State) (c y : Nat) : State :=
  { s with streams := s.streams.map (fun (i, x) =>
      if x.alive && x.target == (c, y) then (i, { x with st := .error, pendC := [], arr := false }) else (i, x)) }

/-- One party fewer, as PHDROP with n = 1 (R355). -/
def State.dropParty (s : State) (c y : Nat) : State :=
  match s.slot c y with
  | some l => s.setSlot c y { l with nreg := l.nreg - 1 }
  | none => s

/-- A phase in which the Escapement's arrivals counted has completed (R355). -/
def State.streamsDone (s : State) (c y : Nat) : State :=
  (s.streams.filter (fun (_, x) => x.arr && x.target == (c, y))).foldl
    (fun s (i, x) =>
      if x.st == .ended && x.pendC.isEmpty then (s.setStream i x.freed).dropParty c y
      else s.setStream i { x with infl := false, arr := false })
    s

/-! ### Arrivals and completion -/

/-- Perform an arrival, or hold it for the next phase (R329). Completion is the caller's. -/
def State.arrive (s : State) (c y : Nat) (a : HeldArr) : State :=
  match s.slot c y with
  | none => s
  | some l =>
    match a with
    | .thread tc tk st hd next =>
      let m := l.member? tc tk
      let hold := match m with | some m => m.arr | none => decide (l.anon ≤ l.aa)
      if hold then s.setSlot c y { l with held := l.held ++ [a] }
      else
        let l1 := { l with
          narr := l.narr + 1
          members := l.members.map (fun m => if m.core = tc ∧ m.seat = tk then { m with arr := true } else m) }
        if next then
          s.setSlot c y { l1 with waiters := l1.waiters ++ [⟨tc, tk, st, hd, .phase l.phase⟩] }
        else (s.setSlot c y l1).finish ⟨tc, tk, st, hd⟩ none none
    | .stream i =>
      if decide (l.anon ≤ l.aa) then s.setSlot c y { l with held := l.held ++ [a] }
      else (s.setSlot c y { l with narr := l.narr + 1 }).setStream i { s.stream i with arr := true }

/-- Complete the phase where NARR = NREG ≥ 1, then perform the held arrivals, which may complete the next (R191). -/
def State.completeF : Nat → State → Nat → Nat → State
  | 0, s, _, _ => s
  | f + 1, s, c, y =>
    match s.slot c y with
    | none => s
    | some l =>
      if l.kind ≠ .ph ∨ l.nreg = 0 ∨ l.narr ≠ l.nreg then s
      else
        let ph := (l.phase + 1) % 2 ^ 32
        let out (w : Waiter) : Bool := match w.kind with | .phase old => old != ph | _ => false
        let l1 := { l with phase := ph, narr := 0, members := l.members.map (fun m => { m with arr := false })
                           waiters := l.waiters.filter (fun w => !out w), held := [] }
        let s1 := (s.setSlot c y l1).streamsDone c y
        let s2 := (l.waiters.filter out).foldl
          (fun s w => s.finish w.agent none none) s1
        let s3 := l.held.foldl (fun s a => s.arrive c y a) s2
        State.completeF f s3 c y

/-- Complete a phaser's phase where it is due (R191). -/
def State.complete (s : State) (c y : Nat) : State :=
  match s.slot c y with
  | none => s
  | some l => s.completeF (l.held.length + 2) c y

/-- A thread leaves a phaser (R27, R191). -/
def State.leaveSlot (s : State) (c y tc tk : Nat) : State :=
  match s.slot c y with
  | none => s
  | some l =>
    match l.member? tc tk with
    | none => s
    | some m =>
      (s.setSlot c y { l with nreg := l.nreg - 1, narr := l.narr - m.arr.toNat
                              members := l.members.filter (fun m => !(m.core == tc && m.seat == tk)) }).complete c y

/-- Slots, by core and number, of which the thread is a member. -/
def State.groupsOf (s : State) (tc tk : Nat) : List (Nat × Nat) :=
  s.cores.flatMap (fun (c, x) => (x.slots.filter (fun (_, l) => (l.member? tc tk).isSome)).map (fun (y, _) => (c, y)))

/-- A thread that ends leaves every group and phaser (R27, R251). -/
def State.leaveAll (s : State) (tc tk : Nat) : State :=
  (s.groupsOf tc tk).foldl (fun s (c, y) => s.leaveSlot c y tc tk) s

/-- Name the thread on a seat by another number in every sync slot. -/
def State.renameThread (s : State) (tc k n : Nat) : State :=
  let mem (m : Member) : Member := if m.core = tc ∧ m.seat = k then { m with seat := n } else m
  let wtr (w : Waiter) : Waiter := if w.core = tc ∧ w.seat = k then { w with seat := n } else w
  let hld (a : HeldArr) : HeldArr := match a with
    | .thread c j st hd nx => if c = tc ∧ j = k then .thread c n st hd nx else a
    | .stream i => .stream i
  let slt (l : Slot) : Slot :=
    { l with members := l.members.map mem, waiters := l.waiters.map wtr, held := l.held.map hld }
  s.modCores (fun _ x => { x with slots := mapVals (fun _ l => slt l) x.slots })

/-- Withdraw what the strands of a seat wait for: waits and held arrivals at slots, slot instructions and translations
on their way. Arrivals that have counted stay (R328). -/
def State.dropWaits (s : State) (tc tk : Nat) : State :=
  let mine (c k : Nat) : Bool := c == tc && k == tk
  { s with
    cores := s.cores.map (fun (c, x) => (c, { x with slots := x.slots.map (fun (y, l) =>
      (y, { l with waiters := l.waiters.filter (fun w => !mine w.core w.seat)
                   held := l.held.filter (fun a => match a with | .thread c k _ _ _ => !mine c k | .stream _ => true) })) }))
    slotReqs := s.slotReqs.filter (fun r => !mine r.core r.seat)
    walks := s.walks.filter (fun w => !mine w.core w.seat)
    logs := s.logs.filter (fun r => !mine r.core r.seat) }

/-! ### Slot instructions at their sync unit -/

/-- Take the oldest place for the longest-waiting instruction of a kind (R130). -/
def State.serveTq (s : State) (c y : Nat) (acq : Bool) : State :=
  match s.slot c y with
  | none => s
  | some l =>
    let isW (w : Waiter) : Bool := match w.kind with | .acq _ => acq | .take _ => !acq | _ => false
    match l.waiters.find? isW, (if acq then l.freeL else l.postL) with
    | some w, p :: rest =>
      let d := match w.kind with | .acq d => d | .take d => d | _ => 0
      let l1 := { l with waiters := l.waiters.erase w, places := l.places.set p (if acq then .resv else .taken) }
      let l2 := if acq then { l1 with freeL := rest } else { l1 with postL := rest }
      (s.setSlot c y l2).finish w.agent (some (d, BitVec.ofNat 64 p)) none
    | _, _ => s

/-- Perform a slot instruction of a strand at slot y of core c. Answers EVAL of a SYNCSTATE, or the state in which the
instruction has completed or waits at the slot (R327 to R330). -/
def State.slotDo (s : State) (a : Agent) (c y : Nat) (op : SlotOp) : Except Nat State :=
  match s.slot c y with
  | none => .error (match op with | .tqpost p => p.toNat | .tqrel p => p.toNat | _ => y)
  | some l =>
    let done (s : State) : State := s.finish a none none
    let wait (l : Slot) (k : WaitKind) : State :=
      s.setSlot c y { l with waiters := l.waiters ++ [⟨a.core, a.seat, a.strn, a.hnd, k⟩] }
    let m := l.member? a.core a.seat
    match op with
    | .phreg n =>
      if l.kind ≠ .ph ∨ 65535 < l.nreg + n then .error y
      else .ok ((done (s.setSlot c y { l with nreg := l.nreg + n })).complete c y)
    | .phdrop n =>
      if l.kind ≠ .ph ∨ l.anon - l.aa < n then .error y
      else .ok ((done (s.setSlot c y { l with nreg := l.nreg - n })).complete c y)
    | .phsig =>
      if l.kind ≠ .ph ∨ (m.isNone ∧ l.anon = 0) then .error y
      else .ok ((s.arrive c y (.thread a.core a.seat a.strn a.hnd false)).complete c y)
    | .phnext =>
      if l.kind ≠ .ph ∨ (m.isNone ∧ l.anon = 0) then .error y
      else .ok ((s.arrive c y (.thread a.core a.seat a.strn a.hnd true)).complete c y)
    | .phwait v =>
      if l.kind ≠ .ph then .error y
      else if l.phase ≠ v.toNat % 2 ^ 32 then .ok (done s) else .ok (wait l (.phase l.phase))
    | .phwaitMem =>
      match m with
      | none => .error y
      | some m => if l.kind ≠ .ph then .error y else if m.arr then .ok (wait l (.phase l.phase)) else .ok (done s)
    | .phwaitJoin =>
      if l.kind ≠ .join then .error y else if l.jcount = 0 then .ok (done s) else .ok (wait l .join)
    | .tqacq d =>
      if l.kind ≠ .tq then .error y else .ok ((wait l (.acq d)).serveTq c y true)
    | .tqtake d =>
      if l.kind ≠ .tq then .error y else .ok ((wait l (.take d)).serveTq c y false)
    | .tqpost p =>
      if l.kind ≠ .tq ∨ (l.places[p.toNat]?) ≠ some .resv then .error p.toNat
      else .ok ((done (s.setSlot c y { l with places := l.places.set p.toNat .posted, postL := l.postL ++ [p.toNat] })).serveTq
        c y false)
    | .tqrel p =>
      if l.kind ≠ .tq ∨ (l.places[p.toNat]?) ≠ some .taken then .error p.toNat
      else .ok ((done (s.setSlot c y { l with places := l.places.set p.toNat .free, freeL := l.freeL ++ [p.toNat] })).serveTq
        c y true)
    | .join =>
      if l.kind ≠ .ph ∨ m.isSome ∨ 8 ≤ (s.groupsOf a.core a.seat).length ∨ 32 ≤ l.members.length ∨ 65535 < l.nreg + 1
      then .error y
      else .ok ((done (s.setSlot c y { l with nreg := l.nreg + 1
                                              members := l.members ++ [⟨a.core, a.seat, false⟩] })).complete c y)
    | .leave =>
      if l.kind ≠ .ph ∨ m.isNone then .error y else .ok ((done s).leaveSlot c y a.core a.seat)
    | .tdone =>
      if l.kind ≠ .join ∨ l.jcount = 0 then .error y
      else
        let l1 := { l with jcount := l.jcount - 1 }
        if l1.jcount = 0 then
          let (out, keep) := l1.waiters.partition (fun w => w.kind == .join)
          .ok (out.foldl (fun s w => s.finish w.agent none none)
            (done (s.setSlot c y { l1 with waiters := keep })))
        else .ok (done (s.setSlot c y l1))

/-- Free a slot (R328): its streams fail; answers the strands that waited at it. -/
def State.freeSlot (s : State) (c y : Nat) : List Agent × State :=
  match s.slot c y with
  | none => ([], s)
  | some l =>
    let ws := l.waiters.map (fun w => w.agent)
    let hs := l.held.filterMap (fun a => match a with
      | .thread c k st hd _ => some (⟨c, k, st, hd⟩ : Agent)
      | .stream _ => none)
    (ws ++ hs, (s.modCore c (fun x => { x with slots := mapDel y x.slots })).streamsErr c y)

/-- The Escapement's party is removed from a slot that is still a phaser (R356). -/
def State.removeParty (s : State) (i : Nat) : State :=
  let x := s.stream i
  let (c, y) := x.target
  match s.slot c y with
  | none => s
  | some l =>
    if l.kind ≠ .ph then s
    else (s.setSlot c y { l with nreg := l.nreg - 1, narr := l.narr - x.arr.toNat
                                 held := l.held.filter (fun a => a != .stream i) }).complete c y

/-- A stream becomes FREE at launch completion or a queue kill (R356). -/
def State.freeStream (s : State) (i : Nat) : State :=
  let x := s.stream i
  let s1 := if x.alive then s.removeParty i else s
  s1.setStream i (s1.stream i).freed

/-- Entries of a core's token store in use (R129). -/
def Core.tokens (x : Core) : Nat := x.slots.foldl (fun n (_, l) => n + l.cap) 0

end Sys2Proof.Machine
end

