-- ==== Sys2Proof/Machine/View.lean ====
section
/-! DEFINITION. Tile views: descriptor images and limits (R65 to R67), where elements lie (R44, R45, R289), and reading and
writing element bits in local memory (R68, R91, R92, R270). -/
namespace Sys2Proof.Machine

/-! ### Descriptors -/

/-- The 128-bit image (R65). -/
def View.image (v : View) : Nat :=
  v.defd.toNat * 2 ^ 80 + v.fe.toNat * 2 ^ 79 + v.prog * 2 ^ 74 + v.vcols * 2 ^ 66 + v.vrows * 2 ^ 58 + v.layout * 2 ^ 56
    + v.fmt * 2 ^ 50 + v.colsm1 * 2 ^ 43 + v.rowsm1 * 2 ^ 36 + v.pitch * 2 ^ 18 + v.base

/-- A view from its image; an empty view reads as empty whatever its other bits hold (R67, R275). -/
def View.ofImage (n : Nat) : View :=
  if bitAt n 80 then
    { defd := true, fe := bitAt n 79, prog := bitsAt n 74 5, vcols := bitsAt n 66 8, vrows := bitsAt n 58 8,
      layout := bitsAt n 56 2, fmt := bitsAt n 50 6, colsm1 := bitsAt n 43 7, rowsm1 := bitsAt n 36 7,
      pitch := bitsAt n 18 18, base := bitsAt n 0 18 }
  else {}

def View.rows (v : View) : Nat := v.rowsm1 + 1
def View.cols (v : View) : Nat := v.colsm1 + 1
/-- Format of a view, FP64 where the code is unassigned. -/
def View.fm (v : View) : Fmt := (Fmt.ofCode v.fmt).getD .fp64
/-- Bytes of row header (R45, R289). -/
def View.hdr (v : View) : Nat := if isBlock v.fm then 16 else 0
/-- Lines: columns in column-major layout, rows otherwise. -/
def View.nlines (v : View) : Nat := if v.layout = 1 then v.cols else v.rows
/-- Elements of a line. -/
def View.nelems (v : View) : Nat := if v.layout = 1 then v.rows else v.cols
/-- Elements per storage group: FP6 four, 4-bit formats two (R44). -/
def grain (f : Fmt) : Nat := if fmtWidth f = 6 then 4 else if fmtWidth f = 4 then 2 else 1
/-- Bytes of a packed run of elements (R44). -/
def packLen (f : Fmt) (n : Nat) : Nat := (n + grain f - 1) / grain f * grain f * fmtWidth f / 8
/-- Line length (R66, R289). -/
def View.lineLen (v : View) : Nat :=
  if v.layout = 2 then v.hdr + 16 * fmtWidth v.fm else v.hdr + packLen v.fm v.nelems
/-- Bytes from the first to the last of the view. -/
def View.extent (v : View) : Nat := v.pitch * (v.nlines - 1) + v.lineLen

/-- The limits of R66, R45 and R289. -/
def View.ok (v : View) : Bool :=
  (Fmt.ofCode v.fmt).isSome && decide (v.layout < 3) && v.base % 16 == 0 && v.pitch % 16 == 0 &&
    decide (v.lineLen ≤ v.pitch) && decide (v.base + v.extent ≤ 262144) && decide (v.vrows ≤ v.rows) &&
    decide (v.vcols ≤ v.cols) && decide (v.prog ≤ (v.rows + 7) / 8) &&
    (!isBlock v.fm || v.nelems % 32 == 0)

/-- A view whose lines and block formats a tile instruction accepts: row-major or column-major, no block (R268). -/
def View.plain (v : View) : Bool := decide (v.layout < 2) && !isBlock v.fm

/-! ### Places -/

/-- First bit of element (i, j) of a row-major or column-major view, counted from the start of local memory. -/
def View.bitPos (v : View) (i j : Nat) : Nat :=
  let l := if v.layout = 1 then j else i
  let p := if v.layout = 1 then i else j
  8 * (v.base + v.pitch * l + v.hdr) + p * fmtWidth v.fm

/-- A run of bits of local memory: first bit and length. -/
structure Run where
  at_ : Nat
  len : Nat
  deriving DecidableEq, Repr, Inhabited

def Run.off (r : Run) : Nat := r.at_ / 8
def Run.bytes (r : Run) : Nat := if r.len = 0 then 0 else (r.at_ + r.len + 7) / 8 - r.at_ / 8

/-- The run of one element. -/
def View.elem (v : View) (i j : Nat) : Run := ⟨v.bitPos i j, fmtWidth v.fm⟩

/-- Runs of the elements in rows [r0, r1) and columns [0, n) of a row-major or column-major view. -/
def View.runs (v : View) (r0 r1 n : Nat) : List Run :=
  if n = 0 ∨ r1 ≤ r0 then []
  else if v.layout = 1 then (upto n).map (fun j => ⟨v.bitPos r0 j, (r1 - r0) * fmtWidth v.fm⟩)
  else (List.range' r0 (r1 - r0)).map (fun i => ⟨v.bitPos i 0, n * fmtWidth v.fm⟩)

/-- Padding bits after the last element of a line (R44). -/
def View.padBits (v : View) : Nat := 8 * packLen v.fm v.nelems - v.nelems * fmtWidth v.fm

/-- Positions of a line that share the last storage group: a write there writes the padding as zero (R44, R68). -/
def View.inLast (v : View) (p : Nat) : Bool := v.padBits != 0 && p / grain v.fm == (v.nelems - 1) / grain v.fm

/-- The padding of line l. -/
def View.padRun (v : View) (l : Nat) : Run :=
  ⟨8 * (v.base + v.pitch * l + v.hdr) + v.nelems * fmtWidth v.fm, v.padBits⟩

/-- Padding written where rows [r0, r1) and columns [0, n) are written (R44). -/
def View.padRuns (v : View) (r0 r1 n : Nat) : List Run :=
  if n = 0 ∨ r1 ≤ r0 then []
  else if v.layout = 1 then (if v.inLast (r1 - 1) then (upto n).map v.padRun else [])
  else if v.inLast (n - 1) then (List.range' r0 (r1 - r0)).map v.padRun else []

/-- Runs written where rows [r0, r1) and columns [0, n) are written. -/
def View.runsW (v : View) (r0 r1 n : Nat) : List Run := v.runs r0 r1 n ++ v.padRuns r0 r1 n

/-- A whole line's bytes, as a bit-plane view is checked (R289). -/
def View.lineRun (v : View) (i : Nat) : Run := ⟨8 * (v.base + v.pitch * i), 8 * v.lineLen⟩

/-! ### Reading and writing bits -/

/-- Bits of local memory. -/
def State.bits (s : State) (c : Nat) (r : Run) : Nat :=
  bitsAt (s.locNum c r.off r.bytes) (r.at_ % 8) r.len

/-- Write bits of local memory; the other bits of the bytes at its ends stay (R68). -/
def State.setBits (s : State) (c : Nat) (r : Run) (v : Nat) : State :=
  if r.len = 0 then s
  else
    let old := s.locNum c r.off r.bytes
    let lo := r.at_ % 8
    let new := old % 2 ^ lo + (v % 2 ^ r.len) * 2 ^ lo + old / 2 ^ (lo + r.len) * 2 ^ (lo + r.len)
    s.locWrite c r.off (leBytes new r.bytes)

/-- Local offset of a word with an uncorrectable error among those a run touches (R91). -/
def State.runBad (s : State) (c : Nat) (r : Run) : Option Nat :=
  (s.locBad c r.off r.bytes).map (fun i => r.off + i)

/-- Runs of a core's local memory as places. -/
def fragsAt (c : Nat) (rs : List Run) : List Frag := rs.map (fun r => ⟨.bank c, r.at_, r.len⟩)

/-- The same for writes: only words that they together cover in part are read (R92). -/
def State.partBadAt (s : State) (c : Nat) (rs : List Run) : Option Nat :=
  if s.lpoison.isEmpty then none
  else
    let fs := fragsAt c rs
    let hit (f : Frag) : List Nat := (f.bad s).filter (fun i => !unitCovered fs 64 i)
    (fs.flatMap (fun f => (hit f).map (fun i => max f.at_ (64 * i - f.base) / 8))).min?

/-- Bits of one element, in any layout (R44, R289). -/
def State.elemBits (s : State) (c : Nat) (v : View) (i j : Nat) : Nat :=
  if v.layout = 2 then
    (upto (fmtWidth v.fm)).foldl (fun n b =>
      n + (s.locNum c (v.base + v.pitch * i + v.hdr + 16 * b + j / 8) 1 / 2 ^ (j % 8) % 2) * 2 ^ b) 0
  else s.bits c (v.elem i j)

/-- Write the bits of one element, in any layout. -/
def State.setElem (s : State) (c : Nat) (v : View) (i j x : Nat) : State :=
  if v.layout = 2 then
    (upto (fmtWidth v.fm)).foldl (fun s b =>
      s.setBits c ⟨8 * (v.base + v.pitch * i + v.hdr + 16 * b) + j, 1⟩ (x / 2 ^ b)) s
  else s.setBits c (v.elem i j) x

/-- Write an element, and zero in the padding where it shares the last group (R44, R68). -/
def State.putElem (s : State) (c : Nat) (v : View) (i j x : Nat) : State :=
  let (l, p) := if v.layout = 1 then (j, i) else (i, j)
  let t := s.setElem c v i j x
  if v.layout != 2 && v.inLast p then t.setBits c (v.padRun l) 0 else t

/-- Header byte k of line l. -/
def State.hdrByte (s : State) (c : Nat) (v : View) (l k : Nat) : Nat := s.locNum c (v.base + v.pitch * l + k) 1

/-- Header bytes of the block that holds position p of a line: first byte and count (R45). -/
def View.hdrAt (v : View) (p : Nat) : Nat × Nat := if isDXF v.fm then (2 * (p / 32), 2) else (p / 32, 1)

/-- Header runs of line l for its first n elements: the bytes of each block that holds one of them (R276, R302, R320). -/
def View.hdrRuns (v : View) (l n : Nat) : List Run :=
  (upto ((n + 31) / 32)).map (fun b => let (p, k) := v.hdrAt (32 * b); ⟨8 * (v.base + v.pitch * l + p), 8 * k⟩)

/-- The header bytes of line l that hold no block's scale or exponents: written as zero with the header (R45). -/
def View.hdrRest (v : View) (l : Nat) : Run :=
  let p := (v.hdrAt v.nelems).1
  ⟨8 * (v.base + v.pitch * l + p), 8 * (16 - p)⟩

/-- Zero the rest of a line's header (R45). -/
def State.zeroRest (s : State) (c : Nat) (v : View) (l : Nat) : State := s.setBits c (v.hdrRest l) 0

/-! ### Checks of a group -/

/-- First of the local bytes [lo, hi) that the accessor's window does not grant (R94). -/
def Who.winGap (w : Who) (c lo hi : Nat) (k : Right) : Option Nat :=
  match w.win with
  | none => some lo
  | some win =>
    if !rightsOk k win.wr win.ww || decide (coreVa c lo < win.base) || decide (win.base + win.size ≤ coreVa c lo) then some lo
    else if win.base + win.size < coreVa c hi then some (win.base + win.size - coreVa c 0)
    else none

/-- Lowest offset among the bytes of a run that the local region check refuses (R94). -/
def State.runDenied (s : State) (c : Nat) (w : Who) (k : Right) (st : Bool) (r : Run) : Option Nat :=
  if r.len = 0 then none
  else if !s.holdsCore w.vdev c then some r.off
  else
    (List.range' (r.off / 4096) ((r.off + r.bytes - 1) / 4096 - r.off / 4096 + 1)).findSome? (fun g =>
      let lo := max r.off (g * 4096)
      if granuleOk s c g w k st false then none
      else if granuleOk s c g w k st true then w.winGap c lo (min (r.off + r.bytes) (g * 4096 + 4096)) k
      else some lo)

/-- Smallest of the offsets found. -/
def leastOf (l : List (Option Nat)) : Option Nat :=
  l.foldl (fun m x => match m, x with
    | none, y => y
    | some a, some b => some (min a b)
    | some a, none => some a) none

/-- LOCALPERM of a tile operand: view number and lowest offset (R94). -/
def permTrap (n off : Nat) : Trap := { cause := .localperm, val := BitVec.ofNat 64 (n + off * 256) }

/-- The local region checks of some runs of view `n` (R94), a trap that keeps what earlier groups did. -/
def checkRuns (n : Nat) (k : Right) (rs : List Run) : M Unit := do
  let a ← look State.cur
  let x ← me
  let bad ← look (fun s => leastOf (rs.map (s.runDenied a.core x.who k (k == .w))))
  match bad with
  | some off => throw (.trapAt (permTrap n off))
  | none => pure ()

/-- Wait on the scoreboard for some runs (R97). Earlier groups stay done. -/
def waitRuns (rs : List Run) : M Unit := do
  let held ← look (fun s => rs.any (fun r => (s.myCore).heldRange r.off r.bytes none))
  if held then throw .waitAt else pure ()

/-- POISON of the words that are read, those among them that the writes `wr` cover only in part (R91, R92). -/
def goodRuns (rd wr : List Run) : M Unit := do
  let c ← look (fun s => s.cur.core)
  let bad ← look (fun s => leastOf (s.partBadAt c wr :: rd.map (s.runBad c)))
  match bad with
  | some off => throw (.trapAt (addrTrap .poison off))
  | none => pure ()

/-- Set PROG of a view. -/
def Seat.setProg (x : Seat) (n g : Nat) : Seat :=
  if (x.view n).defd then x.setView n { x.view n with prog := g } else x

end Sys2Proof.Machine
end

