-- ==== Sys2Proof/Machine/TileUnit.lean ====
section
/-! DEFINITION. The tile engine (R270, R271, R320): one seat's instruction at a time, its row groups cut into aligned
16-byte granules that are read and then written one by one, and the boundary at which it stops. -/
namespace Sys2Proof.Machine

/-! ### Who has the engine -/

/-- The issuer's instruction that occupies the tile engine, if it does. -/
def State.myTile (s : State) : Option TileRun :=
  s.myCore.tile.bind (fun r => if r.seat = s.cur.seat then some r else none)

/-- Wait while another seat's instruction occupies the engine (R271). -/
def tileFree : M Unit := do
  let free ← look (fun s => s.myCore.tile.isNone || s.myTile.isSome)
  waitFor free

/-- An instruction of the seat occupies the tile engine: nothing else of the seat issues (R271). -/
def Core.tiling (x : Core) (k : Nat) : Bool := match x.tile with | some r => r.seat == k | none => false

/-- Pause: the instruction keeps the engine, and goes on here in a later step. -/
def pauseTile {α : Type} (n : Nat) (fills : Bool) (g : Nat) (ph : TilePhase) : M α := do
  change (fun s => (s.modMyCore (fun x => { x with tile := some ⟨s.cur.seat, n, fills, g, ph⟩ })).modMe
    (fun x => if fills then x.setView n { x.view n with fe := false } else x))
  throw .waitAt

/-- The instruction leaves the engine; a view that it filled is full. -/
def State.freeTile (s : State) : State :=
  match s.myTile with
  | some r => (s.modMyCore (fun x => { x with tile := none })).modMe (fun x =>
      if r.fills then x.setView r.view { x.view r.view with fe := true } else x)
  | none => s

/-- A seat whose tile instruction stops at the boundary before group g: PROG says so, and the view that it was filling is
full again (R69, R70). -/
def Seat.leftTile (x : Seat) (r : TileRun) (g : Nat) : Seat :=
  let y := x.setProg r.view g
  { (if r.fills then y.setView r.view { y.view r.view with fe := true } else y) with resume := true }

/-- The instruction that a seat has on the tile engine stops at a row-group boundary: a group that has begun to write is
written to its end, one that has not is as if not begun (R199, R204, R270). -/
def State.settleTile (s : State) (c k : Nat) : State :=
  match (s.core c).tile with
  | none => s
  | some r =>
    if r.seat ≠ k then s
    else
      let (s1, g) := match r.phase with
        | .writes all todo => (todo.flatten.foldl (fun (t : State) (u : Loc × Nat) => t.writeUnit all u.1 u.2) s, r.group + 1)
        | _ => (s, r.group)
      s1.modCore c (fun x => { x.modSeat k (fun t => t.leftTile r g) with tile := none })

/-- Copies of the seat that have not issued give their scoreboard entries back (R98, R301). -/
def Core.unhold (x : Core) (k : Nat) : Core :=
  let t := vget x.ctxs k {}
  if t.held.isEmpty then x else { x with ctxs := vset x.ctxs k { t with held := [] } }

/-- The seat's store that waits for its comparison stands before it again: it has not been performed (R210). -/
def Core.unoffer (x : Core) (k : Nat) : Core :=
  if (x.seat k).main.blk = .comparing then
    { x.modSeat k (fun t => { t with main := { t.main with blk := .none } }) with pair := x.pair.map (fun p => { p with offer := none }) }
  else x

/-- What the strands of a seat have begun stops at a boundary: the instruction on the tile engine, the copies at issue, a
store that waits for its comparison. -/
def State.settle (s : State) (c k : Nat) : State := (s.settleTile c k).modCore c (fun x => (x.unhold k).unoffer k)

/-! ### What stops a seat at its next boundary -/

/-- A seat that a thread holds: none does while it is saved or restored (R83, R393). -/
def Seat.holds (x : Seat) : Bool := x.occ == .thread && x.seq == .none

/-- An unwinding thread issues only its cleanup; a thread with marks that no target has taken in issues nothing (R180,
R184). -/
def Seat.unwindOk (x : Seat) : Bool :=
  x.hnd ||
  match x.unw with
  | none => !x.marked
  | some u => u.run && (match x.frames with | f :: _ => !f.doom && f.bud != 0 | [] => false)

/-- The slice of a seat of the core is over: the core is pre-empted at its next boundary (R83, R203). -/
def State.sliceOver (s : State) (c : Nat) : Bool :=
  let x := s.core c
  (upto 4).any (fun k => let t := x.seat k; t.holds && !t.hnd && t.cyc == 0 && !(s.quota t.vdev).fixed)

/-- The seat takes no further instruction at its boundary: its core is pre-empted, a slice is over, its thread is to be
retired or unwound. A handler goes on (R83, R180, R203, R204). -/
def State.stops (s : State) (c k : Nat) : Bool :=
  let x := s.core c
  let t := x.seat k
  !t.hnd && (x.pre.isSome || t.ending || !t.unwindOk || s.sliceOver c)

/-- The boundary before group g: a seat that stops goes no further (R204, R270). -/
def boundary (n : Nat) (fills : Bool) (g : Nat) : M Unit := do
  let a ← look State.cur
  let stop ← look (fun s => s.stops a.core a.seat)
  if stop then pauseTile n fills g .start else pure ()

/-! ### One group, granule by granule -/

/-- A row group that has been checked: what its granules are worth once they are read, and the granules then written. -/
structure Group where
  pause  : TilePhase → M Unit
  can    : State → Bool → Loc → Bool
  bad    : Loc → Trap
  again  : State → Except Trap (List Loc)     -- what is read, once the values read so far are known
  act    : State → State
  writes : State → List (List Loc)

/-- The granule that comes first, by the choice that stands next. -/
def pick (ch : Option (List Nat)) (n : Nat) : Nat := match ch with | some (i :: _) => i % n | _ => 0

/-- Read granules (R270 step 3), with fuel: what has been read, and the choices left. -/
def Group.readAll (p : Group) : Nat → List Loc → List (Loc × Nat) → Option (List Nat) → M (List (Loc × Nat) × Option (List Nat))
  | 0, _, got, ch => pure (got, ch)
  | n + 1, todo, got, ch =>
    match todo with
    | [] => pure (got, ch)
    | u0 :: _ => do
      if ch = some [] then p.pause (.reads todo got) else pure ()
      let i := pick ch todo.length
      let u := (todo[i]?).getD u0
      let ok ← look (fun s => p.can s false u)
      if !ok then p.pause (.reads todo got) else pure ()
      let bad ← look (fun s => u.any (fun f => !(f.bad s).isEmpty))
      if bad then throw (.trapAt (p.bad u)) else pure ()
      let v ← look (fun s => Loc.read s u)
      p.readAll n (todo.eraseIdx i) ((u, v) :: got) (ch.map (fun l => l.drop 1))

/-- The memories of one state with the rest of another. -/
def State.memoryOf (s t : State) : State :=
  { s with lmem := t.lmem, dram := t.dram, host := t.host, fabric := t.fabric, lpoison := t.lpoison, dpoison := t.dpoison, hpoison := t.hpoison
           fpoison := t.fpoison }

/-- The state as the values that have been read show it. -/
def State.taken (s : State) (got : List (Loc × Nat)) : State := got.foldl (fun t u => Loc.write t u.2 u.1) s

/-- Compute from what has been read: flags and AMAX are set, and the values of the granules to be written stand (R270
step 4). -/
def Group.compute (p : Group) (got : List (Loc × Nat)) : M (List (List (Loc × Nat))) := fun s =>
  let s1 := p.act (s.taken got)
  .ok ((p.writes s).map (fun us => us.map (fun u => (u, Loc.read s1 u)))) (s1.memoryOf s)

/-- Write granules (R270 step 5), with fuel: the choices left. -/
def Group.writeAll (p : Group) (all : List Frag) : Nat → List (List (Loc × Nat)) → Option (List Nat) → M (Option (List Nat))
  | 0, _, ch => pure ch
  | n + 1, todo, ch =>
    match todo with
    | [] => pure ch
    | [] :: ss => p.writeAll all n ss ch
    | (e0 :: es) :: ss => do
      let st := e0 :: es
      if ch = some [] then p.pause (.writes all todo) else pure ()
      let i := pick ch st.length
      let e := (st[i]?).getD e0
      let ok ← look (fun s => p.can s true e.1)
      if !ok then p.pause (.writes all todo) else pure ()
      change (fun s => s.writeUnit all e.1 e.2)
      p.writeAll all n (st.eraseIdx i :: ss) (ch.map (fun l => l.drop 1))

/-- Carry a group on from a phase to its end. -/
def Group.run (p : Group) (ph : TilePhase) (ch : Option (List Nat)) : M (Option (List Nat)) :=
  match ph with
  | .start => pure ch
  | .reads todo got => do
    let (got, ch) ← p.readAll todo.length todo got ch
    let more ← (do let e ← look (fun s => p.again (s.taken got)); match e with | .ok us => pure us | .error t => throw (.trapAt t))
    let todo := more.filter (fun u => !got.any (fun e => e.1 == u))
    let (got, ch) ← p.readAll todo.length todo got ch
    let outs ← p.compute got
    p.writeAll (outs.flatten.flatMap (fun e => e.1)) (outs.flatten.length + outs.length) outs ch
  | .writes all todo => p.writeAll all (todo.flatten.length + todo.length) todo ch

end Sys2Proof.Machine
end

