-- ==== Sys2Proof/Machine/Thread.lean ====
section
/-! DEFINITION. Threads: the words of the seat system registers (R75 to R87), domain-stack frames and their spill slots
(R171, R172), creation and end of a thread (R74, R189, R251), cancellation of engine operations (R179, R183), teardown
of a virtual device (R213). -/
namespace Sys2Proof.Machine

/-! ### Register words -/

/-- PC and EPC as a word (R78). -/
def Pc.word (p : Pc) : Nat := p.seg * 2 ^ 32 + p.idx
def Pc.ofWord (n : Nat) : Pc := ⟨bitsAt n 32 13, bitsAt n 0 32⟩
/-- REPC as a word (R80). Read back, COUNT is at most 64, DONE is 0 without a repeat and COUNT + DONE at most 64 (log 97). -/
def Rep.word (r : Rep) : Nat := r.bstr * 2 ^ 18 + r.astr * 2 ^ 16 + r.dstr * 2 ^ 14 + r.done * 2 ^ 7 + r.count
def Rep.ofWord (n : Nat) : Rep :=
  let c := min 64 (bitsAt n 0 7)
  { count := c, done := if c = 0 then 0 else min (64 - c) (bitsAt n 7 7), dstr := bitsAt n 14 2, astr := bitsAt n 16 2, bstr := bitsAt n 18 2 }
/-- STATUS.LEVEL (R76). -/
def levelOf (vd dom : Nat) : Nat := if dom ≠ 0 then 0 else if vd = 0 then 2 else 1
/-- STATUS (R76). On a seat that has no thread LEVEL reads as after reset (R75). -/
def Core.status (x : Core) (k : Nat) : Nat :=
  let t := x.seat k
  (t.pred.toNat / 2 * 2 + 1) + t.ftz.toNat * 2 ^ 8 + t.rsm.toNat * 2 ^ 9 + (if t.occ = .free then 0 else levelOf t.vdev t.curdom) * 2 ^ 10
    + t.hnd.toNat * 2 ^ 12 + (x.mat.holder == some k).toNat * 2 ^ 13 + t.mat.live.toNat * 2 ^ 14
    + t.cpy.live.toNat * 2 ^ 15 + t.gang.toNat * 2 ^ 16 + t.lead.toNat * 2 ^ 17
    + (match x.pair with | some p => p.on.toNat | none => 0) * 2 ^ 18
/-- STATUS.PRED and STATUS.FTZ from a STATUS word; p0 stays 1 (R73, R76). -/
def Seat.setFlags (x : Seat) (w : Nat) : Seat :=
  { x with pred := BitVec.ofNat 8 (bitsAt w 0 8) ||| 1, ftz := bitAt w 8 }
/-- DOM (R81). -/
def Seat.domWord (x : Seat) : Nat := x.basedom * 2 ^ 32 + x.vdev * 2 ^ 16 + x.curdom
/-- DSP (R81). -/
def Seat.dspWord (x : Seat) : Nat := x.limit * 2 ^ 20 + x.frames.length * 2 ^ 7 + x.depth
/-- LAUNCH (R83). -/
def Seat.launchWord (x : Seat) : Nat := x.queue * 2 ^ 32 + x.lid

/-! ### Frames -/

/-- A number among bytes, least significant first. -/
def numAt (bs : List Byte) (off n : Nat) : Nat := leNat ((bs.drop off).take n)
/-- Zero bytes. -/
def zeros (n : Nat) : List Byte := List.replicate n 0

/-- A window descriptor's two words (R174). -/
def Window.words (w : Window) : Nat × Nat :=
  (w.base + w.wr.toNat * 2 ^ 57 + w.ww.toNat * 2 ^ 58, w.size + w.dom * 2 ^ 32)
/-- A window from its two words (R174). -/
def Window.ofWords (a b : Nat) : Window :=
  { base := bitsAt a 0 57, wr := bitAt a 57, ww := bitAt a 58, size := bitsAt b 0 21, dom := bitsAt b 32 16 }

/-- FLAGS of a frame (R171). -/
def Frame.flags (f : Frame) : Nat :=
  f.doom.toNat + f.rsn.toNat * 2 + f.bdoom.toNat * 4 + f.brsn.toNat * 8 + f.cln.toNat * 16

/-- The 1,472 bytes of a frame (R171). -/
def Frame.bytes (f : Frame) : List Byte :=
  leBytes f.retpc.word 8 ++ leBytes f.handle.toNat 4 ++ leBytes f.caller 2 ++ leBytes f.callee 2
    ++ leBytes f.cstat.toNat 4 ++ leBytes f.csegb 2 ++ leBytes f.gsegb 2 ++ leBytes f.clean 4 ++ leBytes f.gcseg 2
    ++ leBytes f.flags 1 ++ leBytes f.ceil 1 ++ leBytes f.bud 4 ++ zeros 4 ++ leBytes f.win.words.1 8
    ++ leBytes f.win.words.2 8 ++ zeros 8 ++ f.ssave.flatMap (fun v => leBytes v.toNat 8)
    ++ f.tsave.flatMap (fun v => leBytes v.image 16)

/-- A frame from its bytes (R171). -/
def Frame.ofBytes (b : List Byte) : Frame :=
  let fl := numAt b 0x1E 1
  { retpc := Pc.ofWord (numAt b 0 8), handle := BitVec.ofNat 32 (numAt b 8 4), caller := numAt b 0xC 2,
    callee := numAt b 0xE 2, cstat := BitVec.ofNat 32 (numAt b 0x10 4), csegb := numAt b 0x14 2, gsegb := numAt b 0x16 2,
    clean := numAt b 0x18 4, gcseg := bitsAt (numAt b 0x1C 2) 0 13, doom := bitAt fl 0, rsn := bitAt fl 1,
    bdoom := bitAt fl 2, brsn := bitAt fl 3, cln := bitAt fl 4, ceil := numAt b 0x1F 1, bud := numAt b 0x20 4,
    win := Window.ofWords (numAt b 0x28 8) (numAt b 0x30 8),
    ssave := (upto 56).map (fun i => BitVec.ofNat 64 (numAt b (0x40 + 8 * i) 8)),
    tsave := (upto 60).map (fun i => View.ofImage (numAt b (0x200 + 16 * i) 16)) }

/-- Address of the spill slot of frame k (R172, R205). -/
def Seat.spill (x : Seat) (k : Nat) : Nat := x.image + 0x1B00 + 1472 * (k - 1)
/-- The accessor of a thread's save area: the thread's base domain (R205). -/
def Seat.saver (x : Seat) : Who := { vdev := x.vdev, dom := x.basedom, win := none, seq := true }
/-- The accessor of a saved image. -/
def SavedImage.saver (i : SavedImage) (vd : Nat) : Who := { vdev := vd, dom := i.dom, win := none, seq := true }

/-- The address that a memory trap names. -/
def Trap.addr (t : Trap) : Nat := if t.cause = .pagefault then t.val.toNat % 2 ^ 57 else t.val.toNat

/-- A fault on a save-area access is a SAVEFAULT with the faulting address (R172, R206). -/
def asSave {α : Type} (m : M α) : M α := fun s =>
  match m s with
  | .error (.trap t) s' => .error (.trap { cause := .savefault, val := BitVec.ofNat 64 t.addr }) s'
  | r => r

/-- Push a frame; a ninth hardware frame sends the outermost to its slot (R172). -/
def pushFrame (f : Frame) : M Unit := do
  let x ← me
  let c ← look (fun s => s.cur.core)
  match x.frames[7]? with
  | some o => asSave (unitWrite (some c) x.saver (x.spill (x.depth - 7)) o.bytes)
  | none => pure ()
  modMe (fun x => { x with depth := x.depth + 1, frames := f :: x.frames.take 7 })

/-- Frame k of the issuer's stack: in hardware, or read from its slot (R172). -/
def readFrame (k : Nat) : M Frame := do
  let x ← me
  let c ← look (fun s => s.cur.core)
  match x.frames[x.depth - k]? with
  | some f => pure f
  | none => do
    let b ← asSave (unitRead (some c) x.saver (x.spill k) 1472)
    pure (Frame.ofBytes b)

/-- Drop the innermost frame, with the fill of R172. -/
def dropFrame : M Unit := do
  let x ← me
  let rest := x.frames.drop 1
  let d := x.depth - 1
  if rest.isEmpty && d ≠ 0 then do
    let c ← look (fun s => s.cur.core)
    let b ← asSave (unitRead (some c) x.saver (x.spill d) 1472)
    modMe (fun x => { x with depth := d, frames := [Frame.ofBytes b] })
  else modMe (fun x => { x with depth := d, frames := rest })

/-- Frames that a save area holds (R173). -/
def limitOf (savesz : Nat) : Nat := min 64 ((64 * savesz - 6912) / 1472)

/-! ### Gate table of a virtual device (R152) -/

/-- Device physical address of a gate entry, in virtual device 0. -/
def State.gateAddr (s : State) (vd i : Nat) : Nat := (s.quota vd).gbase + 64 * i
/-- A field of a gate entry. -/
def State.gateNum (s : State) (vd i off n : Nat) : Nat := s.devNum 0 (s.gateAddr vd i + off) n
/-- The gate is posted (R152). -/
def State.posted (s : State) (vd i : Nat) : Bool := bitAt (s.gateNum vd i 0 2) 12
/-- Retract a gate (R154). -/
def State.retract (s : State) (vd i : Nat) : State :=
  let g := s.gateNum vd i 0 2
  let gen := bitsAt g 0 12
  let new := if gen = 0xFFF then 0xFFF + 2 ^ 13 else gen + 1 + (bitAt g 13).toNat * 2 ^ 13
  s.devWrite 0 (s.gateAddr vd i) (leBytes new 2)
/-- Retract every gate whose owner a test names (R154, R179). -/
def State.retractAll (s : State) (vd : Nat) (p : Nat → Bool) : State :=
  (upto (s.quota vd).gcap).foldl (fun s i => if s.posted vd i && p (s.gateNum vd i 2 2) then s.retract vd i else s) s

/-! ### Engine operations -/

/-- DONE of a counter: one below the oldest operation that has not retired, else ISS (R187). -/
def doneOf (iss : Nat) (nums : List Nat) : Nat :=
  match nums with
  | [] => iss
  | n :: _ => (n + (2 ^ 56 - 1)) % 2 ^ 56

/-- Timeline of a core. -/
def Core.tl (x : Core) (i : Nat) : Timeline := vget x.tls i {}
def Core.setTl (x : Core) (i : Nat) (t : Timeline) : Core := { x with tls := vset x.tls i t }
/-- Copy context of a core. -/
def Core.ctx (x : Core) (i : Nat) : CopyCtx := vget x.ctxs i {}
def Core.setCtx (x : Core) (i : Nat) (t : CopyCtx) : Core := { x with ctxs := vset x.ctxs i t }

/-- DONE of the copy contexts' and the matrix unit's counters, from the operations that have not retired (R187). -/
def Core.syncTl (x : Core) : Core :=
  let x1 := (upto 4).foldl (fun x k =>
    x.setTl k { x.tl k with done := doneOf (x.tl k).iss ((x.ctx k).ops.map (fun o => o.num)) }) x
  x1.setTl 4 { x1.tl 4 with done := doneOf (x1.tl 4).iss (x1.mat.ops.map (fun o => o.num)) }

/-- DONE of tl5, from the child launches that have not retired, of the virtual device whose context the core holds
(R187). -/
def State.syncChild (s : State) (c : Nat) : State :=
  let vd := mapGet 0 (c / 128) s.rowVd
  let nums := s.launches.filterMap (fun l => l.child.bind (fun (d, n) => if d = c ∧ l.vdev = vd then some n else none))
  s.modCore c (fun x => x.setTl 5 { x.tl 5 with done := doneOf (x.tl 5).iss nums })

/-- The view that an operation fills receives FE := 1 (R70, R307). -/
def Core.fillView (x : Core) (k n : Nat) : Core := x.modSeat k (fun t => t.setView n { t.view n with fe := true })

/-- The view that a copy operation fills (R302, R303). -/
def CopyOp.fills (o : CopyOp) : Bool := match o.kind with | .load | .gather => true | _ => false
/-- The view that a matrix operation fills (R297, R298). -/
def MatOp.fills (o : MatOp) : Bool := match o.kind with | .drain .. | .drainc .. => true | _ => false

/-- ERRLAST for an error and an operation (R308). -/
def errWord (code num : Nat) : Word := BitVec.ofNat 64 (code * 2 ^ 56 + num)

/-- The operation that a stopped context names in EFOP. -/
def EngWords.stopNum (e : EngWords) : Nat := e.efop.toNat % 2 ^ 56

/-- Retire copy operation `o` of context k, with error code `code` (0 none) (R187, R307). -/
def Core.retireCopy (x : Core) (k : Nat) (o : CopyOp) (code : Nat) : Core :=
  let t := x.ctx k
  let e := if code = 0 then t.eng else { t.eng with errlast := errWord code o.num }
  let e := if e.stopped && e.stopNum == o.num then { e with stopped := false } else e
  let x1 := x.setCtx k { t with ops := t.ops.filter (fun p => p.num != o.num), eng := e }
  (if o.fills then x1.fillView o.seat o.vnum else x1).syncTl

/-- Retire a matrix operation, with error code `code` (0 none) (R187, R307). -/
def Core.retireMat (x : Core) (o : MatOp) (code : Nat) : Core :=
  let t := x.mat
  let e := if code = 0 then t.eng else { t.eng with errlast := errWord code o.num }
  let e := if e.stopped && e.stopNum == o.num then { e with stopped := false } else e
  let x1 := { x with mat := { t with ops := t.ops.filter (fun p => p.num != o.num), eng := e } }
  (if o.fills then x1.fillView o.seat o.vnum else x1).syncTl

/-- A matrix operation adds at the home (R298). -/
def MatOp.adds (o : MatOp) : Bool := match o.kind with | .drainc _ _ _ add _ _ _ => add | _ => false

/-- Cancel a matrix operation. What it has handed to the drain port is still performed there, in the port's own order, and
only then it retires (R179, R298). -/
def Core.cancelMat (x : Core) (o : MatOp) : Core :=
  if o.port.isEmpty then x.retireMat o 3
  else
    let e := x.mat.eng
    { x with mat := { x.mat with
      ops := x.mat.ops.map (fun p => if p.num = o.num then { p with err := if p.err = 0 then 3 else p.err } else p)
      eng := if e.stopped && e.stopNum == o.num then { e with stopped := false } else e } }

/-- Cancel operations of a core: between two steps every operation stands at a row-group boundary (R179, R307). -/
def Core.cancel (x : Core) (pc : CopyOp → Bool) (pm : MatOp → Bool) : Core :=
  let x1 := (upto 4).foldl (fun x k => ((x.ctx k).ops.filter pc).foldl (fun x o => x.retireCopy k o 3) x) x
  (x1.mat.ops.filter pm).foldl (fun x o => x.cancelMat o) x1

/-- Cancel operations on a core (R179, R183). -/
def State.cancel (s : State) (c : Nat) (pc : CopyOp → Bool) (pm : MatOp → Bool) : State :=
  s.modCore c (fun x => x.cancel pc pm)

/-- Cancel operations that a test on the operation names in the core images of a device (R179, R183, R208). -/
def State.cancelImages (s : State) (vd : Nat) (pc : Nat → CopyOp → Bool) (pm : Nat → MatOp → Bool) : State :=
  s.modVd vd (fun v => { v with cmisc := mapVals (fun c (m : CoreMisc) =>
    let x := ({ ctxs := m.ctxs, mat := m.mat } : Core).cancel (pc c) (pm c)
    { m with ctxs := x.ctxs, mat := x.mat }) v.cmisc })

/-- The view is filled by an operation that a restartable fault holds up: a wait for producers does not wait for it, since
the fault is deferred (R88, R200, R205). -/
def Core.faultFill (x : Core) (k n : Nat) : Bool :=
  x.ctxs.toList.any (fun t => t.eng.stopped && t.ops.any (fun o => o.seat == k && o.fills && o.vnum == n)) ||
    (x.mat.eng.stopped && x.mat.ops.any (fun o => o.seat == k && o.fills && o.vnum == n))

/-- Every producer of a view or scalar of the seat has completed, or is held up by its fault (R88). -/
def Core.producersDone (x : Core) (k : Nat) : Bool :=
  let t := x.seat k
  t.scalFe.toList.all (fun b => b) && (upto 64).all (fun n => (t.view n).fe || x.faultFill k n)

/-- The tile engine stands among the writes of a row group of the seat: the group is written to its end before the seat
stops (R204, R270). -/
def Core.midGroup (x : Core) (k : Nat) : Bool :=
  match x.tile with
  | some r => r.seat == k && (match r.phase with | .writes .. => true | _ => false)
  | none => false

/-! ### Creation and end of a thread -/

/-- What a new thread starts with (R74). -/
structure Start where
  pc     : Pc
  segb   : Nat
  vdev   : Nat
  dom    : Nat
  lid    : Nat
  queue  : Nat
  limit  : Nat
  image  : Nat
  args   : List Word
  record : Option (BitVec 256) := none

/-- The counters of a core when a thread is created on seat k (R189, R308). -/
def Core.freshTl (x : Core) (k : Nat) : Core :=
  let alone := (upto 4).all (fun j => j == k || (x.seat j).occ != .thread)
  let x1 := (x.setTl k {}).setCtx k { x.ctx k with eng := {} }
  if alone then
    let x2 := (x1.setTl 6 {}).setTl 7 {}
    if (x2.tl 5).iss = (x2.tl 5).done then x2.setTl 5 {} else x2
  else x1

/-- A seat with a new thread. What neither R74 nor R75 changes at thread creation stays: FTZ, EPC, ECAUSE, EVAL, GSTAT
and QUOTA. -/
def Seat.start (x : Seat) (t : Start) : Seat :=
  { x with
    occ := .thread, views := Vector.replicate 64 {}
    scal := Vector.ofFn (fun i => (t.args[i.val]?).getD 0), scalFe := Vector.replicate 64 true
    main := { live := true, pc := t.pc }, mat := {}, cpy := {}, pred := 1, rsm := false, hnd := false, gang := false
    lead := false, fstat := 0, amax := 0, repSys := {}, basedom := t.dom, vdev := t.vdev, curdom := t.dom
    limit := t.limit, depth := 0, frames := [], lid := t.lid, queue := t.queue, segb := t.segb, age := 0, pri := 1
    yld := false, image := t.image, resume := false, held := none, pend := none, reports := [], unw := none, marked := false
    ending := false, seq := .none, record := t.record, engDefer := false }

/-- CYC of a seat whose first thread of the slice is created: the slice's start has set it on every seat that the device
holds (R193). -/
def Seat.sliceFor (x : Seat) (q : Quota) : Seat :=
  if q.fixed || x.sliced then x else { x with cyc := BitVec.ofNat 48 q.slice, sliced := true }

/-- Create a thread on a seat (R74, R189, R193). -/
def State.startThread (s : State) (c k : Nat) (t : Start) : State :=
  s.modCore c (fun x => (x.freshTl k).modSeat k (fun y => (y.start t).sliceFor (s.quota t.vdev)))

/-- Accesses of a strand that no longer exists still reach their homes; their replies write nothing. -/
def State.orphan (s : State) (c k : Nat) : State :=
  { s with flight := s.flight.map (fun a => if a.core = c ∧ a.seat = k then { a with seat := 4, dst := none } else a) }

/-- Release of the matrix unit by a seat's thread (R18). -/
def Core.releaseUnit (x : Core) (k : Nat) : Core :=
  if x.mat.holder = some k then { x with mat := { x.mat with holder := none } } else x

/-- A seat whose gang has ended: a follower resumes its own fetch (R25). -/
def Seat.ungang (t : Seat) (ret : Option Pc) : Seat :=
  let t := { t with gang := false, lead := false }
  match ret with
  | none => t
  | some pc =>
    match t.held with
    | some h => { t with held := some { h with mpc := pc, ret := if h.strn = .main then some pc else none } }
    | none => { t with main := { t.main with pc := pc } }

/-- A gang has ended: each follower resumes its own fetch after its FOLLOW (R25, R364). -/
def State.endGang (s : State) (leader : Nat) : State :=
  s.modCores (fun n x =>
    match x.gang with
    | some g =>
      if g.leader = leader then
        { x with gang := none }.modSeat g.seat (fun t => t.ungang (if n ≠ leader then some g.ret else none))
      else x
    | none => x)

/-- The gang to which the thread on a seat belongs ends with it. -/
def State.quitGang (s : State) (c k : Nat) : State :=
  match (s.core c).gang with
  | some g => if g.seat = k then s.endGang g.leader else s
  | none => s

/-- A core leaves its pair; a store that waited for its comparison is tried again. -/
def Core.unpair (x : Core) : Core := { (upto 4).foldl Core.unoffer x with pair := none }
/-- The pair to which a core belongs ends. -/
def State.quitPair (s : State) (c : Nat) : State :=
  match (s.core c).pair with
  | some p =>
    let s1 := s.modCore c Core.unpair
    if p.on then s1.modCore p.mate Core.unpair else s1
  | none => s

/-- A seat without a thread. -/
def Seat.emptied (x : Seat) (occ : Occ) : Seat :=
  { x with occ := occ, main := {}, mat := {}, cpy := {}, frames := [], depth := 0, held := none, pend := none
           reports := [], unw := none, marked := false, ending := false, seq := .none, resume := false, hnd := false
           record := none, engDefer := false, gang := false, lead := false }

/-- A thread of the seat stands in its image. -/
def State.savedOn (s : State) (vd c k lid : Nat) : Bool :=
  (s.vd vd).saved.any (fun i => i.core == c && i.seat == k && i.lid == lid)

/-- The seat after its thread has ended or been saved: it returns to the launch that holds it, else it is free (R21,
R204). -/
def State.vacate (s : State) (c k : Nat) : State :=
  let x := s.seat c k
  match x.home with
  | none => s.modSeat c k (fun x => x.emptied .free)
  | some h =>
    if (s.launch x.vdev h.lid).isNone then s.modSeat c k (fun x => { x.emptied .free with home := none })
    else
      let occ := if s.savedOn x.vdev c k h.lid then Occ.saved else Occ.idle
      s.modSeat c k (fun x => { x.emptied occ with lid := h.lid, queue := h.queue, limit := h.limit, image := h.image })

/-- The last part of an EXIT: the unit is released and every group left (R251 step 4). -/
def State.endThread (s : State) (c k : Nat) : State :=
  (((s.modCore c (fun x => x.releaseUnit k)).leaveAll c k).vacate c k)

/-- What is left of a thread's matrix operations when it has been retired fills no view of the seat's next thread. -/
def Core.orphanOps (x : Core) (k : Nat) : Core :=
  { x with mat := { x.mat with ops := x.mat.ops.map (fun o => if o.seat = k then { o with seat := 4 } else o) } }

/-- Retire a thread without its implicit RDV and without cleanup: its waits are withdrawn, its engine operations
cancelled (R179, R183). A row group that its tile instruction is writing is written to its end in this step (log 108). -/
def State.retireNow (s : State) (c k : Nat) : State :=
  let s1 := (((s.settle c k).dropWaits c k).quitGang c k)
  let s2 := if (s1.core c).pair.isSome then s1.quitPair c else s1
  let s3 := (s2.cancel c (fun o => o.seat == k) (fun o => o.seat == k)).modCore c (fun x => x.orphanOps k)
  let s4 := { s3 with launches := s3.launches.map (fun (l : Launch) => { l with arrived := l.arrived.filter (· != (c, k)) }) }
  (s4.orphan c k).endThread c k

/-- Retire a thread, or, while its handler runs, mark it to be retired at its ERET (R203). -/
def State.retire (s : State) (c k : Nat) : State :=
  if (s.seat c k).hnd then s.modSeat c k (fun x => { x with ending := true }) else s.retireNow c k

/-- A seat on which an image is being read back (R206). -/
def Seat.restoring (x : Seat) : Bool := match x.seq with | .restoring _ _ => true | _ => false

/-- Seats that hold a thread of a virtual device. -/
def State.threads (s : State) (vd : Nat) : List (Nat × Nat) :=
  s.cores.flatMap (fun (c, x) => ((upto 4).filter (fun k =>
    (x.seat k).occ == .thread && (x.seat k).vdev == vd && !(x.seat k).restoring)).map (fun k => (c, k)))

/-! ### Teardown -/

/-- A queue of a device torn down: IDLE, nothing under decode, a kill in progress done; its other registers and QTL stand,
since nothing outside their "changed by" lists changes them (R132, R186, R213, R394). -/
def Queue.stopped (x : Queue) : Queue :=
  { x with state := .idle, seg := none, off := 0, copy := none, qkleft := false
           qkstat := if x.qkstat = 1 then 2 else x.qkstat }

/-- Raise IBDISC (R186, R194). -/
def Core.discard (x : Core) (n : Nat) : Core := { x with ibdisc := min (x.ibdisc + n) (2 ^ 32 - 1) }

/-- A superstep transfer of the launch on a core has ended: its scoreboard entries are free (R96). -/
def Core.endXfer (x : Core) (lid : Nat) : Core := { x with sboard := x.sboard.filter (fun e => e.1 != lid) }

/-- A core of a device torn down. The deque and the return slot stand, with records that no live launch owns and that
their next taker discards (R28, R86, R122). The launches have ended, so the inbox entries that wait for them are discarded and
counted (R127). -/
def Core.tornDown (x : Core) (vd : Nat) : Core :=
  { (upto 4).foldl (fun (x : Core) k =>
      if (x.seat k).vdev = vd then x.modSeat k (fun t => { t.emptied .free with home := none }) else x)
        (x.discard x.inbox.length) with
    inbox := [], sboard := [], slots := [], hinst := none, tlb := [], ccache := [], pre := none }

/-- Tear down a virtual device: its threads, queues, launches, streams, slots, inboxes, domains and gates go (R213). The
cores that another device has at the time keep their state.-/
def State.teardown (s : State) (vd : Nat) : State :=
  let mine (n : Nat) : Bool := s.holdsCore vd n && mapGet 0 (n / 128) s.rowVd == vd
  let s0 := (s.threads vd).foldl (fun s (c, k) => s.retireNow c k) s
  let s1 := s0.cores.foldl (fun s e => if mine e.1 then s.cancel e.1 (fun _ => true) (fun _ => true) else s) s0
  let s2 := s1.modCores (fun n x => if mine n then x.tornDown vd else x)
  let s3 := { s2 with
    launches := s2.launches.filter (fun l => l.vdev != vd)
    streams := mapVals (fun _ (x : Stream) => if x.vdev = vd ∧ x.st ≠ StreamSt.free then x.freed else x) s2.streams
    msgs := s2.msgs.filter (fun m => m.vdev != vd)
    slotReqs := s2.slotReqs.filter (fun r => !mine r.core)
    dieTlb := mapVals (fun _ (l : List TlbEntry) => l.filter (fun e => e.vdev != vd)) s2.dieTlb }
  let s4 := s3.retractAll vd (fun _ => true)
  let s5 := (upto (s.quota vd).dcap).foldl (fun s d => if s.dstate vd d ≠ 0 then s.setDstate vd d 0 else s) s4
  s5.modVd vd (fun v =>
    { v with queues := mapVals (fun _ x => x.stopped) v.queues, heldEv := [], fencing := [], killing := [], saved := [], cores := []
             cmisc := [], down := true })

end Sys2Proof.Machine
end

