-- ==== Sys2Proof/Machine/Ops.lean ====
section
/-! DEFINITION. Taking a trap and returning from one (R197 to R203, R212), and how an issued instruction ends (R216,
R232). Reads and writes of registers are in Machine/Base and Machine/Operands, of memory in Machine/Access and
Machine/View. -/
namespace Sys2Proof.Machine

/-- ECAUSE.CODE (R197). -/
def Cause.code : Cause → Nat
  | .illegal => 1 | .operand => 2 | .strand => 3 | .empty => 4 | .privilege => 5 | .address => 6 | .localperm => 7
  | .pagefault => 8 | .poison => 9 | .fetchbound => 0xA | .syncstate => 0xB | .dequefull => 0xC | .software => 0xD
  | .mismatch => 0xE | .savefault => 0xF | .engine => 0x10

/-- ECAUSE.STRN (R79). -/
def strnCode : StrandK → Nat
  | .main => 0 | .matrix => 1 | .copy => 2

/-- ECAUSE for a trap on a strand (R79, R202). -/
def Trap.ecause (t : Trap) (k : StrandK) : BitVec 16 := BitVec.ofNat 16 (strnCode k * 256 + t.opnd * 1024 + t.cause.code)

/-- No producer targets s56 to s63 (R202). -/
def Seat.topFull (x : Seat) : Bool := (upto 8).all (fun i => x.full (56 + i))

/-- A double fault halts the core; its virtual device is torn down (R212, R213). -/
def State.doubleFault (s : State) (c k : Nat) : State :=
  let vd := (s.seat c k).vdev
  (s.teardown vd).modCore c (fun x => { x with halted := true })

/-- The handler data area at trap entry: HS56 to HS63, HSTAT, HFST, HSEGB (R201). -/
def State.handlerArea (s : State) (c k : Nat) : List Byte :=
  let x := s.seat c k
  (upto 8).flatMap (fun i => leBytes (x.reg (56 + i)).toNat 8) ++ leBytes ((s.core c).status k) 8
    ++ leBytes x.fstat.toNat 8 ++ leBytes x.segb 8

/-- The registers of a seat at trap entry (R202). -/
def Seat.entered (x : Seat) (inst : HRec) (p : PendTrap) : Seat :=
  { x with
    hnd := true, rsm := true, epc := p.pc, ecause := p.trap.ecause p.strn, eval := p.trap.val
    repSys := (x.strand p.strn).rep, segb := inst.hbnd, pend := none
    held := some { inst := inst, trap := p.trap, strn := p.strn, mpc := x.main.pc, mrep := x.main.rep,
                   mblk := x.main.blk, save := p.save, res := x.resume }
    main := { x.main with pc := ⟨inst.hseg, inst.hent⟩, rep := {}, hold := false, blk := .none, fbuf := [] } }

/-- Trap entry, its waits over (R202). -/
def State.enterTrap (s : State) (c k : Nat) (inst : HRec) (p : PendTrap) : State :=
  (s.locWrite c (inst.area k) (s.handlerArea c k)).modSeat c k (fun x => x.entered inst p)

/-- A trap entry that waited for the producers of s56 to s63 goes on where they have completed. -/
def State.settleTrap (s : State) (c k : Nat) : State :=
  let x := s.seat c k
  match x.pend, (s.core c).hinst with
  | some p, some inst => if x.topFull then s.enterTrap c k inst p else s
  | some _, none => s.doubleFault c k
  | none, _ => s

/-- Every member of the gang of a trapping thread records EPC (R26). -/
def State.gangEpc (s : State) (a : Agent) (pc : Pc) : State :=
  match (s.core a.core).gang with
  | some g =>
    if g.seat = a.seat ∧ a.strn = .main then
      s.modCores (fun _ x => match x.gang with
        | some h => if h.leader = g.leader then x.modSeat h.seat (fun t => { t with epc := pc }) else x
        | none => x)
    else s
  | none => s

/-- A trap raised on a strand (R202), a tile instruction of the seat at its row-group boundary (R69): a double fault without
a handler or inside it, else its entry, at once or when the producers of s56 to s63 have completed. -/
def State.takeTrap (s : State) (a : Agent) (t : Trap) (save : Bool) : State :=
  let s := s.settle a.core a.seat
  let x := s.seat a.core a.seat
  let s1 := { s with walks := s.walks.filter (fun w => !(w.core == a.core && w.seat == a.seat))
                     logs := s.logs.filter (fun r => !(r.core == a.core && r.seat == a.seat)) }
  match (s.core a.core).hinst with
  | none =>
    (s1.modSeat a.core a.seat (fun x => { x with ecause := t.ecause a.strn, eval := t.val })).doubleFault a.core a.seat
  | some inst =>
    if x.hnd then
      (s1.modSeat a.core a.seat (fun x => { x with ecause := t.ecause a.strn, eval := t.val })).doubleFault a.core a.seat
    else
      let pc := (s.strand a).pc
      let p : PendTrap := { trap := t, strn := a.strn, pc := pc, save := save }
      let s2 := if save then s1 else s1.gangEpc a pc
      if x.topFull then s2.enterTrap a.core a.seat inst p
      else s2.modSeat a.core a.seat (fun x => { x with pend := some p })

/-- Words of a context after its stopped operation has been restarted (R306, R308). -/
def EngWords.restart (e : EngWords) : EngWords := if e.stopped then { e with stopped := false, efrst := 0 } else e

/-- Restart the operation of the timeline that an ENGINE fault named (R306). -/
def Core.restartEng (x : Core) (tl : Nat) : Core :=
  if tl < 4 then x.setCtx tl { x.ctx tl with eng := (x.ctx tl).eng.restart }
  else if tl = 4 then { x with mat := { x.mat with eng := x.mat.eng.restart } }
  else x

/-- The registers of a seat at ERET (R202): `hs` holds HS56 to HS63, then HSTAT, HFST, HSEGB. -/
def Seat.returned (x : Seat) (h : Held) (hs : List Byte) : Seat :=
  let x1 := (upto 8).foldl (fun (x : Seat) i =>
    (x.setReg (56 + i) (BitVec.ofNat 64 (numAt hs (8 * i) 8))).setFull (56 + i) true) x
  let x2 := x1.setFlags (numAt hs 0x40 8)
  let x3 := { x2 with
    fstat := BitVec.ofNat 7 (numAt hs 0x48 8), segb := numAt hs 0x50 8 % 2 ^ 16, hnd := false
    resume := x.rsm && (h.res || (!h.save && h.strn == StrandK.main))
    rsm := false, held := none, main := { x.main with pc := h.mpc, rep := h.mrep, blk := h.mblk, fbuf := [] }, repSys := {} }
  let back := if h.strn = StrandK.main then h.ret.getD x.epc else x.epc
  let x4 := x3.modStrand h.strn (fun t => { t with pc := back, rep := x.repSys, blk := .none, fbuf := [] })
  let x5 := if h.save then x4.modStrand StrandK.main (fun t => { t with blk := h.mblk }) else x4
  h.fins.foldl (fun (x : Seat) e =>
    let x1 := match e.1 with | some (n, v) => x.setReg n v | none => x
    match e.2 with | some (n, b) => x1.setP n b | none => x1) x5

/-- Return from the handler of a seat (R202), with the engine restart of R306 and a retirement that waited (R203). -/
def State.leaveHandler (s : State) (c k : Nat) (h : Held) : State :=
  let hs := s.locRead c (h.inst.area k) 0x58
  let s1 := s.modSeat c k (fun x => x.returned h hs)
  let s2 := if h.trap.cause = .engine then s1.modCore c (fun x => x.restartEng (h.trap.val.toNat / 2 ^ 56 % 16)) else s1
  if (s2.seat c k).ending then s2.retireNow c k else s2

/-! ### How an instruction ends -/

/-- The state after an instruction that did not complete. -/
def stopped (s : State) (st : Stop) (s' : State) : State :=
  match st with
  | .trap t => s.takeTrap s.cur t false
  | .trapAt t => s'.takeTrap s.cur t false
  | .wait => s
  | .waitAt => s'
  | .double => s.doubleFault s.cur.core s.cur.seat

/-- An instruction that goes on in sequence. -/
def issue (h : Head) (body : M Unit) (s : State) : Out :=
  if guardOk h s.me then
    match body s with
    | .ok _ s' => .next (s'.advance h)
    | .error st s' => .next (stopped s st s')
  else .next (s.advance h)

/-- An instruction that answers the next IDX, and whether it branches there (R248). -/
def jump (h : Head) (body : M (Bool × Nat)) (s : State) : Out :=
  if guardOk h s.me then
    match body s with
    | .ok (t, i) s' => .next ((s'.goto t i).hints h)
    | .error st s' => .next (stopped s st s')
  else .next (s.advance h)

/-- An instruction that sets everything itself, its hints included. -/
def leave (h : Head) (body : M Unit) (s : State) : Out :=
  if guardOk h s.me then
    match body s with
    | .ok _ s' => .next s'
    | .error st s' => .next (stopped s st s')
  else .next (s.advance h)

/-- Families 0x4 to 0x8, 0xC and 0xD are a double fault in the handler (R203). The rule names no code that such a double fault
leaves in ECAUSE: ECAUSE stays as it stands (log 109). -/
def noHandler : M Unit := do
  let x ← me
  if x.hnd then throw .double else pure ()

/-- The IDX after the issuer's instruction (R248). -/
def nextIdx : M Nat := do
  let a ← look State.cur
  let t ← look (fun s => s.strand a)
  pure ((t.pc.idx + 1) % 2 ^ 32)

end Sys2Proof.Machine
end

