-- ==== Sys2Proof/Machine/Deque.lean ====
section
/-! DEFINITION. The task deque and its return slot (R121, R122, R210), the supervisor event queue (R139 to R142), and the
search for a task (R28 to R30, R123, R124). -/
namespace Sys2Proof.Machine

/-! ### Records -/

/-- A deque record (R121); `a0`, `a1` are W0, W1 or LO, HI, `g` and `arg` the halves of W2 or GRAIN and ARG. -/
structure Task where
  lid   : Nat
  entry : Nat
  kind  : Nat
  a0    : Nat
  a1    : Nat
  g     : Nat
  arg   : Nat
  deriving DecidableEq, Repr

/-- The 32 bytes of a record (R121). -/
def Task.word (t : Task) : BitVec 256 :=
  BitVec.ofNat 256 (t.lid % 2 ^ 32 + t.entry % 2 ^ 16 * 2 ^ 32 + t.kind % 2 ^ 8 * 2 ^ 48 + t.a0 % 2 ^ 64 * 2 ^ 64
    + t.a1 % 2 ^ 64 * 2 ^ 128 + t.g % 2 ^ 32 * 2 ^ 192 + t.arg % 2 ^ 32 * 2 ^ 224)

/-- A record from its 32 bytes. -/
def Task.ofWord (w : BitVec 256) : Task :=
  let n := w.toNat
  { lid := bitsAt n 0 32, entry := bitsAt n 32 16, kind := bitsAt n 48 8, a0 := bitsAt n 64 64, a1 := bitsAt n 128 64
    g := bitsAt n 192 32, arg := bitsAt n 224 32 }

/-- A record that can become a thread: a plain task, or a range that is not empty (R121, log 17). -/
def Task.good (t : Task) : Bool := t.kind == 1 || (t.kind == 2 && decide (t.a0 < t.a1) && t.g != 0)

/-! ### The ring -/

/-- Records in the deque (R122). -/
def Core.dqCount (x : Core) : Nat := (x.dqh + 128 - x.dqt) % 128
/-- Record of slot i (R122). -/
def Core.dqSlot (x : Core) (i : Nat) : BitVec 256 := mapGet 0 (i % 64) x.dqs
/-- Write slot i. -/
def Core.setDq (x : Core) (i : Nat) (w : BitVec 256) : Core := { x with dqs := mapSet 0 (i % 64) w x.dqs }
/-- Push at the head (R122). -/
def Core.dqPush (x : Core) (w : BitVec 256) : Core := { x.setDq x.dqh w with dqh := (x.dqh + 1) % 128 }
/-- Take the slot at the head away (R122). -/
def Core.dqPop (x : Core) : Core := { x with dqh := (x.dqh + 127) % 128 }
/-- Take the slot at the tail away (R122). -/
def Core.dqDrop (x : Core) : Core := { x with dqt := (x.dqt + 1) % 128 }
/-- The record at the head. -/
def Core.headTask (x : Core) : Task := Task.ofWord (x.dqSlot (x.dqh + 127))
/-- The record at the tail. -/
def Core.tailTask (x : Core) : Task := Task.ofWord (x.dqSlot x.dqt)
/-- A push finds room: a slot is free and no record of the return slot comes first (R210). -/
def Core.dqRoom (x : Core) : Bool := decide (x.dqCount < 64) && x.retSlot.isNone

/-- A record that a checked pair gives back: at the head, or in the return slot (R210). -/
def Core.giveBack (x : Core) (w : BitVec 256) : Core :=
  if x.dqCount < 64 then x.dqPush w else { x with retSlot := some w }

/-- Slots at the head that hold no record are removed (R122). -/
def Core.cleanHead : Nat → Core → Core
  | 0, x => x
  | n + 1, x => if x.dqCount ≠ 0 ∧ !x.headTask.good then Core.cleanHead n x.dqPop else x
/-- Slots at the tail that hold no record are removed (R122). -/
def Core.cleanTail : Nat → Core → Core
  | 0, x => x
  | n + 1, x => if x.dqCount ≠ 0 ∧ !x.tailTask.good then Core.cleanTail n x.dqDrop else x

/-- What a search takes: the part, and the core it was taken from (R74). -/
abbrev Found := Task × Nat

/-- Take at the head: a plain record whole, of a range its first grain (R28). -/
def Core.takeHead (x : Core) : Task × Core :=
  let t := x.headTask
  if t.kind = 2 then
    let e := min (t.a0 + t.g) t.a1
    let part := { t with a1 := e }
    if e < t.a1 then (part, x.setDq (x.dqh + 127) ({ t with a0 := e } : Task).word) else (part, x.dqPop)
  else (t, x.dqPop)

/-- Steal at the tail: a range of at least two grains is split (R29), any other record taken whole. -/
def Core.steal (x : Core) : Task × Core :=
  let t := x.tailTask
  if t.kind = 2 ∧ 2 * t.g ≤ t.a1 - t.a0 then
    let mid := t.a0 + (t.a1 - t.a0) / 2 / t.g * t.g
    ({ t with a0 := mid }, x.setDq x.dqt ({ t with a1 := mid } : Task).word)
  else (t, x.dqDrop)

/-- The deque unit refuses every thief (R123, R209). -/
def Core.refuses (x : Core) : Bool :=
  x.pre.isSome || (upto 4).any (fun k => match (x.seat k).held with | some h => h.trap.cause == .dequefull | none => false)

/-- Records of a deque, from its tail. -/
def Core.records (x : Core) : List (BitVec 256) := (upto x.dqCount).map (fun i => x.dqSlot (x.dqt + i))

/-- A core without the deque records and inbox entries of launches that a test names (R125). The slot of a record that goes holds
zeros, which no taker makes a thread of (R122), and leaves the deque when it comes to the head or the tail: no list names a
queue kill among what moves DQHEAD or DQTAIL (R86; log 114). -/
def Core.purge (x : Core) (dead : Nat → Bool) : Core :=
  let gone (w : BitVec 256) : Bool := dead (Task.ofWord w).lid
  { (upto x.dqCount).foldl (fun (x : Core) i => if gone (x.dqSlot (x.dqt + i)) then x.setDq (x.dqt + i) 0 else x) x with
    retSlot := x.retSlot.bind (fun w => if dead (Task.ofWord w).lid then none else some w)
    inbox := x.inbox.filter (fun m => !dead m.lid) }

/-! ### Events -/

/-- Bytes of an event record (R141). -/
def Event.bytes (e : Event) : List Byte :=
  leBytes e.lid 4 ++ leBytes e.code 2 ++ [3, 0] ++ leBytes e.w0.toNat 8 ++ leBytes e.w1.toNat 8 ++ leBytes e.w2.toNat 8

/-- Domain 0 of a virtual device, as accessor of its event ring. -/
def root (vd : Nat) : Who := { vdev := vd, dom := 0, win := none }

/-- Write held records to the ring while it has room (R139, R142). A record whose write must wait, or meets a fault, stays held as
if the ring were full (log 115); the moves of time try it again. -/
def State.flushEvents : Nat → State → Nat → State
  | 0, s, _ => s
  | n + 1, s, vd =>
    let v := s.vd vd
    let q := s.quota vd
    match v.heldEv with
    | [] => s
    | e :: es =>
      if q.evcap ≤ v.evput - v.evget then s
      else match unitWrite none (root vd) (q.evbase + 32 * (v.evput % q.evcap)) e.bytes s with
        | .error .waitAt s1 => s1
        | .error _ _ => s
        | .ok _ s1 => (s1.modVd vd (fun v => { v with heldEv := es, evput := v.evput + 1 })).flushEvents n vd

/-- EVENT_POST: the management core appends a record, or holds it; more than 256 held records tear the virtual device
down (R139, R142). -/
def State.postEvent (s : State) (vd : Nat) (e : Event) : State :=
  let s1 := (s.modVd vd (fun v => { v with heldEv := v.heldEv ++ [e] })).flushEvents 257 vd
  if 256 < (s1.vd vd).heldEv.length then s1.teardown vd else s1

/-- An event with its argument words as numbers (R141). -/
def event (lid code w0 w1 w2 : Nat) : Event :=
  { lid := lid, code := code, w0 := BitVec.ofNat 64 w0, w1 := BitVec.ofNat 64 w1, w2 := BitVec.ofNat 64 w2 }

/-! ### The search -/

/-- Run a computation; a trap is an answer. -/
def attempt {α : Type} (m : M α) : M (Except Trap α) := fun s =>
  match m s with
  | .ok a s' => .ok (.ok a) s'
  | .error (.trap t) _ => .ok (.error t) s
  | .error (.trapAt t) s' => .ok (.error t) s'
  | .error e s' => .error e s'

/-- Replace a launch. -/
def State.setLaunch (s : State) (l : Launch) : State :=
  { s with launches := s.launches.map (fun m => if m.lid = l.lid then l else m) }

/-- Place a part at the taker's head and take its first grain (R28). -/
def placeTake (c : Nat) (t : Task) (src : Nat) : M (Option Found) := do
  let r ← look (fun s => ((s.core c).dqPush t.word).takeHead)
  change (fun s => s.setCore c r.2)
  pure (some (r.1, src))

/-- Neighbours in the order of R28. -/
def neighbours (n : Nat) : List Nat :=
  ([1, 2].flatMap (fun k => (upto 4).filterMap (fun d => neighbour n d k)))

/-- Step 2 of R28: the first neighbour whose tail record is of the launch. -/
def stealFrom (c : Nat) (l : Launch) : List Nat → M (Option Found)
  | [] => pure none
  | n :: ns => do
    let ok ← look (fun s => s.holdsCore l.vdev n && !(s.core n).refuses)
    if ok then do
      change (fun s => s.modCore n (Core.cleanTail 64))
      let y ← look (fun s => s.core n)
      if y.dqCount ≠ 0 ∧ y.tailTask.lid = l.lid then do
        let (t, y') := y.steal
        change (fun s => s.setCore n y')
        if t.kind = 1 then pure (some (t, n)) else placeTake c t n
      else stealFrom c l ns
    else stealFrom c l ns

/-- Step 3 of R28: the launch's overflow list (R124). A record there that can become no thread is consumed, as one in a deque is
(R122), and this search finds nothing (log 116). -/
def overflowTake (c : Nat) (l : Launch) : M (Option Found) := do
  let w : Who := { vdev := l.vdev, dom := l.base, win := none }
  let at_ := l.rcd.savebase
  let r ← attempt (do
    let d ← unitRead (some c) w at_ 32
    let (obase, ocap, put, get) := (numAt d 0 8, numAt d 8 4, numAt d 0x10 8, numAt d 0x18 8)
    if put = get ∨ ocap = 0 then pure none
    else do
      let b ← unitRead (some c) w ((obase + 32 * (get % ocap)) % 2 ^ 64) 32
      unitWrite (some c) w (at_ + 0x18) (leBytes (get + 1) 8)
      pure (some b))
  match r with
  | .error t => do
    let posted ← look (fun s => match s.launches.find? (fun m => m.lid == l.lid) with | some m => m.ovPost | none => true)
    if posted then pure ()
    else change (fun s => (s.setLaunch { l with ovPost := true }).postEvent l.vdev (event l.lid 9 l.queue t.addr 0))
    pure none
  | .ok r => do
    change (fun s => match s.launches.find? (fun m => m.lid == l.lid) with
      | some m => s.setLaunch { m with ovPost := false }
      | none => s)
    match r with
    | none => pure none
    | some b =>
      let t := { Task.ofWord (BitVec.ofNat 256 (leNat b)) with lid := l.lid }
      if t.good then placeTake c t c else pure none

/-- The search of R28 on core c for a launch. -/
def search (c : Nat) (l : Launch) : M (Option Found) := do
  change (fun s => s.modCore c (Core.cleanHead 64))
  let x ← look (fun s => s.core c)
  if x.dqCount ≠ 0 ∧ x.headTask.lid = l.lid then do
    let (t, x') := x.takeHead
    change (fun s => s.setCore c x')
    pure (some (t, c))
  else if !x.dqRoom then pure none
  else do
    let r ← stealFrom c l (neighbours c)
    match r with
    | some f => pure (some f)
    | none => overflowTake c l

/-- The thread that a taken part becomes (R74, R124, R333). -/
def State.taskStart (s : State) (c k : Nat) (l : Launch) (f : Found) : Start :=
  let x := s.seat c k
  let t := f.1
  let w2 := if t.kind = 2 then t.arg else t.g + t.arg * 2 ^ 32
  { pc := ⟨l.rcd.codeoff / 32, t.entry⟩, segb := l.rcd.segbound % 2 ^ 16, vdev := l.vdev, dom := l.base, lid := l.lid
    queue := l.queue, limit := x.limit, image := x.image
    args := [t.a0, t.a1, w2, f.2].map (fun n => BitVec.ofNat 64 n), record := some t.word }

end Sys2Proof.Machine
end

