-- ==== Sys2Proof/Machine/Fetch.lean ====
section
/-! DEFINITION. Which strand may issue (R20, R25, R202 to R204), the fetch of its next word (R78, R94, R376, R386), and
the decode checks that depend on the strand and on REPC (R227 to R232). -/
namespace Sys2Proof.Machine

/-! ### Fetch -/

/-- Local offset of the instruction at a PC (R78). -/
def codeAddr (p : Pc) : Nat := 32 * p.seg + 12 * p.idx

/-- Byte of a word: as the fetch buffer holds it, else as local memory stands (R376). -/
def fetchByte (s : State) (c : Nat) (buf : List (Nat × Byte)) (a : Nat) : Byte :=
  match mapFind a buf with
  | some b => b
  | none => memRead s.lmem (lkey c a)

/-- The word at a PC, checks 1 and 2 of R232 made. -/
def State.fetchWord (s : State) (a : Agent) (pc : Pc) (buf : List (Nat × Byte)) : Except Trap IWord :=
  let x := s.seat a.core a.seat
  let off := codeAddr pc
  if x.segb ≤ pc.idx then .error { cause := .fetchbound, val := BitVec.ofNat 64 pc.word }
  else if !localOkAt s a.core off 12 x.who .x false false then .error (addrTrap .localperm (coreVa a.core off))
  else match (upto 12).find? (fun i => (mapFind (off + i) buf).isNone &&
      (mapFind (lkey a.core (off + i) / 8) s.lpoison).isSome) with
    | some i => .error (addrTrap .poison (off + i))
    | none => .ok (BitVec.ofNat 96 (leNat ((upto 12).map (fun i => fetchByte s a.core buf (off + i)))))

/-- One prefetch: the next piece, up to a sector's end, of the eight words that follow (R376, R386). -/
def State.prefetch (s : State) (a : Agent) : State :=
  let x := s.seat a.core a.seat
  let t := x.strand a.strn
  let start := codeAddr t.pc
  let has (i : Nat) : Bool := (mapFind (start + i) t.fbuf).isSome
  match (upto 96).find? (fun i => !has i) with
  | none => s
  | some i =>
    let j := i / 12
    let endBit (w : Nat) : Bool := fetchByte s a.core t.fbuf (start + 12 * w + 10) &&& 2 != 0
    let at_ := start + i
    let stop := min (start + 12 * j + 12) (at_ / 32 * 32 + 32)
    if (upto j).any endBit then s
    else if x.segb ≤ t.pc.idx + j then s
    else if !localOkAt s a.core at_ (stop - at_) x.who .x false false then s
    else if (s.locBad a.core at_ (stop - at_)).isSome then s
    else
      s.modStrand a (fun t => { t with
        fbuf := (List.range' at_ (stop - at_)).foldl (fun b y => mapPut y (memRead s.lmem (lkey a.core y)) b) t.fbuf })

/-- The fetch buffer after an issue at `old`: what lies among the eight words that follow in sequence, nothing after
another change of path; a taken branch, GCALL, GRET, ERET and a trap entry empty it themselves (R376). -/
def Strand.keepBuf (t : Strand) (old : Pc) : Strand :=
  if t.pc = old ∨ t.pc = old.next then
    let lo := codeAddr t.pc
    { t with fbuf := t.fbuf.filter (fun (y, _) => decide (lo ≤ y) && decide (y < lo + 96)) }
  else { t with fbuf := [] }

/-! ### Decode checks -/

/-- The strand accepts the operation (R229, R230). -/
def strandOk (k : StrandK) (opc : Nat) : Bool :=
  match k with
  | .main => true
  | .matrix => decide (opc < 0xC0) || (decide (0x1C0 ≤ opc) && decide (opc < 0x200)) || opc == 0x210 || opc == 0x212
  | .copy => decide (opc < 0xC0) || (decide (0x200 ≤ opc) && decide (opc < 0x240)) ||
      (decide (0x2C0 ≤ opc) && decide (opc < 0x300) && opc != 0x2D0)

/-- A stride from its code (R80). -/
def strideOf (c : Nat) : Nat := if c = 3 then 4 else c

/-- A register field under REP (R80, R226); an absent field stays absent. -/
def repField (spec : SrcSpec) (n : Nat) (x : OpField) : Nat :=
  if x.kind < 2 ∧ ¬(spec.opt ∧ x = .absent) then x.val + n * 2 ^ 14 else x.val

/-- The fields of a repeated word at repetition DONE (R80). -/
def repShift (r : Rep) (f : Fields) : Fields :=
  if r.count = 0 then f
  else
    let row := rowOf f
    { f with dnum := if f.dkind < 3 then f.dnum + r.done * strideOf r.dstr else f.dnum
             aval := repField row.a (r.done * strideOf r.astr) f.a
             bval := repField row.b (r.done * strideOf r.bstr) f.b }

/-- EVAL of OPERAND from check 5: a register number out of range, else the field's value. -/
def refusedVal (f : Fields) (n : OpName) : Nat :=
  let src (x : OpField) : Nat := if x.kind < 2 ∧ 64 ≤ x.val / 2 ^ 14 then x.val / 2 ^ 14 else x.val
  match n with
  | .d => f.dnum | .a => src f.a | .b => src f.b

/-- ECAUSE.OPND of a field. -/
def opndOf : OpName → Nat
  | .d => 1 | .a => 2 | .b => 3

/-- Bits 95:32 of a word, as EVAL of ILLEGAL and STRAND (R232). -/
def illegalTrap (c : Cause) (w : IWord) : Trap := { cause := c, val := BitVec.ofNat 64 (w.toNat / 2 ^ 32) }

/-- Checks 3 to 5 of R232 on a word at a repetition. -/
def checkWord (k : StrandK) (r : Rep) (w : IWord) : Except Trap Instr :=
  let f := fieldsOf w
  match ofFields f with
  | .illegal => .error (illegalTrap .illegal w)
  | _ =>
    if !strandOk k f.opc then .error (illegalTrap .strand w)
    else
      let g := repShift r f
      match ofFields g with
      | .ok i => .ok i
      | .illegal => .error (illegalTrap .illegal w)
      | .operand n => .error { cause := .operand, opnd := opndOf n, val := BitVec.ofNat 64 (refusedVal g n) }

/-- The word is of a family that REP refuses, or SSTEP (R227). -/
def unrepeatable (opc : Nat) : Bool := decide (opc < 0x40) || (decide (0x300 ≤ opc) && decide (opc < 0x3C0)) || opc == 0x2D0

/-- The checks that a REP with word `w` and strides makes on the next word (R227). EVAL of the ILLEGAL for a word that is not
repeatable, or lies beyond SEGB, is the REP word's (log 110). -/
def State.repCheck (s : State) (a : Agent) (w : IWord) (ds as bs : Nat) : Option Trap :=
  let t := s.strand a
  let pc := t.pc.next
  let x := s.seat a.core a.seat
  if x.segb ≤ pc.idx then some (illegalTrap .illegal w)
  else match s.fetchWord a pc t.fbuf with
    | .error tr => some tr
    | .ok n =>
      let f := fieldsOf n
      let row := rowOf f
      if unrepeatable f.opc then some (illegalTrap .illegal w)
      else
        let reg (spec : SrcSpec) (y : OpField) : Bool := decide (y.kind < 2) && !(spec.opt && y == .absent)
        match checkWord a.strn {} n with
        | .error tr =>
          if tr.cause ≠ .operand then some tr
          else if ds ≠ 0 ∧ f.dkind = 3 then some { cause := .operand, opnd := 1, val := BitVec.ofNat 64 ds }
          else if as ≠ 0 ∧ !reg row.a f.a then some { cause := .operand, opnd := 2, val := BitVec.ofNat 64 as }
          else if bs ≠ 0 ∧ !reg row.b f.b then some { cause := .operand, opnd := 3, val := BitVec.ofNat 64 bs }
          else some tr
        | .ok _ =>
          if ds ≠ 0 ∧ f.dkind = 3 then some { cause := .operand, opnd := 1, val := BitVec.ofNat 64 ds }
          else if as ≠ 0 ∧ !reg row.a f.a then some { cause := .operand, opnd := 2, val := BitVec.ofNat 64 as }
          else if bs ≠ 0 ∧ !reg row.b f.b then some { cause := .operand, opnd := 3, val := BitVec.ofNat 64 bs }
          else none

/-- The next instruction of a strand, or the trap that a check of R232 raises. A REP refused by check 5 yields to what
R227 refuses earlier. -/
def State.nextInstr (s : State) (a : Agent) : Except Trap Instr :=
  let t := s.strand a
  match s.fetchWord a t.pc t.fbuf with
  | .error tr => .error tr
  | .ok w =>
    match checkWord a.strn t.rep w with
    | .ok i => .ok i
    | .error tr =>
      let f := fieldsOf w
      if f.opc = 7 ∧ tr.cause = .operand then
        match s.repCheck a w (f.m 12 2) (f.m 10 2) (f.m 8 2) with
        | some t2 => if t2.cause = .operand then .error tr else .error t2
        | none => .error tr
      else .error tr

/-! ### Readiness -/

/-- A seat takes no instruction of its own or of its leader. -/
def Core.seatStopped (x : Core) (k : Nat) : Bool :=
  let t := x.seat k
  x.halted || t.occ != .thread || t.pend.isSome || (t.seq != .none && !t.hnd)

/-- The members of a gang, by core. -/
def State.gangOf (s : State) (leader : Nat) : List (Nat × Gang) :=
  s.cores.filterMap (fun (n, x) => match x.gang with
    | some g => if g.leader = leader then some (n, g) else none
    | none => none)

/-- The core follows a gang with this seat: its fetch is given up, but that of its handler (R25, R26). -/
def Core.follows (x : Core) (n k : Nat) : Bool :=
  match x.gang with
  | some g => g.seat == k && g.leader != n && !(x.seat k).hnd
  | none => false

/-- The leader of a gang with this seat still has an instruction to forward. -/
def State.forwards (s : State) (n k : Nat) : Bool :=
  match (s.core n).gang with
  | some g => g.seat == k && g.leader == n && g.fwd.isSome
  | none => false

/-- Forwarding from a core has not been stopped by a trap, a report or a pre-emption of a member (R26): a pre-emption takes the
gang where every member has executed what the leader has. A handler goes on by itself. -/
def State.gangFree (s : State) (n k : Nat) : Bool :=
  match (s.core n).gang with
  | some g =>
    if g.seat = k ∧ !(s.seat n k).hnd then
      (s.gangOf n).all (fun (m, h) =>
        let x := s.core m
        let t := x.seat h.seat
        !x.seatStopped h.seat && (g.fwd.isSome || !s.stops m h.seat) && !t.hnd &&
          (h.gdone || m == n || t.reports.all (fun r => r.1 != .main)))
    else true
  | none => true

/-- A follower whose report has arrived takes its trap where the leader's next instruction stands (R26, R315). -/
def State.followerTraps (s : State) (n k : Nat) : Bool :=
  (match (s.core n).gang with | some g => !g.gdone | none => false) && (s.seat n k).reports.any (fun r => r.1 == .main)

/-- A strand may issue (R20, R22, R202 to R204, R271); nothing is issued as a domain that is being revoked (R179). -/
def State.ready (s : State) (a : Agent) : Bool :=
  let x := s.core a.core
  let t := x.seat a.seat
  let st := t.strand a.strn
  let main := a.strn == .main
  let fwd := main && s.forwards a.core a.seat
  decide (a.seat < 4) && !x.seatStopped a.seat && st.live && (fwd || (!st.hold && st.blk.open_)) &&
    -- a row group that is being written is written to its end, an instruction of a gang forwarded to its end
    (!s.stops a.core a.seat || fwd || (main && x.midGroup a.seat)) &&
    (t.hnd || !(s.vd t.vdev).fencing.contains t.curdom) &&
    (main || (!t.hnd && !x.tiling a.seat)) &&
    -- a report of another strand comes before any instruction that could read its destination (R315)
    (t.hnd || t.reports.all (fun r => r.1 == a.strn)) &&
    (!main || ((!x.follows a.core a.seat || s.followerTraps a.core a.seat) && s.gangFree a.core a.seat))

/-! ### The issue port -/

/-- The seat that R20 chooses among the ready seats, by age, PRI, the YLD hint and the round-robin order. -/
def Core.choose (x : Core) (ready : List Nat) : Option Nat :=
  let aged := ready.filter (fun k => decide (16 ≤ (x.seat k).age))
  match aged with
  | _ :: _ => (aged.find? (fun k => aged.all (fun j => decide ((x.seat j).age ≤ (x.seat k).age))))
  | [] =>
    let best := ready.filter (fun k => ready.all (fun j => decide ((x.seat j).pri ≤ (x.seat k).pri)))
    let order := (upto 4).map (fun i => (x.last + 1 + i) % 4)
    let ties := order.filter (fun k => best.contains k)
    match ties.find? (fun k => !((x.seat k).yld && k == x.last)) with
    | some k => some k
    | none => ties.head?

/-- Ages after a cycle of the port (R20). -/
def Core.ages (x : Core) (ready : List Nat) (chosen : Option Nat) : Core :=
  ready.foldl (fun x k => if chosen = some k then x else x.modSeat k (fun t => { t with age := t.age + 1 })) x

end Sys2Proof.Machine
end

