-- ==== Sys2Proof/Machine/Control.lean ====
section
/-! DEFINITION. Family 0x0: control (R22, R226, R248 to R252), and the meeting of a thread with its engines (R22, R200). -/
namespace Sys2Proof.Machine

/-! ### Meetings -/

/-- EFOP of a stopped operation of the issuer's thread on one of the timelines (R200, R306). -/
def State.stopOf (s : State) (tls : List Nat) : Option Word :=
  let x := s.myCore
  let k := s.cur.seat
  tls.findSome? (fun t =>
    if t < 4 then
      let e := (x.ctx t).eng
      if t = k ∧ e.stopped then some e.efop else none
    else if t = 4 then
      if x.mat.eng.stopped ∧ x.mat.ops.any (fun o => o.num == x.mat.eng.stopNum && o.seat == k) then some x.mat.eng.efop
      else none
    else none)

/-- Deliver a stopped fault of these timelines as ENGINE (R200). -/
def deliver (tls : List Nat) : M Unit := do
  let f ← look (fun s => s.stopOf tls)
  match f with
  | some w => raise .engine 0 w.toNat
  | none => pure ()

/-- The meeting of RDV: every engine strand has ended, and every operation of the thread, or in a crossing only those of
engine strands, has retired (R22). A crossing leaves the thread's accesses unordered (R178; log 107). -/
def meet (crossing : Bool) : M Unit := do
  deliver [0, 1, 2, 3, 4]
  let ok ← look (fun s =>
    let x := s.myCore
    let k := s.cur.seat
    let t := s.me
    !t.mat.live && !t.cpy.live &&
      x.ctxs.toList.all (fun c => c.ops.all (fun o => o.seat != k || (crossing && o.strn == .main))) &&
      x.mat.ops.all (fun o => o.seat != k || (crossing && o.strn == .main)))
  waitFor ok
  if crossing then pure () else release

/-- The conditions under which EXIT and TASK are refused (R251, R333). -/
def mayEnd : M Unit := do
  let x ← me
  need (x.depth == 0) 0 x.dspWord
  need (!x.gang && !x.lead) 0 0

/-! ### Branches -/

/-- Target(A) (R248). -/
def target (a : Src) : M Nat := do
  let i ← nextIdx
  match a with
  | .lit v => pure (((i : Int) + v.toInt) % (2 ^ 32 : Nat)).toNat
  | _ => do
    let v ← readN64 2 a
    pure (v % 2 ^ 32)

def execNop (h : Head) (s : State) : Out := issue h (pure ()) s

def execBra (h : Head) (a : Src) (s : State) : Out := jump h (do pure (true, ← target a)) s

def execBrx (h : Head) (lim : Nat) (a b : Src) (s : State) : Out :=
  jump h (do
    let t ← target a
    let v ← readN64 3 b
    if lim = 0 ∨ v < lim then pure (true, (t + v % 2 ^ 32) % 2 ^ 32) else pure (false, ← nextIdx)) s

def execCall (h : Head) (d : Nat) (a : Src) (s : State) : Out :=
  jump h (do
    let t ← target a
    let i ← nextIdx
    writeScal d (BitVec.ofNat 64 i)
    pure (true, t)) s

def execRet (h : Head) (a : Src) (s : State) : Out :=
  jump h (do
    let v ← readN64 2 a
    pure (true, v % 2 ^ 32)) s

def execLoop (h : Head) (d : Nat) (a : Src) (s : State) : Out :=
  jump h (do
    let t ← target a
    let v ← readD d
    let i ← nextIdx
    if v = 0 then pure (false, i)
    else do
      writeScal d (v - 1)
      pure (if v - 1 ≠ 0 then (true, t) else (false, i))) s

/-- REP's checks of the next word come first, whatever its guard (R227). -/
def execRep (h : Head) (ds as bs : Nat) (a : Src) (s : State) : Out :=
  match s.repCheck s.cur (encode (.rep h ds as bs a)) ds as bs with
  | some t => .next (s.takeTrap s.cur t false)
  | none =>
    jump h (do
      let n ← readN64 2 a
      need (decide (1 ≤ n) && decide (n ≤ 64)) 2 n
      let r : Rep := { count := n, done := 0, dstr := ds, astr := as, bstr := bs }
      let g ← look State.cur
      modMe (fun x => (x.modStrand g.strn (fun t => { t with rep := r })).syncRep x.main.rep)
      pure (false, ← nextIdx)) s

/-- EXIT of the main strand ends the thread, of an engine strand that strand; on either a deferred ENGINE fault comes first
(R200, R251). -/
def execExit (h : Head) (s : State) : Out :=
  leave h (do
    let a ← look State.cur
    match a.strn with
    | .main => do
      noHandler
      mayEnd
      meet false
      change (fun s => (s.hints h).endThread a.core a.seat)
    | _ => do
      deliver [0, 1, 2, 3, 4]
      change (fun s => (s.hints h).modStrand a (fun t => { t with live := false, rep := {}, fbuf := [] }))) s

/-- Whether the register that a field names is full; an empty view is refused (R252). -/
def fullField (opnd : Nat) (a : Src) : M Bool := do
  let x ← me
  match a with
  | .tile n _ fe => do
    let v ← useView opnd n
    if fe then fullOr v.fe true opnd 0 n else pure ()
    pure v.fe
  | .scal n _ fe => do
    if 64 ≤ n then raise .operand opnd n else pure ()
    if fe then fullOr (x.full n) true opnd 1 n else pure ()
    pure (x.full n)
  | .cbank _ _ off => raise .operand opnd off
  | .lit v => raise .operand opnd v.toNat

def execWaitf (h : Head) (a : Src) (b : Option Src) (s : State) : Out :=
  issue h (do
    let fa ← fullField 2 a
    let fb ← match b with
      | some b => fullField 3 b
      | none => pure true
    waitFor (fa && fb)) s

end Sys2Proof.Machine
end

