-- ==== Sys2Proof/Machine/Tile.lean ====
section
/-! DEFINITION. What tile instructions share: sources (R268, R269), row groups (R270), and the view instructions of
family 0x4 (R272 to R275). -/
namespace Sys2Proof.Machine

/-! ### Elements -/

/-- Every assigned format except the block formats (R267). -/
def isNB (f : Fmt) : Bool := !isBlock f
def isFLIN (f : Fmt) : Bool := isFL f || isIN f
def isFLINCX (f : Fmt) : Bool := isFL f || isIN f || isCX f

/-- A value as an E8M0 pattern: rounded to a power of two, tiny below 2^-127 (R41, R47, R48). The manual states no result
for zero, for negative values, for what rounds to zero, for an infinity and for an overflow that is not cut to the largest
value (free, log 13). -/
def toScale (r : Rnd) (x : FVal) : Nat × Flags :=
  match x with
  | .nan _ => (255, 0)
  | .inf n => ((Config.scaleInf n).toNat, fNV)
  | .fin n m e =>
    let l : Int := (Nat.log2 m : Int) + e
    let lg := max l (-127)
    let (k, inex) := roundAt r n m e lg
    let fl : Flags := if inex then (if l < -127 then fNX ||| fUF else fNX) else 0
    let y := lg + 127 + (if k = 2 then 1 else 0)
    if m = 0 ∨ n ∨ k = 0 then ((Config.scaleOf n m e).toNat, fl)
    else if 254 < y then
      (if r = .rtz ∨ r = .rdn then 254 else (Config.scaleOf n m e).toNat, fOF ||| fNX)
    else (y.toNat, fl)

/-- A literal as one element (R223, R268). -/
def litElem (f : Fmt) (v : BitVec 22) : Nat :=
  if isInt f then intElem f v.toInt
  else if f = .e8m0 then (toScale .rne (decodeF .fp32 false (litFp32 v))).1
  else litF (compOf f) v

/-- A single-value source as one element of a format (R268). -/
def readElem (f : Fmt) (opnd : Nat) (a : Src) : M Nat := do
  let w := fmtWidth f
  match a with
  | .tile n _ _ => raise .operand opnd n
  | .scal n m fe => do
    let v ← readScal opnd n fe
    pure (modElem f m (v.toNat % 2 ^ w))
  | .cbank bank size off => do
    if !isInt f && 8 * 2 ^ size ≠ w then raise .operand opnd (bank * 2 ^ 18 + size * 2 ^ 16 + off) else pure ()
    let bs ← readBank opnd bank size off
    if isInt f then pure (intElem f (readBits (isSigned f) (8 * 2 ^ size) (leNat bs))) else pure (leNat bs)
  | .lit v => pure (litElem f v)

/-- Bits 95:32 of the word that the issuer executes; a member's word is its leader's (R25). -/
def State.myWord (s : State) : Nat :=
  let a := s.cur
  let t := s.strand a
  let b := match (s.core a.core).gang with
    | some g => if g.seat = a.seat ∧ a.strn = .main then
        ({ core := g.leader, seat := ((s.core g.leader).gang.map (fun h => h.seat)).getD a.seat } : Agent) else a
    | none => a
  match s.fetchWord b t.pc t.fbuf with
  | .ok w => w.toNat / 2 ^ 32
  | .error _ => 0

/-- A modifier that the format does not take is a reserved bit (R268). -/
def modOk (f : Fmt) (a : Src) : M Unit := do
  let bad (m : SrcMod) : Bool := if isCX f then m.abs else m.conj
  let b := match a with | .tile _ m _ => bad m | .scal _ m _ => bad m | _ => false
  let w ← look State.myWord
  if b then raise .illegal 0 w else pure ()

/-! ### Sources -/

/-- A prepared source: a view with its modifiers, or one value for every position. -/
inductive TSrc where
  | view (n : Nat) (v : View) (m : SrcMod)
  | one (bits : Nat)
  deriving Repr, Inhabited

/-- Position (i, j) is valid. -/
def View.valid (v : View) (i j : Nat) : Bool := decide (i < v.vrows) && decide (j < v.vcols)

/-- Src of R269 as a pattern. -/
def TSrc.at (s : State) (c : Nat) (f : Fmt) (x : TSrc) (i j : Nat) : Nat :=
  match x with
  | .one b => b
  | .view _ v m => modElem f m (if v.valid i j then s.elemBits c v i j else 0)

/-- Destination view: defined, of the format that DMOD names, of an accepted layout and format (R267 to R269). -/
def destView (f : Option Fmt) (set : Fmt → Bool) (d : Nat) : M View := do
  let v ← useView 1 d
  need (match f with | some f => f == v.fm | none => true) 1 d
  need (v.plain && set v.fm) 1 d
  pure v

/-- Checks of a source before any wait: a view must have format `f` (R268, R269). -/
def checkSrc (opnd : Nat) (ok : View → Bool) (a : Src) : M Unit :=
  match a with
  | .tile n _ _ => do
    let v ← useView opnd n
    need (ok v) opnd n
  | _ => pure ()

/-- A row-major or column-major view of one format. -/
def sameFmt (f : Fmt) (v : View) : Bool := v.plain && v.fm == f

/-- Wait on a source and prepare it. -/
def loadSrc (opnd : Nat) (f : Fmt) (a : Src) : M TSrc :=
  match a with
  | .tile n m fe => do
    viewFull opnd n fe
    let x ← me
    pure (.view n (x.view n) m)
  | _ => do
    let b ← readElem f opnd a
    pure (.one b)

/-- A source read as .i64 where it is no view. -/
def loadI64 (opnd : Nat) (a : Src) : M (TSrc × Int) :=
  match a with
  | .tile .. => do
    let t ← loadSrc opnd .int64 a
    pure (t, 0)
  | _ => do
    let v ← readI64 opnd a
    pure (.one 0, v)

/-! ### Row groups -/

/-- The 8-byte words that a write touches (R92). -/
def Run.wide (r : Run) : Run :=
  if r.len = 0 then r else ⟨r.at_ / 64 * 64, (r.at_ + r.len + 63) / 64 * 64 - r.at_ / 64 * 64⟩

/-- A tile instruction's work: what each group reads and writes, by view number, and what it then does (R270). -/
structure Job where
  restart : Nat
  reads  : State → Nat → List (Nat × List Run)
  writes : State → Nat → List (Nat × List Run)
  act   : State → Nat → State

/-- Lowest offset of the local bytes that some runs of views, each with its number, may not reach (R94). -/
def State.deniedTrap (s : State) (k : Right) (l : List (Nat × List Run)) : Option Trap :=
  l.findSome? (fun e => (leastOf (e.2.map (s.runDenied s.cur.core s.me.who k (k == .w)))).map (permTrap e.1))

/-- A group of a job, once it has been checked. -/
def Job.plan (j : Job) (c g : Nat) : Group where
  pause := pauseTile j.restart false g
  can := fun s _ u => u.all (fun f => !(s.core c).heldRange (f.at_ / 8) ((f.at_ % 8 + f.len + 7) / 8) none)
  bad := fun u => addrTrap .poison ((u.map (fun f => f.at_ / 8)).min?.getD 0)
  again := fun s =>
    match s.deniedTrap .r (j.reads s g) with
    | some t => .error t
    | none => .ok (unitsOf (fragsAt c ((j.reads s g).flatMap (fun e => e.2))))
  act := fun s => j.act s g
  writes := fun s => (j.writes s g).map (fun e => unitsOf (fragsAt c e.2))

/-- An instruction that has been paused stands before group g. -/
def atGroup (n g : Nat) (fills : Bool) : M Unit := change (fun s =>
  (if s.myTile.isSome then s.modMyCore (fun x => { x with tile := some ⟨s.cur.seat, n, fills, g, .start⟩ }) else s).modMe
    (fun x => x.setProg n g))

/-- One row group (R270), all at once or as far as the choices of its granules go; where the scoreboard holds it, the
instruction goes on from this group later. -/
def Job.group (j : Job) (g : Nat) (ch : Option (List Nat)) : M (Option (List Nat)) := do
  atGroup j.restart g false
  if ch = some [] then pauseTile j.restart false g .start else pure ()
  let rs ← look (fun s => j.reads s g)
  let ws ← look (fun s => j.writes s g)
  forL ws (fun (n, l) => checkRuns n .w (l.map Run.wide))
  forL rs (fun (n, l) => checkRuns n .r l)
  let all := rs.flatMap (fun e => e.2) ++ ws.flatMap (fun e => e.2.map Run.wide)
  let held ← look (fun s => all.any (fun r => s.myCore.heldRange r.off r.bytes none))
  if held then pauseTile j.restart false g .start else pure ()
  goodRuns (rs.flatMap (fun e => e.2)) (ws.flatMap (fun e => e.2))
  match ch with
  | none => do
    change (fun s => (j.act s g).clearWhole (fragsAt s.cur.core (ws.flatMap (fun e => e.2))))
    pure none
  | some _ => do
    let c ← look (fun s => s.cur.core)
    (j.plan c g).run (.reads (unitsOf (fragsAt c (rs.flatMap (fun e => e.2)))) []) ch

/-- Groups one after another. -/
def Job.groups (j : Job) : List Nat → Option (List Nat) → M Unit
  | [], _ => pure ()
  | g :: gs, ch => do
    let ch ← j.group g ch
    j.groups gs ch

/-- Run the groups: from where the instruction paused, from PROG where an ERET resumes, else from 0 (R69, R270). -/
def Job.run (j : Job) (n : Nat) : M Unit := do
  afterLda
  bankQuiet
  let ch ← look (fun s => s.reach)
  let r ← look State.myTile
  match r with
  | some r => do
    let c ← look (fun s => s.cur.core)
    let ch ← (j.plan c r.group).run r.phase ch
    if r.phase ≠ .start ∧ r.group + 1 < n then boundary j.restart false (r.group + 1) else pure ()
    j.groups (List.range' (if r.phase = .start then r.group else r.group + 1)
      (n - (if r.phase = .start then r.group else r.group + 1))) ch
    change State.freeTile
  | none => do
    let x ← me
    let g0 := if x.resume then (x.view j.restart).prog else 0
    j.groups (List.range' g0 (n - g0)) ch
    change State.freeTile
  modMe (fun x => x.setProg j.restart 0)

/-- A tile instruction of a seat waits while another seat's has the engine (R271). A trap before its first group leaves PROG
of the restart view 0, unless it resumes (R69). -/
def fromZero (n : Nat) (m : M Unit) : M Unit := do
  tileFree
  fun s => match m s with
    | .error (.trap t) _ =>
      .error (.trapAt t) (if s.me.resume || s.myTile.isSome then s else s.modMe (fun x => x.setProg n 0))
    | r => r

/-- A tile instruction that the handler may not issue (R203): the double fault comes before any wait. -/
def tileOp (n : Nat) (m : M Unit) : M Unit := do
  noHandler
  fromZero n m

/-- Row groups of a view. -/
def View.groups (v : View) : Nat := (v.vrows + 7) / 8

/-- First row and end of the rows of a group. -/
def View.grp (v : View) (g : Nat) : Nat × Nat := (8 * g, min (8 * g + 8) v.vrows)

/-- Valid cells of a group. -/
def View.cells (v : View) (g : Nat) : List (Nat × Nat) :=
  let (r0, r1) := v.grp g
  (List.range' r0 (r1 - r0)).flatMap (fun i => (upto v.vcols).map (fun j => (i, j)))

/-- Write a list of cells of a view by a function that also answers flags. -/
def State.fillCells (s : State) (c : Nat) (v : View) (cells : List (Nat × Nat)) (f : Nat → Nat → Nat × Flags) : State :=
  let r := cells.foldl (fun (acc : State × Flags) (e : Nat × Nat) =>
    let (b, fl) := f e.1 e.2
    (acc.1.putElem c v e.1 e.2 b, acc.2 ||| fl)) (s, 0)
  r.1.modMe (fun x => x.raiseFlags r.2)

/-- What a group reads of sources that correspond to D position by position. -/
def alike (v : View) (xs : List TSrc) (g : Nat) : List (Nat × List Run) :=
  let (r0, r1) := v.grp g
  xs.filterMap (fun x => match x with
    | .view n y _ => some (n, y.runs r0 (min r1 y.vrows) (min v.vcols y.vcols))
    | .one _ => none)

/-- A job that computes each valid element of D. -/
def cellJob (c d : Nat) (v : View) (reads : State → Nat → List (Nat × List Run)) (f : State → Nat → Nat → Nat × Flags) : Job :=
  { restart := d, reads := reads
    writes := fun _ g => let (r0, r1) := v.grp g; [(d, v.runsW r0 r1 v.vcols)]
    act := fun s g => s.fillCells c v (v.cells g) (f s) }

/-- The elements of D that correspond to its sources position by position (R277). -/
def pointwise (d : Nat) (v : View) (xs : List TSrc) (f : State → Nat → Nat → Nat → Nat × Flags) : M Unit := do
  let c ← look (fun s => s.cur.core)
  (cellJob c d v (fun _ g => alike v xs g) (fun s i j => f s c i j)).run v.groups

/-! ### Views (R272 to R275) -/

def execTview (h : Head) (d : Nat) (a : Src) (s : State) : Out :=
  issue h (do
    noHandler
    tileFree
    let n ← readN64 2 a
    need (decide (n < 2 ^ 58)) 1 d
    let v0 := View.ofImage (n + 2 ^ 80 + 2 ^ 79)
    let v := { v0 with vrows := v0.rows, vcols := v0.cols }
    need v.ok 1 d
    let x ← me
    waitFor (x.view d).fe
    modMe (fun x => x.setView d v)) s

def execTvalid (h : Head) (clamp : Bool) (d : Nat) (a b : Src) (s : State) : Out :=
  issue h (tileOp d (do
    let v ← useView 1 d
    let r ← readI64 2 a
    let c ← readI64 3 b
    viewFree d
    if clamp then
      modMe (fun x => x.setView d { v with vrows := (min (max r 0) v.rows).toNat, vcols := (min (max c 0) v.cols).toNat
                                           prog := 0 })
    else do
      need (decide (0 ≤ r) && decide (r ≤ v.rows)) 2 (r % (2 ^ 64 : Nat)).toNat
      need (decide (0 ≤ c) && decide (c ≤ v.cols)) 3 (c % (2 ^ 64 : Nat)).toNat
      modMe (fun x => x.setView d { v with vrows := r.toNat, vcols := c.toNat, prog := 0 }))) s

def execTget (h : Head) (d : Nat) (a b : Src) (s : State) : Out :=
  issue h (do
    noHandler
    tileFree
    let (n, _, _) ← tileNum 2 a
    let k ← readI64 3 b
    need (k == 0 || k == 1) 3 (k % (2 ^ 64 : Nat)).toNat
    let x ← me
    let w := (x.view n).image
    writeScal d (BitVec.ofNat 64 (if k = 0 then w else w / 2 ^ 64))) s

/-- Bits of a descriptor image that must be zero, and the limits (R66, R275). -/
def imageOk (n : Nat) : Bool := decide (n < 2 ^ 81) && (!bitAt n 80 || (View.ofImage n).ok)

def execTldr (h : Head) (d : Nat) (a : Src) (s : State) : Out :=
  issue h (do
    noHandler
    tileFree
    let off ← readN64 2 a
    need (off % 16 == 0 && decide (off < 262144)) 2 off
    let x ← me
    waitFor (x.view d).fe
    afterLda
    bankQuiet
    let c ← look (fun s => s.cur.core)
    let ok ← look (fun s => localOk s c off 16 x.who .r false)
    if !ok then throw (.trap (addrTrap .localperm (coreVa c off))) else pure ()
    let held ← look (fun s => s.myCore.heldRange off 16 none)
    waitFor (!held)
    let bad ← look (fun s => s.locBad c off 16)
    match bad with
    | some i => throw (.trap (addrTrap .poison (off + i)))
    | none => do
      let n ← look (fun s => s.locNum c off 16)
      need (imageOk n) 1 d
      modMe (fun x => x.setView d { View.ofImage n with fe := true })) s

end Sys2Proof.Machine
end

