-- ==== Sys2Proof/Machine/TileOps.lean ====
section
/-! DEFINITION. Families 0x4 and 0x5: moves, fills, rearrangement (R276), elementwise arithmetic (R277 to R281) and
reduction (R282). -/
namespace Sys2Proof.Machine

/-! ### Moves and fills -/

/-- A move of whole elements from places that a function names; no place gives 0 (R276). -/
def moveCells (d : Nat) (v : View) (n : Nat) (y : View) (src : State → Nat → Nat → Option (Nat × Nat)) : M Unit := do
  let c ← look (fun s => s.cur.core)
  let from_ (s : State) (g : Nat) : List Run :=
    (v.cells g).filterMap (fun e => (src s e.1 e.2).bind (fun p =>
      if y.valid p.1 p.2 then some (y.elem p.1 p.2) else none))
  (cellJob c d v (fun s g => [(n, from_ s g)]) (fun s i j =>
    match src s i j with
    | some p => (if y.valid p.1 p.2 then s.elemBits c y p.1 p.2 else 0, 0)
    | none => (0, 0))).run v.groups

/-- A tile source of D's format, with its wait. -/
def tileSrc (v : View) (a : Src) : M (Nat × View) := do
  let (n, _, fe) ← tileNum 2 a
  checkSrc 2 (sameFmt v.fm) a
  viewFull 2 n fe
  let x ← me
  pure (n, x.view n)

/-- A move instruction whose places are a function of D's position. -/
def moveOp (h : Head) (f : Option Fmt) (d : Nat) (a : Src) (src : Nat → Nat → Nat × Nat) (s : State) : Out :=
  issue h (tileOp d (do
    let v ← destView f isNB d
    let (n, y) ← tileSrc v a
    viewFree d
    moveCells d v n y (fun _ i j => some (src i j)))) s

def execTmov (h : Head) (f : Option Fmt) (d : Nat) (a : Src) (s : State) : Out := moveOp h f d a (fun i j => (i, j)) s

def execTbcast (h : Head) (f : Option Fmt) (col : Bool) (d : Nat) (a : Src) (s : State) : Out :=
  moveOp h f d a (fun i j => if col then (i, 0) else (0, j)) s

def execTtrans (h : Head) (f : Option Fmt) (d : Nat) (a : Src) (s : State) : Out := moveOp h f d a (fun i j => (j, i)) s

/-- TCOPY of a block format: headers and elements, the rest of each header zero (R45); a block with no valid column in A copies as zero (log 14). -/
def copyBlocks (d : Nat) (v : View) (n : Nat) (y : View) : M Unit := do
  let c ← look (fun s => s.cur.core)
  let job : Job := {
    restart := d
    reads := fun _ g =>
      let (r0, r1) := v.grp g
      let rows := List.range' r0 (min r1 y.vrows - r0)
      [(n, rows.flatMap (fun i => y.hdrRuns i (min v.vcols y.vcols)) ++ y.runs r0 (min r1 y.vrows) (min v.vcols y.vcols))]
    writes := fun _ g =>
      let (r0, r1) := v.grp g
      [(d, if v.vcols = 0 then [] else (List.range' r0 (r1 - r0)).flatMap (fun i => v.hdrRuns i v.vcols ++ [v.hdrRest i]) ++
        v.runsW r0 r1 v.vcols)]
    act := fun s g =>
      let (r0, r1) := v.grp g
      let rows := if v.vcols = 0 then [] else List.range' r0 (r1 - r0)
      let t := rows.foldl (fun t i =>
        (List.zip (v.hdrRuns i v.vcols) (y.hdrRuns i v.vcols)).zipIdx.foldl (fun t e =>
          let ok := decide (i < y.vrows) && decide (32 * e.2 < y.vcols)
          t.setBits c e.1.1 (if ok then s.bits c e.1.2 else 0)) (t.zeroRest c v i)) s
      t.fillCells c v (v.cells g) (fun i j => (if y.valid i j then s.elemBits c y i j else 0, 0)) }
  job.run v.groups

/-- TCOPY of a bit-plane view: every line, in one group (R276, R289). -/
def copyPlanes (d : Nat) (v : View) (n : Nat) (y : View) : M Unit := do
  let c ← look (fun s => s.cur.core)
  let job : Job := {
    restart := d
    reads := fun _ _ => [(n, (upto y.rows).map y.lineRun)]
    writes := fun _ _ => [(d, (upto v.rows).map v.lineRun)]
    act := fun s _ => (upto v.rows).foldl (fun t i => t.setBits c (v.lineRun i) (s.bits c (y.lineRun i))) s }
  job.run 1

def execTcopy (h : Head) (f : Option Fmt) (d : Nat) (a : Src) (s : State) : Out :=
  issue h (tileOp d (do
    let v ← useView 1 d
    need (match f with | some f => f == v.fm | none => true) 1 d
    let (n, _, fe) ← tileNum 2 a
    let y ← useView 2 n
    need (v.rowsm1 == y.rowsm1 && v.colsm1 == y.colsm1 && v.fmt == y.fmt && v.layout == y.layout) 2 n
    need (!isBlock v.fm || v.layout != 1) 1 d
    if v.layout = 2 then do
      need (v.vrows == v.rows && v.vcols == v.cols) 1 d
      need (y.vrows == y.rows && y.vcols == y.cols) 2 n
    else pure ()
    viewFull 2 n fe
    viewFree d
    if v.layout = 2 then copyPlanes d v n y
    else if isBlock v.fm then copyBlocks d v n y
    else moveCells d v n y (fun _ i j => some (i, j)))) s

def execTfill (h : Head) (f : Option Fmt) (d : Nat) (a : Src) (s : State) : Out :=
  issue h (tileOp d (do
    let v ← destView f isNB d
    let b ← readElem v.fm 2 a
    viewFree d
    pointwise d v [] (fun _ _ _ _ => (b, 0)))) s

/-- k of TIOTA (R276). -/
def iotaK (m : IotaMode) (cols i j : Nat) : Nat :=
  match m with
  | .lin => i * cols + j | .row => j | .col => i

def execTiota (h : Head) (m : TMod) (mode : IotaMode) (d : Nat) (a b : Src) (s : State) : Out :=
  issue h (tileOp d (do
    let v ← destView m.fmt isFLIN d
    let f := v.fm
    let x ← readElem f 2 a
    let y ← readElem f 3 b
    viewFree d
    let t ← me
    pointwise d v [] (fun _ _ i j =>
      let k := iotaK mode v.cols i j
      if isInt f then
        let (r, fl) := fitInt (isSigned f) m.satx (fmtWidth f) (elemInt f x + k * elemInt f y)
        (intElem f r, fl)
      else
        let (r, f1) := fFma m.rnd (.ofInt k) (decodeF f t.ftz y) (decodeF f t.ftz x)
        let (p, f2) := roundF f t.ftz m.rnd .sat r
        (p, f1 ||| f2)))) s

def execTgather (h : Head) (f : Option Fmt) (flat : Bool) (d : Nat) (a b : Src) (s : State) : Out :=
  issue h (tileOp d (do
    let v ← destView f isNB d
    checkSrc 2 (sameFmt v.fm) a
    checkSrc 3 (fun y => y.plain && isIN y.fm) b
    let (n, y) ← tileSrc v a
    -- a view that only supplies indices is waited on with mode 0 (R269)
    let b0 := match b with | .tile k m _ => Src.tile k m false | x => x
    let (t, w) ← loadI64 3 b0
    viewFree d
    let c ← look (fun s => s.cur.core)
    let idx (s : State) (i j : Nat) : Int :=
      match t with
      | .view _ z m => elemInt z.fm ((TSrc.view 0 z m).at s c z.fm i j)
      | .one _ => w
    let place (s : State) (i j : Nat) : Option (Nat × Nat) :=
      let x := idx s i j
      if flat then
        if 0 ≤ x ∧ x < ((y.vrows * y.vcols : Nat) : Int) then some (x.toNat / y.vcols, x.toNat % y.vcols) else none
      else if 0 ≤ x ∧ x < (y.vcols : Int) ∧ i < y.vrows then some (i, x.toNat) else none
    (cellJob c d v (fun s g =>
        (n, (v.cells g).filterMap (fun e => (place s e.1 e.2).map (fun p => y.elem p.1 p.2))) :: alike v [t] g)
      (fun s i j => match place s i j with
        | some p => (s.elemBits c y p.1 p.2, 0)
        | none => (0, 0))).run v.groups)) s

/-! ### Elementwise arithmetic -/

/-- Round an exact result into a tile format (R278). -/
def roundEl (f : Fmt) (ftz : Bool) (r : Rnd) (x : FVal × Flags) : Nat × Flags :=
  let (b, fl) := roundF f ftz r .sat x.1
  (b, x.2 ||| fl)

/-- An elementwise operation: on exact integers, or on exact values rounded in a mode; complex formats by component
(R277, R278). `d` is the old element of D. -/
def arith (f : Fmt) (ftz sat : Bool) (r : Rnd) (onI : Int → Int → Int → Int) (onF : FVal → FVal → FVal → FVal × Flags)
    (a b d : Nat) : Nat × Flags :=
  if isInt f then
    let (v, fl) := fitInt (isSigned f) sat (fmtWidth f) (onI (elemInt f a) (elemInt f b) (elemInt f d))
    (intElem f v, fl)
  else
    let g := compOf f
    let one (x y z : Nat) := roundEl g ftz r (onF (decodeF g ftz x) (decodeF g ftz y) (decodeF g ftz z))
    if isCX f then
      let (ar, ai) := comps f a
      let (br, bi) := comps f b
      let (dr, di) := comps f d
      let (re, f1) := one ar br dr
      let (im, f2) := one ai bi di
      (pairUp f re im, f1 ||| f2)
    else one a b d

/-- An elementwise instruction of two sources in D's format; `rd` where D is read too. -/
def tile2 (h : Head) (fm : Option Fmt) (set : Fmt → Bool) (rd : Bool) (d : Nat) (a b : Src)
    (f : Fmt → Bool → Nat → Nat → Nat → Nat × Flags) (s : State) : Out :=
  issue h (tileOp d (do
    let v ← destView fm set d
    checkSrc 2 (sameFmt v.fm) a
    checkSrc 3 (sameFmt v.fm) b
    modOk v.fm a
    modOk v.fm b
    let x ← loadSrc 2 v.fm a
    let y ← loadSrc 3 v.fm b
    viewFree d
    let t ← me
    let z : TSrc := .view d v ⟨false, false, false⟩
    pointwise d v ([x, y] ++ (if rd then [z] else [])) (fun s c i j =>
      f v.fm t.ftz (x.at s c v.fm i j) (y.at s c v.fm i j) (if rd then s.elemBits c v i j else 0)))) s

/-- An elementwise instruction of one source in D's format. -/
def tile1 (h : Head) (fm : Option Fmt) (set : Fmt → Bool) (d : Nat) (a : Src) (f : Fmt → Bool → Nat → Nat × Flags)
    (s : State) : Out :=
  issue h (tileOp d (do
    let v ← destView fm set d
    checkSrc 2 (sameFmt v.fm) a
    modOk v.fm a
    let x ← loadSrc 2 v.fm a
    viewFree d
    let t ← me
    pointwise d v [x] (fun s c i j => f v.fm t.ftz (x.at s c v.fm i j)))) s

def execTadd (h : Head) (m : TMod) (d : Nat) (a b : Src) (s : State) : Out :=
  tile2 h m.fmt isFLINCX false d a b (fun f z => arith f z m.satx m.rnd (fun x y _ => x + y) (fun x y _ => fAdd m.rnd x y)) s

def execTsub (h : Head) (m : TMod) (d : Nat) (a b : Src) (s : State) : Out :=
  tile2 h m.fmt isFLINCX false d a b
    (fun f z => arith f z m.satx m.rnd (fun x y _ => x - y) (fun x y _ => fAdd m.rnd x y.negate)) s

def execTmul (h : Head) (m : TMod) (d : Nat) (a b : Src) (s : State) : Out :=
  tile2 h m.fmt isFLIN false d a b (fun f z => arith f z m.satx m.rnd (fun x y _ => x * y) (fun x y _ => fMul x y)) s

def execTfma (h : Head) (m : TMod) (d : Nat) (a b : Src) (s : State) : Out :=
  tile2 h m.fmt isFLIN true d a b
    (fun f z => arith f z m.satx m.rnd (fun x y w => x * y + w) (fun x y w => fFma m.rnd x y w)) s

def execTdiv (h : Head) (f : Option Fmt) (rnd : Rnd) (d : Nat) (a b : Src) (s : State) : Out :=
  tile2 h f isFL false d a b (fun f z => arith f z false rnd (fun x _ _ => x) (fun x y _ => fDiv x y)) s

def execTmin (h : Head) (f : Option Fmt) (d : Nat) (a b : Src) (s : State) : Out :=
  tile2 h f isFLIN false d a b (fun f z => arith f z false .rne (fun x y _ => min x y) (fun x y _ => fMinMax false x y)) s

def execTmax (h : Head) (f : Option Fmt) (d : Nat) (a b : Src) (s : State) : Out :=
  tile2 h f isFLIN false d a b (fun f z => arith f z false .rne (fun x y _ => max x y) (fun x y _ => fMinMax true x y)) s

/-- Sign-bit operation on floats, exact integer operation otherwise (R278). -/
def signOp (m : SrcMod) (onI : Int → Int) (satx : Bool) (f : Fmt) (a : Nat) : Nat × Flags :=
  if isInt f then
    let (v, fl) := fitInt (isSigned f) satx (fmtWidth f) (onI (elemInt f a))
    (intElem f v, fl)
  else (modElem f m a, 0)

def execTabs (h : Head) (f : Option Fmt) (satx : Bool) (d : Nat) (a : Src) (s : State) : Out :=
  tile1 h f isFLIN d a (fun f _ => signOp ⟨false, true, false⟩ (fun x => x.natAbs) satx f) s

def execTneg (h : Head) (f : Option Fmt) (satx : Bool) (d : Nat) (a : Src) (s : State) : Out :=
  tile1 h f isFLINCX d a (fun f _ => signOp ⟨true, false, false⟩ (fun x => -x) satx f) s

def execTand (h : Head) (f : Option Fmt) (d : Nat) (a b : Src) (s : State) : Out :=
  tile2 h f isIN false d a b (fun _ _ x y _ => (x &&& y, 0)) s

def execTor (h : Head) (f : Option Fmt) (d : Nat) (a b : Src) (s : State) : Out :=
  tile2 h f isIN false d a b (fun _ _ x y _ => (x ||| y, 0)) s

def execTxor (h : Head) (f : Option Fmt) (d : Nat) (a b : Src) (s : State) : Out :=
  tile2 h f isIN false d a b (fun _ _ x y _ => (x ^^^ y, 0)) s

/-- TSHL and TSHR: the count is an element of B zero-extended, or all 64 bits of a scalar with its modifiers (R278,
log 15). -/
def tileShift (h : Head) (fm : Option Fmt) (d : Nat) (a b : Src) (f : Fmt → Nat → Nat → Nat) (s : State) : Out :=
  issue h (tileOp d (do
    let v ← destView fm isIN d
    checkSrc 2 (sameFmt v.fm) a
    checkSrc 3 (sameFmt v.fm) b
    modOk v.fm a
    modOk v.fm b
    let x ← loadSrc 2 v.fm a
    let y ← match b with
      | .scal .. => do let n ← readN64 3 b; pure (TSrc.one n)
      | _ => loadSrc 3 v.fm b
    viewFree d
    pointwise d v [x, y] (fun s c i j => (f v.fm (x.at s c v.fm i j) (y.at s c v.fm i j), 0)))) s

def execTshl (h : Head) (f : Option Fmt) (d : Nat) (a b : Src) (s : State) : Out :=
  tileShift h f d a b (fun f x n => if fmtWidth f ≤ n then 0 else x * 2 ^ n % 2 ^ fmtWidth f) s

def execTshr (h : Head) (f : Option Fmt) (d : Nat) (a b : Src) (s : State) : Out :=
  tileShift h f d a b (fun f x n => intElem f (elemInt f x / (2 ^ min n (fmtWidth f) : Nat))) s

/-- Comparison format of TCMP: of A, else of B, else of D (R279). -/
def cmpFmt (va vb vd : Option Fmt) : Fmt := (va.orElse (fun _ => vb.orElse (fun _ => vd))).getD .fp64

/-- Format of a view that a source names. -/
def viewFmt (a : Src) : M (Option Fmt) :=
  match a with
  | .tile n _ _ => do
    let x ← me
    pure (some (x.view n).fm)
  | _ => pure none

def execTcmp (h : Head) (f : Option Fmt) (cc : Nat) (d : Nat) (a b : Src) (s : State) : Out :=
  issue h (tileOp d (do
    let v ← destView f isIN d
    let fa ← viewFmt a
    let fb ← viewFmt b
    let g := cmpFmt fa fb (some v.fm)
    checkSrc 2 (fun y => sameFmt g y && isFLIN g) a
    checkSrc 3 (fun y => sameFmt g y && isFLIN g) b
    let x ← loadSrc 2 g a
    let y ← loadSrc 3 g b
    viewFree d
    let t ← me
    pointwise d v [x, y] (fun s c i j =>
      let p := x.at s c g i j
      let q := y.at s c g i j
      let (r, fl) := if isInt g then (iCond cc (fmtWidth g) (elemInt g p) (elemInt g q), 0)
        else fCond cc (decodeF g t.ftz p) (decodeF g t.ftz q)
      (if r then 2 ^ fmtWidth v.fm - 1 else 0, fl)))) s

def execTsel (h : Head) (f : Option Fmt) (mv : Nat) (d : Nat) (a b : Src) (s : State) : Out :=
  issue h (tileOp d (do
    let v ← destView f isNB d
    checkSrc 2 (sameFmt v.fm) a
    checkSrc 3 (sameFmt v.fm) b
    let m ← useView 0 mv
    need m.plain 0 mv
    let x ← loadSrc 2 v.fm a
    let y ← loadSrc 3 v.fm b
    viewFull 0 mv false
    viewFree d
    pointwise d v [x, y, .view mv m ⟨false, false, false⟩] (fun s c i j =>
      (if m.valid i j && s.elemBits c m i j != 0 then x.at s c v.fm i j else y.at s c v.fm i j, 0)))) s

/-- One fused step, rounded into the component format. -/
def fmaStep (f : Fmt) (ftz : Bool) (r : Rnd) (acc : Nat × Flags) (neg : Bool) (x y : Nat) : Nat × Flags :=
  let a := decodeF f ftz x
  let p := fFma r (if neg then a.negate else a) (decodeF f ftz y) (decodeF f ftz acc.1)
  let (b, fl) := roundEl f ftz r p
  (b, acc.2 ||| fl)

/-- The four steps of R281 from an accumulator. -/
def cmulSteps (f : Fmt) (ftz : Bool) (r : Rnd) (a b d : Nat) : Nat × Flags :=
  let g := compOf f
  let (ar, ai) := comps f a
  let (br, bi) := comps f b
  let (dr, di) := comps f d
  let re := fmaStep g ftz r (fmaStep g ftz r (dr, 0) false ar br) true ai bi
  let im := fmaStep g ftz r (fmaStep g ftz r (di, 0) false ar bi) false ai br
  (pairUp f re.1 im.1, re.2 ||| im.2)

def execTcmul (h : Head) (f : Option Fmt) (rnd : Rnd) (d : Nat) (a b : Src) (s : State) : Out :=
  tile2 h f isCX false d a b (fun f z x y _ => cmulSteps f z rnd x y 0) s

def execTcfma (h : Head) (f : Option Fmt) (rnd : Rnd) (d : Nat) (a b : Src) (s : State) : Out :=
  tile2 h f isCX true d a b (fun f z x y w => cmulSteps f z rnd x y w) s

/-! ### Reduction (R60, R282) -/

/-- One level of the tree. -/
def treeLevel (f : Nat → Nat → Nat × Flags) : List Nat → List Nat × Flags
  | x :: y :: l =>
    let (z, f1) := f x y
    let (r, f2) := treeLevel f l
    (z :: r, f1 ||| f2)
  | l => (l, 0)

/-- The balanced tree of R60 on patterns, with fuel for its levels. -/
def treeOf (f : Nat → Nat → Nat × Flags) : Nat → List Nat → List Nat × Flags
  | 0, l => (l, 0)
  | k + 1, l =>
    match l with
    | _ :: _ :: _ =>
      let (r, f1) := treeLevel f l
      let (q, f2) := treeOf f k r
      (q, f1 ||| f2)
    | _ => (l, 0)

/-- A reduction of patterns of a real floating-point format. -/
def reduceF (f : Fmt) (ftz : Bool) (r : Rnd) (op : RedOp) (l : List Nat) : Nat × Flags :=
  let comb (x y : Nat) : Nat × Flags :=
    let a := decodeF f ftz x
    let b := decodeF f ftz y
    roundEl f ftz r (match op with | .sum => fAdd r a b | .min => fMinMax false a b | .max => fMinMax true a b)
  match l with
  | [] => (match op with | .sum => 0 | .min => infBits f false | .max => infBits f true, 0)
  | [x] =>
    -- a single value passes the rules for NaN and FTZ on reading
    let a := decodeF f ftz x
    roundEl f ftz r (a, a.nvOf)
  | _ =>
    let (q, fl) := treeOf comb 16 l
    (q.headD 0, fl)

/-- A reduction of patterns of a format. -/
def reduce (f : Fmt) (ftz sat : Bool) (r : Rnd) (op : RedOp) (l : List Nat) : Nat × Flags :=
  if isInt f then
    let w := fmtWidth f
    let vs := l.map (elemInt f)
    match op with
    | .sum =>
      let (v, fl) := fitInt (isSigned f) sat w vs.sum
      (intElem f v, fl)
    | .min => (intElem f (vs.foldl min (hiOf (isSigned f) w)), 0)
    | .max => (intElem f (vs.foldl max (loOf (isSigned f) w)), 0)
  else if isCX f then
    let (re, f1) := reduceF (compOf f) ftz r op (l.map (fun x => (comps f x).1))
    let (im, f2) := reduceF (compOf f) ftz r op (l.map (fun x => (comps f x).2))
    (pairUp f re im, f1 ||| f2)
  else reduceF f ftz r op l

def execTred (h : Head) (m : TMod) (op : RedOp) (axis : RedAxis) (d : Nat) (a : Src) (s : State) : Out :=
  issue h (tileOp d (do
    let v ← destView m.fmt (fun f => if op == .sum then isFLINCX f else isFLIN f) d
    let (n, y) ← tileSrc v a
    viewFree d
    let c ← look (fun s => s.cur.core)
    let t ← me
    let f := v.fm
    let rowOf (s : State) (i : Nat) : List Nat :=
      if i < y.vrows then (upto y.vcols).map (fun j => s.elemBits c y i j) else []
    let colOf (s : State) (j : Nat) : List Nat :=
      if j < y.vcols then (upto y.vrows).map (fun i => s.elemBits c y i j) else []
    let red := reduce f t.ftz m.satx m.rnd op
    let none_ := v.vrows == 0 || v.vcols == 0
    match axis with
    | .row =>
      let job : Job := {
        restart := d
        reads := fun _ g => let (r0, r1) := v.grp g; [(n, if none_ then [] else y.runs r0 (min r1 y.vrows) y.vcols)]
        writes := fun _ g => let (r0, r1) := v.grp g; [(d, if none_ then [] else v.runsW r0 r1 1)]
        act := fun s g =>
          let (r0, r1) := v.grp g
          if none_ then s else s.fillCells c v ((List.range' r0 (r1 - r0)).map (fun i => (i, 0))) (fun i _ => red (rowOf s i)) }
      job.run v.groups
    | .col =>
      let k := min v.vcols y.vcols
      let job : Job := {
        restart := d
        reads := fun _ _ => [(n, if none_ then [] else y.runs 0 y.vrows k)]
        writes := fun _ _ => [(d, if none_ then [] else v.runsW 0 1 v.vcols)]
        act := fun s _ =>
          if none_ then s else s.fillCells c v ((upto v.vcols).map (fun j => (0, j))) (fun _ j => red (colOf s j)) }
      job.run 1
    | .all =>
      let job : Job := {
        restart := d
        reads := fun _ _ => [(n, if none_ then [] else y.runs 0 y.vrows y.vcols)]
        writes := fun _ _ => [(d, if none_ then [] else v.runsW 0 1 1)]
        act := fun s _ =>
          if none_ then s
          else s.fillCells c v [(0, 0)] (fun _ _ => red ((upto y.vrows).flatMap (rowOf s))) }
      job.run 1)) s

end Sys2Proof.Machine
end

