-- ==== Sys2Proof/Machine/Special.lean ====
section
/-! DEFINITION. Family 0x6: special functions (R283), conversion (R50 to R52, R62 to R64, R284), scaling (R285) and
splitting (R61, R286). -/
namespace Sys2Proof.Machine

/-! ### Special functions

A function value is approximated in fixed point, to far below a unit of FP64; the result is the free value of
Config.special where it lies within the bound of R283 around that approximation, else the nearest value (log 9). -/

/-- Bits of the fixed-point approximation. -/
def fxP : Nat := 192

/-- 2^(2^-1), 2^(2^-2), … times the bits of a fraction, most significant first. -/
def exp2Frac (r : Nat) : Nat → Nat → Nat → Nat
  | 0, _, acc => acc
  | k + 1, c, acc =>
    let c1 := natSqrt (c * 2 ^ fxP)
    exp2Frac r k c1 (if r.testBit k then acc * c1 / 2 ^ fxP else acc)

/-- 2^x for x = m · 2^e with sign. -/
def exp2At (neg : Bool) (m : Nat) (e : Int) : FVal :=
  let sh := e + fxP
  let q := if 0 ≤ sh then m * 2 ^ sh.toNat else m / 2 ^ (-sh).toNat
  let x : Int := if neg then -(q : Int) - (if 0 ≤ sh then 0 else 1) else q
  let n := x / (2 ^ fxP : Nat)
  let r := (x % (2 ^ fxP : Nat)).toNat
  .fin false (exp2Frac r fxP (2 * 2 ^ fxP) (2 ^ fxP)) (n - fxP)

/-- Bits of log2 of y / 2^(2·fxP), 1 ≤ that < 2, by squaring. -/
def log2Bits : Nat → Nat → Nat → Nat
  | 0, _, acc => acc
  | k + 1, y, acc =>
    let z := y * y / 2 ^ (2 * fxP)
    if 2 * 2 ^ (2 * fxP) ≤ z then log2Bits k (z / 2) (2 * acc + 1) else log2Bits k z (2 * acc)

/-- log2 of m · 2^e, m ≠ 0. -/
def log2At (m : Nat) (e : Int) : FVal :=
  let l := Nat.log2 m
  let y := m * 2 ^ (2 * fxP) / 2 ^ l
  let v : Int := ((l : Int) + e) * (2 ^ fxP : Nat) + log2Bits fxP y 0
  .fin (decide (v < 0)) v.natAbs (-(fxP : Int))

/-- π in units of 2^-192. -/
def piFx : Nat := 0x3243F6A8885A308D313198A2E03707344A4093822299F31D0

/-- sin x in fixed point for 0 ≤ x by its series: `k` terms from term (n). -/
def sinSeries (x2 : Nat) : Nat → Nat → Int → Int → Int
  | 0, _, _, acc => acc
  | k + 1, n, t, acc =>
    let t1 := -(t * x2 / (2 ^ fxP : Nat)) / ((2 * n * (2 * n + 1) : Nat) : Int)
    sinSeries x2 k (n + 1) t1 (acc + t1)

/-- sin 2πt for a turn t in units of 2^-192. -/
def sinTurn (t : Nat) : Int :=
  let q := 2 ^ fxP / 4
  let t := t % (4 * q)
  let (neg, u) := if t < 2 * q then (false, t) else (true, t - 2 * q)
  let u := if u ≤ q then u else 2 * q - u
  let x := 2 * piFx * u / 2 ^ fxP
  let v := sinSeries (x * x / 2 ^ fxP) 40 1 x x
  if neg then -v else v

/-- sin or cos of 2πa for a = ±m · 2^e that is no multiple of 1/4. -/
def trigAt (cos neg : Bool) (m : Nat) (e : Int) : FVal :=
  let sh := e + fxP
  let t := if 0 ≤ sh then m * 2 ^ sh.toNat else m / 2 ^ (-sh).toNat
  if !cos && decide ((Nat.log2 m : Int) + e < -64) then .fin neg (2 * piFx * m) (e - fxP)
  else
  let v := sinTurn (if cos then t + 2 ^ fxP / 4 else t)
  let w := if neg && !cos then -v else v
  .fin (decide (w < 0)) w.natAbs (-(fxP : Int))

/-- The unit in the last place of a value in a format: its exponent (R47). -/
def ulpExp (f : Fmt) (m : Nat) (e : Int) : Int :=
  let p := fpar f
  max ((Nat.log2 m : Int) + e) (1 - (p.bias : Int)) - p.fbits

/-- |x − y| ≤ k · 2^u. -/
def within (x y : FVal) (k : Nat) (u : Int) : Bool :=
  match x, y with
  | .fin n1 m1 e1, .fin n2 m2 e2 =>
    let w := min (min (if m1 = 0 then u else e1) (if m2 = 0 then u else e2)) u
    let a := if m1 = 0 then 0 else sigAt n1 m1 e1 w
    let b := if m2 = 0 then 0 else sigAt n2 m2 e2 w
    decide ((a - b).natAbs ≤ k * 2 ^ (u - w).toNat)
  | _, _ => false

/-- A bounded result in FP64 or FP32: the free value where R283 allows it, else the nearest; `ulps` the relative bound,
`abs` an absolute bound's exponent. `irr` says that the exact value is none of the format's (log 9). -/
def bounded (f : Fmt) (free : Nat) (y : FVal) (ulps : Nat) (abs : Option Int) (irr : Bool) : Nat × Flags :=
  match y with
  | .fin _ m e =>
    let u := if m = 0 then 1 - ((fpar f).bias : Int) - (fpar f).fbits else ulpExp f m e
    let x := decodeF f false free
    let (b, fl) := roundF f false .rne .sat y
    let tiny := m == 0 || decide ((Nat.log2 m : Int) + e < 1 - ((fpar f).bias : Int))
    let ok := within x y ulps u || (match abs with | some k => within x y 1 k | none => false)
    let nx := if tiny then fNX ||| fUF else fNX
    if fl &&& fOF != 0 then (b, fl)
    else if ok then (free, if !irr && within x y 0 u then 0 else nx)
    else (b, if irr then fl ||| nx else fl)
  | y => roundF f false .rne .sat y

/-- A function of R283 on a value, in FP64 or FP32, its argument's pattern given. -/
def specialWide (f : Fmt) (k : Config.Special) (x : FVal) (bits : Nat) : Nat × Flags :=
  let dp := f == .fp64
  let free := (Config.special k dp (BitVec.ofNat 64 bits)).toNat % 2 ^ fmtWidth f
  let exact (v : FVal) : Nat × Flags := roundF f false .rne .sat v
  let inv : Nat × Flags := (defaultNan f, fNV)
  let u12 := if dp then 1 else 2
  match x with
  | .nan s => (defaultNan f, if s then fNV else 0)
  | .inf n =>
    match k with
    | .exp2 => if n then exact (.fin false 0 0) else exact (.inf false)
    | .log2 => if n then inv else exact (.inf false)
    | .rsq => if n then inv else exact (.fin false 0 0)
    | .sin | .cos => inv
  | .fin n m e =>
    let whole := m = 0 ∨ 0 ≤ e ∨ m % 2 ^ (-e).toNat = 0
    match k with
    | .exp2 =>
      let lg : Int := (Nat.log2 m : Int) + e
      if whole then
        let v : Int := if 12 < lg then 4096 else if 0 ≤ e then m * 2 ^ e.toNat else m / 2 ^ (-e).toNat
        if m = 0 then exact (.fin false 1 0)
        else
          let y : FVal := .fin false 1 (if n then -v else v)
          let r := exact y
          if r.2 = 0 then r else bounded f free y u12 none true
      else if 12 < lg then bounded f free (.fin false 1 (if n then -4096 else 4096)) u12 none true
      else bounded f free (exp2At n m e) u12 none true
    | .log2 =>
      if m = 0 then (infBits f true, fDZ)
      else if n then inv
      else if m = 2 ^ Nat.log2 m then exact (.ofInt ((Nat.log2 m : Int) + e))
      else bounded f free (log2At m e) u12 none true
    | .rsq =>
      if m = 0 then (infBits f n, fDZ)
      else if n then inv
      else bounded f free (fSqrt (fDiv (.fin false 1 0) x).1).1 1 none false
    | .sin | .cos =>
      let cos := k == .cos
      let four := m = 0 ∨ 0 ≤ e + 2 ∨ m % 2 ^ (-(e + 2)).toNat = 0
      if four then
        let q := if m = 0 then 0 else (if 0 ≤ e + 2 then m * 2 ^ (min (e + 2) 2).toNat else m / 2 ^ (-(e + 2)).toNat) % 4
        let t := if cos then (q + 1) % 4 else q
        if t % 2 = 0 then exact (.fin (if cos then false else n) 0 0)
        else exact (.fin (xor (t == 3) (n && !cos)) 1 0)
      else bounded f free (trigAt cos n m e) u12 (some (if dp then -53 else -24)) true

/-- FP16 and BF16 results are the FP32 result rounded in RNE (R283). -/
def narrowRes (f : Fmt) (ftz : Bool) (r : Nat × Flags) : Nat × Flags :=
  if f = .fp64 ∨ f = .fp32 then r
  else
    let x := decodeF .fp32 false r.1
    let (b, fl) := roundF f ftz .rne .sat x
    let tiny := match x with
      | .fin _ m e => m != 0 && decide ((Nat.log2 m : Int) + e < 1 - ((fpar f).bias : Int))
      | _ => false
    (b, r.2 ||| fl ||| (if tiny && (r.2 &&& fNX) != 0 then fUF else 0))

/-- A function of R283 on an element. -/
def specialEl (k : Config.Special) (f : Fmt) (ftz : Bool) (a : Nat) : Nat × Flags :=
  let x := decodeF f ftz a
  let wide := if f = .fp64 then .fp64 else .fp32
  narrowRes f ftz (specialWide wide k x (roundF wide false .rne .sat x).1)

/-- TRCP and TSQRT: correctly rounded in FP64 and FP32 (R283). -/
def rootEl (g : FVal → FVal × Flags) (rnd : Rnd) (f : Fmt) (ftz : Bool) (a : Nat) : Nat × Flags :=
  let wide := if f = .fp64 then .fp64 else .fp32
  narrowRes f ftz (roundEl wide false rnd (g (decodeF f ftz a)))

def execTexp2 (h : Head) (f : Option Fmt) (d : Nat) (a : Src) (s : State) : Out := tile1 h f isFL d a (specialEl .exp2) s
def execTlog2 (h : Head) (f : Option Fmt) (d : Nat) (a : Src) (s : State) : Out := tile1 h f isFL d a (specialEl .log2) s
def execTrsq (h : Head) (f : Option Fmt) (d : Nat) (a : Src) (s : State) : Out := tile1 h f isFL d a (specialEl .rsq) s
def execTsin (h : Head) (f : Option Fmt) (d : Nat) (a : Src) (s : State) : Out := tile1 h f isFL d a (specialEl .sin) s
def execTcos (h : Head) (f : Option Fmt) (d : Nat) (a : Src) (s : State) : Out := tile1 h f isFL d a (specialEl .cos) s

def execTrcp (h : Head) (f : Option Fmt) (rnd : Rnd) (d : Nat) (a : Src) (s : State) : Out :=
  tile1 h f isFL d a (rootEl (fun x => fDiv (.fin false 1 0) x) rnd) s

def execTsqrt (h : Head) (f : Option Fmt) (rnd : Rnd) (d : Nat) (a : Src) (s : State) : Out :=
  tile1 h f isFL d a (rootEl fSqrt rnd) s

/-! ### Blocks -/

/-- Value of an element pattern of a real format at header place k, from the header's bytes (R51, R52, R284). -/
def valOf (f : Fmt) (ftz : Bool) (b k : Nat) (hd : Nat → Nat) : FVal :=
  if isMX f then
    let sc := hd k
    if sc = 255 then .nan false else (decodeF (elemOf f) ftz b).scale ((sc : Int) - 127)
  else if isDXF f then
    let mb := if f = .dxf4 then 2 else 6
    let ex := hd (if b.testBit mb then k + 1 else k)
    if ex = 255 then .nan false else .fin (b.testBit (mb + 1)) (b % 2 ^ mb) ((ex : Int) - 127)
  else if isInt f then .ofInt (elemInt f b)
  else decodeF f ftz b

/-- Value of element (i, j) of a view of a real format. -/
def State.elemVal (s : State) (c : Nat) (v : View) (ftz : Bool) (i j : Nat) : FVal :=
  let (l, p) := if v.layout = 1 then (j, i) else (i, j)
  valOf v.fm ftz (s.elemBits c v i j) (v.hdrAt p).1 (s.hdrByte c v l)

/-- The larger magnitude of two finite values. -/
def bigger (a b : FVal) : FVal :=
  match a, b with
  | .fin _ m1 e1, .fin _ m2 e2 => if fLt (.fin false m1 e1) (.fin false m2 e2) then .fin false m2 e2 else .fin false m1 e1
  | a, _ => a

/-- Largest finite magnitude of a list, +0 where there is none. -/
def largest (l : List FVal) : FVal :=
  l.foldl (fun a x => match x with | .fin .. => bigger a x | _ => a) (.fin false 0 0)

/-- floor(log2) of a finite value that is not zero. -/
def fLog (x : FVal) : Int :=
  match x with
  | .fin _ m e => (Nat.log2 m : Int) + e
  | _ => 0

/-- A block that .nan makes NaN as a whole (R51, R52). -/
def nanBlock (l : List FVal) : Bool := l.any (fun x => match x with | .fin .. => false | _ => true)

/-- emax of an MX element format (R51). -/
def emaxOf : Fmt → Int
  | .e4m3 => 8 | .e5m2 => 15 | .e3m2 => 4 | _ => 2

/-- ConvertMX: the scale byte, the elements, the flags (R51). -/
def convertMX (f : Fmt) (ftz satx : Bool) (r : Rnd) (l : List FVal) : Nat × List Nat × Flags :=
  if satx && nanBlock l then (255, l.map (fun _ => 0), if l.any FVal.isNan then fNV else 0)
  else
    let a := largest l
    let e0 : Int := if a.isZero then 0 else fLog a - emaxOf f
    let e := min (max e0 (-127)) 127
    let one (x : FVal) : Nat × Flags :=
      match x with
      | .nan _ => (0, fNV)
      | .inf n => (maxBits f n, fNV)
      | .fin .. =>
        let (b, fl) := roundF f ftz r .sat (x.scale (-e))
        if fl &&& fOF != 0 then (maxBits f x.neg?, fNX) else (b, fl)
    let rs := l.map one
    ((e + 127).toNat, rs.map (fun x => x.1), rs.foldl (fun a x => a ||| x.2) 0)

/-- ConvertDXF: the two exponents, the elements, the flags (R52). -/
def convertDXF (mb : Nat) (satx : Bool) (r : Rnd) (l : List FVal) : (Nat × Nat) × List Nat × Flags :=
  if satx && nanBlock l then ((255, 255), l.map (fun _ => 0), if l.any FVal.isNan then fNV else 0)
  else
    let a := largest l
    let e0 : Int := min (max (if a.isZero then 0 else fLog a - ((mb : Int) - 1)) (-127)) 127
    let e1 : Int := max (e0 - mb) (-127)
    let top := 2 ^ mb - 1
    let one (x : FVal) : Nat × Flags :=
      let put (neg : Bool) (m : Nat) (e : Int) : Nat × Flags :=
        let k1 := (roundAt r neg m e e1).1
        let (sel, k) := if k1 ≤ top then (1, k1) else (0, min (roundAt r neg m e e0).1 top)
        let sel := if k = 0 then 0 else sel
        let ex := if sel = 1 then e1 else e0
        let same := within (.fin false k ex) (.fin false m e) 0 (min ex e)
        (neg.toNat * 2 ^ (mb + 1) + sel * 2 ^ mb + k, if same then 0 else fNX)
      match x with
      | .nan _ => (0, fNV)
      | .inf n =>
        let (b, fl) := match a with
          | .fin _ m e => put n m e
          | _ => put n 0 0
        (b, fl ||| fNV)
      | .fin n m e => put n m e
    let rs := l.map one
    (((e0 + 127).toNat, (e1 + 127).toNat), rs.map (fun x => x.1), rs.foldl (fun a x => a ||| x.2) 0)

/-! ### Conversion -/

/-- Rotation of a block of values by the Hadamard matrix, exact (R62). An exact zero is +0 in every mode (log 94). -/
def hadamard (l : List FVal) : List FVal × Flags :=
  let par (n : Nat) : Bool := ((upto 8).filter (fun b => n.testBit b)).length % 2 == 1
  let nv := l.foldl (fun (f : Flags) x => f ||| x.nvOf) 0
  let rs := (upto l.length).map (fun i =>
    let xs := l.zipIdx.map (fun e => if par (i &&& e.2) then e.1.negate else e.1)
    (xs.foldl (fun y x => (fAdd .rne y x).1) (.fin false 0 0), infClash xs))
  (rs.map (fun x => x.1), rs.foldl (fun a x => a ||| x.2) nv)

/-- Cut a list into pieces of n, with fuel. -/
def pieces {α : Type} (n : Nat) : Nat → List α → List (List α)
  | 0, _ => []
  | k + 1, l => if l.isEmpty then [] else l.take n :: pieces n k (l.drop n)

/-- AMAX and NANSEEN after an element that TCONV reads (R63). -/
def amaxStep (acc : Nat × Flags) (x : FVal) : Nat × Flags :=
  match x with
  | .nan _ => (acc.1, acc.2 ||| fNAN ||| x.nvOf)
  | .inf _ => acc
  | .fin _ m e => (max acc.1 (roundF .fp64 false .rne .sat (.fin false m e)).1, acc.2)

/-- One value into an element of a format without blocks (R50, R284). `fromInt` says that the source is an integer. -/
def convertEl (f : Fmt) (fromInt ftz satx : Bool) (r : Rnd) (x : FVal) : Nat × Flags :=
  if f = .e8m0 then toScale r x
  else if isInt f then
    if fromInt then
      match x with
      | .fin n m e =>
        let (k, inex) := roundAt r n m e 0
        let v : Int := if n then -(k : Int) else k
        let (y, fl) := fitInt (isSigned f) (!satx) (fmtWidth f) v
        (intElem f y, fl ||| (if inex then fNX else 0))
      | _ => (0, 0)
    else
      let (v, fl) := roundToInt (isSigned f) (fmtWidth f) r x
      (intElem f v, fl)
  else roundF f ftz r (if satx then .nan else .sat) x

/-- What TCONV carries. -/
structure Conv where
  satx : Bool
  rnd  : Rnd
  had  : Nat                    -- 0, 16 or 32
  e    : Int
  ftz  : Bool
  deriving Repr

/-- Write one converted row of real values (R284). -/
def State.convRow (s : State) (c : Nat) (v : View) (cv : Conv) (fromInt : Bool) (i : Nat) (xs : List FVal) : State × Flags :=
  let f := v.fm
  if isBlock f then
    let bs := (pieces 32 4 xs).zipIdx.filter (fun e => decide (32 * e.2 < v.vcols))
    let at_ (k : Nat) : Nat := v.base + v.pitch * i + k
    bs.foldl (fun (acc : State × Flags) e =>
      let (hd, els, fl) :=
        if isMX f then
          let (sc, els, fl) := convertMX (elemOf f) cv.ftz cv.satx cv.rnd e.1
          ([BitVec.ofNat 8 sc], els, fl)
        else
          let ((e0, e1), els, fl) := convertDXF (if f = .dxf4 then 2 else 6) cv.satx cv.rnd e.1
          ([BitVec.ofNat 8 e0, BitVec.ofNat 8 e1], els, fl)
      let t := acc.1.locWrite c (at_ (v.hdrAt (32 * e.2)).1) hd
      let t2 := els.zipIdx.foldl (fun t x =>
        let j := 32 * e.2 + x.2
        if j < v.vcols then t.putElem c v i j x.1 else t) t
      (t2, acc.2 ||| fl)) (s.zeroRest c v i, 0)
  else
    (xs.zipIdx.filter (fun e => decide (e.2 < v.vcols))).foldl (fun (acc : State × Flags) e =>
      let (b, fl) := convertEl f fromInt cv.ftz cv.satx cv.rnd e.1
      (acc.1.putElem c v i e.2 b, acc.2 ||| fl)) (s, 0)

/-- Convert the rows of a group between real formats (R284). `s0` is the state read. -/
def convGroup (s0 : State) (c : Nat) (v y : View) (cv : Conv) (g : Nat) : State :=
  let fromInt := isInt y.fm
  let (r0, r1) := v.grp g
  (List.range' r0 (r1 - r0)).foldl (fun t i =>
    let src := (upto v.cols).map (fun j =>
      if y.valid i j && decide (j < v.vcols) then some (s0.elemVal c y cv.ftz i j) else none)
    let (am, f1) := if fromInt then (t.me.amax.toNat, 0) else
      src.foldl (fun acc x => match x with | some x => amaxStep acc x | none => acc) (t.me.amax.toNat, (0 : Flags))
    let xs := src.map (fun x => x.getD (.fin false 0 0))
    let (ys, f2) := if cv.had = 0 then (xs, (0 : Flags)) else
      let hs := (pieces cv.had 8 xs).map hadamard
      (hs.flatMap (fun h => h.1), hs.foldl (fun a h => a ||| h.2) 0)
    let (u, f3) := t.convRow c v cv fromInt i (ys.map (fun x => x.scale cv.e))
    u.modMe (fun x => { x.raiseFlags (f1 ||| f2 ||| f3) with amax := BitVec.ofNat 64 am })) s0

/-- Convert a group between the complex formats (R284). -/
def convComplex (s0 : State) (c : Nat) (v y : View) (cv : Conv) (g : Nat) : State :=
  (v.cells g).foldl (fun t e =>
    let ok := y.valid e.1 e.2
    let p := comps y.fm (if ok then s0.elemBits c y e.1 e.2 else 0)
    let a := decodeF (compOf y.fm) cv.ftz p.1
    let b := decodeF (compOf y.fm) cv.ftz p.2
    let (am, f1) := if ok then amaxStep (amaxStep (t.me.amax.toNat, 0) a) b else (t.me.amax.toNat, (0 : Flags))
    let (re, f2) := convertEl (compOf v.fm) false cv.ftz cv.satx cv.rnd (a.scale cv.e)
    let (im, f3) := convertEl (compOf v.fm) false cv.ftz cv.satx cv.rnd (b.scale cv.e)
    (t.putElem c v e.1 e.2 (pairUp v.fm re im)).modMe (fun x =>
      { x.raiseFlags (f1 ||| f2 ||| f3) with amax := BitVec.ofNat 64 am })) s0

/-- The pairs that TCONV accepts (R284). -/
def convPair (src dst : Fmt) (had : Bool) : Bool :=
  if isCX src || isCX dst then isCX src && isCX dst && src != dst && !had else dst != .e8m0

/-- Header runs that a write of blocks leaves in row i (R45). -/
def View.hdrAll (v : View) (i : Nat) : List Run :=
  if !isBlock v.fm then [] else v.hdrRuns i v.vcols ++ [v.hdrRest i]

def execTconv (h : Head) (m : TMod) (had : Had) (d : Nat) (a : Src) (b : Option Src) (s : State) : Out :=
  issue h (tileOp d (do
    let v ← useView 1 d
    need (match m.fmt with | some f => f == v.fm | none => true) 1 d
    let (n, _, fe) ← tileNum 2 a
    let y ← useView 2 n
    let hn := match had with | .none => 0 | .h16 => 16 | .h32 => 32
    need (decide (v.layout < 2) && (!isBlock v.fm || v.layout == 0)) 1 d
    need (decide (y.layout < 2) && (!isBlock y.fm || y.layout == 0)) 2 n
    need (convPair y.fm v.fm (hn != 0)) 1 d
    need (hn == 0 || v.cols % hn == 0) 1 d
    need (hn == 0 || y.cols % hn == 0) 2 n
    viewFull 2 n fe
    let e ← readOpt 0 (readI64 3) b
    need (decide (-2048 ≤ e) && decide (e ≤ 2047)) 3 (e % (2 ^ 64 : Nat)).toNat
    viewFree d
    let c ← look (fun s => s.cur.core)
    let t ← me
    let cv : Conv := { satx := m.satx, rnd := m.rnd, had := hn, e := e, ftz := t.ftz }
    let hdrs (w : View) (r0 r1 k : Nat) : List Run := (List.range' r0 (r1 - r0)).flatMap (fun i => w.hdrRuns i k)
    let job : Job := {
      restart := d
      reads := fun _ g =>
        let (r0, r1) := v.grp g
        let r1 := min r1 y.vrows
        let k := min v.vcols y.vcols
        [(n, (if isBlock y.fm then hdrs y r0 r1 k else []) ++ y.runs r0 r1 k)]
      writes := fun _ g =>
        let (r0, r1) := v.grp g
        [(d, if v.vcols = 0 then [] else (List.range' r0 (r1 - r0)).flatMap v.hdrAll ++ v.runsW r0 r1 v.vcols)]
      act := fun s g =>
        if v.vcols = 0 then s
        else if isCX v.fm then convComplex s c v y cv g else convGroup s c v y cv g }
    job.run v.groups)) s

/-! ### Scaling and splitting -/

def execTscale (h : Head) (f : Option Fmt) (rnd : Rnd) (d : Nat) (a b : Src) (s : State) : Out :=
  issue h (tileOp d (do
    let v ← destView f isFL d
    checkSrc 2 (sameFmt v.fm) a
    checkSrc 3 (fun y => y.plain && isIN y.fm) b
    let x ← loadSrc 2 v.fm a
    let (t, w) ← loadI64 3 b
    viewFree d
    let z ← me
    pointwise d v [x, t] (fun s c i j =>
      let k0 : Int := match t with
        | .view _ y m => elemInt y.fm ((TSrc.view 0 y m).at s c y.fm i j)
        | .one _ => w
      let k := min (max k0 (-2048)) 2047
      let p := decodeF v.fm z.ftz (x.at s c v.fm i j)
      roundEl v.fm z.ftz rnd (p.scale k, p.nvOf)))) s

/-- The three parts of an FP32 pattern (R61). -/
def split3 (a : Nat) : Nat × Nat × Nat × Flags :=
  match decodeF .fp32 false a with
  | .nan s => (defaultNan .bf16, 0, 0, if s then fNV else 0)
  | .inf n => (infBits .bf16 n, 0, 0, 0)
  | x =>
    let (hi, _) := roundF .bf16 false .rtz .sat x
    let r := (fAdd .rne x (decodeF .bf16 false hi).negate).1
    let (mid, _) := roundF .bf16 false .rtz .sat r
    let q := (fAdd .rne r (decodeF .bf16 false mid).negate).1
    let (lo, fl) := roundF .bf16 false .rne .sat q
    (hi, mid, lo, if fl &&& fNX != 0 then fNX ||| fUF else 0)

def execTsplit (h : Head) (f : Option Fmt) (d : Nat) (a : Src) (s : State) : Out :=
  issue h (tileOp d (do
    need (decide (d ≤ 61)) 1 d
    let v ← destView f (fun f => f == .bf16) d
    let v1 ← useView 1 (d + 1)
    let v2 ← useView 1 (d + 2)
    need (v1.plain && v1.fm == .bf16) 1 (d + 1)
    need (v2.plain && v2.fm == .bf16) 1 (d + 2)
    let (n, _, fe) ← tileNum 2 a
    checkSrc 2 (sameFmt .fp32) a
    viewFull 2 n fe
    viewFree d
    viewFree (d + 1)
    viewFree (d + 2)
    let c ← look (fun s => s.cur.core)
    let x ← me
    let y := x.view n
    let src : TSrc := .view n y ⟨false, false, false⟩
    let part (w : View) (g : Nat) : List Run :=
      let (r0, r1) := v.grp g
      w.runsW r0 (min r1 w.vrows) (min v.vcols w.vcols)
    let job : Job := {
      restart := d
      reads := fun _ g => alike v [src] g
      writes := fun _ g => [(d, part v g), (d + 1, part v1 g), (d + 2, part v2 g)]
      act := fun s g =>
        let at_ (i j : Nat) := split3 (src.at s c .fp32 i j)
        let cells := v.cells g
        let t := s.fillCells c v cells (fun i j => ((at_ i j).1, (at_ i j).2.2.2))
        let t1 := t.fillCells c v1 (cells.filter (fun e => v1.valid e.1 e.2)) (fun i j => ((at_ i j).2.1, 0))
        t1.fillCells c v2 (cells.filter (fun e => v2.valid e.1 e.2)) (fun i j => ((at_ i j).2.2.1, 0)) }
    job.run v.groups)) s

end Sys2Proof.Machine
end

