-- ==== Sys2Proof/Machine/Engine.lean ====
section
/-! DEFINITION. What the copy engine moves (R147, R148, R289, R300 to R307): tensors, places of bits at their homes, and
one row group's moves with the errors of R307. -/
namespace Sys2Proof.Machine

/-! ### Tensors -/

/-- Elements that a byte or group shares: sub-byte and block formats (R147). -/
def subOrBlock (f : Fmt) : Bool := isBlock f || decide (fmtWidth f < 8)

/-- A tensor entry from its bytes, none where R148 refuses it. -/
def tensorOf (e : List Byte) : Option Tensor :=
  let base := numAt e 0 8
  let fb := numAt e 8 1
  let shape := numAt e 9 1
  let dims := (upto 4).map (fun k => numAt e (0x10 + 4 * k) 4)
  let strs := (upto 3).map (fun k => numAt e (0x20 + 8 * k) 8)
  match Fmt.ofCode fb with
  | none => none
  | some f =>
    let al := if subOrBlock f then 16 else fmtWidth f / 8
    let ok := bitAt shape 7 && bitsAt shape 2 5 == 0 && numAt e 0xA 6 == 0 && numAt e 0x38 8 == 0 &&
      (upto 4).all (fun k => nth dims k != 0 && (decide (k ≤ shape % 4) || nth dims k == 1)) && base % al == 0 &&
      (!subOrBlock f || strs.all (fun x => x % 16 == 0))
    if ok then some { base := base, fmt := fb, dims := dims, strs := strs } else none

/-- Read and check the entry of tensor identifier z in the issuer's launch (R148). -/
def readTensor (z : Nat) : M Tensor := do
  let l ← myLaunch
  let c ← look (fun s => s.cur.core)
  match l with
  | none => raise .operand 0 z
  | some l => do
    let e ← unitRead (some c) { vdev := l.vdev, dom := l.base, win := none } (l.rcd.tidtab + 64 * z) 64
    match tensorOf e with
    | some t => pure t
    | none => raise .operand 0 z

def Tensor.fm (t : Tensor) : Fmt := (Fmt.ofCode t.fmt).getD .fp64
/-- Every coordinate lies in the tensor (R300). -/
def Tensor.inside (t : Tensor) (x : List Int) : Bool :=
  (List.zip x t.dims).all (fun (i, d) => decide (0 ≤ i) && decide (i < (d : Int)))
/-- Bytes from BASE to dimension 0's line of a coordinate (R147). -/
def Tensor.lineOff (t : Tensor) (x : List Int) : Nat :=
  (List.zip (x.drop 1) t.strs).foldl (fun n (i, d) => n + i.toNat * d) 0
/-- First bit of an element, counted from address 0 (R147). -/
def Tensor.bitPos (t : Tensor) (x : List Int) : Nat :=
  let w := fmtWidth t.fm
  let i0 := (x.headD 0).toNat
  let line := t.base + t.lineOff x
  let bits := if isBlock t.fm then 8 * (i0 / 128 * (16 + 16 * w) + 16) + i0 % 128 * w else i0 * w
  (8 * line + bits) % 2 ^ 67
/-- Address and length of the header bytes of the block that holds an element (R45, R147). -/
def Tensor.hdrPos (t : Tensor) (x : List Int) : Nat × Nat :=
  let w := fmtWidth t.fm
  let i0 := (x.headD 0).toNat
  let (k, n) := if isDXF t.fm then (2 * (i0 % 128 / 32), 2) else (i0 % 128 / 32, 1)
  ((t.base + t.lineOff x + i0 / 128 * (16 + 16 * w) + k) % 2 ^ 64, n)

/-! ### Ends of a move -/

/-- Where an element or a header stands: in the core's own memory, or at a virtual address. -/
inductive Spot where
  | here (rs : List Run)
  | mem (va lo w : Nat)
  deriving Repr, Inhabited

/-- An end of a move: place of element (r, j), header of the block that holds it, the rest of a view's header in row r,
which is written as zero (R45), and the number of the block. -/
structure End where
  loc  : Nat → Nat → Option Spot
  hdr  : Nat → Nat → Spot
  rest : Nat → Option Spot
  blk  : Nat → Nat → Int

/-- Runs of an element of a view, where it is written with the padding that shares its group (R44, R289). -/
def View.spot (v : View) (wr : Bool) (i j : Nat) : Spot :=
  if v.layout = 2 then
    .here ((upto (fmtWidth v.fm)).map (fun b => ⟨8 * (v.base + v.pitch * i + v.hdr + 16 * b) + j, 1⟩))
  else
    let (l, p) := if v.layout = 1 then (j, i) else (i, j)
    .here (v.elem i j :: (if wr && v.inLast p then [v.padRun l] else []))

/-- A view as an end; `wr` says that it is written. -/
def viewEnd (v : View) (wr : Bool) : End where
  loc := fun i j => some (v.spot wr i j)
  hdr := fun i j => let (k, n) := v.hdrAt j; .here [⟨8 * (v.base + v.pitch * i + k), 8 * n⟩]
  rest := fun i => if wr then some (.here [v.hdrRest i]) else none
  blk := fun _ j => (j / 32 : Nat)

/-- A tensor as an end, by the coordinate of an element. -/
def tensEnd (t : Tensor) (x : Nat → Nat → Option (List Int)) : End where
  loc := fun r j => (x r j).bind (fun c => if t.inside c then some (.mem (t.bitPos c / 8) (t.bitPos c % 8) (fmtWidth t.fm)) else none)
  hdr := fun r j => let (a, n) := t.hdrPos ((x r j).getD []); .mem a 0 (8 * n)
  rest := fun _ => none
  blk := fun r j => ((x r j).getD []).headD 0 / 32

/-- Coordinate of element (r, j) from an origin (R300). -/
def coord (org : List Int) (t : Bool) (r j : Nat) : List Int :=
  let o (k : Nat) : Int := (org[k]?).getD 0
  if t then [o 0 + r, o 1 + j, o 2, o 3] else [o 0 + j, o 1 + r, o 2, o 3]

/-- Cut the bits [lo, lo + w) of placed bytes into frags. -/
def fragsOf (lo w : Nat) : Nat → List (Home × Nat × Nat) → Loc
  | _, [] => []
  | o, (h, a, n) :: ps =>
    let b := max lo (8 * o)
    let e := min (lo + w) (8 * (o + n))
    if b < e then ⟨h, 8 * a + (b - 8 * o), e - b⟩ :: fragsOf lo w (o + n) ps else fragsOf lo w (o + n) ps

/-- Check and translate a spot (R306 step 1). -/
def Spot.place (c : Nat) (w : Who) (k : Right) (st : Bool) : Spot → M Loc
  | .here rs => pure (rs.map (fun r => ⟨.bank c, r.at_, r.len⟩))
  | .mem va lo n => do
    let ps ← unitPlaces (some c) w va ((lo + n + 7) / 8) k st
    pure (fragsOf lo n 0 ps)

/-! ### Moves of a group -/

/-- A header that no rule determines: blocks of source and destination do not correspond (log 16). -/
def freeHdr : M Nat := do
  let n ← look (fun s => s.fresh)
  change (fun s => { s with fresh := s.fresh + 1 })
  pure (Config.blockHdr n).toNat

/-- Moves of row r, elements 0 to n − 1. `zero` gives zero where the source has no element (R300). -/
def rowMoves (c : Nat) (w : Who) (f : Fmt) (adds zero : Bool) (src dst : End) (r n : Nat) : M (List Mv) := do
  let wk : Right := if adds then .rw else .w
  let js := upto n
  let ms ← mapL js (fun j =>
    match dst.loc r j, src.loc r j with
    | some d, some s => do
      let x ← s.place c w .r false
      let y ← d.place c w wk (!adds)
      pure [Mv.mk y (.loc x) true]
    | some d, none =>
      if zero then do
        let y ← d.place c w wk (!adds)
        pure [Mv.mk y (.num 0) false]
      else pure []
    | none, _ => pure [])
  if !isBlock f then pure ms.flatten
  else do
    let both (j : Nat) : Bool := (dst.loc r j).isSome && (src.loc r j).isSome
    let put (p : Spot) (v : Val) : M Mv := do
      let y ← p.place c w wk (!adds)
      pure (Mv.mk y v false)
    -- one header for each block of the destination that receives an element
    let heads := js.filter (fun j => (dst.loc r j).isSome && (zero || both j) &&
      !(upto j).any (fun i => (dst.loc r i).isSome && (zero || both i) && dst.blk r i == dst.blk r j))
    let hs ← mapL heads (fun j => do
      match js.filter (fun i => both i && dst.blk r i == dst.blk r j) with
      | [] => put (dst.hdr r j) (.num 0)
      | i :: is =>
        -- the header of the block that its elements come from; of two blocks, neither (log 16)
        if is.all (fun k => src.blk r k == src.blk r i) then do
          let x ← (src.hdr r i).place c w .r false
          put (dst.hdr r j) (.loc x)
        else do
          let v ← freeHdr
          put (dst.hdr r j) (.num v))
    let rest ← match dst.rest r with
      | some p => if heads.isEmpty then pure [] else do let m ← put p (.num 0); pure [m]
      | none => pure []
    pure (hs ++ rest ++ ms.flatten)

/-- An operation that reaches these homes must wait: for an earlier access of its issuing strand there (R299, R301), or so
as not to overtake a packet of its core (R16, R109). -/
def State.earlier (s : State) (c k : Nat) (st : StrandK) (before : Nat) (hs : List Home) : Bool :=
  s.flight.any (fun a => decide (a.num < before) && a.core == c && a.seat == k && a.strn == st &&
    a.pieces.any (fun p => p.sent && hs.contains p.home)) || s.overtakes c hs

/-- The accessor that an operation is (R300). -/
def Space.who (x : Space) : Who := { vdev := x.vdev, dom := x.dom, win := x.win }

/-- The check of a view's side (R94), with the trap for the lowest offset that fails. -/
def sideCheck (c : Nat) (w : Who) (k : Right) (st : Bool) (tr : Nat → Trap) (rs : List Run) : M Unit := do
  let bad ← look (fun s => leastOf (rs.map (s.runDenied c w k st)))
  match bad with
  | some off => throw (.trap (tr off))
  | none => pure ()

/-- The check of a copy's view side (R94): LOCALPERM with the window address. -/
def viewSide (c : Nat) (w : Who) (k : Right) (st : Bool) (rs : List Run) : M Unit :=
  sideCheck c w k st (fun off => addrTrap .localperm (coreVa c off)) rs

/-- The check of a matrix operation's operand, view `n` (R94): LOCALPERM with the view number and the lowest offset. -/
def operandSide (c n : Nat) (w : Who) (k : Right) (rs : List Run) : M Unit := sideCheck c w k false (permTrap n) rs

/-- Runs of the valid rows [r0, r1) of a view, as its accesses are checked; `wr` says that it is written (R44, R45,
R289). -/
def View.sideRuns (v : View) (wr : Bool) (r0 r1 n : Nat) : List Run :=
  if n = 0 then []
  else if v.layout = 2 then (List.range' r0 (r1 - r0)).map v.lineRun
  else
    (if isBlock v.fm then (List.range' r0 (r1 - r0)).flatMap (fun i =>
      v.hdrRuns i n ++ (if wr then [v.hdrRest i] else [])) else []) ++ (if wr then v.runsW r0 r1 n else v.runs r0 r1 n)

end Sys2Proof.Machine
end

