-- ==== Sys2Proof/Machine/Launch.lean ====
section
/-! DEFINITION. Launch records, their checks and refusal (R33, R34, R101, R205), their entry into a queue (R135, R136), and
the queue timelines (R190). -/
namespace Sys2Proof.Machine

/-! ### Records -/

/-- A launch record from its 128 bytes (R33). -/
def LRec.ofBytes (b : List Byte) : LRec :=
  { codeaddr := numAt b 0 8, entry := numAt b 8 4, segbound := numAt b 0xC 4, tidtab := numAt b 0x10 8
    disttab := numAt b 0x18 8, xfertab := numAt b 0x20 8, cbanktab := numAt b 0x28 8, setx := numAt b 0x30 1
    sety := numAt b 0x31 1, setw := numAt b 0x32 1, seth := numAt b 0x33 1, seats := numAt b 0x34 1
    cbmask := numAt b 0x36 2, codeoff := numAt b 0x38 4, savesz := numAt b 0x3C 4, savebase := numAt b 0x40 8
    waits := (upto 4).map (fun k => BitVec.ofNat 64 (numAt b (0x48 + 8 * k) 8)), signal := numAt b 0x68 7
    arg := BitVec.ofNat 64 (numAt b 0x70 8), ldsize := numAt b 0x78 4, ldloc := numAt b 0x7C 4, raw := b }

/-- Bytes of code delivered (R36). -/
def LRec.codeLen (r : LRec) : Nat := (12 * r.segbound + 31) / 32 * 32
/-- Cores of the set, by rank (R36). -/
def State.coreSet (s : State) (vd : Nat) (r : LRec) : List Nat :=
  let rows := (s.quota vd).rowList
  (upto r.seth).flatMap (fun y => (upto r.setw).map (fun x => nth rows (r.sety + y) * 128 + (r.setx + x)))
/-- Bytes of the overflow descriptor and the save areas (R124, R205). -/
def LRec.saveLen (r : LRec) : Nat := 64 + 64 * r.savesz * (r.setw * r.seth * r.seats)

/-! ### Timelines -/

/-- A wait for v on a counter that stands at c is met (R188). -/
def tlMet (c v : Nat) : Bool := decide ((c + 2 ^ 56 - v % 2 ^ 56) % 2 ^ 56 < 2 ^ 55)

/-- Write w to QTL, where it lies ahead (R190). -/
def State.writeQtl (s : State) (vd q w : Nat) : State :=
  s.modQueue vd q (fun x => if tlMet (w % 2 ^ 56) x.qtl then { x with qtl := w % 2 ^ 56 } else x)

/-- The selector is defined (R33). -/
def selOk (nq sel : Nat) : Bool := decide (sel < nq) || sel == 64
/-- Value of a timeline by its selector (R33, R326). -/
def State.selTl (s : State) (vd sel : Nat) : Nat := if sel = 64 then (s.vd vd).xtl else (s.queue vd sel).qtl
/-- Every WAIT entry of a launch is met (R35). -/
def State.waitsMet (s : State) (l : Launch) : Bool :=
  l.rcd.waits.all (fun w => let n := w.toNat; bitsAt n 56 8 == 255 || tlMet (s.selTl l.vdev (bitsAt n 56 8)) (bitsAt n 0 56))

/-! ### The checks of R34 -/

/-- A bank descriptor keeps its limits (R101). -/
def bankOk (d : List Byte) : Bool :=
  numAt d 0 8 % 64 == 0 && decide (16 ≤ numAt d 8 4) && decide (numAt d 8 4 ≤ 65536) && numAt d 8 4 % 16 == 0 &&
    numAt d 0xC 4 == 0

/-- The record breaks check 5: CODEOFF, SEGBOUND, LDSIZE, LDLOC (R33). -/
def LRec.codeOk (r : LRec) : Bool :=
  r.codeoff % 32 == 0 && decide (r.codeoff + 12 * r.segbound ≤ 262144) && r.ldsize % 32 == 0 && r.ldloc % 4096 == 0 &&
    decide (r.ldloc + r.ldsize ≤ 262144) && (r.ldsize != 0 || r.ldloc == 0) &&
    (r.ldsize == 0 || r.codeLen == 0 || decide ((r.codeoff + r.codeLen - 1) / 4096 < r.ldloc / 4096) ||
      decide ((r.ldloc + r.ldsize - 1) / 4096 < r.codeoff / 4096))

/-- A computation fails with a trap. -/
def traps {α : Type} (m : M α) : M Bool := do
  let r ← attempt m
  match r with
  | .ok _ => pure false
  | .error _ => pure true

/-- The checks of R34 in order: the first that fails, and the banks' descriptors. -/
def checkLaunch (l : Launch) : M (Nat × List (Nat × Nat)) := do
  let r := l.rcd
  let w : Who := { vdev := l.vdev, dom := l.base, win := none }
  let q ← look (fun s => s.quota l.vdev)
  let readable (a n : Nat) : M Bool := do
    let bad ← traps (unitPlaces none w a n .r false)
    pure !bad
  if numAt r.raw 0x35 1 ≠ 0 ∨ numAt r.raw 0x6F 1 ≠ 0 then pure (1, [])
  else if !r.waits.all (fun v => let k := bitsAt v.toNat 56 8; k == 255 || selOk q.nqueue k) then pure (2, [])
  else do
    let shape := decide (1 ≤ r.setw) && decide (r.setx + r.setw ≤ 128) && decide (1 ≤ r.seth) &&
      decide (r.sety + r.seth ≤ q.rowList.length)
    let mapped ← look (fun s => (s.coreSet l.vdev r).all (fun n => s.mapped n))
    if !(shape && mapped) then pure (3, [])
    else if r.seats = 0 ∨ 4 < r.seats then pure (4, [])
    else if !r.codeOk then pure (5, [])
    else do
      let t1 ← readable r.tidtab 16384
      let t2 ← if r.disttab = 0 then pure true else readable r.disttab 16384
      let t3 ← if r.xfertab = 0 then pure true else do
        let h ← attempt (unitRead none w r.xfertab 16)
        match h with
        | .error _ => pure false
        | .ok h => readable r.xfertab (16 + 64 * leNat (h.take 4))
      let bs ← attempt (unitRead none w r.cbanktab 256)
      let ds : List (List Byte) := match bs with
        | .ok b => (upto 16).map (fun k => (b.drop (16 * k)).take 16)
        | .error _ => []
      let t4 := !ds.isEmpty && (List.zip (upto 16) ds).all (fun (k, d) => !r.cbmask.testBit k || bankOk d)
      if !(t1 && t2 && t3 && t4) then pure (6, [])
      else do
        let banks := ds.map (fun d => (numAt d 0 8, numAt d 8 4))
        let save ← traps (unitPlaces none w r.savebase r.saveLen .w true)
        if r.savesz < 108 || save then pure (7, [])
        else do
          let code ← readable r.codeaddr (r.codeLen + r.ldsize)
          pure (if code then 0 else 8, banks)

/-! ### Entry and refusal -/

/-- LAUNCH_REFUSED: SIGNAL is written, event 0x07 posted; a device-side launch retires on tl5 (R34, R187). -/
def State.refuse (s : State) (l : Launch) (reason : Nat) : State :=
  let s1 := { s with launches := s.launches.filter (fun m => m.lid != l.lid) }
  let s2 := (s1.writeQtl l.vdev l.queue l.rcd.signal).postEvent l.vdev (event 0 7 l.queue l.addr reason)
  match l.child with
  | some (c, _) => s2.syncChild c
  | none => s2

/-- Put a launch into its queue: a Regulator's ahead of the segment commands that have not started, any other last (R136); ahead
of launches of the device that have not started as well (log 118). -/
def enterQueue (l : Launch) : List Launch → List Launch
  | [] => [l]
  | m :: ms =>
    if l.slot.isSome ∧ m.vdev = l.vdev ∧ m.queue = l.queue ∧ !m.started ∧ m.slot.isNone then l :: m :: ms
    else m :: enterQueue l ms

/-- Submit a launch record: it is checked, and accepted or refused (R34). Answers the launch's identifier. -/
def submit (l : Launch) : M Nat := do
  let n ← look State.nextLid
  let l := { l with lid := n }
  let (why, banks) ← checkLaunch l
  change (fun s =>
    let s1 := { s with nextLid := n % (2 ^ 32 - 1) + 1 }
    if why ≠ 0 then s1.refuse l why
    else { s1 with launches := enterQueue { l with banks := banks } s1.launches })
  pure n

end Sys2Proof.Machine
end

