-- ==== Sys2Proof/Machine/Copy.lean ====
section
/-! DEFINITION. Family 0x8: copies, scatters, gathers, adds and moves (R300 to R305), their row groups and retirement
(R306, R307), and the timelines (R187 to R189, R309 to R311). -/
namespace Sys2Proof.Machine

/-! ### Row groups -/

/-- Valid rows of a group. -/
def grpRows (n g : Nat) : List Nat := List.range' (8 * g) (min (8 * g + 8) n - 8 * g)

/-- The operation adds at the home (R304, R305). -/
def CopyOp.adds (o : CopyOp) : Bool := match o.kind with | .add => true | .move _ _ _ _ a => a | _ => false

/-- Groups of an operation. -/
def CopyOp.groups (o : CopyOp) : Nat :=
  match o.kind with
  | .move _ _ nrows _ _ => (nrows + 7) / 8
  | _ => o.view.groups

/-- Index of row i in an index view (R303). -/
def rowIndex (s : State) (c : Nat) (b : View) (i : Nat) : Option Int :=
  if i < b.vrows ∧ 1 ≤ b.vcols then some (elemInt b.fm (s.elemBits c b i 0)) else none

/-- Coordinates of element (r, j) on the tensor side of an operation with a view (R300, R303). -/
def CopyOp.place (o : CopyOp) (s : State) (c : Nat) (r j : Nat) : Option (List Int) :=
  match o.idx with
  | none => some (coord o.org o.t r j)
  | some b => (rowIndex s c b r).map (fun x => [(o.org.headD 0) + j, x, nth' o.org 2, nth' o.org 3])
where nth' (l : List Int) (k : Nat) : Int := (l[k]?).getD 0

/-- An uncorrectable error hits the index element of row i (R307). -/
def CopyOp.idxBad (o : CopyOp) (s : State) (c i : Nat) : Bool :=
  match o.idx with
  | none => false
  | some b => decide (i < b.vrows) && b.vcols != 0 && (match b.spot false i 0 with
      | .here rs => rs.any (fun r => (s.runBad c r).isSome)
      | .mem .. => false)

/-- Moves of group g but those of rows whose index cannot be read, every access checked and translated (R306). -/
def CopyOp.plan (o : CopyOp) (c g : Nat) : M (List Mv) := do
  let w := o.space.who
  let s ← look id
  match o.kind with
  | .move t2 org2 nrows ncols adds => do
    let src := tensEnd o.tens (fun r j => some (coord o.org false r j))
    let dst := tensEnd t2 (fun r j => some (coord org2 o.t r j))
    let ms ← mapL (grpRows nrows g) (fun r => rowMoves c w o.tens.fm adds false src dst r ncols)
    pure ms.flatten
  | _ => do
    let v := o.view
    let (r0, r1) := v.grp g
    let rows := grpRows v.vrows g
    viewSide c w (if o.fills then .w else .r) o.fills (v.sideRuns o.fills r0 r1 v.vcols)
    match o.idx with
    | some b => viewSide c w .r false (if b.vcols = 0 then [] else b.sideRuns false r0 (min r1 b.vrows) 1)
    | none => pure ()
    let t := tensEnd o.tens (o.place s c)
    let (src, dst) := if o.fills then (t, viewEnd v true) else (viewEnd v false, t)
    let ms ← mapL (rows.filter (fun i => !o.idxBad s c i)) (fun r => rowMoves c w v.fm o.adds o.fills src dst r v.vcols)
    pure ms.flatten

/-- One row group of an operation: the state and the error, or why it does not run now. -/
def CopyOp.runGroup (o : CopyOp) (c : Nat) (s : State) : Except (Option Trap × State) (State × Nat) :=
  match o.plan c o.group s with
  | .error (.trap t) _ => .error (some t, s)
  | .error (.trapAt t) s1 => .error (some t, { s with lostAt := s1.lostAt })
  | .error .waitAt s1 => .error (none, s1)
  | .error _ _ => .error (none, s)
  | .ok ms s1 =>
    if s1.earlier c o.seat o.strn o.before (homesOf ms ++ if o.idx.isSome then [.bank c] else []) then .error (none, s)
    else
      let (t, code) := s1.doMoves (if o.fills then o.view.fm else o.tens.fm) o.c o.adds ms
      .ok (t, if (grpRows o.view.vrows o.group).any (o.idxBad s c) then 1 else code)

/-- Replace an operation of a copy context. -/
def Core.setCopy (x : Core) (k : Nat) (o : CopyOp) : Core :=
  let t := x.ctx k
  x.setCtx k { t with ops := t.ops.map (fun p => if p.num = o.num then o else p) }

/-- An operation that its context may run now: one of its first four, the context not stopped (R301, R306). -/
def Core.runnable (x : Core) (k op : Nat) : Option CopyOp :=
  let t := x.ctx k
  if t.eng.stopped then none else (t.ops.take 4).find? (fun o => o.num == op)

/-- COPY_OP_RETIRE: the next row group of an operation; the last one, or one with an error, retires it (R187, R306,
R307). -/
def execCopyOpRetire (c k op : Nat) (s : State) : Out :=
  match (s.core c).runnable k op with
  | none => .next s
  | some o =>
    if o.groups ≤ o.group then .next (s.modCore c (fun x => x.retireCopy k o 0))
    else match o.runGroup c s with
      | .error (_, s1) => .next s1
      | .ok (s1, code) =>
        if code ≠ 0 ∨ o.groups ≤ o.group + 1 then .next (s1.modCore c (fun x => x.retireCopy k o code))
        else .next (s1.modCore c (fun x => x.setCopy k { o with group := o.group + 1 }))

/-- The fault record of R308. -/
def EngWords.stop (e : EngWords) (tl num group : Nat) (t : Trap) : EngWords :=
  { e with
    efop := BitVec.ofNat 64 (tl * 2 ^ 56 + num)
    efcode := BitVec.ofNat 64 (t.cause.code + (if t.cause = .pagefault then t.val.toNat / 2 ^ 60 * 2 ^ 8 else 0))
    efval := t.val, efrst := BitVec.ofNat 64 group, stopped := true }

/-- The trap that the next group of a copy operation meets. -/
def State.copyFault (s : State) (c k op : Nat) : Option (CopyOp × Trap) :=
  match (s.core c).runnable k op with
  | none => none
  | some o =>
    if o.groups ≤ o.group then none
    else match o.runGroup c s with
      | .error (some t, _) => some (o, t)
      | _ => none

/-! ### Issue -/

/-- The origin of a copy: sA to sA + 3 as .i64 (R302). -/
def copyOrg (a : Src) : M (List Int) := do
  let ws ← readRow 2 4 a
  pure (ws.map (fun w => w.toInt))

/-- Local bytes of a core that a side's virtual addresses [lo, hi) resolve to, in whole sectors (R96). -/
def sideRange (c : Nat) (w : Who) (lo hi : Nat) : List (Nat × Nat) :=
  let shift : Option Int := match regionOf lo, w.win with
    | some .local_, _ => some 0
    | some .window, some win => some ((win.base : Int) - 0x7F0000000000)
    | _, _ => none
  match shift with
  | none => []
  | some d =>
    let a := max ((lo : Int) + d) (coreVa c 0)
    let b := min ((hi : Int) + d) (coreVa c 0 + 2 ^ 18)
    if a < b then [((a - coreVa c 0).toNat / 32 * 32, ((b - coreVa c 0).toNat + 31) / 32 * 32)] else []

/-- A view's side (R96). -/
def viewRange (v : View) : Nat × Nat := (v.base / 32 * 32, (v.base + v.extent + 31) / 32 * 32)

/-- First and last addresses of the inside elements of a rectangle of rows and columns, from its corners. -/
def tensRange (c : Nat) (w : Who) (t : Tensor) (x : Nat → Nat → List Int) (rows cols : List Nat) : List (Nat × Nat) :=
  let ins := rows.flatMap (fun r => (cols.filter (fun j => t.inside (x r j))).map (fun j => x r j))
  let at_ := ins.flatMap (fun p =>
    let e := [(t.bitPos p / 8, (t.bitPos p + fmtWidth t.fm + 7) / 8)]
    if isBlock t.fm then (let (a, n) := t.hdrPos p; (a, a + n) :: e) else e)
  match at_ with
  | [] => []
  | p :: ps =>
    sideRange c w (ps.foldl (fun m q => min m q.1) p.1) (ps.foldl (fun m q => max m q.2) p.2)

/-- Positions of a side of n elements between which, from origin o, the tensor's dimension of extent d is met: its first
and last inside positions. -/
def edges (o : Int) (d n : Nat) : List Nat :=
  let lo := max 0 (-o)
  let hi := min (n : Int) (d - o)
  if lo < hi then [lo.toNat, (hi - 1).toNat] else []

/-- Scoreboard entries of a core in use (R96). -/
def Core.boardUse (x : Core) : Nat :=
  x.ctxs.toList.foldl (fun n t => (t.ops ++ t.held).foldl (fun n o => n + o.ranges.length) n)
    (x.sboard.foldl (fun n e => n + e.2.length) 0)

/-- A copy operation enters the queue of context k with its number (R131, R187). -/
def Core.enqueueCopy (x : Core) (k : Nat) (o : CopyOp) : Core :=
  let n := ((x.tl k).iss + 1) % 2 ^ 56
  let t := x.ctx k
  let x1 := (x.setTl k { x.tl k with iss := n }).setCtx k
    { t with ops := t.ops ++ [{ o with num := n }], held := t.held.filter (fun p => p.strn != o.strn) }
  (if o.fills then x1.modSeat k (fun y => y.setView o.vnum { y.view o.vnum with fe := false }) else x1).syncTl

/-- The end of an issue: its scoreboard entries in one step, then a place in the queue, then its number (R98, R301). -/
def issueCopy (o : CopyOp) : M Unit := do
  let k ← look (fun s => s.cur.seat)
  let x ← look State.myCore
  let num ← look State.accNum
  match (x.ctx k).held.find? (fun p => p.strn == o.strn) with
  | some p => do
    waitFor (decide ((x.ctx k).ops.length < 16))
    change (fun s => s.modMyCore (fun x => x.enqueueCopy k p))
  | none => do
    waitFor (decide (x.boardUse + o.ranges.length ≤ 32))
    let p := { o with before := num }
    if (x.ctx k).ops.length < 16 then change (fun s => s.modMyCore (fun x => x.enqueueCopy k p))
    else do
      change (fun s => s.modMyCore (fun x => x.setCtx k { x.ctx k with held := (x.ctx k).held ++ [p] }))
      throw .waitAt

/-- The issuer's address space (R300). -/
def mySpace : M Space := do
  let x ← me
  pure { vdev := x.vdev, dom := x.curdom, win := x.window }

/-- A view that a copy names: bit-plane accepted, block formats not column-major (R302). -/
def copyView (d : Nat) : M View := do
  let v ← useView 1 d
  need (!isBlock v.fm || v.layout != 1) 1 d
  pure v

/-- T on a block format and C on a real format are refused (R300). -/
def copyMods (d : Nat) (f : Fmt) (t c : Bool) : M Unit := do
  need (!t || !isBlock f) 1 d
  need (!c || isCX f) 1 d

/-- A copy between a view and a tensor region (R301 to R304). -/
def viewCopy (kind : CopyKind) (z : Nat) (t c fit : Bool) (d : Nat) (a : Src) (b : Option Src) : M Unit := do
  noHandler
  afterLda
  let g ← look State.cur
  let v ← copyView d
  let idx ← match b with
    | none => pure none
    | some b => do
      let (n, _, fe) ← tileNum 3 b
      let y ← useView 3 n
      need (decide (y.layout < 3) && (y.fm == .int32 || y.fm == .nat32 || y.fm == .int64)) 3 n
      pure (some (y, n, fe))
  copyMods d v.fm t c
  need (kind != .add || addFmt v.fm) 1 d
  let org ← copyOrg a
  match idx with
  | some (_, n, fe) => viewFull 3 n fe
  | none => pure ()
  let fills := kind == .load || kind == .gather
  if fills then viewFree d else viewFull 1 d false
  let tens ← readTensor z
  need (tens.fm == v.fm) 1 d
  let o (k : Nat) : Int := (org[k]?).getD 0
  let dim (k : Nat) : Int := nth tens.dims k
  let (er, ec) := if t then (dim 0 - o 0, dim 1 - o 1) else (dim 1 - o 1, dim 0 - o 0)
  let v1 := if fit then { v with vrows := (min (v.rows : Int) (max 0 er)).toNat, vcols := (min (v.cols : Int) (max 0 ec)).toNat
                                 prog := 0 } else v
  let sp ← mySpace
  let iv := idx.map (fun e => e.1)
  let s ← look id
  let tr := match iv with
    | none =>
      let (r0, c0) := if t then (edges (o 0) (nth tens.dims 0) v1.vrows, edges (o 1) (nth tens.dims 1) v1.vcols)
        else (edges (o 1) (nth tens.dims 1) v1.vrows, edges (o 0) (nth tens.dims 0) v1.vcols)
      tensRange g.core sp.who tens (coord org t) r0 c0
    | some y =>
      tensRange g.core sp.who tens (fun r j => [o 0 + j, (rowIndex s g.core y r).getD (-1), o 2, o 3]) (upto v1.vrows)
        (edges (o 0) (nth tens.dims 0) v1.vcols)
  let op : CopyOp := {
    num := 0, seat := g.seat, strn := g.strn, kind := kind, vnum := d, view := v1, idx := iv, tens := tens, org := org
    t := t, c := c, space := sp, before := 0
    ranges := viewRange v1 :: ((iv.map viewRange).toList ++ tr) }
  modMe (fun x => if fit then x.setView d v1 else x)
  issueCopy op

def execCpyLd (h : Head) (z : Nat) (t c fit : Bool) (d : Nat) (a : Src) (s : State) : Out :=
  issue h (viewCopy .load z t c fit d a none) s

def execCpySt (h : Head) (z : Nat) (t c : Bool) (d : Nat) (a : Src) (s : State) : Out :=
  issue h (viewCopy .store z t c false d a none) s

def execCpyg (h : Head) (z : Nat) (c : Bool) (d : Nat) (a b : Src) (s : State) : Out :=
  issue h (viewCopy .gather z false c false d a (some b)) s

def execCpys (h : Head) (z : Nat) (c : Bool) (d : Nat) (a b : Src) (s : State) : Out :=
  issue h (viewCopy .scatter z false c false d a (some b)) s

def execCpyadd (h : Head) (z : Nat) (t c : Bool) (d : Nat) (a : Src) (s : State) : Out :=
  issue h (viewCopy .add z t c false d a none) s

/-- A transfer entry (R150). -/
structure Xfer where
  step  : Nat
  rank  : Nat
  op    : Nat
  tr    : Bool
  cj    : Bool
  srcz  : Nat
  dstz  : Nat
  nrows : Nat
  ncols : Nat
  sorg  : List Int
  dorg  : List Int
  ok    : Bool
  deriving Repr

/-- A transfer entry from its 64 bytes; `ok` where no limit is broken. Reserved bits are ignored (R3). -/
def Xfer.ofBytes (e : List Byte) : Xfer :=
  let fl := numAt e 7 1
  let org (b : Nat) : List Int := (upto 4).map (fun k => (BitVec.ofNat 32 (numAt e (b + 4 * k) 4)).toInt)
  let op := numAt e 6 1
  { step := numAt e 0 4, rank := numAt e 4 2, op := op, tr := bitAt fl 0, cj := bitAt fl 1, srcz := numAt e 8 1
    dstz := numAt e 9 1, nrows := numAt e 0xC 2, ncols := numAt e 0xE 2, sorg := org 0x10, dorg := org 0x20
    ok := (op == 1 || op == 2) && numAt e 0xC 2 != 0 && numAt e 0xE 2 != 0 }

/-- The formats that a transfer accepts (R300, R304, R305). -/
def Xfer.fmtOk (x : Xfer) (src dst : Fmt) : Bool :=
  src == dst && (x.op != 2 || addFmt src) && (!x.tr || !isBlock src) && (!x.cj || isCX src)

/-- The operation of a transfer entry (R305). -/
def Xfer.copyOp (x : Xfer) (c : Nat) (seat : Nat) (strn : StrandK) (t1 t2 : Tensor) (sp : Space) : CopyOp :=
  let ed (t : Tensor) (org : List Int) (k n : Nat) : List Nat := edges ((org[k]?).getD 0) (nth t.dims k) n
  let r1 := tensRange c sp.who t1 (coord x.sorg false) (ed t1 x.sorg 1 x.nrows) (ed t1 x.sorg 0 x.ncols)
  let r2 := tensRange c sp.who t2 (coord x.dorg x.tr) (ed t2 x.dorg (if x.tr then 0 else 1) x.nrows)
    (ed t2 x.dorg (if x.tr then 1 else 0) x.ncols)
  { num := 0, seat := seat, strn := strn, kind := .move t2 x.dorg x.nrows x.ncols (x.op == 2), vnum := 0, view := {}
    idx := none, tens := t1, org := x.sorg, t := x.tr, c := x.cj, space := sp, before := 0, ranges := r1 ++ r2 }

def execCpyx (h : Head) (a : Src) (s : State) : Out :=
  issue h (do
    noHandler
    afterLda
    let off ← readN64 2 a
    need (off % 64 == 0 && decide (off < 262144)) 2 off
    let g ← look State.cur
    let x ← me
    let ok ← look (fun s => localOk s g.core off 64 x.who .r false)
    if !ok then throw (.trap (addrTrap .localperm (coreVa g.core off))) else pure ()
    bankQuiet
    let held ← look (fun s => s.myCore.heldRange off 64 none)
    waitFor (!held)
    let bad ← look (fun s => s.locBad g.core off 64)
    match bad with
    | some i => throw (.trap (addrTrap .poison (off + i)))
    | none => do
      let e ← look (fun s => s.locRead g.core off 64)
      let e := Xfer.ofBytes e
      need e.ok 2 off
      let t1 ← readTensor e.srcz
      let t2 ← readTensor e.dstz
      need (e.fmtOk t1.fm t2.fm) 2 off
      let sp ← mySpace
      issueCopy (e.copyOp g.core g.seat g.strn t1 t2 sp)) s

/-! ### Timelines -/

def execTlwait (h : Head) (d : Nat) (a : Src) (s : State) : Out :=
  issue h (do
    noHandler
    let v ← readN64 2 a
    let v := v % 2 ^ 56
    let t ← look (fun s => s.myCore.tl d)
    need (decide (6 ≤ d) || tlMet t.iss v) 2 v
    deliver [d]
    waitFor (tlMet t.done v)) s

def execTlget (h : Head) (d : Nat) (a b : Src) (s : State) : Out :=
  issue h (do
    noHandler
    let n ← readN64 2 a
    let k ← readN64 3 b
    need (decide (n < 8)) 2 n
    need (decide (k < 3)) 3 k
    deliver [n]
    let v ← look (fun s =>
      let x := s.myCore
      let t := x.tl n
      if k = 0 then t.done
      else if k = 1 then (if n < 6 then t.iss else t.done)
      else if n < 4 then (x.ctx n).eng.errlast.toNat
      else if n = 4 then x.mat.eng.errlast.toNat
      else 0)
    writeScal d (BitVec.ofNat 64 v)) s

def execTladv (h : Head) (d : Nat) (a : Src) (s : State) : Out :=
  issue h (do
    noHandler
    need (d == 6 || d == 7) 1 d
    let n ← readN64 2 a
    need (decide (n ≤ 2 ^ 32)) 2 n
    release
    change (fun s => s.modMyCore (fun x => x.setTl d { x.tl d with done := ((x.tl d).done + n) % 2 ^ 56 }))) s

end Sys2Proof.Machine
end

