-- ==== Sys2Proof/Machine/Matrix.lean ====
section
/-! DEFINITION. Family 0x7 and the matrix unit: issue (R18, R290 to R298), row groups and retirement (R53 to R59, R291 to
R299, R306, R307), and the fault step of both engines (R306, R308). -/
namespace Sys2Proof.Machine

/-! ### The accumulator store (R99) -/

/-- Format of an accumulator element. -/
def accFmt : AFmt → Fmt
  | .fp32 => .fp32 | .fp64 => .fp64 | .i32 => .int32 | .cf32 => .cf32 | .cf64 => .cf64
/-- Bytes of an accumulator element. -/
def accBytes (a : AFmt) : Nat := fmtWidth (accFmt a) / 8
/-- Columns of a row. -/
def accCols (a : AFmt) : Nat := 1024 / accBytes a
/-- Place of an element in `State.acc`. -/
def accKey (c : Nat) (a : AFmt) (r j : Nat) : Nat := c * 131072 + r * 1024 + j * accBytes a
def State.accRead (s : State) (c : Nat) (a : AFmt) (r j : Nat) : Nat := leNat (memReads s.acc (accKey c a r j) (accBytes a))
def State.accWrite (s : State) (c : Nat) (a : AFmt) (r j v : Nat) : State :=
  { s with acc := memWrites s.acc (accKey c a r j) (leBytes v (accBytes a)) }
/-- Words of an element. -/
def accWords (c : Nat) (a : AFmt) (r j : Nat) : List Nat := (upto ((accBytes a + 7) / 8)).map (fun i => accKey c a r j / 8 + i)
/-- The element lies in a word that SECDED cannot correct. -/
def State.accBad (s : State) (c : Nat) (a : AFmt) (r j : Nat) : Bool :=
  (accWords c a r j).any (fun i => (mapFind i s.apoison).isSome)
/-- A write of cells, by row and column, covers the words of one of them whole. -/
def accWhole (a : AFmt) (l : List (Nat × Nat)) (e : Nat × Nat) : Bool :=
  decide (8 ≤ accBytes a) || l.contains (e.1, if e.2 % 2 = 0 then e.2 + 1 else e.2 - 1)
/-- Write cells of a group: a word with an error that they cover whole loses it, and a cell of one that they cover in part
is not written; true where there was such a cell (R91, R99, R307). -/
def State.putCells (s : State) (c : Nat) (a : AFmt) (l : List (Nat × Nat × Nat)) : State × Bool :=
  if s.apoison.isEmpty then (l.foldl (fun t e => t.accWrite c a e.1 e.2.1 e.2.2) s, false)
  else
    let ps := l.map (fun e => (e.1, e.2.1))
    let good := l.filter (fun e => !s.accBad c a e.1 e.2.1 || accWhole a ps (e.1, e.2.1))
    (good.foldl (fun (t : State) e => { t.accWrite c a e.1 e.2.1 e.2.2 with
        apoison := if s.accBad c a e.1 e.2.1 then (accWords c a e.1 e.2.1).foldl (fun l w => mapDel w l) t.apoison
          else t.apoison }) s, decide (good.length < l.length))

/-! ### Operands -/

/-- A line of a bit-plane view, as the unit reads it (R289, R307). -/
def State.readLine (s : State) (c : Nat) (v : View) (i : Nat) : Line :=
  let w := fmtWidth v.fm
  let at_ := v.base + v.pitch * i
  let word (o : Nat) : Bool := (mapFind (lkey c (at_ + o) / 8) s.lpoison).isSome
  let hd (j : Nat) : Bool := isBlock v.fm && (let (k, n) := v.hdrAt j; word k || word (k + n - 1))
  { bytes := s.locRead c at_ v.lineLen
    bad := if s.lpoison.isEmpty then [] else
      (upto v.vcols).filter (fun j => hd j || (upto w).any (fun b => word (v.hdr + 16 * b + j / 8))) }

/-- Pattern of element j of a line (R289). -/
def Line.bits (l : Line) (v : View) (j : Nat) : Nat :=
  (upto (fmtWidth v.fm)).foldl (fun n b => n + (numAt l.bytes (v.hdr + 16 * b + j / 8) 1 / 2 ^ (j % 8) % 2) * 2 ^ b) 0

/-- Element j of a line of a real format, with the NEG of its field. -/
def Line.val (l : Line) (v : View) (ftz : Bool) (m : SrcMod) (j : Nat) : FVal :=
  let x := valOf v.fm ftz (l.bits v j) (v.hdrAt j).1 (fun k => numAt l.bytes k 1)
  if m.neg then x.negate else x

/-- Element j of a line of an integer format. -/
def Line.int (l : Line) (v : View) (m : SrcMod) (j : Nat) : Int :=
  modInt (isSigned v.fm) (fmtWidth v.fm) m (elemInt v.fm (l.bits v j))

/-- Components of element j of a line of a complex format. -/
def Line.cplx (l : Line) (v : View) (m : SrcMod) (j : Nat) : FVal × FVal :=
  let c := compOf v.fm
  let (re, im) := comps v.fm (modElem v.fm m (l.bits v j))
  (decodeF c false re, decodeF c false im)

/-! ### Formats -/

/-- k-block size of a format (R55). -/
def kBlock (f : Fmt) : Nat :=
  match f with
  | .bf16 | .fp16 | .int8 | .nat8 => 16
  | .fp32 | .cf32 => 4
  | .fp64 | .cf64 => 1
  | _ => 32

/-- Formats that the matrix unit takes below FP64 (R54). -/
def isNarrowF (f : Fmt) : Bool :=
  match f with
  | .fp32 | .fp16 | .bf16 | .e4m3 | .e5m2 | .e3m2 | .e2m3 | .e2m1 => true
  | f => isBlock f

/-- The combinations of R54. -/
def mmaPair (a b : Fmt) (af : AFmt) : Bool :=
  let small (f : Fmt) : Bool := f == .int4 || f == .int8 || f == .nat8
  match af with
  | .fp32 => isNarrowF a && isNarrowF b
  | .fp64 => (isNarrowF a || a == .fp64) && (isNarrowF b || b == .fp64)
  | .i32 => small a && small b
  | .cf32 => a == .cf32 && b == .cf32
  | .cf64 => a == .cf64 && b == .cf64

/-! ### Sums -/

/-- Exact sum of products, from the first on (R56); its flags do not depend on their order. -/
def sumProd (l : List (FVal × FVal)) : FVal × Flags :=
  let ps := l.map (fun e => fMul e.1 e.2)
  let fl := ps.foldl (fun (f : Flags) p => f ||| p.2) (infClash (ps.map (fun p => p.1)))
  match ps with
  | [] => (.fin false 0 0, fl)
  | p :: r => (r.foldl (fun x q => (fAdd .rne x q.1).1) p.1, fl)

/-- An accumulator pattern and the flags raised so far. -/
abbrev Acc := Nat × Flags

/-- Add one k-block's products (R56): fused for a single product of a k-block size 1, else the sum rounded, then added. -/
def accBlock (f : Fmt) (one : Bool) (acc : Acc) (l : List (FVal × FVal)) : Acc :=
  match l with
  | [] => acc
  | (a, b) :: _ =>
    let old := decodeF f false acc.1
    if one then
      let (v, fl) := fFma .rne a b old
      let (r, f2) := roundF f false .rne .sat v
      (r, acc.2 ||| fl ||| f2)
    else
      let (x, f1) := sumProd l
      let (p, f2) := roundF f false .rne .sat x
      let (v, f3) := fAdd .rne old (decodeF f false p)
      let (r, f4) := roundF f false .rne .sat v
      (r, acc.2 ||| f1 ||| f2 ||| f3 ||| f4)

/-- The terms present, cut into k-blocks (R55). -/
def kCut {α : Type} (k : Nat) (l : List α) : List (List α) := pieces k l.length l

/-- One floating-point element (R56). -/
def mmaF (f : Fmt) (k : Nat) (acc : Nat) (l : List (FVal × FVal)) : Acc :=
  (kCut k l).foldl (accBlock f (k == 1)) (acc, 0)

/-- One complex element (R57). -/
def mmaC (f : Fmt) (k : Nat) (acc : Nat) (l : List ((FVal × FVal) × (FVal × FVal))) : Acc :=
  let g := compOf f
  let (re, im) := comps f acc
  let step (x : Acc) (b : List (FVal × FVal)) : Acc := accBlock g (k == 1) x b
  let r := (kCut k l).foldl (fun (x : Acc × Acc) b =>
    let re1 := step x.1 (b.map (fun e => (e.1.1, e.2.1)))
    let re2 := step re1 (b.map (fun e => (e.1.2.negate, e.2.2)))
    let im1 := step x.2 (b.map (fun e => (e.1.1, e.2.2)))
    let im2 := step im1 (b.map (fun e => (e.1.2, e.2.1)))
    (re2, im2)) ((re, 0), (im, 0))
  (pairUp f r.1.1 r.2.1, r.1.2 ||| r.2.2)

/-- One integer element (R58). -/
def mmaI (sat : Bool) (acc : Nat) (l : List (Int × Int)) : Acc :=
  let t := l.foldl (fun (n : Int) e => n + e.1 * e.2) 0
  let (v, fl) := fitInt true sat 32 (elemInt .int32 acc + t)
  (intElem .int32 v, fl)

/-! ### Row groups of a multiply-accumulate -/

/-- The new element from its two lines; none where an operand that it reads is poisoned (R293, R307). -/
def MatOp.elem (o : MatOp) (sat : Bool) (la lb : Line) (acc : Nat) : Option Acc :=
  let n := min (min o.va.vcols o.vb.vcols) (min o.va.cols o.vb.cols)
  let ks := upto n
  let kb := min (kBlock o.va.fm) (kBlock o.vb.fm)
  if ks.any (fun k => la.bad.contains k || lb.bad.contains k) then none
  else match o.af with
    | .i32 => some (mmaI sat acc (ks.map (fun k => (la.int o.va o.ma k, lb.int o.vb o.mb k))))
    | .cf32 | .cf64 => some (mmaC (accFmt o.af) kb acc (ks.map (fun k => (la.cplx o.va o.ma k, lb.cplx o.vb o.mb k))))
    | _ =>
      let nv := ks.foldl (fun (f : Flags) k =>
        f ||| (la.val o.va o.ftz o.ma k).nvOf ||| (lb.val o.vb o.ftz o.mb k).nvOf) 0
      let r := mmaF (accFmt o.af) kb acc (ks.map (fun k => (la.val o.va o.ftz o.ma k, lb.val o.vb o.ftz o.mb k)))
      some (r.1, r.2 ||| nv)

/-- Write elements of the accumulator store, by row and column, and raise the flags of the issuing thread; a cell without
a value was poisoned. -/
def State.putAcc (s : State) (c : Nat) (o : MatOp) (l : List (Nat × Nat × Option Acc)) : State × Nat :=
  let fl := l.foldl (fun (f : Flags) e => match e.2.2 with | some x => f ||| x.2 | none => f) 0
  let (t, part) := s.putCells c o.af (l.filterMap (fun e => e.2.2.map (fun x => (o.row0 + e.1, o.col0 + e.2.1, x.1))))
  (t.modSeat c o.seat (fun x => x.raiseFlags fl), if l.any (fun e => e.2.2.isNone) then 1 else if part then 2 else 0)

/-- The results of a group from its lines of A and all lines of B (R293). -/
def State.mmaGroup (s : State) (c : Nat) (o : MatOp) (sat : Bool) (la lb : List Line) : State × Nat :=
  let rows := grpRows o.va.vrows o.group
  s.putAcc c o ((List.zip rows la).flatMap (fun a => lb.zipIdx.map (fun b =>
    let r := o.row0 + a.1
    let j := o.col0 + b.2
    (a.1, b.2, if s.accBad c o.af r j then none else o.elem sat a.2 b.1 (s.accRead c o.af r j)))))

/-- Runs that an operand's lines are checked as (R289, R293). -/
def View.lineRuns (v : View) (rows : List Nat) : List Run := if v.vcols = 0 then [] else rows.map v.lineRun

/-- Wait for the scoreboard and for the issuing strand's earlier accesses to the core's local memory, where a group reaches
some of it (R97, R306, R370). -/
def MatOp.localQuiet (o : MatOp) (c : Nat) (rs : List Run) : M Unit := do
  let ok ← look (fun s => rs.isEmpty || !(rs.any (fun r => (s.core c).heldRange r.off r.bytes none) ||
    s.earlier c o.seat o.strn o.before [.bank c]))
  waitFor ok

/-- Offset of a gang member from its leader (R295). -/
def gangPos (leader n : Nat) : Nat × Nat := (n % 128 - leader % 128, n / 128 - leader / 128)

/-- Replace a matrix operation. -/
def Core.setMat (x : Core) (o : MatOp) : Core :=
  { x with mat := { x.mat with ops := x.mat.ops.map (fun p => if p.num = o.num then o else p) } }

/-- Lines that the sending member forwarded for a group; of B the last that came, once the sending operation is gone. -/
def State.feedOf (s : State) (sender uid : Nat) (isA : Bool) (g : Nat) : Option (List Line) :=
  let fs := (s.core sender).fed.filter (fun f => f.uid == uid && f.isA == isA)
  match fs.find? (fun f => f.group == g) with
  | some f => some f.lines
  | none =>
    let gone := !(s.core sender).mat.ops.any (fun o => (o.gid.map (fun x => x.2)) == some uid)
    if !isA && gone then (fs.getLast?).map (fun f => f.lines) else none

/-- Wait for lines. -/
def await {α : Type} (l : Option α) : M α :=
  match l with
  | some l => pure l
  | none => throw .wait

/-- One group of MMA, MMAC or MGANG (R293, R295). In a gang, an edge member reads and forwards, and any other waits for
what arrives. -/
def MatOp.mulGroup (o : MatOp) (c : Nat) (sat : Bool) : M Nat := do
  let w := o.space.who
  let g := o.group
  let (a, b) := match o.gid with | some (ld, _) => gangPos ld c | none => (0, 0)
  let uid := (o.gid.map (fun x => x.2)).getD 0
  let ra := grpRows o.va.vrows g
  let rb := upto o.vb.vrows
  if a = 0 then operandSide c o.vnum w .r (o.va.lineRuns ra) else pure ()
  if b = 0 then operandSide c o.vbnum w .r (o.vb.lineRuns rb) else pure ()
  let fa ← if a = 0 then pure [] else do let l ← look (fun s => s.feedOf (c - a) uid true g); await l
  let fb ← if b = 0 then pure [] else do let l ← look (fun s => s.feedOf (c - 128 * b) uid false g); await l
  o.localQuiet c ((if a = 0 then o.va.lineRuns ra else []) ++ (if b = 0 then o.vb.lineRuns rb else []))
  let la ← look (fun s => if a = 0 then ra.map (s.readLine c o.va) else fa)
  let lb ← look (fun s => if b = 0 then rb.map (s.readLine c o.vb) else fb)
  if o.gid.isSome then
    change (fun s => s.modCore c (fun x => { x with fed := x.fed ++
      ((if a = 0 then [⟨uid, true, g, la⟩] else []) ++ (if b = 0 then [⟨uid, false, g, lb⟩] else [])) }))
  else pure ()
  let r ← look (fun s => s.mmaGroup c o sat la lb)
  change (fun _ => r.1)
  pure r.2

/-! ### Row groups of the other operations -/

/-- Groups of an operation (R293, R296, R297). -/
def MatOp.groups (o : MatOp) : Nat :=
  match o.kind with
  | .mma _ | .mmac | .mgang _ => (o.va.rows + 7) / 8
  | .zero rows _ => (rows + 7) / 8
  | .load | .drain .. | .drainc .. => o.va.groups

/-- A value into an accumulator format (R296). -/
def toAcc (af : AFmt) (fromInt ftz : Bool) (x : FVal) : Acc :=
  convertEl (compOf (accFmt af)) fromInt ftz false .rne x

/-- One group of MLOAD. A poisoned element leaves its cell. -/
def MatOp.loadGroup (o : MatOp) (c : Nat) : M Nat := do
  let v := o.va
  let (r0, r1) := v.grp o.group
  let rs := v.runs r0 r1 v.vcols
  operandSide c o.vnum o.space.who .r rs
  o.localQuiet c rs
  let r ← look (fun s => s.putAcc c o ((v.cells o.group).map (fun e =>
    if (s.runBad c (v.elem e.1 e.2)).isSome then (e.1, e.2, none)
    else if isCX v.fm then
      let p := comps v.fm (s.elemBits c v e.1 e.2)
      let re := decodeF (compOf v.fm) o.ftz p.1
      let im := decodeF (compOf v.fm) o.ftz p.2
      let (x, f1) := toAcc o.af false o.ftz re
      let (y, f2) := toAcc o.af false o.ftz im
      (e.1, e.2, some (pairUp (accFmt o.af) x y, f1 ||| f2 ||| re.nvOf ||| im.nvOf))
    else
      let x := s.elemVal c v o.ftz e.1 e.2
      let (b, fl) := toAcc o.af (isInt v.fm) o.ftz x
      (e.1, e.2, some (b, fl ||| x.nvOf)))))
  change (fun _ => r.1)
  pure r.2

/-- The element that a drain writes (R297). -/
def MatOp.drained (o : MatOp) (s : State) (c : Nat) (e : Int) (rnd : Rnd) (satx : Bool) (i j : Nat) : Option Acc :=
  let r := o.row0 + i
  let k := o.col0 + j
  let f := o.va.fm
  if s.accBad c o.af r k then none
  else
    let a := s.accRead c o.af r k
    let g := accFmt o.af
    if isCX f then
      let (re, im) := comps g a
      let one (p : Nat) : Acc :=
        let x := decodeF (compOf g) false p
        let (b, fl) := convertEl (compOf f) false o.ftz satx rnd (x.scale e)
        (b, fl ||| x.nvOf)
      let (x, f1) := one re
      let (y, f2) := one im
      some (pairUp f x y, f1 ||| f2)
    else
      let x : FVal := if o.af = .i32 then .ofInt (elemInt .int32 a) else decodeF g false a
      let (b, fl) := convertEl f (o.af == .i32) o.ftz satx rnd (x.scale e)
      some (b, fl ||| x.nvOf)

/-- One group of MDRAIN, or of MDRAINC up to its staging view (R297, R298): the error, and the cells drained. CLR clears
exactly these. -/
def MatOp.drainGroup (o : MatOp) (c : Nat) (e : Int) (rnd : Rnd) (satx clr : Bool) : M (Nat × List (Nat × Nat)) := do
  let v := o.va
  let (r0, r1) := v.grp o.group
  let rs := v.runsW r0 r1 v.vcols
  operandSide c o.vnum o.space.who .w rs
  o.localQuiet c rs
  let s ← look id
  let vals := (v.cells o.group).map (fun x => (x.1, x.2, o.drained s c e rnd satx x.1 x.2))
  let ms : List (Nat × Nat × Mv) := vals.filterMap (fun x => x.2.2.bind (fun y => match v.spot true x.1 x.2.1 with
    | .here l => some (x.1, x.2.1, ⟨fragsAt c l, .num y.1, true⟩)
    | .mem .. => none))
  let fl := vals.foldl (fun (f : Flags) x => match x.2.2 with | some y => f ||| y.2 | none => f) 0
  let (t, code) := s.doMoves v.fm false false (ms.map (fun m => m.2.2))
  let all := ms.flatMap (fun m => m.2.2.dst)
  let done := (ms.filter (fun m => !m.2.2.dstBad s false all)).map (fun m => (m.1, m.2.1))
  let t1 := t.modSeat c o.seat (fun x => x.raiseFlags fl)
  change (fun _ => if clr then done.foldl (fun t x => t.accWrite c o.af (o.row0 + x.1) (o.col0 + x.2) 0) t1 else t1)
  pure (if vals.any (fun x => x.2.2.isNone) then 1 else code, done)

/-- The stores or adds of a drained group, checked (R298, R300, R306). -/
def MatOp.portMoves (o : MatOp) (c g : Nat) (add t : Bool) (tens : Tensor) (org : List Int) : M (List Mv) := do
  let ms ← mapL (grpRows o.va.vrows g) (fun r =>
    rowMoves c o.space.who o.va.fm add false (viewEnd o.va false) (tensEnd tens (fun r j => some (coord org t r j))) r
      o.va.vcols)
  pure ms.flatten

/-- A drained group as the drain port takes it: the moves of the cells that were drained, with the values staged
(R298). -/
def MatOp.handOver (o : MatOp) (s : State) (c : Nat) (done : List (Nat × Nat)) (ms : List Mv) : List Mv :=
  let from_ (m : Mv) : Bool := done.any (fun x => match o.va.spot false x.1 x.2 with
    | .here l => m.src == .loc (fragsAt c l)
    | .mem .. => false)
  (if done.length = (o.va.cells o.group).length then ms else ms.filter from_).map (fun m => { m with src := .num (m.src.get s) })

/-- The next row group of an operation on the unit: the error code, 0 for none, and what goes to the drain port. -/
def MatOp.nextGroup (o : MatOp) (c : Nat) : M (Nat × List Mv) :=
  match o.kind with
  | .mma sat => do let e ← o.mulGroup c sat; pure (e, [])
  | .mgang sat => do let e ← o.mulGroup c sat; pure (e, [])
  | .mmac => do let e ← o.mulGroup c false; pure (e, [])
  | .zero rows cols => do
    let r ← look (fun s => s.putCells c o.af
      ((grpRows rows o.group).flatMap (fun i => (upto cols).map (fun j => (o.row0 + i, o.col0 + j, 0)))))
    change (fun _ => r.1)
    pure (if r.2 then 2 else 0, [])
  | .load => do let e ← o.loadGroup c; pure (e, [])
  | .drain e rnd satx clr => do let r ← o.drainGroup c e rnd satx clr; pure (r.1, [])
  | .drainc e satx clr add t tens org => do
    -- every access of the group is checked before anything is written (R306)
    let ms ← o.portMoves c o.group add t tens org
    let r ← o.drainGroup c e .rne satx clr
    let ms ← look (fun s => o.handOver s c r.2 ms)
    pure (r.1, ms)

/-- Send a group from the drain port (R298). It waits for the scoreboards of the banks that it reaches, and behind earlier
accesses to its homes (R97, R306, R370). -/
def MatOp.sendPort (o : MatOp) (c : Nat) (ms : List Mv) : M Nat := do
  let wait ← look (fun s => s.earlier c o.seat o.strn o.before (homesOf ms) ||
    ms.any (fun m => m.dst.any (fun f => match f.home with
      | .bank n => (s.core n).heldRange (f.at_ / 8) ((f.at_ % 8 + f.len + 7) / 8) none
      | _ => false)))
  waitFor (!wait)
  let r ← look (fun s => s.doMoves o.va.fm false o.adds ms)
  change (fun _ => r.1)
  pure r.2

/-! ### Steps of the unit -/

/-- The unit is done with an operation; its stores may still be on their way (R291). -/
def MatOp.handed (o : MatOp) : Bool := o.err != 0 || decide (o.groups ≤ o.group)

/-- What an operation may do now: send a group from the port, or run as the unit's current operation (R291). -/
inductive MatTurn where
  | port (o : MatOp) (ms : List Mv)
  | unit (o : MatOp)
  deriving Repr

/-- The turn of operation `op` (R291, R306): what has been handed over goes on while the unit is stopped, and beside the
unit's own work; `first` says which of the two comes first. -/
def Core.matTurn (x : Core) (op : Nat) (first : Bool) : Option MatTurn :=
  match x.mat.ops.find? (fun o => o.num == op) with
  | none => none
  | some o =>
    let unit := !x.mat.eng.stopped && x.mat.ops.find? (fun p => !p.handed || p.port.isEmpty) == some o
    match o.port with
    | ms :: _ => if unit && !first then some (.unit o) else some (.port o ms)
    | [] => if unit then some (.unit o) else none

/-- The computation of a turn: its error and what goes to the drain port. -/
def MatTurn.run (t : MatTurn) (c : Nat) : M (Nat × List Mv) :=
  match t with
  | .port o ms => do let e ← o.sendPort c ms; pure (e, [])
  | .unit o => if o.handed then pure (0, []) else o.nextGroup c

/-- The operation of a turn, after its turn. After an error no further group is drained, and none of a later one is sent
(R307). -/
def MatTurn.after (t : MatTurn) (code : Nat) (ms : List Mv) : MatOp :=
  match t with
  | .port o _ => if code = 0 then { o with port := o.port.drop 1 } else { o with port := [], err := code }
  | .unit o =>
    if o.handed then o
    else { o with group := o.group + 1, err := code, port := o.port ++ (match o.kind with | .drainc .. => [ms] | _ => []) }

/-- MATRIX_OP_RETIRE: the next row group of an operation, or its next group at the drain port; the last one, or one with an
error, retires it (R187, R291, R307). -/
def execMatrixOpRetire (c op : Nat) (s : State) : Out :=
  match (s.core c).matTurn op (Config.portFirst s.fresh) with
  | none => .next s
  | some t =>
    let s0 : State := { s with fresh := s.fresh + 1 }
    match t.run c s0 with
    | .error .waitAt s1 => .next s1
    | .error _ _ => .next s0
    | .ok (code, ms) s1 =>
      let o := t.after code ms
      if o.handed ∧ o.port.isEmpty then .next (s1.modCore c (fun x => x.retireMat o o.err))
      else .next (s1.modCore c (fun x => x.setMat o))

/-- ENGINE_FAULT: step 1 of an operation's next group meets a trap; the context, or the unit, stops with a fault record
(R306, R308). -/
def execEngineFault (c x op : Nat) (s : State) : Out :=
  if x < 4 then
    match s.copyFault c x op with
    | some (o, t) =>
      .next (s.modCore c (fun y => y.setCtx x { y.ctx x with eng := (y.ctx x).eng.stop x o.num o.group t }))
    | none => .next s
  else if x = 4 then
    match (s.core c).matTurn op false with
    | some (.unit o) =>
      match s.trapOf ((MatTurn.unit o).run c) with
      | some tr => .next (s.modCore c (fun y => { y with mat := { y.mat with eng := y.mat.eng.stop 4 o.num o.group tr } }))
      | none => .next s
    | _ => .next s
  else .next s

/-! ### Issue -/

/-- The accumulator origin (R290). -/
def accOrigin (opnd : Nat) (v : Word) (af : AFmt) (rows cols : Nat) : M (Nat × Nat) := do
  let n := v.toNat
  need (decide (n < 2 ^ 16) && !bitAt n 7) opnd n
  let r := n % 128
  let c := n / 256
  need (decide (r + rows ≤ 128) && decide (c + cols ≤ accCols af)) opnd n
  pure (r, c)

/-- The end of an issue: the unit, its queue, the number (R18, R131, R187, R291). -/
def issueMat (o : MatOp) : M Unit := do
  afterLda
  let a ← look State.cur
  let x ← look State.myCore
  match x.mat.holder with
  | some k => waitFor (k == a.seat)
  | none => change (fun s => s.modMyCore (fun x =>
      ({ x with mat := { x.mat with holder := some a.seat, eng := {} } }.setTl 4 {})))
  let room ← look (fun s => decide (s.myCore.mat.ops.length < 8))
  waitFor room
  let sp ← mySpace
  let t ← me
  change (fun s => s.modMyCore (fun x =>
    let n := ((x.tl 4).iss + 1) % 2 ^ 56
    let p : MatOp := { o with num := n, seat := a.seat, strn := a.strn, space := sp, ftz := t.ftz, before := s.accNum }
    let x1 := x.setTl 4 { x.tl 4 with iss := n }
    let x2 := { x1 with mat := { x1.mat with ops := x1.mat.ops ++ [p] } }
    (if p.fills then x2.modSeat a.seat (fun y => y.setView o.vnum { y.view o.vnum with fe := false }) else x2).syncTl))

def noMod : SrcMod := ⟨false, false, false⟩

/-- An operation to be issued. -/
def newOp (kind : MatKind) (af : AFmt) (rc : Nat × Nat) (va vb : View) (ma mb : SrcMod) (n m : Nat) : MatOp :=
  { num := 0, seat := 0, strn := .main, kind := kind, af := af, row0 := rc.1, col0 := rc.2, va := va, vb := vb, ma := ma
    mb := mb, vnum := n, vbnum := m, space := ⟨0, 0, none⟩, ftz := false, before := 0 }

/-- A bit-plane operand (R292). -/
def planeView (opnd : Nat) (a : Src) : M (Nat × SrcMod × Bool × View) := do
  let (n, m, fe) ← tileNum opnd a
  let v ← useView opnd n
  need (v.layout == 2) opnd n
  pure (n, m, fe, v)

/-- Issue of a multiply-accumulate with its own operands (R292). -/
def mulOwn (kind : MatKind) (af : AFmt) (d : Nat) (a b : Src) : M Unit := do
  let (n, ma, fa, va) ← planeView 2 a
  let (m, mb, fb, vb) ← planeView 3 b
  need (mmaPair va.fm vb.fm af) 2 n
  let o ← readD d
  viewFull 2 n fa
  viewFull 3 m fb
  let rc ← accOrigin 1 o af va.rows vb.rows
  issueMat (newOp kind af rc va vb ma mb n m)

def execMma (h : Head) (af : AFmt) (sat : Bool) (d : Nat) (a b : Src) (s : State) : Out :=
  issue h (do
    noHandler
    mulOwn (.mma sat) af d a b) s

def execMmac (h : Head) (af : AFmt) (d : Nat) (a b : Src) (s : State) : Out :=
  issue h (do
    noHandler
    mulOwn .mmac af d a b) s

/-- An operand that another member sends: its view there, once it is full (R295). -/
def sentView (c : Nat) (opnd : Nat) (a : Src) : M (Nat × SrcMod × View) := do
  let (n, m, _) ← tileNum opnd a
  let k ← look (fun s => ((s.core c).gang.map (fun g => g.seat)).getD 0)
  let v ← look (fun s => (s.seat c k).view n)
  waitFor v.fe
  pure (n, m, v)

def execMgang (h : Head) (af : AFmt) (sat : Bool) (d : Nat) (a b : Src) (s : State) : Out :=
  issue h (do
    noHandler
    let g ← look State.cur
    let gang ← look (fun s => s.myCore.gang)
    match gang with
    | none => mulOwn (.mgang sat) af d a b
    | some q =>
      if q.seat ≠ g.seat ∨ g.strn ≠ .main then mulOwn (.mgang sat) af d a b
      else do
        let (x, y) := gangPos q.leader g.core
        let (n, ma, va) ← if x = 0 then do
            let (n, m, fe, v) ← planeView 2 a
            viewFull 2 n fe
            pure (n, m, v)
          else sentView (g.core - x) 2 a
        let (m, mb, vb) ← if y = 0 then do
            let (n, m, fe, v) ← planeView 3 b
            viewFull 3 n fe
            pure (n, m, v)
          else sentView (g.core - 128 * y) 3 b
        need (va.layout == 2 && vb.layout == 2 && mmaPair va.fm vb.fm af) 2 n
        let o ← readD d
        let rc ← accOrigin 1 o af va.rows vb.rows
        if q.leader = g.core then
          change (fun s => { s.modMyCore (fun x => { x with gang := x.gang.map (fun z => { z with mg := s.fresh }) }) with
            fresh := s.fresh + 1 })
        else pure ()
        let uid ← look (fun s => ((s.core q.leader).gang.map (fun z => z.mg)).getD 0)
        issueMat { newOp (.mgang sat) af rc va vb ma mb n m with gid := some (q.leader, uid) }) s

/-- A count within a range (R296). -/
def countIn (opnd : Nat) (a : Src) (hi : Nat) : M Nat := do
  let n ← readN64 opnd a
  need (decide (1 ≤ n) && decide (n ≤ hi)) opnd n
  pure n

def execMzero (h : Head) (af : AFmt) (d : Nat) (a b : Src) (s : State) : Out :=
  issue h (do
    noHandler
    let r ← countIn 2 a 128
    let c ← countIn 3 b 256
    let o ← readD d
    let rc ← accOrigin 1 o af r c
    issueMat (newOp (.zero r c) af rc {} {} noMod noMod 0 0)) s

def isCplxAf : AFmt → Bool
  | .cf32 | .cf64 => true
  | _ => false

def execMload (h : Head) (af : AFmt) (d : Nat) (a : Src) (s : State) : Out :=
  issue h (do
    noHandler
    let (n, _, fe) ← tileNum 2 a
    let v ← useView 2 n
    need (v.plain && (isCplxAf af || !isCX v.fm)) 2 n
    let o ← readD d
    viewFull 2 n fe
    let rc ← accOrigin 1 o af v.rows v.cols
    issueMat (newOp .load af rc v {} noMod noMod n 0)) s

/-- Scale of a drain (R297). -/
def drainScale (b : Option Src) : M Int := do
  let e ← readOpt 0 (readI64 3) b
  need (decide (-2048 ≤ e) && decide (e ≤ 2047)) 3 (e % (2 ^ 64 : Nat)).toNat
  pure e

def execMdrain (h : Head) (af : AFmt) (rnd : Rnd) (satx clr : Bool) (d : Nat) (a : Src) (b : Option Src) (s : State) : Out :=
  issue h (do
    noHandler
    let v ← useView 1 d
    need (v.plain && isCX v.fm == isCplxAf af) 1 d
    let o ← readRow 2 1 a
    let e ← drainScale b
    viewFree d
    let rc ← accOrigin 2 (o.headD 0) af v.rows v.cols
    modMe (fun x => x.setProg d 0)
    issueMat (newOp (.drain e rnd satx clr) af rc v {} noMod noMod d 0)) s

def execMdrainc (h : Head) (af : AFmt) (z : Nat) (add clr satx t : Bool) (d : Nat) (a : Src) (b : Option Src) (s : State) :
    Out :=
  issue h (do
    noHandler
    let v ← useView 1 d
    need (v.plain && !isCX v.fm) 1 d
    need (!add || addFmt v.fm) 1 d
    let ws ← readRow 2 5 a
    let e ← drainScale b
    viewFree d
    let rc ← accOrigin 2 (ws.headD 0) af v.rows v.cols
    let tens ← readTensor z
    need (tens.fm == v.fm) 1 d
    modMe (fun x => x.setProg d 0)
    issueMat (newOp (.drainc e satx clr add t tens ((ws.drop 1).map (fun w => w.toInt))) af rc v {} noMod noMod d 0)) s

end Sys2Proof.Machine
end

