-- ==== Sys2Proof/Machine/Memory.lean ====
section
/-! DEFINITION. Families 0x9 and 0xA: loads, stores, atomics, fences (R313 to R326), checked stores (R210), and the steps
that perform and answer accesses (R114, R115, R315, R317). -/
namespace Sys2Proof.Machine

/-! ### Checked pairs (R210, R363) -/

/-- The pair of the issuer's core, where it holds. -/
def myPair : M (Option Pair) := look (fun s => (s.myCore.pair).bind (fun p => if p.on then some p else none))

/-- MISMATCH on both cores of a pair (R210): tasks are retired and their record is given back, launch threads trap; at a store
of the handler it is a double fault (R203). -/
def State.mismatch (s : State) (c m : Nat) (va vb : Nat) : State :=
  let k := s.cur.seat
  let on (p : Seat → Bool) : Option Nat := (upto 4).find? (fun i => p (s.seat m i))
  let j := ((on (fun x => x.main.blk == .comparing)).or (on (fun x => x.occ == .thread))).getD 0
  let hit (s : State) (c k : Nat) (va : Nat) : State :=
    let x := s.seat c k
    if x.occ ≠ .thread then s
    else if x.record.isSome ∧ !x.hnd then s.retireNow c k
    else s.takeTrap { core := c, seat := k } { cause := .mismatch, val := BitVec.ofNat 64 va } false
  let s0 := (s.modCore c (fun x => x.unoffer k)).modCore m (fun x => x.unoffer j)
  let task (x : Seat) : Option (BitVec 256) := if x.hnd then none else x.record
  let rcd := match task (s.seat c k) with | some r => some r | none => task (s.seat m j)
  let s1 := match rcd with
    | some r => s0.modCore (min c m) (fun x => x.giveBack r)
    | none => s0
  hit (hit s1 c k va) m j vb

/-- A store of a paired core is compared with its partner's. The first to come waits. The second, if equal, is performed
for both: `act` puts it in flight or performs it, and then the partner's completes too (R210). -/
def compared (o : Offer) (act : M Unit) : M Unit := do
  let p ← myPair
  let c ← look (fun s => s.cur.core)
  match p with
  | none => act
  | some p => do
    let q ← look (fun s => ((s.core p.mate).pair).bind (fun q => q.offer))
    let begun ← look (fun s => s.myTile.isSome)
    match q with
    | none => if begun then act else do
      change (fun s => (s.modMyCore (fun x => { x with pair := some { p with offer := some o } })).modStrand s.cur
        (fun t => { t with blk := .comparing }))
      throw .waitAt
    | some q =>
      if begun ∨ (q.addr = o.addr ∧ q.size = o.size ∧ q.data = o.data) then do
        let n ← look State.accNum
        act
        change (fun s =>
          let k := ((upto 4).find? (fun i => (s.seat p.mate i).main.blk == .comparing)).getD 4
          let mine := s.cur
          let s1 := s.modCore p.mate (fun x => { x with pair := x.pair.map (fun z => { z with offer := none }) })
          let s2 := match q.acc with
            | none => s1
            | some a =>
              let m := s1.accNum
              let fl : List Access := s1.flight.map (fun (x : Access) => if x.num = n then { x with twin := some m } else x)
              let s2 : State := { s1 with accNum := m + 1, flight := fl ++ [{ a with num := m, ghost := true }] }
              match a.dst with
              | some d => s2.modSeat p.mate k (fun x => x.setFull d false)
              | none => s2
          let g : Agent := { core := p.mate, seat := k }
          let s3 : State := { s2 with cur := g }
          let s4 := (s3.modStrand g (fun t => { t with blk := .none })).advance q.head
          { s4 with cur := mine })
      else do
        change (fun s => s.mismatch c p.mate o.addr q.addr)
        throw .waitAt

/-! ### Scalar accesses -/

/-- The address of an access (R313). -/
def memAddr (a b : Src) : M Nat := do
  let x ← readN64 2 a
  let y ← readI64 3 b
  pure (((x : Int) + y) % (2 ^ 64 : Nat)).toNat

/-- Wait until registers that an access will write are full (R72). -/
def freeRegs (d : Nat) (pair : Bool) : M Unit := do
  let x ← me
  waitFor (x.full d && (!pair || x.full (d + 1)))

/-- An access is the issuing core's own, and not compared (R363). -/
def ownOnly (c : Nat) (ps : List Piece) : Bool := ps.all (fun p => p.home == .bank c)

/-- Put an access in flight, after its comparison where the core is paired and it is a store or atomic that leaves the
core. -/
def sendAccess (h : Head) (kind : AccKind) (len : Nat) (dst : Option Nat) (pair acq : Bool) (va : Nat) (data : List Byte)
    (ps : List Piece) : M Unit := do
  let g ← look State.cur
  let x ← me
  let a : Access := { num := 0, core := g.core, seat := g.seat, strn := g.strn, kind := kind, len := len, dst := dst
                      pair := pair, acq := acq, va := BitVec.ofNat 64 va, dom := x.who.dom, vdev := x.vdev, pieces := ps }
  let act : M Unit := do
    change (fun s => s.launchAccess a)
    modMe (fun x => match dst with
      | some d => let y := x.setFull d false; if pair then y.setFull (d + 1) false else y
      | none => x)
  let cmp := match kind with | .load _ => false | _ => !ownOnly g.core ps
  if cmp then compared { acc := some a, head := h, addr := va, size := len, data := [(va, data)] } act else act

/-- LD and LDA (R318, R319, R321). -/
def loadOp (h : Head) (acq : Bool) (sz : Nat) (sx : Bool) (d : Nat) (a b : Src) : M Unit := do
  afterLda
  let pair := sz == 4
  if pair then evenD d else pure ()
  let va ← memAddr a b
  freeRegs d pair
  let ps ← seatPieces va (2 ^ sz) .r false false acq
  sendAccess h (.load sx) (2 ^ sz) (some d) pair acq va [] ps

def execLd (h : Head) (sz : Nat) (sx : Bool) (d : Nat) (a b : Src) (s : State) : Out :=
  issue h (loadOp h false sz sx d a b) s

def execLda (h : Head) (sz : Nat) (sx : Bool) (d : Nat) (a b : Src) (s : State) : Out :=
  issue h (loadOp h true sz sx d a b) s

/-- ST and STL (R318, R319, R321). -/
def storeOp (h : Head) (rel : Bool) (sz d : Nat) (a b : Src) : M Unit := do
  afterLda
  let pair := sz == 4
  if pair then evenD d else pure ()
  let va ← memAddr a b
  let lo ← readD d
  let hi ← if pair then readD (d + 1) else pure 0
  if rel then release else pure ()
  let ps ← seatPieces va (2 ^ sz) .w true false rel
  let data := (leBytes lo.toNat 8 ++ leBytes hi.toNat 8).take (2 ^ sz)
  sendAccess h (.store data) (2 ^ sz) none pair false va data ps

def execSt (h : Head) (sz d : Nat) (a b : Src) (s : State) : Out := issue h (storeOp h false sz d a b) s

def execStl (h : Head) (sz d : Nat) (a b : Src) (s : State) : Out := issue h (storeOp h true sz d a b) s

/-- PREF: only EMPTY on its base is raised, and nothing visible changes (R322). -/
def execPref (h : Head) (a _b : Src) (s : State) : Out :=
  issue h (do
    let (n, fe) ← scalNum 2 a
    let _ ← readScal 2 n fe
    pure ()) s

/-! ### Atomics -/

/-- An atomic (R323, R324). `b2` is the new value of ACAS. -/
def atomicOp (h : Head) (op : AtomOp) (w : Nat) (ty : ITy) (d : Option Nat) (a : Src) (b : Word) : M Unit := do
  afterLda
  let va ← readN64 2 a
  match d with
  | some d => freeRegs d false
  | none => pure ()
  let ps ← seatPieces va (w / 8) .rw false true true
  let code : List Byte := leBytes b.toNat 8 ++ (match op with | .cas n => leBytes n.toNat 8 | _ => [])
  sendAccess h (.atomic op ty b) (w / 8) d false false va code ps

/-- Types that integer atomics accept (R323). -/
def atomTy : ITy → Bool
  | .i32 | .n32 | .i64 | .n64 => true
  | _ => false

/-- An integer atomic with one operand. -/
def intAtomic (h : Head) (op : AtomOp) (ty : ITy) (d : Option Nat) (a b : Src) (s : State) : Out :=
  issue h (do
    need (atomTy ty) 0 (match ty with | .i8 => 0 | .i16 => 1 | .n8 => 4 | .n16 => 5 | _ => 0)
    let v ← readInt ty 3 b
    atomicOp h op (wOf ty) ty d a (BitVec.ofInt 64 (v % (2 ^ wOf ty : Nat)))) s

def execAadd (h : Head) (ty : ITy) (d : Option Nat) (a b : Src) (s : State) : Out := intAtomic h .add ty d a b s
def execAmin (h : Head) (ty : ITy) (d : Option Nat) (a b : Src) (s : State) : Out := intAtomic h .min ty d a b s
def execAmax (h : Head) (ty : ITy) (d : Option Nat) (a b : Src) (s : State) : Out := intAtomic h .max ty d a b s
def execAand (h : Head) (ty : ITy) (d : Option Nat) (a b : Src) (s : State) : Out := intAtomic h .and ty d a b s
def execAor (h : Head) (ty : ITy) (d : Option Nat) (a b : Src) (s : State) : Out := intAtomic h .or ty d a b s
def execAxor (h : Head) (ty : ITy) (d : Option Nat) (a b : Src) (s : State) : Out := intAtomic h .xor ty d a b s
def execAxchg (h : Head) (ty : ITy) (d : Option Nat) (a b : Src) (s : State) : Out := intAtomic h .xchg ty d a b s
def execAincw (h : Head) (ty : ITy) (d : Option Nat) (a b : Src) (s : State) : Out := intAtomic h .incw ty d a b s

def execAcas (h : Head) (ty : ITy) (d : Option Nat) (a b : Src) (s : State) : Out :=
  issue h (do
    need (atomTy ty) 0 (match ty with | .i8 => 0 | .i16 => 1 | .n8 => 4 | .n16 => 5 | _ => 0)
    let (x, y) ← readPair 3 b
    atomicOp h (.cas y) (wOf ty) ty d a (BitVec.ofNat 64 (x.toNat % 2 ^ wOf ty))) s

def execAfadd (h : Head) (m : FMod) (d : Option Nat) (a b : Src) (s : State) : Out :=
  issue h (do
    need (m.fmt == .fp32 || m.fmt == .fp64) 0 m.fmt.code
    let v ← readF m.fmt 3 b
    atomicOp h (.fadd m.fmt m.rnd) (fmtWidth m.fmt) (if m.fmt = .fp32 then .n32 else .n64) d a (BitVec.ofNat 64 v)) s

/-! ### Fences -/

def execFence (h : Head) (scope : Scope) (kind : FenceKind) (s : State) : Out :=
  issue h (do
    fenced scope kind) s

/-- Discard the fetch buffers of the thread's strands (R326). -/
def dropFetch : M Unit := modMe (fun x =>
  { x with main := { x.main with fbuf := [] }, mat := { x.mat with fbuf := [] }, cpy := { x.cpy with fbuf := [] } })

/-- Stores and atomics of the strand to its own core's memory have been performed (R326). -/
def codeDone : M Unit := do
  let ok ← look (fun s => (s.myFlight s.cur).all (fun a =>
    match a.kind with
    | .load _ => true
    | _ => a.pieces.all (fun p => !p.sent || p.home != .bank s.cur.core)))
  waitFor ok

def execCodefLoc (h : Head) (s : State) : Out :=
  issue h (do
    codeDone
    dropFetch) s

def execCodefDev (h : Head) (a b : Src) (s : State) : Out :=
  issue h (do
    let v ← readN64 2 a
    let q ← readN64 3 b
    let x ← me
    let nq ← look (fun s => (s.quota x.vdev).nqueue)
    need (decide (q < nq) || q == 64) 3 q
    let t ← look (fun s => if q = 64 then (s.vd x.vdev).xtl else (s.queue x.vdev q).qtl)
    waitFor (tlMet t (v % 2 ^ 56))
    codeDone
    dropFetch) s

/-! ### Tile forms (R320) -/

/-- Runs of a group of a view that a tile LD or ST moves: headers, then elements. -/
def View.memRuns (v : View) (g : Nat) : List Run :=
  let (r0, r1) := v.grp g
  if v.vcols = 0 ∨ r1 ≤ r0 then []
  else if v.layout = 2 then
    (List.range' r0 (r1 - r0)).flatMap (fun i =>
      (if isBlock v.fm then v.hdrRuns i v.vcols else []) ++
        (upto (fmtWidth v.fm)).map (fun b => ⟨8 * (v.base + v.pitch * i + v.hdr + 16 * b), v.vcols⟩))
  else
    let hs := if !isBlock v.fm then []
      else if v.layout = 0 then (List.range' r0 (r1 - r0)).flatMap (fun i => v.hdrRuns i v.vcols)
      else (upto v.vcols).flatMap (fun j => (List.range' (r0 / 32) ((r1 - 1) / 32 - r0 / 32 + 1)).map (fun b =>
        let (p, k) := v.hdrAt (32 * b); ⟨8 * (v.base + v.pitch * j + p), 8 * k⟩))
    hs ++ v.runs r0 r1 v.vcols

/-- The place in memory of a run of the view. -/
def memSpot (v : View) (addr : Nat) (r : Run) : Spot := .mem ((addr + (r.off - v.base)) % 2 ^ 64) (r.at_ % 8) r.len

/-- Runs that a group of a tile LD writes as zero: the padding beyond the last column, and the rest of each header that it
writes (R44, R45). -/
def View.zeroRuns (v : View) (g : Nat) : List Run :=
  let (r0, r1) := v.grp g
  if v.vcols = 0 ∨ r1 ≤ r0 then []
  else (if !isBlock v.fm then []
    else if v.layout = 1 then (upto v.vcols).map v.hdrRest else (List.range' r0 (r1 - r0)).map v.hdrRest) ++
    (if v.layout = 2 then [] else v.padRuns r0 r1 v.vcols)

/-- Checks of a group that may fail or wait: a trap keeps the groups done, a wait goes on from this group (R270). -/
def inGroup {α : Type} (n : Nat) (fills : Bool) (g : Nat) (m : M α) : M α := fun s =>
  match m s with
  | .error (.trap t) _ => .error (.trapAt t) s
  | .error .wait _ => pauseTile n fills g .start s
  | .error .waitAt s1 => pauseTile n fills g .start s1
  | r => r

/-- The tile engine may reach a granule now: no scoreboard holds it, no earlier packet of the core is on its way there, and
the host caches no line that is written (R16, R97, R109, R110). -/
def State.mayReach (s : State) (c : Nat) (wr : Bool) (u : Loc) : Bool :=
  u.all (fun f =>
    let a := f.at_ / 8
    let n := (f.at_ % 8 + f.len + 7) / 8
    !s.overtakes c [f.home] && !(wr && s.snooped f.home a n) && (match f.home with
      | .bank k => !(s.core k).heldRange a n none
      | _ => true))

/-- The address that a trap of a tile LD or ST names for a byte at `va` (R197): a local offset in the issuer's own memory. -/
def memVal (c va : Nat) : Nat := if regionOf va = some .local_ ∧ (coreOf va).1 = c then (coreOf va).2 else va

/-- A group of a tile LD or ST, once it has been checked: `here` are the view's runs, `locs` their places in memory,
`zero` what a load writes as zero. -/
def memPlan (load : Bool) (d : Nat) (v : View) (addr g c : Nat) (here zero : List Run) (locs : List Loc) : Group where
  pause := pauseTile d load g
  can := fun s wr u => s.mayReach c wr u
  bad := fun u =>
    if load then addrTrap .poison (memVal c (((List.zip here locs).find? (fun e =>
        e.2.any (fun f => u.any (fun y => y.home == f.home && decide (f.at_ < y.at_ + y.len) && decide (y.at_ < f.at_ + f.len)))))
      |>.elim addr (fun e => addr + (e.1.off - v.base))))
    else addrTrap .poison ((u.map (fun f => f.at_ / 8)).min?.getD 0)
  again := fun _ => .ok []
  act := fun s =>
    if load then zero.foldl (fun t r => t.setBits c r 0)
      ((List.zip here locs).foldl (fun t e => t.setBits c e.1 (Loc.read s e.2)) s)
    else (List.zip here locs).foldl (fun t e => Loc.write t (s.bits c e.1) e.2) s
  writes := fun _ => [if load then unitsOf (fragsAt c (here ++ zero)) else unitsOf locs.flatten]

/-- One group of a tile LD or ST (R320), all at once or as far as the choices of its granules go. -/
def tileMemGroup (load : Bool) (d : Nat) (v : View) (addr g : Nat) (ch : Option (List Nat)) : M (Option (List Nat)) := do
  atGroup d g load
  if ch = some [] then pauseTile d load g .start else pure ()
  let c ← look (fun s => s.cur.core)
  let x ← me
  let here := v.memRuns g
  let zero := if load then v.zeroRuns g else []
  checkRuns d (if load then .w else .r) (if load then (here ++ zero).map Run.wide else here)
  let locs ← inGroup d load g (mapL here (fun r => (memSpot v addr r).place c x.who (if load then .r else .w) (!load)))
  let all := locs.flatten
  let p := memPlan load d v addr g c here zero locs
  let ok ← look (fun s => s.mayReach c false (fragsAt c (here ++ zero)) && s.mayReach c (!load) all)
  if !ok then pauseTile d load g .start else pure ()
  if load then goodRuns [] (here ++ zero) else goodRuns here []
  let bad ← look (fun s => (List.zip here locs).find? (fun e => e.2.any (fun f => (f.bad s).any (fun i =>
    load || !unitCovered (all.filter (fun y => y.home == f.home)) f.unit i))))
  match bad with
  | some e => throw (.trapAt (addrTrap .poison (memVal c (addr + (e.1.off - v.base)))))
  | none => pure ()
  match ch with
  | none => do
    change (fun s => (p.act s).clearWhole (if load then fragsAt c (here ++ zero) else all))
    pure none
  | some _ => p.run (.reads (if load then unitsOf all else unitsOf (fragsAt c here)) []) ch

/-- Groups one after another. -/
def tileMemGroups (load : Bool) (d : Nat) (v : View) (addr : Nat) : List Nat → Option (List Nat) → M Unit
  | [], _ => pure ()
  | g :: gs, ch => do
    let ch ← tileMemGroup load d v addr g ch
    tileMemGroups load d v addr gs ch

/-- The groups that are left, from where the instruction paused or resumes, else from 0. -/
def tileMemRun (load : Bool) (d : Nat) (v : View) (addr : Nat) : M Unit := do
  let ch ← look (fun s => s.reach)
  let r ← look State.myTile
  match r with
  | some r => do
    let g := if r.phase = .start then r.group else r.group + 1
    let ch ← if r.phase = .start then pure ch else do
      let c ← look (fun s => s.cur.core)
      let x ← me
      let here := v.memRuns r.group
      let locs ← inGroup d load r.group (mapL here (fun q => (memSpot v addr q).place c x.who (if load then .r else .w) (!load)))
      let ch ← (memPlan load d v addr r.group c here (if load then v.zeroRuns r.group else []) locs).run r.phase ch
      if g < v.groups then boundary d load g else pure ()
      pure ch
    tileMemGroups load d v addr (List.range' g (v.groups - g)) ch
    change State.freeTile
  | none => do
    let x ← me
    let g := if x.resume then v.prog else 0
    tileMemGroups load d v addr (List.range' g (v.groups - g)) ch
    change State.freeTile
  modMe (fun x => x.setProg d 0)

/-- Every byte of a range stands in core c's own local memory, whatever address names it (R363). -/
def State.ownBytes (s : State) (c : Nat) (w : Who) (va len : Nat) : Bool :=
  (w.chunks va len).all (fun (a, n) => match Machine.route s w a n .w with
    | .ok r => r.reg == .local_ && (coreOf r.va).1 == c
    | .error _ => true)

/-- A tile LD or ST in row groups (R320). -/
def tileMem (h : Head) (load : Bool) (d : Nat) (a b : Src) : M Unit := do
  afterLda
  let v ← useView 1 d
  let addr ← memAddr a b
  need (addr % 16 == 0) 2 addr
  need (v.layout != 2 || (v.vrows == v.rows && v.vcols == v.cols)) 1 d
  let begun ← look (fun s => s.myTile.isSome)
  if begun then pure () else if load then viewFree d else viewFull 1 d false
  bankQuiet
  let c ← look (fun s => s.cur.core)
  let x ← me
  let run := tileMemRun load d v addr
  let own ← look (fun s => load || (upto v.groups).all (fun g => (v.memRuns g).all (fun r =>
    s.ownBytes c x.who ((addr + (r.off - v.base)) % 2 ^ 64) r.bytes)))
  if own then run
  else do
    let data ← look (fun s => (upto v.groups).flatMap (fun g => (v.memRuns g).map (fun r =>
      (addr + (r.off - v.base), leBytes (s.bits c r) ((r.len + 7) / 8)))))
    compared { acc := none, head := h, addr := addr, size := v.extent, data := data } run

def execLdTile (h : Head) (d : Nat) (a b : Src) (s : State) : Out :=
  issue h (fromZero d (tileMem h true d a b)) s

def execStTile (h : Head) (d : Nat) (a b : Src) (s : State) : Out :=
  issue h (fromZero d (tileMem h false d a b)) s

/-! ### Steps of homes and walkers -/

/-- REMOTE_ACCESS: a core's bank unit performs a piece of an access (R92, R93, R317). -/
def execRemoteAccess (n p : Nat) (s : State) : Out :=
  match (s.access n).bind (fun a => a.pieces[p]?) with
  | some q => (match q.home with | .bank _ => .next (s.stepPiece n p) | _ => .next s)
  | none => .next s

/-- DEVICE_HOME_ACCESS: a channel slice, the host port or a fabric home performs a piece of an access (R106, R109, R111,
R317). -/
def execDeviceHomeAccess (n p : Nat) (s : State) : Out :=
  match (s.access n).bind (fun a => a.pieces[p]?) with
  | some q => (match q.home with | .bank _ => .next s | _ => .next (s.stepPiece n p))
  | none => .next s

/-- The values that a completed access writes (R319, R324). -/
def Access.values (a : Access) : List Word :=
  let v := leNat a.bytes
  match a.kind with
  | .load sx =>
    if a.pair then [BitVec.ofNat 64 (v % 2 ^ 64), BitVec.ofNat 64 (v / 2 ^ 64)]
    else [BitVec.ofInt 64 (readBits sx (8 * a.len) v)]
  | .atomic _ ty _ => [BitVec.ofInt 64 (readBits (sgn ty) (wOf ty) v)]
  | .store _ => []

/-- Destinations become full, with values where the access returns any (R72, R315). -/
def Seat.fillRegs (x : Seat) (d : Nat) (n : Nat) (vs : List Word) : Seat :=
  (upto n).foldl (fun (x : Seat) i =>
    (match vs[i]? with | some v => x.setReg (d + i) v | none => x).setFull (d + i) true) x

/-- ACCESS_REPLY: the value of a load or returning atomic arrives (R72, R319, R324). -/
def execAccessReply (n : Nat) (s : State) : Out :=
  match s.access n with
  | none => .next s
  | some a =>
    if !a.returns || !a.decided || a.failed.isSome then .next s
    else
      let s1 := s.dropAccess n
      match a.dst with
      | some d =>
        .next ((s1.modSeat a.core a.seat (fun x => x.fillRegs d (if a.pair then 2 else 1) a.values)).settleTrap a.core a.seat)
      | none => .next s1

/-- STORE_ACKNOWLEDGEMENT: a store, or an atomic that returns nothing, is known to be performed (R315, R324). -/
def execStoreAcknowledgement (n : Nat) (s : State) : Out :=
  match s.access n with
  | none => .next s
  | some a => if a.returns || !a.decided || a.failed.isSome then .next s else .next (s.dropAccess n)

/-- The strand, itself or held by a handler, sleeps until another unit answers. -/
def State.asleep (s : State) (a : Agent) : Bool :=
  let x := s.seat a.core a.seat
  match x.held, a.strn with
  | some h, .main => !h.mblk.open_
  | _, k => !(x.strand k).blk.open_

/-- HOME_FAILURE_REPORT: the report of a failed access arrives; its trap is raised at the strand's next boundary (R315). While
the strand sleeps, and so has none, the report is on its way. -/
def execHomeFailureReport (n : Nat) (s : State) : Out :=
  match s.access n with
  | none => .next s
  | some a =>
    if !a.decided || s.asleep { core := a.core, seat := a.seat, strn := a.strn } then .next s
    else match a.failed with
      | none => .next s
      | some t =>
        let s1 := s.dropAccess n
        if 4 ≤ a.seat then .next s1
        else .next ((s1.modSeat a.core a.seat (fun x =>
          let y := match a.dst with | some d => x.fillRegs d (if a.pair then 2 else 1) [] | none => x
          { y with reports := y.reports ++ [(a.strn, t)] })).settleTrap a.core a.seat)

/-- A strand that waits for a translation can take its fault. -/
def State.canFault (s : State) (a : Agent) : Bool :=
  let x := s.core a.core
  let t := x.seat a.seat
  !x.seatStopped a.seat && !s.stops a.core a.seat && (t.strand a.strn).live && (a.strn == .main || (!t.hnd && !x.tiling a.seat))

/-- One of the die's 64 walkers has the walk: misses beyond 64 distinct walks queue in arrival order (R114). -/
def State.walking (s : State) (w : Walk) : Bool :=
  ((distinctWalks (s.walks.filter (fun v => dieOf v.core == dieOf w.core))).take 64).any w.joins

/-- A walk's fault goes to a strand that waits for it (R113). -/
def State.walkFault (s : State) (w : Walk) (t : Trap) : State :=
  let val := if t.cause = .pagefault then w.at_ % 2 ^ 57 + t.val.toNat / 2 ^ 60 * 2 ^ 60 else w.at_
  s.takeTrap { core := w.core, seat := w.seat, strn := w.strn } { t with val := BitVec.ofNat 64 val } false

/-- Walks end with a fault: it goes to the strands that wait for them; a strand that can take no trap yet asks again. -/
def State.walksFail (s : State) (ws : List Walk) (t : Trap) : State :=
  ws.foldl (fun s v => if s.canFault { core := v.core, seat := v.seat, strn := v.strn } then s.walkFault v t else s)
    { s with walks := s.walks.filter (fun v => !ws.contains v) }

/-- A walk ends, for every miss that has joined it: it fills both caches, or its fault goes to the strands that wait (R113,
R114). A walk that meets a page still to be pulled asks for the pull, and is held (R398). -/
def State.walkOn (s : State) (w : Walk) : State :=
  match regionOf w.va with
  | none => s
  | some r =>
    if !s.walking w then s
    else match s.walkPull w.vdev w.dom w.va with
      | some p => s.startPull p w.va (.walk w)
      | none =>
        let all := s.walks.filter w.joins
        match walk s w.vdev w.dom w.va r with
        | .ok e => all.foldl (fun s v => if (s.core v.core).tlb.contains e then s else s.tlbFill v.core e)
            { s with walks := s.walks.filter (fun v => !w.joins v) }
        | .error t => s.walksFail all t

/-- TRANSLATION_WALK (R113, R114, R398). -/
def execTranslationWalk (n : Nat) (s : State) : Out :=
  .next (match s.walks[n]? with
    | none => s
    | some w => s.walkOn w)

/-- DIRTY_LOG_ATOMIC: the atomic on a LOG bit that a held write waits for (R115, R143). On a poisoned line it is not performed:
the strand meets the error at its next attempt (R108). -/
def execDirtyLogAtomic (n : Nat) (s : State) : Out :=
  match s.logs[n]? with
  | none => .next s
  | some r =>
    if r.done then .next s
    else if s.devPoisoned r.entry.vdev r.entry.leaf 8 then .next { s with logs := s.logs.erase r }
    else match s.logAtomic r.entry with
      | none => .next s
      | some (found, s1) =>
        if found then .next { s1 with logs := s1.logs.erase r }
        else .next { s1 with logs := s1.logs.map (fun x => if x = r then { x with done := true } else x) }

end Sys2Proof.Machine
end

