-- ==== Sys2Proof/Machine/Scalar.lean ====
section
/-! DEFINITION. Family 0x1: scalar integer and address (R149, R245, R246, R253 to R259). -/
namespace Sys2Proof.Machine

/-- One source, written under R246. -/
def int1 (h : Head) (ty : ITy) (sat : Bool) (d : Nat) (a : Src) (f : Int → Int) (s : State) : Out :=
  issue h (do
    let x ← readInt ty 2 a
    writeInt ty sat d (f x)) s

/-- Two sources, written under R246. -/
def int2 (h : Head) (ty : ITy) (sat : Bool) (d : Nat) (a b : Src) (f : Int → Int → Int) (s : State) : Out :=
  issue h (do
    let x ← readInt ty 2 a
    let y ← readInt ty 3 b
    writeInt ty sat d (f x y)) s

/-- A source and a count or field word read as .n64 (R256). -/
def intN (h : Head) (ty : ITy) (d : Nat) (a b : Src) (f : Int → Nat → Int) (s : State) : Out :=
  issue h (do
    let x ← readInt ty 2 a
    let c ← readN64 3 b
    writeInt ty false d (f x c)) s

/-- The low `w` bits of an integer. -/
def ubits (w : Nat) (v : Int) : Nat := (v % (2 ^ w : Nat)).toNat

def execMov (h : Head) (ty : ITy) (d : Nat) (a : Src) (s : State) : Out := int1 h ty false d a (fun x => x) s

/-- The raw constant of LDIL and LDIH: A and B are literals (R257). -/
def execLdil (h : Head) (d : Nat) (k : BitVec 32) (s : State) : Out :=
  issue h (writeScal d (BitVec.ofNat 64 k.toNat)) s

def execLdih (h : Head) (d : Nat) (k : BitVec 32) (s : State) : Out :=
  issue h (do
    let v ← readD d
    writeScal d (BitVec.ofNat 64 (k.toNat * 2 ^ 32 + v.toNat % 2 ^ 32))) s

def execAdd (h : Head) (m : IMod) (d : Nat) (a b : Src) (s : State) : Out := int2 h m.ty m.sat d a b (fun x y => x + y) s

def execSub (h : Head) (m : IMod) (d : Nat) (a b : Src) (s : State) : Out := int2 h m.ty m.sat d a b (fun x y => x - y) s

def execMul (h : Head) (m : IMod) (d : Nat) (a b : Src) (s : State) : Out := int2 h m.ty m.sat d a b (fun x y => x * y) s

def execMulh (h : Head) (ty : ITy) (d : Nat) (a b : Src) (s : State) : Out :=
  int2 h ty false d a b (fun x y => x * y / (2 ^ wOf ty : Nat)) s

def execMad (h : Head) (m : IMod) (d : Nat) (a b : Src) (s : State) : Out :=
  issue h (do
    let x ← readInt m.ty 2 a
    let y ← readInt m.ty 3 b
    let z ← readD d
    writeInt m.ty m.sat d (x * y + readBits (sgn m.ty) (wOf m.ty) z.toNat)) s

/-- DIV rounds toward zero; by zero it gives the end of the type that R255 names and sets DZ. -/
def execDiv (h : Head) (m : IMod) (d : Nat) (a b : Src) (s : State) : Out :=
  issue h (do
    let x ← readInt m.ty 2 a
    let y ← readInt m.ty 3 b
    if y = 0 then do
      flag fDZ
      writeInt m.ty m.sat d (if x < 0 then loOf (sgn m.ty) (wOf m.ty) else hiOf (sgn m.ty) (wOf m.ty))
    else writeInt m.ty m.sat d (Int.tdiv x y)) s

def execRem (h : Head) (ty : ITy) (d : Nat) (a b : Src) (s : State) : Out :=
  issue h (do
    let x ← readInt ty 2 a
    let y ← readInt ty 3 b
    if y = 0 then do
      flag fDZ
      writeInt ty false d x
    else writeInt ty false d (Int.tmod x y)) s

def execNeg (h : Head) (m : IMod) (d : Nat) (a : Src) (s : State) : Out := int1 h m.ty m.sat d a (fun x => -x) s

def execAbs (h : Head) (m : IMod) (d : Nat) (a : Src) (s : State) : Out := int1 h m.ty m.sat d a (fun x => x.natAbs) s

def execMin (h : Head) (ty : ITy) (d : Nat) (a b : Src) (s : State) : Out :=
  int2 h ty false d a b (fun x y => if x ≤ y then x else y) s

def execMax (h : Head) (ty : ITy) (d : Nat) (a b : Src) (s : State) : Out :=
  int2 h ty false d a b (fun x y => if x ≤ y then y else x) s

def execAnd (h : Head) (ty : ITy) (d : Nat) (a b : Src) (s : State) : Out :=
  int2 h ty false d a b (fun x y => (ubits (wOf ty) x &&& ubits (wOf ty) y : Nat)) s

def execOr (h : Head) (ty : ITy) (d : Nat) (a b : Src) (s : State) : Out :=
  int2 h ty false d a b (fun x y => (ubits (wOf ty) x ||| ubits (wOf ty) y : Nat)) s

def execXor (h : Head) (ty : ITy) (d : Nat) (a b : Src) (s : State) : Out :=
  int2 h ty false d a b (fun x y => (ubits (wOf ty) x ^^^ ubits (wOf ty) y : Nat)) s

def execAndn (h : Head) (ty : ITy) (d : Nat) (a b : Src) (s : State) : Out :=
  int2 h ty false d a b (fun x y => (ubits (wOf ty) x &&& (2 ^ wOf ty - 1 - ubits (wOf ty) y) : Nat)) s

def execShl (h : Head) (ty : ITy) (d : Nat) (a b : Src) (s : State) : Out :=
  intN h ty d a b (fun x c => if wOf ty ≤ c then 0 else x * (2 ^ c : Nat)) s

def execShr (h : Head) (ty : ITy) (d : Nat) (a b : Src) (s : State) : Out :=
  intN h ty d a b (fun x c => if wOf ty ≤ c then 0 else (ubits (wOf ty) x / 2 ^ c : Nat)) s

/-- SAR shifts in copies of bit w − 1, whatever the type's sign (R256). -/
def execSar (h : Head) (ty : ITy) (d : Nat) (a b : Src) (s : State) : Out :=
  intN h ty d a b (fun x c => readBits true (wOf ty) x / (2 ^ min c (wOf ty) : Nat)) s

def execRol (h : Head) (ty : ITy) (d : Nat) (a b : Src) (s : State) : Out :=
  intN h ty d a b (fun x c =>
    let w := wOf ty
    let k := c % w
    (ubits w x * 2 ^ k + ubits w x / 2 ^ (w - k) : Nat)) s

/-- POS and LEN of BEXT and BINS, checked with TY (R256). -/
def fieldWord (ty : ITy) (b : Src) : M (Nat × Nat) := do
  need (ty == .i64 || ty == .n64) 0 ty.code
  let v ← readN64 3 b
  need (decide (v < 2 ^ 13) && decide (v / 64 ≤ 64)) 3 v
  pure (v % 64, v / 64)

def execBext (h : Head) (ty : ITy) (d : Nat) (a b : Src) (s : State) : Out :=
  issue h (do
    let x ← readInt ty 2 a
    let (pos, len) ← fieldWord ty b
    let f := bitsAt (ubits 64 x) pos len
    writeInt ty false d (if len = 0 then 0 else readBits (sgn ty) len f)) s

def execBins (h : Head) (ty : ITy) (d : Nat) (a b : Src) (s : State) : Out :=
  issue h (do
    let x ← readInt ty 2 a
    let (pos, len) ← fieldWord ty b
    let old ← readD d
    let mask := (2 ^ len - 1) * 2 ^ pos % 2 ^ 64
    let new := ubits 64 x % 2 ^ len * 2 ^ pos % 2 ^ 64
    writeInt ty false d ((old.toNat - (old.toNat &&& mask)) + new : Nat)) s

/-- Leading zero bits at width w. -/
def clzN (w v : Nat) : Nat := if v = 0 then w else w - 1 - Nat.log2 v
/-- Trailing zero bits at width w. -/
def ctzN (w v : Nat) : Nat := ((upto w).find? (fun i => v.testBit i)).getD w
/-- One bits at width w. -/
def popN (w v : Nat) : Nat := ((upto w).filter (fun i => v.testBit i)).length

def execClz (h : Head) (ty : ITy) (d : Nat) (a : Src) (s : State) : Out :=
  int1 h ty false d a (fun x => (clzN (wOf ty) (ubits (wOf ty) x) : Nat)) s

def execCtz (h : Head) (ty : ITy) (d : Nat) (a : Src) (s : State) : Out :=
  int1 h ty false d a (fun x => (ctzN (wOf ty) (ubits (wOf ty) x) : Nat)) s

def execPopc (h : Head) (ty : ITy) (d : Nat) (a : Src) (s : State) : Out :=
  int1 h ty false d a (fun x => (popN (wOf ty) (ubits (wOf ty) x) : Nat)) s

def execSel (h : Head) (ty : ITy) (psel : Nat) (pinv : Bool) (d : Nat) (a b : Src) (s : State) : Out :=
  issue h (do
    let t ← me
    let x ← readInt ty 2 a
    let y ← readInt ty 3 b
    writeInt ty false d (if xor (t.p psel) pinv then x else y)) s

/-! ### GADDR -/

/-- A distribution entry (R149). -/
structure Dist where
  lbase : Nat
  esize : Nat
  n     : List Nat
  b     : List Nat
  p     : List Nat
  lstr  : List Nat
  bad   : Bool

/-- A distribution entry from its bytes; `bad` where V is 0, a reserved field is not, or a limit is broken (R259). -/
def Dist.ofBytes (e : List Byte) : Dist :=
  let shape := numAt e 4 1
  let es := numAt e 5 1
  let n := (upto 4).map (fun i => numAt e (8 + 4 * i) 4)
  let b := (upto 4).map (fun i => numAt e (0x18 + 2 * i) 2)
  let p := (upto 4).map (fun i => numAt e (0x20 + i) 1)
  let l := (upto 3).map (fun i => numAt e (0x28 + 4 * i) 4)
  { lbase := numAt e 0 4, esize := es % 8, n := n, b := b, p := p, lstr := l
    bad := !bitAt shape 7 || bitsAt shape 2 5 != 0 || es / 8 != 0 || decide (4 < es % 8) || decide (2 ^ 18 ≤ numAt e 0 4) ||
      numAt e 6 2 != 0 || numAt e 0x24 4 != 0 || numAt e 0x34 12 != 0 || l.any (fun x => decide (2 ^ 18 ≤ x)) ||
      n.contains 0 || b.contains 0 || p.contains 0 }

/-- Ranks of a distribution. -/
def Dist.ranks (e : Dist) : Nat := e.p.foldl (· * ·) 1

/-- Rank and local offset of a coordinate (R149). -/
def Dist.place (e : Dist) (i : List Nat) : Nat × Nat :=
  let at4 (l : List Nat) (k : Nat) : Nat := nth l k
  let b (k : Nat) := at4 i k / at4 e.b k
  let p (k : Nat) := b k % at4 e.p k
  let loc (k : Nat) := b k / at4 e.p k * at4 e.b k + at4 i k % at4 e.b k
  (p 0 + at4 e.p 0 * (p 1 + at4 e.p 1 * (p 2 + at4 e.p 2 * p 3)),
   e.lbase + loc 0 * 2 ^ e.esize + loc 1 * at4 e.lstr 0 + loc 2 * at4 e.lstr 1 + loc 3 * at4 e.lstr 2)

/-- Logical core of a rank of a core set (R36, R149). -/
def State.coreOfRank (s : State) (vd : Nat) (r : LRec) (rank : Nat) : Nat :=
  nth (s.quota vd).rowList (r.sety + rank / r.setw) * 128 + (r.setx + rank % r.setw)

def execGaddr (h : Head) (d : Nat) (a b : Src) (s : State) : Out :=
  issue h (do
    evenD d
    -- its destinations are full when it issues, and so on every trap too (log 111)
    let fe ← look (fun s => s.me.full d && s.me.full (d + 1))
    waitFor fe
    let k ← readN64 2 a
    let i ← readRow 3 4 b
    let i := i.map (fun v => v.toNat)
    let l ← myLaunch
    let c ← look (fun s => s.cur.core)
    match l with
    | none => raise .operand 2 k
    | some l => do
      need (l.rcd.disttab != 0 && decide (k ≤ 255)) 2 k
      let e ← unitRead (some c) { vdev := l.vdev, dom := l.base, win := none } (l.rcd.disttab + 64 * k) 64
      let e := Dist.ofBytes e
      need (!e.bad && decide (e.ranks ≤ l.rcd.setw * l.rcd.seth)) 2 k
      if (upto 4).any (fun j => decide (nth e.n j ≤ nth i j)) then writeScals d [0, BitVec.allOnes 64]
      else do
        let (rank, off) := e.place i
        let n ← look (fun s => s.coreOfRank l.vdev l.rcd rank)
        need (decide (off + 2 ^ e.esize ≤ 262144)) 2 k
        writeScals d [BitVec.ofNat 64 (coreVa n off), BitVec.ofNat 64 n]) s

end Sys2Proof.Machine
end

