-- ==== Sys2Proof/Machine/Slots.lean ====
section
/-! DEFINITION. Family 0xB: sync slots (R327 to R330) and supersteps (R32, R151, R331), with the arrival of a slot
instruction at another core. -/
namespace Sys2Proof.Machine

/-! ### Slot instructions -/

/-- The core that B names, the issuing core where it is absent (R327). -/
def slotCore (b : Option Src) : M Nat := do
  let g ← look State.cur
  match b with
  | none => pure g.core
  | some b => do
    let n ← readN64 3 b
    let mapped ← look (fun s => s.mapped n)
    if !mapped then raise .address 3 n else pure ()
    let x ← me
    let held ← look (fun s => s.holdsCore x.vdev n)
    need held 3 n
    pure n

/-- What a strand waits for. -/
def State.setBlk (s : State) (a : Agent) (b : Blk) : State := s.modStrand a (fun t => { t with blk := b })

/-- Perform a slot instruction of the issuer at its own core's unit, which is one home with the core's banks (R317), or send
it to another core's. -/
def slotGo (h : Head) (c y : Nat) (op : SlotOp) : M Unit := do
  let g ← look State.cur
  let x ← me
  let a : Agent := { g with hnd := x.hnd && g.strn == .main }
  if c = g.core then do
    bankQuiet
    let r ← look (fun s => ((s.hints h).setBlk a (.slot c y)).slotDo a c y op)
    match r with
    | .error e => raise .syncstate 0 e
    | .ok s' => change (fun _ => s')
  else
    change (fun s =>
      let n := s.accNum
      let q : SlotReq := { num := n, core := g.core, seat := g.seat, strn := g.strn, hnd := a.hnd, dest := c, y := y, op := op }
      { (s.hints h).setBlk a (.sent n) with accNum := n + 1, slotReqs := s.slotReqs ++ [q] })

/-- A slot instruction; an arrival is a release (R327). -/
def slotInstr (h : Head) (y : Nat) (b : Option Src) (arrival : Bool) (op : M SlotOp) (s : State) : Out :=
  leave h (do
    let op ← op
    let c ← slotCore b
    if arrival then release else afterLda
    slotGo h c y op) s

/-- A parameter n of 1 to 65,535. -/
def parties (a : Src) : M Nat := do
  let n ← readN64 2 a
  need (decide (1 ≤ n) && decide (n ≤ 65535)) 2 n
  pure n

/-- D is full before a token instruction sends for it (R72). -/
def tokenD (d : Nat) : M Unit := do
  if 64 ≤ d then raise .operand 1 d else pure ()
  let x ← me
  waitFor (x.full d)

def execSynew (h : Head) (kind : SyKind) (pst : Nat) (d : Nat) (a : Src) (s : State) : Out :=
  issue h (do
    let n ← readN64 2 a
    need (match kind with
      | .ph => decide (n ≤ 65535) | .join => decide (n < 2 ^ 32) | .tq => decide (1 ≤ n) && decide (n ≤ 256)) 2 n
    afterLda
    bankQuiet
    let g ← look State.cur
    let used ← look (fun s => (s.slot g.core d).isSome)
    if used then raise .syncstate 0 d else pure ()
    let x ← me
    let l : Slot := { kind := kind, lid := x.lid, vdev := x.vdev }
    let make (l : Slot) : M Unit := do
      change (fun s => s.setSlot g.core d l)
      writeP pst true
    match kind with
    | .ph => make { l with nreg := n }
    | .join => make { l with jcount := n }
    | .tq => do
      let room ← look (fun s => decide (s.myCore.tokens + n ≤ 1024))
      if room then make { l with cap := n, places := List.replicate n .free, freeL := upto n } else writeP pst false) s

def execSyfree (h : Head) (d : Nat) (s : State) : Out :=
  issue h (do
    afterLda
    bankQuiet
    let g ← look State.cur
    let l ← look (fun s => s.slot g.core d)
    match l with
    | none => raise .syncstate 0 d
    | some l =>
      if !l.waiters.isEmpty || !l.held.isEmpty || (l.kind == .ph && !l.members.isEmpty) ||
          (l.kind == .tq && l.places.any (fun p => p != .free)) then raise .syncstate 0 d
      else change (fun s => (s.freeSlot g.core d).2)) s

def execPhreg (h : Head) (d : Nat) (a : Src) (b : Option Src) (s : State) : Out :=
  slotInstr h d b false (do let n ← parties a; pure (.phreg n)) s

def execPhdrop (h : Head) (d : Nat) (a : Src) (b : Option Src) (s : State) : Out :=
  slotInstr h d b false (do let n ← parties a; pure (.phdrop n)) s

def execPhsig (h : Head) (d : Nat) (b : Option Src) (s : State) : Out :=
  slotInstr h d b true (pure .phsig) s

/-- PHWAIT: a phase, .mem, or the wait of a join slot (R329). -/
def execPhwait (h : Head) (mem : Bool) (d : Nat) (a b : Option Src) (s : State) : Out :=
  slotInstr h d b false (do
    match mem, a with
    | true, _ => pure .phwaitMem
    | false, some a => do
      let v ← readN64 2 a
      pure (.phwait (BitVec.ofNat 64 v))
    | false, none => pure .phwaitJoin) s

def execPhnext (h : Head) (d : Nat) (b : Option Src) (s : State) : Out :=
  slotInstr h d b true (pure .phnext) s

def execTqacq (h : Head) (slot : Nat) (d : Nat) (b : Option Src) (s : State) : Out :=
  slotInstr h slot b false (do tokenD d; pure (.tqacq d)) s

def execTqpost (h : Head) (d : Nat) (a : Src) (b : Option Src) (s : State) : Out :=
  slotInstr h d b true (do let p ← readN64 2 a; pure (.tqpost (BitVec.ofNat 64 p))) s

def execTqtake (h : Head) (slot : Nat) (d : Nat) (b : Option Src) (s : State) : Out :=
  slotInstr h slot b false (do tokenD d; pure (.tqtake d)) s

def execTqrel (h : Head) (d : Nat) (a : Src) (b : Option Src) (s : State) : Out :=
  slotInstr h d b true (do let p ← readN64 2 a; pure (.tqrel (BitVec.ofNat 64 p))) s

def execJoin (h : Head) (d : Nat) (b : Option Src) (s : State) : Out :=
  slotInstr h d b false (pure .join) s

def execLeave (h : Head) (d : Nat) (b : Option Src) (s : State) : Out :=
  slotInstr h d b false (pure .leave) s

/-- Something that an earlier packet of the same core to the same core holds back (R16). -/
def State.packetBehind (s : State) (src dest n : Nat) : Bool :=
  s.flight.any (fun a => decide (a.num < n) && a.core == src && a.pieces.any (fun p => p.sent && p.home == .bank dest)) ||
  s.msgs.any (fun m => decide (m.num < n) && m.src == src && m.dest == dest && !m.ref) ||
  s.slotReqs.any (fun r => decide (r.num < n) && r.core == src && r.dest == dest)

/-- A trap of an instruction that another unit performs: it is raised on its strand; a strand that a handler holds tries
its instruction again after ERET, a saved one when it is restored. -/
def State.lateTrap (s : State) (a : Agent) (t : Trap) : State :=
  let x := s.seat a.core a.seat
  let again (i : SavedImage) : SavedImage :=
    if i.core = a.core ∧ i.id = a.seat then
      match a.strn with
      | .main => { i with main := .none } | .matrix => { i with mat := .none } | .copy => { i with cpy := .none }
    else i
  if 4 ≤ a.seat then { s with vdevs := mapVals (fun _ (v : VDev) => { v with saved := v.saved.map again }) s.vdevs }
  else
    -- a member of a gang has not executed the instruction (R26)
    let s := if a.strn = .main ∧ !a.hnd then s.modCore a.core (fun y =>
      { y with gang := y.gang.map (fun g => if g.seat = a.seat then { g with gdone := false } else g) }) else s
    match x.held with
    | some h =>
      if a.hnd then (s.setBlk a .none).takeTrap a t false
      else if a.strn = .main then s.modSeat a.core a.seat (fun x => { x with held := some { h with mblk := .none } })
      else s.setBlk a .none
    | none =>
      let s1 := s.setBlk a .none
      -- the main strand's tile instruction comes to its end first (R202)
      if (s.core a.core).tiling a.seat then s1.modSeat a.core a.seat (fun x => { x with reports := x.reports ++ [(a.strn, t)] })
      else s1.takeTrap a t false

/-- A slot instruction is at its unit from now on. -/
def State.atSlot (s : State) (a : Agent) (c y : Nat) : State :=
  match (s.seat a.core a.seat).held with
  | some h =>
    if a.strn = .main ∧ !a.hnd then s.modSeat a.core a.seat (fun x => { x with held := some { h with mblk := .slot c y } })
    else s.setBlk a (.slot c y)
  | none => s.setBlk a (.slot c y)

/-- REMOTE_SYNC_ARRIVAL: slot instruction n arrives at its core, is performed and answers (R327). A core that is no longer
mapped performs none (log 121). -/
def execRemoteSyncArrival (n : Nat) (s : State) : Out :=
  match s.slotReqs.find? (fun r => r.num == n) with
  | none => .next s
  | some r =>
    if !s.mapped r.dest || s.packetBehind r.core r.dest n || (s.vd (s.seat r.core r.seat).vdev).cores.any (fun (c, _) => c == r.dest) then .next s
    else
      let a : Agent := ⟨r.core, r.seat, r.strn, r.hnd⟩
      let s1 := { s with slotReqs := s.slotReqs.filter (fun q => q.num != n) }
      match (s1.atSlot a r.dest r.y).slotDo a r.dest r.y r.op with
      | .ok s2 => .next s2
      | .error e => .next (s1.lateTrap a { cause := .syncstate, val := BitVec.ofNat 64 e })

/-- A slot is freed while strands wait at it: each takes SYNCSTATE (R328). -/
def State.freeSlotNow (s : State) (c y : Nat) : State :=
  let (ws, s1) := s.freeSlot c y
  ws.foldl (fun s a => s.lateTrap a { cause := .syncstate, val := BitVec.ofNat 64 y }) s1

/-! ### Supersteps -/

/-- SSTEP arrives as a release and waits for the step's end (R331). -/
def execSstep (h : Head) (s : State) : Out :=
  leave h (do
    release
    let g ← look State.cur
    let l ← myLaunch
    match l with
    | none => change (fun s => s.advance h)
    | some _ => change (fun s => (s.hints h).setBlk g .sstep)) s

/-- The seat belongs to the launch: its thread does, or the launch holds the seat (R36). -/
def Seat.isOf (x : Seat) (l : Launch) : Bool :=
  x.vdev == l.vdev && ((x.occ == .thread && x.lid == l.lid) || (match x.home with | some h => h.lid == l.lid | none => false))

/-- Seats that a launch holds, by core. -/
def State.seatsOf (s : State) (l : Launch) : List (Nat × Nat) :=
  s.cores.flatMap (fun (c, x) => ((upto 4).filter (fun k => (x.seat k).isOf l)).map (fun k => (c, k)))

/-- The seat's main strand waits at SSTEP, itself or held by a handler. -/
def Seat.atStep (x : Seat) : Bool :=
  match x.held with
  | some h => h.mblk == .sstep
  | none => x.main.blk == .sstep

/-- The thread on a seat that waits at SSTEP, in its image where it is saved. -/
def State.stepper (s : State) (vd c k : Nat) : Option Agent :=
  let x := s.seat c k
  match x.occ with
  | .thread => if x.atStep && x.seq == .none then some { core := c, seat := k } else none
  | .saved =>
    ((s.vd vd).saved.find? (fun i => i.core == c && i.seat == k && i.main == .sstep)).map (fun i => { core := c, seat := i.id })
  | _ => none

/-- Every seat of the launch has arrived; an idle seat counts as arrived (R32). -/
def State.allArrived (s : State) (l : Launch) : Bool :=
  l.starts.isEmpty && (s.seatsOf l).all (fun (c, k) => (s.seat c k).occ == .idle || (s.stepper l.vdev c k).isSome) &&
    (s.seatsOf l).any (fun (c, k) => (s.stepper l.vdev c k).isSome)

/-- One part of a core's transfers (R151): the entry count is read; an entry that is not its own is passed over; one that is
begins, with its table entries as they stand then and its scoreboard entries taken (R96, R98, R145); of one that has begun a row
group runs. None when the core has run every entry. -/
def xferPart (l : Launch) (c k : Nat) (x : XferSt) : M (Option XferSt) := do
  let w : Who := { vdev := l.vdev, dom := l.base, win := none }
  match x.count, x.op with
  | none, _ => do
    let hd ← unitRead (some c) w l.rcd.xfertab 16
    pure (some { x with count := some (leNat (hd.take 4)) })
  | some n, none =>
    if n ≤ x.entry then pure none
    else do
      let e ← unitRead (some c) w (l.rcd.xfertab + 16 + 64 * x.entry) 64
      let e := Xfer.ofBytes e
      if e.step ≠ l.step ∨ e.rank ≠ x.rank then pure (some { x with entry := x.entry + 1 })
      else do
        need e.ok 0 x.entry
        let t1 ← readTensor e.srcz
        let t2 ← readTensor e.dstz
        need (e.fmtOk t1.fm t2.fm) 0 x.entry
        let o := e.copyOp c k .main t1 t2 { vdev := l.vdev, dom := l.base, win := none }
        let room ← look (fun s => decide ((s.core c).boardUse + o.ranges.length ≤ 32))
        waitFor room
        let num ← look State.accNum
        change (fun s => s.modCore c (fun y => { y with sboard := y.sboard ++ [(l.lid, o.ranges)] }))
        pure (some { x with op := some { o with before := num }, group := 0 })
  | some _, some o => do
    let r ← look (fun s => { o with group := x.group }.runGroup c s)
    match r with
    | .error (some t, _) => throw (.trapAt t)
    | .error (none, s1) => do change (fun _ => s1); throw .waitAt
    | .ok (s1, code) => do
      change (fun _ => s1)
      if code ≠ 0 ∨ o.groups ≤ x.group + 1 then do
        change (fun s => s.modCore c (fun y =>
          let t := y.ctx o.seat
          let y1 := if code = 0 then y else y.setCtx o.seat { t with eng := { t.eng with errlast := errWord code 0 } }
          y1.endXfer l.lid))
        pure (some { x with entry := x.entry + 1, group := 0, op := none })
      else pure (some { x with group := x.group + 1 })

/-- The seat whose copy context runs a core's transfers: the lowest-numbered one that the launch holds there (R32). -/
def State.xferSeat (s : State) (l : Launch) (c : Nat) : Nat :=
  (((s.seatsOf l).filter (fun (d, _) => d == c)).map (fun (_, k) => k)).headD 0

/-- The seat on whose SSTEP a fault of a core's transfers is delivered: the one whose copy context ran the entry (R151), or,
where that seat is idle, the first of the core whose thread waits (log 100). None while that thread is in its image. -/
def State.faultSeat (s : State) (l : Launch) (c : Nat) : Option Nat :=
  let waits (k : Nat) : Bool := (s.seat c k).occ == .thread && (s.seat c k).atStep
  let k := s.xferSeat l c
  if l.arrived.contains (c, k) then (if waits k then some k else none)
  else (upto 4).find? (fun k => l.arrived.contains (c, k) && waits k)

/-- The core's transfers do not stand still for a fault: the seat that took it waits at SSTEP again (R151), or its thread
has been retired. -/
def State.xferGoes (s : State) (l : Launch) (x : XferSt) : Bool :=
  let c := s.coreOfRank l.vdev l.rcd x.rank
  match x.stop with
  | none => true
  | some k => !l.arrived.contains (c, k) || (s.seat c k).atStep

/-- One part of one core's transfers in a step; a fault stops that core's transfers and is raised on SSTEP (R151). -/
def State.xferStep (s : State) (l : Launch) (xs : List XferSt) (x : XferSt) : State :=
  let c := s.coreOfRank l.vdev l.rcd x.rank
  let put (s : State) (y : Option XferSt) : State :=
    s.setLaunch { l with sst := some (match y with
      | some y => xs.map (fun z => if z.rank = x.rank then y else z)
      | none => xs.filter (fun z => z.rank != x.rank)) }
  let trap (tr : Trap) : State :=
    match s.faultSeat l c with
    | some k =>
      (put s (some { x with stop := some k })).lateTrap
        { core := c, seat := k } { cause := tr.cause, opnd := tr.opnd, val := BitVec.ofNat 64 x.entry }
    | none => s
  if (s.vd l.vdev).cores.any (fun (n, _) => n == c) then s
  else match xferPart l c (s.xferSeat l c) { x with stop := none } { s with cur := { core := c, seat := s.xferSeat l c } } with
  | .ok y t => put { t with cur := s.cur } y
  | .error (.trap tr) _ => trap tr
  | .error (.trapAt tr) _ => trap tr
  | .error .waitAt t => { t with cur := s.cur }
  | .error _ _ => s

/-- The transfers of a superstep at its last arrival: every core of the set starts at its first entry (R32, R151). -/
def xferStart (l : Launch) : List XferSt :=
  if l.rcd.xfertab = 0 then [] else
    (upto (l.rcd.setw * l.rcd.seth)).map (fun r => { rank := r, entry := 0, group := 0, stop := none : XferSt })

/-- The seats that wait when the last one arrives (R32). -/
def State.arrivals (s : State) (l : Launch) : List (Nat × Nat) :=
  (s.seatsOf l).filter (fun (c, k) => (s.stepper l.vdev c k).isSome)

/-- The step number advances and the threads that waited resume (R32). -/
def State.stepOver (s : State) (l : Launch) : State :=
  l.arrived.foldl (fun s (c, k) => match s.stepper l.vdev c k with | some a => s.finish a none none | none => s)
    (s.setLaunch { l with step := (l.step + 1) % 2 ^ 32, sst := none, arrived := [] })

/-- SUPERSTEP_RELEASE: the last arrival of a step is noted, then a part of one core's transfers runs, and when all have
retired the step is over (R32). -/
def execSuperstepRelease (lid : Nat) (s : State) : Out :=
  match s.launches.find? (fun l => l.lid == lid && l.started) with
  | none => .next s
  | some l =>
    match l.sst with
    | none =>
      if s.allArrived l then .next (s.setLaunch { l with sst := some (xferStart l), arrived := s.arrivals l }) else .next s
    | some [] => .next (s.stepOver l)
    | some xs =>
      match xs.filter (fun x => s.xferGoes l x) with
      | [] => .next s
      | x0 :: ys =>
        let x := ((x0 :: ys)[Config.nextRank s.fresh % (ys.length + 1)]?).getD x0
        .next ({ s with fresh := s.fresh + 1 }.xferStep l xs x)

end Sys2Proof.Machine
end

