-- ==== Sys2Proof/Machine/Tasks.lean ====
section
/-! DEFINITION. Family 0xC: tasks, strands, device launches, messages (R332 to R339), the search of an idle seat (R21), the
return slot (R210), and the arrival of messages (R127, R128). -/
namespace Sys2Proof.Machine

/-! ### FORK, RFORK -/

/-- The entry index of a task, checked against the launch (R332). -/
def taskEntry (a : Src) : M (Launch × Nat) := do
  let x ← me
  need (x.depth == 0) 0 x.dspWord
  let e ← readN64 2 a
  let l ← myLaunch
  match l with
  | none => raise .operand 2 e
  | some l => do
    need (decide (e < 65536) && decide (e < l.rcd.segbound)) 2 e
    pure (l, e)

/-- Push a record as a release (R31, R210, R332). -/
def pushTask (t : Task) : M Unit := do
  release
  let x ← look State.myCore
  if 64 ≤ x.dqCount then raise .dequefull 0 (x.dqt * 256 + x.dqh) else pure ()
  waitFor x.retSlot.isNone
  change (fun s => s.modMyCore (fun x => x.dqPush t.word))

def execFork (h : Head) (a b : Src) (s : State) : Out :=
  issue h (do
    noHandler
    let (l, e) ← taskEntry a
    let ws ← readRow 3 3 b
    let w (i : Nat) : Nat := ((ws[i]?).getD 0).toNat
    pushTask { lid := l.lid, entry := e, kind := 1, a0 := w 0, a1 := w 1, g := w 2 % 2 ^ 32, arg := w 2 / 2 ^ 32 }) s

def execRfork (h : Head) (a b : Src) (s : State) : Out :=
  issue h (do
    noHandler
    let (l, e) ← taskEntry a
    let ws ← readRow 3 4 b
    let w (i : Nat) : Nat := ((ws[i]?).getD 0).toNat
    need (decide (w 2 < 2 ^ 32) && w 2 != 0) 3 (w 2)
    if w 1 ≤ w 0 then pure ()
    else pushTask { lid := l.lid, entry := e, kind := 2, a0 := w 0, a1 := w 1, g := w 2, arg := w 3 % 2 ^ 32 }) s

/-! ### TASK and the idle seat -/

/-- The plain form of TASK: a found record ends the thread, which is followed at once by the record's (R333). -/
def execTask (h : Head) (d : Nat) (s : State) : Out :=
  leave h (do
    noHandler
    mayEnd
    let g ← look State.cur
    let l ← myLaunch
    let f ← match l with
      | none => pure none
      | some l => search g.core l
    match l, f with
    | some l, some f => do
      meet false
      change (fun s =>
        let s1 := (s.hints h).endThread g.core g.seat
        s1.startThread g.core g.seat (s1.taskStart g.core g.seat l f))
    | _, _ => do
      writeP d false
      change (fun s => s.advance h)) s

/-- The event form of TASK (R139, R140, R333). -/
def execTaskEv (h : Head) (pst : Nat) (d : Nat) (s : State) : Out :=
  issue h (do
    noHandler
    need (decide (d ≤ 60)) 1 d
    let x ← me
    if x.who.dom ≠ 0 then raise .privilege 0 0 else pure ()
    let v ← look (fun s => s.vd x.vdev)
    let q ← look (fun s => s.quota x.vdev)
    if v.evput ≤ v.evget then writeP pst false
    else do
      let b ← seatRead (root x.vdev) (q.evbase + 32 * (v.evget % q.evcap)) 32
      writeScals d ((upto 4).map (fun i => BitVec.ofNat 64 (numAt b (8 * i) 8)))
      change (fun s => (s.modVd x.vdev (fun v => { v with evget := v.evget + 1 })).flushEvents 257 x.vdev)
      writeP pst true) s

/-- A time-sliced virtual device runs in its turn of the pool (R392). -/
def State.inTurn (s : State) (vd : Nat) : Bool := (s.quota vd).fixed || s.modl.turn == some vd

/-- IDLE_SEAT_SEARCH: an idle seat of a running launch searches; what it finds becomes its thread (R21, R28). -/
def execIdleSeatSearch (c k : Nat) (s : State) : Out :=
  let x := s.core c
  let t := x.seat k
  if 4 ≤ k ∨ t.occ ≠ .idle ∨ x.halted ∨ x.pre.isSome ∨ x.retiring ∨ !s.inTurn t.vdev then .next s
  else match s.launch t.vdev t.lid with
    | none => .next s
    | some l =>
      match search c l { s with cur := { core := c, seat := k } } with
      | .ok (some f) s1 => .next ({ s1 with cur := s.cur }.startThread c k (s1.taskStart c k l f))
      | .ok none s1 => .next { s1 with cur := s.cur }
      | .error .waitAt s1 => .next { s1 with cur := s.cur }
      | .error _ _ => .next s

/-- RETURN_SLOT_ENTRY: the record in the return slot enters the head once a slot is free (R210). -/
def execReturnSlotEntry (c : Nat) (s : State) : Out :=
  let x := s.core c
  match x.retSlot with
  | some w => if x.dqCount < 64 then .next (s.setCore c { x.dqPush w with retSlot := none }) else .next s
  | none => .next s

def execTdone (h : Head) (d : Nat) (b : Option Src) (s : State) : Out :=
  slotInstr h d b true (do noHandler; pure .tdone) s

/-! ### EFORK, RDV -/

/-- EFORK starts an engine strand or is refused (R22, R335); it is a release towards the strand (R370). -/
def execEfork (h : Head) (copy : Bool) (pst : Nat) (a : Src) (s : State) : Out :=
  issue h (do
    noHandler
    let e ← readN64 2 a
    let x ← me
    need (decide (e < x.segb)) 2 e
    let g ← look State.cur
    let y ← look State.myCore
    let busy := if copy then x.cpy.live else x.mat.live || (match y.mat.holder with | some k => k != g.seat | none => false)
    if busy then writeP pst false
    else do
      release
      let t : Strand := { live := true, pc := ⟨x.main.pc.seg, e⟩ }
      change (fun s =>
        let s1 := if !copy && y.mat.holder.isNone then s.modMyCore (fun x =>
          ({ x with mat := { x.mat with holder := some g.seat, eng := {} } }.setTl 4 {})) else s
        s1.modMe (fun x => if copy then { x with cpy := t } else { x with mat := t }))
      writeP pst true) s

def execRdv (h : Head) (s : State) : Out :=
  issue h (do
    noHandler
    meet false) s

/-! ### LAUNCH -/

/-- LAUNCH submits a record of the issuer's domain (R136, R337). -/
def execLaunch (h : Head) (d : Option Nat) (a b : Src) (s : State) : Out :=
  issue h (do
    noHandler
    let va ← readN64 2 a
    let q ← readN64 3 b
    let x ← me
    need (va % 64 == 0) 2 va
    let nq ← look (fun s => (s.quota x.vdev).nqueue)
    need (decide (q < nq)) 3 q
    release
    let g ← look State.cur
    let bs ← unitRead (some g.core) x.who va 128
    let n ← look (fun s => ((s.myCore.tl 5).iss + 1) % 2 ^ 56)
    change (fun s => s.modMyCore (fun x => x.setTl 5 { x.tl 5 with iss := n }))
    match d with
    | some d => writeScal d (BitVec.ofNat 64 n)
    | none => pure ()
    let _ ← submit { lid := 0, vdev := x.vdev, queue := q, base := x.who.dom, rcd := LRec.ofBytes bs, addr := va
                     child := some (g.core, n) }
    change (fun s => s.syncChild g.core)) s

/-! ### Messages -/

/-- Messages that the network interface of a core holds (R128). -/
def State.outgoing (s : State) (c : Nat) : Nat := (s.msgs.filter (fun m => m.src == c)).length

/-- SEND builds an inbox entry and sends it (R126, R338). -/
def execSend (h : Head) (len : Nat) (xl : Bool) (a b : Src) (s : State) : Out :=
  issue h (do
    noHandler
    need (decide (1 ≤ len) && decide (len ≤ 64)) 0 len
    let (n, fe) ← scalNum 2 a
    need (n % 2 == 0) 2 n
    let w ← readScal 2 n fe
    let x ← me
    let lid ← if xl then (do let v ← readScal 2 (n + 1) fe; pure (v.toNat % 2 ^ 32)) else pure x.lid
    let ws ← readRow 3 ((len + 7) / 8) b
    let w := w.toNat
    need (bitsAt w 48 16 == 0) 2 w
    let dest := bitsAt w 0 14
    let mapped ← look (fun s => s.mapped dest)
    if !mapped then raise .address 2 dest else pure ()
    let held ← look (fun s => s.holdsCore x.vdev dest)
    need held 2 dest
    afterLda
    let g ← look State.cur
    let room ← look (fun s => decide (s.outgoing g.core < 8))
    waitFor room
    let data := (ws.flatMap (fun v => leBytes v.toNat 8)).take len
    let m : Msg := { lid := lid, src := g.seat * 2 ^ 14 + g.core, dseat := bitsAt w 14 2, len := len
                     tag := BitVec.ofNat 32 (bitsAt w 16 32), data := data ++ zeros (64 - len) }
    change (fun s =>
      let f : Flying := { num := s.accNum, src := g.core, seat := g.seat, dest := dest, vdev := x.vdev, ref := false, msg := m }
      { s with accNum := s.accNum + 1, msgs := s.msgs ++ [f] })) s

/-- The entry is for the thread on a seat (R127). -/
def Msg.isFor (m : Msg) (k lid : Nat) : Bool := m.dseat == k && m.lid == lid

/-- RECV takes the oldest entry for the thread (R127, R339). -/
def execRecv (h : Head) (d : Nat) (s : State) : Out :=
  issue h (do
    noHandler
    need (decide (d ≤ 55)) 1 d
    afterLda
    bankQuiet
    let g ← look State.cur
    let x ← me
    let m ← look (fun s => s.myCore.inbox.find? (fun m => m.isFor g.seat x.lid))
    match m with
    | none => throw .wait
    | some m => do
      change (fun s => s.modMyCore (fun y => { y with inbox := y.inbox.erase m }))
      writeScals d (BitVec.ofNat 64 (m.src + m.len * 2 ^ 16 + m.tag.toNat * 2 ^ 32) ::
        (upto 8).map (fun i => BitVec.ofNat 64 (numAt m.data (8 * i) 8)))) s

/-- A live launch of a virtual device (R127). -/
def State.liveLid (s : State) (vd lid : Nat) : Bool := (s.launch vd lid).isSome

/-- Store, refuse or discard an arriving message (R127, R128). -/
def State.deliverMsg (s : State) (m : Flying) : State :=
  let gone := { s with msgs := s.msgs.filter (fun f => f.num != m.num) }
  if !s.liveLid m.vdev m.msg.lid then gone.modCore m.dest (fun x => x.discard 1)
  else if 64 ≤ (s.core m.dest).inbox.length then
    { s with msgs := s.msgs.map (fun f => if f.num = m.num then { f with ref := true } else f) }
  else gone.modCore m.dest (fun x => { x with inbox := x.inbox ++ [m.msg] })

/-- A thread of the core stands in its image, or is on its way there (R209). -/
def State.savedAt (s : State) (vd c : Nat) : Bool :=
  (s.vd vd).saved.any (fun i => i.core == c) || (upto 4).any (fun k => (s.seat c k).seq != .none)

/-- A message's turn has come: its core is mapped, and no earlier packet to it, and no refused message, is ahead (R16, R128; log
121). -/
def State.msgDue (s : State) (m : Flying) : Bool :=
  !m.ref && s.mapped m.dest && !s.packetBehind m.src m.dest m.num && !(s.vd m.vdev).cores.any (fun (c, _) => c == m.dest) &&
    !s.msgs.any (fun f => f.ref && decide (f.num < m.num) && f.src == m.src && f.dest == m.dest)

/-- MESSAGE_ARRIVAL: message n arrives at its core; while a thread of the core is saved only the sequencer completes messages
(R127, R128, R204, R209). -/
def execMessageArrival (n : Nat) (s : State) : Out :=
  match s.msgs.find? (fun m => m.num == n) with
  | none => .next s
  | some m => if s.msgDue m && !s.savedAt m.vdev m.dest then .next (s.deliverMsg m) else .next s

/-- MESSAGE_RETRY: the interface sends a refused message again (R128). -/
def execMessageRetry (n : Nat) (s : State) : Out :=
  .next { s with msgs := s.msgs.map (fun f => if f.num = n then { f with ref := false } else f) }

end Sys2Proof.Machine
end

