-- ==== Sys2Proof/Machine/Gates.lean ====
section
/-! DEFINITION. Family 0xD: gates (R152 to R155, R174 to R178, R341 to R347), revocation (R179, R183, R348), and the
unwinding of a thread (R180, R181). -/
namespace Sys2Proof.Machine

/-! ### Shared checks -/

/-- Family 0xD is refused in the handler and in a gang (R203, R341). -/
def gateInstr : M Unit := do
  noHandler
  let x ← me
  need (!x.gang && !x.lead) 0 0

/-- No producer targets a view or scalar of the seat (R88). -/
def Seat.allFull (x : Seat) : Bool := x.scalFe.toList.all (fun b => b) && x.views.toList.all (fun v => v.fe)

/-- The meeting of a crossing, and its wait for producers (R176, R177). -/
def crossing : M Unit := do
  meet true
  let x ← me
  waitFor x.allFull

/-- Bytes of the issuing core's local memory, read by the seat (R94, R97), after its earlier accesses there and behind an
LDA that is open (R317, R321). -/
def localImage (opnd off n : Nat) : M (List Byte) := do
  need (off % n == 0 && decide (off < 262144)) opnd off
  let g ← look State.cur
  let x ← me
  let ok ← look (fun s => localOk s g.core off n x.who .r false)
  if !ok then throw (.trap (addrTrap .localperm (coreVa g.core off))) else pure ()
  afterLda
  bankQuiet
  let held ← look (fun s => s.myCore.heldRange off n none)
  waitFor (!held)
  let bad ← look (fun s => s.locBad g.core off n)
  match bad with
  | some i => throw (.trap (addrTrap .poison (off + i)))
  | none => look (fun s => s.locRead g.core off n)

/-! ### Gate table -/

/-- GEN of a gate entry (R152). -/
def State.gateGen (s : State) (vd i : Nat) : Nat := bitsAt (s.gateNum vd i 0 2) 0 12
/-- A handle is valid (R154). -/
def State.handleOk (s : State) (vd h : Nat) : Bool :=
  let i := bitsAt h 0 20
  decide (h < 2 ^ 32) && decide (i < (s.quota vd).gcap) && s.posted vd i && s.gateGen vd i == bitsAt h 20 12

/-- Offset of the first field of a gate image that GPOST refuses (R342). -/
def gateBreach (b : List Byte) (dcap : Nat) : Option Nat :=
  let bnd := numAt b 6 2
  let ncall := numAt b 0x16 1
  let checks : List (Bool × Nat) :=
    [(decide (numAt b 4 2 < 2 ^ 13), 4), (bnd != 0, 6), (decide (numAt b 8 4 < bnd), 8), (decide (numAt b 0xC 4 < bnd), 0xC),
     (decide (numAt b 0x10 4 ≤ 1048576), 0x10), (bitsAt (numAt b 0x14 1) 2 5 == 0, 0x14),
     (decide (1 ≤ numAt b 0x15 1) && decide (numAt b 0x15 1 ≤ 64), 0x15), (decide (ncall ≤ 8), 0x16),
     (numAt b 0x17 1 == 0, 0x17), (numAt b 0x1C 4 == 0, 0x1C)] ++
    (upto 8).map (fun i => let c := numAt b (0x20 + 2 * i) 2; (if i < ncall then decide (c < dcap) else c == 0, 0x20 + 2 * i)) ++
    [(numAt b 0x30 16 == 0, 0x30)]
  (checks.find? (fun c => !c.1)).map (fun c => c.2)

/-- GPOST (R153, R342). -/
def execGpost (h : Head) (d : Nat) (a : Src) (s : State) : Out :=
  issue h (do
    gateInstr
    let off ← readN64 2 a
    let x ← me
    let b ← localImage 2 off 64
    let q ← look (fun s => s.quota x.vdev)
    match gateBreach b q.dcap with
    | some e => raise .operand 2 e
    | none => pure ()
    release
    let i ← look (fun s => (upto q.gcap).find? (fun i => bitsAt (s.gateNum x.vdev i 0 2) 12 2 == 0))
    match i with
    | none => writeScal d 0
    | some i => do
      let gen ← look (fun s => s.gateGen x.vdev i)
      let e := leBytes (gen + 2 ^ 12) 2 ++ leBytes x.curdom 2 ++ (b.drop 4).take 0x14 ++ leBytes 8192 4 ++ b.drop 0x1C
      let sn ← look (fun s => s.devSnooped 0 (s.gateAddr x.vdev i) 64)
      waitFor (!sn)
      change (fun s => s.devWrite 0 (s.gateAddr x.vdev i) e)
      writeScal d (BitVec.ofNat 64 (gen * 2 ^ 20 + i))) s

/-- GRETRACT (R154, R343). -/
def execGretract (h : Head) (pst : Nat) (a : Src) (s : State) : Out :=
  issue h (do
    gateInstr
    let v ← readN64 2 a
    let x ← me
    let ok ← look (fun s => s.handleOk x.vdev v)
    if !ok then writeP pst false
    else do
      let i := bitsAt v 0 20
      let owner ← look (fun s => s.gateNum x.vdev i 2 2)
      if x.curdom ≠ owner ∧ x.curdom ≠ 0 then raise .privilege 0 0 else pure ()
      release
      let sn ← look (fun s => s.devSnooped 0 (s.gateAddr x.vdev i) 2)
      waitFor (!sn)
      change (fun s => s.retract x.vdev i)
      writeP pst true) s

/-- GWIN (R174, R344). -/
def execGwin (h : Head) (wr ww : Bool) (d : Nat) (a b : Src) (s : State) : Out :=
  issue h (do
    gateInstr
    evenD d
    let base ← readN64 2 a
    let size ← readN64 3 b
    need (decide (base < 2 ^ 57)) 2 base
    need (decide (size ≤ 1048576)) 3 size
    let x ← me
    let w : Window := { base := base, size := size, wr := wr, ww := ww, dom := x.curdom }
    writeScals d [BitVec.ofNat 64 w.words.1, BitVec.ofNat 64 w.words.2]) s

/-! ### Crossings -/

/-- The window that a descriptor names; none where it is refused (R174, R345). -/
def resolveWindow (x : Seat) (d : Nat × Nat) : Option Window :=
  let w := Window.ofWords d.1 d.2
  if d.1 / 2 ^ 59 ≠ 0 ∨ d.2 / 2 ^ 48 ≠ 0 ∨ bitsAt d.2 21 11 ≠ 0 then none
  else if w.size = 0 then some {}
  else if 0x7F0000000000 ≤ w.base ∧ w.base < 0x7F0000100000 then
    let cur : Window := match x.frames with | f :: _ => f.win | [] => {}
    let off := w.base - 0x7F0000000000
    if cur.size = 0 ∨ cur.size < off + w.size then none
    else if (w.wr && !cur.wr) || (w.ww && !cur.ww) then none
    else some { base := cur.base + off, size := w.size, wr := w.wr, ww := w.ww, dom := cur.dom }
  else if (regionSpan w.base w.size).isSome then some { w with dom := x.curdom }
  else none

/-- A gate entry as GCALL reads it (R152, R155). -/
structure Gate where
  owner  : Nat
  cseg   : Nat
  segbnd : Nat
  entry  : Nat
  clean  : Nat
  winmax : Nat
  r      : Bool
  w      : Bool
  any    : Bool
  depth  : Nat
  bud    : Nat
  calls  : List Nat
  deriving Repr

/-- Read a gate entry, whole (R145, R155). -/
def State.gate (s : State) (vd i : Nat) : Gate :=
  let b := (s.devRead 0 (s.gateAddr vd i) 64).getD []
  let rt := numAt b 0x14 1
  { owner := numAt b 2 2, cseg := bitsAt (numAt b 4 2) 0 13, segbnd := numAt b 6 2, entry := numAt b 8 4
    clean := numAt b 0xC 4, winmax := numAt b 0x10 4, r := bitAt rt 0, w := bitAt rt 1, any := bitAt rt 7
    depth := numAt b 0x15 1, bud := numAt b 0x18 4
    calls := (upto (min 8 (numAt b 0x16 1))).map (fun i => numAt b (0x20 + 2 * i) 2) }

/-- GSTAT (R82). -/
def gstatOf (code reason : Nat) : BitVec 16 := BitVec.ofNat 16 (reason * 256 + code)

/-- What GCALL refuses with, or the gate, the resolved window and the new frame's ceiling (R176 steps 3 to 6). -/
def State.callCheck (s : State) (x : Seat) (hd : Nat) (d : Option (Nat × Nat)) : Except Nat (Gate × Window × Nat) :=
  if !s.handleOk x.vdev hd then .error 1
  else
    let g := s.gate x.vdev (bitsAt hd 0 20)
    if !g.any && !g.calls.contains x.curdom then .error 2
    else match (match d with | some d => resolveWindow x d | none => some {}) with
      | none => .error 3
      | some w =>
        if g.winmax < w.size ∨ (w.wr && !g.r) ∨ (w.ww && !g.w) then .error 3
        else if x.limit < x.depth + 1 ∨ 64 < x.depth + 1 then .error 4
        else
          let cur := match x.frames with | f :: _ => f.ceil | [] => 64
          if cur < x.depth + 1 then .error 5 else .ok (g, w, min cur (x.depth + g.depth))

/-- A view of t0 to t3 that the new window covers is kept (R176 step 8). -/
def keepView (c : Nat) (w : Window) (v : View) : View :=
  if v.defd && w.size != 0 && inWindow w c v.base v.extent then { v with prog := 0 } else {}

/-- The registers after the switch of GCALL (R176 step 8). -/
def Seat.switched (x : Seat) (c : Nat) (g : Gate) (w : Window) : Seat :=
  { x with
    scal := Vector.ofFn (fun i => if i.val < 8 then x.reg i.val else 0)
    views := Vector.ofFn (fun i => if i.val < 4 then keepView c w (x.view i.val) else {})
    pred := 1, curdom := g.owner, segb := g.segbnd, main := { x.main with pc := ⟨g.cseg, g.entry⟩, fbuf := [] }
    gstat := 0 }

/-- GCALL (R176, R345). -/
def execGcall (h : Head) (a : Src) (b : Option Src) (s : State) : Out :=
  leave h (do
    gateInstr
    let hd ← readN64 2 a
    let d ← match b with
      | none => pure none
      | some b => do
        let (u, v) ← readPair 3 b
        pure (some (u.toNat, v.toNat))
    let x ← me
    need x.unw.isNone 0 x.dspWord
    crossing
    let c ← look (fun s => s.cur.core)
    let r ← look (fun s => s.callCheck x hd d)
    match r with
    | .error code => do
      modMe (fun x => { x with gstat := gstatOf code 0 })
      change (fun s => s.advance h)
    | .ok (g, w, ceil) => do
      let st ← look (fun s => s.myCore.status s.cur.seat)
      pushFrame {
        retpc := x.main.pc.next, handle := BitVec.ofNat 32 hd, caller := x.curdom, callee := g.owner
        cstat := BitVec.ofNat 32 st, csegb := x.segb, gsegb := g.segbnd, clean := g.clean, gcseg := g.cseg
        doom := false, rsn := false, bdoom := false, brsn := false, cln := false, ceil := ceil, bud := g.bud, win := w
        ssave := (upto 56).map (fun i => x.reg (8 + i)), tsave := (upto 60).map (fun i => x.view (4 + i)) }
      change (fun s => (s.modMe (fun x => x.switched c g w)).hints h)) s

/-- The registers after a frame is popped (R177, R180); `qs` are s0 to s3. -/
def Seat.popped (x : Seat) (f : Frame) (qs : List Word) : Seat :=
  let y : Seat := { x with
    scal := Vector.ofFn (fun i => if i.val < 8 then (qs[i.val]?).getD 0 else (f.ssave[i.val - 8]?).getD 0)
    scalFe := Vector.replicate 64 true
    views := Vector.ofFn (fun i => if i.val < 4 then {} else { (f.tsave[i.val - 4]?).getD {} with fe := true })
    curdom := f.caller, segb := f.csegb }
  { y.setFlags f.cstat.toNat with main := { y.main with pc := f.retpc, fbuf := [] } }

/-- GRET (R177). -/
def execGret (h : Head) (s : State) : Out :=
  leave h (do
    gateInstr
    let x ← me
    need (x.unw.isNone && x.depth != 0) 0 x.dspWord
    crossing
    let f ← readFrame x.depth
    dropFrame
    change (fun s => (s.modMe (fun y =>
      { y.popped f [x.reg 0, x.reg 1, x.reg 2, x.reg 3] with gstat := 0 })).hints h)) s

/-- GINFO (R346). -/
def execGinfo (h : Head) (d : Nat) (a : Src) (s : State) : Out :=
  issue h (do
    gateInstr
    evenD d
    let k ← readN64 2 a
    let x ← me
    need (decide (k ≤ x.depth)) 2 k
    if k = 0 ∧ x.depth = 0 then writeScals d [0, 0]
    else do
      let k := if k = 0 then x.depth else k
      let f ← readFrame k
      need (f.caller == x.curdom || f.callee == x.curdom) 2 k
      let u := f.handle.toNat + f.caller * 2 ^ 32 + f.callee * 2 ^ 48
      let v := f.win.size + f.win.wr.toNat * 2 ^ 21 + f.win.ww.toNat * 2 ^ 22 + k * 2 ^ 32 + f.cln.toNat * 2 ^ 39
        + f.doom.toNat * 2 ^ 40
      writeScals d [BitVec.ofNat 64 u, BitVec.ofNat 64 v]) s

/-! ### Unwinding -/

/-- Frame k that carries DOOM, the lowest, from k up (R180). -/
def lowestDoom : Nat → Nat → M (Option (Nat × Frame))
  | 0, _ => pure none
  | n + 1, k => do
    let f ← readFrame k
    if f.doom then pure (some (k, f)) else lowestDoom n (k + 1)

/-- Target (R180); none where no frame is marked. -/
def unwTarget : M (Option Unwind) := do
  let x ← me
  if x.depth = 0 then pure none
  else do
    let f ← readFrame 1
    if f.bdoom then
      pure (some { target := 0, retire := true, rsn := f.brsn, hnd := 0, xdom := 0, run := false })
    else do
      let r ← lowestDoom x.depth 1
      pure (r.map (fun (j, f) => { target := j - 1, retire := false, rsn := f.rsn, hnd := f.handle, xdom := f.callee, run := false }))

/-- Change the innermost frame. -/
def Seat.modTop (x : Seat) (f : Frame → Frame) : Seat :=
  match x.frames with
  | g :: gs => { x with frames := f g :: gs }
  | [] => x

/-- CLEANUP_ENTRY (R180): `u` is the unwinding, frame DEPTH the innermost. -/
def Seat.cleaning (x : Seat) (f : Frame) (bud : Nat) (u : Unwind) : Seat :=
  let y := (x.setReg 0 (f.handle.setWidth 64)).setReg 1 (BitVec.ofNat 64 u.xdom)
  { (y.setReg 2 (BitVec.ofNat 64 x.depth)).modTop (fun f => { f with cln := true, bud := bud }) with
    curdom := f.callee, segb := f.gsegb, main := { x.main with pc := ⟨f.gcseg, f.clean⟩, rep := {}, fbuf := [] }
    gstat := gstatOf 7 (u.rsn.toNat + 1), unw := some { u with run := true } }

/-- The thread at the end of its unwinding, where a caller resumes (R180). -/
def Seat.resumed (x : Seat) (u : Unwind) : Seat :=
  let y := (x.setReg 0 (u.hnd.setWidth 64)).setReg 1 (BitVec.ofNat 64 u.xdom)
  { (y.setReg 2 0).setReg 3 0 with gstat := gstatOf 6 (u.rsn.toNat + 1), unw := none, marked := false }

/-- Engine operations of a seat that have not retired. -/
def Core.opsOf (x : Core) (k : Nat) : Bool :=
  x.ctxs.toList.any (fun t => t.ops.any (fun o => o.seat == k)) || x.mat.ops.any (fun o => o.seat == k)
/-- A restartable fault stops an operation of the seat. -/
def Core.opsStopped (x : Core) (k : Nat) : Bool :=
  x.ctxs.toList.any (fun t => t.eng.stopped && t.ops.any (fun o => o.seat == k)) ||
    (x.mat.eng.stopped && x.mat.ops.any (fun o => o.seat == k))

/-- What follows when a frame has been popped, or the target taken: a cleanup is entered, the frame waits for its pop, or
the unwinding ends (R180). -/
def unwNext : M Unit := do
  let x ← me
  let g ← look State.cur
  match x.unw with
  | none => pure ()
  | some u =>
    if u.target < x.depth then
      match x.frames with
      | [] => pure ()
      | f :: _ =>
        if f.doom then modMe (fun x => { x with unw := some { u with run := false } })
        else if f.cln then modMe (fun x => { x with unw := some { u with run := true } })
        else do
          let hd := f.handle.toNat
          let bud ← look (fun s => if s.gateGen x.vdev (bitsAt hd 0 20) = bitsAt hd 20 12 then
            (s.gate x.vdev (bitsAt hd 0 20)).bud else f.bud)
          modMe (fun x => x.cleaning f bud u)
    else if u.retire then do
      let busy ← look (fun s => s.myCore.opsOf g.seat && !s.myCore.opsStopped g.seat)
      if busy then modMe (fun x => { x with unw := some { u with run := false } })
      else change (fun s => s.retireNow g.core g.seat)
    else modMe (fun x => x.resumed u)

/-- Pop(k) of R180, the targets of new marks, and what follows. -/
def unwPop : M Unit := do
  let x ← me
  match x.frames, x.unw with
  | f :: _, some u => do
    -- a mark of the frame that goes counts, too
    let t ← if x.marked then unwTarget else pure none
    dropFrame
    modMe (fun y => y.popped f [])
    if x.marked then
      modMe (fun y => { y with marked := false, unw := some (match t with
        | some v => if v.retire || decide (v.target < u.target) then v else u
        | none => u) })
    else pure ()
    unwNext
  | _, _ => unwNext

/-- GCLEAN (R347, R368): the cleanup ends, with a release for its accesses, and its frame is popped. -/
def execGclean (h : Head) (s : State) : Out :=
  leave h (do
    gateInstr
    let x ← me
    let legal := match x.frames, x.unw with
      | f :: _, some u => u.run && f.cln && f.callee == x.curdom
      | _, _ => false
    need legal 0 x.dspWord
    crossing
    release
    change (fun s => s.hints h)
    unwPop) s

/-- Run a computation for a seat's main strand outside its issue; a trap of its save area enters the handler (R172). -/
def State.forSeat (s : State) (c k : Nat) (m : M Unit) : State :=
  let a : Agent := { core := c, seat := k }
  match m { s with cur := a } with
  | .ok _ s1 => { s1 with cur := s.cur }
  | .error (.trap t) _ => s.takeTrap a t false
  | .error (.trapAt t) s1 => { s1 with cur := s.cur }.takeTrap a t false
  | .error .waitAt s1 => { s1 with cur := s.cur }
  | .error _ _ => s

/-- A thread stands at a boundary at which it may be taken: no handler runs, no row group is being written, and, once what it
has begun has stopped there, its producers have completed (R88, R179, R203). -/
def Core.takeable (x : Core) (k : Nat) : Bool :=
  let t := x.seat k
  t.occ == .thread && !t.hnd && t.pend.isNone && t.seq == .none && !t.ending && !x.halted && x.pre.isNone && !x.midGroup k

/-- The seat's strands end: an engine strand is gone, the main strand keeps its PC (R180). -/
def Seat.strandsEnd (x : Seat) : Seat :=
  { x with
    mat := { x.mat with live := false, blk := .none }, cpy := { x.cpy with live := false, blk := .none }
    main := { x.main with rep := {}, blk := .none, hold := false, fbuf := [] }, resume := false }

/-- UNWIND_TAKE: a marked thread is taken: its strands end, its instruction is abandoned, its target is found (R179,
R180). -/
def execUnwindTake (c k : Nat) (s : State) : Out :=
  let x := s.seat c k
  let s0 := s.settle c k
  if !(s.core c).takeable k || !(s0.core c).producersDone k || !x.marked || x.unw.isSome then .next s
  else
    let s1 := s0.dropWaits c k
    let s2 := if x.main.blk = .pairing ∨ x.main.blk = .unpairing then s1.quitPair c else s1
    .next (s2.forSeat c k (do
      modMe Seat.strandsEnd
      let t ← unwTarget
      modMe (fun x => { x with marked := false, unw := t })
      unwNext))

/-- The innermost frame of a thread that has stopped at a boundary is popped, its strands ended (R180). -/
def State.popAt (s : State) (c k : Nat) : State :=
  ((s.settle c k).dropWaits c k).forSeat c k (do
    Machine.modMe Seat.strandsEnd
    unwPop)

/-- UNWIND_POP: a frame that runs no code, or whose cleanup is abandoned for a mark of its own, is popped, or the unwinding goes
on where none is left (R180, R181). -/
def execUnwindPop (c k : Nat) (s : State) : Out :=
  let x := s.seat c k
  if !(s.core c).takeable k || !((s.settle c k).core c).producersDone k then .next s
  else match x.unw with
    | none => .next s
    | some u =>
      let stop := match x.frames with | f :: _ => f.doom && f.bud != 0 | [] => true
      if u.run && !stop then .next s
      else if x.depth ≤ u.target then .next (s.forSeat c k unwNext)
      else .next (s.popAt c k)

/-- CLEANUP_OVERRUN: the budget of a running cleanup is used up; the overrun is counted and the frame is popped (R181). -/
def execCleanupOverrun (c k : Nat) (s : State) : Out :=
  let x := s.seat c k
  if !(s.core c).takeable k || !((s.settle c k).core c).producersDone k then .next s
  else match x.unw, x.frames with
  | some u, f :: _ =>
    if u.run ∧ f.bud = 0 then .next ((s.modVd x.vdev (fun v => { v with clovr := satInc v.clovr })).popAt c k)
    else .next s
  | _, _ => .next s

/-! ### Revocation -/

/-- A frame marked for domain X (R179 step 4). `first` marks the base domain's. -/
def Frame.mark (f : Frame) (x : Nat) (kill base : Bool) : Frame :=
  let f1 := if f.callee = x then { f with doom := true, rsn := f.rsn || kill } else f
  if base then { f1 with bdoom := true, brsn := f1.brsn || kill } else f1

/-- Mark spill slots 1 to n of a thread whose slots start at `at_` (R179). A slot that cannot be reached is left. -/
def State.markSlots (s : State) (w : Who) (at_ x : Nat) (kill base : Bool) : Nat → State × Bool
  | 0 => (s, false)
  | n + 1 =>
    let (s1, b) := s.markSlots w at_ x kill base n
    let va := at_ + 1472 * n
    match s1.tryUnit (unitRead none w va 1472) with
    | none => (s1, b)
    | some (bs, _) =>
      let f := Frame.ofBytes bs
      let g := f.mark x kill (base && n == 0)
      if g = f then (s1, b || f.doom && f.callee == x)
      else match s1.tryUnit (unitWrite none w va g.bytes) with
        | some (_, s2) => (s2, true)
        | none => (s1, b)

/-- Mark the thread on a seat for domain X, or retire it where X is its base domain and it has no frame: as EXIT does, behind its
handler and its engine operations (R179). -/
def State.markSeat (s : State) (c k x : Nat) (kill : Bool) : State :=
  let t := s.seat c k
  let base := t.basedom == x
  if t.depth = 0 then
    if !base then s
    else if t.hnd || (s.core c).opsOf k then
      s.modSeat c k (fun t => { t with unw := some { target := 0, retire := true, rsn := kill, hnd := 0, xdom := 0, run := false } })
    else s.retireNow c k
  else
    let n := match t.seq with | .saving _ _ => 0 | _ => t.frames.length
    let (s1, b) := s.markSlots t.saver (t.spill 1) x kill base (t.depth - n)
    let fs := t.frames.mapIdx (fun i f => f.mark x kill (base && t.depth - i == 1))
    let hit := b || base || t.frames.any (fun f => f.callee == x)
    s1.modSeat c k (fun t => { t with frames := fs, marked := t.marked || hit })

/-- Mark a pre-empted thread in its spill slots (R179). -/
def State.markSaved (s : State) (vd : Nat) (i : SavedImage) (x : Nat) (kill : Bool) : State :=
  let w := i.saver vd
  match i.depth with
  | 0 =>
    if i.dom = x then
      let s1 := match s.tryUnit (unitWrite none w i.image [0]) with | some (_, t) => t | none => s
      ((s1.dropWaits i.core i.id).leaveAll i.core i.id).modVd vd (fun v => { v with saved := v.saved.filter (fun j => j.id != i.id) })
        |> fun t => if (t.seat i.core i.seat).occ = .saved then t.vacate i.core i.seat else t
    else s
  | d => (s.markSlots w (i.image + 0x1B00) x kill (i.dom == x) d).1

/-- Marking of every thread of a virtual device (R179 step 4). -/
def State.markAll (s : State) (vd x : Nat) (kill : Bool) : State :=
  let s1 := (s.threads vd).foldl (fun s (c, k) => s.markSeat c k x kill) s
  (s1.vd vd).saved.foldl (fun s i => s.markSaved vd i x kill) s1

/-- Tile instructions that run as X stop at their row-group boundary (R179 step 2). -/
def State.settleAs (s : State) (vd x : Nat) : State :=
  s.cores.foldl (fun s (c, y) => match y.tile with
    | some r => if (y.seat r.seat).vdev = vd ∧ (y.seat r.seat).curdom = x then s.settle c r.seat else s
    | none => s) s

/-- Steps 1 to 3 of R179: the record, the gates, the operations and translations of X. -/
def State.revoke (s : State) (vd x : Nat) : State :=
  let s1 := ((s.settleAs vd x).setDstate vd x 2).retractAll vd (fun o => o == x)
  let mine (p : Space) : Bool := p.vdev == vd && p.dom == x
  let s2 := s1.cores.foldl (fun s e => s.cancel e.1 (fun o => mine o.space) (fun o => mine o.space)) s1
  let s2 := s2.cancelImages vd (fun _ o => mine o.space) (fun _ o => mine o.space)
  s2.tlbDrop (fun e => e.vdev == vd && e.dom == x)

/-- An access or walk issued as X, or what an operation of X has handed to the drain port, has not been performed (R179 step
2). -/
def State.fenceOpen (s : State) (vd x : Nat) : Bool :=
  s.flight.any (fun a => a.vdev == vd && a.dom == x && !a.ghost && a.pieces.any (fun p => p.sent)) ||
    s.walks.any (fun w => w.vdev == vd && w.dom == x) ||
    s.cores.any (fun e => e.2.mat.ops.any (fun o => o.space.vdev == vd && o.space.dom == x && !o.port.isEmpty))

/-- A page goes through RECLAIM to a new entry (R158, R159). -/
def State.reclaim (s : State) (page : Nat) (next : Owner) (prop : Option Nat) : State :=
  { s.setOwner page { s.owner page with state := 2 } with
    reclaims := s.reclaims ++ [{ page := page, next := next, prop := prop }] }

/-- The entry of a page after its reclamation: to FREE it changes STATE and LOST alone, a commit its own fields, and the
start of a migration PULL and SRCDEV as well (R156, R159, R397). -/
def Owner.after (o next : Owner) : Owner :=
  if next.state = 0 then { o with state := 0, lost := false }
  else if next.pull then next
  else { next with pull := o.pull, srcdev := o.srcdev }

/-- A proposal ends with a code (R404). -/
def State.cpDone (s : State) (vd code : Nat) : State := s.modVd vd (fun v => { v with prop := { v.prop with cpstat := code } })

/-- Reclaim every page that a test names to FREE. A page that is being filled for such an entry becomes FREE instead, and the
proposal that waits for it is refused (R158, R159). -/
def State.reclaimAll (s : State) (p : Owner → Bool) : State :=
  let filled := s.reclaims.filter (fun r => r.next.state == 1 && p r.next)
  let drop (r : Reclaim) : Reclaim :=
    if r.next.state == 1 && p r.next then { r with next := { r.next with state := 0 }, prop := none } else r
  let s0 := filled.foldl (fun (s : State) r => match r.prop with | some v => s.cpDone v 3 | none => s)
    { s with reclaims := s.reclaims.map drop }
  (s0.owners.filter (fun (_, o) => o.state == 1 && p o)).foldl (fun s (i, o) => s.reclaim i { vdev := o.vdev } none) s0

/-- The end of a DREVOKE: marking, and reclamation in the kill form (R179, R183, R348). -/
def State.revokeEnd (s : State) (vd x : Nat) (kill : Bool) : State :=
  let s1 := (s.markAll vd x kill).modVd vd (fun v => { v with fencing := v.fencing.filter (fun d => d != x) })
  if kill then
    (s1.reclaimAll (fun o => o.vdev == vd && o.owner == x)).modVd vd (fun v =>
      { v with killing := if v.killing.contains x then v.killing else x :: v.killing })
  else s1

/-- DREVOKE in both forms (R179, R348). -/
def drevoke (h : Head) (kill : Bool) (a : Src) (s : State) : Out :=
  leave h (do
    gateInstr
    let x ← me
    if x.curdom ≠ 0 then raise .privilege 0 0 else pure ()
    let d ← readN64 2 a
    let q ← look (fun s => s.quota x.vdev)
    let st ← look (fun s => s.dstate x.vdev d)
    need (d != 0 && decide (d < q.dcap) && st != 0) 2 d
    fenced .dev .full
    let fencing ← look (fun s => (s.vd x.vdev).fencing.contains d)
    if st = 2 ∧ !fencing then pure ()
    else do
      let held ← look (fun s => s.tablesHeld x.vdev)
      waitFor (fencing || !held)
      if fencing then pure ()
      else change (fun s => (s.revoke x.vdev d).modVd x.vdev (fun v => { v with fencing := d :: v.fencing }))
      let wait ← look (fun s => s.fenceOpen x.vdev d)
      if wait then throw .waitAt else pure ()
    change (fun s =>
      let s1 := s.advance h
      if st = 2 ∧ !fencing ∧ !kill then s1 else s1.revokeEnd x.vdev d kill)) s

def execDrevoke (h : Head) (a : Src) (s : State) : Out := drevoke h false a s

def execDrevokeKill (h : Head) (a : Src) (s : State) : Out := drevoke h true a s

/-- Frames of a seat's thread, spilled ones included; a slot that cannot be read counts as naming any domain. -/
def State.namesDom (s : State) (w : Who) (at_ x : Nat) : Nat → Bool
  | 0 => false
  | n + 1 =>
    s.namesDom w at_ x n ||
    match s.tryUnit (unitRead none w (at_ + 1472 * n) 1472) with
    | none => true
    | some (bs, _) => let f := Frame.ofBytes bs; f.caller == x || f.callee == x

/-- DOMAIN_FREED: a killed domain whose pages are reclaimed and which no frame names becomes FREE (R159, R348). -/
def execDomainFreed (vd d : Nat) (s : State) : Out :=
  let seatNames (c k : Nat) : Bool :=
    let t := s.seat c k
    t.frames.any (fun f => f.caller == d || f.callee == d) ||
      s.namesDom t.saver (t.spill 1) d (t.depth - t.frames.length)
  let savedNames (i : SavedImage) : Bool := s.namesDom (i.saver vd) (i.image + 0x1B00) d i.depth
  if !(s.vd vd).killing.contains d || s.tablesHeld vd || s.owners.any (fun (_, o) => o.vdev == vd && o.owner == d && o.state != 0) ||
      (s.threads vd).any (fun (c, k) => seatNames c k) || (s.vd vd).saved.any savedNames then .next s
  else .next ((s.setDstate vd d 0).modVd vd (fun v => { v with killing := v.killing.filter (fun x => x != d) }))

end Sys2Proof.Machine
end

