-- ==== Sys2Proof/Machine/Save.lean ====
section
/-! DEFINITION. Pre-emption (R204), thread images and their save and restore (R205, R206), core images (R208), the passage of
rows between virtual devices (R118), and the turns of the pool (R392). -/
namespace Sys2Proof.Machine

/-! ### Pre-emption -/

/-- Cores that are pre-empted with a core: those of its gang (R26). -/
def State.gangCores (s : State) (c : Nat) : List Nat :=
  match (s.core c).gang with
  | some g => (s.gangOf g.leader).map (fun (n, _) => n)
  | none => [c]

/-- The core's gang stands at one instruction boundary: nothing is left to forward, or every member has executed it and some wait
for what it asked of another unit (R26). -/
def State.gangWhole (s : State) (c : Nat) : Bool :=
  let gs := (s.gangCores c).filterMap (fun n => (s.core n).gang)
  gs.all (fun g => g.fwd.isNone) || gs.all (fun g => g.gdone)

/-- A seat of the core holds a thread. -/
def Core.running (x : Core) : Bool := (upto 4).any (fun k => (x.seat k).occ == .thread)

/-- PREEMPT: every seat of the core is taken at its next boundary, and its gang's cores with it (R26, R204). -/
def State.preempt (s : State) (c : Nat) (why : PreWhy) : State :=
  (s.gangCores c).foldl (fun s n =>
    -- a core that is retired takes only its own threads with CORE_RETIRED (R26, R211)
    let why := if n ≠ c ∧ why = .retire then .sigcore else why
    if ((s.core n).pre.isNone || why == .retire) && (s.core n).running then s.modCore n (fun x => { x with pre := some why }) else s) s

/-- QUOTA_EXPIRY: CYC of a seat has reached 0: its core is pre-empted, once its handler has returned (R83, R203, R204). -/
def execQuotaExpiry (c k : Nat) (s : State) : Out :=
  let x := s.seat c k
  if !x.holds ∨ x.hnd ∨ x.cyc ≠ 0 ∨ (s.quota x.vdev).fixed ∨ (s.core c).pre.isSome then .next s
  else .next (s.preempt c .slice)

/-! ### The thread image -/

/-- The 80 bytes of an inbox entry (R126). -/
def Msg.bytes (m : Msg) : List Byte :=
  leBytes m.lid 4 ++ leBytes m.src 2 ++ leBytes m.dseat 1 ++ leBytes m.len 1 ++ leBytes m.tag.toNat 4 ++ zeros 4
    ++ (m.data ++ zeros 64).take 64
/-- An inbox entry from its bytes (R126). -/
def Msg.ofBytes (b : List Byte) : Msg :=
  { lid := numAt b 0 4, src := numAt b 4 2, dseat := bitsAt (numAt b 6 1) 0 2, len := numAt b 7 1
    tag := BitVec.ofNat 32 (numAt b 8 4), data := (b.drop 16).take 64 }

/-- Inbox entries that a thread image takes (R205). -/
def Core.mail (x : Core) (k : Nat) : List Msg := x.inbox.filter (fun m => m.isFor k (x.seat k).lid)

/-- The words of the context or unit that a fault stops with an operation of the seat (R205, R308). -/
def Core.deferred (x : Core) (k : Nat) : List Word :=
  let here := x.ctxs.toList.filter (fun t => t.eng.stopped && t.ops.any (fun o => o.seat == k))
  let mat := if x.mat.eng.stopped && x.mat.ops.any (fun o => o.seat == k) then [x.mat.eng] else []
  match here.map (fun t => t.eng) ++ mat with
  | e :: _ => [e.efop, e.efcode, e.efval, e.efrst]
  | [] => [0, 0, 0, 0]

/-- QUOTA of a seat (R83). -/
def State.cycWord (s : State) (x : Seat) : Nat := if (s.quota x.vdev).fixed then 2 ^ 48 - 1 else x.cyc.toNat

/-- Units that a save writes (R206). -/
def Seat.units (x : Seat) : Nat := 108 + 23 * x.depth

/-- Unit 0 of a thread image (R205). -/
def State.imageHead (s : State) (c k ist : Nat) : List Byte :=
  let x := s.core c
  let t := x.seat k
  leBytes ist 1 ++ [0] ++ leBytes (x.mail k).length 1
    ++ leBytes (t.mat.live.toNat + t.cpy.live.toNat * 2 + (x.opsStopped k).toNat * 4) 1 ++ leBytes t.units 4
    ++ zeros 56

/-- Units 1 to 107 of a thread image (R205). DSP is saved with HWN = 0 (R172). -/
def State.imageBody (s : State) (c k : Nat) : List Byte :=
  let x := s.core c
  let t := x.seat k
  let sys : List Nat :=
    [t.main.pc.word, (x.modSeat k (fun t => { t with rsm := t.resume })).status k, t.fstat.toNat, t.amax.toNat, t.epc.word, t.ecause.toNat,
     t.eval.toNat, t.main.rep.word, t.domWord, t.limit * 2 ^ 20 + t.depth, t.gstat.toNat, t.launchWord, s.cycWord t, t.segb]
  let strands : List Nat := [t.mat.pc.word, t.mat.rep.word, t.cpy.pc.word, t.cpy.rep.word]
  let mail := (x.mail k).flatMap Msg.bytes
  sys.flatMap (fun v => leBytes v 8) ++ zeros 16 ++ strands.flatMap (fun v => leBytes v 8)
    ++ (x.deferred k).flatMap (fun v => leBytes v.toNat 8) ++ t.scal.toList.flatMap (fun v => leBytes v.toNat 8)
    ++ t.views.toList.flatMap (fun v => leBytes v.image 16) ++ (mail ++ zeros 5120).take 5120

/-- Cut bytes into units of 64 at rising addresses. -/
def cutUnits (va : Nat) : Nat → List Byte → List (Nat × List Byte)
  | 0, _ => []
  | n + 1, b => (va, b.take 64) :: cutUnits (va + 64) n (b.drop 64)

/-- The units of a save in their order, with their addresses (R206). -/
def State.saveList (s : State) (c k ist : Nat) : List (Nat × List Byte) :=
  let t := s.seat c k
  let n := t.frames.length
  let slots := (upto n).flatMap (fun i =>
    match t.frames[n - 1 - i]? with
    | some f => cutUnits (t.spill (t.depth - (n - 1 - i))) 23 f.bytes
    | none => [])
  cutUnits (t.image + 64) 107 (s.imageBody c k) ++ slots ++ cutUnits t.image 1 (s.imageHead c k ist)

/-- SVPROG of a seat (R201, R206). -/
def State.setProgress (s : State) (c k n : Nat) (fault : Bool) : State :=
  let s1 := s.modSeat c k (fun x => { x with seq := .saving n fault })
  match (s.core c).hinst with
  | some h => s1.locWrite c (h.hdata + 8 * k) (leBytes n 8)
  | none => s1

/-- Write units, counting them; where one stops, nothing later is written (R206). -/
def State.saveUnits (c k : Nat) (w : Who) (fault : Bool) : List (Nat × List Byte) → Nat → State → State × Option Stop
  | [], _, s => (s, none)
  | (va, b) :: us, n, s =>
    match unitWrite (some c) w va b s with
    | .ok _ s1 => State.saveUnits c k w fault us (n + 1) (s1.setProgress c k (n + 1) fault)
    | .error .waitAt s1 => (s1, some .waitAt)
    | .error st _ => (s, some st)

/-- The core is pre-empted no longer once its last thread has gone; at the end of a slice it stays so until its virtual
device's next turn (R204, R392). -/
def Core.preDone (x : Core) : Core :=
  if x.running then x
  else match x.pre with
    | some .slice => x
    | _ => { x with pre := none }

/-- The thread has been saved: the seat is free of it (R204, R205). -/
def State.saveDone (s : State) (c k : Nat) : State :=
  let t := s.seat c k
  if (s.core c).pre = some .retire then (s.retireNow c k).modCore c Core.preDone
  else
    let i : SavedImage :=
      { id := 4 + s.fresh, core := c, seat := k, image := t.image, dom := t.basedom, lid := t.lid, cur := t.curdom
        queue := t.queue, depth := t.depth, limit := t.limit, gstat := t.gstat, pc := t.main.pc, main := t.main.blk, mat := t.mat.blk, cpy := t.cpy.blk, record := t.record }
    let s1 := { s.renameThread c k i.id with fresh := s.fresh + 1 }
    let s2 := s1.modVd t.vdev (fun v => { v with saved := v.saved ++ [i] })
    let s3 := s2.modCore c (fun x => { x with inbox := x.inbox.filter (fun m => !m.isFor k t.lid) })
    (s3.vacate c k).modCore c Core.preDone

/-- A save stopped by a fault raises SAVEFAULT (R206). -/
def State.saveFault (s : State) (c k : Nat) (t : Trap) : State :=
  s.takeTrap { core := c, seat := k } { cause := .savefault, val := BitVec.ofNat 64 t.addr } true

/-- Write the thread image, from its beginning or from where a fault stopped it (R206). -/
def State.doSave (s : State) (c k : Nat) : State :=
  let s := s.settle c k
  let t := s.seat c k
  let ist := if (s.core c).pre = some .retire then 2 else 1
  let mine (a : Nat) (b : Nat) : Bool := a == c && b == k
  let s0 := { s with walks := s.walks.filter (fun w => !mine w.core w.seat), logs := s.logs.filter (fun r => !mine r.core r.seat) }
  let (n, s1) := match t.seq with
    | .saving n _ => (match (s.core c).hinst with | some h => s.locNum c (h.hdata + 8 * k) 8 | none => n, s0)
    | _ => (0, s0.setProgress c k 0 false)
  let fault := match t.seq with | .saving _ f => f | _ => false
  match State.saveUnits c k t.saver fault ((s1.saveList c k ist).drop n) n s1 with
  | (s2, none) => s2.saveDone c k
  | (s2, some (.trap tr)) => (s2.modSeat c k (fun x => match x.seq with
      | .saving m _ => { x with seq := .saving m true } | _ => x)).saveFault c k tr
  | (s2, some _) => s2

/-! ### Restore -/

/-- The seat as an image holds it (R205). DOM, LAUNCH and GSTAT are the thread's own, LEAD and GANG its core's, whatever has been
stored over them: a restore does not change them (R75, R76). -/
def Seat.ofImage (x : Seat) (vd : Nat) (i : SavedImage) (g : Option Gang) (b : List Byte) (fs : List Frame) : Seat :=
  let w (off : Nat) : Nat := numAt b off 8
  let status := w 0x48
  let strf := numAt b 3 1
  let y : Seat := { x.emptied .thread with
    main := { live := true, pc := Pc.ofWord (w 0x40), rep := Rep.ofWord (w 0x78), blk := i.main }
    mat := if bitAt strf 0 then { live := true, pc := Pc.ofWord (w 0xC0), rep := Rep.ofWord (w 0xC8), blk := i.mat } else {}
    cpy := if bitAt strf 1 then { live := true, pc := Pc.ofWord (w 0xD0), rep := Rep.ofWord (w 0xD8), blk := i.cpy } else {}
    resume := bitAt status 9, rsm := bitAt status 9, gang := (match g with | some g => g.seat == i.seat && g.leader != i.core | none => false)
    lead := (match g with | some g => g.seat == i.seat && g.leader == i.core | none => false), sliced := true
    fstat := BitVec.ofNat 7 (w 0x50), amax := BitVec.ofNat 64 (w 0x58), epc := Pc.ofWord (w 0x60)
    ecause := BitVec.ofNat 16 (w 0x68 % 2 ^ 12), eval := BitVec.ofNat 64 (w 0x70), basedom := i.dom, vdev := vd
    curdom := i.cur, limit := bitsAt (w 0x88) 20 7, depth := bitsAt (w 0x88) 0 7, frames := fs
    gstat := i.gstat, lid := i.lid, queue := i.queue
    cyc := BitVec.ofNat 48 (w 0xA0), segb := w 0xA8 % 2 ^ 16, image := i.image, record := i.record, engDefer := bitAt strf 2
    scal := Vector.ofFn (fun j => BitVec.ofNat 64 (w (0x100 + 8 * j.val))), scalFe := Vector.replicate 64 true
    views := Vector.ofFn (fun j => { View.ofImage (numAt b (0x300 + 16 * j.val) 16) with fe := true })
    age := 0, pri := 1, yld := false }
  y.setFlags status

/-- The words of a deferred ENGINE fault return to their context or unit (R205, R308). -/
def Core.fault (x : Core) (b : List Byte) : Core :=
  let w (i : Nat) : Word := BitVec.ofNat 64 (numAt b (0xE0 + 8 * i) 8)
  let put (e : EngWords) : EngWords := { e with efop := w 0, efcode := w 1, efval := w 2, efrst := w 3 }
  let t := bitsAt (w 0).toNat 56 4
  if !bitAt (numAt b 3 1) 2 then x
  else if t < 4 then x.setCtx t { x.ctx t with eng := put (x.ctx t).eng }
  else { x with mat := { x.mat with eng := put x.mat.eng } }

/-- Write a thread image back onto its seat, with the unwinding that it carries (R184, R205). -/
def restoreBody (vd : Nat) (i : SavedImage) : M Unit := do
  let w := i.saver vd
  let b ← unitRead (some i.core) w i.image 6912
  let depth := bitsAt (numAt b 0x88 8) 0 7
  let fs ← mapL (upto (min depth 8)) (fun j => do
    let f ← unitRead (some i.core) w (i.image + 0x1B00 + 1472 * (depth - 1 - j)) 1472
    pure (Frame.ofBytes f))
  unitWrite (some i.core) w i.image [0]
  let mail := (upto (min 64 (numAt b 2 1))).map (fun j => Msg.ofBytes ((b.drop (0x700 + 80 * j)).take 80))
  change (fun s => s.modCore i.core (fun x =>
    { (x.modSeat i.seat (fun t => t.ofImage vd i x.gang b fs)).fault b with inbox := mail ++ x.inbox }))
  let t ← unwTarget
  match fs, t with
  | f :: _, _ =>
    if f.cln ∧ !f.doom then
      let u : Unwind := t.getD { target := depth - 1, retire := false, rsn := false, hnd := f.handle, xdom := f.callee, run := true }
      modMe (fun x => { x with unw := some { u with run := true } })
    else modMe (fun x => { x with marked := t.isSome })
  | [], _ => pure ()
  change (fun s =>
    let s1 := (s.renameThread i.core i.id i.seat).modVd vd (fun v => { v with saved := v.saved.filter (fun j => j.id != i.id) })
    let s2 := if i.slice then s1.modSeat i.core i.seat (fun t => { t with cyc := BitVec.ofNat 48 (s.quota vd).slice, sliced := true })
      else s1
    i.fin.foldl (fun s e => s.finish { core := i.core, seat := i.seat, strn := e.1 } e.2.1 e.2.2) s2)

/-- The seat while its image is being read back (R206). -/
def Seat.awaiting (x : Seat) (vd : Nat) (i : SavedImage) (fault : Bool) : Seat :=
  { x.emptied .thread with
    main := { live := true, pc := i.pc }, vdev := vd, basedom := i.dom, curdom := i.dom, lid := i.lid, image := i.image
    seq := .restoring i.image fault }

/-- THREAD_RESTORE; a fault stops it and raises SAVEFAULT on the seat, with EPC the thread's PC (R206). SVPROG stays as it is: R201
names no value that a restore writes there (log 112). -/
def State.restoreSeat (s : State) (vd : Nat) (i : SavedImage) : State :=
  let c := i.core
  let k := i.seat
  let was := match (s.seat c k).seq with | .restoring _ f => f | _ => false
  match restoreBody vd i { s with cur := { core := c, seat := k } } with
  | .ok _ s1 => { s1 with cur := s.cur }
  | .error (.trap t) _ => (s.modSeat c k (fun x => x.awaiting vd i true)).saveFault c k t
  | .error (.trapAt t) _ => (s.modSeat c k (fun x => x.awaiting vd i true)).saveFault c k t
  | .error .waitAt s1 => { s1 with cur := s.cur }.modSeat c k (fun x => x.awaiting vd i was)
  | .error _ _ => s.modSeat c k (fun x => x.awaiting vd i was)

/-- ISTATE of an image (R205); none where it cannot be read. -/
def State.istate (s : State) (vd : Nat) (i : SavedImage) : Option Nat :=
  (s.tryUnit (unitRead (some i.core) (i.saver vd) i.image 1)).map (fun r => numAt r.1 0 1)

/-- The seat of an image holds a thread other than the one being read back. -/
def State.imgTaken (s : State) (i : SavedImage) : Bool :=
  let x := s.seat i.core i.seat
  x.occ == .thread && x.seq != .restoring i.image true && x.seq != .restoring i.image false

/-- Restore an image whose ISTATE is 0x01; one that has been overwritten is no thread's any more. -/
def State.restore (s : State) (vd : Nat) (i : SavedImage) : State :=
  if s.imgTaken i || (s.core i.core).halted then s
  else match s.istate vd i with
    | some n =>
      if n = 1 then s.restoreSeat vd i
      else (((s.dropWaits i.core i.id).leaveAll i.core i.id).modVd vd (fun v =>
        { v with saved := v.saved.filter (fun j => j.id != i.id) })).vacate i.core i.seat
    | none => s.restoreSeat vd i

/-! ### The steps of the sequencer -/

/-- THREAD_SAVE: the sequencer saves a pre-empted thread once it stands at its boundary, or goes on after SAVEFAULT with the
save or the restore that it stopped (R204, R206, R209). -/
def execThreadSave (c k : Nat) (s : State) : Out :=
  let y := s.core c
  let x := y.seat k
  if 4 ≤ k ∨ x.occ ≠ .thread ∨ x.hnd ∨ x.pend.isSome ∨ y.halted then .next s
  else match x.seq with
    | .restoring img _ =>
      if y.pre.isSome then .next ((s.vacate c k).modCore c Core.preDone)
      else match (s.vd x.vdev).saved.find? (fun i => i.core == c && i.seat == k && i.image == img) with
        | some i => .next (s.restore x.vdev i)
        | none => .next (s.vacate c k)
    | .saving _ _ => .next (s.doSave c k)
    | .none =>
      if y.pre.isNone ∨ x.ending then .next s
      else match x.reports with
        | (st, t) :: rs => .next ((s.modSeat c k (fun x => { x with reports := rs })).takeTrap { core := c, seat := k, strn := st } t false)
        | [] =>
          let last := match x.unw with | some u => u.retire && decide (x.depth ≤ u.target) | none => false
          if last then .next (s.forSeat c k unwNext)
          else if y.midGroup k || !s.gangWhole c || !((s.settle c k).core c).producersDone k ||
              s.flight.any (fun a => a.core == c && a.seat == k) || s.slotReqs.any (fun r => r.core == c && r.seat == k) then .next s
          else
            let due := s.msgs.filter (fun m => m.dest == c)
            .next ((due.foldl (fun s m => if s.msgDue m then s.deliverMsg m else s) s).doSave c k)

/-- SAVEFAULT_TIMEOUT: no ERET has completed the save or restore within 10 ms (R206). -/
def execSavefaultTimeout (c k : Nat) (s : State) : Out :=
  let x := s.seat c k
  match x.seq with
  | .saving _ true => .next (s.teardown x.vdev)
  | .restoring _ true => .next (s.teardown x.vdev)
  | _ => .next s

/-- HANDLER_TIMEOUT: HND stays 1 for 10 ms after a trap entry (R203). -/
def execHandlerTimeout (c k : Nat) (s : State) : Out :=
  let x := s.seat c k
  match x.held with
  | some h => if x.hnd ∧ x.occ = .thread ∧ !h.save then .next (s.doubleFault c k) else .next s
  | none => .next s

/-! ### The core image -/

/-- Bytes of a core image (R208). -/
def coreImageLen : Nat := 413248

/-- The core image's bytes; those that R208 lays out in no more than name are the model's free bytes (log 18). -/
def State.coreImage (s : State) (c : Nat) : List Byte :=
  let x := s.core c
  let free (off n : Nat) : List Byte := (upto n).map (fun i => Config.imageByte s.fresh (off + i))
  s.locRead c 0 262144 ++ memReads s.acc (c * 131072) 131072
    ++ (upto 64).flatMap (fun g => leBytes (s.lrtEntry c g).toNat 4)
    ++ (upto 8).flatMap (fun t => leBytes (x.tl t).iss 8 ++ leBytes (x.tl t).done 8)
    ++ leBytes (x.dqh + x.dqt * 2 ^ 8 + x.inbox.length * 2 ^ 16) 8 ++ zeros 120
    ++ (upto 64).flatMap (fun i => leBytes (x.dqSlot i).toNat 32) ++ free 0x60A00 12288
    ++ (x.inbox.flatMap Msg.bytes ++ zeros 5120).take 5120 ++ free 0x64E00 64

/-- The rest of the core's context (R208). -/
def Core.misc (x : Core) : CoreMisc :=
  { slots := x.slots, hinst := x.hinst, retSlot := x.retSlot, ctxs := x.ctxs, mat := x.mat, gang := x.gang, pair := x.pair
    seats := x.seats }

/-- A seat without a thread, held as its image holds it; nothing lists a core image among what changes its registers (R75). -/
def Seat.heldAs (x m : Seat) : Seat :=
  { x with occ := m.occ, home := m.home, vdev := m.vdev, lid := m.lid, queue := m.queue, limit := m.limit, image := m.image }

/-- A core's context from its image (R208). -/
def Core.ofImage (x : Core) (b : List Byte) (m : CoreMisc) : Core :=
  let dq := numAt b 0x60180 8
  let tl (t : Nat) : Timeline := { iss := numAt b (0x60100 + 16 * t) 8, done := numAt b (0x60108 + 16 * t) 8 }
  { x with
    seats := Vector.ofFn (fun k => (x.seat k.val).heldAs (vget m.seats k.val {})), dqh := bitsAt dq 0 7, dqt := bitsAt dq 8 7
    dqs := (upto 64).foldl (fun l i => mapSet 0 i (BitVec.ofNat 256 (numAt b (0x60200 + 32 * i) 32)) l) []
    retSlot := m.retSlot, slots := m.slots, ctxs := m.ctxs, mat := m.mat, hinst := m.hinst, gang := m.gang, pair := m.pair
    inbox := (upto (min 64 (bitsAt dq 16 7))).map (fun i => Msg.ofBytes ((b.drop (0x63A00 + 80 * i)).take 80))
    tls := Vector.ofFn (fun t => tl t.val)
    lrt := (upto 64).foldl (fun l g => mapPut g (BitVec.ofNat 32 (numAt b (0x60000 + 4 * g) 4)) l) [] }

/-- Restore a core image; what has retired since counts (R187, R208). -/
def State.restoreCore (s : State) (c : Nat) (b : List Byte) (m : CoreMisc) : State :=
  { s.modCore c (fun x => (x.ofImage b m).syncTl) with
    lmem := memWrites s.lmem (lkey c 0) (b.take 262144)
    acc := memWrites s.acc (c * 131072) ((b.drop 262144).take 131072) }.syncChild c

/-! ### The passage of rows -/

/-- The core holds anything of a virtual device. -/
def State.coreUsed (s : State) (n : Nat) : Bool :=
  (mapFind n s.cores).isSome || s.lmem.any (fun (a, _) => a / 2 ^ 18 == n) || s.acc.any (fun (a, _) => a / 131072 == n)

/-- The words of a context or unit after the scrub of R118 (R308). -/
def EngWords.scrubbed (e : EngWords) : EngWords := { e with stopped := false, errlast := 0 }

/-- A core after the scrub of R118: its region table is unowned, its caches are empty, its timelines and ERRLAST are 0 (R186,
R308), and what its core image has taken over is gone (R208). The deque, with DQHEAD and DQTAIL, the seats' registers and
the error counters stand: nothing that changes them is listed (R75, R86, R122, R186). A core that a double fault has halted
stays so. -/
def Core.scrubbed (x : Core) : Core :=
  { x with
    seats := x.seats.map (fun t => { t.emptied .free with home := none }), retSlot := none, inbox := [], slots := []
    tls := Vector.replicate 8 {}, ctxs := x.ctxs.map (fun t => { eng := t.eng.scrubbed }), mat := { eng := x.mat.eng.scrubbed }
    fed := [], tile := none, sboard := [], lrt := [], hinst := none, ccache := [], tlb := [], pre := none, pair := none
    gang := none }

/-- Local memory and accumulator store of the cores that a test names are zero (R118, R165). -/
def State.emptyCores (s : State) (mine : Nat → Bool) : State :=
  { s with
    lmem := s.lmem.filter (fun (a, _) => !mine (a / 2 ^ 18))
    acc := s.acc.filter (fun (a, _) => !mine (a / 131072))
    lpoison := s.lpoison.filter (fun (a, _) => !mine (8 * a / 2 ^ 18))
    apoison := s.apoison.filter (fun (a, _) => !mine (8 * a / 131072)) }

/-- The scrub of cores that a test names (R118). -/
def State.scrub (s : State) (mine : Nat → Bool) : State :=
  { s.emptyCores mine with cores := mapVals (fun n x => if mine n then Core.scrubbed x else x) s.cores }

/-- A row passes to a virtual device: R118 unless that device held it last. Where no image keeps a core's timelines, its child
launches are numbered there no longer (R186, R187). -/
def State.passRow (s : State) (vd y : Nat) : State :=
  let o := mapGet 0 y s.rowVd
  if o = vd then s
  else
    let lost (e : Nat × Nat) : Bool := e.1 / 128 == y && !(s.vd o).cores.any (fun a => a.1 == e.1)
    { s.scrub (fun n => n / 128 == y) with
      rowVd := mapSet 0 y vd s.rowVd
      launches := s.launches.map (fun l => if l.vdev = o ∧ l.child.any lost then { l with child := none } else l) }

/-! ### Turns of the pool -/

/-- The device takes part in the rotation (R392). -/
def State.qualifies (s : State) (v : Nat) : Bool :=
  (s.quota v).active && !(s.quota v).fixed &&
    (!(s.vd v).saved.isEmpty || s.launches.any (fun l => l.vdev == v && (l.started || s.waitsMet l)))

/-- The device whose turn comes next, in ascending number after the last (R392). -/
def State.nextTurn (s : State) : Option Nat :=
  let c := (upto 16).filter s.qualifies
  match s.modl.turn with
  | none => c.head?
  | some u => match c.find? (fun v => decide (u < v)) with | some v => some v | none => c.head?

/-- Cores of the device have been pre-empted and every one has finished its save, or it has nothing left to run (R392). -/
def State.turnOver (s : State) (u : Nat) : Bool :=
  s.cores.all (fun (_, x) => (upto 4).all (fun k => (x.seat k).occ != .thread || (x.seat k).vdev != u)) &&
    (!(s.vd u).saved.isEmpty || !s.qualifies u ||
      s.cores.any (fun (n, x) => s.holdsCore u n && mapGet 0 (n / 128) s.rowVd == u && x.pre.isSome))

/-- Nothing is on its way from or to the core, and its engines have retired every operation but those that a deferred fault
stops (R204, R205). -/
def State.coreQuiet (s : State) (c : Nat) : Bool :=
  let x := s.core c
  x.sboard.isEmpty && x.mat.ops.all (fun o => o.port.isEmpty) && x.ctxs.toList.all (fun t => t.ops.isEmpty || t.eng.stopped) && (x.mat.ops.isEmpty || x.mat.eng.stopped) &&
    !s.flight.any (fun a => a.core == c || a.pieces.any (fun p => p.home == .bank c)) &&
    !s.slotReqs.any (fun r => r.core == c || r.dest == c)

/-- A place for a core image in virtual device 0: memory that exists, that no domain owns and no other image uses. -/
def State.imageRoom (s : State) (addr : Nat) : Bool :=
  decide (addr + coreImageLen ≤ (s.quota 0).sliceList.length * sliceBytes) &&
    (List.range' (addr / 65536) ((addr + coreImageLen - 1) / 65536 - addr / 65536 + 1)).all (fun p =>
      match s.modPage 0 (p * 65536) with | some g => (s.owner g).state == 0 | none => false) &&
    s.vdevs.all (fun (_, v) => v.cores.all (fun (_, a) => decide (a + coreImageLen ≤ addr) || decide (addr + coreImageLen ≤ a)))

/-- CORE_IMAGE_SAVE: the turn is over and the core passes to another device: its image is written to memory of virtual
device 0 at an address that the management core chooses (R208, R392). -/
def execCoreImageSave (c addr : Nat) (s : State) : Out :=
  match s.modl.turn with
  | none => .next s
  | some u =>
    if s.holdsCore u c && mapGet 0 (c / 128) s.rowVd == u && s.coreUsed c && s.turnOver u && s.nextTurn != some u && s.coreQuiet c &&
        !(s.vd u).cores.any (fun (n, _) => n == c) && s.imageRoom addr && !s.devSnooped 0 addr coreImageLen then
      let s1 := s.devWrite 0 addr (s.coreImage c)
      .next ({ s1 with fresh := s1.fresh + 1 }.modVd u (fun v =>
        { v with cores := mapPut c addr v.cores, cmisc := mapPut c (s.core c).misc v.cmisc }))
    else .next s

/-- The core can pass: its last holder has an image of it, or nothing there. -/
def State.corePasses (s : State) (v n : Nat) : Bool :=
  let o := mapGet 0 (n / 128) s.rowVd
  o == v || !s.coreUsed n || !s.holdsCore o n || (s.vd o).cores.any (fun (c, _) => c == n)

/-- Cores that hold anything. -/
def State.usedCores (s : State) : List Nat :=
  s.cores.map (fun (n, _) => n) ++ s.lmem.map (fun (a, _) => a / 2 ^ 18) ++ s.acc.map (fun (a, _) => a / 131072)

/-- A seat without a thread becomes free where a test names the launch that holds it (R37). -/
def Seat.given (x : Seat) (vd : Nat) (dead : Nat → Bool) : Seat :=
  match x.home with
  | some h => if x.vdev = vd ∧ dead h.lid ∧ x.occ ≠ .thread then { x.emptied .free with home := none } else x
  | none => x

/-- A restored core without what launches left there that have ended since (R37, R125, R127, R328). -/
def State.prune (s : State) (v c : Nat) : State :=
  let dead (n : Nat) : Bool := (s.launch v n).isNone
  let s1 := s.modCore c (fun x => { x.purge dead with seats := x.seats.map (fun t => t.given v dead) })
  ((s.core c).slots.filter (fun (_, l) => l.lid != 0 && dead l.lid)).foldl (fun s (y, _) => s.freeSlotNow c y) s1

/-- Restore the core images of a device for the rows that pass to it; an uncorrectable error there tears it down (R208,
R213). -/
def State.restoreCores (s : State) (v : Nat) (pass : Nat → Bool) : State :=
  (s.vd v).cores.foldl (fun s (c, a) =>
    if !pass (c / 128) then s
    else
      -- a fault there is a double fault of the core (R208, R212)
      let fault := (s.teardown v).modCore c (fun x => { x with halted := true })
      if s.devPoisoned 0 a coreImageLen then fault
      else match s.devRead 0 a coreImageLen, mapFind c (s.vd v).cmisc with
        | some b, some m => (s.restoreCore c b m).prune v c
        | _, _ => fault)
    s

/-- TURN_START: the next device's turn of the pool begins: rows pass, core images and thread images are restored, CYC is
SLICE (R193, R204, R392). -/
def execTurnStart (vd : Nat) (s : State) : Out :=
  let ended := match s.modl.turn with | some u => s.turnOver u | none => true
  let rows := (s.quota vd).rowList
  let ok := s.usedCores.all (fun n => !rows.contains (n / 128) || s.corePasses vd n)
  if s.nextTurn ≠ some vd ∨ !ended ∨ !ok then .next s
  else
    let pass (y : Nat) : Bool := mapGet 0 y s.rowVd != vd
    let s1 := rows.foldl (fun s y => s.passRow vd y) s
    let s2 := (s1.restoreCores vd pass).modVd vd (fun v => { v with cores := [], cmisc := [] })
    let s3 := s2.modCores (fun n x => if rows.contains (n / 128) then { x with pre := none } else x)
    let s4 := s3.modModule (fun m => { m with turn := some vd })
    let s5 := s4.modVd vd (fun v => { v with saved := v.saved.map (fun i => { i with slice := true }) })
    let s6 := (s5.vd vd).saved.foldl (fun s i => s.restore vd i) s5
    let full (t : Seat) : Seat := { t with cyc := BitVec.ofNat 48 (s.quota vd).slice, sliced := true }
    .next (s6.modCores (fun n x => if rows.contains (n / 128) then { x with seats := x.seats.map full } else x))

end Sys2Proof.Machine
end

