-- ==== Sys2Proof/Machine/System.lean ====
section
/-! DEFINITION. Family 0xE, system: registers and tables (R75 to R87, R146, R358), TRAP and ERET (R202, R359), WAIT (R360),
TLBINV (R361), HINST (R201, R362), checked pairs (R363), gangs (R25, R364), CAPR (R196, R365), SIGCORE (R366). -/
namespace Sys2Proof.Machine

/-! ### Reading registers -/

/-- The issuer acts as the supervisor of virtual device 0. -/
def Seat.root (x : Seat) : Bool := x.who.dom == 0 && x.vdev == 0

/-- QUOTA as SYSR reads it: the count as far as the moves of time have brought it (R83, log 8). -/
def readCyc : M Nat := do
  let x ← me
  let fixed ← look (fun s => (s.quota x.vdev).fixed)
  pure (if fixed then 2 ^ 48 - 1 else x.cyc.toNat)

/-- A seat register (R75, R358). -/
def readSeat (n : Nat) : M Nat := do
  let x ← me
  let k ← look (fun s => s.cur.seat)
  if n = 0 then pure x.main.pc.word
  else if n = 1 then look (fun s => s.myCore.status k)
  else if n = 2 then pure x.fstat.toNat
  else if n = 3 then pure x.amax.toNat
  else if n = 4 then pure x.epc.word
  else if n = 5 then pure x.ecause.toNat
  else if n = 6 then pure x.eval.toNat
  else if n = 7 then pure (if x.hnd then x.repSys.word else x.main.rep.word)
  else if n = 8 then pure x.domWord
  else if n = 9 then pure x.dspWord
  else if n = 10 then pure x.gstat.toNat
  else if n = 11 then pure x.launchWord
  else if n = 12 then readCyc
  else if n = 13 then pure k
  else raise .operand 2 n

/-- A core register, or a word of a deque slot (R86, R358). -/
def readCore (n : Nat) : M Nat := do
  let x ← me
  let c ← look (fun s => s.cur.core)
  let y ← look State.myCore
  if n = 0 then look (fun s => s.coreId c)
  else if n = 1 then pure ((upto 4).foldl (fun v k => v + (y.seat k).segb % 2 ^ 16 * 2 ^ (16 * k)) 0)
  else if n = 2 then pure y.dqh
  else if n = 3 then pure y.dqt
  else if n = 4 then pure y.inbox.length
  else if 0x40 ≤ n ∧ n < 0x140 then
    if x.who.dom ≠ 0 then raise .privilege 0 n
    else pure (bitsAt (y.dqSlot ((n - 0x40) / 4)).toNat (64 * (n % 4)) 64)
  else raise .operand 2 n

/-- A key slot's visible word (R160). -/
def KeySlot.word (k : KeySlot) : Nat := k.kgen % 2 ^ 16 * 2 ^ 48 + k.vdev * 2 ^ 16 + k.use * 2 ^ 2 + k.kstate

/-- Word w of a Regulator slot (R166). R186 has selector 0x06 read RGOVR and R166 names no bytes for it: it stands in bits
63:32 of word 4 (log 49). -/
def RegSlot.word (r : RegSlot) (w : Nat) : Nat :=
  if w = 0 then r.arm.toNat + r.vdev * 2 ^ 8 + r.queue * 2 ^ 16
  else if w = 1 then r.period
  else if w = 2 then r.next
  else if w = 3 then r.rcd
  else if w = 4 then r.infl % 2 ^ 32 + r.rgovr * 2 ^ 32
  else 0

/-- Entries of a table and words of an entry (R144, R146, R358). -/
def State.tableOk (s : State) (vd sel i w : Nat) : Bool :=
  if sel = 1 then decide (i < 64) && w == 0
  else if sel = 2 then decide (i < (s.quota vd).gcap) && decide (w < 8)
  else if sel = 3 then i == 0 && decide (w < 16)
  else if sel = 4 then decide (i / 4096 < 4) && decide (i % 4096 < 4032) && w == 0
  else if sel = 5 then decide (i < 4096) && w == 0
  else decide (i < 256) && decide (w < 8)

/-- Selector, index and word of the table form; `opnd` is the operand that holds the index word (R146, R358). An index beyond the
table is refused before the domain is looked at (log 113). -/
def tableIndex (sel iw opnd : Nat) : M (Nat × Nat) := do
  need (decide (1 ≤ sel) && decide (sel ≤ 6)) 2 sel
  let w := bitsAt iw 0 5
  let i := bitsAt iw 5 32
  let x ← me
  let ok ← look (fun s => s.tableOk x.vdev sel i w)
  need ok opnd iw
  pure (i, w)

/-- PRIVILEGE on a table (R146, R197). -/
def tableDenied {α : Type} (sel i : Nat) : M α := raise .privilege 0 (sel + i * 2 ^ 16)

/-- A table word (R146, R358). -/
def readTable (sel iw : Nat) : M Nat := do
  let (i, w) ← tableIndex sel iw 3
  let x ← me
  let c ← look (fun s => s.cur.core)
  if sel = 1 then look (fun s => (s.lrtEntry c i).toNat)
  else if sel = 2 then
    if w = 3 then look (fun s => s.gateNum x.vdev i 0x18 4) else tableDenied sel i
  else if sel = 3 then
    if x.who.dom = 0 ∧ (w = 11 ∨ w = 12) then look (fun s => if w = 11 then (s.quota x.vdev).evbase else (s.quota x.vdev).evcap)
    else tableDenied sel i
  else if !x.root then tableDenied sel i
  else if sel = 4 then look (fun s => (s.lptEntry (i / 4096) (i % 4096)).toNat &&& 0x8FFF)
  else if sel = 5 then look (fun s => (s.key i).word)
  else look (fun s => (mapGet ({} : RegSlot) i s.regs).word w)

/-- A word of a copy context or of the matrix unit (R308, R358). -/
def readEng (n w : Nat) : M Nat := do
  need (decide (n ≤ 4)) 2 n
  need (decide (w ≤ 4)) 3 w
  let x ← me
  let k ← look (fun s => s.cur.seat)
  if n ≠ 4 ∧ n ≠ k ∧ x.who.dom ≠ 0 then raise .privilege 0 n else pure ()
  let e ← look (fun s => if n = 4 then s.myCore.mat.eng else (s.myCore.ctx n).eng)
  pure (([e.efop, e.efcode, e.efval, e.efrst, e.errlast][w]?).getD 0).toNat

/-- SYSR (R358). -/
def execSysr (h : Head) (form : SysForm) (d : Nat) (a : Src) (b : Option Src) (s : State) : Out :=
  issue h (do
    let n ← readN64 2 a
    let i ← readOpt 0 (readN64 3) b
    let v ← match form with
      | .seat => readSeat n
      | .core => readCore n
      | .tab => readTable n i
      | .eng => readEng n i
    writeScal d (BitVec.ofNat 64 v)) s

/-! ### Writing registers -/

/-- An FP64 pattern with its sign set, or a NaN (R358). -/
def amaxBad (v : Nat) : Bool := v.testBit 63 || decide (0x7FF0000000000000 < v)

/-- A seat register written by SYSW (R75, R76, R84). -/
def writeSeat (n v : Nat) : M Unit := do
  let x ← me
  need (decide (n < 14)) 2 n
  if n = 1 then modMe (fun x => x.setFlags v)
  else if n = 2 then modMe (fun x => { x with fstat := BitVec.ofNat 7 v })
  else if n = 3 then do
    need (!amaxBad v) 3 v
    modMe (fun x => { x with amax := BitVec.ofNat 64 v })
  else if (n = 4 ∨ n = 5 ∨ n = 6 ∨ n = 7) ∧ x.hnd then
    modMe (fun x =>
      if n = 4 then { x with epc := Pc.ofWord v, rsm := false }
      else if n = 5 then { x with ecause := BitVec.ofNat 16 (v % 2 ^ 12) }
      else if n = 6 then { x with eval := BitVec.ofNat 64 v }
      else { x with repSys := Rep.ofWord v })
  else if n = 12 ∧ x.root then do
    let fixed ← look (fun s => (s.quota x.vdev).fixed)
    if fixed then pure () else modMe (fun x => { x with cyc := BitVec.ofNat 48 v })
  else raise .privilege 0 n

/-- A core register written by SYSW (R86, R123, R358). -/
def writeCore (n v : Nat) : M Unit := do
  let x ← me
  need (decide (n < 5) || (decide (0x40 ≤ n) && decide (n < 0x140))) 2 n
  if (n = 2 ∨ n = 3) ∧ x.who.dom = 0 then do
    let y ← look State.myCore
    let z : Core := if n = 2 then { y with dqh := v % 128 } else { y with dqt := v % 128 }
    need (decide (z.dqCount ≤ 64)) 3 v
    change (fun s => s.modMyCore (fun _ => z))
  else raise .privilege 0 n

/-- Granules that the installed handler covers (R201). -/
def HRec.cover (r : HRec) : List Nat :=
  let lo := 32 * r.hseg
  List.range' (lo / 4096) ((lo + 12 * r.hbnd - 1) / 4096 - lo / 4096 + 1) ++ [r.hdata / 4096]

/-- A local region entry written by SYSW: VDEV stays and reserved bits are ignored (R3, R161, R162). -/
def writeRegion (i v : Nat) : M Unit := do
  let x ← me
  let c ← look (fun s => s.cur.core)
  let old ← look (fun s => (s.lrtEntry c i).toNat)
  let y ← look State.myCore
  let new := old / 2 ^ 28 * 2 ^ 28 + bitsAt v 6 22 * 2 ^ 6
  let covered := match y.hinst with | some r => r.cover.contains i | none => false
  let live ← look (fun s => s.domLive x.vdev (bitsAt new 12 16))
  if x.who.dom ≠ 0 ∨ old / 2 ^ 28 ≠ x.vdev ∨ (bitAt old 10 ∧ covered = true ∧ new ≠ old) ∨ (bitAt new 11 ∧ !live) then tableDenied 1 i
  else change (fun s => s.modMyCore (fun y => { y with lrt := mapPut i (BitVec.ofNat 32 new) y.lrt }))

/-- A power of two. -/
def powerOf2 (n : Nat) : Bool := n != 0 && n &&& (n - 1) == 0

/-- A Regulator slot after a write of word w, none where a limit is broken (R166). -/
def RegSlot.put (r : RegSlot) (w v : Nat) : Option RegSlot :=
  let arm := bitAt v 0
  let vd := bitsAt v 8 4
  let q := bitsAt v 16 6
  let p := v % 2 ^ 41
  if r.arm then
    if w = 0 ∧ !arm ∧ vd = r.vdev ∧ q = r.queue then some { r with arm := false } else none
  else if w = 0 then
    if vd = 0 ∨ (arm ∧ r.period = 0) then none
    else some { r with arm := arm, vdev := vd, queue := q, rgovr := if arm then 0 else r.rgovr }
  else if w = 1 then (if 1 ≤ p ∧ p ≤ 2 ^ 40 then some { r with period := p } else none)
  else if w = 2 then some { r with next := v }
  else if w = 3 then some { r with rcd := v }
  else some r

/-- A table word written by SYSW (R146, R153, R162, R166, R168). -/
def writeTable (sel iw v : Nat) : M Unit := do
  let (i, w) ← tableIndex sel iw 1
  let x ← me
  if sel = 1 then writeRegion i v
  else if sel = 2 then
    if w ≠ 3 ∨ x.who.dom ≠ 0 then tableDenied sel i
    else do
      let n := v % 2 ^ 32
      need (decide (1024 ≤ n) && decide (n ≤ 65536)) 3 v
      let sn ← look (fun s => s.devSnooped 0 (s.gateAddr x.vdev i + 0x18) 4)
      waitFor (!sn)
      change (fun s => s.devWrite 0 (s.gateAddr x.vdev i + 0x18) (leBytes n 4))
  else if sel = 3 then
    if x.who.dom ≠ 0 ∨ (w ≠ 11 ∧ w ≠ 12) then tableDenied sel i
    else do
      let n := v % 2 ^ 32
      need (if w = 11 then v % 32 == 0 else powerOf2 n && decide (64 ≤ n) && decide (n ≤ 65536)) 3 v
      change (fun s =>
        let q := s.quota x.vdev
        let s1 := { s with quotas := mapPut x.vdev (if w = 11 then { q with evbase := v } else { q with evcap := n }) s.quotas }
        s1.flushEvents 257 x.vdev)
  else if sel = 6 ∧ x.root then do
    let r ← look (fun s => mapGet ({} : RegSlot) i s.regs)
    match r.put w v with
    | some r' => change (fun s => { s with regs := mapSet {} i r' s.regs })
    | none => raise .operand 3 v
  else tableDenied sel i

/-- SYSW (R358). -/
def execSysw (h : Head) (form : SysForm) (d : Option Nat) (a b : Src) (s : State) : Out :=
  issue h (do
    let iw ← match d with
      | some d => do let v ← readD d; pure v.toNat
      | none => pure 0
    let n ← readN64 2 a
    let v ← readN64 3 b
    match form with
    | .seat => writeSeat n v
    | .core => writeCore n v
    | .tab => writeTable n iw v
    | .eng => do
      need (decide (n ≤ 4)) 2 n
      raise .privilege 0 n) s

/-! ### TRAP, ERET -/

/-- TRAP (R359); in the handler its trap is a double fault, with SOFTWARE in ECAUSE (R203, R212). -/
def execTrap (h : Head) (a : Src) (s : State) : Out :=
  issue h (do
    let v ← readN64 2 a
    raise .software 0 v) s

/-- ERET (R202, R206, R306): it reads HS56 to HS63 as the handler's earlier stores leave them (R202, R317). -/
def execEret (h : Head) (s : State) : Out :=
  leave h (do
    let x ← me
    let g ← look State.cur
    match x.held with
    | some r => do
      bankQuiet
      change (fun s => (s.hints h).leaveHandler g.core g.seat r)
    | none => raise .operand 0 0) s

/-! ### WAIT, holds -/

/-- WAIT: pD := 1 as soon as the word differs; else the seat sleeps (R360). -/
def execWait (h : Head) (_tmo d : Nat) (a b : Src) (s : State) : Out :=
  issue h (do
    let off ← readN64 2 a
    let v ← readN64 3 b
    let x ← me
    let ended ← match (match x.main.blk with | .timed _ _ e => e | _ => none) with
      | some b => pure (some b)
      | none => do
        let bs ← localImage 2 off 8
        pure (if leNat bs ≠ v then some true else none)
    match ended with
    | some b => do
      writeP d b
      change (fun s => s.setBlk s.cur .none)
    | none => do
      change (fun s => s.setBlk s.cur (.timed off v none))
      throw .waitAt) s

/-- WAIT_TIMEOUT: TMO · 1,024 cycles have passed; the instruction completes when the strand is next issued (R360). -/
def execWaitTimeout (c k : Nat) (s : State) : Out :=
  let g : Agent := { core := c, seat := k }
  let x := s.seat c k
  match x.main.blk, s.nextInstr g with
  | .timed off v none, .ok (.wait _ tmo _ _ _) =>
    if x.occ ≠ .thread ∨ tmo = 0 ∨ (s.core c).seatStopped k then .next s else .next (s.setBlk g (.timed off v (some false)))
  | _, _ => .next s

/-- ISSUE_HOLD_EXPIRY: the hold of a DLY hint, or of a throttle, is over (R217, R396). -/
def execIssueHoldExpiry (c k : Nat) (st : StrandK) (s : State) : Out :=
  if 4 ≤ k then .next s
  else .next (s.modStrand { core := c, seat := k, strn := st } (fun t => { t with hold := false }))

/-! ### TLBINV -/

/-- TLBINV (R190, R361). -/
def execTlbinv (h : Head) (sc : InvScope) (d : Nat) (a b : Option Src) (s : State) : Out :=
  issue h (do
    let x ← me
    if x.who.dom ≠ 0 then raise .privilege 0 0 else pure ()
    let q ← look (fun s => s.quota x.vdev)
    let miss := match sc with | .page => a.isNone || b.isNone | .dom => b.isNone | .vdev => false
    need (!miss) (if sc = .page ∧ a.isNone then 2 else 3) 0
    need (!(sc == .vdev && (a.isSome || b.isSome))) (if a.isSome then 2 else 3) 0
    let va ← readOpt 0 (readN64 2) a
    let dom ← readOpt 0 (readN64 3) b
    need (b.isNone || decide (dom < q.dcap)) 3 dom
    let n ← look (fun s => ((s.vd x.vdev).xiss + 1) % 2 ^ 56)
    writeScal d (BitVec.ofNat 64 n)
    change (fun s => s.modVd x.vdev (fun v => { v with xiss := n, invs := v.invs ++ [(n, sc, dom, va, s.accNum)] }))) s

/-- An address lies in the scope of a TLBINV. -/
def inScope (sc : InvScope) (dom va : Nat) (edom lo bits : Nat) : Bool :=
  match sc with
  | .vdev => true
  | .dom => edom == dom
  | .page => edom == dom && va / 2 ^ bits == lo / 2 ^ bits

/-- Accesses of a core's engines that were translated and are not yet performed: a tile instruction's in its row group,
and what the matrix unit has handed to the drain port (R270, R298). -/
def Core.enginesOpen (x : Core) (vd : Nat) : Bool :=
  (match x.tile with | some r => r.phase != .start && (x.seat r.seat).vdev == vd | none => false) ||
    x.mat.ops.any (fun o => o.space.vdev == vd && !o.port.isEmpty)

/-- TLBINV_COMPLETE: the oldest TLBINV of a virtual device completes once no access translated in its scope is still to be
performed and every walk of the scope begun before it has ended; its entries leave every cache and XTL advances (R190,
R361, R377). -/
def execTlbinvComplete (vd : Nat) (s : State) : Out :=
  match (s.vd vd).invs with
  | [] => .next s
  | (n, sc, dom, va, num) :: rest =>
    let open_ := s.flight.any (fun a => a.vdev == vd && a.pieces.any (fun p => p.sent &&
      (match p.home with | .bank _ => false | _ => inScope sc dom va p.tdom p.tva 30)))
    let walking := s.walks.any (fun w => w.vdev == vd && decide (w.num ≤ num) && inScope sc dom va w.dom w.va 30)
    if open_ ∨ walking ∨ s.cores.any (fun e => e.2.enginesOpen vd) then .next s
    else
      .next ((s.tlbDrop (fun e => e.vdev == vd && inScope sc dom va e.dom e.va e.bits)).modVd vd (fun v =>
        { v with xtl := n, invs := rest }))

/-! ### HINST -/

/-- The granule qualifies for a handler (R201). -/
def State.handlerGranule (s : State) (c vd g : Nat) : Bool :=
  let e := (s.lrtEntry c g).toNat
  decide (g < 64) && bitAt e 9 && bitAt e 10 && bitAt e 11 && bitsAt e 12 16 == 0 && e / 2 ^ 28 == vd

/-- HINST (R201, R362). -/
def execHinst (h : Head) (a : Src) (s : State) : Out :=
  issue h (do
    let x ← me
    if x.curdom ≠ 0 then raise .privilege 0 0 else pure ()
    let (u, v) ← readPair 2 a
    let u := u.toNat
    let v := v.toNat
    let r : HRec := { hseg := bitsAt u 0 13, hent := bitsAt u 16 32, hbnd := bitsAt v 0 16, hdata := bitsAt v 16 18 }
    need (bitsAt u 13 3 == 0 && u / 2 ^ 48 == 0) 2 u
    need (v / 2 ^ 34 == 0 && r.hbnd != 0 && r.hdata % 1024 == 0) 2 v
    need (decide (r.hent < r.hbnd)) 2 u
    let g ← look State.cur
    let bad ← look (fun s => r.cover.find? (fun n => !s.handlerGranule g.core x.vdev n))
    match bad with
    | some n => raise .operand 2 n
    | none => pure ()
    let busy ← look (fun s => (upto 4).any (fun k => k != g.seat && (s.myCore.seat k).hnd))
    waitFor (!busy)
    change (fun s => s.modMyCore (fun y => { y with hinst := some r }))) s

/-! ### Checked pairs -/

/-- The seat of a core that holds its only thread. -/
def Core.onlySeat (x : Core) : Option Nat :=
  match (upto 4).filter (fun k => (x.seat k).occ == .thread) with
  | [k] => some k
  | _ => none

/-- A core can be coupled: one thread, no gang (R363). -/
def Core.pairable (x : Core) : Bool := x.onlySeat.isSome && x.gang.isNone

/-- Finish CHKP or CHKX of a seat, of its thread or of its handler. -/
def State.finishMain (s : State) (c k : Nat) (p : Option (Nat × Bool)) : State :=
  let x := s.seat c k
  let here := match x.main.blk with | .pairing | .unpairing => true | _ => false
  s.finish { core := c, seat := k, hnd := x.hnd && here } none p

/-- The seat whose thread waits in CHKP, or its handler does. -/
def Core.pairAsker (x : Core) : Option Nat :=
  (upto 4).find? (fun k => let t := x.seat k
    t.occ == .thread && (t.main.blk == .pairing || (match t.held with | some h => h.mblk == .pairing | none => false)))

/-- The thread of a core that waits in CHKP receives pD := 0, and the core is coupled with none (R363). -/
def State.refusePair (s : State) (m : Nat) : State :=
  match (s.core m).pair, (s.core m).pairAsker with
  | some q, some j => (s.modCore m (fun y => { y with pair := none })).finishMain m j (some (q.pd, false))
  | _, _ => s

/-- CHKP (R363). -/
def execChkp (h : Head) (d : Nat) (a : Src) (s : State) : Out :=
  leave h (do
    let x ← me
    let g ← look State.cur
    if x.curdom ≠ 0 then raise .privilege 0 0 else pure ()
    let dir ← readN64 2 a
    need (decide (dir < 4)) 2 dir
    let m ← match neighbour g.core dir 1 with
      | some m => pure m
      | none => raise .privilege 0 0
    let ok ← look (fun s => s.holdsCore x.vdev m && dieOf m == dieOf g.core)
    if !ok then raise .privilege 0 0 else pure ()
    let mine ← look (fun s => s.myCore.pair)
    let his ← look (fun s => (s.core m).pair)
    let fit := match mine with | some p => !p.on && x.main.blk == .pairing | none => true
    let free ← look (fun s => s.myCore.pairable)
    let answers := match his with | some q => !q.on && q.mate == g.core && q.dir == (dir + 2) % 4 | none => false
    if !fit || !free then
      change (fun s =>
        let s1 := (s.modMe (fun x => x.setP d false)).setBlk g .none
        let s2 := if fit then s1.modMyCore (fun y => { y with pair := none }) else s1
        (if answers then s2.refusePair m else s2).advance h)
    else if answers then do
      let y ← look (fun s => s.core m)
      match y.pairAsker with
      | some j => do
        let e := match his with | some q => q.pd | none => 0
        let ok := y.pairable
        change (fun s =>
          let s1 := if ok then
              (s.modMyCore (fun y => { y with pair := some { dir := dir, mate := m, on := true, bye := false, pd := d } })).modCore m
                (fun y => { y with pair := y.pair.map (fun q => { q with on := true }) })
            else (s.modMyCore (fun y => { y with pair := none })).modCore m (fun y => { y with pair := none })
          let s2 := s1.finishMain m j (some (e, ok))
          ((s2.modMe (fun x => x.setP d ok)).setBlk g .none).advance h)
      | none => do
        change (fun s => (s.hints h).setBlk g .pairing)
    else
      change (fun s =>
        (s.modMyCore (fun y => { y with pair := some { dir := dir, mate := m, on := false, bye := false, pd := d } })).hints h
          |> fun t => t.setBlk g .pairing)) s

/-- The seat whose main strand waits in CHKP or CHKX, its handler not running. -/
def State.pairSeat (s : State) (c : Nat) (b : Blk) : Option Nat :=
  (upto 4).find? (fun k => (s.seat c k).occ == .thread && (s.seat c k).main.blk == b)

/-- CHKP_TIMEOUT: the neighbour has not issued its CHKP within 65,536 cycles (R363). -/
def execChkpTimeout (c : Nat) (s : State) : Out :=
  match (s.core c).pair, s.pairSeat c .pairing with
  | some p, some k =>
    if p.on then .next s
    else .next ((s.modCore c (fun y => { y with pair := none })).finishMain c k (some (p.pd, false)))
  | _, _ => .next s

/-- CHKX: the pair ends when both threads have issued it (R363). -/
def execChkx (h : Head) (s : State) : Out :=
  leave h (do
    let g ← look State.cur
    let p ← look (fun s => s.myCore.pair)
    match p with
    | none => raise .operand 0 0
    | some p =>
      if !p.on then raise .operand 0 0
      else do
        let q ← look (fun s => (s.core p.mate).pair)
        let j ← look (fun s => s.pairSeat p.mate .unpairing)
        match q, j with
        | some q, some j =>
          if q.bye then
            change (fun s =>
              let s1 := (s.modMyCore (fun y => { y with pair := none })).modCore p.mate (fun y => { y with pair := none })
              ((s1.finishMain p.mate j none).setBlk g .none).advance h)
          else raise .operand 0 0
        | _, _ =>
          change (fun s =>
            ((s.modMyCore (fun y => { y with pair := some { p with bye := true } })).hints h).setBlk g .unpairing)) s

/-- CHKX_TIMEOUT: the partner has issued no CHKX within 65,536 cycles: both cores take MISMATCH (R210, R363). -/
def execChkxTimeout (c : Nat) (s : State) : Out :=
  match (s.core c).pair, s.pairSeat c .unpairing with
  | some p, some k =>
    let mate := (s.core p.mate).onlySeat
    let free := match mate with | some j => !(s.seat p.mate j).hnd && (s.seat p.mate j).topFull | none => false
    if !p.on ∨ !p.bye ∨ (s.seat c k).hnd ∨ !free then .next s
    else
      let s1 := s.modCore c (fun y => { y with pair := some { p with bye := false } })
      let s2 := s1.setBlk { core := c, seat := k } .none
      .next { { s2 with cur := { core := c, seat := k } }.mismatch c p.mate 0 0 with cur := s.cur }
  | _, _ => .next s

/-! ### Gangs -/

/-- Cores of a gang's rectangle, none where it leaves the die or the virtual device (R25, R364). -/
def State.rectangle (s : State) (vd l w ht : Nat) : Option (List Nat) :=
  let cs := (upto ht).flatMap (fun b => (upto w).map (fun a => l + a + 128 * b))
  if decide (l % 128 + w ≤ 128) && cs.all (fun n => s.holdsCore vd n && s.mapped n && dieOf n == dieOf l) then some cs else none

/-- The FOLLOW in which a seat's main strand waits, held by its handler or not: leader, shape, predicate. -/
def Seat.asks (x : Seat) : Option (Nat × Nat × Nat × Nat) :=
  match (match x.held with | some h => h.mblk | none => x.main.blk) with
  | .following l w h pd => some (l, w, h, pd)
  | _ => none

/-- FOLLOW of a thread completes with its predicate; a handler cannot issue it (R364). -/
def State.finishFollow (s : State) (n k : Nat) (v : Bool) : State :=
  s.finish { core := n, seat := k } none ((s.seat n k).asks.map (fun q => (q.2.2.2, v)))

/-- The seats of a core whose threads wait for a gang of a leader. -/
def Core.askers (x : Core) (l : Nat) : List Nat :=
  (upto 4).filter (fun k => (x.seat k).occ == .thread && (match (x.seat k).asks with | some q => q.1 == l | none => false))

/-- Refuse a gang: every thread of the rectangle that has issued FOLLOW goes on with pD := 0 (R364). -/
def State.refuseGang (s : State) (l : Nat) (cs : List Nat) : State :=
  cs.foldl (fun s n => ((s.core n).askers l).foldl (fun s k => s.finishFollow n k false) s) s

/-- The seat of a core that joins a gang of a leader and a shape, its thread running (R364). -/
def Core.joins (x : Core) (l w h : Nat) : Option Nat :=
  (upto 4).find? (fun k => !x.seatStopped k && (x.seat k).held.isNone &&
    (match (x.seat k).asks with | some (m, a, b, _) => m == l && a == w && b == h | none => false))

/-- A core has no place in a gang of that leader and shape: it is in a gang or a pair, or names another shape (R364). -/
def Core.clashes (x : Core) (l w h : Nat) : Bool :=
  x.gang.isSome || (match x.pair with | some p => p.on | none => false) ||
    (x.askers l).any (fun k => match (x.seat k).asks with | some (_, a, b, _) => a != w || b != h | none => false)

/-- Forwarding begins (R25, R364). -/
def State.startGang (s : State) (l w h : Nat) (cs : List Nat) : State :=
  cs.foldl (fun s n =>
    match (s.core n).joins l w h with
    | some k =>
      let s1 := s.finishFollow n k true
      let s2 := s1.modSeat n k (fun t => { t with lead := n == l, gang := n != l })
      s2.modCore n (fun x => { x with gang := some {
        leader := l, w := w, h := h, seat := k, gdone := false, ret := (s2.seat n k).main.pc } })
    | none => s) s

/-- Cores of the rectangles that threads waiting for a gang of leader l name with another shape and in which core n lies (R364). -/
def State.otherShapes (s : State) (l w h n : Nat) : List Nat :=
  s.cores.flatMap (fun (_, x) => (x.askers l).flatMap (fun k => match (x.seat k).asks with
    | some (_, a, b, _) =>
      if a = w ∧ b = h then [] else ((s.rectangle (x.seat k).vdev l a b).filter (fun cs => cs.contains n)).getD []
    | none => []))

/-- FOLLOW: the gang has one column more than WM1 says and one row more than HM1. A thread outside the rectangle that it
names is refused (R25, R364; log 35). A member that names another shape ends the request of every rectangle in which it lies
(R364). -/
def execFollow (h : Head) (wm1 hm1 : Nat) (d : Nat) (a : Src) (s : State) : Out :=
  let w := wm1 + 1
  let ht := hm1 + 1
  leave h (do
    let x ← me
    let g ← look State.cur
    need (x.depth == 0 && !x.hnd) 0 x.dspWord
    let l ← readN64 2 a
    let rect ← look (fun s => s.rectangle x.vdev l w ht)
    let refuse (cs : List Nat) : M Unit := change (fun s =>
      let s1 := (s.setBlk g .none).refuseGang l cs
      ((s1.modMe (fun x => x.setP d false)).advance h))
    let others ← look (fun s => s.otherShapes l w ht g.core)
    match rect with
    | none => refuse others
    | some cs => do
      let clash ← look (fun s => cs.any (fun n => (s.core n).clashes l w ht))
      if !cs.contains g.core then refuse others
      else if clash || !others.isEmpty then refuse (cs ++ others)
      else do
        change (fun s => (s.hints h).setBlk g (.following l w ht d))
        let all ← look (fun s => cs.all (fun n => ((s.core n).joins l w ht).isSome))
        if all then change (fun s => s.startGang l w ht cs) else pure ()) s

/-- UNFOLLOW ends the gang (R25, R364). -/
def execUnfollow (h : Head) (s : State) : Out :=
  leave h (do
    let x ← me
    need x.lead 0 0
    change (fun s => (s.advance h).endGang s.cur.core)) s

/-! ### CAPR -/

/-- Capability words of the part: ID, NEXT, DATA (R196). -/
def State.capability (s : State) (i : Nat) : Nat :=
  let retired := (s.route.filter (fun (_, e) => e.getLsbD 31)).length + (s.lpt.filter (fun (_, e) => !e.getLsbD 15)).length
  let fmts := [1, 2, 3, 4, 5, 6, 7, 8, 9, 0xA, 0xB, 0xC, 0xD, 0xE, 0x10, 0x11, 0x18, 0x19, 0x1A].foldl (fun n f => n + 2 ^ (f - 1)) 0
  let cap (next data : Nat) : Nat := (i + 1) + 2 ^ 16 + next * 2 ^ 24 + data * 2 ^ 36
  if i = 0 then cap 1 (nCores + retired * 2 ^ 14)
  else if i = 1 then cap 2 fmts
  else if i = 2 then cap 3 (4 + 4 * 2 ^ 4)
  else if i = 3 then cap 4 (4096 + 16 * 2 ^ 16)
  else if i = 4 then cap 5 0xF
  else if i = 5 then cap 6 (256 + 40 * 2 ^ 16)
  else if i = 6 then cap 0 1
  else 0

def execCapr (h : Head) (d : Nat) (a : Src) (s : State) : Out :=
  issue h (do
    let i ← readN64 2 a
    let v ← look (fun s => s.capability i)
    writeScal d (BitVec.ofNat 64 v)) s

/-! ### SIGCORE -/

/-- The core that SIGCORE names (R366). -/
def sigTarget (a : Src) : M Nat := do
  let x ← me
  if x.curdom ≠ 0 then raise .privilege 0 0 else pure ()
  let n ← readN64 2 a
  let mapped ← look (fun s => s.mapped n)
  if !mapped then raise .address 2 n else pure ()
  let held ← look (fun s => s.holdsCore x.vdev n)
  need held 2 n
  pure n

/-- SIGCORE.pre (R204, R366); a gang is taken at one instruction boundary (R26). -/
def execSigcorePre (h : Head) (pst : Nat) (a : Src) (s : State) : Out :=
  leave h (do
    let n ← sigTarget a
    writeP pst true
    change (fun s => (s.advance h).preempt n .sigcore)) s

/-- The bound of R173 on LIMIT: by the SAVESZ of the launch that LID names; 64 where it names none (log 100). -/
def State.limitFor (s : State) (vd lid : Nat) : Nat :=
  match s.launch vd lid with
  | some l => limitOf l.rcd.savesz
  | none => 64

/-- A spawn descriptor keeps its limits (R173, R366). -/
def spawnOk (s : State) (vd : Nat) (b : List Byte) : Bool :=
  decide (numAt b 0 8 < 2 ^ 45) && decide (numAt b 0xA 1 < 4) &&
    decide (numAt b 0xB 1 ≤ s.limitFor vd (numAt b 0xC 4)) && s.domLive vd (numAt b 0x38 2) &&
    numAt b 0x3A 6 == 0

/-- SIGCORE.spawn (R74, R366). -/
def execSigcoreSpawn (h : Head) (pst : Nat) (a b : Src) (s : State) : Out :=
  issue h (do
    let n ← sigTarget a
    let va ← readN64 3 b
    need (va % 64 == 0) 3 va
    let x ← me
    let bs ← seatRead { vdev := x.vdev, dom := 0, win := none } va 64
    let ok ← look (fun s => spawnOk s x.vdev bs)
    need ok 3 va
    let k := numAt bs 0xA 1
    let taken ← look (fun s => (s.seat n k).occ == .thread)
    if taken then writeP pst false
    else do
      -- LAUNCH names the launch's queue, as the records that the thread pushes will (R83; log 78)
      let q ← look (fun s => ((s.launch x.vdev (numAt bs 0xC 4)).map (fun l => l.queue)).getD 0)
      change (fun s => s.startThread n k {
        pc := Pc.ofWord (numAt bs 0 8), segb := numAt bs 8 2, vdev := x.vdev, dom := numAt bs 0x38 2, lid := numAt bs 0xC 4
        queue := q, limit := numAt bs 0xB 1, image := numAt bs 0x10 8
        args := (upto 4).map (fun i => BitVec.ofNat 64 (numAt bs (0x18 + 8 * i) 8)) })
      writeP pst true) s

/-- The saved thread that an image address names on a core (R366). -/
def State.savedImage (s : State) (vd n va : Nat) : Option SavedImage :=
  match (s.vd vd).saved.find? (fun i => i.core == n && i.image == va) with
  | some i => some i
  | none => ((upto 4).find? (fun k => (s.seat n k).vdev == vd && (s.seat n k).image == va)).map (fun k =>
      let t := s.seat n k
      { id := 4 + s.fresh, core := n, seat := k, image := va, dom := t.basedom, lid := t.lid, cur := t.basedom
        queue := t.queue })

/-- SIGCORE.res (R205, R366). -/
def execSigcoreRes (h : Head) (pst : Nat) (a b : Src) (s : State) : Out :=
  leave h (do
    let n ← sigTarget a
    let va ← readN64 3 b
    let x ← me
    let i ← look (fun s => s.savedImage x.vdev n va)
    match i with
    | none => do writeP pst false; change (fun s => s.advance h)
    | some i => do
      let bad ← look (fun s => s.imgTaken i || (s.seat i.core i.seat).seq != .none || (s.core n).halted ||
        (match s.istate x.vdev i with | some v => v != 1 | none => false))
      writeP pst (!bad)
      change (fun s =>
        let s1 := s.advance h
        if bad then s1
        else
          let s2 := if (s1.vd x.vdev).saved.contains i then s1
            else { s1.modVd x.vdev (fun v => { v with saved := v.saved ++ [i] }) with fresh := s1.fresh + 1 }
          s2.restoreSeat x.vdev i)) s

end Sys2Proof.Machine
end

