-- ==== Sys2Proof/Machine/Dispatcher.lean ====
section
/-! DEFINITION. The launch dispatcher: launch queues and their segments (R132 to R135), the choice of a launch (R35, R137,
R391), its start and completion (R36, R37), queue enable and kill (R394, R395), and the Regulator (R166, R167). -/
namespace Sys2Proof.Machine

/-- The queue exists: its virtual device is active and has that many (R132, R168). -/
def State.queueIs (s : State) (vd q : Nat) : Bool := (s.quota vd).active && decide (q < (s.quota vd).nqueue)

/-- The queue's registers can be written: a device that is not active has those of all 64 (R132, R388; log 60). -/
def State.queueRegs (s : State) (vd q : Nat) : Bool := decide (q < 64) && (!(s.quota vd).active || decide (q < (s.quota vd).nqueue))

/-- TotalVFs of the SR-IOV capability: function 0 is the physical one, virtual function n is virtual device n (R388). -/
def totalVfs : Nat := 15

/-- The host's traffic to a function is performed: its IDE stream is secure (R388, R402). -/
def State.portOpen (s : State) (vd : Nat) : Bool := decide (vd ≤ totalVfs) && (s.vd vd).ide

/-! ### Segments -/

/-- The accessor by which the dispatcher reaches a queue's memory (R394). -/
def State.qWho (s : State) (vd q : Nat) : Who := { vdev := vd, dom := (s.queue vd q).qown, win := none }

/-- Event 0x06 and QSTATE := ERROR (R133, R134). -/
def State.rejectQueue (s : State) (vd q seq reason : Nat) : State :=
  (s.modQueue vd q (fun x => { x with state := .error })).postEvent vd (event 0 6 q seq reason)

/-- Tag of a segment (R133). -/
def State.segTag (s : State) (key q seq : Nat) (b : List Byte) : Bool :=
  let k := s.key key
  k.kstate == 1 && k.use == 1 &&
    Config.gmac key k.kgen (BitVec.ofNat 96 (q * 2 ^ 90 + seq)) (b.take 0xFF0) == BitVec.ofNat 128 (numAt b 0xFF0 16)

/-- The segment of number n in the ring, as the dispatcher reads it (R133). -/
def segment (vd q n : Nat) : M (List Byte) := do
  let x ← look (fun s => s.queue vd q)
  let w ← look (fun s => s.qWho vd q)
  unitRead none w ((x.qbase * 4096 + 4096 * (n % x.qsize)) % 2 ^ 64) 4096

/-- Body length of a command, in units of 8 bytes (R134); none for an undefined OP. -/
def cmdLen (op : Nat) : Option Nat :=
  if op = 0 then some 0 else if op = 1 then some 16 else if op = 2 then some 4 else if op = 3 ∨ op = 4 then some 1 else none

/-- The command at an offset keeps R134; a COPY of no byte or of more than 2^32 does not (log 117). -/
def cmdOk (nq : Nat) (b : List Byte) (off : Nat) : Bool :=
  let op := numAt b off 1
  let len := numAt b (off + 1) 2
  cmdLen op == some len && decide (off + 8 + 8 * len ≤ 0xFE8) &&
    (if op = 2 then decide (1 ≤ numAt b (off + 0x18) 8) && decide (numAt b (off + 0x18) 8 ≤ 2 ^ 32)
     else if op = 4 then (let k := numAt b (off + 15) 1; k == 255 || selOk nq k)
     else true)

/-- Bring a running queue to its next command: take the next segment where one is due, and reject what R133 and R134 reject.
A segment that cannot be read is rejected like one out of sequence. -/
def State.settleQueue (s : State) (vd q : Nat) : State :=
  let x := s.queue vd q
  if x.state ≠ .run ∨ x.copy.isSome then s
  else
    let s1 :=
      if x.seg.isSome ∨ x.qget = x.qput then s
      else match segment vd q x.qget s with
        | .ok b t =>
          if numAt b 0xFE8 8 ≠ x.qseq then t.rejectQueue vd q (numAt b 0xFE8 8) 1
          else if !t.segTag x.qkey q x.qseq b then t.rejectQueue vd q x.qseq 2
          else t.modQueue vd q (fun y => { y with seg := some b, off := 0, qseq := (x.qseq + 1) % 2 ^ 64 })
        | .error .wait _ => s
        | .error .waitAt t => t
        | .error _ _ => s.rejectQueue vd q x.qseq 1
    let y := s1.queue vd q
    match y.seg with
    | some b =>
      if y.state = .run ∧ !cmdOk (s1.quota vd).nqueue b y.off then s1.rejectQueue vd q (numAt b 0xFE8 8) 3 else s1
    | none => s1

/-- DOORBELL: a host write of QPUT (R132, R133). -/
def execDoorbell (vd q : Nat) (put : BitVec 32) (s : State) : Out :=
  let x := s.queue vd q
  if !s.portOpen vd ∨ !s.queueIs vd q ∨ x.state ≠ .run then .next s
  else
    let s1 := s.modQueue vd q (fun x => { x with qput := put.toNat })
    if x.qsize < (put.toNat + 2 ^ 32 - x.qget) % 2 ^ 32 then .next (s1.modQueue vd q (fun x => { x with state := .error }))
    else .next (s1.settleQueue vd q)

/-- The next command of a queue, if it has this OP and no COPY runs: the segment and the command's offset. -/
def State.command (s : State) (vd q op : Nat) : Option (List Byte × Nat) :=
  let x := s.queue vd q
  match x.seg with
  | some b => if s.queueIs vd q && x.state == .run && x.copy.isNone && numAt b x.off 1 == op then some (b, x.off) else none
  | none => none

/-- The queue goes on after the command at its head. -/
def State.nextCommand (s : State) (vd q len : Nat) : State :=
  (s.modQueue vd q (fun x => { x with off := x.off + 8 + 8 * len })).settleQueue vd q

/-- Every launch of the queue that has been accepted has started (R135). -/
def State.allStarted (s : State) (vd q : Nat) : Bool :=
  s.launches.all (fun l => l.vdev != vd || l.queue != q || l.started)

/-- QCMD_END: the next segment follows (R134). -/
def execQcmdEnd (vd q : Nat) (s : State) : Out :=
  let s := s.settleQueue vd q
  match s.command vd q 0 with
  | some _ =>
    .next ((s.modQueue vd q (fun x => { x with qget := (x.qget + 1) % 2 ^ 32, seg := none, off := 0 })).settleQueue vd q)
  | none => .next s

/-- QCMD_LAUNCH: a launch record is submitted (R33, R34, R134). -/
def execQcmdLaunch (vd q : Nat) (s : State) : Out :=
  let s := s.settleQueue vd q
  match s.command vd q 1 with
  | some (b, off) =>
    let x := s.queue vd q
    let l : Launch :=
      { lid := 0, vdev := vd, queue := q, base := x.qown, rcd := LRec.ofBytes ((b.drop (off + 8)).take 128)
        addr := (x.qbase * 4096 + 4096 * (x.qget % x.qsize) + off + 8) % 2 ^ 64 }
    match submit l s with
    | .ok _ t => .next (t.nextCommand vd q 16)
    | .error .waitAt t => .next t
    | .error _ _ => .next s
  | none => .next s

/-- QCMD_COPY: a COPY starts once every earlier launch has (R134, R135). -/
def execQcmdCopy (vd q : Nat) (s : State) : Out :=
  let s := s.settleQueue vd q
  match s.command vd q 2 with
  | some (b, off) =>
    if s.allStarted vd q then
      let c : QCopy :=
        { src := numAt b (off + 8) 8, dst := numAt b (off + 16) 8, left := numAt b (off + 24) 8, seq := numAt b 0xFE8 8 }
      .next ((s.modQueue vd q (fun x => { x with copy := some c })).nextCommand vd q 4)
    else .next s
  | none => .next s

/-- QCMD_SIGNAL: the value is written to QTL (R134, R190). -/
def execQcmdSignal (vd q : Nat) (s : State) : Out :=
  let s := s.settleQueue vd q
  match s.command vd q 3 with
  | some (b, off) =>
    if s.allStarted vd q then .next ((s.writeQtl vd q (numAt b (off + 8) 7)).nextCommand vd q 1) else .next s
  | none => .next s

/-- QCMD_WAIT: the queue goes on once the timeline has reached the value (R134, R188). -/
def execQcmdWait (vd q : Nat) (s : State) : Out :=
  let s := s.settleQueue vd q
  match s.command vd q 4 with
  | some (b, off) =>
    let sel := numAt b (off + 15) 1
    if sel = 255 ∨ tlMet (s.selTl vd sel) (numAt b (off + 8) 7) then .next (s.nextCommand vd q 1) else .next s
  | none => .next s

/-- COPY_COMMAND_COMPLETE: a part of a COPY that crosses no 4 KiB boundary is copied; the last one completes it, a fault or
poison ends it (R134). -/
def execCopyCommandComplete (vd q : Nat) (s : State) : Out :=
  match (s.queue vd q).copy with
  | none => .next s
  | some c =>
    let n := min c.left (min (4096 - c.src % 4096) (4096 - c.dst % 4096))
    let w := s.qWho vd q
    let part : M Unit := do
      let b ← unitRead none w c.src n
      unitWrite none w c.dst b
    match part s with
    | .ok _ t =>
      if c.left ≤ n then .next ((t.modQueue vd q (fun x => { x with copy := none })).settleQueue vd q)
      else .next (t.modQueue vd q (fun x => { x with
        copy := some { c with src := (c.src + n) % 2 ^ 64, dst := (c.dst + n) % 2 ^ 64, left := c.left - n } }))
    | .error .wait _ => .next s
    | .error .waitAt t => .next t
    | .error _ _ => .next ((s.modQueue vd q (fun x => { x with copy := none })).rejectQueue vd q c.seq 4)

/-! ### The choice of a launch -/

/-- The queue-order wait of a launch is met (R135). -/
def orderMet (l : Launch) : List Launch → Bool
  | [] => true
  | m :: ms => if m.lid = l.lid then true else (m.vdev != l.vdev || m.queue != l.queue || m.started) && orderMet l ms

/-- Record the time at which launches' waits have been met (R137). -/
def State.noteMet (s : State) : State :=
  { s with launches := s.launches.map (fun l =>
      if l.met.isNone && !l.started && s.waitsMet l && orderMet l s.launches && (s.queue l.vdev l.queue).copy.isNone then
        { l with met := some s.modl.rclk } else l) }

/-- Effective priority (R137). -/
def State.effPri (s : State) (l : Launch) : Nat :=
  min 7 ((s.queue l.vdev l.queue).qpri + (s.modl.rclk - l.met.getD s.modl.rclk) / 1000000)

/-- Free seats of a core, less those that start messages on their way will take (R35). -/
def State.freeSeats (s : State) (c : Nat) : Nat :=
  ((upto 4).filter (fun k => (s.seat c k).occ == .free)).length -
    (s.launches.foldl (fun n l => if l.starts.contains c then n + l.rcd.seats else n) 0)

/-- A core can take threads: its row is the device's, it is mapped, and neither halted, pre-empted, retired nor in its
image. -/
def State.coreOpen (s : State) (vd c : Nat) : Bool :=
  let x := s.core c
  s.holdsCore vd c && s.mapped c && !x.halted && x.pre.isNone && !x.retiring && !(s.vd vd).cores.any (fun (n, _) => n == c)

/-- Every core of the set has SEATS free seats (R35). -/
def State.seatsFree (s : State) (l : Launch) : Bool :=
  (s.coreSet l.vdev l.rcd).all (fun c => s.coreOpen l.vdev c && decide (l.rcd.seats ≤ s.freeSeats c))

/-- `l` goes before `m`: by effective priority, equal ones round-robin by queue number (R137). -/
def State.ahead (s : State) (l m : Launch) : Bool :=
  let rr (x : Launch) : Nat := (x.queue + 63 - (s.vd x.vdev).rrq) % 64
  decide (s.effPri m < s.effPri l) || (s.effPri m == s.effPri l && decide (rr l < rr m))

/-- Insert a launch into a list in the order of `ahead`. -/
def State.rank (s : State) (l : Launch) : List Launch → List Launch
  | [] => [l]
  | m :: ms => if s.ahead l m then l :: m :: ms else m :: s.rank l ms

/-- The waiting launches of a device whose waits are met, in the dispatcher's order. A Regulator record that has entered
ahead of a launch holds it again (R135, R136). -/
def State.candidates (s : State) (vd : Nat) : List Launch :=
  (s.launches.filter (fun l => l.vdev == vd && !l.started && l.met.isSome && orderMet l s.launches)).foldl (fun r l => s.rank l r) []

/-- The launch to start: the first in order, or, while it waits for seats, the first other one whose cores lie outside its
set (R35). -/
def State.chosen (s : State) (vd : Nat) : Option Launch :=
  match s.candidates vd with
  | [] => none
  | t :: ls =>
    if s.seatsFree t then some t
    else
      let set := s.coreSet vd t.rcd
      ls.find? (fun l => s.seatsFree l && (s.coreSet vd l.rcd).all (fun c => !set.contains c))

/-- The device's launches may start (R142, R392, R396, R408). -/
def State.mayStart (s : State) (vd : Nat) : Bool :=
  let v := s.vd vd
  v.heldEv.isEmpty && !v.dlthr && !v.hold && s.inTurn vd

/-! ### Start -/

/-- Granules that bytes touch. -/
def granules (off len : Nat) : List Nat :=
  if len = 0 then [] else List.range' (off / 4096) ((off + len - 1) / 4096 - off / 4096 + 1)

/-- A granule's entry at a launch's start: code, or local data (R36). PIN stays. -/
def launchEntry (vd dom : Nat) (code : Bool) (old : BitVec 32) : BitVec 32 :=
  let keep := old &&& 0x0000043F
  keep ||| BitVec.ofNat 32 (vd * 2 ^ 28 + dom * 2 ^ 12 + (if code then 0xB40 else 0x8C0))

/-- Deliver bytes to local memory of one core and mark their granules (R36). -/
def State.deliver (s : State) (l : Launch) (code : Bool) (off : Nat) (b : List Byte) (c : Nat) : State :=
  let s1 := s.locWrite c off b
  (granules off b.length).foldl (fun s g =>
    s.modCore c (fun x => { x with lrt := mapPut g (launchEntry l.vdev l.base code (s.lrtEntry c g)) x.lrt })) s1

/-- Start a launch: code, local data, the overflow descriptor, then the start messages (R36, R124). Answers the reason of a
refusal, 0 for none. -/
def startLaunch (l : Launch) : M Nat := do
  let r := l.rcd
  let w : Who := { vdev := l.vdev, dom := l.base, win := none }
  let set ← look (fun s => s.coreSet l.vdev r)
  let code ← attempt (unitRead none w r.codeaddr r.codeLen)
  match code with
  | .error _ => pure 8
  | .ok b => do
    change (fun s => set.foldl (fun s c => s.deliver l true r.codeoff b c) s)
    let data ← attempt (unitRead none w ((r.codeaddr + r.codeLen) % 2 ^ 64) r.ldsize)
    match data with
    | .error _ => pure 8
    | .ok b => do
      change (fun s => set.foldl (fun s c => s.deliver l false r.ldloc b c) s)
      let z ← traps (unitWrite none w r.savebase (zeros 32))
      if z then pure 7
      else do
        let ps ← unitPlaces none w r.savebase 32 .w true
        change (fun s => s.setLaunch { l with started := true, starts := set, list := ps })
        pure 0

/-- The device that the dispatcher visits next (R391). -/
def State.nextVisit (s : State) : Option Nat :=
  let act := (upto 16).filter (fun v => (s.quota v).active)
  match act.find? (fun v => decide (s.modl.lastVd < v)) with
  | some v => some v
  | none => act.head?

/-- DISPATCH_VISIT: credit is given, and the device's first launch starts (R391). -/
def execDispatchVisit (vd : Nat) (s : State) : Out :=
  if s.nextVisit ≠ some vd then .next s
  else
    let w : Int := (s.quota vd).weight
    let s1 := s.noteMet.modVd vd (fun v => { v with cr := min (v.cr + w * 2 ^ 24) (w * 2 ^ 26) })
    let s2 := s1.modModule (fun m => { m with lastVd := vd })
    if (s2.vd vd).cr ≤ 0 ∨ !s2.mayStart vd then .next s2
    else match s2.chosen vd with
      | none => .next s2
      | some l =>
        match startLaunch l s2 with
        | .ok 0 t => .next (t.modVd vd (fun v => { v with rrq := l.queue }))
        | .ok n t => .next (t.refuse l n)
        | .error .waitAt t => .next t
        | .error _ _ => .next s2

/-- A launch's thread j of a core (R36). -/
def Launch.start (l : Launch) (rank j : Nat) : Start :=
  { pc := ⟨l.rcd.codeoff / 32, l.rcd.entry⟩, segb := l.rcd.segbound % 2 ^ 16, vdev := l.vdev, dom := l.base, lid := l.lid
    queue := l.queue, limit := limitOf l.rcd.savesz
    image := (l.rcd.savebase + 64 + 64 * l.rcd.savesz * (rank * l.rcd.seats + j)) % 2 ^ 64
    args := [l.rcd.arg, BitVec.ofNat 64 rank, BitVec.ofNat 64 j, BitVec.ofNat 64 (l.rcd.setw * l.rcd.seth)] }

/-- START_MESSAGE: the core takes its lowest free seats and starts one thread on each (R36). -/
def execStartMessage (lid c : Nat) (s : State) : Out :=
  match s.launches.find? (fun l => l.lid == lid && l.starts.contains c) with
  | none => .next s
  | some l =>
    let free := (upto 4).filter (fun k => (s.seat c k).occ == .free)
    if !s.coreOpen l.vdev c ∨ !s.inTurn l.vdev ∨ free.length < l.rcd.seats then .next s
    else
      let rank := (s.coreSet l.vdev l.rcd).idxOf c
      let s1 := s.modCore c (fun x => { x with ccache := x.ccache.filter (fun y => y.lid != lid) })
      let s2 := (List.zip (upto l.rcd.seats) free).foldl (fun s (j, k) =>
        let t := l.start rank j
        (s.startThread c k t).modSeat c k (fun x => { x with
          home := some { lid := lid, queue := l.queue, limit := t.limit, image := t.image } })) s1
      .next (s2.setLaunch { l with starts := l.starts.filter (fun n => n != c) })

/-! ### Completion -/

/-- Cores of a device as their core images hold them (R208). -/
def State.imagedCores (s : State) (vd : Nat) : List (Nat × Core) :=
  (s.vd vd).cores.filterMap (fun (c, a) =>
    match s.devRead 0 a coreImageLen, mapFind c (s.vd vd).cmisc with
    | some b, some m => some (c, ({} : Core).ofImage b m)
    | _, _ => none)

/-- A record of a launch. -/
def recOf (lid : Nat) (w : BitVec 256) : Bool := let t := Task.ofWord w; t.good && t.lid == lid

/-- The core holds a task of the launch (R37). -/
def Core.holdsTask (x : Core) (lid : Nat) : Bool :=
  x.records.any (recOf lid) || (match x.retSlot with | some w => recOf lid w | none => false)

/-- The launch's overflow list is empty. While a fault keeps the list from being read, its descriptor's bytes decide as they
stand where the start of the launch wrote them (R37, R124). -/
def State.listEmpty (s : State) (l : Launch) : Bool :=
  let d := match s.tryUnit (unitRead none { vdev := l.vdev, dom := l.base, win := none } l.rcd.savebase 32) with
    | some (d, _) => d
    | none => l.list.flatMap (fun (h, a, n) => s.homeRead h a n)
  numAt d 8 4 == 0 || numAt d 0x10 8 == numAt d 0x18 8

/-- A stream holds its launch back (R356). -/
def Stream.holds (x : Stream) (vd lid : Nat) : Bool :=
  x.vdev == vd && x.lid == lid && (x.st == .opened || (x.st == .ended && (!x.pendC.isEmpty || x.infl)))

/-- Every seat of the core that the launch holds is idle, its engine operations retired (R37). -/
def Core.idleFor (x : Core) (l : Launch) : Bool :=
  (upto 4).all (fun k => !(x.seat k).isOf l || ((x.seat k).occ == .idle && !x.opsOf k))

/-- Everything that R37 asks of a launch, on the cores and in their images. -/
def State.finished (s : State) (l : Launch) : Bool :=
  let set := s.coreSet l.vdev l.rcd
  let cores := s.cores ++ s.imagedCores l.vdev
  l.started && l.starts.isEmpty && cores.all (fun (_, x) => x.idleFor l && !x.holdsTask l.lid) &&
    !(s.vd l.vdev).saved.any (fun i => i.lid == l.lid) && s.listEmpty l &&
    s.streams.all (fun (_, x) => !x.holds l.vdev l.lid) &&
    !s.flight.any (fun a => a.vdev == l.vdev && set.contains a.core && a.pieces.any (fun p => p.sent))

/-- A slot's key on every core, of a launch. -/
def State.slotsOf (s : State) (vd lid : Nat) : List (Nat × Nat) :=
  s.cores.flatMap (fun (c, x) => (x.slots.filter (fun (_, l) => l.vdev == vd && l.lid == lid)).map (fun (y, _) => (c, y)))

/-- Streams of a launch become FREE (R356). -/
def State.endStreams (s : State) (vd lid : Nat) : State :=
  streamIds.foldl (fun s i =>
    let x := s.stream i
    if x.st ≠ .free ∧ x.vdev = vd ∧ x.lid = lid then s.freeStream i else s) s

/-- The sync slots that a launch's threads created are freed (R328). -/
def State.endSlots (s : State) (vd lid : Nat) : State :=
  (s.slotsOf vd lid).foldl (fun s (c, y) => s.freeSlotNow c y) s

/-- Seats that a launch holds without a thread become free (R37). -/
def State.endSeats (s : State) (vd lid : Nat) : State :=
  s.modCores (fun _ x => { x with seats := x.seats.map (fun t => t.given vd (fun n => n == lid)) })

/-- Inbox entries of a launch are discarded and counted, on cores and in core images (R127). -/
def State.endMail (s : State) (vd lid : Nat) : State :=
  let count (x : Core) : Nat := (x.inbox.filter (fun m => m.lid == lid)).length
  let s1 := s.modCores (fun c x =>
    if s.holdsCore vd c then ({ x with inbox := x.inbox.filter (fun m => m.lid != lid) }).discard (count x) else x)
  (s.imagedCores vd).foldl (fun s (c, x) => s.modCore c (fun y => y.discard (count x))) s1

/-- LAUNCH_COMPLETE: nothing of the launch is left: its seats, streams, slots and inbox entries go, and SIGNAL is written
(R37, R127, R328, R356). -/
def execLaunchComplete (lid : Nat) (s : State) : Out :=
  match s.launches.find? (fun l => l.lid == lid) with
  | none => .next s
  | some l =>
    if !s.finished l then .next s
    else
      let s1 := { s with launches := s.launches.filter (fun m => m.lid != lid) }
      let s2 := (((s1.endStreams l.vdev lid).endSlots l.vdev lid).endMail l.vdev lid).endSeats l.vdev lid
      let s3 := s2.writeQtl l.vdev l.queue l.rcd.signal
      .next (match l.child with | some (c, _) => s3.syncChild c | none => s3)

/-! ### Enable and kill -/

/-- QUEUE_ENABLE: a host write of RUN to QSTATE (R132, R394). -/
def execQueueEnable (vd q : Nat) (s : State) : Out :=
  let x := s.queue vd q
  if !s.portOpen vd ∨ !s.queueIs vd q ∨ x.state ≠ .idle then .next s
  else if !s.domLive vd x.qown then .next (s.modQueue vd q (fun x => { x with state := .error }))
  else .next ((s.modQueue vd q (fun x => { x with state := .run })).settleQueue vd q)

/-- SIGNAL values of the commands of a segment, from an offset (R395). -/
def signalsFrom (nq : Nat) (b : List Byte) : Nat → Nat → List Nat
  | 0, _ => []
  | n + 1, off =>
    if !cmdOk nq b off then []
    else
      let op := numAt b off 1
      if op = 0 then []
      else (if op = 3 then [numAt b (off + 8) 7] else []) ++ signalsFrom nq b n (off + 8 + 8 * numAt b (off + 1) 2)

/-- SIGNAL values of the segments that have not been accepted, while they pass R133 (R395). -/
def State.laterSignals (s : State) (vd q key qseq : Nat) : Nat → Nat → List Nat
  | 0, _ => []
  | n + 1, get =>
    match s.tryUnit (segment vd q get) with
    | some (b, _) =>
      if numAt b 0xFE8 8 = qseq % 2 ^ 64 ∧ s.segTag key q (qseq % 2 ^ 64) b then
        signalsFrom (s.quota vd).nqueue b 512 0 ++ s.laterSignals vd q key (qseq + 1) n (get + 1)
      else []
    | none => []

/-- SIGNAL values of the commands that have not been decoded (R395). -/
def State.undecoded (s : State) (vd q : Nat) : List Nat :=
  let x := s.queue vd q
  let left := (x.qput + 2 ^ 32 - x.qget) % 2 ^ 32
  match x.seg with
  | some b => signalsFrom (s.quota vd).nqueue b 512 x.off ++ s.laterSignals vd q x.qkey x.qseq (left - 1) (x.qget + 1)
  | none => s.laterSignals vd q x.qkey x.qseq left x.qget

/-- Write many values to QTL: it ends at the one furthest ahead of it (R190, R395). -/
def State.writeQtls (s : State) (vd q : Nat) (vs : List Nat) : State :=
  s.modQueue vd q (fun x =>
    let ds := (vs.map (fun w => (w % 2 ^ 56 + 2 ^ 56 - x.qtl) % 2 ^ 56)).filter (fun d => decide (d < 2 ^ 55))
    { x with qtl := (x.qtl + ds.foldl max 0) % 2 ^ 56 })

/-- A launch's overflow list is emptied: GET := PUT (R125). -/
def emptyGet (l : Launch) : M Unit := do
  let w : Who := { vdev := l.vdev, dom := l.base, win := none }
  let b ← unitRead none w (l.rcd.savebase + 0x10) 8
  unitWrite none w (l.rcd.savebase + 0x18) b

/-- The same, once nothing holds its accesses; a list that a fault keeps from being reached is left. -/
def State.emptyList (s : State) (l : Launch) : State := match emptyGet l s with | .ok _ t => t | .error _ _ => s

/-- An access to the overflow list of one of these launches must wait (R110, R115, R398): the state in which it is waited for. -/
def State.listsWait (s : State) (ls : List Launch) : Option State :=
  ls.findSome? (fun l => if !l.started then none else match emptyGet l s with
    | .error .wait _ => some s
    | .error .waitAt t => some t
    | _ => none)

/-- Cancel the operations of a thread that stands in its image: on its core, or in the core's image (R179, R183). -/
def State.cancelSaved (s : State) (vd : Nat) (i : SavedImage) : State :=
  let x := s.seat i.core i.seat
  if (s.vd vd).cores.any (fun (c, _) => c == i.core) then
    s.cancelImages vd (fun c o => c == i.core && o.seat == i.seat) (fun c o => c == i.core && o.seat == i.seat)
  else if x.occ = .thread ∧ !x.restoring then s
  else s.cancel i.core (fun o => o.seat == i.seat) (fun o => o.seat == i.seat)

/-- Kill one running launch, which has been removed from the list of launches: threads, images, streams, slots, seats,
overflow list (R183, R328, R356, R395). -/
def State.killLaunch (s : State) (l : Launch) : State :=
  let ts := (s.threads l.vdev).filter (fun (c, k) => (s.seat c k).lid == l.lid)
  let s1 := ts.foldl (fun s (c, k) => s.retire c k) s
  let (gone, left) := (s1.vd l.vdev).saved.partition (fun i => i.lid == l.lid)
  let s2 := (gone.foldl (fun s i => ((s.cancelSaved l.vdev i).dropWaits i.core i.id).leaveAll i.core i.id) s1).modVd l.vdev (fun v => { v with saved := left })
  let s3 := s2.modCores (fun _ x => (upto 4).foldl (fun (x : Core) k =>
    x.modSeat k (fun t => if t.vdev = l.vdev ∧ t.lid = l.lid ∧ t.restoring then { t.emptied .free with home := none } else t))
      (x.endXfer l.lid))
  (((s3.endStreams l.vdev l.lid).endSlots l.vdev l.lid).endSeats l.vdev l.lid).emptyList l

/-- Steps 1 to 4 of a queue-level kill (R395); the device's LDSTATE becomes IDLE (R384). -/
def State.killQueue (s : State) (vd q : Nat) : State :=
  let mine (l : Launch) : Bool := l.vdev == vd && l.queue == q
  let ls := s.launches.filter mine
  let sigs := ls.map (fun l => l.rcd.signal) ++ s.undecoded vd q
  let s1 := { s with launches := s.launches.filter (fun l => !mine l) }
  let s2 := s1.modQueue vd q (fun x => { x with state := .idle, seg := none, off := 0, copy := none })
  let s3 := (ls.filter (fun l => l.started)).foldl (fun s l => s.killLaunch l) s2
  let s4 := s3.modCores (fun c x =>
    if s.holdsCore vd c then x.purge (fun n => ls.any (fun l => l.lid == n)) else x)
  let s5 := ls.foldl (fun s l => match l.child with | some (c, _) => s.syncChild c | none => s) s4
  (s5.writeQtls vd q sigs).modVd vd (fun v => { v with loader := { v.loader with ldstate := 0, ldctl := false } })

/-- Step 5: QOWN is killed once its fence has drained (R179, R395). -/
def State.killOwner (s : State) (vd q : Nat) : State :=
  let d := (s.queue vd q).qown
  let done (s : State) : State := s.modQueue vd q (fun x => { x with qkstat := 2 })
  if (s.quota vd).dcap ≤ d ∨ s.dstate vd d = 0 then done s
  else if s.dstate vd d = 2 ∧ !(s.vd vd).fencing.contains d then done (s.revokeEnd vd d true)
  else
    let s1 := if (s.vd vd).fencing.contains d then s
      else (s.revoke vd d).modVd vd (fun v => { v with fencing := d :: v.fencing })
    if s1.fenceOpen vd d then s1 else done (s1.revokeEnd vd d true)

/-- A kill that has been accepted goes on: steps 1 to 4 once the overflow lists can be reached, then QOWN's kill, if it has been
asked for, as its fence drains (R125, R395). -/
def State.killOn (s : State) (vd q : Nat) : State :=
  let x := s.queue vd q
  match if x.qkleft then s.listsWait (s.launches.filter (fun l => l.vdev == vd && l.queue == q)) else none with
  | some t => t
  | none =>
    let s1 := if x.qkleft then (s.killQueue vd q).modQueue vd q (fun x => { x with qkleft := false }) else s
    if !x.qkdom then s1.modQueue vd q (fun x => { x with qkstat := 2 })
    else if s1.tablesHeld vd then s1
    else s1.killOwner vd q

/-- QUEUE_KILL: a write of GO to QKILL starts the kill; while it is BUSY the kill goes on with what had been asked (R394,
R395). -/
def execQueueKill (vd q : Nat) (domk : Bool) (s : State) : Out :=
  let x := s.queue vd q
  let asked := s.modQueue vd q (fun x => { x with qgo := true, qdomk := domk })
  if !s.queueRegs vd q then .next s
  else if x.qkstat = 1 then .next (s.killOn vd q)
  else if !s.portOpen vd then .next s
  else if domk ∧ x.qown = 0 then .next (asked.modQueue vd q (fun x => { x with qkstat := 3 }))
  else .next ((asked.modQueue vd q (fun x => { x with qkstat := 1, qkdom := domk, qkleft := true, state := .idle })).killOn vd q)

/-! ### The Regulator -/

/-- Regulator slot. -/
def State.reg (s : State) (n : Nat) : RegSlot := mapGet {} n s.regs

/-- The slot is due (R167). -/
def State.regDue (s : State) (r : RegSlot) : Bool :=
  r.arm && decide (r.next ≤ s.modl.rclk) && (r.infl == 0 || !s.launches.any (fun l => l.lid == r.infl))

/-- REGULATOR_FIRE: a slot that is due enqueues its record (R136, R167). -/
def execRegulatorFire (slot : Nat) (s : State) : Out :=
  let r := s.reg slot
  if 256 ≤ slot ∨ !s.regDue r then .next s
  else
    let k := if r.period < s.modl.rclk - r.next then (s.modl.rclk - r.next) / r.period else 0
    let ovr := min (r.rgovr + k) (2 ^ 32 - 1)
    let next := (r.next + k * r.period + r.period) % 2 ^ 64
    let s1 := if k = 0 then s else s.postEvent r.vdev (event 0 8 slot ovr 0)
    let set (s : State) (lid : Nat) : State :=
      { s with regs := mapPut slot { r with rgovr := ovr, next := next, infl := lid } s.regs }
    if !s1.queueIs r.vdev r.queue then .next (set s1 0)
    else
      let w := s1.qWho r.vdev r.queue
      let go : M (Option Nat) := do
        let b ← attempt (unitRead none w r.rcd 128)
        match b with
        | .error _ => do
          change (fun s => s.postEvent r.vdev (event 0 7 r.queue r.rcd 8))
          pure none
        | .ok b => do
          let n ← submit { lid := 0, vdev := r.vdev, queue := r.queue, base := w.dom, rcd := LRec.ofBytes b, addr := r.rcd
                           slot := some slot }
          pure (some n)
      match go s1 with
      | .ok n t => .next (set t (n.getD 0))
      | .error .waitAt t => .next { s with pulls := t.pulls }
      | .error _ _ => .next s

end Sys2Proof.Machine
end

