-- ==== Sys2Proof/Machine/Fynik.lean ====
section
/-! DEFINITION. The Fynik model: what a program's step may leave in memory (R382), and what the native image that the
translator gives must hold (R383, R386). -/
namespace Sys2Proof.Machine

/-- Memory as a Fynik program sees it. -/
abbrev FyMem := Nat → Byte

/-! ### Pieces of an access -/

/-- The naturally aligned pieces of 1, 2, 4 or 8 bytes of an access (R382). -/
def fyCut : Nat → Nat → Nat → List (Nat × Nat)
  | 0, _, _ => []
  | f + 1, a, n =>
    if n = 0 then []
    else
      let k := if a % 8 = 0 ∧ 8 ≤ n then 8 else if a % 4 = 0 ∧ 4 ≤ n then 4 else if a % 2 = 0 ∧ 2 ≤ n then 2 else 1
      (a, k) :: fyCut f (a + k) (n - k)

/-- The atomic pieces of an operation; an atomic acts on one granule. -/
def fyPieces : FyOp → List FyOp
  | .read a n q => (fyCut n a n).map (fun (b, k) => .read b k q)
  | .write a v q => (fyCut v.length a v.length).map (fun (b, k) => .write b ((v.drop (b - a)).take k) q)
  | o => [o]

/-- A piece of a unit's operation, with the bytes that it read. -/
structure FyEv where
  unit : Nat
  op   : FyOp
  got  : List Byte

/-- The bytes that a piece writes, at its address. -/
def FyEv.puts (e : FyEv) : Nat × List Byte :=
  match e.op with
  | .write a v _ => (a, v)
  | .atomic op a ty v _ => (a, leBytes (atomNew op ty (leNat e.got) v) (wOf ty / 8))
  | _ => (0, [])

/-- Address and length of what a piece reads. -/
def FyEv.takes (e : FyEv) : Nat × Nat :=
  match e.op with
  | .read a n _ => (a, n)
  | .atomic _ a ty _ _ => (a, wOf ty / 8)
  | _ => (0, 0)

/-- The byte that a piece writes at an address, the byte that it reads there. -/
def FyEv.put (e : FyEv) (a : Nat) : Option Byte := if e.puts.1 ≤ a then e.puts.2[a - e.puts.1]? else none

def FyEv.take (e : FyEv) (a : Nat) : Option Byte :=
  if e.takes.1 ≤ a ∧ a < e.takes.1 + e.takes.2 then e.got[a - e.takes.1]? else none

/-- Scope of the acquire or the release that a piece is. -/
def FyEv.acq (e : FyEv) : Option FyScope := match e.op with | .read _ _ q => q | _ => none
def FyEv.rel (e : FyEv) : Option FyScope := match e.op with | .write _ _ q => q | _ => none
def FyEv.fence (e : FyEv) : Option FyScope := match e.op with | .fence q => some q | _ => none

/-- Scope of the atomic that a piece is. -/
def FyEv.atom (e : FyEv) : Option FyScope := match e.op with | .atomic _ _ _ _ q => some q | _ => none

/-- A scope covers two units that run at these places, each a device and a core of it. -/
def fyCovers (q : Option FyScope) (p r : Nat × Nat) : Prop :=
  match q with
  | some .core => p = r
  | some .device => p.1 = r.1
  | some .fabric => True
  | _ => False

/-! ### A compute step -/

/-- `tr` is a run of unit `n` from its start to its end, after the values `vs`. -/
inductive FyFollows (u : FyUnit) (n : Nat) : List (List Byte) → List FyEv → Prop where
  | done (vs : List (List Byte)) : u.next vs = none → FyFollows u n vs []
  | step (vs : List (List Byte)) (o : FyOp) (es rest : List FyEv) : u.next vs = some o → es.map (fun e => e.op) = fyPieces o →
      (∀ e ∈ es, e.unit = n ∧ e.got.length = e.takes.2) → FyFollows u n (vs ++ [(es.map (fun e => e.got)).flatten]) rest →
      FyFollows u n vs (es ++ rest)

/-- Explicit order among the pieces of a step, by place in the trace, with the units at places `pl`: an acquire before what
follows it in its unit, what precedes a release or a fence before it, and a release before an acquire, or an atomic before an
atomic, that read what it wrote, where both scopes cover the two units (R382). -/
inductive FyBefore (pl : Nat → Nat × Nat) (tr : List FyEv) : Nat → Nat → Prop where
  | unit (i j : Nat) (e f : FyEv) : i < j → tr[i]? = some e → tr[j]? = some f → e.unit = f.unit →
      (e.acq.isSome ∨ e.fence.isSome ∨ f.rel.isSome ∨ f.fence.isSome) → FyBefore pl tr i j
  | sync (i j a : Nat) (e f : FyEv) : tr[i]? = some e → tr[j]? = some f → fyCovers e.rel (pl e.unit) (pl f.unit) →
      fyCovers f.acq (pl e.unit) (pl f.unit) → (e.put a).isSome → e.put a = f.take a → FyBefore pl tr i j
  | atom (i j a : Nat) (e f : FyEv) : tr[i]? = some e → tr[j]? = some f → fyCovers e.atom (pl e.unit) (pl f.unit) →
      fyCovers f.atom (pl e.unit) (pl f.unit) → (e.put a).isSome → e.put a = f.take a → i ≠ j → FyBefore pl tr i j
  | trans (i j k : Nat) : FyBefore pl tr i j → FyBefore pl tr j k → FyBefore pl tr i k

/-- A byte lies in declared regions. -/
def fyIn (rs : List (Nat × Nat)) (a : Nat) : Prop := ∃ r ∈ rs, r.1 ≤ a ∧ a < r.1 + r.2

/-- Units of the step conflict on the byte, or a unit goes outside its declared regions there (R382). -/
def fyClash (us : List FyUnit) (tr : List FyEv) (a : Nat) : Prop :=
  (∃ (m n : Nat) (u v : FyUnit), m ≠ n ∧ us[m]? = some u ∧ us[n]? = some v ∧ fyIn u.writes a ∧ (fyIn v.reads a ∨ fyIn v.writes a)) ∨
    ∃ (e : FyEv) (u : FyUnit), e ∈ tr ∧ us[e.unit]? = some u ∧
      (((e.put a).isSome ∧ ¬ fyIn u.writes a) ∨ ((e.take a).isSome ∧ ¬ fyIn u.reads a))

/-- A byte after the writes at these places of the trace. -/
def fyValue (tr : List FyEv) (m : FyMem) (js : List Nat) (a : Nat) : Byte :=
  (js.filterMap (fun j => (tr[j]?).bind (fun e => e.put a))).getLast?.getD (m a)

/-- On bytes without conflict a read returns its unit's own last write, else what earlier steps left, and the unit's last write
stays (R382). -/
def fyAlone (us : List FyUnit) (tr : List FyEv) (m m' : FyMem) : Prop :=
  (∀ i e a v, tr[i]? = some e → e.take a = some v → ¬ fyClash us tr a →
    v = (((tr.take i).filter (fun f => f.unit == e.unit)).filterMap (fun f => f.put a)).getLast?.getD (m a)) ∧
  ∀ a, ¬ fyClash us tr a → m' a = (tr.filterMap (fun f => f.put a)).getLast?.getD (m a)

/-- Where the pieces of the step conflict on an aligned 8-byte granule, its writing pieces have one order `js`, each whole, which
keeps the explicit order; a reading piece returns, whole, what some first part of them leaves, with those before it in explicit
order and without those after it; an atomic reads what the writes before it leave, but for the latest of units that its scope does
not cover; and the granule ends with what all of them leave (R382). -/
def fyGranule (pl : Nat → Nat × Nat) (us : List FyUnit) (tr : List FyEv) (m m' : FyMem) (g : Nat) : Prop :=
  ∃ js : List Nat, js.Nodup ∧ (∀ j, j ∈ js ↔ ∃ e, tr[j]? = some e ∧ ∃ a, a / 8 = g ∧ (e.put a).isSome) ∧
    (∀ i j, i ∈ js → j ∈ js → FyBefore pl tr i j → js.idxOf i < js.idxOf j) ∧
    (∀ i e, tr[i]? = some e → ∃ n, (∀ j ∈ js, FyBefore pl tr j i → j ∈ js.take n) ∧
      (∀ j ∈ js.take n, j ≠ i ∧ ¬ FyBefore pl tr i j) ∧
      (e.atom.isSome → i ∈ js → n ≤ js.idxOf i ∧
        ∀ j f, j ∈ (js.take (js.idxOf i)).drop n → tr[j]? = some f → ¬ fyCovers e.atom (pl e.unit) (pl f.unit)) ∧
      ∀ a v, a / 8 = g → fyClash us tr a → e.take a = some v → v = fyValue tr m (js.take n) a) ∧
    ∀ a, a / 8 = g → fyClash us tr a → m' a = fyValue tr m js a

/-- A compute step takes memory from `m` to `m'`: its units run from start to end, somewhere, in any order (R382). -/
def fyCompute (us : List FyUnit) (m m' : FyMem) : Prop :=
  ∃ (pl : Nat → Nat × Nat) (tr : List FyEv), (∀ e ∈ tr, e.unit < us.length) ∧
    (∀ n u, us[n]? = some u → FyFollows u n [] (tr.filter (fun e => e.unit == n))) ∧
    fyAlone us tr m m' ∧ ∀ g, fyGranule pl us tr m m' g

/-! ### A communication step -/

/-- `w` bits from bit `p` of memory. -/
def fyBits (m : FyMem) (p w : Nat) : Nat :=
  leNat ((List.range' (p / 8) ((p % 8 + w + 7) / 8)).map m) / 2 ^ (p % 8) % 2 ^ w

/-- One element's part in a communication step: source and destination bits, addition or not, conjugation, format. -/
structure FyPart where
  src : Nat
  dst : Nat
  add : Bool
  cj  : Bool
  fm  : Fmt
  deriving DecidableEq

/-- The elements that a transfer moves: those inside both tensors (R150, R305). -/
def fyParts (ts : List (List Byte)) (b : List Byte) : List FyPart :=
  let x := Xfer.ofBytes b
  match (ts[x.srcz]?).bind tensorOf, (ts[x.dstz]?).bind tensorOf with
  | some t1, some t2 =>
    if x.ok && x.fmtOk t1.fm t2.fm then
      (upto x.nrows).flatMap (fun r => (upto x.ncols).filterMap (fun j =>
        let p := coord x.sorg false r j
        let q := coord x.dorg x.tr r j
        if t1.inside p && t2.inside q then some ⟨t1.bitPos p, t2.bitPos q, x.op == 2, x.cj, t1.fm⟩ else none))
    else []
  | _, _ => []

/-- What a destination element may hold after parts have reached it in some order, each with its source as it stood before
the step or after it. -/
inductive FyPart.Gives (m m' : FyMem) : List FyPart → Nat → Nat → Prop where
  | done (v : Nat) : Gives m m' [] v v
  | step (p : FyPart) (ps : List FyPart) (v w : Nat) (n : FyMem) : n = m ∨ n = m' →
      Gives m m' ps (if p.add then addEl p.fm v (conjEl p.fm p.cj (fyBits n p.src (fmtWidth p.fm)))
        else conjEl p.fm p.cj (fyBits n p.src (fmtWidth p.fm))) w → Gives m m' (p :: ps) v w

/-- A communication step takes memory from `m` to `m'`; its transfers have no order among themselves (R382). Header bytes of
blocks go as R302 lays down and are not stated here. -/
def fyComm (tens : List (List Byte)) (ts : List (Nat × List Byte)) (m m' : FyMem) : Prop :=
  let ps := ts.flatMap (fun t => fyParts tens t.2)
  (∀ p ∈ ps, ∃ qs : List FyPart, qs.Perm (ps.filter (fun q => q.dst == p.dst)) ∧
    FyPart.Gives m m' qs (fyBits m p.dst (fmtWidth p.fm)) (fyBits m' p.dst (fmtWidth p.fm))) ∧
  ∀ b, (∀ p ∈ ps, ¬ isBlock p.fm ∧ (b < p.dst ∨ p.dst + fmtWidth p.fm ≤ b)) → fyBits m' b 1 = fyBits m b 1

/-! ### A program -/

/-- A step. -/
def fyStep (tens : List (List Byte)) (x : FyStep) (m m' : FyMem) : Prop :=
  match x with
  | .compute us => fyCompute us m m'
  | .comm ts => fyComm tens ts m m'

/-- Steps one after another: each begins when the one before has completed, and sees all its writes (R382). -/
inductive FyRuns (tens : List (List Byte)) : List FyStep → FyMem → FyMem → Prop where
  | done (m : FyMem) : FyRuns tens [] m m
  | step (x : FyStep) (xs : List FyStep) (m m1 m2 : FyMem) : fyStep tens x m m1 → FyRuns tens xs m1 m2 →
      FyRuns tens (x :: xs) m m2

/-- What a program entry may do to memory (R382). -/
def fyBehaves (e : FyEntry) (m m' : FyMem) : Prop := FyRuns e.tensors e.steps m m'

/-! ### Lowering -/

/-- Transfers of an entry with the number of their step: the transfer-table entries of that number (R151, R383). -/
def fyTransfers (e : FyEntry) : List (Nat × List Byte) :=
  let cs := e.steps.filterMap (fun x => match x with | .comm ts => some ts | .compute _ => none)
  (List.zip (upto cs.length) cs).flatMap (fun (n, ts) => ts.map (fun t => (n, t.2.drop 6)))

/-- The units of an entry. -/
def fyUnits (e : FyEntry) : List FyUnit :=
  e.steps.flatMap (fun x => match x with | .compute us => us | .comm _ => [])

/-- The ZIS forms of R383. -/
inductive FyForm where
  | lda | stl | atomic | fence (sc : Scope) (k : FenceKind) | sstep | task
  deriving DecidableEq

/-- The forms that a Fynik order becomes; an atomic acts at its home, within every scope (R323, R383). -/
def fyForms (o : FyOrd) (q : FyScope) : List FyForm :=
  match o, q with
  | .acquire, .unit => []
  | .release, .unit => []
  | .acquire, .fabric => [.lda, .fence .fab .acq]
  | .release, .fabric => [.fence .fab .rel, .stl]
  | .acquire, _ => [.lda]
  | .release, _ => [.stl]
  | .atomic, _ => [.atomic]
  | .fence, .unit => [.fence .seat .full]
  | .fence, .core => [.fence .core .full]
  | .fence, .device => [.fence .dev .full]
  | .fence, .fabric => [.fence .fab .full]

/-- The form that an instruction is. -/
def formOf (i : Instr) : Option FyForm :=
  match i with
  | .lda .. => some .lda
  | .stl .. => some .stl
  | .aadd .. | .amin .. | .amax .. | .aand .. | .aor .. | .axor .. | .axchg .. | .acas .. | .aincw .. | .afadd .. => some .atomic
  | .fence _ sc k => some (.fence sc k)
  | .sstep _ => some .sstep
  | .fork .. | .rfork .. => some .task
  | _ => none

/-- The forms that an entry needs: one for each step boundary, unit and order that a unit uses (R383). -/
def fyNeeds (e : FyEntry) : List FyForm :=
  List.replicate (e.steps.length - 1) .sstep ++
    (fyUnits e).flatMap (fun u => FyForm.task :: u.uses.flatMap (fun (o, q) => fyForms o q))

/-- Words of a segment. -/
def segWords (img : List Byte) (k : Nat) : List (BitVec 96) :=
  let d := (img.drop (32 + 32 * k)).take 32
  (upto (numAt d 8 4)).map (fun i => BitVec.ofNat 96 (numAt img (numAt d 0 8 + 12 * i) 12))

/-- The instruction of a word. -/
def wordInstr (w : BitVec 96) : Option Instr := match decode w with | .ok i => some i | _ => none

/-- The strand never goes on from the instruction to the next word. -/
def noFall (i : Instr) : Bool :=
  let sure (h : Head) : Bool := h.gpred == 0 && !h.ginv
  match i with
  | .bra h _ => sure h
  | .ret h _ => sure h
  | .exit h => sure h
  | .gret h => sure h
  | .call h _ _ => sure h
  | .brx h lim _ _ => sure h && lim == 0
  | _ => false

/-- The words that a branch at place `k` may reach: those of its whole table for BRX (R249). -/
def branchTo (k : Nat) (i : Instr) : List Int :=
  match i with
  | .bra _ (.lit v) => [k + 1 + v.toInt]
  | .brx _ lim (.lit v) _ => (upto (max 1 lim)).map (fun j => k + 1 + v.toInt + j)
  | .call _ _ (.lit v) => [k + 1 + v.toInt]
  | .loop _ _ (.lit v) => [k + 1 + v.toInt]
  | _ => []

/-- END stands on the segment's last word and on the word before each target that only a branch reaches (R386). -/
def endsSet (ws : List (BitVec 96)) : Bool :=
  let is := ws.map wordInstr
  let tos := (List.zip (upto is.length) is).flatMap (fun (k, i) => (i.map (branchTo k)).getD [])
  (List.zip (upto ws.length) ws).all (fun (k, w) =>
    (!(decide (k + 1 = ws.length) || (((wordInstr w).map noFall).getD false && tos.contains ((k : Int) + 1)))) ||
      (match wordInstr w with | some i => (toFields i).endH | none => w.getLsbD 81))

/-- A template stands for an entry: its transfer table holds the entry's transfers, and its segment a word for each form that
the entry needs (R383). -/
def fyTemplate (img t data : List Byte) (e : FyEntry) : Bool :=
  let has := (segWords img (numAt t 0 8)).filterMap (fun w => (wordInstr w).bind formOf)
  let x := numAt t 0x20 8
  let n := numAt data x 4
  let table := (upto n).map (fun j => (numAt data (x + 16 + 64 * j) 4, (data.drop (x + 22 + 64 * j)).take 58))
  x != 0 && table.all (fun y => table.count y == (fyTransfers e).count y) && (fyTransfers e).all (fun y => table.contains y) &&
    (fyNeeds e).all (fun f => decide ((fyNeeds e).count f ≤ has.count f))

/-- The entry needs no more than the device holds: 262,144 bytes of local memory, 256 tensors, 64 seats of depth (R90, R383). -/
def fyFits (e : FyEntry) : Bool := decide (e.local_ ≤ 262144) && decide (e.tensors.length ≤ 256) && decide (e.depth ≤ 64)

/-- What a native image that the translator gives for a program must hold (R383, R386). -/
def fyLowers (p : List FyEntry) (img : List Byte) : Bool :=
  let nseg := numAt img 0 4
  let pad (i : Nat) : Nat :=
    let d := (img.drop (32 + 32 * i)).take 32
    (12 * numAt d 8 4 + 31) / 32 * 32 + numAt d 0x10 4
  let tAt := 32 + 32 * nseg + ((upto nseg).map pad).sum
  let data := (img.drop (tAt + 128 * p.length)).take (numAt img 0xC 4)
  numAt img 4 4 == p.length && (upto nseg).all (fun k => endsSet (segWords img k)) &&
    (List.zip (upto p.length) p).all (fun (j, e) => fyTemplate img ((img.drop (tAt + 128 * j)).take 128) data e)

/-- The translation of a Fynik image; none ends the load with error 0x06 (R383). -/
def translate (img : List Byte) (rev : Nat) (caps : List (BitVec 64)) : Option (List Byte) :=
  match Config.fynikProgram img, Config.fynik img rev caps with
  | some p, some n => if p.all fyFits && fyLowers p n then some n else none
  | _, _ => none

end Sys2Proof.Machine
end

