-- ==== Sys2Proof/Machine/Shake.lean ====
section
/-! DEFINITION. SHAKE256, the digest of R379 and R405. The manual names the function; its definition is the published
standard's, FIPS 202 (PRESUMED, log 98). Offsets and constants are computed by the standard's own recurrences. -/
namespace Sys2Proof.Machine

/-- The state: five planes of five 64-bit lanes. -/
abbrev Planes := List (List (BitVec 64))

/-- A list turned left by one place. -/
def turn {α : Type} : List α → List α
  | [] => []
  | v :: l => l ++ [v]

/-- Exclusive or, lane by lane. -/
def xorLanes : List (BitVec 64) → List (BitVec 64) → List (BitVec 64) := List.zipWith (· ^^^ ·)

/-- Step θ: each column takes in the parities of the columns beside it. -/
def mixColumns (s : Planes) : Planes :=
  let p := s.foldl xorLanes (List.replicate 5 0)
  let left := turn (turn (turn (turn p)))
  let right := (turn p).map (fun v => v.rotateLeft 1)
  s.map (fun row => xorLanes (xorLanes row left) right)

/-- Step ρ along the path of the standard: from lane (x, y), the t-th of the path, by the t-th triangular number. -/
def spinFrom : Nat → Nat → Nat → Nat → Planes → Planes
  | 0, _, _, _, s => s
  | n + 1, t, x, y, s =>
    spinFrom n (t + 1) y ((2 * x + 3 * y) % 5)
      (s.modify y (fun row => row.modify x (fun v => v.rotateLeft (t * (t + 1) / 2 % 64))))

/-- Step π: plane y, lane x, takes what stood in plane x, lane x + 3 y. -/
def shuffle (s : Planes) : Planes :=
  let diagonal (y : Nat) : List (BitVec 64) :=
    s.mapIdx (fun x row => row.getD ((x + 3 * y) % 5) 0)
  [diagonal 0, diagonal 1, diagonal 2, diagonal 3, diagonal 4]

/-- Step χ on one plane. -/
def bendRow (row : List (BitVec 64)) : List (BitVec 64) :=
  xorLanes row (List.zipWith (fun u v => v &&& ~~~u) (turn row) (turn (turn row)))

/-- The register that gives the bits of the round constants, one step on: x^8 + x^6 + x^5 + x^4 + 1. -/
def tap (r : BitVec 9) : BitVec 9 := if r.getLsbD 7 then (r <<< 1) ^^^ 0x171 else r <<< 1

/-- Step ι reads seven bits of the register into bits 0, 1, 3, 7, 15, 31 and 63: the constant, and the register after. -/
def roundBits : Nat → BitVec 9 → BitVec 64 × BitVec 9
  | 0, r => (0, r)
  | j + 1, r =>
    let q := roundBits j (tap r)
    (if r.getLsbD 0 then q.1 ||| 1#64 <<< (2 ^ (6 - j) - 1) else q.1, q.2)

/-- Rounds, one after another. -/
def rounds : Nat → BitVec 9 → Planes → Planes
  | 0, _, s => s
  | n + 1, r, s =>
    let (c, r1) := roundBits 7 r
    let s1 := (shuffle (spinFrom 24 1 1 0 (mixColumns s))).map bendRow
    rounds n r1 (s1.modify 0 (fun row => row.modify 0 (fun v => v ^^^ c)))

/-- Bytes of a block. -/
def shakeRate : Nat := 136

/-- A block in the state's form: its lanes, least significant byte first, then zeros. -/
def planesOf (b : List Byte) : Planes :=
  let word (i : Nat) : BitVec 64 := ((b.drop (8 * i)).take 8).foldr (fun x n => (n <<< 8) ||| x.setWidth 64) 0
  let plane (y : Nat) : List (BitVec 64) := (List.range' (5 * y) 5).map word
  [plane 0, plane 1, plane 2, plane 3, plane 4]

/-- The sponge takes in `n` blocks: each is added to the state, and 24 rounds follow. -/
def soak : Nat → List Byte → Planes → Planes
  | 0, _, s => s
  | n + 1, b, s => soak n (b.drop shakeRate) (rounds 24 1 (List.zipWith xorLanes s (planesOf (b.take shakeRate))))

/-- The bytes that end the last block: SHAKE's suffix 1111, and the first and last bit of the padding. -/
def shakeEnd (n : Nat) : List Byte :=
  match shakeRate - n % shakeRate with
  | 1 => [0x9F]
  | k => 0x1F :: List.replicate (k - 2) 0 ++ [0x80]

/-- The first 64 bytes of SHAKE256 over a message, the first byte least significant (R379, R405). -/
def shake256 (b : List Byte) : BitVec 512 :=
  let s := soak (b.length / shakeRate + 1) (b ++ shakeEnd b.length) (planesOf [])
  (s.flatten.take 8).foldr (fun v n => (n <<< 64) ||| v.setWidth 512) 0

end Sys2Proof.Machine
end

