-- ==== Sys2Proof/Machine/Host.lean ====
section
/-! DEFINITION. What reaches the device from outside: host registers (R132, R384, R389, R394, R403, R409, R411), the quota
table (R168 to R170, R389, R390), code loading (R379 to R385), host and fabric requests (R110, R111), and post-copy pulls
(R397 to R399). -/
namespace Sys2Proof.Machine

/-! ### TDISP error -/

/-- Kill every queue of a virtual device without DOMK (R395, R408). -/
def State.killQueues (s : State) (vd : Nat) : State :=
  ((upto (s.quota vd).nqueue).foldl (fun s q => s.killQueue vd q) s).modVd vd (fun v => { v with hold := true })

/-- A TDI enters ERROR, once the overflow lists that the kill empties can be reached (R125, R408). -/
def State.tdiError (s : State) (fn : Nat) : State :=
  match s.listsWait (s.launches.filter (fun l => l.vdev == fn)) with
  | some t => t
  | none => (s.killQueues fn).modVd fn (fun v => { v with tdi := .error })

/-! ### Register writes -/

/-- The register lies in BAR0 of its function (R408). -/
def inBar0 : HostReg → Bool
  | .qbase | .qsize | .qown | .qseq | .ldsrc | .ldlen | .lddst | .ldcap | .ldsig
  | .cpkind | .cppage | .cpcnt | .cpent | .cproot
  | .qkey | .ldstate | .lderr | .ldsel | .ldrev | .ldused | .cpstat | .cpdone => true
  | _ => false

/-- A write of a queue's register; a device that is not active has no number of queues, and the registers of all 64 (R132, R388,
R394; log 60). -/
def State.queueReg (s : State) (vd q : Nat) (idle : Bool) (f : Queue → Queue) : State :=
  if s.queueRegs vd q && (!idle || (s.queue vd q).state == .idle) then s.modQueue vd q f else s

/-- A write of a load register (R384). -/
def State.loadReg (s : State) (vd : Nat) (f : Loader → Loader) : State :=
  if (s.vd vd).loader.ldstate = 1 then s else s.modVd vd (fun v => { v with loader := f v.loader })

/-- A write of a proposal register (R403). -/
def State.propReg (s : State) (vd : Nat) (f : Proposal → Proposal) : State :=
  if (s.vd vd).prop.cpstat = 1 then s else s.modVd vd (fun v => { v with prop := f v.prop })

/-- A write that the register's own rule admits, and one that lowers an error counter (R132, R194, R384, R389, R394, R403,
R409, R411). -/
def State.writeReg (s : State) (r : HostReg) (vd q : Nat) (v : Nat) : State :=
  match r with
  | .qbase => s.queueReg vd q true (fun x => { x with qbase := v / 4096 % 2 ^ 52 })
  | .qsize => if 1 ≤ v ∧ v ≤ 4096 then s.queueReg vd q true (fun x => { x with qsize := v }) else s
  | .qpri => s.queueReg vd q false (fun x => { x with qpri := v % 8 })
  | .qown => s.queueReg vd q true (fun x => { x with qown := v % 2 ^ 16 })
  | .qseq => s.queueReg vd q true (fun x => { x with qseq := v % 2 ^ 64 })
  | .ldsrc => s.loadReg vd (fun x => { x with ldsrc := BitVec.ofNat 64 v })
  | .ldlen => s.loadReg vd (fun x => { x with ldlen := BitVec.ofNat 64 v })
  | .lddst => if v % 65536 = 0 then s.loadReg vd (fun x => { x with lddst := BitVec.ofNat 64 v }) else s
  | .ldcap => s.loadReg vd (fun x => { x with ldcap := BitVec.ofNat 64 v })
  | .ldsig => s.loadReg vd (fun x => { x with ldsig := BitVec.ofNat 64 v })
  | .qtsel => if s.modl.qtstat = 1 then s else s.modModule (fun m => { m with qtsel := v % 16 })
  | .qtimg => if s.modl.qtstat = 1 ∨ v % 128 ≠ 0 then s else s.modModule (fun m => { m with qtimg := BitVec.ofNat 64 v })
  | .cpkind => if v % 4 = 1 ∨ v % 4 = 2 then s.propReg vd (fun x => { x with cpkind := v % 4 }) else s
  | .cppage => s.propReg vd (fun x => { x with cppage := v % 2 ^ 26 })
  | .cpcnt => s.propReg vd (fun x => { x with cpcnt := v % 2 ^ 16 })
  | .cpent => s.propReg vd (fun x => { x with cpent := BitVec.ofNat 64 v })
  | .cproot => s.propReg vd (fun x => { x with cproot := BitVec.ofNat 64 v })
  | .dbgsrc => s.modModule (fun m => { m with dbgsrc := BitVec.ofNat 64 v })
  | .fwsel => if 1 ≤ v ∧ v ≤ 6 then s.modModule (fun m => { m with fwsel := v }) else s
  | .fwsrc => s.modModule (fun m => { m with fwsrc := BitVec.ofNat 64 v })
  | .fwlen => s.modModule (fun m => { m with fwlen := BitVec.ofNat 64 v })
  | .eccc => if v = 0 then s.modCore q (fun x => { x with eccc := 0 }) else s
  | .eccu => if v = 0 then s.modCore q (fun x => { x with eccu := 0 }) else s
  | .mscc => if v = 0 then s.modModule (fun m => { m with mscc := mapDel q m.mscc }) else s
  | .mscu => if v = 0 then s.modModule (fun m => { m with mscu := mapDel q m.mscu }) else s
  | .drc => if v = 0 then s.modModule (fun m => { m with drc := mapDel q m.drc }) else s
  | .dru => if v = 0 then s.modModule (fun m => { m with dru := mapDel q m.dru }) else s
  | .qkill => s.queueReg vd q false (fun x => { x with qgo := v.testBit 63, qdomk := v.testBit 8 })
  | .qkey | .ldstate | .lderr | .ldsel | .ldrev | .ldused | .cpstat | .cpdone | .qkstat => s

/-- The register is the physical function's. -/
def pfOnly : HostReg → Bool
  | .qtsel | .qtimg | .dbgsrc | .fwsel | .fwsrc | .fwlen => true
  | _ => false

/-- The management core's own write of a counter. -/
def isCounter : HostReg → Bool
  | .eccc | .eccu | .mscc | .mscu | .drc | .dru => true
  | _ => false

/-- REGISTER_WRITE: a write to BAR0 of a locked interface is not performed and makes it ERROR; in ERROR it is ignored. A write of
QKILL with GO asks for a kill, unless one runs (R394, R402, R408). -/
def execRegisterWrite (r : HostReg) (vd q : Nat) (v : BitVec 64) (s : State) : Out :=
  if isCounter r then .next (s.writeReg r vd q v.toNat)
  else if !s.portOpen vd ∨ (pfOnly r ∧ vd ≠ 0) then .next s
  else if r = .qkill ∧ v.getLsbD 63 ∧ (s.queue vd q).qkstat ≠ 1 then execQueueKill vd q (v.getLsbD 8) s
  else if inBar0 r then
    match (s.vd vd).tdi with
    | .unlocked => .next (s.writeReg r vd q v.toNat)
    | .error => .next s
    | _ => .next (s.tdiError vd)
  else .next (s.writeReg r vd q v.toNat)

/-- DLGET_WRITE, for virtual device QTSEL: room in the dirty log, and the end of throttling (R389, R396, R402). -/
def execDlgetWrite (vd : Nat) (v : BitVec 64) (s : State) : Out :=
  if vd = s.modl.qtsel ∧ s.portOpen 0 then .next ((s.modVd vd (fun x => { x with dlget := v.toNat })).dlThrottle vd) else .next s

/-! ### Pages -/

/-- Device physical address, in a virtual device, of a module page (R104). -/
def State.pageDpa (s : State) (vd page : Nat) : Option Nat :=
  let sl := (s.quota vd).sliceList
  let m := page / 196608
  if sl.contains m then some ((page % 196608 * sl.length + sl.idxOf m) * 65536) else none

/-- Lines of `State.dram` that a device physical page holds. -/
def State.pageLines (s : State) (vd dpa : Nat) : List Nat :=
  (upto 1024).filterMap (fun i => (s.dpaAddr vd (dpa + 64 * i)).map (fun a => a / 64))

/-- Write a whole page: every line's poison goes (R108). -/
def State.writePage (s : State) (vd page : Nat) (b : List Byte) : State :=
  match s.pageDpa vd page with
  | none => s
  | some dpa => s.devWrite vd dpa b
/-- The host may cache some line of a page (R110). -/
def State.pageSnooped (s : State) (vd page : Nat) : Bool :=
  match s.pageDpa vd page with
  | none => false
  | some dpa => !s.snoops.isEmpty && (s.pageLines vd dpa).any (fun l => (mapFind l s.snoops).isSome)

/-- Pages of a virtual device are being zero-filled. -/
def State.reclaiming (s : State) (vd : Nat) : Bool := s.reclaims.any (fun r => r.next.vdev == vd)

/-- Erase the key slots of a virtual device (R160). -/
def State.eraseKeys (s : State) (vd : Nat) : State :=
  let q := s.quota vd
  (List.range' q.keybase q.keycnt).foldl (fun s k =>
    if k = 0 ∨ (s.key k).kstate = 0 then s else s.setKey k { s.key k with kstate := 0 }) s

/-! ### The quota interface -/

/-- A quota entry from its image (R168); EVBASE and EVCAP are not taken (R390). -/
def Quota.ofBytes (b : List Byte) (old : Quota) : Quota :=
  { active := bitAt (numAt b 0 1) 0, fixed := bitAt (numAt b 0 1) 1, weight := numAt b 1 1, nqueue := numAt b 2 2
    slice := bitsAt (numAt b 8 8) 0 48, rows := BitVec.ofNat 128 (numAt b 0x10 16), slices := BitVec.ofNat 192 (numAt b 0x20 24)
    keybase := numAt b 0x38 2, keycnt := numAt b 0x3A 2, gcap := numAt b 0x3C 4, gbase := numAt b 0x40 8
    dcap := numAt b 0x48 4, dbase := numAt b 0x50 8, evbase := old.evbase, evcap := old.evcap, dlbase := numAt b 0x68 8
    dlcap := numAt b 0x70 4 }

/-- A power of two from 2^lo to 2^hi. -/
def pow2In (n lo hi : Nat) : Bool := (List.range' lo (hi + 1 - lo)).any (fun e => n == 2 ^ e)

/-- The limits of R168. -/
def quotaOk (b : List Byte) : Bool :=
  let kb := numAt b 0x38 2
  let kc := numAt b 0x3A 2
  numAt b 0 1 / 4 == 0 && numAt b 1 1 != 0 && decide (1 ≤ numAt b 2 2) && decide (numAt b 2 2 ≤ 64) && numAt b 4 4 == 0 &&
    numAt b 0xE 2 == 0 && bitsAt (numAt b 0x18 8) 62 2 == 0 && decide (1 ≤ kb) && decide (kb ≤ 4095) && decide (kb + kc ≤ 4096) &&
    decide (numAt b 0x3C 4 ≤ 2 ^ 20) && decide (1 ≤ numAt b 0x48 4) && decide (numAt b 0x48 4 ≤ 65536) && numAt b 0x4C 4 == 0 &&
    numAt b 0x64 4 == 0 && pow2In (numAt b 0x70 4) 10 20 && numAt b 0x74 12 == 0

/-- The seat is held by the virtual device: by a thread, or by a launch. -/
def Seat.heldBy (x : Seat) (vd : Nat) : Bool := x.vdev == vd && (x.occ != .free || x.home.isSome)

/-- A row on which the device holds a seat, or a slice on which it holds an OWNED page (R170). -/
def State.stillUsed (s : State) (vd : Nat) (rows : BitVec 128) (slices : BitVec 192) : Bool :=
  s.cores.any (fun (n, x) => rows.getLsbD (n / 128) && (upto 4).any (fun k => (x.seat k).heldBy vd)) ||
    (s.vd vd).saved.any (fun i => rows.getLsbD (i.core / 128)) ||
    s.owners.any (fun (p, o) => o.state == 1 && o.vdev == vd && slices.getLsbD (p / 196608))

/-- Code of the first check that a WRITE fails, 0 for none (R170, R389, R390). -/
def State.quotaCode (s : State) (vd : Nat) (img : Option (List Byte)) : Nat :=
  match img with
  | none => if vd = 0 then 7 else 8
  | some b =>
    let old := s.quota vd
    let q := Quota.ofBytes b old
    let others := (s.quotas.filter (fun (v, x) => v != vd && x.active)).map (fun (_, x) => x)
    let keysMeet (x : Quota) : Bool := decide (max x.keybase q.keybase < min (x.keybase + x.keycnt) (q.keybase + q.keycnt))
    let gone (now next : Bool) : Bool := now && !next
    if others.any (fun x => (q.fixed || x.fixed) && (q.rows &&& x.rows) != 0) then 2
    else if others.any (fun x => (q.slices &&& x.slices) != 0) then 3
    else if others.any keysMeet then 4
    else if !quotaOk b then 5
    else if old.active && s.stillUsed vd (if gone old.active q.active then old.rows else old.rows &&& ~~~q.rows)
        (if gone old.active q.active then old.slices else old.slices &&& ~~~q.slices) then 6
    else if vd = 0 then 7
    else 0

/-- No other active device holds the row. -/
def State.rowAlone (s : State) (vd y : Nat) : Bool :=
  s.quotas.all (fun (v, x) => v == vd || !x.active || !x.rows.getLsbD y)

/-- Rows that the device gains, and rows of a fixed device that another one held last, are scrubbed for it; rows that
nobody holds any more are scrubbed too, and at its creation those that it held last, shared or not (R118, R169, R170, R390). -/
def State.moveRows (s : State) (vd : Nat) (old : BitVec 128) (made : Bool) : State :=
  let q := s.quota vd
  let now (y : Nat) : Bool := q.active && q.rows.getLsbD y
  (upto 126).foldl (fun s y =>
    if made ∧ now y ∧ mapGet 0 y s.rowVd = vd then s.scrub (fun n => n / 128 == y)
    else if !s.rowAlone vd y then s
    else if now y ∧ (!old.getLsbD y ∨ q.fixed) then s.passRow vd y
    else if old.getLsbD y ∧ !now y then s.scrub (fun n => n / 128 == y)
    else s) s

/-- Creation of a virtual device: counters, credit, gates and domain records; EVCAP is 0 until its domain 0 sets it (R390,
R391). -/
def State.createVd (s : State) (vd : Nat) : State :=
  let q := s.quota vd
  let s1 := s.modVd vd (fun v => { v with vused := 0, clovr := 0, cr := 0, dlput := 0, dlget := 0, dlthr := false, down := false })
  let s1 := { s1 with quotas := mapPut vd { q with evbase := 0, evcap := 0 } s1.quotas }
  let s2 := (upto q.gcap).foldl (fun s i => s.devWrite 0 (q.gbase + 64 * i) (leBytes 1 2)) s1
  (upto q.dcap).foldl (fun s d => s.setDstate vd d (if d = 0 then 1 else 0)) s2

/-- QTSTAT. -/
def State.qtDone (s : State) (code : Nat) : State := s.modModule (fun m => { m with qtstat := code })

/-- QUOTA_WRITE: QTCMD WRITE; a creation waits until the host caches no line of the new device's tables (R110, R389, R390). -/
def execQuotaWrite (s : State) : Out :=
  let s0 := s
  let vd := s.modl.qtsel
  let a := s.modl.qtimg.toNat
  if !s.portOpen 0 ∨ s.modl.qtstat = 1 then .next s
  else
    let s := s.modModule (fun m => { m with qtcmd := 1 })
    let img := if s.devPoisoned 0 a 128 then none else s.devRead 0 a 128
    let code := s.quotaCode vd img
    match img with
    | none => .next (s.qtDone code)
    | some b =>
      if code ≠ 0 then .next (s.qtDone code)
      else
        let old := s.quota vd
        let s1 := { s with quotas := mapPut vd (Quota.ofBytes b old) s.quotas }
        let made := (s1.quota vd).active && !old.active
        let s2 := if made then s1.createVd vd else s1
        if made && s1.tablesHeld vd then .next s0
        else .next (((s2.moveRows vd (if old.active then old.rows else 0) made).dlThrottle vd).qtDone 0)

/-- QUOTA_TEARDOWN: QTCMD TEARDOWN. It stays BUSY while pages are zero-filled, and ends at a later step (R389, R390). -/
def execQuotaTeardown (s : State) : Out :=
  let vd := s.modl.qtsel
  let busy := s.modl.qtstat = 1
  let s := if s.portOpen 0 ∧ ¬busy then s.modModule (fun m => { m with qtcmd := 2 }) else s
  if !s.portOpen 0 then .next s
  else if vd = 0 then .next (if s.modl.qtstat = 1 then s else s.qtDone 7)
  else
    let s1 := if s.modl.qtstat = 1 then s
      else ((s.teardown vd).reclaimAll (fun o => o.vdev == vd)).qtDone 1
    if s1.reclaiming vd then .next s1
    else
      let q := s1.quota vd
      let s2 := { s1.eraseKeys vd with quotas := mapPut vd { q with active := false } s1.quotas }
      .next ((s2.moveRows vd q.rows false).qtDone 0)

/-! ### Code loading -/

/-- Read of domain 0 by the loader (R385). -/
def ldRead (vd va n : Nat) : M (List Byte) := unitRead none (root vd) (va % 2 ^ 64) n
/-- Write of domain 0 by the loader (R385). -/
def ldWrite (vd va : Nat) (b : List Byte) : M Unit := if b.isEmpty then pure () else unitWrite none (root vd) (va % 2 ^ 64) b

/-- Write parts in order until one faults; what has been written by then stays (R385). -/
def ldParts (vd : Nat) : List (Nat × List Byte) → M Bool
  | [] => pure true
  | (va, b) :: ps => do
    let r ← attempt (ldWrite vd va b)
    match r with
    | .error _ => pure false
    | .ok _ => ldParts vd ps

/-- A directory entry (R379). -/
structure DirEnt where
  kind   : Nat
  rev    : Nat
  dev    : Nat
  fyver  : Nat
  reqcap : Nat
  reqfmt : Nat
  off    : Nat
  size   : Nat
  digest : List Byte
  deriving Repr

/-- A directory entry from its 64 bytes (R379). -/
def DirEnt.ofBytes (b : List Byte) : DirEnt :=
  { kind := numAt b 0 1, rev := numAt b 1 1, dev := numAt b 2 2, fyver := numAt b 4 4, reqcap := numAt b 8 8
    reqfmt := numAt b 0x10 8, off := numAt b 0x18 8, size := numAt b 0x20 8, digest := (b.drop 0x28).take 24 }

/-- The directory of a container, none where R381 finds its form bad. -/
def directory (b : List Byte) : Option (List DirEnt) :=
  let n := numAt b 6 2
  let total := numAt b 8 8
  let at_ := numAt b 0x10 8
  let es := (upto n).map (fun i => DirEnt.ofBytes ((b.drop (at_ + 64 * i)).take 64))
  if numAt b 0 4 = 0x4B4D4152 ∧ numAt b 4 2 = 1 ∧ 1 ≤ n ∧ n ≤ 64 ∧ at_ % 64 = 0 ∧ at_ + 64 * n ≤ total ∧ total ≤ b.length ∧
      numAt b 0x18 40 = 0 ∧
      es.all (fun e => (e.kind == 1 || e.kind == 2) && bitsAt e.reqfmt 28 36 == 0 && decide (e.off + e.size ≤ total)) then
    some es
  else none

/-- The image of an entry. -/
def DirEnt.image (e : DirEnt) (b : List Byte) : List Byte := (b.drop e.off).take e.size

/-- The digest of the entry's image is the one it states (R379, R381). -/
def DirEnt.sound (e : DirEnt) (b : List Byte) : Bool := (leBytes (shake256 (e.image b)).toNat 64).take 24 == e.digest

/-- The capability words of the CAPR walk (R196). -/
def State.capWords (s : State) : List Nat := ((upto 7).map s.capability)

/-- The device meets REQCAP and REQFMT (R379, R381). -/
def State.meets (s : State) (e : DirEnt) : Bool :=
  let ids := s.capWords.map (fun w => bitsAt w 0 16)
  let fmts := ((s.capWords.find? (fun w => bitsAt w 0 16 == 2)).map (fun w => w / 2 ^ 36)).getD 0
  (upto 64).all (fun i => !e.reqcap.testBit i || ids.contains (i + 1)) && (upto 28).all (fun f => !e.reqfmt.testBit f || fmts.testBit f)

/-- Choose an image: its index (R381). -/
def State.choose (s : State) (rev : Nat) (es : List DirEnt) : Option Nat :=
  let all := List.zip (upto es.length) es
  let E := all.filter (fun (_, e) => e.kind == 1 && e.dev == 0x2304 && s.meets e)
  match E.find? (fun (_, e) => e.rev == rev) with
  | some (i, _) => some i
  | none =>
    match E.find? (fun (_, e) => E.all (fun (_, f) => decide (f.rev ≤ e.rev))) with
    | some (i, _) => some i
    | none => (all.find? (fun (_, e) => e.kind == 2 && decide (e.fyver ≤ Config.fynikVer))).map (fun (i, _) => i)

/-- What a load writes, by offset from LDDST, with its length (R385); none for an image that breaks R380. -/
def loadPlan (dst : Nat) (img : List Byte) : Option (List (Nat × List Byte) × Nat) := do
  let nseg := numAt img 0 4
  let nrec := numAt img 4 4
  let nfix := numAt img 8 4
  let dsz := numAt img 0xC 4
  let seg (i : Nat) : List Byte := (img.drop (32 + 32 * i)).take 32
  let pad (i : Nat) : Nat := (12 * numAt (seg i) 8 4 + 31) / 32 * 32 + numAt (seg i) 0x10 4
  let lens := (upto nseg).map pad
  let off (i : Nat) : Nat := (lens.take i).foldl (fun a n => a + n) 0
  let tAt := 32 + 32 * nseg + off nseg
  let dAt := tAt + 128 * nrec
  let fAt := dAt + dsz
  if numAt img 0x10 16 ≠ 0 ∨ img.length < fAt + 8 * nfix then none
  else if (upto nseg).any (fun i => decide (img.length < numAt (seg i) 0 8 + pad i) || numAt (seg i) 0xC 4 % 32 != 0 ||
      numAt (seg i) 0x18 8 != 0) then none
  else
    let dOff := (off nseg + 63) / 64 * 64
    let dAddr := dst + dOff
    let fixes := (upto nfix).map (fun i => numAt img (fAt + 8 * i) 8)
    if fixes.any (fun o => decide (dsz < o + 8)) then none
    else
      let data := fixes.foldl (fun (d : List Byte) o =>
        d.take o ++ leBytes ((numAt d o 8 + dAddr) % 2 ^ 64) 8 ++ d.drop (o + 8)) ((img.drop dAt).take dsz)
      let rOff := (dOff + dsz + 63) / 64 * 64
      let tmpl (j : Nat) : List Byte := (img.drop (tAt + 128 * j)).take 128
      if (upto nrec).any (fun j => decide (nseg ≤ numAt (tmpl j) 0 8)) then none
      else
        let rcd (j : Nat) : List Byte :=
          let t := tmpl j
          let k := numAt t 0 8
          let table (o : Nat) (opt : Bool) : List Byte :=
            let v := numAt t o 8
            if opt && v == 0 then zeros 8 else leBytes ((v + dAddr) % 2 ^ 64) 8
          leBytes (dst + off k) 8 ++ (t.drop 8).take 4 ++ ((seg k).drop 8).take 4 ++ table 0x10 false ++ table 0x18 true
            ++ table 0x20 true ++ table 0x28 false ++ (t.drop 0x30).take 8 ++ ((seg k).drop 0xC).take 4 ++ (t.drop 0x3C).take 4
            ++ table 0x40 false ++ (t.drop 0x48).take 0x30 ++ ((seg k).drop 0x10).take 8
        let sOff := rOff + 128 * nrec
        some ((upto nseg).map (fun i => (off i, (img.drop (numAt (seg i) 0 8)).take (pad i)))
          ++ [(dOff, data)] ++ (upto nrec).map (fun j => (rOff + 128 * j, rcd j))
          ++ [(sOff, leBytes nrec 8 ++ leBytes (dst + rOff) 8 ++ zeros 48)], sOff + 64)

/-- LOAD_GO: a write of GO (R384, R388). -/
def execLoadGo (vd : Nat) (s : State) : Out :=
  let x := (s.vd vd).loader
  if !s.portOpen vd ∨ x.ldstate = 1 then .next s
  else if !(s.quota vd).active then .next (s.loadReg vd (fun x => { x with ldstate := 3, lderr := 5 }))
  else .next (s.loadReg vd (fun x => { x with ldctl := false, ldstate := 1, lderr := 0 }))

/-- The load itself: an error code, or the bytes written (R385). -/
def loadRun (vd : Nat) : M (Except Nat Nat) := do
  let x ← look (fun s => (s.vd vd).loader)
  let b ← attempt (do
    let h ← ldRead vd x.ldsrc.toNat (min 64 x.ldlen.toNat)
    ldRead vd x.ldsrc.toNat (max (min 64 x.ldlen.toNat) (min (numAt h 8 8) x.ldlen.toNat)))
  match b with
  | .error _ => pure (.error 5)
  | .ok b =>
    match directory b with
    | none => pure (.error 1)
    | some es =>
      if !es.all (fun e => e.sound b) then pure (.error 2)
      else do
        let i ← look (fun s => s.choose x.ldrev es)
        match i with
        | none => pure (.error 3)
        | some i => do
          change (fun s => s.modVd vd (fun v => { v with loader := { v.loader with ldsel := i } }))
          let e := es.getD i { kind := 0, rev := 0, dev := 0, fyver := 0, reqcap := 0, reqfmt := 0, off := 0, size := 0, digest := [] }
          let caps ← look (fun s => s.capWords.map (fun w => BitVec.ofNat 64 w))
          let img := if e.kind = 2 then translate (e.image b) x.ldrev caps else some (e.image b)
          match img with
          | none => pure (.error 6)
          | some img =>
            match loadPlan x.lddst.toNat img with
            | none => pure (.error (if e.kind = 2 then 6 else 1))
            | some (parts, total) =>
              if x.ldcap.toNat < total then pure (.error 4)
              else do
                let all := parts.flatMap (fun (o, p) => cutUnits (x.lddst.toNat + o) ((p.length + 63) / 64) p)
                let ok ← ldParts vd all
                pure (if ok then .ok total else .error 5)

/-- LOAD_COMPLETE: the load has run; DONE and the QTL write, or ERROR with its code (R384, R385). -/
def execLoadComplete (vd : Nat) (s : State) : Out :=
  if (s.vd vd).loader.ldstate ≠ 1 then .next s
  else
    let put (s : State) (f : Loader → Loader) : State := s.modVd vd (fun v => { v with loader := f v.loader })
    match loadRun vd s with
    | .ok (.error c) t => .next (put t (fun x => { x with ldstate := 3, lderr := c }))
    | .ok (.ok n) t =>
      let t1 := put t (fun x => { x with ldstate := 2, ldused := BitVec.ofNat 64 n })
      let g := (t.vd vd).loader.ldsig.toNat
      .next (if bitAt g 63 ∧ t.queueIs vd (bitsAt g 56 6) then t1.writeQtl vd (bitsAt g 56 6) (bitsAt g 0 56) else t1)
    | .error .waitAt t => .next { s with pulls := t.pulls }
    | .error _ _ => .next s

/-! ### Host and fabric requests -/

/-- Bytes that a request reaches. -/
def outLen (a : OutAcc) : Nat := match a with | .read n => n | .write b => b.length | .atomic _ ty _ => wOf ty / 8

/-- A home answers a request from outside. -/
def State.reply (s : State) (r : OutResp) : State := { s with resps := s.resps ++ [r] }

/-- A request of the host to one line of a page that it may see: the home holds it while the page is being pulled, notes that the
host may cache a line it reads, and answers poison where an error meets it (R108, R110, R398). -/
def State.hostReq (s : State) (r : OutReq) : State :=
  let len := outLen r.acc
  let visible := match s.modPage r.vdev r.dpa with
    | some p => let e := s.owner p; e.state == 1 && e.vdev == r.vdev && e.hostvis
    | none => false
  if !s.portOpen r.vdev ∨ len = 0 ∨ 64 < r.dpa % 64 + len ∨ !visible then s
  else match s.dpaHome r.vdev r.dpa, s.modPage r.vdev r.dpa with
    | some (m, l), some p =>
      if (s.owner p).pull then s.startPull p 0 (.req r)
      else match r.acc with
        | .read n =>
          let t := { s with snoops := mapPut ((m * sliceBytes + l) / 64) () s.snoops }
          t.reply (if s.homeBad (.slice m) l n then .poison else .data (s.homeRead (.slice m) l n))
        | .write b => if s.homePartBad (.slice m) l b.length then s.reply .poison else (s.homeWrite (.slice m) l b).reply .done
        | .atomic .. => s
    | _, _ => s

/-- HOST_MEM_ACCESS: a CXL.mem request (R110). -/
def execHostMemAccess (vd dpa : Nat) (acc : OutAcc) (s : State) : Out :=
  .next ({ s with resps := [] }.hostReq { vdev := vd, dpa := dpa, acc := acc })

/-- BACK_INVALIDATE_RESPONSE: over the stream of the function that has the line, the host holds it no longer (R110, R402). -/
def execBackInvalidateResponse (l : HostLine) (s : State) : Out :=
  .next (if s.portOpen l.vdev ∧ (s.quota l.vdev).sliceList.contains (l.line * 64 / sliceBytes) then
    { s with snoops := mapDel l.line s.snoops }
  else s)

/-- FABRIC_REQUEST: a request of another device, its atomics as a seat's (R323), checked, performed and answered here (R111); at a
page that is being pulled it is held (R398). -/
def execFabricRequest (vd dom : Nat) (va : BitVec 64) (acc : OutAcc) (s : State) : Out :=
  let w : Who := { vdev := vd, dom := dom, win := none }
  let a := va.toNat
  let len := outLen acc
  let s := { s with resps := [] }
  let go : M OutResp :=
    match acc with
    | .read n => do
      let b ← unitRead none w a n
      pure (.data b)
    | .write b => do
      unitWrite none w a b
      pure .done
    | .atomic op ty v => do
      let _ ← unitPlaces none w a len .rw true
      let b ← unitRead none w a len
      unitWrite none w a (leBytes (atomNew op ty (leNat b) (v.toNat % 2 ^ wOf ty)) len)
      pure (.data b)
  let bad : Bool := match acc with | .atomic _ ty _ => a % len != 0 || !atomTy ty | _ => false
  if len = 0 ∨ regionSpan a len ≠ some .device ∨ bad then .next s
  else match go s with
    | .ok r t => .next (t.reply r)
    | .error .waitAt t => .next t
    | .error (.trapAt e) t => .next (t.reply (.fault e))
    | .error (.trap e) _ => .next (s.reply (.fault e))
    | .error _ _ => .next s

/-! ### Migration and pulls -/

/-- The next first touch on a die starts its pull (R398). -/
def State.nextPull (s : State) (die : Nat) : State :=
  match s.pulls.find? (fun p => !p.req && pageDie p.page == die) with
  | some p => { s with pulls := s.pulls.map (fun q => if q.page = p.page then { q with req := true } else q) }
  | none => s

/-- The move that performs what was held. -/
def HeldAcc.move : HeldAcc → Option Move
  | .piece n i => some (.event (.deviceHomeAccess n i))
  | .req r => some (.event (.hostMemAccess r.vdev r.dpa r.acc))
  | .unit _ _ _ mv => mv
  | .walk _ => none

/-- The access of a unit. -/
def HeldAcc.isUnit : HeldAcc → Bool
  | .unit .. => true
  | _ => false

/-- Perform what is no access of a unit. -/
def State.performOne (s : State) : HeldAcc → State
  | .piece n i => s.stepPiece n i
  | .walk w => s.walkOn w
  | .req r => s.hostReq r
  | .unit .. => s

/-- What a page has held is performed in order of arrival (R398): at once up to the first access of a unit, from there by the
moves that come next. Walks, which have no move of their own unit, go on at once (log 30). -/
def State.performHeld (s : State) (q : List HeldAcc) : State :=
  let now := q.takeWhile (fun h => !h.isUnit)
  let rest := q.dropWhile (fun h => !h.isUnit)
  let walks := rest.filter (fun h => match h with | .walk _ => true | _ => false)
  let t := (now ++ walks).foldl State.performOne s
  { t with agenda := rest.filterMap HeldAcc.move ++ t.agenda }

/-- PULL_DATA_ARRIVAL: the whole page has arrived, is written once the host caches none of its lines, and the held accesses
are performed (R110, R398). The data of a page that has been reclaimed meanwhile are dropped (log 99). -/
def execPullDataArrival (page : Nat) (bytes : List (BitVec 8)) (s : State) : Out :=
  let o := s.owner page
  match s.pulls.find? (fun p => p.page == page && p.req) with
  | none => .next s
  | some pl =>
    if !o.pull ∨ bytes.length ≠ 65536 ∨ s.pageSnooped o.vdev page then .next s
    else
      let s0 := { s with resps := [] }
      let s1 := (if o.state = 1 then s0.writePage o.vdev page bytes else s0).setOwner page { o with pull := false }
      let s2 := { s1 with pulls := s1.pulls.filter (fun p => p.page != page) }.nextPull (pageDie page)
      .next (s2.performHeld pl.queue)

/-- Fail a piece of an access, and of the access that it performs as well. -/
def State.failPiece (s : State) (n i : Nat) (t : Trap) : State :=
  let put (s : State) (n : Nat) : State :=
    match s.access n with
    | some a => s.setAccess { a with pieces := a.pieces.mapIdx (fun j p => if j = i then { p with st := .failed t } else p) }
    | none => s
  let s1 := put s n
  match (s.access n).bind (fun a => a.twin) with
  | some m => put s1 m
  | none => s1

/-- A pull has failed: the page's lines are poisoned, PULL is 0 and LOST 1; the next first touch starts its pull (R398, R399). -/
def State.pageLost (s : State) (page : Nat) : State :=
  let o := s.owner page
  let lines := match s.pageDpa o.vdev page with | some dpa => s.pageLines o.vdev dpa | none => []
  let s1 := ({ s with dpoison := lines.foldl (fun m l => mapPut l () m) s.dpoison } : State).setOwner page
    { o with pull := false, lost := true }
  { s1 with pulls := s1.pulls.filter (fun p => p.page != page) }.nextPull (pageDie page)

/-- What a failed pull has held ends with SOURCELOST: a seat's access, a walk with all that have joined it, and that of a unit in
the move that comes next; the host is answered with poison (R399). -/
def State.lose (s : State) : HeldAcc → State
  | .piece n i => match (s.access n).bind (fun a => a.pieces[i]?) with
    | some p => if p.sent then s.failPiece n i (pageFault p.va 5) else s
    | none => s
  | .walk w => s.walksFail (s.walks.filter w.joins) (pageFault 0 5)
  | .req _ => s.reply .poison
  | .unit vd dom va mv => { s with lostAt := s.lostAt ++ [(vd, dom, va)], agenda := s.agenda ++ mv.toList }

/-- PULL_FAIL: the page's lines are poisoned, the held accesses fail with SOURCELOST, event 0x04 (R399). -/
def execPullFail (page : Nat) (s : State) : Out :=
  let o := s.owner page
  match s.pulls.find? (fun p => p.page == page && p.req) with
  | none => .next s
  | some pl =>
    if !o.pull then .next s
    else .next ((pl.queue.foldl State.lose ({ s with resps := [] }.pageLost page)).postEvent o.vdev
      (event 0 4 pl.va o.owner o.srcdev))

end Sys2Proof.Machine
end

