-- ==== Sys2Proof/Machine/Caddy.lean ====
section
/-! DEFINITION. The Caddy: proposals and reclamation (R158, R403, R404), attestation (R405 to R407), key slots (R160, R406),
IDE and interface assignment (R402, R408), debug unlock (R409, R410), firmware activation (R411). -/
namespace Sys2Proof.Machine

/-! ### Proposals -/

/-- CPSTAT of the first check that a page fails, 0 for none (R158, R404). -/
def State.pageCode (s : State) (vd page dom key : Nat) : Nat :=
  let q := s.quota vd
  let k := s.key key
  let o := s.owner page
  if 37748736 ≤ page then 6
  else if !q.active ∨ !q.sliceList.contains (page / 196608) then 2
  else if !s.domLive vd dom then 3
  else if k.kstate ≠ 1 ∨ k.use ≠ 0 ∨ key < q.keybase ∨ q.keybase + q.keycnt ≤ key then 4
  else if o.state = 2 ∨ o.pull then 5
  else 0

/-- Entry that the proposal registers ask for (R403). -/
def Proposal.entry (p : Proposal) (vd : Nat) : Owner :=
  let e := p.cpent.toNat
  { vdev := vd, owner := bitsAt e 44 16, key := bitsAt e 32 12, state := 1, shared := bitAt e 29, hostvis := bitAt e 28 }

/-- A page of a PAGE proposal has been committed; the last one ends the proposal (R403, R404). No rule says when event 0x01
(page mapped, R141) is posted, and none is (log 119). -/
def State.pageDone (s : State) (vd : Nat) : State :=
  let p := (s.vd vd).prop
  let s1 := s.modVd vd (fun v => { v with prop := { v.prop with cpdone := p.cpdone + 1 } })
  if p.cpcnt ≤ p.cpdone + 1 then s1.cpDone vd 0 else s1

/-- Commit the next page of a PAGE proposal; one that must be reclaimed first holds it (R158, R404). -/
def State.commitPage (s : State) (vd : Nat) : State :=
  let p := (s.vd vd).prop
  let page := p.cppage + p.cpdone
  let next := p.entry vd
  let code := s.pageCode vd page next.owner next.key
  let o := s.owner page
  if code ≠ 0 then s.cpDone vd code
  else if o.state = 1 ∧ o.vdev = vd ∧ o.owner = next.owner ∧ o.key = next.key then
    (s.setOwner page { o with shared := next.shared, hostvis := next.hostvis }).pageDone vd
  else s.reclaim page next (some vd)

/-- A page of the device's proposal is being zero-filled. -/
def State.filling (s : State) (vd : Nat) : Bool := s.reclaims.any (fun r => r.prop == some vd)

/-- A request in the tenant's session takes the place of the proposal registers (R408). -/
def Proposal.take (p : Proposal) (kind : Nat) (r : SessionReq) : Proposal :=
  { p with cpkind := kind, cppage := r.page.toNat, cpcnt := r.cnt.toNat, cpent := r.ent, cproot := r.root }

/-- A proposal is accepted: by the host's write of CPGO while the interface is unlocked, or from the tenant's session while
it is locked or runs; a write of CPGO while it is locked makes it ERROR. While it is BUSY, `on` takes it further, but in ERROR
no ownership changes (R400, R403, R408). -/
def State.propose (s : State) (vd kind : Nat) (req : Option SessionReq) (go on : State → State) : State :=
  let v := s.vd vd
  let start (s : State) : State :=
    go (s.modVd vd (fun v => { v with prop := { v.prop with cpgo := false, cpstat := 1, cpdone := 0 } }))
  if 16 ≤ vd ∨ v.tdi = .error then s
  else if req.isNone ∧ v.tdi ≠ .unlocked then (if s.portOpen vd then s.tdiError vd else s)
  else if v.prop.cpstat = 1 then (if v.prop.cpkind = kind then on s else s)
  else match req with
    | none => if s.portOpen vd && v.prop.cpkind == kind then start s else s
    | some r =>
      if v.tdi ≠ .unlocked ∧ s.modl.spdm.session then start (s.modVd vd (fun v => { v with prop := v.prop.take kind r })) else s

/-- PROPOSE_PAGE: the proposal is accepted and its first page decided; while it is BUSY each further one decides the next
page, so that other decisions may come between (R400, R403, R404). -/
def execProposePage (vd : Nat) (req : Option SessionReq) (s : State) : Out :=
  .next (s.propose vd 1 req
    (fun s =>
      let p := (s.vd vd).prop
      let e := p.cpent.toNat
      if p.cpcnt = 0 ∨ bitsAt e 60 4 ≠ 0 ∨ bitsAt e 30 2 ≠ 0 ∨ bitsAt e 0 28 ≠ 0 then s.cpDone vd 6
      else s.commitPage vd)
    (fun s => if s.filling vd then s else s.commitPage vd))

/-- A DOMAIN proposal ends: refused, or with the record LIVE under its ROOT, once the host caches no line of the records (R110,
R157, R404). -/
def State.commitDomain (s : State) (vd : Nat) : State :=
  let p := (s.vd vd).prop
  let q := s.quota vd
  let d := p.cpent.toNat
  let root := p.cproot.toNat
  if 2 ^ 16 ≤ d ∨ root % 4096 ≠ 0 ∨ 2 ^ 56 ≤ root then s.cpDone vd 6
  else if !q.active ∨ (s.dpaHome vd root).isNone then s.cpDone vd 2
  else if d = 0 ∨ q.dcap ≤ d ∨ s.dstate vd d ≠ 0 then s.cpDone vd 3
  else if s.tablesHeld vd then s
  else ((s.devWrite 0 (q.dbase + 32 * d) (leBytes root 8)).setDstate vd d 1).cpDone vd 0

/-- PROPOSE_DOMAIN (R157, R403, R404). -/
def execProposeDomain (vd : Nat) (req : Option SessionReq) (s : State) : Out :=
  .next (s.propose vd 2 req (fun s => s.commitDomain vd) (fun s => s.commitDomain vd))

/-- Code of the first check of R158 that the entry which a page is filled for now fails, 0 for none: those of the page's own
state aside, they hold when the change is committed (R158, R404). -/
def State.fillCode (s : State) (r : Reclaim) : Nat :=
  if r.next.state = 0 then 0
  else (s.setOwner r.page {}).pageCode r.next.vdev r.page r.next.owner r.next.key

/-- RECLAIM_ZERO_FILL_DONE: the page holds zeros under its new key and takes its new entry, once the host caches none of its
lines; a proposal that waited for it goes on. Where a check of R158 has failed meanwhile the change is refused and the page,
whose content is gone, becomes FREE; in ERROR no change is committed (R107, R110, R158, R404, R408; log 120). -/
def execReclaimZeroFillDone (page : Nat) (s : State) : Out :=
  match s.reclaims.find? (fun r => r.page == page) with
  | none => .next s
  | some r =>
    let code := s.fillCode r
    let next : Owner := if code = 0 then r.next else { r.next with state := 0 }
    let s1 := (s.writePage r.next.vdev page (zeros 65536)).setOwner page ((s.owner page).after next)
    let s2 := { s1 with reclaims := s1.reclaims.filter (fun x => x.page != page) }
    if s.pageSnooped r.next.vdev page ∨ (next.state = 1 ∧ (s.vd r.next.vdev).tdi = .error) then .next s
    else match r.prop with
    | some v => .next (if code = 0 then s2.pageDone v else s2.cpDone v code)
    | none => .next s2

/-- MIGRATION_START: a page of an incoming virtual device is committed with PULL := 1 and SRCDEV (R158, R397). -/
def execMigrationStart (vd page srcdev key : Nat) (own : PulledPage) (s : State) : Out :=
  if s.pageCode vd page own.owner key ≠ 0 ∨ 16 ≤ vd ∨ 256 ≤ srcdev ∨ (s.vd vd).tdi = .error then .next s
  else .next (s.reclaim page { vdev := vd, owner := own.owner, key := key, state := 1, shared := own.shared
                               hostvis := own.hostvis, pull := true, srcdev := srcdev } none)

/-! ### SPDM -/

/-- The response in the mailbox. -/
def State.answer (s : State) (r : Resp) : State := s.modModule (fun m => { m with spdm := { m.spdm with resp := r } })
/-- Change the SPDM state. -/
def State.modSpdm (s : State) (f : Spdm → Spdm) : State := s.modModule (fun m => { m with spdm := f m.spdm })

/-- SPDM error codes: InvalidRequest, Busy (R407), UnexpectedRequest, DecryptError. -/
def errInvalid : Nat := 1
def errBusy : Nat := 3
def errUnexpected : Nat := 4
def errDecrypt : Nat := 6

/-- A request that needs the connection in a state of at least `n`. -/
def spdmFrom (n : Nat) (s : State) (f : State → State) : Out :=
  .next (if s.modl.spdm.conn < n then s.answer (.error errUnexpected) else f s)

/-- A request that needs the secure session. -/
def inSession (s : State) (f : State → State) : Out :=
  .next (if s.modl.spdm.session then f s else s.answer (.error errUnexpected))

/-- GET_VERSION: SPDM 1.3 (R405). -/
def execGetVersion (s : State) : Out :=
  .next ((s.modSpdm (fun x => { x with conn := 1, session := false, peer := none })).answer (.version 0x13))

/-- GET_CAPABILITIES: CT exponent 21 (R405). -/
def execGetCapabilities (s : State) : Out :=
  spdmFrom 1 s (fun s => (s.modSpdm (fun x => { x with conn := max 2 x.conn })).answer (.capabilities 21))

/-- NEGOTIATE_ALGORITHMS: bit 0 of each argument offers the one algorithm of its kind that the Caddy has (R405). -/
def execNegotiateAlgorithms (asym hash dhe aead : Nat) (s : State) : Out :=
  spdmFrom 2 s (fun s =>
    if [asym, hash, dhe, aead].all (fun n => n % 2 == 1) then
      (s.modSpdm (fun x => { x with conn := 3 })).answer (.algorithms 1 1 1 1)
    else s.answer (.error errInvalid))

/-- The chain of a certificate slot (R407). -/
def State.chain (s : State) (slot : Nat) : Option (List Byte) :=
  if slot = 0 then some Config.identityChain else if slot < 8 then mapFind slot s.modl.spdm.certs else none

/-- GET_DIGESTS (R405). -/
def execGetDigests (s : State) : Out :=
  spdmFrom 3 s (fun s => s.answer (.digests ((upto 8).filterMap (fun k => (s.chain k).map (fun c => (k, shake256 c))))))

/-- GET_CERTIFICATE: a part of the chain as it stands (R407). -/
def execGetCertificate (slot off len : Nat) (s : State) : Out :=
  spdmFrom 3 s (fun s => s.answer (match s.chain slot with
    | some c => if off < c.length then .certificate slot ((c.drop off).take len) else .error errInvalid
    | none => .error errInvalid))

/-- A CHALLENGE that names the slot is pending: unanswered, and less than 2,097,152 μs old (R407). -/
def State.challenged (s : State) (slot : Nat) : Bool :=
  match s.modl.spdm.chal with
  | some (k, _, t) => k == slot && decide (s.modl.rclk < t + 2097152000)
  | none => false

/-- SET_CERTIFICATE (R407). -/
def execSetCertificate (slot : Nat) (chain : List (BitVec 8)) (s : State) : Out :=
  spdmFrom 3 s (fun s =>
    if slot = 0 ∨ 8 ≤ slot then s.answer (.error errInvalid)
    else if s.challenged slot then s.answer (.error errBusy)
    else (s.modSpdm (fun x => { x with certs := mapPut slot chain x.certs })).answer (.setCertificate slot))

/-- CHALLENGE: the slot is held until the response has been sent (R407). -/
def execChallenge (slot : Nat) (nonce : BitVec 256) (s : State) : Out :=
  spdmFrom 3 s (fun s =>
    match s.chain slot, s.modl.spdm.chal with
    | none, _ => s.answer (.error errInvalid)
    | some _, some _ => s.answer (.error errBusy)
    | some _, none => s.modSpdm (fun x => { x with chal := some (slot, nonce, s.modl.rclk), resp := .none }))

/-- CHALLENGE_RESPONSE_SENT: signed over the slot's chain (R405, R407). -/
def execChallengeResponseSent (s : State) : Out :=
  match s.modl.spdm.chal with
  | none => .next s
  | some (slot, nonce, _) =>
    let c := (s.chain slot).getD []
    .next ((s.modSpdm (fun x => { x with chal := none })).answer (.challengeAuth slot (Config.sign (leBytes nonce.toNat 32 ++ c))))

/-- A measurement block (R406). -/
def State.measurement (s : State) (i : Nat) : BitVec 512 :=
  if i = 7 then shake256 [if s.modl.unlocked then 1 else 0]
  else ((mapGet {} i s.modl.fws).meas).getD (Config.firstMeasurement i)

/-- GET_MEASUREMENTS: one block, or all with index 0xFF (R406). -/
def execGetMeasurements (index : Nat) (s : State) : Out :=
  spdmFrom 3 s (fun s =>
    if index = 0xFF then s.answer (.measurements ((List.range' 1 7).map (fun i => (i, s.measurement i))))
    else if 1 ≤ index ∧ index ≤ 7 then s.answer (.measurements [(index, s.measurement index)])
    else s.answer (.error errInvalid))

/-- KEY_EXCHANGE: the Caddy answers with its share, signed over the chain of a slot (R405). -/
def execKeyExchange (slot : Nat) (peer : BitVec 768) (s : State) : Out :=
  spdmFrom 3 s (fun s =>
    match s.chain slot with
    | none => s.answer (.error errInvalid)
    | some c =>
      if s.modl.spdm.session then s.answer (.error errUnexpected)
      else
        let share := Config.keyShare s.fresh
        let sig := Config.sign (leBytes peer.toNat 96 ++ leBytes share.toNat 96 ++ c)
        { (s.modSpdm (fun x => { x with peer := some peer })).answer (.keyExchange share sig) with fresh := s.fresh + 1 })

/-- FINISH opens the session where its check holds (R405). -/
def execFinish (mac : BitVec 512) (s : State) : Out :=
  .next (match s.modl.spdm.peer with
    | none => s.answer (.error errUnexpected)
    | some p =>
      if s.modl.spdm.session then s.answer (.error errUnexpected)
      else if Config.finishOk p mac then (s.modSpdm (fun x => { x with session := true })).answer .finish
      else (s.modSpdm (fun x => { x with peer := none })).answer (.error errDecrypt))

/-- END_SESSION (R405). -/
def execEndSession (s : State) : Out :=
  inSession s (fun s => (s.modSpdm (fun x => { x with session := false, peer := none })).answer .endSession)

/-! ### Key slots -/

/-- The slot lies in the virtual device's key range (R406). -/
def State.inKeys (s : State) (vd slot : Nat) : Bool :=
  let q := s.quota vd
  q.active && decide (q.keybase ≤ slot) && decide (slot < q.keybase + q.keycnt) && decide (slot < 4096)

/-- KEY_SLOT_LOAD: a queue key is written to QKEY of queue `q` as well (R160, R406). -/
def execKeySlotLoad (vd slot use q : Nat) (s : State) : Out :=
  inSession s (fun s =>
    if !s.inKeys vd slot ∨ 2 ≤ use then s.answer (.error errInvalid)
    else
      let k := s.key slot
      let s1 := s.setKey slot { kgen := (k.kgen + 1) % 2 ^ 16, vdev := vd, use := use, kstate := 1 }
      let s2 := if use = 1 ∧ s.queueIs vd q then s1.modQueue vd q (fun x => { x with qkey := slot }) else s1
      s2.answer .vendor)

/-- KEY_SLOT_ERASE: refused for slot 0 and for a slot that an OWNED page names (R160). -/
def execKeySlotErase (vd slot : Nat) (s : State) : Out :=
  inSession s (fun s =>
    if !s.inKeys vd slot ∨ slot = 0 ∨ s.owners.any (fun (_, o) => o.state == 1 && o.key == slot) then s.answer (.error errInvalid)
    else (if (s.key slot).kstate = 0 then s else s.setKey slot { s.key slot with kstate := 0 }).answer .vendor)

/-! ### IDE and interfaces -/

/-- IDE_KM programs the keys of a function's stream (R402). -/
def execIdeKm (fn : Nat) (s : State) : Out :=
  inSession s (fun s =>
    if 16 ≤ fn then s.answer (.error errInvalid)
    else (s.modVd fn (fun v => { v with ide := true, ideKey := v.ideKey + 1 })).answer (.ideKm fn))

/-- IDE_STREAM_FAILURE: the function's traffic is refused, and its interface enters ERROR (R402, R408). -/
def execIdeStreamFailure (fn : Nat) (s : State) : Out :=
  if 16 ≤ fn ∨ !(s.vd fn).ide then .next s
  else
    let s1 := if fn = 0 then s else s.tdiError fn
    .next (if fn = 0 ∨ (s1.vd fn).tdi = .error then s1.modVd fn (fun v => { v with ide := false }) else s1)

/-- LOCK_INTERFACE_REQUEST (R408, R410). -/
def execLockInterfaceRequest (fn : Nat) (s : State) : Out :=
  inSession s (fun s =>
    let v := s.vd fn
    if fn = 0 ∨ 16 ≤ fn ∨ v.tdi ≠ .unlocked ∨ !(s.quota fn).active ∨ !v.ide ∨ s.modl.unlocked then s.answer (.error errInvalid)
    else if v.prop.cpstat = 1 then s
    else
      let n := Config.random s.fresh
      { (s.modVd fn (fun v => { v with tdi := .locked, nonce := n })).answer (.lock n) with fresh := s.fresh + 1 })

/-- START_INTERFACE_REQUEST bearing the lock nonce (R408). -/
def execStartInterfaceRequest (fn : Nat) (nonce : BitVec 256) (s : State) : Out :=
  inSession s (fun s =>
    let v := s.vd fn
    if fn = 0 ∨ 16 ≤ fn ∨ v.tdi ≠ .locked ∨ v.nonce ≠ nonce then s.answer (.error errInvalid)
    else (s.modVd fn (fun v => { v with tdi := .run })).answer (.started fn))

/-- STOP_INTERFACE_REQUEST: kill, reclaim, erase, free; the interface unlocks once every page has been zero-filled (R408). -/
def execStopInterfaceRequest (fn : Nat) (s : State) : Out :=
  inSession s (fun s =>
    let v := s.vd fn
    if fn = 0 ∨ 16 ≤ fn ∨ v.tdi = .unlocked then s.answer (.error errInvalid)
    else match s.listsWait (s.launches.filter (fun l => l.vdev == fn)) with
    | some t => t
    | none =>
      let s1 := (s.killQueues fn).reclaimAll (fun o => o.vdev == fn)
      if s1.reclaiming fn ∨ s1.tablesHeld fn then s1
      else
        let s2 := s1.eraseKeys fn
        let s3 := (upto (s.quota fn).dcap).foldl (fun s d =>
          if d ≠ 0 ∧ s.dstate fn d ≠ 0 then s.setDstate fn d 0 else s) s2
        (s3.modVd fn (fun v => { v with tdi := .unlocked, hold := false })).answer (.stopped fn))

/-- GET_DEVICE_INTERFACE_REPORT (R408). -/
def execGetDeviceInterfaceReport (fn : Nat) (s : State) : Out :=
  inSession s (fun s =>
    let t := (s.vd fn).tdi
    if fn = 0 ∨ 16 ≤ fn ∨ (t ≠ .locked ∧ t ≠ .run) then s.answer (.error errInvalid) else s.answer (.report fn true true))

/-- GET_DEVICE_INTERFACE_STATE (R408). -/
def execGetDeviceInterfaceState (fn : Nat) (s : State) : Out :=
  inSession s (fun s => if fn = 0 ∨ 16 ≤ fn then s.answer (.error errInvalid) else s.answer (.state fn (s.vd fn).tdi))

/-! ### Debug unlock -/

/-- Bytes of an SLH-DSA-SHAKE-256s signature. -/
def sigLen : Nat := 29792

/-- DEBUG_TOKEN_SUBMIT: a write of 1 to DBGGO (R409, R410). -/
def execDebugTokenSubmit (s : State) : Out :=
  let m := s.modl
  let n := 40 + sigLen
  let tok := if s.devPoisoned 0 m.dbgsrc.toNat n then none else s.devRead 0 m.dbgsrc.toNat n
  let good := match tok with
    | some b => numAt b 0 8 == Config.serial.toNat && numAt b 8 32 == m.dbgnonce.toNat && Config.sigOk 0 b
    | none => false
  let busy := (List.range' 1 15).any (fun v => (s.vd v).tdi == .locked || (s.vd v).tdi == .run)
  if !s.portOpen 0 then .next s
  else if !good then .next (s.modModule (fun m => { m with dbgstat := 1 }))
  else if busy then .next (s.modModule (fun m => { m with dbgstat := 2 }))
  else .next { s.modModule (fun m => { m with unlocked := true, dbgstat := 0, dbgnonce := Config.random s.fresh }) with
               fresh := s.fresh + 1 }

/-! ### Firmware -/

/-- A subsystem's firmware. -/
def State.fw (s : State) (k : Nat) : FwSub := mapGet {} k s.modl.fws
/-- Change a subsystem's firmware. -/
def State.modFw (s : State) (k : Nat) (f : FwSub → FwSub) : State :=
  s.modModule (fun m => { m with fws := mapPut k (f (mapGet {} k m.fws)) m.fws })
/-- FWSTAT. -/
def State.fwStat (s : State) (n : Nat) : State := s.modModule (fun m => { m with fwstat := n })

/-- FW_STAGE (R411). -/
def execFwStage (s : State) : Out :=
  let m := s.modl
  let n := m.fwlen.toNat
  let img := if s.devPoisoned 0 m.fwsrc.toNat n then none else s.devRead 0 m.fwsrc.toNat n
  if !s.portOpen 0 ∨ m.fwsel = 0 then .next s
  else
    let s := s.modModule (fun m => { m with fwcmd := 1 })
    match img with
    | none => .next (s.fwStat 2)
    | some b =>
      if Config.sigOk m.fwsel b && decide ((s.fw m.fwsel).secver ≤ Config.secVersion b) then
        .next ((s.modFw m.fwsel (fun x => { x with staged := some b })).fwStat 0)
      else .next (s.fwStat 2)

/-- FW_ACTIVATE: the staged image waits for its subsystem's boundary; FWSTAT 0x01 while it does (R411, log 61). -/
def execFwActivate (s : State) : Out :=
  let k := s.modl.fwsel
  if !s.portOpen 0 ∨ k = 0 then .next s
  else
    let s := s.modModule (fun m => { m with fwcmd := 2 })
    if (s.fw k).staged.isNone then .next (s.fwStat 2)
    else .next ((s.modFw k (fun x => { x with act := true, next := 0 })).fwStat 1)

/-- The subsystem stands at its boundary (R411). -/
def State.fwBoundary (s : State) (k : Nat) : Bool :=
  if k = 1 then s.modl.spdm.chal.isNone
  else if k = 3 then s.launches.all (fun l => l.starts.isEmpty)
  else if k = 4 then (upto 16).all (fun v => (s.vd v).loader.ldstate != 1)
  else true

/-! ### Links -/

/-- Links: 64 mesh links on each of the four shared edges (R14), then the 18 fabric ports. -/
def nLinks : Nat := 274
/-- Edge of a mesh link, 0 to 3 for 0-1, 2-3, 0-2 and 1-3, or the number of a fabric port (R14, R141; log 64). -/
def linkEdge (n : Nat) : Nat := if n < 256 then n / 64 else n - 256
/-- The dies that a shared edge joins (R14). -/
def edgeDies (e : Nat) : Nat × Nat := if e = 0 then (0, 1) else if e = 1 then (2, 3) else if e = 2 then (0, 2) else (1, 3)
/-- A mesh link of a die. -/
def linkOf (die n : Nat) : Bool :=
  let d := edgeDies (linkEdge n)
  decide (n < 256) && (d.1 == die || d.2 == die)

/-- Link. -/
def State.link (s : State) (n : Nat) : Link := mapGet {} n s.modl.links
/-- Replace a link. -/
def State.setLink (s : State) (n : Nat) (l : Link) : State := s.modModule (fun m => { m with links := mapSet {} n l m.links })

/-- Fresh keys of a link at its training (R401). -/
def Link.trained (l : Link) : Link :=
  { l with tx := { keygen := l.tx.keygen + 1 }, rx := { keygen := l.rx.keygen + 1 }, fails := 0 }

/-- The links that a test names retrain; a retired one stays so (R401, R413). -/
def State.retrain (s : State) (p : Nat → Bool) : State :=
  (upto nLinks).foldl (fun s n => if p n && !(s.link n).retired then s.setLink n (s.link n).trained else s) s

/-- FW_SWITCH: the subsystem runs the new image, or keeps its own where the self-test fails; the link controllers first retrain
one link after another (R401, R411). -/
def execFwSwitch (sub : Nat) (selfTest : Bool) (s : State) : Out :=
  let f := s.fw sub
  match f.staged with
  | none => .next s
  | some b =>
    if !f.act ∨ !s.fwBoundary sub then .next s
    else if sub = 5 ∧ f.next < nLinks then
      .next ((s.retrain (fun n => n == f.next)).modFw 5 (fun x => { x with next := f.next + 1 }))
    else if selfTest then .next ((s.modFw sub (fun _ => { meas := some (shake256 b), secver := Config.secVersion b })).fwStat 0)
    else .next ((s.modFw sub (fun x => { x with staged := none, act := false })).fwStat 3)

end Sys2Proof.Machine
end

