-- ==== Sys2Proof/Machine/Escape.lean ====
section
/-! DEFINITION. Family 0xE, the Escapement (R138, R349 to R356): streams, constraints, batches. -/
namespace Sys2Proof.Machine

/-- Identifier of stream n of a die (R349). -/
def streamId (die n : Nat) : Nat := die * 16 + n

/-- The stream that an operand names; FREE or another launch's is refused (R350). -/
def myStream (v : Nat) : M (Nat × Stream) := do
  let i := v % 64
  let x ← me
  let y ← look (fun s => s.stream i)
  need (y.st != .free && y.lid == x.lid && y.vdev == x.vdev) 2 i
  pure (i, y)

/-- Raise SYNCSTATE where a condition fails. -/
def synced (b : Bool) (v : Nat) : M Unit := if b then pure () else raise .syncstate 0 v

/-- The core of a set. -/
def State.inSet (s : State) (l : Launch) (n : Nat) : Bool := (s.coreSet l.vdev l.rcd).contains n

def execEsubOpen (h : Head) (pst : Nat) (d : Nat) (a : Src) (s : State) : Out :=
  issue h (do
    let v ← readN64 2 a
    let x ← me
    let g ← look State.cur
    need (x.depth == 0) 0 x.dspWord
    let l ← myLaunch
    match l with
    | none => raise .operand 2 v
    | some l => do
      let core := bitsAt v 0 14
      let y := bitsAt v 16 8
      let inSet ← look (fun s => s.inSet l core)
      need (bitsAt v 14 2 == 0 && bitsAt v 24 8 == 0 && bitsAt v 58 6 == 0 && inSet &&
        decide (bitsAt v 32 16 < l.rcd.segbound)) 2 v
      let die := dieOf g.core
      let free ← look (fun s => (upto 16).find? (fun n => (s.stream (streamId die n)).st == .free))
      match free with
      | none => writeP pst false
      | some n => do
        let i := streamId die n
        let sl ← look (fun s => s.slot core y)
        match sl with
        | none => raise .syncstate 0 y
        | some sl => do
          synced (sl.kind == .ph && decide (sl.nreg + 1 ≤ 65535)) y
          change (fun s => (s.setSlot core y { sl with nreg := sl.nreg + 1 }).setStream i { s.stream i with
            st := .opened, cfg := BitVec.ofNat 58 v, lid := x.lid, vdev := x.vdev, pendC := [], store := [], remain := 0
            infl := false, arr := false })
          writeScal d (BitVec.ofNat 64 i)
          writeP pst true) s

/-- A constraint from its two registers; none where a bit that must be zero is not (R352). -/
def constraintOf (u v cut : Nat) : Option Constraint :=
  let n := bitsAt u 32 2 + 1
  let all := [bitsAt u 34 20, bitsAt v 0 20, bitsAt v 20 20, bitsAt v 40 20]
  if bitsAt u 54 10 = 0 ∧ bitsAt v 60 4 = 0 ∧ (all.drop n).all (fun b => b == 0) then
    some { cut := cut, index := bitsAt u 0 32, bodies := all.take n }
  else none

/-- Constraints in a die's window (R138). -/
def State.window (s : State) (die : Nat) : Nat :=
  (upto 16).foldl (fun n k => n + (s.stream (streamId die k)).pendC.length) 0

def execEsub (h : Head) (a b : Src) (s : State) : Out :=
  issue h (do
    let v ← readN64 2 a
    let (u, w) ← readPair 3 b
    let (i, y) ← myStream v
    match constraintOf u.toNat w.toNat y.cut with
    | none => raise .operand 3 u.toNat
    | some c => do
      synced (y.st == .opened && decide (y.pendC.length < 4096)) i
      let full ← look (fun s => decide (4096 ≤ s.window (i / 16)))
      waitFor (!full)
      release
      change (fun s => s.setStream i { y with pendC := y.pendC ++ [c] })) s

/-- Seal the current cut (R353). -/
def closeCut (a : Src) : M (Nat × Stream) := do
  let v ← readN64 2 a
  let (i, y) ← myStream v
  synced (y.st == .opened) i
  let n := (y.cut + 1) % 2 ^ 32
  let y := { y with sealed := n, cut := n }
  change (fun s => s.setStream i y)
  pure (i, y)

def execEcloseCut (h : Head) (a : Src) (s : State) : Out :=
  issue h (do
    let _ ← closeCut a
    pure ()) s

/-- ECLOSE.end: a stream with nothing left drops its party at once; its slot may have stopped being a phaser (R353,
R355). -/
def execEcloseEnd (h : Head) (a : Src) (s : State) : Out :=
  issue h (do
    let (i, y) ← closeCut a
    change (fun s =>
      let (c, k) := y.target
      let s1 := s.setStream i { y with st := .ended }
      if y.pendC.isEmpty && !y.infl then
        match s.slot c k with
        | some l =>
          if l.kind = .ph then ((s1.setStream i { y with st := .ended }.freed).dropParty c k).complete c k
          else s1.setStream i { y with st := .error, pendC := [] }
        | none => s1.setStream i { y with st := .error, pendC := [] }
      else s1)) s

/-- The stream of a batch word, its batch the one in flight (R350, R355). -/
def batchStream (a : Src) : M (Nat × Stream) := do
  let v ← readN64 2 a
  let (i, y) ← myStream v
  synced (y.st != .error) i
  synced (bitsAt v 6 26 == (y.batch + 2 ^ 26 - 1) % 2 ^ 26) i
  pure (i, y)

def execEnext (h : Head) (d : Nat) (a b : Src) (s : State) : Out :=
  issue h (do
    need (d % 2 == 0 && decide (d ≤ 60)) 1 d
    let p ← readN64 3 b
    let (_, y) ← batchStream a
    match (if y.infl then y.store[p]? else none) with
    | none => raise .operand 3 p
    | some c =>
      let body (k : Nat) : Nat := nth c.bodies k
      writeScals d [BitVec.ofNat 64 (c.index + (c.bodies.length - 1) * 2 ^ 32), BitVec.ofNat 64 (body 0 + body 1 * 2 ^ 32),
        BitVec.ofNat 64 (body 2 + body 3 * 2 ^ 32)]) s

/-- ENEXT.done: finished positions are counted; the last lets the Escapement arrive (R355). -/
def execEnextDone (h : Head) (a b : Src) (s : State) : Out :=
  issue h (do
    let n ← readN64 3 b
    let (i, y) ← batchStream a
    synced (decide (1 ≤ n) && decide (n ≤ y.remain)) i
    release
    change (fun s =>
      let s1 := s.setStream i { y with remain := y.remain - n }
      let (c, k) := y.target
      if y.remain = n then (s1.arrive c k (.stream i)).complete c k else s1)) s

/-- STATE of a stream (R349). -/
def streamCode : StreamSt → Nat
  | .free => 0 | .opened => 1 | .ended => 2 | .error => 3

def execEstat (h : Head) (d : Nat) (a : Src) (s : State) : Out :=
  issue h (do
    let v ← readN64 2 a
    let (_, y) ← myStream v
    writeScal d (BitVec.ofNat 64 (streamCode y.st + y.infl.toNat * 4 + y.pendC.length * 8 + y.remain * 2 ^ 16
      + y.batch * 2 ^ 32))) s

/-- Formation of a batch from the constraints of a cut, in submission order: the batch and what stays (R354). -/
def formBatch (c0 : Nat) : List Constraint → List Constraint → List Nat → List Constraint × List Constraint
  | [], b, _ => (b.reverse, [])
  | c :: cs, b, used =>
    let bodies := c.bodies.filter (fun x => x != 0xFFFFF)
    if c.cut = c0 ∧ b.length < 1024 ∧ !bodies.any (fun x => used.contains x) then formBatch c0 cs (c :: b) (bodies ++ used)
    else
      let (t, keep) := formBatch c0 cs b used
      (t, c :: keep)

/-- The lowest cut of a stream's pending constraints, where it is sealed and the stream may release (R354). -/
def Stream.due (x : Stream) : Option Nat :=
  if !x.alive || x.infl then none
  else match x.pendC with
    | [] => none
    | c :: cs =>
      let c0 := cs.foldl (fun m d => min m d.cut) c.cut
      if c0 < x.sealed then some c0 else none

/-- ESCAPEMENT_BATCH_RELEASE: the next stream that is due, after the one served last, forms a batch and pushes it, while
the target's deque has room (R354). -/
def execEscapementBatchRelease (die : Nat) (s : State) : Out :=
  let last := mapGet 15 die s.modl.rrStream
  match ((upto 16).map (fun k => (last + 1 + k) % 16)).find? (fun n => (s.stream (streamId die n)).due.isSome) with
  | none => .next s
  | some n =>
    let i := streamId die n
    let y := s.stream i
    let (c, _) := y.target
    if !(s.core c).dqRoom || (s.vd y.vdev).cores.any (fun (d, _) => d == c) then .next s
    else
      let (b, keep) := formBatch (y.due.getD 0) y.pendC [] []
      let cfg := y.cfg.toNat
      let t : Task := { lid := y.lid, entry := bitsAt cfg 32 16, kind := 2, a0 := 0, a1 := b.length, g := bitsAt cfg 48 10 + 1
                        arg := i + 64 * (y.batch % 2 ^ 26) }
      let s1 := s.modCore c (fun x => x.dqPush t.word)
      let s2 := s1.setStream i { y with
        pendC := keep, store := b, batch := (y.batch + 1) % 2 ^ 32, remain := b.length, infl := true }
      .next (s2.modModule (fun m => { m with rrStream := mapPut die n m.rrStream }))

end Sys2Proof.Machine
end

