-- ==== Sys2Proof/Machine/Float.lean ====
section
/-! DEFINITION. Families 0x2 and 0x3: scalar float, conversion, comparison and predicates (R247, R260 to R264). -/
namespace Sys2Proof.Machine

/-- Two floating-point sources, their values and flags of reading. -/
def readF2 (f : Fmt) (a b : Src) : M (FVal × FVal) := do
  need (isFL f) 0 f.code
  let x ← readF f 2 a
  let y ← readF f 3 b
  let t ← me
  pure (decodeF f t.ftz x, decodeF f t.ftz y)

/-- Round an exact operation into D (R260). -/
def float2 (h : Head) (m : FMod) (d : Nat) (a b : Src) (f : FVal → FVal → FVal × Flags) (s : State) : Out :=
  issue h (do
    let (x, y) ← readF2 m.fmt a b
    let (v, fl) := f x y
    writeRound m.fmt m.rnd d v fl) s

def execFadd (h : Head) (m : FMod) (d : Nat) (a b : Src) (s : State) : Out := float2 h m d a b (fAdd m.rnd) s

def execFmul (h : Head) (m : FMod) (d : Nat) (a b : Src) (s : State) : Out := float2 h m d a b fMul s

def execFfma (h : Head) (m : FMod) (d : Nat) (a b : Src) (s : State) : Out :=
  issue h (do
    let (x, y) ← readF2 m.fmt a b
    let c ← readD d
    let t ← me
    let (v, fl) := fFma m.rnd x y (decodeF m.fmt t.ftz (c.toNat % 2 ^ fmtWidth m.fmt))
    writeRound m.fmt m.rnd d v fl) s

def execFmin (h : Head) (f : Fmt) (d : Nat) (a b : Src) (s : State) : Out :=
  float2 h ⟨f, .rne⟩ d a b (fMinMax false) s

def execFmax (h : Head) (f : Fmt) (d : Nat) (a b : Src) (s : State) : Out :=
  float2 h ⟨f, .rne⟩ d a b (fMinMax true) s

def execFcmp (h : Head) (f : Fmt) (cc : Nat) (d : Nat) (a b : Src) (s : State) : Out :=
  issue h (do
    let (x, y) ← readF2 f a b
    let (r, fl) := fCond cc x y
    flag fl
    writeP d r) s

/-- Format of a floating-point type of CVT (R262). -/
def cfmt : CTy → Fmt
  | .fp64 => .fp64 | .fp32 => .fp32 | .fp16 => .fp16 | .bf16 => .bf16 | .e4m3 => .e4m3 | .e5m2 => .e5m2 | .int _ => .fp64

/-- What CVT makes of a value: the result written, 64 bits (R50, R262). -/
def cvtTo (dty : CTy) (rnd : Rnd) (satc ftz : Bool) (v : FVal) : Word × Flags :=
  match dty with
  | .int t =>
    let (r, f) := roundToInt (sgn t) (wOf t) rnd v
    (BitVec.ofInt 64 r, f)
  | c =>
    let (r, f) := roundF (cfmt c) ftz rnd (if satc then .nan else .sat) v
    (BitVec.ofNat 64 r, f)

def execCvt (h : Head) (dty sty : CTy) (rnd : Rnd) (satc : Bool) (d : Nat) (a : Src) (s : State) : Out :=
  issue h (do
    match sty with
    | .int t => do
      let x ← readInt t 2 a
      match dty with
      | .int u => writeInt u (!satc) d x
      | _ => do
        let y ← me
        let (v, f) := cvtTo dty rnd satc y.ftz (.ofInt x)
        flag f
        writeScal d v
    | c => do
      let p ← readF (cfmt c) 2 a
      let y ← me
      let x := decodeF (cfmt c) y.ftz p
      let (v, f) := cvtTo dty rnd satc y.ftz x
      flag (f ||| x.nvOf)
      writeScal d v) s

def execCmp (h : Head) (ty : ITy) (cc : Nat) (d : Nat) (a b : Src) (s : State) : Out :=
  issue h (do
    let x ← readInt ty 2 a
    let y ← readInt ty 3 b
    writeP d (iCond cc (wOf ty) x y)) s

def execPset (h : Head) (pa pb lut : Nat) (d : Nat) (s : State) : Out :=
  issue h (do
    let x ← me
    writeP d (lut.testBit (2 * (x.p pa).toNat + (x.p pb).toNat))) s

end Sys2Proof.Machine
end

