-- ==== Sys2Proof/Machine/Power.lean ====
section
/-! DEFINITION. Links (R401), core retirement (R165), time (R195), clock, heat and coolant (R12, R414), and resets (R413). -/
namespace Sys2Proof.Machine

/-! ### Links -/

/-- FLIT_TAG_FAIL: the flit is discarded and the link retrains under fresh keys and resends, with event 0x02; the third
failure to retrain in succession retires it (R141, R401). -/
def execFlitTagFail (link : Nat) (retrained : Bool) (s : State) : Out :=
  let l := s.link link
  .next (if nLinks ≤ link ∨ l.retired then s
  else if retrained then
    ({ s with fresh := s.fresh + 1 }.setLink link l.trained).postEvent 0
      (event 0 2 link (linkEdge link) (Config.linkLanes link s.fresh))
  else s.setLink link { l with fails := l.fails + 1, retired := decide (3 ≤ l.fails + 1) })

/-- A direction takes a fresh key, from which its counter starts at 0, where the counter has reached 2^47 (R401). -/
def Way.rekey (w : Way) : Way := if 2 ^ 47 ≤ w.count then { keygen := w.keygen + 1 } else w

/-- LINK_REKEY: the directions of a link whose counters have reached 2^47 take fresh keys (R401). -/
def execLinkRekey (link : Nat) (s : State) : Out :=
  let l := s.link link
  .next (if nLinks ≤ link ∨ l.retired then s else s.setLink link { l with tx := l.tx.rekey, rx := l.rx.rekey })

/-! ### Core retirement -/

/-- Detour entry of a die's spare (R164). -/
def State.detour (s : State) (die k : Nat) : BitVec 32 := mapGet 0 (die * 64 + k) s.route

/-- A logical core that has passed to a spare: the spare's own region table, caches and handler record are as after reset.
No queue loses an entry, and registers and counters stand (R120, R165, R194; log 73). -/
def Core.onSpare (x : Core) : Core :=
  { x with lrt := [], ccache := [], tlb := [], hinst := none, halted := false, pre := none, retiring := false, tile := none }

/-- The spare that a retired core takes: of the die's spares with V = 0, which R15 does not choose among, that of the
lowest detour entry (log 73). -/
def State.spare (s : State) (die : Nat) : Option Nat := (upto 64).find? (fun k => !(s.detour die k).getLsbD 31)

/-- The last part of a retirement: the logical number passes to a spare, or becomes unmapped where none remains, and
event 0x05 (R141, R165). -/
def State.replaceCore (s : State) (n : Nat) : State :=
  let die := dieOf n
  let i := dieIdx n
  let old := (s.lptEntry die i).toNat % 4096
  let vd := mapGet 0 (n / 128) s.rowVd
  match s.spare die with
  | none =>
    let s1 := s.modCore n (fun x => { x with retiring := false })
    { s1 with lpt := mapPut (die * 4096 + i) (BitVec.ofNat 16 old) s1.lpt }.postEvent vd (event 0 5 n old old)
  | some k =>
    let new := 63 * 64 + k
    let s1 := { (s.emptyCores (fun m => m == n)).modCore n Core.onSpare with
      route := mapPut (die * 64 + k) (BitVec.ofNat 32 (2 ^ 31 + k * 2 ^ 24 + old * 2 ^ 12 + i)) s.route
      lpt := mapPut (die * 4096 + i) (BitVec.ofNat 16 (0x8000 + new)) s.lpt }
    s1.postEvent vd (event 0 5 n old new)

/-- CORE_RETIRE: what is bound for the core is held, and its threads are retired with CORE_RETIRED; once none is left its number
passes on (R165, R204, R205). -/
def execCoreRetire (n : Nat) (s : State) : Out :=
  .next (if !s.mapped n then s
  else if (s.core n).running then (s.modCore n (fun x => { x with retiring := true })).preempt n .retire
  else s.replaceCore n)

/-! ### Time -/

/-- PTP_SYNC: RCLK has counted `elapsed` more nanoseconds, slewed by at most 200 ppm towards the reference, which lies
`offset` nanoseconds ahead; more than 1 ms ahead is a forward step. Until the first synchronisation completes RCLK
free-runs (R195). -/
def execPtpSync (offset : Int) (elapsed : Nat) (s : State) : Out :=
  let s := s.noteMet
  let most : Int := if s.modl.synced then (elapsed * 200 / 1000000 : Nat) else 0
  let slew := if 1000000 < offset then offset else max (-most) (min most offset)
  .next (s.modModule (fun m => { m with rclk := (m.rclk + ((elapsed : Int) + slew).toNat) % 2 ^ 64, synced := true }))

/-! ### Clock, heat, coolant -/

/-- Lowest clock, in sixteenths (R12, R414). -/
def clockMin : Nat := 4

/-- THERMAL_STEP: a sensor's reading, taken every 1 ms: at 100 °C or above the clock falls one step (R414). -/
def execThermalStep (temp : Nat) (s : State) : Out :=
  .next (s.modModule (fun m =>
    { m with hot := decide (100 ≤ temp), clock := if 100 ≤ temp then max clockMin (m.clock - 1) else m.clock }))

/-- THERMAL_TRIP: at 110 °C the module's clocks stop, and the management bus bears the report (R414). -/
def execThermalTrip (temp : Nat) (s : State) : Out :=
  .next (if 110 ≤ temp then s.modModule (fun m => { m with hot := true, tripped := true, tripRep := true }) else s)

/-- COOLANT_FLOW_LOW: below 4.0 L/min, here 4,000 mL/min, the module is limited to 3.0 kW (R414). -/
def execCoolantFlowLow (flow : Nat) (s : State) : Out :=
  .next (if flow < 4000 then s.modModule (fun m => { m with coolLow := true }) else s)

/-- COOLANT_FLOW_RESTORED: the limit is lifted (R414). -/
def execCoolantFlowRestored (flow : Nat) (s : State) : Out :=
  .next (if 4000 ≤ flow then s.modModule (fun m => { m with coolLow := false }) else s)

/-- The power that the module may draw, in watts (R12, R414). -/
def Module.powerLimit (m : Module) : Nat := if m.coolLow then 3000 else 5000

/-- POWER_LIMIT_STEP: at a module power, in watts, the clock changes by one sixteenth, between 4/16 and 16/16: down where the power
lies above the limit, up where it does not and no sensor reads 100 °C (R12, R414). -/
def execPowerLimitStep (p : PowerStep) (s : State) : Out :=
  .next (s.modModule (fun m =>
    if p.up then (if p.power ≤ m.powerLimit ∧ !m.hot then { m with clock := min 16 (m.clock + 1) } else m)
    else if m.powerLimit < p.power then { m with clock := max clockMin (m.clock - 1) }
    else m))

/-! ### Resets -/

/-- The virtual device holds a core of the die. -/
def State.onDie (s : State) (vd die : Nat) : Bool :=
  let q := s.quota vd
  q.active && q.rowList.any (fun y => y / 63 == die / 2)

/-- DIE_RESET: the die's links retrain, every virtual device with a core on the die is torn down, event 0x03 (R413). -/
def execDieReset (die : Nat) (reason : BitVec 64) (s : State) : Out :=
  .next (if 4 ≤ die then s
  else ((upto 16).foldl (fun t v => if s.onDie v die then t.teardown v else t) (s.retrain (linkOf die))).postEvent 0
    (event 0 3 die reason.toNat 0))

/-- What a firmware subsystem keeps through a cold reset: its one running image (R411). -/
def FwSub.kept (f : FwSub) : FwSub := { meas := f.meas, secver := f.secver }

/-- MODULE_COLD_RESET: the machine as it is after reset. Memory beyond the module with its errors, the schedule's own counters,
certificate slots and running firmware images stay (R2, R411, R413). -/
def execModuleColdReset (s : State) : Out :=
  .next { State.reset with
    host := s.host, fabric := s.fabric, hpoison := s.hpoison, fpoison := s.fpoison
    moves := s.moves, fresh := s.fresh, agenda := s.agenda
    modl := { State.reset.modl with
      spdm := { certs := s.modl.spdm.certs }, fws := mapVals (fun _ (f : FwSub) => f.kept) s.modl.fws } }

end Sys2Proof.Machine
end

