-- ==== Sys2Proof/Machine/Dispatch.lean ====
section
/-! DEFINITION. One arm for each constructor of Instr: a direct call of its meaning. -/
namespace Sys2Proof.Machine

/-- What an instruction of the opcode table does. -/
def exec (i : Instr) (s : State) : Host.Outcome State Fault Refusal :=
  match i with
  | .nop x0 => Sys2Proof.Machine.execNop x0 s
  | .bra x0 x1 => Sys2Proof.Machine.execBra x0 x1 s
  | .brx x0 x1 x2 x3 => Sys2Proof.Machine.execBrx x0 x1 x2 x3 s
  | .call x0 x1 x2 => Sys2Proof.Machine.execCall x0 x1 x2 s
  | .ret x0 x1 => Sys2Proof.Machine.execRet x0 x1 s
  | .loop x0 x1 x2 => Sys2Proof.Machine.execLoop x0 x1 x2 s
  | .rep x0 x1 x2 x3 x4 => Sys2Proof.Machine.execRep x0 x1 x2 x3 x4 s
  | .exit x0 => Sys2Proof.Machine.execExit x0 s
  | .waitf x0 x1 x2 => Sys2Proof.Machine.execWaitf x0 x1 x2 s
  | .mov x0 x1 x2 x3 => Sys2Proof.Machine.execMov x0 x1 x2 x3 s
  | .ldil x0 x1 x2 => Sys2Proof.Machine.execLdil x0 x1 x2 s
  | .ldih x0 x1 x2 => Sys2Proof.Machine.execLdih x0 x1 x2 s
  | .add x0 x1 x2 x3 x4 => Sys2Proof.Machine.execAdd x0 x1 x2 x3 x4 s
  | .sub x0 x1 x2 x3 x4 => Sys2Proof.Machine.execSub x0 x1 x2 x3 x4 s
  | .mul x0 x1 x2 x3 x4 => Sys2Proof.Machine.execMul x0 x1 x2 x3 x4 s
  | .mulh x0 x1 x2 x3 x4 => Sys2Proof.Machine.execMulh x0 x1 x2 x3 x4 s
  | .mad x0 x1 x2 x3 x4 => Sys2Proof.Machine.execMad x0 x1 x2 x3 x4 s
  | .div x0 x1 x2 x3 x4 => Sys2Proof.Machine.execDiv x0 x1 x2 x3 x4 s
  | .rem x0 x1 x2 x3 x4 => Sys2Proof.Machine.execRem x0 x1 x2 x3 x4 s
  | .neg x0 x1 x2 x3 => Sys2Proof.Machine.execNeg x0 x1 x2 x3 s
  | .abs x0 x1 x2 x3 => Sys2Proof.Machine.execAbs x0 x1 x2 x3 s
  | .min x0 x1 x2 x3 x4 => Sys2Proof.Machine.execMin x0 x1 x2 x3 x4 s
  | .max x0 x1 x2 x3 x4 => Sys2Proof.Machine.execMax x0 x1 x2 x3 x4 s
  | .and x0 x1 x2 x3 x4 => Sys2Proof.Machine.execAnd x0 x1 x2 x3 x4 s
  | .or x0 x1 x2 x3 x4 => Sys2Proof.Machine.execOr x0 x1 x2 x3 x4 s
  | .xor x0 x1 x2 x3 x4 => Sys2Proof.Machine.execXor x0 x1 x2 x3 x4 s
  | .andn x0 x1 x2 x3 x4 => Sys2Proof.Machine.execAndn x0 x1 x2 x3 x4 s
  | .shl x0 x1 x2 x3 x4 => Sys2Proof.Machine.execShl x0 x1 x2 x3 x4 s
  | .shr x0 x1 x2 x3 x4 => Sys2Proof.Machine.execShr x0 x1 x2 x3 x4 s
  | .sar x0 x1 x2 x3 x4 => Sys2Proof.Machine.execSar x0 x1 x2 x3 x4 s
  | .rol x0 x1 x2 x3 x4 => Sys2Proof.Machine.execRol x0 x1 x2 x3 x4 s
  | .bext x0 x1 x2 x3 x4 => Sys2Proof.Machine.execBext x0 x1 x2 x3 x4 s
  | .bins x0 x1 x2 x3 x4 => Sys2Proof.Machine.execBins x0 x1 x2 x3 x4 s
  | .clz x0 x1 x2 x3 => Sys2Proof.Machine.execClz x0 x1 x2 x3 s
  | .ctz x0 x1 x2 x3 => Sys2Proof.Machine.execCtz x0 x1 x2 x3 s
  | .popc x0 x1 x2 x3 => Sys2Proof.Machine.execPopc x0 x1 x2 x3 s
  | .sel x0 x1 x2 x3 x4 x5 x6 => Sys2Proof.Machine.execSel x0 x1 x2 x3 x4 x5 x6 s
  | .gaddr x0 x1 x2 x3 => Sys2Proof.Machine.execGaddr x0 x1 x2 x3 s
  | .fadd x0 x1 x2 x3 x4 => Sys2Proof.Machine.execFadd x0 x1 x2 x3 x4 s
  | .fmul x0 x1 x2 x3 x4 => Sys2Proof.Machine.execFmul x0 x1 x2 x3 x4 s
  | .ffma x0 x1 x2 x3 x4 => Sys2Proof.Machine.execFfma x0 x1 x2 x3 x4 s
  | .fmin x0 x1 x2 x3 x4 => Sys2Proof.Machine.execFmin x0 x1 x2 x3 x4 s
  | .fmax x0 x1 x2 x3 x4 => Sys2Proof.Machine.execFmax x0 x1 x2 x3 x4 s
  | .fcmp x0 x1 x2 x3 x4 x5 => Sys2Proof.Machine.execFcmp x0 x1 x2 x3 x4 x5 s
  | .cvt x0 x1 x2 x3 x4 x5 x6 => Sys2Proof.Machine.execCvt x0 x1 x2 x3 x4 x5 x6 s
  | .cmp x0 x1 x2 x3 x4 x5 => Sys2Proof.Machine.execCmp x0 x1 x2 x3 x4 x5 s
  | .pset x0 x1 x2 x3 x4 => Sys2Proof.Machine.execPset x0 x1 x2 x3 x4 s
  | .tview x0 x1 x2 => Sys2Proof.Machine.execTview x0 x1 x2 s
  | .tvalid x0 x1 x2 x3 x4 => Sys2Proof.Machine.execTvalid x0 x1 x2 x3 x4 s
  | .tget x0 x1 x2 x3 => Sys2Proof.Machine.execTget x0 x1 x2 x3 s
  | .tldr x0 x1 x2 => Sys2Proof.Machine.execTldr x0 x1 x2 s
  | .tmov x0 x1 x2 x3 => Sys2Proof.Machine.execTmov x0 x1 x2 x3 s
  | .tcopy x0 x1 x2 x3 => Sys2Proof.Machine.execTcopy x0 x1 x2 x3 s
  | .tfill x0 x1 x2 x3 => Sys2Proof.Machine.execTfill x0 x1 x2 x3 s
  | .tiota x0 x1 x2 x3 x4 x5 => Sys2Proof.Machine.execTiota x0 x1 x2 x3 x4 x5 s
  | .tbcast x0 x1 x2 x3 x4 => Sys2Proof.Machine.execTbcast x0 x1 x2 x3 x4 s
  | .ttrans x0 x1 x2 x3 => Sys2Proof.Machine.execTtrans x0 x1 x2 x3 s
  | .tgather x0 x1 x2 x3 x4 x5 => Sys2Proof.Machine.execTgather x0 x1 x2 x3 x4 x5 s
  | .tadd x0 x1 x2 x3 x4 => Sys2Proof.Machine.execTadd x0 x1 x2 x3 x4 s
  | .tsub x0 x1 x2 x3 x4 => Sys2Proof.Machine.execTsub x0 x1 x2 x3 x4 s
  | .tmul x0 x1 x2 x3 x4 => Sys2Proof.Machine.execTmul x0 x1 x2 x3 x4 s
  | .tfma x0 x1 x2 x3 x4 => Sys2Proof.Machine.execTfma x0 x1 x2 x3 x4 s
  | .tdiv x0 x1 x2 x3 x4 x5 => Sys2Proof.Machine.execTdiv x0 x1 x2 x3 x4 x5 s
  | .tmin x0 x1 x2 x3 x4 => Sys2Proof.Machine.execTmin x0 x1 x2 x3 x4 s
  | .tmax x0 x1 x2 x3 x4 => Sys2Proof.Machine.execTmax x0 x1 x2 x3 x4 s
  | .tabs x0 x1 x2 x3 x4 => Sys2Proof.Machine.execTabs x0 x1 x2 x3 x4 s
  | .tneg x0 x1 x2 x3 x4 => Sys2Proof.Machine.execTneg x0 x1 x2 x3 x4 s
  | .tand x0 x1 x2 x3 x4 => Sys2Proof.Machine.execTand x0 x1 x2 x3 x4 s
  | .tor x0 x1 x2 x3 x4 => Sys2Proof.Machine.execTor x0 x1 x2 x3 x4 s
  | .txor x0 x1 x2 x3 x4 => Sys2Proof.Machine.execTxor x0 x1 x2 x3 x4 s
  | .tshl x0 x1 x2 x3 x4 => Sys2Proof.Machine.execTshl x0 x1 x2 x3 x4 s
  | .tshr x0 x1 x2 x3 x4 => Sys2Proof.Machine.execTshr x0 x1 x2 x3 x4 s
  | .tcmp x0 x1 x2 x3 x4 x5 => Sys2Proof.Machine.execTcmp x0 x1 x2 x3 x4 x5 s
  | .tsel x0 x1 x2 x3 x4 x5 => Sys2Proof.Machine.execTsel x0 x1 x2 x3 x4 x5 s
  | .tcmul x0 x1 x2 x3 x4 x5 => Sys2Proof.Machine.execTcmul x0 x1 x2 x3 x4 x5 s
  | .tcfma x0 x1 x2 x3 x4 x5 => Sys2Proof.Machine.execTcfma x0 x1 x2 x3 x4 x5 s
  | .tred x0 x1 x2 x3 x4 x5 => Sys2Proof.Machine.execTred x0 x1 x2 x3 x4 x5 s
  | .texp2 x0 x1 x2 x3 => Sys2Proof.Machine.execTexp2 x0 x1 x2 x3 s
  | .tlog2 x0 x1 x2 x3 => Sys2Proof.Machine.execTlog2 x0 x1 x2 x3 s
  | .trcp x0 x1 x2 x3 x4 => Sys2Proof.Machine.execTrcp x0 x1 x2 x3 x4 s
  | .trsq x0 x1 x2 x3 => Sys2Proof.Machine.execTrsq x0 x1 x2 x3 s
  | .tsqrt x0 x1 x2 x3 x4 => Sys2Proof.Machine.execTsqrt x0 x1 x2 x3 x4 s
  | .tsin x0 x1 x2 x3 => Sys2Proof.Machine.execTsin x0 x1 x2 x3 s
  | .tcos x0 x1 x2 x3 => Sys2Proof.Machine.execTcos x0 x1 x2 x3 s
  | .tconv x0 x1 x2 x3 x4 x5 => Sys2Proof.Machine.execTconv x0 x1 x2 x3 x4 x5 s
  | .tscale x0 x1 x2 x3 x4 x5 => Sys2Proof.Machine.execTscale x0 x1 x2 x3 x4 x5 s
  | .tsplit x0 x1 x2 x3 => Sys2Proof.Machine.execTsplit x0 x1 x2 x3 s
  | .mma x0 x1 x2 x3 x4 x5 => Sys2Proof.Machine.execMma x0 x1 x2 x3 x4 x5 s
  | .mmac x0 x1 x2 x3 x4 => Sys2Proof.Machine.execMmac x0 x1 x2 x3 x4 s
  | .mzero x0 x1 x2 x3 x4 => Sys2Proof.Machine.execMzero x0 x1 x2 x3 x4 s
  | .mload x0 x1 x2 x3 => Sys2Proof.Machine.execMload x0 x1 x2 x3 s
  | .mdrain x0 x1 x2 x3 x4 x5 x6 x7 => Sys2Proof.Machine.execMdrain x0 x1 x2 x3 x4 x5 x6 x7 s
  | .mdrainc x0 x1 x2 x3 x4 x5 x6 x7 x8 x9 => Sys2Proof.Machine.execMdrainc x0 x1 x2 x3 x4 x5 x6 x7 x8 x9 s
  | .mgang x0 x1 x2 x3 x4 x5 => Sys2Proof.Machine.execMgang x0 x1 x2 x3 x4 x5 s
  | .cpyLd x0 x1 x2 x3 x4 x5 x6 => Sys2Proof.Machine.execCpyLd x0 x1 x2 x3 x4 x5 x6 s
  | .cpySt x0 x1 x2 x3 x4 x5 => Sys2Proof.Machine.execCpySt x0 x1 x2 x3 x4 x5 s
  | .cpyg x0 x1 x2 x3 x4 x5 => Sys2Proof.Machine.execCpyg x0 x1 x2 x3 x4 x5 s
  | .cpys x0 x1 x2 x3 x4 x5 => Sys2Proof.Machine.execCpys x0 x1 x2 x3 x4 x5 s
  | .cpyadd x0 x1 x2 x3 x4 x5 => Sys2Proof.Machine.execCpyadd x0 x1 x2 x3 x4 x5 s
  | .cpyx x0 x1 => Sys2Proof.Machine.execCpyx x0 x1 s
  | .tlwait x0 x1 x2 => Sys2Proof.Machine.execTlwait x0 x1 x2 s
  | .tlget x0 x1 x2 x3 => Sys2Proof.Machine.execTlget x0 x1 x2 x3 s
  | .tladv x0 x1 x2 => Sys2Proof.Machine.execTladv x0 x1 x2 s
  | .ld x0 x1 x2 x3 x4 x5 => Sys2Proof.Machine.execLd x0 x1 x2 x3 x4 x5 s
  | .ldTile x0 x1 x2 x3 => Sys2Proof.Machine.execLdTile x0 x1 x2 x3 s
  | .st x0 x1 x2 x3 x4 => Sys2Proof.Machine.execSt x0 x1 x2 x3 x4 s
  | .stTile x0 x1 x2 x3 => Sys2Proof.Machine.execStTile x0 x1 x2 x3 s
  | .lda x0 x1 x2 x3 x4 x5 => Sys2Proof.Machine.execLda x0 x1 x2 x3 x4 x5 s
  | .stl x0 x1 x2 x3 x4 => Sys2Proof.Machine.execStl x0 x1 x2 x3 x4 s
  | .pref x0 x1 x2 => Sys2Proof.Machine.execPref x0 x1 x2 s
  | .aadd x0 x1 x2 x3 x4 => Sys2Proof.Machine.execAadd x0 x1 x2 x3 x4 s
  | .amin x0 x1 x2 x3 x4 => Sys2Proof.Machine.execAmin x0 x1 x2 x3 x4 s
  | .amax x0 x1 x2 x3 x4 => Sys2Proof.Machine.execAmax x0 x1 x2 x3 x4 s
  | .aand x0 x1 x2 x3 x4 => Sys2Proof.Machine.execAand x0 x1 x2 x3 x4 s
  | .aor x0 x1 x2 x3 x4 => Sys2Proof.Machine.execAor x0 x1 x2 x3 x4 s
  | .axor x0 x1 x2 x3 x4 => Sys2Proof.Machine.execAxor x0 x1 x2 x3 x4 s
  | .axchg x0 x1 x2 x3 x4 => Sys2Proof.Machine.execAxchg x0 x1 x2 x3 x4 s
  | .acas x0 x1 x2 x3 x4 => Sys2Proof.Machine.execAcas x0 x1 x2 x3 x4 s
  | .aincw x0 x1 x2 x3 x4 => Sys2Proof.Machine.execAincw x0 x1 x2 x3 x4 s
  | .afadd x0 x1 x2 x3 x4 => Sys2Proof.Machine.execAfadd x0 x1 x2 x3 x4 s
  | .fence x0 x1 x2 => Sys2Proof.Machine.execFence x0 x1 x2 s
  | .codefLoc x0 => Sys2Proof.Machine.execCodefLoc x0 s
  | .codefDev x0 x1 x2 => Sys2Proof.Machine.execCodefDev x0 x1 x2 s
  | .synew x0 x1 x2 x3 x4 => Sys2Proof.Machine.execSynew x0 x1 x2 x3 x4 s
  | .syfree x0 x1 => Sys2Proof.Machine.execSyfree x0 x1 s
  | .phreg x0 x1 x2 x3 => Sys2Proof.Machine.execPhreg x0 x1 x2 x3 s
  | .phdrop x0 x1 x2 x3 => Sys2Proof.Machine.execPhdrop x0 x1 x2 x3 s
  | .phsig x0 x1 x2 => Sys2Proof.Machine.execPhsig x0 x1 x2 s
  | .phwait x0 x1 x2 x3 x4 => Sys2Proof.Machine.execPhwait x0 x1 x2 x3 x4 s
  | .phnext x0 x1 x2 => Sys2Proof.Machine.execPhnext x0 x1 x2 s
  | .tqacq x0 x1 x2 x3 => Sys2Proof.Machine.execTqacq x0 x1 x2 x3 s
  | .tqpost x0 x1 x2 x3 => Sys2Proof.Machine.execTqpost x0 x1 x2 x3 s
  | .tqtake x0 x1 x2 x3 => Sys2Proof.Machine.execTqtake x0 x1 x2 x3 s
  | .tqrel x0 x1 x2 x3 => Sys2Proof.Machine.execTqrel x0 x1 x2 x3 s
  | .sstep x0 => Sys2Proof.Machine.execSstep x0 s
  | .join x0 x1 x2 => Sys2Proof.Machine.execJoin x0 x1 x2 s
  | .leave x0 x1 x2 => Sys2Proof.Machine.execLeave x0 x1 x2 s
  | .fork x0 x1 x2 => Sys2Proof.Machine.execFork x0 x1 x2 s
  | .rfork x0 x1 x2 => Sys2Proof.Machine.execRfork x0 x1 x2 s
  | .task x0 x1 => Sys2Proof.Machine.execTask x0 x1 s
  | .taskEv x0 x1 x2 => Sys2Proof.Machine.execTaskEv x0 x1 x2 s
  | .tdone x0 x1 x2 => Sys2Proof.Machine.execTdone x0 x1 x2 s
  | .efork x0 x1 x2 x3 => Sys2Proof.Machine.execEfork x0 x1 x2 x3 s
  | .rdv x0 => Sys2Proof.Machine.execRdv x0 s
  | .launch x0 x1 x2 x3 => Sys2Proof.Machine.execLaunch x0 x1 x2 x3 s
  | .send x0 x1 x2 x3 x4 => Sys2Proof.Machine.execSend x0 x1 x2 x3 x4 s
  | .recv x0 x1 => Sys2Proof.Machine.execRecv x0 x1 s
  | .gpost x0 x1 x2 => Sys2Proof.Machine.execGpost x0 x1 x2 s
  | .gretract x0 x1 x2 => Sys2Proof.Machine.execGretract x0 x1 x2 s
  | .gwin x0 x1 x2 x3 x4 x5 => Sys2Proof.Machine.execGwin x0 x1 x2 x3 x4 x5 s
  | .gcall x0 x1 x2 => Sys2Proof.Machine.execGcall x0 x1 x2 s
  | .gret x0 => Sys2Proof.Machine.execGret x0 s
  | .ginfo x0 x1 x2 => Sys2Proof.Machine.execGinfo x0 x1 x2 s
  | .gclean x0 => Sys2Proof.Machine.execGclean x0 s
  | .drevoke x0 x1 => Sys2Proof.Machine.execDrevoke x0 x1 s
  | .drevokeKill x0 x1 => Sys2Proof.Machine.execDrevokeKill x0 x1 s
  | .esubOpen x0 x1 x2 x3 => Sys2Proof.Machine.execEsubOpen x0 x1 x2 x3 s
  | .esub x0 x1 x2 => Sys2Proof.Machine.execEsub x0 x1 x2 s
  | .ecloseCut x0 x1 => Sys2Proof.Machine.execEcloseCut x0 x1 s
  | .ecloseEnd x0 x1 => Sys2Proof.Machine.execEcloseEnd x0 x1 s
  | .enext x0 x1 x2 x3 => Sys2Proof.Machine.execEnext x0 x1 x2 x3 s
  | .enextDone x0 x1 x2 => Sys2Proof.Machine.execEnextDone x0 x1 x2 s
  | .estat x0 x1 x2 => Sys2Proof.Machine.execEstat x0 x1 x2 s
  | .sysr x0 x1 x2 x3 x4 => Sys2Proof.Machine.execSysr x0 x1 x2 x3 x4 s
  | .sysw x0 x1 x2 x3 x4 => Sys2Proof.Machine.execSysw x0 x1 x2 x3 x4 s
  | .trap x0 x1 => Sys2Proof.Machine.execTrap x0 x1 s
  | .eret x0 => Sys2Proof.Machine.execEret x0 s
  | .wait x0 x1 x2 x3 x4 => Sys2Proof.Machine.execWait x0 x1 x2 x3 x4 s
  | .tlbinv x0 x1 x2 x3 x4 => Sys2Proof.Machine.execTlbinv x0 x1 x2 x3 x4 s
  | .hinst x0 x1 => Sys2Proof.Machine.execHinst x0 x1 s
  | .chkp x0 x1 x2 => Sys2Proof.Machine.execChkp x0 x1 x2 s
  | .chkx x0 => Sys2Proof.Machine.execChkx x0 s
  | .follow x0 x1 x2 x3 x4 => Sys2Proof.Machine.execFollow x0 x1 x2 x3 x4 s
  | .unfollow x0 => Sys2Proof.Machine.execUnfollow x0 s
  | .capr x0 x1 x2 => Sys2Proof.Machine.execCapr x0 x1 x2 s
  | .sigcorePre x0 x1 x2 => Sys2Proof.Machine.execSigcorePre x0 x1 x2 s
  | .sigcoreSpawn x0 x1 x2 x3 => Sys2Proof.Machine.execSigcoreSpawn x0 x1 x2 x3 s
  | .sigcoreRes x0 x1 x2 x3 => Sys2Proof.Machine.execSigcoreRes x0 x1 x2 x3 s
  | .accessReply x0 => Sys2Proof.Machine.execAccessReply x0 s
  | .homeFailureReport x0 => Sys2Proof.Machine.execHomeFailureReport x0 s
  | .remoteAccess x0 x1 => Sys2Proof.Machine.execRemoteAccess x0 x1 s
  | .deviceHomeAccess x0 x1 => Sys2Proof.Machine.execDeviceHomeAccess x0 x1 s
  | .translationWalk x0 => Sys2Proof.Machine.execTranslationWalk x0 s
  | .dirtyLogAtomic x0 => Sys2Proof.Machine.execDirtyLogAtomic x0 s
  | .tlbinvComplete x0 => Sys2Proof.Machine.execTlbinvComplete x0 s
  | .copyOpRetire x0 x1 x2 => Sys2Proof.Machine.execCopyOpRetire x0 x1 x2 s
  | .matrixOpRetire x0 x1 => Sys2Proof.Machine.execMatrixOpRetire x0 x1 s
  | .engineFault x0 x1 x2 => Sys2Proof.Machine.execEngineFault x0 x1 x2 s
  | .messageArrival x0 => Sys2Proof.Machine.execMessageArrival x0 s
  | .messageRetry x0 => Sys2Proof.Machine.execMessageRetry x0 s
  | .superstepRelease x0 => Sys2Proof.Machine.execSuperstepRelease x0 s
  | .idleSeatSearch x0 x1 => Sys2Proof.Machine.execIdleSeatSearch x0 x1 s
  | .returnSlotEntry x0 => Sys2Proof.Machine.execReturnSlotEntry x0 s
  | .issueHoldExpiry x0 x1 x2 => Sys2Proof.Machine.execIssueHoldExpiry x0 x1 x2 s
  | .waitTimeout x0 x1 => Sys2Proof.Machine.execWaitTimeout x0 x1 s
  | .chkpTimeout x0 => Sys2Proof.Machine.execChkpTimeout x0 s
  | .chkxTimeout x0 => Sys2Proof.Machine.execChkxTimeout x0 s
  | .quotaExpiry x0 x1 => Sys2Proof.Machine.execQuotaExpiry x0 x1 s
  | .threadSave x0 x1 => Sys2Proof.Machine.execThreadSave x0 x1 s
  | .savefaultTimeout x0 x1 => Sys2Proof.Machine.execSavefaultTimeout x0 x1 s
  | .coreImageSave x0 x1 => Sys2Proof.Machine.execCoreImageSave x0 x1 s
  | .turnStart x0 => Sys2Proof.Machine.execTurnStart x0 s
  | .handlerTimeout x0 x1 => Sys2Proof.Machine.execHandlerTimeout x0 x1 s
  | .unwindTake x0 x1 => Sys2Proof.Machine.execUnwindTake x0 x1 s
  | .unwindPop x0 x1 => Sys2Proof.Machine.execUnwindPop x0 x1 s
  | .cleanupOverrun x0 x1 => Sys2Proof.Machine.execCleanupOverrun x0 x1 s
  | .domainFreed x0 x1 => Sys2Proof.Machine.execDomainFreed x0 x1 s
  | .escapementBatchRelease x0 => Sys2Proof.Machine.execEscapementBatchRelease x0 s
  | .regulatorFire x0 => Sys2Proof.Machine.execRegulatorFire x0 s
  | .doorbell x0 x1 x2 => Sys2Proof.Machine.execDoorbell x0 x1 x2 s
  | .qcmdEnd x0 x1 => Sys2Proof.Machine.execQcmdEnd x0 x1 s
  | .qcmdLaunch x0 x1 => Sys2Proof.Machine.execQcmdLaunch x0 x1 s
  | .qcmdCopy x0 x1 => Sys2Proof.Machine.execQcmdCopy x0 x1 s
  | .qcmdSignal x0 x1 => Sys2Proof.Machine.execQcmdSignal x0 x1 s
  | .qcmdWait x0 x1 => Sys2Proof.Machine.execQcmdWait x0 x1 s
  | .copyCommandComplete x0 x1 => Sys2Proof.Machine.execCopyCommandComplete x0 x1 s
  | .dispatchVisit x0 => Sys2Proof.Machine.execDispatchVisit x0 s
  | .startMessage x0 x1 => Sys2Proof.Machine.execStartMessage x0 x1 s
  | .launchComplete x0 => Sys2Proof.Machine.execLaunchComplete x0 s
  | .queueEnable x0 x1 => Sys2Proof.Machine.execQueueEnable x0 x1 s
  | .queueKill x0 x1 x2 => Sys2Proof.Machine.execQueueKill x0 x1 x2 s
  | .loadGo x0 => Sys2Proof.Machine.execLoadGo x0 s
  | .loadComplete x0 => Sys2Proof.Machine.execLoadComplete x0 s
  | .quotaWrite => Sys2Proof.Machine.execQuotaWrite s
  | .quotaTeardown => Sys2Proof.Machine.execQuotaTeardown s
  | .dlgetWrite x0 x1 => Sys2Proof.Machine.execDlgetWrite x0 x1 s
  | .registerWrite x0 x1 x2 x3 => Sys2Proof.Machine.execRegisterWrite x0 x1 x2 x3 s
  | .hostMemAccess x0 x1 x2 => Sys2Proof.Machine.execHostMemAccess x0 x1 x2 s
  | .backInvalidateResponse x0 => Sys2Proof.Machine.execBackInvalidateResponse x0 s
  | .fabricRequest x0 x1 x2 x3 => Sys2Proof.Machine.execFabricRequest x0 x1 x2 x3 s
  | .pullDataArrival x0 x1 => Sys2Proof.Machine.execPullDataArrival x0 x1 s
  | .pullFail x0 => Sys2Proof.Machine.execPullFail x0 s
  | .proposePage x0 x1 => Sys2Proof.Machine.execProposePage x0 x1 s
  | .proposeDomain x0 x1 => Sys2Proof.Machine.execProposeDomain x0 x1 s
  | .reclaimZeroFillDone x0 => Sys2Proof.Machine.execReclaimZeroFillDone x0 s
  | .getVersion => Sys2Proof.Machine.execGetVersion s
  | .getCapabilities => Sys2Proof.Machine.execGetCapabilities s
  | .negotiateAlgorithms x0 x1 x2 x3 => Sys2Proof.Machine.execNegotiateAlgorithms x0 x1 x2 x3 s
  | .getDigests => Sys2Proof.Machine.execGetDigests s
  | .getCertificate x0 x1 x2 => Sys2Proof.Machine.execGetCertificate x0 x1 x2 s
  | .setCertificate x0 x1 => Sys2Proof.Machine.execSetCertificate x0 x1 s
  | .challenge x0 x1 => Sys2Proof.Machine.execChallenge x0 x1 s
  | .getMeasurements x0 => Sys2Proof.Machine.execGetMeasurements x0 s
  | .keyExchange x0 x1 => Sys2Proof.Machine.execKeyExchange x0 x1 s
  | .finish x0 => Sys2Proof.Machine.execFinish x0 s
  | .endSession => Sys2Proof.Machine.execEndSession s
  | .keySlotLoad x0 x1 x2 x3 => Sys2Proof.Machine.execKeySlotLoad x0 x1 x2 x3 s
  | .keySlotErase x0 x1 => Sys2Proof.Machine.execKeySlotErase x0 x1 s
  | .ideKm x0 => Sys2Proof.Machine.execIdeKm x0 s
  | .ideStreamFailure x0 => Sys2Proof.Machine.execIdeStreamFailure x0 s
  | .lockInterfaceRequest x0 => Sys2Proof.Machine.execLockInterfaceRequest x0 s
  | .startInterfaceRequest x0 x1 => Sys2Proof.Machine.execStartInterfaceRequest x0 x1 s
  | .stopInterfaceRequest x0 => Sys2Proof.Machine.execStopInterfaceRequest x0 s
  | .getDeviceInterfaceReport x0 => Sys2Proof.Machine.execGetDeviceInterfaceReport x0 s
  | .getDeviceInterfaceState x0 => Sys2Proof.Machine.execGetDeviceInterfaceState x0 s
  | .debugTokenSubmit => Sys2Proof.Machine.execDebugTokenSubmit s
  | .fwStage => Sys2Proof.Machine.execFwStage s
  | .fwActivate => Sys2Proof.Machine.execFwActivate s
  | .fwSwitch x0 x1 => Sys2Proof.Machine.execFwSwitch x0 x1 s
  | .flitTagFail x0 x1 => Sys2Proof.Machine.execFlitTagFail x0 x1 s
  | .linkRekey x0 => Sys2Proof.Machine.execLinkRekey x0 s
  | .coreRetire x0 => Sys2Proof.Machine.execCoreRetire x0 s
  | .ptpSync x0 x1 => Sys2Proof.Machine.execPtpSync x0 x1 s
  | .thermalStep x0 => Sys2Proof.Machine.execThermalStep x0 s
  | .thermalTrip x0 => Sys2Proof.Machine.execThermalTrip x0 s
  | .coolantFlowLow x0 => Sys2Proof.Machine.execCoolantFlowLow x0 s
  | .powerLimitStep x0 => Sys2Proof.Machine.execPowerLimitStep x0 s
  | .dieReset x0 x1 => Sys2Proof.Machine.execDieReset x0 x1 s
  | .moduleColdReset => Sys2Proof.Machine.execModuleColdReset s
  | .migrationStart x0 x1 x2 x3 x4 => Sys2Proof.Machine.execMigrationStart x0 x1 x2 x3 x4 s
  | .challengeResponseSent => Sys2Proof.Machine.execChallengeResponseSent s
  | .storeAcknowledgement x0 => Sys2Proof.Machine.execStoreAcknowledgement x0 s
  | .remoteSyncArrival x0 => Sys2Proof.Machine.execRemoteSyncArrival x0 s
  | .coolantFlowRestored x0 => Sys2Proof.Machine.execCoolantFlowRestored x0 s

end Sys2Proof.Machine
end

