-- ==== Sys2Proof/Machine/Run.lean ====
section
/-! DEFINITION. One issue of a strand (R20, R232), forwarding in a gang (R25, R26), and one move of the machine. -/
namespace Sys2Proof.Machine

/-- The strand's fetch buffer after its issue of an instruction at `old` (R376, R386). -/
def State.afterIssue (s : State) (a : Agent) (old : Pc) (i : Instr) (pre : Nat) : State :=
  if s.did then
    let s1 := s.modStrand a (fun t => t.keepBuf old)
    if (toFields i).endH then s1 else (upto (min pre 24)).foldl (fun s _ => s.prefetch a) s1
  else s

/-- Change the gang record of a core. -/
def State.modGang (s : State) (n : Nat) (f : Gang → Gang) : State :=
  s.modCore n (fun x => { x with gang := x.gang.map f })

/-- What a member does with a forwarded instruction. The leader has decided branches and the repeat; CALL's and LOOP's write
of D is each member's own, where its own guard is true (R25, R250). -/
def memberExec (i : Instr) (s : State) : Out :=
  match i with
  | .bra h _ => issue h (pure ()) s
  | .brx h _ _ _ => issue h (pure ()) s
  | .ret h _ => issue h (pure ()) s
  | .rep h _ _ _ _ => issue h (pure ()) s
  | .call h d _ => issue h (do
      let i ← nextIdx
      writeScal d (BitVec.ofNat 64 i)) s
  | .loop h d _ => issue h (do
      let v ← readD d
      if v = 0 then pure () else writeScal d (v - 1)) s
  | i => exec i s

/-- A follower ignores PRI and YLD (R217). -/
def Seat.keepsHints (x old : Seat) : Seat := { x with pri := old.pri, yld := old.yld }

/-- Execute a forwarded instruction on the members that have not yet done so; it stops at a member that waits or traps
(R25, R26). The leader is among them where a trap of the instruction came to it late. -/
def forwardTo (i : Instr) (pc : Pc) (rep : Rep) : List (Nat × Gang) → State → Out
  | [], s => .next s
  | (n, g) :: ms, s =>
    let a : Agent := { core := n, seat := g.seat, strn := .main }
    let s1 := { s.modStrand a (fun t => { t with pc := pc, rep := rep, hold := false }) with cur := a, did := false }
    if !(s.strand a).blk.open_ then .next s1
    else match memberExec i s1 with
    | .next s2 =>
      if s2.did then
        let s3 := if g.leader = n then s2 else s2.modSeat n g.seat (fun x => x.keepsHints (s.seat n g.seat))
        forwardTo i pc rep ms (s3.modGang n (fun g => { g with gdone := true }))
      else .next s2
    | o => o

/-- Followers stand at the leader's PC and REPC, and nothing is left to forward. -/
def State.syncGang (s : State) (l k : Nat) : State :=
  let m := (s.seat l k).main
  (s.gangOf l).foldl (fun s (n, g) =>
    let s1 := s.modGang n (fun g => { g with gdone := false, fwd := none })
    if n = l then s1
    else s1.modStrand { core := n, seat := g.seat } (fun t => { t with pc := m.pc, rep := m.rep, hold := false })) s

/-- The waits into which an instruction has put members are met (R25). -/
def State.gangAwake (s : State) (l : Nat) : Bool :=
  (s.gangOf l).all (fun (n, g) => (s.strand { core := n, seat := g.seat }).blk.open_)

/-- Forwarding of the leader's instruction (R25); the leader goes on where every member has executed it. -/
def State.forward (s : State) (l k : Nat) : Out :=
  match (s.core l).gang with
  | none => .next s
  | some g =>
    match g.fwd with
    | none => .next s
    | some (i, pc, rep) =>
      match forwardTo i pc rep ((s.gangOf l).filter (fun (_, h) => !h.gdone)) s with
      | .next s' =>
        if (s'.gangOf l).all (fun (_, h) => h.gdone) && s'.gangAwake l then .next (s'.syncGang l k) else .next s'
      | o => o

/-- The core leads a gang with this seat, whose handler does not run (R25, R26). -/
def Core.leads (x : Core) (n k : Nat) : Option Gang :=
  match x.gang with
  | some g => if g.seat = k ∧ g.leader = n ∧ !(x.seat k).hnd then some g else none
  | none => none

/-- One issue of a strand. A home-side report is raised first (R315); a gang's leader then forwards (R25). -/
def State.issueAt (s : State) (a : Agent) (pre : Nat) : Out :=
  let s := { s with cur := a, did := false }
  if !s.ready a then .next s
  else
    let x := s.seat a.core a.seat
    let lead := if a.strn = .main then (s.core a.core).leads a.core a.seat else none
    let fwd := lead.bind (fun g => g.fwd)
    match (if (s.core a.core).tiling a.seat || fwd.isSome then none else x.reports.find? (fun (k, _) => k == a.strn)) with
    | some r =>
      .next ((s.modSeat a.core a.seat (fun x => { x with reports := x.reports.erase r })).takeTrap a r.2 false)
    | none =>
      match fwd with
      | some _ => s.forward a.core a.seat
      | none =>
        let t := s.strand a
        match s.nextInstr a with
        | .error tr => .next (s.takeTrap a tr false)
        | .ok i =>
          match exec i s with
          | .next s1 =>
            let s2 := s1.afterIssue a t.pc i pre
            if s2.did && a.strn == .main && ((s2.core a.core).leads a.core a.seat).isSome && lead.isSome then
              (s2.modGang a.core (fun g => { g with fwd := some (i, t.pc, t.rep), gdone := true })).forward a.core a.seat
            else .next s2
          | o => o

/-- What a seat's issue leaves where its next instruction has an unmet wait; none where it has none, so that it issues,
traps or goes on (R20). -/
def State.unmet (s : State) (c k pre : Nat) : Option State :=
  match s.issueAt { core := c, seat := k } pre with
  | .next t => if t.did || t.seat c k ≠ s.seat c k || (t.core c).halted then none else some t
  | _ => none

/-- The ready seats of a core (R20), after the seats that wait have put in what they wait for. -/
def State.readySeats (s : State) (c pre : Nat) : State × List Nat :=
  (upto 4).foldl (fun (s, l) k =>
    if s.ready { core := c, seat := k } then
      match s.unmet c k pre with
      | some t => (t, l)
      | none => (s, l ++ [k])
    else (s, l)) (s, [])

/-- The followers of a core's gang, before a step, that have executed an instruction in it (R25). -/
def State.forwardedTo (s t : State) (c : Nat) : List Nat :=
  let gone := match (t.core c).gang with | some g => g.fwd.isNone | none => false
  ((s.gangOf c).filter (fun (n, g) => n != c && !g.gdone &&
    (if gone then t.did else match (t.core n).gang with | some h => h.gdone | none => false))).map (fun (n, _) => n)

/-- One choice of a core's issue port (R20), then the issue. A forwarded instruction takes the follower's slot ahead of its
other seats (R25). -/
def State.portAt (s : State) (c pre : Nat) : Out :=
  let (s0, ready) := s.readySeats c pre
  let k := (s0.core c).choose ready
  let s1 := s0.modCore c (fun x => x.ages ready k)
  match k with
  | some k =>
    match s1.issueAt { core := c, seat := k } pre with
    | .next t => .next ((s1.forwardedTo t c).foldl (fun t n => t.modCore n (fun x => x.ages (s1.readySeats n 0).2 none)) t)
    | o => o
  | none => .next s1

/-! ### Time and bit errors -/

/-- A slice's count after some cycles; that of a fixed-quota device does not count (R83). -/
def Seat.count (x : Seat) (fixed : Bool) (n : Nat) : Seat :=
  if x.holds && !fixed then { x with cyc := BitVec.ofNat 48 (x.cyc.toNat - n) } else x

/-- Seats that a virtual device holds: those of its threads and the idle ones (R21, R186). -/
def State.heldSeats (s : State) (vd : Nat) : Nat :=
  (s.cores.map (fun e => ((upto 4).filter (fun k =>
    let t := e.2.seat k
    t.vdev == vd && (t.holds || t.occ == .idle))).length)).sum

/-- BUD of the cleanup that a seat runs after some cycles (R181). -/
def Seat.countBud (x : Seat) (n : Nat) : Seat :=
  match x.unw, x.frames with
  | some u, f :: fs => if u.run && x.holds then { x with frames := { f with bud := f.bud - n } :: fs } else x
  | _, _ => x

/-- Time goes by: RCLK counts (R195), CYC of each seat that a thread holds falls (R83, R193), BUD of cleanups with it (R181), and
VUSED rises by the seats held, the credit falling with it (R186, R391). -/
def State.elapse (s : State) (ns cycles : Nat) : State :=
  let s := (upto 16).foldl (fun t v => if (t.vd v).heldEv.isEmpty then t else t.flushEvents 257 v) s
  let s0 := s.noteMet
  let s1 := s0.modModule (fun m => { m with rclk := (m.rclk + ns) % 2 ^ 64 })
  let s2 := (upto 16).foldl (fun (t : State) v =>
    let n := s.heldSeats v * cycles
    if n = 0 then t else t.modVd v (fun x => { x with vused := (x.vused + n) % 2 ^ 64, cr := x.cr - n })) s1
  if cycles = 0 then s2
  else s2.modCores (fun _ x => (upto 4).foldl (fun (x : Core) k =>
    x.modSeat k (fun t => (t.count (s.quota t.vdev).fixed cycles).countBud cycles)) x)

/-- A bit error of a word or line (R91, R108, R186; log 95). One that can be corrected is counted: this is the read that
corrects it. Another marks the word where it strikes, and is counted where a read finds the word marked. One in a deque, a
sync unit or a table that cannot be corrected tears down the virtual device (R213). -/
def State.flaw (s : State) (m : EccMem) (n : Nat) (hard : Bool) : State :=
  let owner (c : Nat) : Nat := mapGet 0 (c / 128) s.rowVd
  let tear (s : State) (vd : Nat) : State := if hard ∧ vd < 16 then s.teardown vd else s
  let core (c : Nat) (known : Bool) (t : State) : State :=
    if nCores ≤ c then s
    else if hard && !known then t
    else s.modCore c (fun x => if hard then { x with eccu := satInc x.eccu } else { x with eccc := satInc x.eccc })
  match m with
  | .bank => core (n / 32768) (mapFind n s.lpoison).isSome { s with lpoison := mapPut n () s.lpoison }
  | .acc => core (n / 16384) (mapFind n s.apoison).isSome { s with apoison := mapPut n () s.apoison }
  | .deque | .sync => if nCores ≤ n then s else tear s (owner n)
  | .table => tear s n
  | .cache | .dram =>
    let slice := n * 64 / sliceBytes
    if 192 ≤ slice then s
    else if hard && (mapFind n s.dpoison).isNone then
      (s.tablesOn n).foldl tear { s with dpoison := mapPut n () s.dpoison }
    else
      let up (i : Nat) (l : List (Nat × Nat)) : List (Nat × Nat) := mapPut i (satInc (mapGet 0 i l)) l
      s.modModule (fun z => match m, hard with
        | .cache, false => { z with mscc := up (slice / 48) z.mscc }
        | .cache, true => { z with mscu := up (slice / 48) z.mscu }
        | _, false => { z with drc := up slice z.drc }
        | _, true => { z with dru := up slice z.dru })

/-- Flits pass on a direction of a link: its counter rises, to 2^47 at most before the rekey (R401). -/
def State.flits (s : State) (l : Nat) (tx : Bool) (n : Nat) : State :=
  let up (w : Way) : Way := { w with count := min (w.count + n) (2 ^ 47) }
  if 274 ≤ l then s
  else s.modModule (fun m =>
    let k := mapGet {} l m.links
    if k.retired then m
    else { m with links := mapPut l (if tx then { k with tx := up k.tx } else { k with rx := up k.rx }) m.links })

/-- A sleeper's word differs from the value that WAIT names (R360). -/
def Blk.wake (b : Blk) (word : Nat → Nat) : Blk :=
  match b with
  | .timed off v .none => .timed off v (if word off ≠ v then some true else Option.none)
  | b => b

/-- A core after a step: a write that made a sleeper's word differ has woken it, whatever is written later (R360). -/
def Core.wake (x : Core) (word : Nat → Nat) : Core :=
  { x with seats := x.seats.map (fun t => { t with
      main := { t.main with blk := t.main.blk.wake word }
      held := t.held.map (fun h => { h with mblk := h.mblk.wake word }) }) }

/-- A seat sleeps in WAIT. -/
def Seat.sleeps (t : Seat) : Bool :=
  let timed (b : Blk) : Bool := match b with | .timed _ _ none => true | _ => false
  timed t.main.blk || (match t.held with | some h => timed h.mblk | none => false)

/-- The sleepers whose word has been made to differ are woken (R360). -/
def State.wake (s : State) : State :=
  if s.cores.any (fun e => (upto 4).any (fun k => (e.2.seat k).sleeps)) then
    s.modCores (fun n x => x.wake (fun off => s.locNum n off 8))
  else s

/-- One move. A main strand issues through its core's port alone (R20). -/
def act (m : Move) (s : State) : Out :=
  match m with
  | .strand c k st pre => if st = .main then .next s else s.issueAt { core := c, seat := k, strn := st } pre
  | .port c pre => s.portAt c pre
  | .reach l => .next { s with reach := l }
  | .flaw m n hard => .next (s.flaw m n hard)
  | .pass ns cycles => .next (s.elapse ns cycles)
  | .flits l tx n => .next (s.flits l tx n)
  | .event i => if i.isEvent then exec i { s with cur := {}, did := false } else .next s

/-- A move of a unit that makes an access which was held again (R398). -/
def isAgain (m : Move) : Bool :=
  match m with
  | .strand .. | .port .. => true
  | .event i => match i with
    | .copyOpRetire .. | .matrixOpRetire .. | .superstepRelease .. | .threadSave .. | .idleSeatSearch .. | .startMessage ..
    | .loadComplete .. | .qcmdEnd .. | .qcmdLaunch .. | .qcmdCopy .. | .copyCommandComplete .. | .escapementBatchRelease ..
    | .coreImageSave .. | .unwindTake .. | .unwindPop .. | .domainFreed .. | .dispatchVisit .. | .launchComplete ..
    | .regulatorFire .. | .fabricRequest .. => true
    | _ => false
  | _ => false

/-- Accesses of units that the move has had held are made again in it (R398). -/
def Pull.named (p : Pull) (m : Move) : Pull :=
  if isAgain m then { p with queue := p.queue.map (fun h => match h with | .unit v d a none => .unit v d a (some m) | h => h) } else p

/-- One move, after which sleepers are woken. -/
def runMove (m : Move) (s : State) : Out :=
  match act m s with
  | .next t => .next { t with pulls := t.pulls.map (fun (p : Pull) => p.named m) }.wake
  | o => o

/-- The next move: the head of the agenda, else a free choice (log 1). -/
def State.popMove (s : State) : Move × State :=
  match s.agenda with
  | m :: ms => (m, { s with agenda := ms })
  | [] => (Config.nextMove s.moves, { s with moves := s.moves + 1 })

/-- Local region entry of a code granule of a domain (R161). -/
def codeEntry (vd dom : Nat) : BitVec 32 := BitVec.ofNat 32 (vd * 2 ^ 28 + dom * 2 ^ 12 + 0xB40)

/-- A seat that holds a running thread at its PC. -/
def Seat.atWord (x : Seat) : Seat :=
  { x with occ := .thread, main := { x.main with live := true, hold := false, blk := .none, fbuf := [], rep := {} }
           segb := max x.segb (x.main.pc.idx + 1), pend := none, seq := .none, unw := none, marked := false, reports := []
           ending := false, cyc := if x.cyc = 0 then 1 else x.cyc }

/-- Place the bytes of an instruction where the main strand of core 0, seat 0 fetches next, with what its fetch needs
(R78, R94): the thread, the code granules, the row in the quota, and that strand's turn. -/
def placeWord (s : State) (bytes : List Byte) : State :=
  let x := s.seat 0 0
  let off := codeAddr x.main.pc
  let e := codeEntry x.vdev x.who.dom
  let q := s.quota x.vdev
  let s1 := { s with lmem := memWrites s.lmem (lkey 0 off) bytes
                     quotas := mapPut x.vdev { q with active := true, rows := q.rows ||| 1 } s.quotas
                     agenda := [.port 0 0], modl := { s.modl with tripped := false } }
  s1.modCore 0 (fun y => { y.modSeat 0 Seat.atWord with
    halted := false, pre := none, gang := none
    lrt := mapPut ((off + 11) / 4096) e (mapPut (off / 4096) e y.lrt) })

end Sys2Proof.Machine
end

