-- ==== Sys2Proof/Machine/Step.lean ====
section
/-! DEFINITION. One step of the machine, and an instruction placed where the next step fetches it. -/
namespace Sys2Proof.Machine

/-- One step: the next move. After a thermal trip has stopped the module's clocks only a cold reset can follow (R413, R414). -/
def step (s : State) : Host.Outcome State Fault Refusal :=
  if s.modl.tripped ∧ s.popMove.1 ≠ .event .moduleColdReset then .fault .clocksStopped
  else runMove s.popMove.1 s.popMove.2

/-- `s` with the instruction whose bits are `w` placed where the next step fetches. -/
def State.withFetchWord (s : State) (nbits w : Nat) : State := placeWord s (leBytes (w % 2 ^ nbits) 12)

end Sys2Proof.Machine
end

