-- ==== Sys2Proof/Safety.lean ====
section
/-! DEFINITION. What counts as a safe run, in the terms that claims use. -/
namespace Sys2Proof.Safety
open Sys2Proof.Machine

/-- A step is safe where the machine goes on: it neither stops nor lacks a meaning. -/
def Goes (o : Out) : Prop := ∃ s', o = .next s'

/-- Every byte memory stands in its canonical form. -/
def MemWf (s : State) : Prop :=
  s.lmem.wf = true ∧ s.acc.wf = true ∧ s.dram.wf = true ∧ s.host.wf = true ∧ s.fabric.wf = true

/-- A reachable state: from reset by moves of the machine, whatever agenda stands there. -/
inductive Reachable : State → Prop where
  | reset (ms : List Move) : Reachable { State.reset with agenda := ms }
  | step {s s' : State} : Reachable s → Machine.step s = .next s' → Reachable s'

end Sys2Proof.Safety
end

