-- ==== Sys2Proof/WellFormed.lean ====
section
/-! DEFINITION. The terms of Instr that a word can hold: every field within its width, and every operand of a kind that
the instruction accepts (R214 to R226, and the tables of R249 to R357). The steps of units are not words, and are not
well formed. -/
namespace Sys2Proof

/-- Widths of guard and hints; the inverted p0 is reserved (R214, R216). -/
def Head.wf (h : Head) : Bool :=
  decide (h.gpred < 8) && decide (h.pri < 4) && decide (h.dly < 16) && !(h.ginv && h.gpred == 0)

/-- Source modifiers that an operand accepts (R221). -/
def SrcMod.ok (s : SrcSpec) (m : SrcMod) : Bool := (s.neg || !m.neg) && (s.abs || !m.abs) && (s.conj || !m.conj)

/-- A source of an accepted kind, its fields within their widths (R220 to R222). -/
def Src.ok (s : SrcSpec) : Src → Bool
  | .tile n m _ => s.tile && decide (n < 64) && m.ok s
  | .scal n m _ => s.scal && decide (n < 64) && m.ok s
  | .cbank b sz off =>
    s.cbank && decide (b < 16) && decide (sz < 4) && decide (off < 65536) && decide (off % 2 ^ sz = 0)
      && (match s.csize with | some c => sz == c | none => true)
  | .lit _ => s.lit

/-- An optional source (R224). -/
def okO (s : SrcSpec) : Option Src → Bool
  | some x => x.ok s
  | none => true

/-- An optional scalar destination (R218). -/
def okD : Option Nat → Bool
  | some d => decide (d < 64)
  | none => true

set_option maxHeartbeats 4000000 in
/-- Well formed: what a word can hold and no decode check refuses (R232, R233). -/
def Instr.wf : Instr → Bool
  | .nop h => h.wf
  | .bra h a => h.wf && a.ok kSCL
  | .brx h lim a b => h.wf && decide (lim < 16384) && a.ok kSCL && b.ok kSL
  | .call h d a => h.wf && decide (d < 64) && a.ok kSCL
  | .ret h a => h.wf && a.ok kS
  | .loop h d a => h.wf && decide (d < 64) && a.ok kSCL
  | .rep h ds as bs a => h.wf && decide (ds < 4) && decide (as < 4) && decide (bs < 4) && a.ok kSL
  | .exit h => h.wf
  | .waitf h a b => h.wf && a.ok kTS && okO kTS b
  | .mov h _ d a => h.wf && decide (d < 64) && a.ok kSCL
  | .ldil h d _ => h.wf && decide (d < 64)
  | .ldih h d _ => h.wf && decide (d < 64)
  | .add h _ d a b => h.wf && decide (d < 64) && a.ok kSCL.na && b.ok kSCL.na
  | .sub h _ d a b => h.wf && decide (d < 64) && a.ok kSCL.na && b.ok kSCL.na
  | .mul h _ d a b => h.wf && decide (d < 64) && a.ok kSCL.na && b.ok kSCL.na
  | .mad h _ d a b => h.wf && decide (d < 64) && a.ok kSCL.na && b.ok kSCL.na
  | .div h _ d a b => h.wf && decide (d < 64) && a.ok kSCL.na && b.ok kSCL.na
  | .mulh h _ d a b => h.wf && decide (d < 64) && a.ok kSCL.na && b.ok kSCL.na
  | .rem h _ d a b => h.wf && decide (d < 64) && a.ok kSCL.na && b.ok kSCL.na
  | .min h _ d a b => h.wf && decide (d < 64) && a.ok kSCL.na && b.ok kSCL.na
  | .max h _ d a b => h.wf && decide (d < 64) && a.ok kSCL.na && b.ok kSCL.na
  | .neg h _ d a => h.wf && decide (d < 64) && a.ok kSCL
  | .abs h _ d a => h.wf && decide (d < 64) && a.ok kSCL
  | .and h _ d a b => h.wf && decide (d < 64) && a.ok kSCL && b.ok kSCL
  | .or h _ d a b => h.wf && decide (d < 64) && a.ok kSCL && b.ok kSCL
  | .xor h _ d a b => h.wf && decide (d < 64) && a.ok kSCL && b.ok kSCL
  | .andn h _ d a b => h.wf && decide (d < 64) && a.ok kSCL && b.ok kSCL
  | .shl h _ d a b => h.wf && decide (d < 64) && a.ok kSCL && b.ok kSCL
  | .shr h _ d a b => h.wf && decide (d < 64) && a.ok kSCL && b.ok kSCL
  | .sar h _ d a b => h.wf && decide (d < 64) && a.ok kSCL && b.ok kSCL
  | .rol h _ d a b => h.wf && decide (d < 64) && a.ok kSCL && b.ok kSCL
  | .bext h _ d a b => h.wf && decide (d < 64) && a.ok kSCL && b.ok kSCL
  | .bins h _ d a b => h.wf && decide (d < 64) && a.ok kSCL && b.ok kSCL
  | .clz h _ d a => h.wf && decide (d < 64) && a.ok kSCL
  | .ctz h _ d a => h.wf && decide (d < 64) && a.ok kSCL
  | .popc h _ d a => h.wf && decide (d < 64) && a.ok kSCL
  | .sel h _ psel _ d a b => h.wf && decide (psel < 8) && decide (d < 64) && a.ok kSCL && b.ok kSCL
  | .gaddr h d a b => h.wf && decide (d < 64) && a.ok kSL && b.ok kS
  | .fadd h m d a b => h.wf && decide (d < 64) && a.ok ((kSCL.na).z m.fmt.csize) && b.ok ((kSCL.na).z m.fmt.csize)
  | .fmul h m d a b => h.wf && decide (d < 64) && a.ok ((kSCL.na).z m.fmt.csize) && b.ok ((kSCL.na).z m.fmt.csize)
  | .ffma h m d a b => h.wf && decide (d < 64) && a.ok ((kSCL.na).z m.fmt.csize) && b.ok ((kSCL.na).z m.fmt.csize)
  | .fmin h f d a b => h.wf && decide (d < 64) && a.ok ((kSCL.na).z f.csize) && b.ok ((kSCL.na).z f.csize)
  | .fmax h f d a b => h.wf && decide (d < 64) && a.ok ((kSCL.na).z f.csize) && b.ok ((kSCL.na).z f.csize)
  | .fcmp h f cc d a b =>
    h.wf && decide (cc < 8) && decide (d < 8) && a.ok ((kSCL.na).z f.csize) && b.ok ((kSCL.na).z f.csize)
  | .cvt h dty sty _ satc d a =>
    h.wf && !(sty.isFloat && !dty.isFloat && satc) && decide (d < 64) && a.ok ((if sty.isFloat then kSCL.na else kSCL).z sty.csize)
  | .cmp h _ cc d a b => h.wf && decide (cc < 8) && decide (d < 8) && a.ok kSCL.na && b.ok kSCL.na
  | .pset h pa pb lut d => h.wf && decide (pa < 8) && decide (pb < 8) && decide (lut < 16) && decide (d < 8)
  | .tview h d a => h.wf && decide (d < 64) && a.ok kSC
  | .tvalid h _ d a b => h.wf && decide (d < 64) && a.ok kSCL && b.ok kSCL
  | .tget h d a b => h.wf && decide (d < 64) && a.ok kT && b.ok kL
  | .tldr h d a => h.wf && decide (d < 64) && a.ok kSCL
  | .tmov h _ d a => h.wf && decide (d < 64) && a.ok kT
  | .tcopy h _ d a => h.wf && decide (d < 64) && a.ok kT
  | .tfill h f d a => h.wf && decide (d < 64) && a.ok (kSCL.zf f)
  | .tiota h m _ d a b => h.wf && decide (d < 64) && a.ok (kSCL.zf m.fmt) && b.ok (kSCL.zf m.fmt)
  | .tbcast h _ _ d a => h.wf && decide (d < 64) && a.ok kT
  | .ttrans h _ d a => h.wf && decide (d < 64) && a.ok kT
  | .tgather h _ _ d a b => h.wf && decide (d < 64) && a.ok kT && b.ok kTSCL
  | .tadd h m d a b => h.wf && decide (d < 64) && a.ok (kTSCL.nac.zf m.fmt) && b.ok (kTSCL.nac.zf m.fmt)
  | .tsub h m d a b => h.wf && decide (d < 64) && a.ok (kTSCL.nac.zf m.fmt) && b.ok (kTSCL.nac.zf m.fmt)
  | .tmul h m d a b => h.wf && decide (d < 64) && a.ok (kTSCL.na.zf m.fmt) && b.ok (kTSCL.na.zf m.fmt)
  | .tfma h m d a b => h.wf && decide (d < 64) && a.ok (kTSCL.na.zf m.fmt) && b.ok (kTSCL.na.zf m.fmt)
  | .tdiv h f _ d a b => h.wf && decide (d < 64) && a.ok (kTSCL.na.zf f) && b.ok (kTSCL.na.zf f)
  | .tmin h f d a b => h.wf && decide (d < 64) && a.ok (kTSCL.na.zf f) && b.ok (kTSCL.na.zf f)
  | .tmax h f d a b => h.wf && decide (d < 64) && a.ok (kTSCL.na.zf f) && b.ok (kTSCL.na.zf f)
  | .tand h f d a b => h.wf && decide (d < 64) && a.ok (kTSCL.na.zf f) && b.ok (kTSCL.na.zf f)
  | .tor h f d a b => h.wf && decide (d < 64) && a.ok (kTSCL.na.zf f) && b.ok (kTSCL.na.zf f)
  | .txor h f d a b => h.wf && decide (d < 64) && a.ok (kTSCL.na.zf f) && b.ok (kTSCL.na.zf f)
  | .tshl h f d a b => h.wf && decide (d < 64) && a.ok (kTSCL.na.zf f) && b.ok (kTSCL.na.zf f)
  | .tshr h f d a b => h.wf && decide (d < 64) && a.ok (kTSCL.na.zf f) && b.ok (kTSCL.na.zf f)
  | .tabs h f _ d a => h.wf && decide (d < 64) && a.ok (kTSCL.na.zf f)
  | .tneg h f _ d a => h.wf && decide (d < 64) && a.ok (kTSCL.nac.zf f)
  | .tcmp h _ cc d a b => h.wf && decide (cc < 8) && decide (d < 64) && a.ok kTSCL && b.ok kTSCL
  | .tsel h f mv d a b =>
    h.wf && decide (mv < 64) && decide (d < 64) && a.ok (kTSCL.zf f) && b.ok (kTSCL.zf f)
  | .tcmul h f _ d a b => h.wf && decide (d < 64) && a.ok (kTSCL.nc.zf f) && b.ok (kTSCL.nc.zf f)
  | .tcfma h f _ d a b => h.wf && decide (d < 64) && a.ok (kTSCL.nc.zf f) && b.ok (kTSCL.nc.zf f)
  | .tred h _ _ _ d a => h.wf && decide (d < 64) && a.ok kT
  | .texp2 h f d a => h.wf && decide (d < 64) && a.ok (kTSCL.zf f)
  | .tlog2 h f d a => h.wf && decide (d < 64) && a.ok (kTSCL.zf f)
  | .trsq h f d a => h.wf && decide (d < 64) && a.ok (kTSCL.zf f)
  | .tsin h f d a => h.wf && decide (d < 64) && a.ok (kTSCL.zf f)
  | .tcos h f d a => h.wf && decide (d < 64) && a.ok (kTSCL.zf f)
  | .trcp h f _ d a => h.wf && decide (d < 64) && a.ok (kTSCL.zf f)
  | .tsqrt h f _ d a => h.wf && decide (d < 64) && a.ok (kTSCL.zf f)
  | .tconv h _ _ d a b => h.wf && decide (d < 64) && a.ok kT && okO kSCL b
  | .tscale h f _ d a b => h.wf && decide (d < 64) && a.ok (kTSCL.zf f) && b.ok kTSCL
  | .tsplit h _ d a => h.wf && decide (d < 64) && a.ok kT
  | .mma h af sat d a b => h.wf && !af.cplx && (af == .i32 || !sat) && decide (d < 64) && a.ok kT.n && b.ok kT.n
  | .mgang h af sat d a b => h.wf && !af.cplx && (af == .i32 || !sat) && decide (d < 64) && a.ok kT.n && b.ok kT.n
  | .mmac h af d a b => h.wf && af.cplx && decide (d < 64) && a.ok kT.nc && b.ok kT.nc
  | .mzero h _ d a b => h.wf && decide (d < 64) && a.ok kSCL && b.ok kSCL
  | .mload h _ d a => h.wf && decide (d < 64) && a.ok kT
  | .mdrain h _ _ _ _ d a b => h.wf && decide (d < 64) && a.ok kS && okO kSCL b
  | .mdrainc h af z _ _ _ _ d a b => h.wf && !af.cplx && decide (z < 256) && decide (d < 64) && a.ok kS && okO kSCL b
  | .cpyLd h z _ _ _ d a => h.wf && decide (z < 256) && decide (d < 64) && a.ok kS
  | .cpySt h z _ _ d a => h.wf && decide (z < 256) && decide (d < 64) && a.ok kS
  | .cpyg h z _ d a b => h.wf && decide (z < 256) && decide (d < 64) && a.ok kS && b.ok kT
  | .cpys h z _ d a b => h.wf && decide (z < 256) && decide (d < 64) && a.ok kS && b.ok kT
  | .cpyadd h z _ _ d a => h.wf && decide (z < 256) && decide (d < 64) && a.ok kS
  | .cpyx h a => h.wf && a.ok kSCL
  | .tlwait h d a => h.wf && decide (d < 8) && a.ok kSCL
  | .tlget h d a b => h.wf && decide (d < 64) && a.ok kSL && b.ok kL
  | .tladv h d a => h.wf && decide (d < 8) && a.ok kSCL
  | .ld h sz sx d a b =>
    h.wf && decide (sz < 5) && (!sx || decide (sz < 3)) && decide (d < 64) && a.ok kS && b.ok kSCL
  | .lda h sz sx d a b =>
    h.wf && decide (sz < 5) && (!sx || decide (sz < 3)) && decide (d < 64) && a.ok kS && b.ok kSCL
  | .ldTile h d a b => h.wf && decide (d < 64) && a.ok kS && b.ok kSCL
  | .st h sz d a b => h.wf && decide (sz < 5) && decide (d < 64) && a.ok kS && b.ok kSCL
  | .stl h sz d a b => h.wf && decide (sz < 5) && decide (d < 64) && a.ok kS && b.ok kSCL
  | .stTile h d a b => h.wf && decide (d < 64) && a.ok kS && b.ok kSCL
  | .pref h a b => h.wf && a.ok kS && b.ok kSCL
  | .aadd h _ d a b => h.wf && okD d && a.ok kS && b.ok kSCL
  | .amin h _ d a b => h.wf && okD d && a.ok kS && b.ok kSCL
  | .amax h _ d a b => h.wf && okD d && a.ok kS && b.ok kSCL
  | .aand h _ d a b => h.wf && okD d && a.ok kS && b.ok kSCL
  | .aor h _ d a b => h.wf && okD d && a.ok kS && b.ok kSCL
  | .axor h _ d a b => h.wf && okD d && a.ok kS && b.ok kSCL
  | .axchg h _ d a b => h.wf && okD d && a.ok kS && b.ok kSCL
  | .aincw h _ d a b => h.wf && okD d && a.ok kS && b.ok kSCL
  | .acas h _ d a b => h.wf && okD d && a.ok kS && b.ok kS
  | .afadd h m d a b => h.wf && okD d && a.ok kS && b.ok (kSCL.z m.fmt.csize)
  | .fence h _ _ => h.wf
  | .codefLoc h => h.wf
  | .codefDev h a b => h.wf && a.ok kSCL && b.ok kSL
  | .synew h _ pst d a => h.wf && decide (pst < 8) && decide (d < 256) && a.ok kSCL
  | .syfree h d => h.wf && decide (d < 256)
  | .phreg h d a b => h.wf && decide (d < 256) && a.ok kSCL && okO kSCL b
  | .phdrop h d a b => h.wf && decide (d < 256) && a.ok kSCL && okO kSCL b
  | .phsig h d b => h.wf && decide (d < 256) && okO kSCL b
  | .phwait h mem d a b => h.wf && (a.isNone || !mem) && decide (d < 256) && okO kSCL a && okO kSCL b
  | .phnext h d b => h.wf && decide (d < 256) && okO kSCL b
  | .tqacq h slot d b => h.wf && decide (slot < 256) && decide (d < 64) && okO kSCL b
  | .tqpost h d a b => h.wf && decide (d < 256) && a.ok kSCL && okO kSCL b
  | .tqtake h slot d b => h.wf && decide (slot < 256) && decide (d < 64) && okO kSCL b
  | .tqrel h d a b => h.wf && decide (d < 256) && a.ok kSCL && okO kSCL b
  | .sstep h => h.wf
  | .join h d b => h.wf && decide (d < 256) && okO kSCL b
  | .leave h d b => h.wf && decide (d < 256) && okO kSCL b
  | .fork h a b => h.wf && a.ok kSCL && b.ok kS
  | .rfork h a b => h.wf && a.ok kSCL && b.ok kS
  | .task h d => h.wf && decide (d < 8)
  | .taskEv h pst d => h.wf && decide (pst < 8) && decide (d < 64)
  | .tdone h d b => h.wf && decide (d < 256) && okO kSCL b
  | .efork h _ pst a => h.wf && decide (pst < 8) && a.ok kSCL
  | .rdv h => h.wf
  | .launch h d a b => h.wf && okD d && a.ok kSCL && b.ok kSL
  | .send h len _ a b => h.wf && decide (len < 128) && a.ok kS && b.ok kS
  | .recv h d => h.wf && decide (d < 64)
  | .gpost h d a => h.wf && decide (d < 64) && a.ok kSCL
  | .gretract h pst a => h.wf && decide (pst < 8) && a.ok kSC
  | .gwin h wr ww d a b => h.wf && (wr || ww) && decide (d < 64) && a.ok kS && b.ok kSCL
  | .gcall h a b => h.wf && a.ok kSC && okO kS b
  | .gret h => h.wf
  | .ginfo h d a => h.wf && decide (d < 64) && a.ok kSL
  | .gclean h => h.wf
  | .drevoke h a => h.wf && a.ok kSL
  | .drevokeKill h a => h.wf && a.ok kSL
  | .esubOpen h pst d a => h.wf && decide (pst < 8) && decide (d < 64) && a.ok kSCL
  | .esub h a b => h.wf && a.ok kSCL && b.ok kS
  | .ecloseCut h a => h.wf && a.ok kSCL
  | .ecloseEnd h a => h.wf && a.ok kSCL
  | .enext h d a b => h.wf && decide (d < 64) && a.ok kSCL && b.ok kSCL
  | .enextDone h a b => h.wf && a.ok kSCL && b.ok kSCL
  | .estat h d a => h.wf && decide (d < 64) && a.ok kSCL
  | .sysr h form d a b =>
    h.wf && (b.isSome == (form == .tab || form == .eng)) && decide (d < 64) && a.ok kL && okO kSL b
  | .sysw h form d a b => h.wf && (d.isSome == (form == .tab)) && okD d && a.ok kL && b.ok kSCL
  | .trap h a => h.wf && a.ok kSL
  | .eret h => h.wf
  | .wait h tmo d a b => h.wf && decide (tmo < 16384) && decide (d < 8) && a.ok kSL && b.ok kSL
  | .tlbinv h _ d a b => h.wf && decide (d < 64) && okO kS a && okO kSL b
  | .hinst h a => h.wf && a.ok kS
  | .chkp h d a => h.wf && decide (d < 8) && a.ok kSL
  | .chkx h => h.wf
  | .follow h w ht d a => h.wf && decide (w < 4) && decide (ht < 4) && decide (d < 8) && a.ok kSL
  | .unfollow h => h.wf
  | .capr h d a => h.wf && decide (d < 64) && a.ok kSL
  | .sigcorePre h pst a => h.wf && decide (pst < 8) && a.ok kSL
  | .sigcoreSpawn h pst a b => h.wf && decide (pst < 8) && a.ok kSL && b.ok kS
  | .sigcoreRes h pst a b => h.wf && decide (pst < 8) && a.ok kSL && b.ok kS
  | _ => false

end Sys2Proof
end

