-- ==== Sys2Proof/Certificates/Slice0/Obligations.lean ====
section
/-! DEFINITION. The statements for the provers. `Say` holds what several of them share. -/
namespace Sys2Proof.Say
open Sys2Proof.Machine

/-! ### Shared hypotheses and results -/

/-- The guard is true (R216). -/
abbrev Runs (h : Head) (s : State) : Prop := guardOk h s.me = true

/-- A scalar destination that exists and is full (R72). -/
abbrev Dest (d : Nat) (s : State) : Prop := d < 64 ∧ s.me.full d = true

/-- The head of a word. -/
def headOf (i : Instr) : Head :=
  let f := toFields i
  { ginv := f.ginv, gpred := f.gpred, endH := f.endH, yld := f.yld, pri := f.pri, dly := f.dly }

/-- IDX + 1 of the issuer (R248). -/
def nextOf (s : State) : Nat := ((s.strand s.cur).pc.idx + 1) % 2 ^ 32

/-- Target(A) of a branch: a literal is a displacement from IDX + 1, a register holds the IDX (R248). -/
def Goto (a : Src) (s : State) (t : Nat) (s1 : State) : Prop :=
  match a with
  | .lit v => s1 = s ∧ (t : Int) = ((nextOf s : Int) + v.toInt) % (2 ^ 32 : Nat)
  | _ => ∃ v, readN64 2 a s = .ok v s1 ∧ t = v % 2 ^ 32

/-- The low bits of a number, read in an integer type (R246). -/
def wrapTo (ty : ITy) (v : Int) : Int := if sgn ty then Int.bmod v (2 ^ wOf ty) else v % (2 ^ wOf ty : Nat)

/-- A number outside the range of an integer type. -/
def outside (ty : ITy) (v : Int) : Bool :=
  if sgn ty then decide (v < -(2 ^ (wOf ty - 1) : Nat)) || decide ((2 ^ (wOf ty - 1) : Nat) ≤ v)
  else decide (v < 0) || decide ((2 ^ wOf ty : Nat) ≤ v)

/-- The nearest end of the range of an integer type. -/
def nearest (ty : ITy) (v : Int) : Int :=
  if v < 0 then (if sgn ty then -(2 ^ (wOf ty - 1) : Nat) else 0)
  else (if sgn ty then (2 ^ (wOf ty - 1) : Nat) - 1 else (2 ^ wOf ty : Nat) - 1)

/-- The issuer's seat with an integer result in D (R246). -/
def putInt (ty : ITy) (sat : Bool) (d : Nat) (v : Int) (fl : Flags) (x : Seat) : Seat :=
  if sat && outside ty v then (x.raiseFlags (fl ||| fSAT)).setReg d (BitVec.ofInt 64 (nearest ty v))
  else (x.raiseFlags fl).setReg d (BitVec.ofInt 64 (wrapTo ty v))

/-- The state after an instruction that writes an integer result and completes in sequence. -/
def intDone (h : Head) (ty : ITy) (sat : Bool) (d : Nat) (v : Int) (s : State) : State :=
  (s.modMe (putInt ty sat d v 0)).advance h

/-- The bits of a number at the width of a type. -/
def bitsOf (ty : ITy) (v : Int) : Nat := (v % (2 ^ wOf ty : Nat)).toNat

/-- What is read from one source, and the state after it (a constant-bank read may fill caches). -/
abbrev Reads1 (ty : ITy) (a : Src) (s : State) (x : Int) (s1 : State) : Prop := readInt ty 2 a s = .ok x s1

/-- What is read from two sources, in order. -/
abbrev Reads2 (ty : ITy) (a b : Src) (s : State) (x y : Int) (s2 : State) : Prop :=
  ∃ s1, readInt ty 2 a s = .ok x s1 ∧ readInt ty 3 b s1 = .ok y s2

/-- What is read from a source and a count or field word. -/
abbrev ReadsN (ty : ITy) (a b : Src) (s : State) (x : Int) (n : Nat) (s2 : State) : Prop :=
  ∃ s1, readInt ty 2 a s = .ok x s1 ∧ readN64 3 b s1 = .ok n s2

end Sys2Proof.Say

open Sys2Proof Sys2Proof.Machine Sys2Proof.Say

/-! ## Control -/

/-- R216: a guard is true when its predicate, p0 reading 1, differs from GINV; the inverted p0 is illegal; an instruction
whose guard is false only advances PC, with its hints. REP's checks of the next word come first, whatever its guard (R227). -/
def Obligations.FalseGuardOnlyAdvances : Prop :=
  (∀ (h : Head) (x : Seat), x.p 0 = true ∧ (guardOk h x = true ↔ x.p h.gpred ≠ h.ginv)) ∧
  (∀ f : Fields, f.ginv = true → f.gpred = 0 → ofFields f = .illegal) ∧
  ∀ (i : Instr) (s : State), i.isEvent = false → guardOk (headOf i) s.me = false →
    (∀ h ds as bs a, i = .rep h ds as bs a → s.repCheck s.cur (encode i) ds as bs = none) →
    exec i s = .next (s.advance (headOf i))

/-- R248 to R250: where NOP, BRA, BRX, CALL, RET and LOOP leave PC, and what CALL and LOOP write; a branch that is taken
empties the strand's fetch buffer (R376). -/
def Obligations.BranchesSetPc : Prop :=
  ∀ (h : Head) (s s1 s2 : State) (a b : Src) (t v lim d : Nat), Runs h s →
    exec (.nop h) s = .next (s.advance h) ∧
    (Goto a s t s1 → exec (.bra h a) s = .next ((s1.goto true t).hints h)) ∧
    (Goto a s t s1 → readN64 3 b s1 = .ok v s2 →
      exec (.brx h lim a b) s =
        .next ((if lim = 0 ∨ v < lim then s2.goto true ((t + v) % 2 ^ 32) else s2.goto false (nextOf s2)).hints h)) ∧
    (Goto a s t s1 → Dest d s1 →
      exec (.call h d a) s =
        .next (((s1.modMe (fun x => x.setReg d (BitVec.ofNat 64 (nextOf s1)))).goto true t).hints h)) ∧
    (readN64 2 a s = .ok v s1 → exec (.ret h a) s = .next ((s1.goto true (v % 2 ^ 32)).hints h)) ∧
    (Goto a s t s1 → Dest d s1 → s1.me.reg d ≠ 0 →
      exec (.loop h d a) s =
        .next (((s1.modMe (fun x => x.setReg d (s1.me.reg d - 1))).goto (decide (s1.me.reg d ≠ 1))
          (if s1.me.reg d = 1 then nextOf s1 else t)).hints h)) ∧
    (Goto a s t s1 → Dest d s1 → s1.me.reg d = 0 →
      exec (.loop h d a) s = .next ((s1.goto false (nextOf s1)).hints h))

/-- R226: REP with an accepted next word sets REPC and goes on to that word. -/
def Sys2Proof.Say.repSetsRepc : Prop :=
  ∀ (h : Head) (ds as bs n : Nat) (a : Src) (s s1 : State), Runs h s →
    s.repCheck s.cur (encode (.rep h ds as bs a)) ds as bs = none →
    readN64 2 a s = .ok n s1 → 1 ≤ n → n ≤ 64 → s1.me.hnd = false →
    exec (.rep h ds as bs a) s =
      .next (((s1.modStrand s1.cur (fun t =>
        { t with rep := { count := n, done := 0, dstr := ds, astr := as, bstr := bs } })).goto false (nextOf s1)).hints h)

/-- R200, R251: a deferred ENGINE fault of the thread is delivered at EXIT; else EXIT on an engine strand ends that strand; on the main strand of a thread that meets its conditions it ends the
thread. -/
def Sys2Proof.Say.exitEndsStrandOrThread : Prop :=
  ∀ (h : Head) (s : State), Runs h s →
    (∀ w, s.stopOf [0, 1, 2, 3, 4] = some w → (s.cur.strn = .main → s.me.hnd = false ∧ s.me.depth = 0 ∧ s.me.gang = false ∧
        s.me.lead = false) →
      exec (.exit h) s = .next (s.takeTrap s.cur { cause := .engine, val := BitVec.ofNat 64 w.toNat } false)) ∧
    (s.cur.strn ≠ .main → s.stopOf [0, 1, 2, 3, 4] = none →
      exec (.exit h) s =
        .next ((s.hints h).modStrand s.cur (fun t => { t with live := false, rep := {}, fbuf := [] }))) ∧
    (s.cur.strn = .main → s.me.hnd = false → s.me.depth = 0 → s.me.gang = false → s.me.lead = false →
      s.stopOf [0, 1, 2, 3, 4] = none → s.me.mat.live = false → s.me.cpy.live = false →
      (∀ c ∈ s.myCore.ctxs.toList, ∀ o ∈ c.ops, o.seat ≠ s.cur.seat) →
      (∀ o ∈ s.myCore.mat.ops, o.seat ≠ s.cur.seat) → s.quiet s.cur = true →
      exec (.exit h) s = .next ((s.hints h).endThread s.cur.core s.cur.seat))

/-- R252: WAITF goes on when what it names is full, and waits, changing nothing, while it is not and no mode bit is set. -/
def Sys2Proof.Say.waitfWaitsForFull : Prop :=
  ∀ (h : Head) (s : State) (n m : Nat) (mn mm : SrcMod), Runs h s → n < 64 → m < 64 → (s.me.view n).defd = true →
    (s.me.full m = true → (s.me.view n).fe = true →
      exec (.waitf h (.scal m mm false) none) s = .next (s.advance h) ∧
      exec (.waitf h (.tile n mn false) (some (.scal m mm false))) s = .next (s.advance h)) ∧
    (s.me.full m = false → exec (.waitf h (.scal m mm false) none) s = .next s) ∧
    ((s.me.view n).fe = false → exec (.waitf h (.tile n mn false) none) s = .next s)

/-- R226, R251, R252: what REP, WAITF and EXIT do. -/
def Obligations.RepWaitfAndExit : Prop :=
  Say.repSetsRepc ∧ Say.exitEndsStrandOrThread ∧ Say.waitfWaitsForFull

/-! ## Scalar integer and address -/

/-- R246, R254, R255: results of MOV, NEG, ABS, ADD, SUB, MUL, MULH, MIN and MAX. -/
def Sys2Proof.Say.integerArithmeticResults : Prop :=
  ∀ (h : Head) (ty : ITy) (sat : Bool) (d : Nat) (a b : Src) (x y : Int) (s s1 s2 : State), Runs h s →
    (Reads1 ty a s x s1 → Dest d s1 →
      exec (.mov h ty d a) s = .next (intDone h ty false d x s1) ∧
      exec (.neg h ⟨ty, sat⟩ d a) s = .next (intDone h ty sat d (-x) s1) ∧
      exec (.abs h ⟨ty, sat⟩ d a) s = .next (intDone h ty sat d x.natAbs s1)) ∧
    (Reads2 ty a b s x y s2 → Dest d s2 →
      exec (.add h ⟨ty, sat⟩ d a b) s = .next (intDone h ty sat d (x + y) s2) ∧
      exec (.sub h ⟨ty, sat⟩ d a b) s = .next (intDone h ty sat d (x - y) s2) ∧
      exec (.mul h ⟨ty, sat⟩ d a b) s = .next (intDone h ty sat d (x * y) s2) ∧
      exec (.mulh h ty d a b) s = .next (intDone h ty false d ((x * y).fdiv (2 ^ wOf ty : Nat)) s2) ∧
      exec (.min h ty d a b) s = .next (intDone h ty false d (min x y) s2) ∧
      exec (.max h ty d a b) s = .next (intDone h ty false d (max x y) s2))

/-- R255: DIV rounds toward zero and REM takes the sign of the dividend; a zero divisor sets DZ, DIV then gives an end of
the type's range and REM the dividend. MAD adds the product to D. -/
def Sys2Proof.Say.divideRemainderAndMad : Prop :=
  ∀ (h : Head) (ty : ITy) (sat : Bool) (d : Nat) (a b : Src) (x y : Int) (s s2 : State), Runs h s →
    Reads2 ty a b s x y s2 → Dest d s2 →
    (y ≠ 0 →
      exec (.div h ⟨ty, sat⟩ d a b) s = .next (intDone h ty sat d (x.sign * y.sign * (x.natAbs / y.natAbs : Nat)) s2) ∧
      exec (.rem h ty d a b) s = .next (intDone h ty false d (x.sign * (x.natAbs % y.natAbs : Nat)) s2)) ∧
    (y = 0 →
      exec (.div h ⟨ty, sat⟩ d a b) s = .next ((s2.modMe
        (putInt ty sat d (nearest ty (if x < 0 then -1 else 0)) fDZ)).advance h) ∧
      exec (.rem h ty d a b) s = .next ((s2.modMe (putInt ty false d x fDZ)).advance h)) ∧
    exec (.mad h ⟨ty, sat⟩ d a b) s =
      .next (intDone h ty sat d (x * y + wrapTo ty (s2.me.reg d).toNat) s2)

/-- R246, R254, R255: integer arithmetic, divisions among it. -/
def Obligations.IntegerArithmeticResults : Prop :=
  Say.integerArithmeticResults ∧ Say.divideRemainderAndMad

/-- R254, R256: bitwise results, and counts of leading zeros, trailing zeros and ones. -/
def Sys2Proof.Say.bitwiseAndCountResults : Prop :=
  ∀ (h : Head) (ty : ITy) (d : Nat) (a b : Src) (x y : Int) (s s1 s2 : State), Runs h s →
    (Reads2 ty a b s x y s2 → Dest d s2 →
      exec (.and h ty d a b) s = .next (intDone h ty false d (bitsOf ty x &&& bitsOf ty y : Nat) s2) ∧
      exec (.or h ty d a b) s = .next (intDone h ty false d (bitsOf ty x ||| bitsOf ty y : Nat) s2) ∧
      exec (.xor h ty d a b) s = .next (intDone h ty false d (bitsOf ty x ^^^ bitsOf ty y : Nat) s2) ∧
      exec (.andn h ty d a b) s =
        .next (intDone h ty false d (bitsOf ty x &&& bitsOf ty (-1 - y) : Nat) s2)) ∧
    (Reads1 ty a s x s1 → Dest d s1 →
      (∃ n : Nat, exec (.clz h ty d a) s = .next (intDone h ty false d n s1) ∧ n ≤ wOf ty ∧
        bitsOf ty x < 2 ^ (wOf ty - n) ∧ (n < wOf ty → 2 ^ (wOf ty - n - 1) ≤ bitsOf ty x)) ∧
      (∃ n : Nat, exec (.ctz h ty d a) s = .next (intDone h ty false d n s1) ∧ n ≤ wOf ty ∧
        2 ^ n ∣ bitsOf ty x ∧ (n < wOf ty → ¬ 2 ^ (n + 1) ∣ bitsOf ty x)) ∧
      exec (.popc h ty d a) s =
        .next (intDone h ty false d ((List.range (wOf ty)).countP (fun i => (bitsOf ty x).testBit i) : Nat) s1))

/-- R256: shifts by any count, rotation modulo the width. -/
def Sys2Proof.Say.shiftResults : Prop :=
  ∀ (h : Head) (ty : ITy) (d c : Nat) (a b : Src) (x : Int) (s s2 : State), Runs h s → ReadsN ty a b s x c s2 → Dest d s2 →
    exec (.shl h ty d a b) s = .next (intDone h ty false d (x * 2 ^ c) s2) ∧
    exec (.shr h ty d a b) s = .next (intDone h ty false d (bitsOf ty x / 2 ^ c : Nat) s2) ∧
    exec (.sar h ty d a b) s = .next (intDone h ty false d (Int.bmod x (2 ^ wOf ty) / 2 ^ c) s2) ∧
    ∃ r : Nat, exec (.rol h ty d a b) s = .next (intDone h ty false d r s2) ∧ r < 2 ^ wOf ty ∧
      ∀ i, i < wOf ty → r.testBit ((i + c) % wOf ty) = (bitsOf ty x).testBit i

/-- R254, R256: bitwise operations, counts and shifts. -/
def Obligations.BitwiseShiftAndCountResults : Prop :=
  Say.bitwiseAndCountResults ∧ Say.shiftResults

/-- R256: BEXT reads LEN bits from POS up; BINS replaces them and leaves every other bit of D. R254: SEL chooses by its
predicate. -/
def Sys2Proof.Say.bitFieldsAndSelect : Prop :=
  ∀ (h : Head) (ty : ITy) (d f psel : Nat) (pinv : Bool) (a b : Src) (x y : Int) (s s2 : State), Runs h s → Dest d s2 →
    (ReadsN ty a b s x f s2 → ty = .i64 ∨ ty = .n64 → f < 2 ^ 13 → f / 64 ≤ 64 →
      (∃ v : Int, exec (.bext h ty d a b) s = .next (intDone h ty false d v s2) ∧
        v % (2 ^ (f / 64) : Nat) = (bitsOf .n64 x / 2 ^ (f % 64) : Nat) % (2 ^ (f / 64) : Nat) ∧
        (ty = .n64 → 0 ≤ v ∧ v < (2 ^ (f / 64) : Nat)) ∧
        (ty = .i64 → 0 < f / 64 → -(2 ^ (f / 64 - 1) : Nat) ≤ v ∧ v < (2 ^ (f / 64 - 1) : Nat)) ∧
        (f / 64 = 0 → v = 0)) ∧
      ∃ v : Nat, exec (.bins h ty d a b) s = .next (intDone h ty false d v s2) ∧
        ∀ i, i < 64 → v.testBit i =
          if f % 64 ≤ i ∧ i < f % 64 + f / 64 then (bitsOf .n64 x).testBit (i - f % 64) else (s2.me.reg d).getLsbD i) ∧
    (Reads2 ty a b s x y s2 →
      exec (.sel h ty psel pinv d a b) s = .next (intDone h ty false d (if s.me.p psel = pinv then y else x) s2))

/-- R257: LDIL writes its 32 bits zero-extended; LDIH puts its 32 bits above the low half of D. -/
def Sys2Proof.Say.wideConstants : Prop :=
  ∀ (h : Head) (d : Nat) (k : BitVec 32) (s : State), Runs h s → Dest d s →
    exec (.ldil h d k) s = .next ((s.modMe (fun x => x.setReg d (k.setWidth 64))).advance h) ∧
    exec (.ldih h d k) s =
      .next ((s.modMe (fun x => x.setReg d (k ++ (s.me.reg d).extractLsb' 0 32 : BitVec 64))).advance h)

/-- R149, R259: GADDR with a legal distribution entry gives the window address and the core that hold the element, or 0
and all ones for a coordinate outside the array. -/
def Sys2Proof.Say.gaddrLocatesElement : Prop :=
  ∀ (h : Head) (d k n : Nat) (m : SrcMod) (fe : Bool) (a : Src) (l : Launch) (bs : List Byte) (s s1 s2 : State),
    Runs h s → d % 2 = 0 → d + 1 < 64 → n + 3 < 64 → readN64 2 a s = .ok k s1 →
    (∀ j, j < 4 → s1.me.full (n + j) = true) → s.me.full d = true → s.me.full (d + 1) = true →
    s1.launch s1.me.vdev s1.me.lid = some l →
    l.rcd.disttab ≠ 0 → k ≤ 255 →
    unitRead (some s1.cur.core) { vdev := l.vdev, dom := l.base, win := none } (l.rcd.disttab + 64 * k) 64 s1 = .ok bs s2 →
    (Dist.ofBytes bs).bad = false → (Dist.ofBytes bs).ranks ≤ l.rcd.setw * l.rcd.seth →
    s2.me.full d = true → s2.me.full (d + 1) = true →
    let i := (upto 4).map (fun j => (s1.me.reg (n + j)).toNat)
    let e := Dist.ofBytes bs
    ((∃ j, j < 4 ∧ nth e.n j ≤ nth i j) →
      exec (.gaddr h d a (.scal n m fe)) s =
        .next ((s2.modMe (fun x => (x.setReg d 0).setReg (d + 1) (BitVec.allOnes 64))).advance h)) ∧
    ((∀ j, j < 4 → nth i j < nth e.n j) → (e.place i).2 + 2 ^ e.esize ≤ 2 ^ 18 →
      let core := s2.coreOfRank l.vdev l.rcd (e.place i).1
      exec (.gaddr h d a (.scal n m fe)) s =
        .next ((s2.modMe (fun x => (x.setReg d (BitVec.ofNat 64 (0x10000000000 + core * 2 ^ 18 + (e.place i).2))).setReg
          (d + 1) (BitVec.ofNat 64 core))).advance h))

/-- R149, R254, R256, R257, R259: BEXT, BINS, SEL, LDIL, LDIH and GADDR. -/
def Obligations.FieldsConstantsAndAddresses : Prop :=
  Say.bitFieldsAndSelect ∧ Say.wideConstants ∧ Say.gaddrLocatesElement

/-! ## Scalar float, conversion, comparison, predicates -/

namespace Sys2Proof.Say
/-- The patterns read from two floating-point sources (R247). -/
abbrev ReadsF (f : Fmt) (a b : Src) (s : State) (x y : Nat) (s2 : State) : Prop :=
  ∃ s1, readF f 2 a s = .ok x s1 ∧ readF f 3 b s1 = .ok y s2

/-- The state after an instruction that rounds an exact result into D, with the flags of the operation and of the rounding
(R247). -/
def floatDone (h : Head) (m : FMod) (d : Nat) (v : FVal × Flags) (s : State) : State :=
  let r := roundF m.fmt s.me.ftz m.rnd .sat v.1
  (s.modMe (fun x => (x.raiseFlags (v.2 ||| r.2)).setReg d (BitVec.ofNat 64 r.1))).advance h

/-- Numbers behind two finite values, as multiples of one power of two. -/
def asInts (u : Int) : FVal → Option Int
  | .fin n m e => if m = 0 then some 0 else if u ≤ e then some ((if n then -1 else 1) * (m * 2 ^ (e - u).toNat)) else none
  | _ => none

/-- The integer that the bits of a constant-bank operand give: at its own size, then at the width of the type (R222). -/
def bankInt (ty : ITy) (size : Nat) (bs : List Byte) : Int :=
  let v : Int := (leNat bs : Nat)
  wrapTo ty (if sgn ty then Int.bmod v (2 ^ (8 * 2 ^ size)) else v)

/-- R70, R72, R101, R220 to R223, R225, R245: what a scalar float or integer instruction reads from a source. A literal is its 22
bits in an integer type, the high 22 bits of an FP32 value in a float format, exactly in FP64 and rounded in FP16 and BF16. A full
scalar gives its low bits, under ABS and NEG; one that is not full waits, or raises EMPTY. A constant bank gives its bytes, from
the cache or from memory, and raises OPERAND where it is not bound or the bytes pass its size. -/
def operandReading : Prop :=
  ∀ (ty : ITy) (f : Fmt) (o n bank size off base len : Nat) (m : SrcMod) (fe : Bool) (v : BitVec 22) (e : CLine) (l : Launch)
    (bs : List Byte) (s s1 : State),
    let low := v.toNat * 2 ^ 10
    (readInt ty o (.lit v) s = .ok (wrapTo ty v.toInt) s ∧ readN64 o (.lit v) s = .ok (v.toInt % (2 ^ 64 : Nat)).toNat s ∧
      readF .fp32 o (.lit v) s = .ok low s ∧
      (∃ p, readF .fp64 o (.lit v) s = .ok p s ∧ asInts (-1100) (decodeF .fp64 false p) = asInts (-1100) (decodeF .fp32 false low)) ∧
      (f = .fp16 ∨ f = .bf16 → readF f o (.lit v) s = .ok (roundF f false .rne .sat (decodeF .fp32 false low)).1 s)) ∧
    (n < 64 → s.me.full n = true →
      let x := wrapTo ty (s.me.reg n).toNat
      let y := if m.abs then wrapTo ty x.natAbs else x
      let w := fmtWidth f
      readInt ty o (.scal n m fe) s = .ok (if m.neg then wrapTo ty (-y) else y) s ∧
      (isFL f = true → ∃ p, readF f o (.scal n m fe) s = .ok p s ∧ p < 2 ^ w ∧
        p % 2 ^ (w - 1) = (s.me.reg n).toNat % 2 ^ (w - 1) ∧
        p.testBit (w - 1) = (((s.me.reg n).getLsbD (w - 1) && !m.abs) != m.neg))) ∧
    (n < 64 → s.me.full n = false →
      (fe = true → readInt ty o (.scal n m fe) s = raise .empty o (256 + n) s ∧
        readF f o (.scal n m fe) s = raise .empty o (256 + n) s) ∧
      (fe = false → readInt ty o (.scal n m fe) s = .error .wait s ∧ readF f o (.scal n m fe) s = .error .wait s)) ∧
    (s.launch s.me.vdev s.me.lid = some l → l.banks[bank]? = some (base, len) →
      let src : Src := .cbank bank size off
      let num := fun (d : List Byte) => (d.drop (off % 64)).take (2 ^ size)
      let hit := s.myCore.ccache.find? (fun x => x.lid == l.lid && x.bank == bank && x.line == off / 64)
      (l.rcd.cbmask.testBit bank = false ∨ len < off + 2 ^ size →
        readInt ty o src s = raise .operand o (bank * 2 ^ 18 + size * 2 ^ 16 + off) s ∧
        readF f o src s = raise .operand o (bank * 2 ^ 18 + size * 2 ^ 16 + off) s) ∧
      (l.rcd.cbmask.testBit bank = true → off + 2 ^ size ≤ len →
        (hit = some e →
          readInt ty o src s = .ok (bankInt ty size (num e.data)) s ∧ readF f o src s = .ok (leNat (num e.data)) s) ∧
        (hit = none → unitRead (some s.cur.core) { vdev := l.vdev, dom := l.base, win := none } (base + 64 * (off / 64))
            (min 64 (len - 64 * (off / 64))) s = .ok bs s1 →
          ∃ t, readInt ty o src s = .ok (bankInt ty size (num bs)) t ∧ readF f o src s = .ok (leNat (num bs)) t)))

/-- The condition of FCMP on two numbers of the same unit (R261). -/
def condNum (cc : Nat) (i j : Int) : Bool :=
  match cc with
  | 0 => decide (i = j) | 1 => decide (i ≠ j) | 2 => decide (i < j) | 3 => decide (i ≤ j)
  | 4 => decide (j < i) | 5 => decide (j ≤ i) | 6 => false | _ => true

/-- R261: what each condition of FCMP gives: on finite values as on their numbers, +0 and −0 alike; on infinities, below and
above every number and equal to themselves; with a NaN only .ne and .un hold. Only a signalling NaN sets NV. -/
def floatConditions : Prop :=
  ∀ (cc : Nat) (a b : FVal) (u i j : Int) (n m : Bool), cc < 8 →
    (asInts u a = some i → asInts u b = some j → (fCond cc a b).1 = condNum cc i j) ∧
    (asInts u a = some i → (fCond cc a (.inf n)).1 = condNum cc 0 (if n then -1 else 1) ∧
      (fCond cc (.inf n) a).1 = condNum cc (if n then -1 else 1) 0) ∧
    (fCond cc (.inf n) (.inf m)).1 = condNum cc (if n then -1 else 1) (if m then -1 else 1) ∧
    (∀ q, (fCond cc (.nan q) b).1 = decide (cc = 1 ∨ cc = 6) ∧ (fCond cc a (.nan q)).1 = decide (cc = 1 ∨ cc = 6)) ∧
    (fCond cc a b).2 = (if a = .nan true ∨ b = .nan true then fNV else 0)
end Sys2Proof.Say

/-- R247, R260, R261: FADD, FMUL, FFMA, FMIN and FMAX round one exact result into D and raise its flags. -/
def Sys2Proof.Say.floatArithmeticResults : Prop :=
  ∀ (h : Head) (m : FMod) (d : Nat) (a b : Src) (x y : Nat) (s s2 : State), Runs h s → isFL m.fmt = true →
    ReadsF m.fmt a b s x y s2 → Dest d s2 →
    let v := fun n => decodeF m.fmt s2.me.ftz n
    exec (.fadd h m d a b) s = .next (floatDone h m d (fAdd m.rnd (v x) (v y)) s2) ∧
    exec (.fmul h m d a b) s = .next (floatDone h m d (fMul (v x) (v y)) s2) ∧
    exec (.ffma h m d a b) s =
      .next (floatDone h m d (fFma m.rnd (v x) (v y) (v ((s2.me.reg d).toNat % 2 ^ fmtWidth m.fmt))) s2) ∧
    exec (.fmin h m.fmt d a b) s = .next (floatDone h ⟨m.fmt, .rne⟩ d (fMinMax false (v x) (v y)) s2) ∧
    exec (.fmax h m.fmt d a b) s = .next (floatDone h ⟨m.fmt, .rne⟩ d (fMinMax true (v x) (v y)) s2)

/-- R70, R72, R101, R220 to R225, R245, R247, R260, R261: what sources give, and scalar float arithmetic. -/
def Obligations.FloatArithmeticResults : Prop :=
  Say.operandReading ∧ Say.floatArithmeticResults

/-- R260: the exact sum and product that FADD, FMUL and FFMA round are the sum and product of the operands' numbers. -/
def Sys2Proof.Say.exactSumAndProduct : Prop :=
  ∀ (r : Rnd) (a b : FVal) (u : Int) (x y : Int), asInts u a = some x → asInts u b = some y →
    (asInts u (fAdd r a b).1 = some (x + y) ∧ (fAdd r a b).2 = 0) ∧
    (asInts (2 * u) (fMul a b).1 = some (x * y) ∧ (fMul a b).2 = 0)

/-- R47: rounding to a multiple of 2^u gives one of the two neighbours: the nearer one, ties to even, for RNE; the one that
the direction names for the others; it is exact exactly where no inexactness is reported. -/
def Sys2Proof.Say.roundingPicksNeighbour : Prop :=
  ∀ (r : Rnd) (neg : Bool) (m sh : Nat) (e : Int),
    let n := (roundAt r neg m e (e + sh)).1
    ((roundAt r neg m e (e + sh)).2 = false ↔ n * 2 ^ sh = m) ∧
    (n = m / 2 ^ sh ∨ n = m / 2 ^ sh + 1) ∧
    (r = .rne → 2 * (max (n * 2 ^ sh) m - min (n * 2 ^ sh) m) ≤ 2 ^ sh ∧
      (2 * (max (n * 2 ^ sh) m - min (n * 2 ^ sh) m) = 2 ^ sh → sh ≠ 0 → n % 2 = 0)) ∧
    (r = .rtz → n * 2 ^ sh ≤ m) ∧
    (r = .rup → if neg then n * 2 ^ sh ≤ m else m ≤ n * 2 ^ sh) ∧
    (r = .rdn → if neg then m ≤ n * 2 ^ sh else n * 2 ^ sh ≤ m)

/-- R47, R260: what is rounded is the exact sum or product, and rounding gives one of its neighbours. -/
def Obligations.ExactRounding : Prop :=
  Say.exactSumAndProduct ∧ Say.roundingPicksNeighbour

/-- R261, R263, R264: comparisons and PSET write the destination predicate and no other register, FCMP its flags too; an
integer condition compares the values, .tst their bits. -/
def Sys2Proof.Say.comparisonsComplete : Prop :=
  ∀ (h : Head) (f : Fmt) (ty : ITy) (cc d pa pb lut x y : Nat) (i j : Int) (a b : Src) (s s2 : State), Runs h s →
    (isFL f = true → ReadsF f a b s x y s2 →
      let r := fCond cc (decodeF f s2.me.ftz x) (decodeF f s2.me.ftz y)
      exec (.fcmp h f cc d a b) s = .next ((s2.modMe (fun t => (t.raiseFlags r.2).setP d r.1)).advance h)) ∧
    (Reads2 ty a b s i j s2 →
      exec (.cmp h ty cc d a b) s = .next ((s2.modMe (fun t => t.setP d (
        match cc with
        | 0 => decide (i = j) | 1 => decide (i ≠ j) | 2 => decide (i < j) | 3 => decide (i ≤ j)
        | 4 => decide (j < i) | 5 => decide (j ≤ i)
        | 6 => decide (bitsOf ty i &&& bitsOf ty j ≠ 0)
        | _ => decide (bitsOf ty i &&& bitsOf ty j = 0)))).advance h)) ∧
    exec (.pset h pa pb lut d) s =
      .next ((s.modMe (fun t => t.setP d (lut.testBit (2 * (t.p pa).toNat + (t.p pb).toNat)))).advance h)

/-- R261, R263, R264: CMP, FCMP and PSET, and what each float condition gives. -/
def Obligations.ComparisonsWritePredicate : Prop :=
  Say.floatConditions ∧ Say.comparisonsComplete

/-- R50, R262: CVT between integer types, from an integer to a float, and from a float to either. -/
def Obligations.CvtResults : Prop :=
  ∀ (h : Head) (t u : ITy) (c e : CTy) (rnd : Rnd) (satc : Bool) (d p : Nat) (x : Int) (a : Src) (s s1 : State),
    Runs h s → Dest d s1 → (∀ t, c ≠ .int t) → (∀ t, e ≠ .int t) →
    (Reads1 t a s x s1 →
      exec (.cvt h (.int u) (.int t) rnd satc d a) s = .next (intDone h u (!satc) d x s1) ∧
      let r := roundF (cfmt c) s1.me.ftz rnd (if satc then .nan else .sat) (.ofInt x)
      exec (.cvt h c (.int t) rnd satc d a) s =
        .next ((s1.modMe (fun y => (y.raiseFlags r.2).setReg d (BitVec.ofNat 64 r.1))).advance h)) ∧
    (readF (cfmt e) 2 a s = .ok p s1 →
      let v := decodeF (cfmt e) s1.me.ftz p
      let r := roundF (cfmt c) s1.me.ftz rnd (if satc then .nan else .sat) v
      let k := roundToInt (sgn u) (wOf u) rnd v
      exec (.cvt h c e rnd satc d a) s =
        .next ((s1.modMe (fun y => (y.raiseFlags (r.2 ||| v.nvOf)).setReg d (BitVec.ofNat 64 r.1))).advance h) ∧
      exec (.cvt h (.int u) e rnd satc d a) s =
        .next ((s1.modMe (fun y => (y.raiseFlags (k.2 ||| v.nvOf)).setReg d (BitVec.ofInt 64 k.1))).advance h))

/-! ## Tile instructions -/

namespace Sys2Proof.Say
/-- A modifier that the format takes (R268). -/
def modFits (f : Fmt) (m : SrcMod) : Bool := if isCX f then !m.abs else !m.conj

/-- A source that a tile instruction in format `f` accepts (R268, R269). -/
def SrcFits (f : Fmt) (a : Src) (s : State) : Prop :=
  match a with
  | .tile n m _ => n < 64 ∧ (s.me.view n).defd = true ∧ (s.me.view n).plain = true ∧ (s.me.view n).fm = f ∧ modFits f m = true
  | .scal _ m _ => modFits f m = true
  | _ => True

/-- A destination view that a tile instruction accepts outside the handler, the tile engine free (R203, R267 to R269,
R271). -/
def TileDest (fm : Option Fmt) (set : Fmt → Bool) (d : Nat) (v : View) (s : State) : Prop :=
  s.myCore.tile = none ∧ s.me.hnd = false ∧ d < 64 ∧ s.me.view d = v ∧ v.defd = true ∧ v.plain = true ∧ set v.fm = true ∧
    (fm = none ∨ fm = some v.fm)

/-- First row group: PROG of the restart view where an ERET resumes, else 0 (R69). -/
def firstGroup (n : Nat) (s : State) : Nat := if s.me.resume then (s.me.view n).prog else 0

/-- No earlier access or message of the strand to its own core is on its way, and no LDA is open (R288, R317, R321). -/
def BankQuiet (s : State) : Prop :=
  s.ldaOpen s.cur = false ∧ s.bankDone = true

/-- The engine is free and takes its groups whole (log 7); every run that the job's groups read or write passes the local
region check, is free of copy ranges and of uncorrectable words, and the strand's own accesses to its banks have been
performed (R91, R92, R94, R97, R271, R288). -/
def Open (j : Job) (n : Nat) (s : State) : Prop :=
  s.reach = none ∧ s.myCore.tile = none ∧ BankQuiet s ∧
  ∀ t g, g < n →
    (∀ e ∈ j.reads t g, ∀ r ∈ e.2, s.runDenied s.cur.core s.me.who .r false r = none ∧
      s.myCore.heldRange r.off r.bytes none = false ∧ s.runBad s.cur.core r = none) ∧
    (∀ e ∈ j.writes t g, ∀ r ∈ e.2, s.runDenied s.cur.core s.me.who .w true r.wide = none ∧
      s.myCore.heldRange r.wide.off r.wide.bytes none = false) ∧
    s.partBadAt s.cur.core ((j.writes t g).flatMap (fun e => e.2)) = none

/-- Groups in order from the first, PROG naming the group at work, the errors of words written whole cleared, then PROG = 0
(R69, R91, R270). -/
def jobDone (j : Job) (n : Nat) (s : State) : State :=
  let g0 := firstGroup j.restart s
  ((List.range' g0 (n - g0)).foldl (fun t g =>
    let u := t.modMe (fun x => x.setProg j.restart g)
    (j.act u g).clearWhole (fragsAt s.cur.core ((j.writes u g).flatMap (fun e => e.2)))) s).modMe
    (fun x => x.setProg j.restart 0)

/-- An instruction that computes each valid element of D from its sources, position by position (R277). -/
def Cells (i : Instr) (h : Head) (d : Nat) (v : View) (xs : List TSrc) (f : State → Nat → Nat → Nat × Flags)
    (s s2 : State) : Prop :=
  let j := cellJob s2.cur.core d v (fun _ g => alike v xs g) f
  Open j v.groups s2 → exec i s = .next ((jobDone j v.groups s2).advance h)

/-- An element of a source, seen from the issuer's core. -/
abbrev el (x : TSrc) (f : Fmt) (t : State) (i j : Nat) : Nat := x.at t t.cur.core f i j

/-- Sources A and B as an instruction in format `f` reads them. -/
abbrev Loads2 (f : Fmt) (a b : Src) (s : State) (x y : TSrc) (s2 : State) : Prop :=
  ∃ s1, loadSrc 2 f a s = .ok x s1 ∧ loadSrc 3 f b s1 = .ok y s2
end Sys2Proof.Say

/-- R270, R277, R278, R281: elementwise instructions of two sources. -/
def Obligations.TileTwoSourceResults : Prop :=
  ∀ (h : Head) (m : TMod) (d : Nat) (a b : Src) (v : View) (x y : TSrc) (s s2 : State),
    Runs h s → SrcFits v.fm a s → SrcFits v.fm b s → Loads2 v.fm a b s x y s2 → (s2.me.view d).fe = true →
    s2.cur = s.cur →
    let z : TSrc := .view d v ⟨false, false, false⟩
    let ftz := s2.me.ftz
    let num := fun (sat : Bool) (r : Rnd) onI onF (t : State) (i j : Nat) =>
      arith v.fm ftz sat r onI onF (x.at t s.cur.core v.fm i j) (y.at t s.cur.core v.fm i j) 0
    (TileDest m.fmt isFLINCX d v s →
      Cells (.tadd h m d a b) h d v [x, y] (num m.satx m.rnd (fun p q _ => p + q) (fun p q _ => fAdd m.rnd p q)) s s2 ∧
      Cells (.tsub h m d a b) h d v [x, y] (num m.satx m.rnd (fun p q _ => p - q) (fun p q _ => fAdd m.rnd p q.negate)) s s2) ∧
    (TileDest m.fmt isFLIN d v s →
      Cells (.tmul h m d a b) h d v [x, y] (num m.satx m.rnd (fun p q _ => p * q) (fun p q _ => fMul p q)) s s2 ∧
      Cells (.tmin h m.fmt d a b) h d v [x, y] (num false .rne (fun p q _ => min p q) (fun p q _ => fMinMax false p q)) s s2 ∧
      Cells (.tmax h m.fmt d a b) h d v [x, y] (num false .rne (fun p q _ => max p q) (fun p q _ => fMinMax true p q)) s s2 ∧
      Cells (.tfma h m d a b) h d v [x, y, z] (fun t i j =>
        arith v.fm ftz m.satx m.rnd (fun p q w => p * q + w) (fun p q w => fFma m.rnd p q w)
          (x.at t s.cur.core v.fm i j) (y.at t s.cur.core v.fm i j) (t.elemBits s.cur.core v i j)) s s2) ∧
    (TileDest m.fmt isFL d v s →
      Cells (.tdiv h m.fmt m.rnd d a b) h d v [x, y] (num false m.rnd (fun p _ _ => p) (fun p q _ => fDiv p q)) s s2) ∧
    (TileDest m.fmt isIN d v s →
      let bits := fun (op : Nat → Nat → Nat) (t : State) (i j : Nat) =>
        (op (x.at t s.cur.core v.fm i j) (y.at t s.cur.core v.fm i j), (0 : Flags))
      Cells (.tand h m.fmt d a b) h d v [x, y] (bits (· &&& ·)) s s2 ∧
      Cells (.tor h m.fmt d a b) h d v [x, y] (bits (· ||| ·)) s s2 ∧
      Cells (.txor h m.fmt d a b) h d v [x, y] (bits (· ^^^ ·)) s s2) ∧
    (TileDest m.fmt isCX d v s →
      Cells (.tcmul h m.fmt m.rnd d a b) h d v [x, y] (fun t i j =>
        cmulSteps v.fm ftz m.rnd (x.at t s.cur.core v.fm i j) (y.at t s.cur.core v.fm i j) 0) s s2 ∧
      Cells (.tcfma h m.fmt m.rnd d a b) h d v [x, y, z] (fun t i j =>
        cmulSteps v.fm ftz m.rnd (x.at t s.cur.core v.fm i j) (y.at t s.cur.core v.fm i j)
          (t.elemBits s.cur.core v i j)) s s2)

/-- R270, R278 to R280: TABS, TNEG, TSHL, TSHR, TCMP and TSEL. -/
def Obligations.TileUnaryShiftCompareSelect : Prop :=
  ∀ (h : Head) (fm : Option Fmt) (satx : Bool) (d n cc mv : Nat) (a b : Src) (v mk : View) (x y : TSrc) (s s1 s2 : State),
    Runs h s → s1.cur = s.cur → s2.cur = s.cur →
    let w := fmtWidth v.fm
    (SrcFits v.fm a s → loadSrc 2 v.fm a s = .ok x s1 → (s1.me.view d).fe = true →
      (TileDest fm isFLIN d v s →
        Cells (.tabs h fm satx d a) h d v [x] (fun t i j =>
          signOp ⟨false, true, false⟩ (fun p => p.natAbs) satx v.fm (x.at t s.cur.core v.fm i j)) s s1) ∧
      (TileDest fm isFLINCX d v s →
        Cells (.tneg h fm satx d a) h d v [x] (fun t i j =>
          signOp ⟨true, false, false⟩ (fun p => -p) satx v.fm (x.at t s.cur.core v.fm i j)) s s1)) ∧
    (TileDest fm isIN d v s → SrcFits v.fm a s → SrcFits v.fm b s → (s2.me.view d).fe = true →
      (∀ k q fe, b ≠ .scal k q fe) → Loads2 v.fm a b s x y s2 →
      Cells (.tshl h fm d a b) h d v [x, y] (fun t i j =>
        ((x.at t s.cur.core v.fm i j) * 2 ^ (y.at t s.cur.core v.fm i j) % 2 ^ w, 0)) s s2 ∧
      Cells (.tshr h fm d a b) h d v [x, y] (fun t i j =>
        (intElem v.fm (elemInt v.fm (x.at t s.cur.core v.fm i j) / 2 ^ (y.at t s.cur.core v.fm i j)), 0)) s s2) ∧
    (TileDest fm isIN d v s → SrcFits v.fm a s → SrcFits v.fm b s → (s2.me.view d).fe = true →
      (∃ k q fe, b = .scal k q fe) → loadSrc 2 v.fm a s = .ok x s1 → readN64 3 b s1 = .ok n s2 →
      Cells (.tshl h fm d a b) h d v [x, .one n] (fun t i j => ((x.at t s.cur.core v.fm i j) * 2 ^ n % 2 ^ w, 0)) s s2 ∧
      Cells (.tshr h fm d a b) h d v [x, .one n] (fun t i j =>
        (intElem v.fm (elemInt v.fm (x.at t s.cur.core v.fm i j) / 2 ^ n), 0)) s s2) ∧
    (∀ g, g = cmpFmt (match a with | .tile k _ _ => some (s.me.view k).fm | _ => none)
        (match b with | .tile k _ _ => some (s.me.view k).fm | _ => none) (some v.fm) →
      TileDest fm isIN d v s → isFLIN g = true →
      (∀ k q fe, (a = .tile k q fe ∨ b = .tile k q fe) →
        k < 64 ∧ (s.me.view k).defd = true ∧ (s.me.view k).plain = true ∧ (s.me.view k).fm = g) →
      Loads2 g a b s x y s2 → (s2.me.view d).fe = true →
      Cells (.tcmp h fm cc d a b) h d v [x, y] (fun t i j =>
        let p := x.at t s.cur.core g i j
        let q := y.at t s.cur.core g i j
        let r := if isInt g then (iCond cc (fmtWidth g) (elemInt g p) (elemInt g q), 0)
          else fCond cc (decodeF g s2.me.ftz p) (decodeF g s2.me.ftz q)
        (if r.1 then 2 ^ w - 1 else 0, r.2)) s s2) ∧
    (TileDest fm isNB d v s → (∀ k q fe, (a = .tile k q fe ∨ b = .tile k q fe) →
        k < 64 ∧ (s.me.view k).defd = true ∧ (s.me.view k).plain = true ∧ (s.me.view k).fm = v.fm) →
      Loads2 v.fm a b s x y s2 → (s2.me.view d).fe = true →
      mv < 64 → s.me.view mv = mk → mk.defd = true → mk.plain = true → (s2.me.view mv).fe = true →
      Cells (.tsel h fm mv d a b) h d v [x, y, .view mv mk ⟨false, false, false⟩] (fun t i j =>
        (if mk.valid i j && t.elemBits s.cur.core mk i j != 0 then x.at t s.cur.core v.fm i j
          else y.at t s.cur.core v.fm i j, 0)) s s2)

namespace Sys2Proof.Say
/-- A view source that a move of elements accepts (R276). -/
def MoveSrc (v : View) (n : Nat) (y : View) (s : State) : Prop :=
  n < 64 ∧ s.me.view n = y ∧ y.defd = true ∧ y.plain = true ∧ y.fm = v.fm ∧ y.fe = true

/-- A move of whole elements from places that D's positions name; no valid place gives 0 (R276). -/
def Moved (i : Instr) (h : Head) (d : Nat) (v : View) (n : Nat) (y : View) (src : Nat → Nat → Nat × Nat) (s : State) :
    Prop :=
  let j := cellJob s.cur.core d v
    (fun _ g => [(n, (v.cells g).filterMap (fun e =>
      if y.valid (src e.1 e.2).1 (src e.1 e.2).2 then some (y.elem (src e.1 e.2).1 (src e.1 e.2).2) else none))])
    (fun t i k => (if y.valid (src i k).1 (src i k).2 then t.elemBits s.cur.core y (src i k).1 (src i k).2 else 0, 0))
  Open j v.groups s → exec i s = .next ((jobDone j v.groups s).advance h)

/-- TCOPY's work on a block format: each block's scale or exponents, the rest of each header zero, and the elements; what A
has no valid element for is 0 (R45, R276). -/
def blockJob (d : Nat) (v : View) (n : Nat) (y : View) (c : Nat) : Job :=
  { restart := d
    reads := fun _ g =>
      let r0 := (v.grp g).1
      let r1 := min (v.grp g).2 y.vrows
      let k := min v.vcols y.vcols
      [(n, (List.range' r0 (r1 - r0)).flatMap (fun i => y.hdrRuns i k) ++ y.runs r0 r1 k)]
    writes := fun _ g =>
      let r0 := (v.grp g).1
      let r1 := (v.grp g).2
      [(d, if v.vcols = 0 then [] else (List.range' r0 (r1 - r0)).flatMap (fun i => v.hdrRuns i v.vcols ++ [v.hdrRest i]) ++
        v.runsW r0 r1 v.vcols)]
    act := fun t g =>
      let rows := if v.vcols = 0 then [] else List.range' (v.grp g).1 ((v.grp g).2 - (v.grp g).1)
      let u := rows.foldl (fun u i =>
        (List.zip (v.hdrRuns i v.vcols) (y.hdrRuns i v.vcols)).zipIdx.foldl (fun u e =>
          u.setBits c e.1.1 (if i < y.vrows ∧ 32 * e.2 < y.vcols then t.bits c e.1.2 else 0)) (u.zeroRest c v i)) t
      u.fillCells c v (v.cells g) (fun i j => (if y.valid i j then t.elemBits c y i j else 0, 0)) }

/-- TCOPY's work on a bit-plane view: every line, in one group (R276, R289). -/
def planeJob (d : Nat) (v : View) (n : Nat) (y : View) (c : Nat) : Job :=
  { restart := d
    reads := fun _ _ => [(n, (upto y.rows).map y.lineRun)]
    writes := fun _ _ => [(d, (upto v.rows).map v.lineRun)]
    act := fun t _ => (upto v.rows).foldl (fun u i => u.setBits c (v.lineRun i) (t.bits c (y.lineRun i))) t }
end Sys2Proof.Say

/-- R276: TMOV, TBCAST, TTRANS and TCOPY move elements, TCOPY of a block format or of bit planes whole lines and headers;
TFILL and TIOTA fill D. A block none of whose columns is valid gets the zero header: the model's reading of R69 (log 14). -/
def Sys2Proof.Say.tileMovesAndFills : Prop :=
  ∀ (h : Head) (m : TMod) (mode : IotaMode) (col fe : Bool) (q : SrcMod) (d n b1 b2 : Nat) (a b : Src) (v y : View)
    (s s1 s2 : State), Runs h s → v.fe = true →
    (TileDest m.fmt isNB d v s → MoveSrc v n y s →
      Moved (.tmov h m.fmt d (.tile n q fe)) h d v n y (fun i j => (i, j)) s ∧
      Moved (.tbcast h m.fmt col d (.tile n q fe)) h d v n y (fun i j => if col then (i, 0) else (0, j)) s ∧
      Moved (.ttrans h m.fmt d (.tile n q fe)) h d v n y (fun i j => (j, i)) s ∧
      (v.rowsm1 = y.rowsm1 → v.colsm1 = y.colsm1 → v.fmt = y.fmt → v.layout = y.layout →
        Moved (.tcopy h m.fmt d (.tile n q fe)) h d v n y (fun i j => (i, j)) s)) ∧
    (s.me.hnd = false → s.myCore.tile = none → d < 64 → s.me.view d = v → v.defd = true →
      (m.fmt = none ∨ m.fmt = some v.fm) → n < 64 → s.me.view n = y → y.defd = true → y.fe = true →
      v.rowsm1 = y.rowsm1 → v.colsm1 = y.colsm1 → v.fmt = y.fmt → v.layout = y.layout →
      (v.layout = 0 → isBlock v.fm = true →
        let job := blockJob d v n y s.cur.core
        Open job v.groups s →
        exec (.tcopy h m.fmt d (.tile n q fe)) s = .next ((jobDone job v.groups s).advance h)) ∧
      (v.layout = 2 → v.vrows = v.rows → v.vcols = v.cols → y.vrows = y.rows → y.vcols = y.cols →
        let job := planeJob d v n y s.cur.core
        Open job 1 s →
        exec (.tcopy h m.fmt d (.tile n q fe)) s = .next ((jobDone job 1 s).advance h))) ∧
    (TileDest m.fmt isNB d v s → readElem v.fm 2 a s = .ok b1 s1 → (s1.me.view d).fe = true → s1.cur = s.cur →
      Cells (.tfill h m.fmt d a) h d v [] (fun _ _ _ => (b1, 0)) s s1) ∧
    (TileDest m.fmt isFLIN d v s → readElem v.fm 2 a s = .ok b1 s1 → readElem v.fm 3 b s1 = .ok b2 s2 →
      (s2.me.view d).fe = true → s2.cur = s.cur →
      Cells (.tiota h m mode d a b) h d v [] (fun _ i j =>
        let k := match mode with | .lin => i * v.cols + j | .row => j | .col => i
        arith v.fm s2.me.ftz m.satx m.rnd (fun p q _ => p + k * q) (fun p q _ => fFma m.rnd (.ofInt k) q p) b1 b2 0)
        s s2)

/-- R276: TGATHER takes each element from the column, or with .flat the position, that its index names, and 0 where the
index names none; the index is an element of a view, or one value for every element. -/
def Sys2Proof.Say.tgatherFollowsIndices : Prop :=
  ∀ (h : Head) (fm : Option Fmt) (flat fe : Bool) (q : SrcMod) (d n k : Nat) (w : Int) (a : Src) (b : SrcMod) (bf : Bool)
    (v y z : View) (s s1 : State), Runs h s → TileDest fm isNB d v s → v.fe = true → MoveSrc v n y s →
    let place := fun (x : Int) (i : Nat) =>
      if flat then if 0 ≤ x ∧ x < (y.vrows * y.vcols : Nat) then some (x.toNat / y.vcols, x.toNat % y.vcols) else none
      else if 0 ≤ x ∧ x < y.vcols ∧ i < y.vrows then some (i, x.toNat) else none
    let job := fun (idx : State → Nat → Nat → Int) (xs : List TSrc) => cellJob s.cur.core d v
      (fun t g => (n, (v.cells g).filterMap (fun e => (place (idx t e.1 e.2) e.1).map (fun p => y.elem p.1 p.2))) ::
        alike v xs g)
      (fun t i j => match place (idx t i j) i with | some p => (t.elemBits s.cur.core y p.1 p.2, 0) | none => (0, 0))
    (k < 64 → s.me.view k = z → z.defd = true → z.plain = true → isIN z.fm = true → z.fe = true →
      let job := job (fun t i j =>
        elemInt z.fm (modElem z.fm b (if z.valid i j then t.elemBits s.cur.core z i j else 0))) [.view k z b]
      Open job v.groups s →
      exec (.tgather h fm flat d (.tile n q fe) (.tile k b bf)) s = .next ((jobDone job v.groups s).advance h)) ∧
    ((∀ i m e, a ≠ .tile i m e) → readI64 3 a s = .ok w s1 → s1.cur = s.cur → (s1.me.view d).fe = true →
      let job := job (fun _ _ _ => w) [.one 0]
      Open job v.groups s1 →
      exec (.tgather h fm flat d (.tile n q fe) a) s = .next ((jobDone job v.groups s1).advance h))

namespace Sys2Proof.Say
/-- What TRED does (R282): rows of A to column 0 of D, columns of A to row 0, or all of A to element (0, 0); nothing where D
has no valid element. -/
def redJob (m : TMod) (op : RedOp) (axis : RedAxis) (d : Nat) (v : View) (n : Nat) (y : View) (ftz : Bool) (c : Nat) : Job :=
  let row := fun (t : State) (i : Nat) => if i < y.vrows then (upto y.vcols).map (fun j => t.elemBits c y i j) else []
  let column := fun (t : State) (j : Nat) => if j < y.vcols then (upto y.vrows).map (fun i => t.elemBits c y i j) else []
  let red := reduce v.fm ftz m.satx m.rnd op
  if v.vrows = 0 ∨ v.vcols = 0 then { restart := d, reads := fun _ _ => [], writes := fun _ _ => [], act := fun t _ => t }
  else match axis with
  | .row =>
    { restart := d
      reads := fun _ g => [(n, y.runs (v.grp g).1 (min (v.grp g).2 y.vrows) y.vcols)]
      writes := fun _ g => [(d, v.runsW (v.grp g).1 (v.grp g).2 1)]
      act := fun t g => t.fillCells c v
        ((List.range' (v.grp g).1 ((v.grp g).2 - (v.grp g).1)).map (fun i => (i, 0))) (fun i _ => red (row t i)) }
  | .col =>
    { restart := d, reads := fun _ _ => [(n, y.runs 0 y.vrows (min v.vcols y.vcols))]
      writes := fun _ _ => [(d, v.runsW 0 1 v.vcols)]
      act := fun t _ => t.fillCells c v ((upto v.vcols).map (fun j => (0, j))) (fun _ j => red (column t j)) }
  | .all =>
    { restart := d, reads := fun _ _ => [(n, y.runs 0 y.vrows y.vcols)], writes := fun _ _ => [(d, v.runsW 0 1 1)]
      act := fun t _ => t.fillCells c v [(0, 0)] (fun _ _ => red ((upto y.vrows).flatMap (row t))) }
end Sys2Proof.Say

/-- R60, R282: TRED reduces rows, columns or all of A. -/
def Sys2Proof.Say.tredReduces : Prop :=
  ∀ (h : Head) (m : TMod) (op : RedOp) (axis : RedAxis) (fe : Bool) (q : SrcMod) (d n : Nat) (v y : View) (s : State),
    Runs h s → TileDest m.fmt (fun f => if op = .sum then isFLINCX f else isFLIN f) d v s → v.fe = true →
    MoveSrc v n y s →
    let job := redJob m op axis d v n y s.me.ftz s.cur.core
    let k := if axis = .row then v.groups else 1
    Open job k s → exec (.tred h m op axis d (.tile n q fe)) s = .next ((jobDone job k s).advance h)

/-- R60, R276, R282: TGATHER and TRED. -/
def Obligations.GatherAndReduce : Prop :=
  Say.tgatherFollowsIndices ∧ Say.tredReduces

/-- R271 to R275: TVIEW and TVALID set descriptors, TGET reads one, TLDR loads one; they wait while another seat's
instruction has the tile engine. -/
def Sys2Proof.Say.viewInstructions : Prop :=
  ∀ (h : Head) (n d k : Nat) (r c : Int) (a b : Src) (q : SrcMod) (fe : Bool) (clamp : Bool) (v : View) (r0 : TileRun)
    (s s1 s2 : State), Runs h s →
    (s.myCore.tile = some r0 → r0.seat ≠ s.cur.seat → s.me.hnd = false →
      exec (.tview h d a) s = .next s ∧ exec (.tvalid h clamp d a b) s = .next s ∧ exec (.tget h d a b) s = .next s ∧
      exec (.tldr h d a) s = .next s) ∧
    (s.myCore.tile = none → s.me.hnd = false →
    (readN64 2 a s = .ok n s1 → n < 2 ^ 58 → (s1.me.view d).fe = true →
      let w := View.ofImage (n + 2 ^ 80 + 2 ^ 79)
      let w := { w with vrows := w.rows, vcols := w.cols }
      w.ok = true → exec (.tview h d a) s = .next ((s1.modMe (fun x => x.setView d w)).advance h)) ∧
    (d < 64 → s.me.view d = v → v.defd = true → readI64 2 a s = .ok r s1 → readI64 3 b s1 = .ok c s2 →
      (s2.me.view d).fe = true →
      exec (.tvalid h true d a b) s = .next ((s2.modMe (fun x => x.setView d
        { v with vrows := (min (max r 0) v.rows).toNat, vcols := (min (max c 0) v.cols).toNat, prog := 0 })).advance h) ∧
      (0 ≤ r → r ≤ v.rows → 0 ≤ c → c ≤ v.cols →
        exec (.tvalid h false d a b) s = .next ((s2.modMe (fun x => x.setView d
          { v with vrows := r.toNat, vcols := c.toNat, prog := 0 })).advance h))) ∧
    (readI64 3 b s = .ok r s1 → r = 0 ∨ r = 1 → Dest d s1 →
      exec (.tget h d (.tile k q fe) b) s = .next ((s1.modMe (fun x => x.setReg d
        (BitVec.ofNat 64 ((s1.me.view k).image / 2 ^ (64 * r.toNat))))).advance h)) ∧
    (readN64 2 a s = .ok n s1 → n % 16 = 0 → n < 2 ^ 18 → (s1.me.view d).fe = true → BankQuiet s1 →
      localOk s1 s1.cur.core n 16 s1.me.who .r false = true → s1.myCore.heldRange n 16 none = false →
      s1.locBad s1.cur.core n 16 = none → imageOk (s1.locNum s1.cur.core n 16) = true →
      exec (.tldr h d a) s = .next ((s1.modMe (fun x => x.setView d
        { View.ofImage (s1.locNum s1.cur.core n 16) with fe := true })).advance h)))

/-- R271 to R276: view instructions, and tile moves and fills. The header of a block without a valid column rests on log 14. -/
def Obligations.ViewsMovesAndFills : Prop :=
  Say.tileMovesAndFills ∧ Say.viewInstructions

/-! ## Special functions, conversion, scaling, splitting -/

/-- R270, R283, R285: TEXP2, TLOG2, TRSQ, TSIN, TCOS, TRCP, TSQRT and TSCALE compute each valid element of D. The results
of the first five are bounded by R283 and free within the bound (log 9). -/
def Sys2Proof.Say.specialFunctionsComputeElements : Prop :=
  ∀ (h : Head) (fm : Option Fmt) (rnd : Rnd) (d : Nat) (k : Int) (a b : Src) (v : View) (x y : TSrc) (s s1 s2 : State),
    Runs h s → TileDest fm isFL d v s → loadSrc 2 v.fm a s = .ok x s1 → s1.cur = s.cur → s2.cur = s.cur →
    (SrcFits v.fm a s → (s1.me.view d).fe = true →
      let fn := fun (f : Fmt → Bool → Nat → Nat × Flags) (t : State) (i j : Nat) =>
        f v.fm s1.me.ftz (x.at t s.cur.core v.fm i j)
      Cells (.texp2 h fm d a) h d v [x] (fn (specialEl .exp2)) s s1 ∧
      Cells (.tlog2 h fm d a) h d v [x] (fn (specialEl .log2)) s s1 ∧
      Cells (.trsq h fm d a) h d v [x] (fn (specialEl .rsq)) s s1 ∧
      Cells (.tsin h fm d a) h d v [x] (fn (specialEl .sin)) s s1 ∧
      Cells (.tcos h fm d a) h d v [x] (fn (specialEl .cos)) s s1 ∧
      Cells (.trcp h fm rnd d a) h d v [x] (fn (rootEl (fun z => fDiv (.fin false 1 0) z) rnd)) s s1 ∧
      Cells (.tsqrt h fm rnd d a) h d v [x] (fn (rootEl fSqrt rnd)) s s1) ∧
    ((∀ n q fe, a = .tile n q fe → n < 64 ∧ (s.me.view n).defd = true ∧ (s.me.view n).plain = true ∧
        (s.me.view n).fm = v.fm) → (s2.me.view d).fe = true →
      ((∀ n q fe, b ≠ .tile n q fe) → readI64 3 b s1 = .ok k s2 →
        Cells (.tscale h fm rnd d a b) h d v [x, .one 0] (fun t i j =>
          let p := decodeF v.fm s2.me.ftz (x.at t s.cur.core v.fm i j)
          roundEl v.fm s2.me.ftz rnd (p.scale (min (max k (-2048)) 2047), p.nvOf)) s s2) ∧
      (∀ n q fe z, b = .tile n q fe → n < 64 → s.me.view n = z → z.defd = true → z.plain = true → isIN z.fm = true →
        s2.me.view n = z → loadSrc 3 .int64 b s1 = .ok y s2 →
        Cells (.tscale h fm rnd d a b) h d v [x, .view n z q] (fun t i j =>
          let p := decodeF v.fm s2.me.ftz (x.at t s.cur.core v.fm i j)
          let e := elemInt z.fm (modElem z.fm q (if z.valid i j then t.elemBits s.cur.core z i j else 0))
          roundEl v.fm s2.me.ftz rnd (p.scale (min (max e (-2048)) 2047), p.nvOf)) s s2))

namespace Sys2Proof.Say
/-- The value ±m · 2^e is the integer z. -/
def IsInt (m : Nat) (e : Int) (z : Nat) : Prop := z * 2 ^ (-e).toNat = m * 2 ^ e.toNat

/-- `y` lies within the bound of R283 of the model's approximation `v` of an exact result, to 192 bits (log 9): within `ulps` of
the last place of `v`, or for TSIN and TCOS the absolute bound. -/
def NearTo (f : Fmt) (k : Config.Special) (v y : FVal) : Prop :=
  ∃ (n : Bool) (m : Nat) (e : Int), v = .fin n m e ∧
    (within y v (if k = .rsq then 1 else if f = .fp64 then 1 else 2)
        (if m = 0 then 1 - ((fpar f).bias : Int) - (fpar f).fbits else ulpExp f m e) = true ∨
      (k = .sin ∨ k = .cos) ∧ within y v 1 (if f = .fp64 then -53 else -24) = true)

/-- R283: outside the exact cases a result is the correctly rounded one or lies within the bound. -/
def specialBounds : Prop :=
  ∀ (f : Fmt) (bits m : Nat) (n : Bool) (e : Int), f = .fp64 ∨ f = .fp32 → m ≠ 0 →
    let near := fun (k : Config.Special) (n : Bool) (v : FVal) =>
      let r := (specialWide f k (.fin n m e) bits).1
      r = (roundF f false .rne .sat v).1 ∨ NearTo f k v (decodeF f false r)
    ((∀ z, ¬ IsInt m e z) → (Nat.log2 m : Int) + e ≤ 12 → near .exp2 n (exp2At n m e)) ∧
    ((∀ j, m ≠ 2 ^ j) → near .log2 false (log2At m e)) ∧
    near .rsq false (fSqrt (fDiv (.fin false 1 0) (.fin false m e)).1).1 ∧
    ((∀ z, ¬ IsInt m (e + 2) z) → near .sin n (trigAt false n m e) ∧ near .cos n (trigAt true n m e))

/-- R283: the exact results: TEXP2 of every integer whose power of two the format holds, TLOG2 of every power of two, TSIN and
TCOS of every multiple z/4 of 1/4. -/
def specialExact : Prop :=
  ∀ (f : Fmt) (bits m z j : Nat) (n : Bool) (e : Int), f = .fp64 ∨ f = .fp32 →
    let exact := fun (v : FVal) => roundF f false .rne .sat v
    let one := fun (n : Bool) => (packF (fpar f) n (fpar f).bias 0, (0 : Flags))
    (IsInt m e z → (exact (.fin false 1 (if n then -(z : Int) else z))).2 = 0 →
      specialWide f .exp2 (.fin n m e) bits = exact (.fin false 1 (if n then -(z : Int) else z))) ∧
    specialWide f .log2 (.fin false (2 ^ j) e) bits = exact (.ofInt (j + e)) ∧
    (IsInt m (e + 2) z →
      (z % 2 = 0 → specialWide f .sin (.fin n m e) bits = exact (.fin n 0 0)) ∧
      (z % 4 = 1 → specialWide f .sin (.fin n m e) bits = one n) ∧
      (z % 4 = 3 → specialWide f .sin (.fin n m e) bits = one !n) ∧
      (z % 2 = 1 → specialWide f .cos (.fin n m e) bits = exact (.fin false 0 0)) ∧
      (z % 4 = 0 → specialWide f .cos (.fin n m e) bits = one false) ∧
      (z % 4 = 2 → specialWide f .cos (.fin n m e) bits = one true))
end Sys2Proof.Say

/-- R283: what the special functions give for NaN, infinities, zeros and negative arguments in FP64 and FP32. -/
def Sys2Proof.Say.specialFunctionTable : Prop :=
  ∀ (f : Fmt) (bits m : Nat) (k : Config.Special) (n q : Bool) (e : Int), f = .fp64 ∨ f = .fp32 →
    specialWide f k (.nan q) bits = (defaultNan f, if q then fNV else 0) ∧
    specialWide f .exp2 (.inf n) bits = (if n then 0 else infBits f false, 0) ∧
    specialWide f .exp2 (.fin n 0 e) bits = (packF (fpar f) false (fpar f).bias 0, 0) ∧
    specialWide f .log2 (.fin n 0 e) bits = (infBits f true, fDZ) ∧
    specialWide f .log2 (.inf n) bits = (if n then (defaultNan f, fNV) else (infBits f false, 0)) ∧
    (m ≠ 0 → specialWide f .log2 (.fin true m e) bits = (defaultNan f, fNV) ∧
      specialWide f .rsq (.fin true m e) bits = (defaultNan f, fNV)) ∧
    specialWide f .rsq (.fin n 0 e) bits = (infBits f n, fDZ) ∧
    specialWide f .rsq (.inf false) bits = (0, 0) ∧
    specialWide f .rsq (.inf true) bits = (defaultNan f, fNV) ∧
    specialWide f .sin (.inf n) bits = (defaultNan f, fNV) ∧
    specialWide f .cos (.inf n) bits = (defaultNan f, fNV)

/-- R283: the special functions: results within their bounds, and the exact cases exactly. -/
def Obligations.SpecialFunctionResults : Prop :=
  Say.specialBounds ∧ Say.specialExact ∧ Say.specialFunctionsComputeElements ∧ Say.specialFunctionTable

namespace Sys2Proof.Say
/-- TCONV's work (R45, R284). -/
def convJob (d : Nat) (v : View) (n : Nat) (y : View) (cv : Conv) (c : Nat) : Job :=
  { restart := d
    reads := fun _ g =>
      let r0 := (v.grp g).1
      let r1 := min (v.grp g).2 y.vrows
      let k := min v.vcols y.vcols
      [(n, (if isBlock y.fm then (List.range' r0 (r1 - r0)).flatMap (fun i => y.hdrRuns i k) else []) ++ y.runs r0 r1 k)]
    writes := fun _ g =>
      let r0 := (v.grp g).1
      let r1 := (v.grp g).2
      [(d, if v.vcols = 0 then [] else (List.range' r0 (r1 - r0)).flatMap v.hdrAll ++ v.runsW r0 r1 v.vcols)]
    act := fun t g =>
      if v.vcols = 0 then t else if isCX v.fm then convComplex t c v y cv g else convGroup t c v y cv g }

/-- TSPLIT's work (R61, R286). -/
def splitJob (d : Nat) (v v1 v2 : View) (n : Nat) (y : View) (c : Nat) : Job :=
  let part := fun (w : View) (g : Nat) => w.runsW (v.grp g).1 (min (v.grp g).2 w.vrows) (min v.vcols w.vcols)
  { restart := d
    reads := fun _ g => alike v [.view n y ⟨false, false, false⟩] g
    writes := fun _ g => [(d, part v g), (d + 1, part v1 g), (d + 2, part v2 g)]
    act := fun t g =>
      let at_ := fun i j => split3 ((TSrc.view n y ⟨false, false, false⟩).at t c .fp32 i j)
      let cells := v.cells g
      ((t.fillCells c v cells (fun i j => ((at_ i j).1, (at_ i j).2.2.2))).fillCells c v1
        (cells.filter (fun e => v1.valid e.1 e.2)) (fun i j => ((at_ i j).2.1, 0))).fillCells c v2
        (cells.filter (fun e => v2.valid e.1 e.2)) (fun i j => ((at_ i j).2.2.1, 0)) }
end Sys2Proof.Say

/-- R61, R284, R286: TCONV converts and TSPLIT splits, group by group. -/
def Sys2Proof.Say.conversionAndSplitting : Prop :=
  ∀ (h : Head) (m : TMod) (had : Had) (d n : Nat) (q : SrcMod) (fe : Bool) (b : Option Src) (e : Int) (v v1 v2 y : View)
    (s s1 : State), Runs h s → s.myCore.tile = none → s.me.hnd = false → d < 64 → n < 64 → s.me.view d = v → s.me.view n = y →
    v.defd = true → y.defd = true → y.fe = true →
    (let hn := match had with | .none => 0 | .h16 => 16 | .h32 => 32
      (m.fmt = none ∨ m.fmt = some v.fm) → v.layout < 2 → (isBlock v.fm = true → v.layout = 0) → y.layout < 2 →
      (isBlock y.fm = true → y.layout = 0) → convPair y.fm v.fm (hn != 0) = true →
      (hn ≠ 0 → v.cols % hn = 0 ∧ y.cols % hn = 0) → readOpt 0 (readI64 3) b s = .ok e s1 → -2048 ≤ e → e ≤ 2047 →
      (s1.me.view d).fe = true →
      let job := convJob d v n y { satx := m.satx, rnd := m.rnd, had := hn, e := e, ftz := s1.me.ftz } s1.cur.core
      Open job v.groups s1 →
      exec (.tconv h m had d (.tile n q fe) b) s = .next ((jobDone job v.groups s1).advance h)) ∧
    (d ≤ 61 → (m.fmt = none ∨ m.fmt = some .bf16) → s.me.view (d + 1) = v1 → s.me.view (d + 2) = v2 →
      v1.defd = true → v2.defd = true → (∀ w, w = v ∨ w = v1 ∨ w = v2 → w.plain = true ∧ w.fm = .bf16 ∧ w.fe = true) →
      y.plain = true → y.fm = .fp32 →
      let job := splitJob d v v1 v2 n y s.cur.core
      Open job v.groups s →
      exec (.tsplit h m.fmt d (.tile n q fe)) s = .next ((jobDone job v.groups s).advance h))

/-- R61: where TSPLIT raises no flag, its three parts sum to the finite value split. -/
def Sys2Proof.Say.splitPartsSumToValue : Prop :=
  ∀ (a : Nat) (x hi mid lo : Int), asInts (-149) (decodeF .fp32 false a) = some x → (split3 a).2.2.2 = 0 →
    asInts (-149) (decodeF .bf16 false (split3 a).1) = some hi →
    asInts (-149) (decodeF .bf16 false (split3 a).2.1) = some mid →
    asInts (-149) (decodeF .bf16 false (split3 a).2.2.1) = some lo → hi + mid + lo = x

/-- R61, R284, R286: TCONV and TSPLIT. -/
def Obligations.ConversionAndSplitting : Prop :=
  Say.conversionAndSplitting ∧ Say.splitPartsSumToValue

/-- R44, R68, R270: an element that a tile instruction writes reads back, and writing it leaves every byte of local
memory outside its line's bytes, and every byte of every other core, as it was. -/
def Obligations.ElementWriteReadsBack : Prop :=
  ∀ (s : State) (c : Nat) (v : View) (i j x : Nat), s.lmem.wf = true → v.ok = true → v.layout < 2 → i < v.rows → j < v.cols →
    let t := s.putElem c v i j x
    t.elemBits c v i j = x % 2 ^ fmtWidth v.fm ∧
    (∀ i' j', i' < v.rows → j' < v.cols → (i', j') ≠ (i, j) → t.elemBits c v i' j' = s.elemBits c v i' j') ∧
    (∀ a, a < lkey c (v.base + v.pitch * (if v.layout = 1 then j else i) + v.hdr) ∨
        lkey c (v.base + v.pitch * (if v.layout = 1 then j else i) + v.lineLen) ≤ a →
      memRead t.lmem a = memRead s.lmem a)

/-! ## Copies, timelines, the matrix unit -/

namespace Sys2Proof.Say
/-- What the issue of a copy leaves (R187, R301): the operation at the end of its context's queue under the next number,
the view that it fills empty, and no byte of memory changed. -/
def CopyIssued (i : Instr) (h : Head) (s s1 : State) (P : CopyOp → Prop) : Prop :=
  ∃ op t, exec i s = .next (State.advance t h) ∧ P op ∧
    op.num = ((s1.myCore.tl s.cur.seat).iss + 1) % 2 ^ 56 ∧ op.seat = s.cur.seat ∧ op.strn = s.cur.strn ∧ op.group = 0 ∧
    (t.myCore.ctx s.cur.seat).ops = (s1.myCore.ctx s.cur.seat).ops ++ [op] ∧
    (t.myCore.tl s.cur.seat).iss = op.num ∧ (op.fills = true → (t.me.view op.vnum).fe = false) ∧
    t.lmem = s1.lmem ∧ t.dram = s1.dram ∧ t.host = s1.host ∧ t.fabric = s1.fabric ∧ t.acc = s1.acc

/-- The scoreboard and the context's queue have room for one operation more, and the strand has none at issue (R98, R131). -/
def CopyRoom (s : State) : Prop :=
  s.myCore.boardUse + 4 ≤ 32 ∧ (s.myCore.ctx s.cur.seat).ops.length < 16 ∧
    ∀ p ∈ (s.myCore.ctx s.cur.seat).held, p.strn ≠ s.cur.strn

/-- Four full scalars from sN up. -/
def FourFull (n : Nat) (s : State) : Prop := n + 4 ≤ 64 ∧ ∀ j, j < 4 → s.me.full (n + j) = true

/-- The origin that four scalars hold (R302). -/
def originOf (n : Nat) (s : State) : List Int := (upto 4).map (fun j => (s.me.reg (n + j)).toInt)
end Sys2Proof.Say

/-- R300 to R304: an accepted CPY.ld, CPY.st, CPYG, CPYS or CPYADD is queued with its view, tensor and origin. -/
def Sys2Proof.Say.copiesAreQueued : Prop :=
  ∀ (h : Head) (z d n k : Nat) (t c fit fe bf : Bool) (m q : SrcMod) (v y : View) (tens : Tensor) (s s1 : State),
    Runs h s → s.me.hnd = false → s.ldaOpen s.cur = false → s.cur.seat < 4 → d < 64 → s.me.view d = v → v.defd = true →
    v.fe = true → (isBlock v.fm = true → v.layout ≠ 1) → (c = true → isCX v.fm = true) → FourFull n s →
    readTensor z s = .ok tens s1 → tens.fm = v.fm → s1.cur = s.cur → CopyRoom s1 →
    let a : Src := .scal n m fe
    let P := fun (kind : CopyKind) (t : Bool) (op : CopyOp) => op.kind = kind ∧ op.vnum = d ∧ op.tens = tens ∧
      op.org = originOf n s ∧ op.t = t ∧ op.c = c
    ((t = true → isBlock v.fm = false) →
      CopyIssued (.cpyLd h z t c fit d a) h s s1 (fun op => P .load t op ∧ (fit = false → op.view = v)) ∧
      CopyIssued (.cpySt h z t c d a) h s s1 (fun op => P .store t op ∧ op.view = v) ∧
      (addFmt v.fm = true → CopyIssued (.cpyadd h z t c d a) h s s1 (fun op => P .add t op ∧ op.view = v))) ∧
    (k < 64 → s.me.view k = y → y.defd = true → y.layout < 3 → (y.fm = .int32 ∨ y.fm = .nat32 ∨ y.fm = .int64) →
      y.fe = true →
      CopyIssued (.cpyg h z c d a (.tile k q bf)) h s s1 (fun op => P .gather false op ∧ op.view = v ∧ op.idx = some y) ∧
      CopyIssued (.cpys h z c d a (.tile k q bf)) h s s1 (fun op => P .scatter false op ∧ op.view = v ∧ op.idx = some y))

/-- R150, R305: CPYX reads its transfer entry from local memory and queues the move that it describes. -/
def Sys2Proof.Say.cpyxQueuesMove : Prop :=
  ∀ (h : Head) (a : Src) (off : Nat) (t1 t2 : Tensor) (s s1 s2 s3 : State), Runs h s → s.me.hnd = false →
    s.ldaOpen s.cur = false → s.cur.seat < 4 →
    readN64 2 a s = .ok off s1 → off % 64 = 0 → off < 2 ^ 18 → s1.cur = s.cur → s3.cur = s.cur → BankQuiet s1 →
    localOk s1 s.cur.core off 64 s1.me.who .r false = true → s1.myCore.heldRange off 64 none = false →
    s1.locBad s.cur.core off 64 = none →
    let e := Xfer.ofBytes (s1.locRead s.cur.core off 64)
    e.ok = true → readTensor e.srcz s1 = .ok t1 s2 → readTensor e.dstz s2 = .ok t2 s3 → e.fmtOk t1.fm t2.fm = true →
    CopyRoom s3 →
    CopyIssued (.cpyx h a) h s s3 (fun op => op.kind = .move t2 e.dorg e.nrows e.ncols (e.op == 2) ∧ op.tens = t1 ∧
      op.org = e.sorg ∧ op.t = e.tr ∧ op.c = e.cj)

/-- R300 to R305: the copies and CPYX. -/
def Obligations.CopyInstructions : Prop :=
  Say.copiesAreQueued ∧ Say.cpyxQueuesMove

/-- R309 to R311: TLWAIT goes on when DONE has reached its value, TLGET reads DONE, ISS or ERRLAST, TLADV advances a
timeline of software. -/
def Sys2Proof.Say.timelineInstructions : Prop :=
  ∀ (h : Head) (d n k v : Nat) (a b : Src) (s s1 s2 : State), Runs h s → s.me.hnd = false →
    (readN64 2 a s = .ok v s1 → (d < 6 → tlMet (s1.myCore.tl d).iss (v % 2 ^ 56) = true) → s1.stopOf [d] = none →
      (tlMet (s1.myCore.tl d).done (v % 2 ^ 56) = true → exec (.tlwait h d a) s = .next (s1.advance h)) ∧
      (tlMet (s1.myCore.tl d).done (v % 2 ^ 56) = false → exec (.tlwait h d a) s = .next s)) ∧
    (readN64 2 a s = .ok n s1 → readN64 3 b s1 = .ok k s2 → n < 8 → k < 3 → s2.stopOf [n] = none → Dest d s2 →
      exec (.tlget h d a b) s = .next ((s2.modMe (fun x => x.setReg d (BitVec.ofNat 64 (
        if k = 0 ∨ (k = 1 ∧ 6 ≤ n) then (s2.myCore.tl n).done
        else if k = 1 then (s2.myCore.tl n).iss
        else if n < 4 then (s2.myCore.ctx n).eng.errlast.toNat
        else if n = 4 then s2.myCore.mat.eng.errlast.toNat else 0)))).advance h)) ∧
    (d = 6 ∨ d = 7 → readN64 2 a s = .ok n s1 → n ≤ 2 ^ 32 → s1.quiet s1.cur = true →
      exec (.tladv h d a) s = .next ((s1.modMyCore (fun x =>
        x.setTl d { x.tl d with done := ((x.tl d).done + n) % 2 ^ 56 })).advance h))

/-- R188: a wait value is met where the counter is at or up to 2^55 − 1 beyond it, modulo 2^56. -/
def Sys2Proof.Say.timelineComparisonWraps : Prop :=
  ∀ (c v : Nat), c < 2 ^ 56 → v < 2 ^ 56 → (tlMet c v = true ↔ ∃ k, k < 2 ^ 55 ∧ c = (v + k) % 2 ^ 56)

/-- R188, R309 to R311: TLWAIT, TLGET, TLADV, and the comparison of TLWAIT. -/
def Obligations.TimelineInstructions : Prop :=
  Say.timelineInstructions ∧ Say.timelineComparisonWraps

namespace Sys2Proof.Say
/-- What the issue of a matrix operation leaves (R18, R187, R291): the unit held by the seat, the operation at the end of
the queue under the next number (1 where the unit was free), the view that it fills empty, no byte of memory changed. -/
def MatIssued (i : Instr) (h : Head) (s s1 : State) (P : MatOp → Prop) : Prop :=
  ∃ op t, exec i s = .next (State.advance t h) ∧ P op ∧
    op.num = (if s1.myCore.mat.holder = none then 1 else ((s1.myCore.tl 4).iss + 1) % 2 ^ 56) ∧
    op.seat = s.cur.seat ∧ op.strn = s.cur.strn ∧ op.group = 0 ∧
    t.myCore.mat.holder = some s.cur.seat ∧ t.myCore.mat.ops = s1.myCore.mat.ops ++ [op] ∧
    (t.myCore.tl 4).iss = op.num ∧ (op.fills = true → (t.me.view op.vnum).fe = false) ∧
    t.lmem = s1.lmem ∧ t.acc = s1.acc ∧ t.dram = s1.dram ∧ t.host = s1.host ∧ t.fabric = s1.fabric

/-- No LDA is open, the unit is free or the seat's own, and its queue has room (R18, R131, R321). -/
def MatRoom (s : State) : Prop :=
  s.ldaOpen s.cur = false ∧ (s.myCore.mat.holder = none ∨ s.myCore.mat.holder = some s.cur.seat) ∧ s.myCore.mat.ops.length < 8

/-- An accumulator origin within the store for a rectangle (R290). -/
def AccAt (w : Word) (af : AFmt) (rows cols r c : Nat) : Prop :=
  w.toNat < 2 ^ 16 ∧ w.getLsbD 7 = false ∧ r = w.toNat % 128 ∧ c = w.toNat / 256 ∧ r + rows ≤ 128 ∧ c + cols ≤ accCols af

/-- A full bit-plane operand (R292). -/
def PlaneSrc (n : Nat) (v : View) (s : State) : Prop :=
  n < 64 ∧ s.me.view n = v ∧ v.defd = true ∧ v.layout = 2 ∧ v.fe = true
end Sys2Proof.Say

/-- R290 to R298: an accepted matrix instruction outside a gang is queued with its operands and origin. -/
def Sys2Proof.Say.matrixInstructionsAreQueued : Prop :=
  ∀ (h : Head) (af : AFmt) (sat satx clr add t : Bool) (rnd : Rnd) (d n m r c z : Nat) (mn mm : SrcMod) (fa fb : Bool)
    (a b : Src) (bo : Option Src) (e : Int) (va vb v : View) (tens : Tensor) (s s1 s2 : State),
    Runs h s → s.me.hnd = false → s.cur.seat < 4 → s1.cur = s.cur → s2.cur = s.cur →
    let O := fun (kind : MatKind) (op : MatOp) => op.kind = kind ∧ op.af = af ∧ op.row0 = r ∧ op.col0 = c
    (PlaneSrc n va s → PlaneSrc m vb s → mmaPair va.fm vb.fm af = true → Dest d s → AccAt (s.me.reg d) af va.rows vb.rows r c →
      MatRoom s →
      let Q := fun (kind : MatKind) (op : MatOp) => O kind op ∧ op.va = va ∧ op.vb = vb ∧ op.ma = mn ∧ op.mb = mm
      MatIssued (.mma h af sat d (.tile n mn fa) (.tile m mm fb)) h s s (Q (.mma sat)) ∧
      MatIssued (.mmac h af d (.tile n mn fa) (.tile m mm fb)) h s s (Q .mmac) ∧
      ((∀ q, s.myCore.gang = some q → q.seat ≠ s.cur.seat ∨ s.cur.strn ≠ .main) →
        MatIssued (.mgang h af sat d (.tile n mn fa) (.tile m mm fb)) h s s (fun op => Q (.mgang sat) op ∧ op.gid = none))) ∧
    (∀ rows cols, readN64 2 a s = .ok rows s1 → readN64 3 b s1 = .ok cols s2 → 1 ≤ rows → rows ≤ 128 → 1 ≤ cols →
      cols ≤ 256 → Dest d s2 → AccAt (s2.me.reg d) af rows cols r c → MatRoom s2 →
      MatIssued (.mzero h af d a b) h s s2 (O (.zero rows cols))) ∧
    (n < 64 → s.me.view n = v → v.defd = true → v.plain = true → (isCX v.fm = true → isCplxAf af = true) → v.fe = true →
      Dest d s → AccAt (s.me.reg d) af v.rows v.cols r c → MatRoom s →
      MatIssued (.mload h af d (.tile n mn fa)) h s s (fun op => O .load op ∧ op.va = v)) ∧
    (d < 64 → s.me.view d = v → v.defd = true → v.plain = true → isCX v.fm = isCplxAf af → v.fe = true →
      n < 64 → s.me.full n = true → readOpt 0 (readI64 3) bo s = .ok e s1 → -2048 ≤ e → e ≤ 2047 → s1.me = s.me →
      AccAt (s.me.reg n) af v.rows v.cols r c → MatRoom s1 →
      MatIssued (.mdrain h af rnd satx clr d (.scal n mn fa) bo) h s s1
        (fun op => O (.drain e rnd satx clr) op ∧ op.va = v ∧ op.vnum = d)) ∧
    (d < 64 → s.me.view d = v → v.defd = true → v.plain = true → isCX v.fm = false → (add = true → addFmt v.fm = true) →
      v.fe = true → n + 5 ≤ 64 → (∀ j, j < 5 → s.me.full (n + j) = true) → readOpt 0 (readI64 3) bo s = .ok e s1 →
      -2048 ≤ e → e ≤ 2047 → s1.me = s.me → AccAt (s.me.reg n) af v.rows v.cols r c → readTensor z s1 = .ok tens s2 →
      tens.fm = v.fm → MatRoom s2 →
      MatIssued (.mdrainc h af z add clr satx t d (.scal n mn fa) bo) h s s2
        (fun op => O (.drainc e satx clr add t tens ((upto 4).map (fun j => (s.me.reg (n + 1 + j)).toInt))) op ∧
          op.va = v ∧ op.vnum = d))

/-- R295: MGANG in a gang takes the operands of an edge member from its own views and any other operand from the view of the
member that sends it; that every member's operation carries the leader's number is the model's choice (log 44). -/
def Sys2Proof.Say.mgangInGang : Prop :=
  ∀ (h : Head) (af : AFmt) (sat : Bool) (d n m r c : Nat) (mn mm : SrcMod) (fa fb : Bool) (q : Gang) (va vb : View)
    (s : State), Runs h s → s.me.hnd = false → s.cur.seat < 4 → s.cur.strn = .main → s.myCore.gang = some q →
    q.seat = s.cur.seat → q.leader ≤ s.cur.core → q.leader % 128 ≤ s.cur.core % 128 →
    q.leader / 128 ≤ s.cur.core / 128 →
    let x := s.cur.core % 128 - q.leader % 128
    let y := s.cur.core / 128 - q.leader / 128
    let sent := fun (k n : Nat) => (s.seat k (((s.core k).gang.map (fun g => g.seat)).getD 0)).view n
    (if x = 0 then PlaneSrc n va s else va = sent (s.cur.core - x) n ∧ va.fe = true) →
    (if y = 0 then PlaneSrc m vb s else vb = sent (s.cur.core - 128 * y) m ∧ vb.fe = true) →
    va.layout = 2 → vb.layout = 2 → mmaPair va.fm vb.fm af = true → Dest d s → AccAt (s.me.reg d) af va.rows vb.rows r c →
    MatRoom s →
    MatIssued (.mgang h af sat d (.tile n mn fa) (.tile m mm fb)) h s s (fun op => op.kind = .mgang sat ∧ op.af = af ∧
      op.row0 = r ∧ op.col0 = c ∧ op.va = va ∧ op.vb = vb ∧ op.gid = some (q.leader,
        if q.leader = s.cur.core then s.fresh else ((s.core q.leader).gang.map (fun g => g.mg)).getD 0))

/-- R290 to R298: the matrix instructions, and MGANG within a gang, whose operations carry the leader's number by the model's choice (log 44). -/
def Obligations.MatrixInstructions : Prop :=
  Say.matrixInstructionsAreQueued ∧ Say.mgangInGang

/-! ## Memory -/

namespace Sys2Proof.Say
/-- The address that an access's sources give (R313). -/
def Addr (a b : Src) (s : State) (va : Nat) (s1 : State) : Prop :=
  ∃ x y s0, readN64 2 a s = .ok x s0 ∧ readI64 3 b s0 = .ok y s1 ∧ (va : Int) = ((x : Int) + y) % (2 ^ 64 : Nat)

/-- An access as it leaves its strand (R315). -/
def accessOf (kind : AccKind) (len : Nat) (dst : Option Nat) (pair acq : Bool) (va : Nat) (ps : List Piece) (s : State) :
    Access :=
  { num := s.accNum, core := s.cur.core, seat := s.cur.seat, strn := s.cur.strn, kind := kind, len := len, dst := dst
    pair := pair, acq := acq, va := BitVec.ofNat 64 va, dom := s.me.who.dom, vdev := s.me.vdev, pieces := ps }

/-- The state with one access more in flight and its destinations empty (R72, R315). -/
def inFlight (a : Access) (s : State) : State :=
  { s with accNum := s.accNum + 1, flight := s.flight ++ [a] }.modMe (fun x => match a.dst with
    | some d => if a.pair then (x.setFull d false).setFull (d + 1) false else x.setFull d false
    | none => x)

/-- The bytes that a store of 2^sz bytes takes from D, and from D + 1 for .b128 (R319). -/
def storeData (sz d : Nat) (s : State) : List Byte :=
  (leBytes (s.me.reg d).toNat 8 ++ leBytes (s.me.reg (d + 1)).toNat 8).take (2 ^ sz)

/-- The issuer's core is in no checked pair that holds (R363). -/
def Unpaired (s : State) : Prop := ∀ p, s.myCore.pair = some p → p.on = false

/-- A store or atomic of these pieces is not compared: it stays in its own core, or the core is in no pair (R363). -/
def NotCompared (ps : List Piece) (s : State) : Prop := (∀ p ∈ ps, p.home = .bank s.cur.core) ∨ Unpaired s
end Sys2Proof.Say

/-- R313 to R319, R321: a load or store whose address passes its checks leaves as one access, its destination empty; LDA and
STL demand natural alignment, and STL that the strand's earlier accesses have been acknowledged. LDA does not wait for them: the
model's choice among R315, R20 and R321 (log 107). -/
def Obligations.LoadsAndStoresLeave : Prop :=
  ∀ (h : Head) (sz d va : Nat) (sx : Bool) (a b : Src) (ps : List Piece) (s s1 s2 : State), Runs h s →
    s.ldaOpen s.cur = false → sz ≤ 4 → Addr a b s va s1 → s1.cur = s.cur → s2.cur = s.cur →
    (sz = 4 → d % 2 = 0) → d < 64 → s1.me.full d = true → (sz = 4 → s1.me.full (d + 1) = true) →
    (seatPieces va (2 ^ sz) .r false false false s1 = .ok ps s2 →
      exec (.ld h sz sx d a b) s =
        .next ((inFlight (accessOf (.load sx) (2 ^ sz) (some d) (sz == 4) false va ps s2) s2).advance h)) ∧
    (seatPieces va (2 ^ sz) .r false false true s1 = .ok ps s2 →
      exec (.lda h sz sx d a b) s =
        .next ((inFlight (accessOf (.load sx) (2 ^ sz) (some d) (sz == 4) true va ps s2) s2).advance h)) ∧
    (NotCompared ps s2 → sz < 4 → seatPieces va (2 ^ sz) .w true false false s1 = .ok ps s2 →
      exec (.st h sz d a b) s = .next ((inFlight
        (accessOf (.store (storeData sz d s1)) (2 ^ sz) none false false va ps s2) s2).advance h)) ∧
    (NotCompared ps s2 → sz = 4 → seatPieces va 16 .w true false false s1 = .ok ps s2 →
      exec (.st h sz d a b) s = .next ((inFlight
        (accessOf (.store (storeData sz d s1)) 16 none true false va ps s2) s2).advance h)) ∧
    (NotCompared ps s2 → s1.quiet s1.cur = true → seatPieces va (2 ^ sz) .w true false true s1 = .ok ps s2 →
      exec (.stl h sz d a b) s = .next ((inFlight
        (accessOf (.store (storeData sz d s1)) (2 ^ sz) none (sz == 4) false va ps s2) s2).advance h))

/-- R323, R324: an atomic leaves as one access that reads and writes its location; with a destination it empties it. -/
def Sys2Proof.Say.atomicsLeave : Prop :=
  ∀ (h : Head) (ty : ITy) (fm : Fmt) (rnd : Rnd) (d : Option Nat) (n va p : Nat) (v : Int) (m : SrcMod) (fe : Bool)
    (a b : Src) (ps : List Piece) (s s1 s2 s3 : State), Runs h s →
    s1.ldaOpen s1.cur = false → s3.cur = s.cur → NotCompared ps s3 → readN64 2 a s1 = .ok va s2 →
    (∀ r, d = some r → r < 64 ∧ s2.me.full r = true) →
    let w := wOf ty
    let op := fun (k : AtomOp) (ty : ITy) (len : Nat) (x : Word) =>
      (inFlight (accessOf (.atomic k ty x) len d false false va ps s3) s3).advance h
    (ty = .i32 ∨ ty = .n32 ∨ ty = .i64 ∨ ty = .n64 → readInt ty 3 b s = .ok v s1 →
      seatPieces va (w / 8) .rw false true true s2 = .ok ps s3 →
      let x := BitVec.ofNat 64 (bitsOf ty v)
      exec (.aadd h ty d a b) s = .next (op .add ty (w / 8) x) ∧ exec (.amin h ty d a b) s = .next (op .min ty (w / 8) x) ∧
      exec (.amax h ty d a b) s = .next (op .max ty (w / 8) x) ∧ exec (.aand h ty d a b) s = .next (op .and ty (w / 8) x) ∧
      exec (.aor h ty d a b) s = .next (op .or ty (w / 8) x) ∧ exec (.axor h ty d a b) s = .next (op .xor ty (w / 8) x) ∧
      exec (.axchg h ty d a b) s = .next (op .xchg ty (w / 8) x) ∧
      exec (.aincw h ty d a b) s = .next (op .incw ty (w / 8) x)) ∧
    (ty = .i32 ∨ ty = .n32 ∨ ty = .i64 ∨ ty = .n64 → n % 2 = 0 → n + 1 < 64 → s.me.full n = true →
      s.me.full (n + 1) = true → s1 = s → seatPieces va (w / 8) .rw false true true s2 = .ok ps s3 →
      exec (.acas h ty d a (.scal n m fe)) s =
        .next (op (.cas (s.me.reg (n + 1))) ty (w / 8) (BitVec.ofNat 64 ((s.me.reg n).toNat % 2 ^ w)))) ∧
    (fm = .fp32 ∨ fm = .fp64 → readF fm 3 b s = .ok p s1 →
      seatPieces va (fmtWidth fm / 8) .rw false true true s2 = .ok ps s3 →
      exec (.afadd h ⟨fm, rnd⟩ d a b) s =
        .next (op (.fadd fm rnd) (if fm = .fp32 then .n32 else .n64) (fmtWidth fm / 8) (BitVec.ofNat 64 p)))

/-- R323: what an atomic stores: sum, minimum, maximum, bitwise results, exchange, compare-and-swap, and the wrapping
increment, on w-bit values read in its type; AFADD the rounded sum, without FTZ. -/
def Sys2Proof.Say.atomicNewValues : Prop :=
  ∀ (ty : ITy) (m b : Nat) (new : Word), ty = .i32 ∨ ty = .n32 ∨ ty = .i64 ∨ ty = .n64 → m < 2 ^ wOf ty → b < 2 ^ wOf ty →
    (atomNew .add ty m b : Int) = ((m : Int) + b) % (2 ^ wOf ty : Nat) ∧
    wrapTo ty (atomNew .min ty m b) = min (wrapTo ty m) (wrapTo ty b) ∧
    wrapTo ty (atomNew .max ty m b) = max (wrapTo ty m) (wrapTo ty b) ∧
    atomNew .and ty m b = m &&& b ∧ atomNew .or ty m b = m ||| b ∧ atomNew .xor ty m b = m ^^^ b ∧
    atomNew .xchg ty m b = b ∧
    atomNew (.cas new) ty m b = (if m = b then new.toNat % 2 ^ wOf ty else m) ∧
    (wrapTo ty b ≤ wrapTo ty m → atomNew .incw ty m b = 0) ∧
    (wrapTo ty m < wrapTo ty b → wrapTo ty (atomNew .incw ty m b) = wrapTo ty m + 1) ∧
    ∀ (f : Fmt) (r : Rnd), atomNew (.fadd f r) ty m b =
      (roundF f false r .sat (fAdd r (decodeF f false m) (decodeF f false b)).1).1

/-- R323, R324: atomics leave as one access, and what they store. -/
def Obligations.AtomicInstructions : Prop :=
  Say.atomicsLeave ∧ Say.atomicNewValues

namespace Sys2Proof.Say
/-- The strand's stores and atomics to its own core's memory have been performed (R326). -/
def CodeDone (s : State) : Prop :=
  ∀ x ∈ s.myFlight s.cur, (∃ sx, x.kind = .load sx) ∨ ∀ p ∈ x.pieces, p.sent = true → p.home ≠ .bank s.cur.core
end Sys2Proof.Say

/-- R322, R325, R326: PREF changes nothing but PC; a fence goes on when no access in flight that its scope and kind cover is
left, and waits otherwise; CODEF.loc and CODEF.dev empty the fetch buffers. -/
def Obligations.FencesAndPrefetch : Prop :=
  ∀ (h : Head) (n v q : Nat) (m : SrcMod) (fe : Bool) (a b : Src) (sc : Scope) (k : FenceKind) (s s1 s2 : State), Runs h s →
    (n < 64 → s.me.full n = true → exec (.pref h (.scal n m fe) b) s = .next (s.advance h)) ∧
    ((∀ x ∈ s.myFlight s.cur, (∀ p ∈ x.pieces, scopeHas s.cur.core sc p.home = false) ∨ (k = .acq ∧ x.returns = false)) →
      exec (.fence h sc k) s = .next (s.advance h)) ∧
    ((∃ x ∈ s.myFlight s.cur, (∃ p ∈ x.pieces, scopeHas s.cur.core sc p.home = true) ∧ (k ≠ .acq ∨ x.returns = true)) →
      exec (.fence h sc k) s = .next s) ∧
    (CodeDone s → exec (.codefLoc h) s = .next ((s.modMe (fun x =>
      { x with main := { x.main with fbuf := [] }, mat := { x.mat with fbuf := [] }
               cpy := { x.cpy with fbuf := [] } })).advance h)) ∧
    (readN64 2 a s = .ok v s1 → readN64 3 b s1 = .ok q s2 → q < (s2.quota s2.me.vdev).nqueue ∨ q = 64 →
      tlMet (if q = 64 then (s2.vd s2.me.vdev).xtl else (s2.queue s2.me.vdev q).qtl) (v % 2 ^ 56) = true →
      CodeDone s2 → exec (.codefDev h a b) s = .next ((s2.modMe (fun x =>
        { x with main := { x.main with fbuf := [] }, mat := { x.mat with fbuf := [] }
                 cpy := { x.cpy with fbuf := [] } })).advance h))

namespace Sys2Proof.Say
/-- Runs of bits that do not meet. -/
def RunsApart (rs : List Run) : Prop := rs.Pairwise (fun r q => r.at_ + r.len ≤ q.at_ ∨ q.at_ + q.len ≤ r.at_)

/-- The memory that holds a home. -/
def memKind (h : Home) : Nat := match h with | .bank _ => 0 | .slice _ => 1 | .host => 2 | .fabric _ => 3

/-- Bits of memories that do not meet. -/
def FragsApart (fs : List Frag) : Prop :=
  fs.Pairwise (fun f g => memKind f.home ≠ memKind g.home ∨ f.abs + f.len ≤ g.abs ∨ g.abs + g.len ≤ f.abs)

/-- R320: the runs of a view that a row group of a tile LD or ST moves hold every valid element of its rows, and lie each in one
line ℓ of the view; the run at a byte of the view stands in memory as far beyond the address, so line ℓ at address + ℓ · PITCH. -/
def tileMemPlaces : Prop :=
  ∀ (v : View) (va g i j : Nat), v.ok = true →
    (8 * g ≤ i → i < 8 * g + 8 → v.valid i j = true →
      (v.layout < 2 → ∃ r ∈ v.memRuns g, r.at_ ≤ v.bitPos i j ∧ v.bitPos i j + fmtWidth v.fm ≤ r.at_ + r.len) ∧
      (v.layout = 2 → ∀ b, b < fmtWidth v.fm → let p := 8 * (v.base + v.pitch * i + v.hdr + 16 * b) + j
        ∃ r ∈ v.memRuns g, r.at_ ≤ p ∧ p + 1 ≤ r.at_ + r.len)) ∧
    ∀ r ∈ v.memRuns g, (∃ l, l < v.nlines ∧ 8 * (v.base + v.pitch * l) ≤ r.at_ ∧
        r.at_ + r.len ≤ 8 * (v.base + v.pitch * l + v.lineLen)) ∧
      memSpot v va r = .mem ((va + (r.at_ / 8 - v.base)) % 2 ^ 64) (r.at_ % 8) r.len

/-- R44, R45, R68, R320: a row group of a tile LD moves the bits of those runs from their places in memory, zeroes what the view
pads them with, and changes no other byte of any memory; one of a tile ST moves them to their places, and changes no byte
outside them. Groups go one after another. -/
def tileMemMoves : Prop :=
  ∀ (load : Bool) (d va g : Nat) (gs : List Nat) (v : View) (ls : List Loc) (s s0 s1 t u : State), v.ok = true →
    s.lmem.wf = true → s.dram.wf = true → s.host.wf = true → s.fabric.wf = true →
    let c := s.cur.core
    let rs := v.memRuns g
    let zs := v.zeroRuns g
    (atGroup d g load s = .ok () s0 →
      mapL rs (fun r => (memSpot v va r).place c s0.me.who (if load then .r else .w) (!load)) s0 = .ok ls s1 →
      tileMemGroup load d v va g none s = .ok none t →
      (load = true → RunsApart (rs ++ zs) →
        (∀ e ∈ List.zip rs ls, t.bits c e.1 = Loc.read s1 e.2 % 2 ^ e.1.len) ∧ (∀ r ∈ zs, t.bits c r = 0) ∧
        (∀ a, (∀ r ∈ rs ++ zs, a < lkey c r.off ∨ lkey c r.off + r.bytes ≤ a) → memRead t.lmem a = memRead s.lmem a) ∧
        t.acc = s.acc ∧ t.dram = s.dram ∧ t.host = s.host ∧ t.fabric = s.fabric) ∧
      (load = false → FragsApart ls.flatten →
        (∀ e ∈ List.zip rs ls, Loc.read t e.2 = s.bits c e.1 % 2 ^ (e.2.map (fun f => f.len)).sum) ∧ t.acc = s.acc ∧
        ∀ h a, (∀ f ∈ ls.flatten, memKind f.home ≠ memKind h ∨ a < f.abs / 8 ∨ (f.abs + f.len + 7) / 8 ≤ a) →
          memRead (t.homeMem h) a = memRead (s1.homeMem h) a)) ∧
    (tileMemGroup load d v va g none s = .ok none t → tileMemGroups load d v va gs none t = .ok () u →
      tileMemGroups load d v va (g :: gs) none s = .ok () u)
end Sys2Proof.Say

/-- R320: a tile LD or ST whose row groups all pass runs them in order, from PROG where an ERET resumes and from 0
otherwise, and leaves PROG 0. -/
def Sys2Proof.Say.tileLoadStoreComplete : Prop :=
  ∀ (h : Head) (d va : Nat) (a b : Src) (v : View) (s s1 s2 : State), Runs h s → s.ldaOpen s.cur = false →
    s.myCore.tile = none → d < 64 → s.me.view d = v → v.defd = true → v.fe = true → Addr a b s va s1 → s1.me = s.me →
    s1.cur = s.cur → va % 16 = 0 → (v.layout = 2 → v.vrows = v.rows ∧ v.vcols = v.cols) → BankQuiet s1 →
    s1.reach = none → s1.myCore.tile = none →
    let g0 := if s.me.resume then v.prog else 0
    let gs := List.range' g0 (v.groups - g0)
    (tileMemGroups true d v va gs none s1 = .ok () s2 →
      exec (.ldTile h d a b) s = .next ((s2.modMe (fun x => x.setProg d 0)).advance h)) ∧
    (Unpaired s1 → tileMemGroups false d v va gs none s1 = .ok () s2 →
      exec (.stTile h d a b) s = .next ((s2.modMe (fun x => x.setProg d 0)).advance h))

/-- R320: tile LD and ST, and the bytes that their row groups move. -/
def Obligations.TileLoadStoreRunsGroups : Prop :=
  Say.tileMemPlaces ∧ Say.tileMemMoves ∧ Say.tileLoadStoreComplete

namespace Sys2Proof.Say
/-- The turn of a piece of an access has come, nothing holds it, and its home lets it be performed (R91, R94, R97, R165, R171,
R317, R402). -/
def PieceReady (s : State) (a : Access) (i : Nat) (q : Piece) (right : Right) (isSt : Bool) : Prop :=
  s.access a.num = some a ∧ a.pieces[i]? = some q ∧ a.ghost = false ∧ a.twin = none ∧ q.st = .sent ∧
    s.pieceBehind a i q = false ∧ s.pieceHeld a q = false ∧ s.pulling q.vdev q.home q.addr = none ∧
    s.linkOpen q.vdev q.home = true ∧ (q.dom = 0 ∨ s.slotHeld q.vdev q.home q.addr q.len = false) ∧
    (∀ n, q.home = .bank n → n = a.core ∨ s.mapped n = true ∧
      localOkAt s n q.addr q.len { vdev := q.vdev, dom := q.dom, win := none } right isSt q.win = true) ∧
    (if isSt then s.homePartBad q.home q.addr q.len = false else s.homeBad q.home q.addr q.len = false)

/-- The step of the home that performs a piece: a core's bank unit, or a channel slice, the host port or a fabric home. -/
def homeStep (n i : Nat) (q : Piece) : Instr :=
  match q.home with | .bank _ => .remoteAccess n i | _ => .deviceHomeAccess n i

/-- An access after piece i has been performed. -/
def pieceDone (a : Access) (i : Nat) (q : Piece) (bs : List Byte) : Access :=
  { a with pieces := a.pieces.set i { q with st := .done bs } }
end Sys2Proof.Say

/-- R92, R106, R111, R317: a home performs a piece: a load reads its bytes, a store writes them, an atomic does both. -/
def Sys2Proof.Say.homesPerformPieces : Prop :=
  ∀ (s : State) (a : Access) (i : Nat) (q : Piece),
    (∀ sx, a.kind = .load sx → PieceReady s a i q .r false →
      exec (homeStep a.num i q) s = .next (s.setAccess (pieceDone a i q (s.homeRead q.home q.addr q.len)))) ∧
    (∀ bs, a.kind = .store bs → PieceReady s a i q .w true → s.snooped q.home q.addr q.len = false →
      exec (homeStep a.num i q) s = .next ((s.homeWrite q.home q.addr ((bs.drop (q.va - a.va.toNat)).take q.len)).setAccess
        (pieceDone a i q []))) ∧
    (∀ op ty b, a.kind = .atomic op ty b → PieceReady s a i q .rw false → s.snooped q.home q.addr q.len = false →
      let old := s.homeRead q.home q.addr q.len
      exec (homeStep a.num i q) s = .next ((s.homeWrite q.home q.addr
        (leBytes (atomNew op ty (leNat old) (b.toNat % 2 ^ (8 * q.len))) q.len)).setAccess (pieceDone a i q old)))

namespace Sys2Proof.Say
/-- The strand of an access is not asleep at another unit (R315). -/
abbrev Awake (a : Access) (s : State) : Prop := s.asleep { core := a.core, seat := a.seat, strn := a.strn } = false
end Sys2Proof.Say

/-- R72, R315, R319, R324: the reply of a decided access without failure fills its destination with the value read; a store is
acknowledged; a failed access is reported to its strand, unless that sleeps, and writes no register. -/
def Sys2Proof.Say.repliesAndReports : Prop :=
  ∀ (s : State) (n d : Nat) (a : Access) (t : Trap), s.access n = some a → (∀ p ∈ a.pieces, p.st ≠ .sent) →
    (a.failed = none → a.returns = true → a.dst = some d → a.pair = false →
      (∀ sx, a.kind = .load sx → exec (.accessReply n) s = .next (((s.dropAccess n).modSeat a.core a.seat (fun x =>
        (x.setReg d (BitVec.ofInt 64 (readBits sx (8 * a.len) (leNat a.bytes)))).setFull d true)).settleTrap
          a.core a.seat)) ∧
      (∀ op ty b, a.kind = .atomic op ty b → exec (.accessReply n) s = .next (((s.dropAccess n).modSeat a.core a.seat
        (fun x => (x.setReg d (BitVec.ofInt 64 (wrapTo ty (leNat a.bytes)))).setFull d true)).settleTrap a.core a.seat))) ∧
    (a.failed = none → a.dst = some d → a.pair = true → (∃ sx, a.kind = .load sx) →
      exec (.accessReply n) s = .next (((s.dropAccess n).modSeat a.core a.seat (fun x =>
        ((((x.setReg d (BitVec.ofNat 64 (leNat a.bytes % 2 ^ 64))).setFull d true).setReg (d + 1)
          (BitVec.ofNat 64 (leNat a.bytes / 2 ^ 64))).setFull (d + 1) true))).settleTrap a.core a.seat)) ∧
    (a.failed = none → a.returns = false → exec (.storeAcknowledgement n) s = .next (s.dropAccess n)) ∧
    (s.asleep { core := a.core, seat := a.seat, strn := a.strn } = true → exec (.homeFailureReport n) s = .next s) ∧
    (a.failed = some t → Awake a s → a.seat < 4 → a.dst = none → exec (.homeFailureReport n) s =
      .next (((s.dropAccess n).modSeat a.core a.seat (fun x => { x with reports := x.reports ++ [(a.strn, t)] })).settleTrap
        a.core a.seat)) ∧
    (a.failed = some t → Awake a s → a.seat < 4 → a.dst = some d → a.pair = false → exec (.homeFailureReport n) s =
      .next (((s.dropAccess n).modSeat a.core a.seat (fun x =>
        { x.setFull d true with reports := x.reports ++ [(a.strn, t)] })).settleTrap a.core a.seat)) ∧
    (a.failed = some t → Awake a s → a.seat < 4 → a.dst = some d → a.pair = true → exec (.homeFailureReport n) s =
      .next (((s.dropAccess n).modSeat a.core a.seat (fun x =>
        { (x.setFull d true).setFull (d + 1) true with reports := x.reports ++ [(a.strn, t)] })).settleTrap a.core a.seat))

namespace Sys2Proof.Say
/-- The trap that a failed walk gives to a strand that waits for it: EVAL names the address as the strand did (R113). -/
def walkTrap (t : Trap) (v : Walk) : Trap :=
  { t with val := BitVec.ofNat 64 (if t.cause = .pagefault then v.at_ % 2 ^ 57 + t.val.toNat / 2 ^ 60 * 2 ^ 60 else v.at_) }
end Sys2Proof.Say

/-- R113 to R115: a walk that ends ends for every miss of its die that has joined it: one that finds a translation fills the
caches, one that fails traps the strands that wait; a miss beyond the die's 64 walks waits. A walk that meets a page still to
be pulled asks for its pull and is held (R398). The atomic on a LOG bit that
finds it 0 lets the write go on; one that finds it 1 appends the page to the dirty log, and the walk is repeated; where the
ring is full it waits. On a poisoned line it is not performed (R108). -/
def Sys2Proof.Say.walksAndDirtyLog : Prop :=
  ∀ (s s1 : State) (n : Nat) (w : Walk) (r : Region) (e : TlbEntry) (t : Trap) (q : LogReq),
    (s.walks[n]? = some w → regionOf w.va = some r → s.walking w = true →
      let rest := { s with walks := s.walks.filter (fun v => !w.joins v) }
      (∀ p, s.walkPull w.vdev w.dom w.va = some p → exec (.translationWalk n) s = .next (s.startPull p w.va (.walk w))) ∧
      (s.walkPull w.vdev w.dom w.va = none → walk s w.vdev w.dom w.va r = .ok e →
        exec (.translationWalk n) s = .next ((s.walks.filter w.joins).foldl (fun u v =>
          if e ∈ (u.core v.core).tlb then u else u.tlbFill v.core e) rest)) ∧
      (s.walkPull w.vdev w.dom w.va = none → walk s w.vdev w.dom w.va r = .error t →
        exec (.translationWalk n) s = .next ((s.walks.filter w.joins).foldl (fun u v =>
          let a : Agent := { core := v.core, seat := v.seat, strn := v.strn }
          if u.canFault a then u.takeTrap a (walkTrap t v) false else u)
          { s with walks := s.walks.filter (fun v => !(s.walks.filter w.joins).contains v) }))) ∧
    (s.walks[n]? = some w → s.walking w = false → exec (.translationWalk n) s = .next s) ∧
    (s.logs[n]? = some q → q.done = false →
      (s.devPoisoned q.entry.vdev q.entry.leaf 8 = true →
        exec (.dirtyLogAtomic n) s = .next { s with logs := s.logs.erase q }) ∧
      (s.devPoisoned q.entry.vdev q.entry.leaf 8 = false →
        (s.logAtomic q.entry = none → exec (.dirtyLogAtomic n) s = .next s) ∧
        (s.logAtomic q.entry = some (true, s1) → exec (.dirtyLogAtomic n) s = .next { s1 with logs := s1.logs.erase q }) ∧
        (s.logAtomic q.entry = some (false, s1) → exec (.dirtyLogAtomic n) s =
          .next { s1 with logs := s1.logs.map (fun x => if x = q then { x with done := true } else x) })))

/-- R92, R106, R111, R113 to R115, R315 to R324: what homes do with pieces, what replies and reports do, what walks and the dirty log do. -/
def Obligations.HomesRepliesAndWalks : Prop :=
  Say.homesPerformPieces ∧ Say.repliesAndReports ∧ Say.walksAndDirtyLog

/-! ## Sync slots, tasks, messages -/

namespace Sys2Proof.Say
/-- The issuer of a slot instruction; `hnd` says that its seat's handler issued it. -/
def slotAgent (s : State) : Agent := { s.cur with hnd := s.me.hnd && s.cur.strn == .main }

/-- The state in which the slot instruction of the issuer stands at slot y of its own core. -/
def standsAt (h : Head) (y : Nat) (s : State) : State :=
  (s.hints h).setBlk (slotAgent s) (.slot s.cur.core y)

/-- A slot instruction that names no core, or its own, is performed at its own core's sync unit, after the strand's earlier
accesses to that core (R317), and raises SYNCSTATE where the slot's state refuses it; one that names another core leaves for
it (R327). -/
def SlotInstr (i : Option Src → Instr) (h : Head) (y : Nat) (arrival : Bool) (op : SlotOp) (s s1 : State) : Prop :=
  Runs h s → s1.cur = s.cur →
  let may := fun (s1 : State) => if arrival then s1.quiet s1.cur = true else s1.ldaOpen s1.cur = false
  let own := fun (b : Option Src) (s1 : State) => may s1 → s1.bankDone = true →
    (∀ t, (standsAt h y s1).slotDo (slotAgent s1) s.cur.core y op = .ok t → exec (i b) s = .next t) ∧
    (∀ e, (standsAt h y s1).slotDo (slotAgent s1) s.cur.core y op = .error e →
      exec (i b) s = .next (s.takeTrap s.cur { cause := .syncstate, val := BitVec.ofNat 64 e } false))
  own none s1 ∧
  ∀ (b : Src) (c : Nat) (s2 : State), readN64 3 b s1 = .ok c s2 → s2.cur = s.cur → s2.mapped c = true →
    s2.holdsCore s2.me.vdev c = true →
    (c = s.cur.core → own (some b) s2) ∧
    (c ≠ s.cur.core → may s2 → exec (i (some b)) s = .next { (s2.hints h).setBlk (slotAgent s2) (.sent s2.accNum) with
      accNum := s2.accNum + 1
      slotReqs := s2.slotReqs ++ [{ num := s2.accNum, core := s2.cur.core, seat := s2.cur.seat, strn := s2.cur.strn
                                    hnd := (slotAgent s2).hnd, dest := c, y := y, op := op }] })
end Sys2Proof.Say

/-- R317, R327: every slot instruction reaches the slot it names, at its own core or another. -/
def Sys2Proof.Say.slotInstructionsReachTheirUnit : Prop :=
  ∀ (h : Head) (y d n v : Nat) (a : Src) (s s1 : State),
    (readN64 2 a s = .ok n s1 → 1 ≤ n → n ≤ 65535 →
      SlotInstr (fun b => .phreg h y a b) h y false (.phreg n) s s1 ∧
      SlotInstr (fun b => .phdrop h y a b) h y false (.phdrop n) s s1) ∧
    SlotInstr (fun b => .phsig h y b) h y true .phsig s s ∧
    SlotInstr (fun b => .phnext h y b) h y true .phnext s s ∧
    (readN64 2 a s = .ok v s1 →
      SlotInstr (fun b => .phwait h false y (some a) b) h y false (.phwait (BitVec.ofNat 64 v)) s s1 ∧
      SlotInstr (fun b => .tqpost h y a b) h y true (.tqpost (BitVec.ofNat 64 v)) s s1 ∧
      SlotInstr (fun b => .tqrel h y a b) h y true (.tqrel (BitVec.ofNat 64 v)) s s1) ∧
    SlotInstr (fun b => .phwait h true y none b) h y false .phwaitMem s s ∧
    SlotInstr (fun b => .phwait h false y none b) h y false .phwaitJoin s s ∧
    (Dest d s →
      SlotInstr (fun b => .tqacq h y d b) h y false (.tqacq d) s s ∧
      SlotInstr (fun b => .tqtake h y d b) h y false (.tqtake d) s s) ∧
    SlotInstr (fun b => .join h y b) h y false .join s s ∧
    SlotInstr (fun b => .leave h y b) h y false .leave s s ∧
    (s.me.hnd = false → SlotInstr (fun b => .tdone h y b) h y true .tdone s s)

/-- R129, R130, R191, R328 to R330: what the slot instructions do to a slot of the kind that they demand. -/
def Sys2Proof.Say.slotOperationEffects : Prop :=
  ∀ (s : State) (a : Agent) (c y n : Nat) (l : Slot), s.slot c y = some l →
    let done := fun (l : Slot) => (s.setSlot c y l).finish a none none
    let waits := fun (k : WaitKind) => s.setSlot c y { l with waiters := l.waiters ++ [⟨a.core, a.seat, a.strn, a.hnd, k⟩] }
    (l.kind = .ph →
      (l.nreg + n ≤ 65535 → s.slotDo a c y (.phreg n) = .ok ((done { l with nreg := l.nreg + n }).complete c y)) ∧
      (n ≤ l.anon - l.aa → s.slotDo a c y (.phdrop n) = .ok ((done { l with nreg := l.nreg - n }).complete c y)) ∧
      (l.phase ≠ n % 2 ^ 32 → n < 2 ^ 64 → s.slotDo a c y (.phwait (BitVec.ofNat 64 n)) = .ok (s.finish a none none)) ∧
      (l.phase = n % 2 ^ 32 → n < 2 ^ 64 → s.slotDo a c y (.phwait (BitVec.ofNat 64 n)) = .ok (waits (.phase l.phase))) ∧
      (l.member? a.core a.seat = none → l.aa < l.anon →
        s.slotDo a c y .phsig = .ok ((done { l with narr := l.narr + 1 }).complete c y)) ∧
      (l.member? a.core a.seat = none → 0 < l.anon → l.anon ≤ l.aa → s.slotDo a c y .phsig = .ok ((s.setSlot c y
        { l with held := l.held ++ [.thread a.core a.seat a.strn a.hnd false] }).complete c y)) ∧
      (∀ m, l.member? a.core a.seat = some m →
        (m.arr = false → s.slotDo a c y .phsig = .ok ((done { l with narr := l.narr + 1, members := l.members.map (fun x =>
          if x.core = a.core ∧ x.seat = a.seat then { x with arr := true } else x) }).complete c y)) ∧
        (m.arr = true → s.slotDo a c y .phsig = .ok ((s.setSlot c y
          { l with held := l.held ++ [.thread a.core a.seat a.strn a.hnd false] }).complete c y)) ∧
        s.slotDo a c y .phwaitMem = .ok (if m.arr then waits (.phase l.phase) else s.finish a none none)) ∧
      (l.member? a.core a.seat = none → l.aa < l.anon → s.slotDo a c y .phnext = .ok ((s.setSlot c y { l with
        narr := l.narr + 1, waiters := l.waiters ++ [⟨a.core, a.seat, a.strn, a.hnd, .phase l.phase⟩] }).complete c y)) ∧
      (l.member? a.core a.seat = none → (s.groupsOf a.core a.seat).length < 8 → l.members.length < 32 → l.nreg < 65535 →
        s.slotDo a c y .join = .ok ((done { l with
          nreg := l.nreg + 1, members := l.members ++ [⟨a.core, a.seat, false⟩] }).complete c y)) ∧
      (l.member? a.core a.seat ≠ none → s.slotDo a c y .leave = .ok ((s.finish a none none).leaveSlot c y a.core a.seat))) ∧
    (l.kind = .join →
      (l.jcount = 0 → s.slotDo a c y .phwaitJoin = .ok (s.finish a none none) ∧ s.slotDo a c y .tdone = .error y) ∧
      (l.jcount ≠ 0 → s.slotDo a c y .phwaitJoin = .ok (waits .join)) ∧
      (l.jcount = 1 → s.slotDo a c y .tdone = .ok ((l.waiters.filter (fun w => w.kind == .join)).foldl
        (fun u w => u.finish w.agent none none)
        (done { l with jcount := 0, waiters := l.waiters.filter (fun w => w.kind != .join) }))) ∧
      (2 ≤ l.jcount → s.slotDo a c y .tdone = .ok (done { l with jcount := l.jcount - 1 }))) ∧
    (l.kind = .tq → n < 2 ^ 64 →
      (l.places[n]? = some .resv → s.slotDo a c y (.tqpost (BitVec.ofNat 64 n)) = .ok ((done { l with
        places := l.places.set n .posted, postL := l.postL ++ [n] }).serveTq c y false)) ∧
      (l.places[n]? = some .taken → s.slotDo a c y (.tqrel (BitVec.ofNat 64 n)) = .ok ((done { l with
        places := l.places.set n .free, freeL := l.freeL ++ [n] }).serveTq c y true)) ∧
      (l.places[n]? ≠ some .resv → s.slotDo a c y (.tqpost (BitVec.ofNat 64 n)) = .error n) ∧
      s.slotDo a c y (.tqacq n) = .ok ((waits (.acq n)).serveTq c y true) ∧
      s.slotDo a c y (.tqtake n) = .ok ((waits (.take n)).serveTq c y false)) ∧
    (l.kind ≠ .ph → s.slotDo a c y .phsig = .error y ∧ s.slotDo a c y .join = .error y) ∧
    (l.kind ≠ .tq → s.slotDo a c y (.tqacq n) = .error y)

/-- R191: a phaser whose arrivals are complete, that holds no later arrival and into which no stream has arrived, advances
its phase, clears its arrivals and wakes the strands that waited for an old phase. -/
def Sys2Proof.Say.phaseCompletes : Prop :=
  ∀ (s : State) (c y : Nat) (l : Slot), s.slot c y = some l → l.kind = .ph → l.nreg ≠ 0 → l.narr = l.nreg → l.held = [] →
    (∀ e ∈ s.streams, e.2.arr = true → e.2.target ≠ (c, y)) →
    let ph := (l.phase + 1) % 2 ^ 32
    let old := fun (w : Waiter) => match w.kind with | .phase o => o != ph | _ => false
    s.complete c y = (l.waiters.filter old).foldl (fun u w => u.finish w.agent none none) (s.setSlot c y { l with
      phase := ph, narr := 0, members := l.members.map (fun m => { m with arr := false })
      waiters := l.waiters.filter (fun w => !old w) })

/-- R129, R130, R191, R328 to R330: what slot operations do at their unit. -/
def Obligations.SlotOperations : Prop :=
  Say.slotOperationEffects ∧ Say.phaseCompletes

/-- R129, R317, R321, R328: SYNEW makes an unused slot and writes 1 to its predicate, or 0 where the token store lacks room;
SYFREE frees an idle slot. A parameter out of its range raises OPERAND; SYNEW of a slot in use and SYFREE of a slot that is
free or busy raise SYNCSTATE. Both act after the strand's earlier accesses to the core, and not while an LDA is open. -/
def Obligations.SynewAndSyfree : Prop :=
  ∀ (h : Head) (pst d n : Nat) (k : SyKind) (a : Src) (l : Slot) (s s1 : State), Runs h s →
    let c := s.cur.core
    let sync := Host.Outcome.next (s.takeTrap s.cur { cause := .syncstate, val := BitVec.ofNat 64 d } false)
    (readN64 2 a s = .ok n s1 → s1.cur = s.cur → s1.ldaOpen s1.cur = false → s1.bankDone = true → s1.slot c d = none →
      let new : Slot := { kind := .ph, lid := s1.me.lid, vdev := s1.me.vdev }
      let made := fun (l : Slot) => Host.Outcome.next (((s1.setSlot c d l).modMe (fun x => x.setP pst true)).advance h)
      (n ≤ 65535 → exec (.synew h .ph pst d a) s = made { new with nreg := n }) ∧
      (n < 2 ^ 32 → exec (.synew h .join pst d a) s = made { new with kind := .join, jcount := n }) ∧
      (1 ≤ n → n ≤ 256 → s1.myCore.tokens + n ≤ 1024 → exec (.synew h .tq pst d a) s =
        made { new with kind := .tq, cap := n, places := List.replicate n .free, freeL := upto n }) ∧
      (1 ≤ n → n ≤ 256 → 1024 < s1.myCore.tokens + n →
        exec (.synew h .tq pst d a) s = .next ((s1.modMe (fun x => x.setP pst false)).advance h))) ∧
    (readN64 2 a s = .ok n s1 →
      (match k with | .ph => 65535 < n | .join => 2 ^ 32 ≤ n | .tq => n = 0 ∨ 256 < n) →
      exec (.synew h k pst d a) s =
        .next (s.takeTrap s.cur { cause := .operand, opnd := 2, val := BitVec.ofNat 64 n } false)) ∧
    (readN64 2 a s = .ok n s1 → s1.cur = s.cur → s1.ldaOpen s1.cur = false → s1.bankDone = true → s1.slot c d = some l →
      (match k with | .ph => n ≤ 65535 | .join => n < 2 ^ 32 | .tq => 1 ≤ n ∧ n ≤ 256) →
      exec (.synew h k pst d a) s = sync) ∧
    (s.ldaOpen s.cur = false → s.bankDone = true →
      (s.slot c d = none → exec (.syfree h d) s = sync) ∧
      (s.slot c d = some l →
        let idle := l.waiters = [] ∧ l.held = [] ∧ (l.kind = .ph → l.members = []) ∧
          (l.kind = .tq → ∀ p ∈ l.places, p = .free)
        (idle → exec (.syfree h d) s =
          .next (((s.modMyCore (fun x => { x with slots := mapDel d x.slots })).streamsErr c d).advance h)) ∧
        (¬idle → exec (.syfree h d) s = sync)))

/-- R16, R32, R151, R327, R331: SSTEP waits for its launch; the last arrival fixes the seats that wait and starts the
transfers of every core of the set; while transfers are left, a part of one that goes on runs; then the step number advances
and the seats that waited resume. A slot instruction that has arrived at its core is performed there. SSTEP of a thread without
a launch completes at once, the model's choice (log 53), and raises a poisoned transfer's trap on one thread of each core
(log 54). -/
def Sys2Proof.Say.superstepsAndRemoteSlots : Prop :=
  ∀ (h : Head) (s t : State) (l : Launch) (q : SlotReq) (e : Nat),
    (Runs h s → s.quiet s.cur = true → s.launch s.me.vdev s.me.lid = some l →
      exec (.sstep h) s = .next ((s.hints h).setBlk s.cur .sstep)) ∧
    (Runs h s → s.quiet s.cur = true → s.launch s.me.vdev s.me.lid = none → exec (.sstep h) s = .next (s.advance h)) ∧
    (s.launches.find? (fun m => m.lid == l.lid && m.started) = some l →
      (l.sst = none → s.allArrived l = false → exec (.superstepRelease l.lid) s = .next s) ∧
      (l.sst = none → s.allArrived l = true → exec (.superstepRelease l.lid) s = .next (s.setLaunch { l with
        sst := some (if l.rcd.xfertab = 0 then [] else (upto (l.rcd.setw * l.rcd.seth)).map (fun r =>
          { rank := r, entry := 0, group := 0, stop := none }))
        arrived := (s.seatsOf l).filter (fun e => (s.stepper l.vdev e.1 e.2).isSome) })) ∧
      (∀ xs, l.sst = some xs → (∃ x ∈ xs, s.xferGoes l x = true) → ∃ x ∈ xs, s.xferGoes l x = true ∧
        exec (.superstepRelease l.lid) s = .next (State.xferStep { s with fresh := s.fresh + 1 } l xs x)) ∧
      (l.sst = some [] → exec (.superstepRelease l.lid) s = .next (l.arrived.foldl
        (fun s e => match s.stepper l.vdev e.1 e.2 with | some a => s.finish a none none | none => s)
        (s.setLaunch { l with step := (l.step + 1) % 2 ^ 32, sst := none, arrived := [] })))) ∧
    (s.slotReqs.find? (fun r => r.num == q.num) = some q → s.mapped q.dest = true → s.packetBehind q.core q.dest q.num = false →
      (∀ x ∈ (s.vd (s.seat q.core q.seat).vdev).cores, x.1 ≠ q.dest) →
      let a : Agent := ⟨q.core, q.seat, q.strn, q.hnd⟩
      let u := ({ s with slotReqs := s.slotReqs.filter (fun r => r.num != q.num) } : State)
      ((u.atSlot a q.dest q.y).slotDo a q.dest q.y q.op = .ok t → exec (.remoteSyncArrival q.num) s = .next t) ∧
      ((u.atSlot a q.dest q.y).slotDo a q.dest q.y q.op = .error e →
        exec (.remoteSyncArrival q.num) s = .next (u.lateTrap a { cause := .syncstate, val := BitVec.ofNat 64 e })))

/-- R16, R32, R327, R331: slot instructions reach their unit, here or at another core; supersteps (the model's choices: log 53, 54). -/
def Obligations.SlotInstructionsAndSupersteps : Prop :=
  Say.slotInstructionsReachTheirUnit ∧ Say.superstepsAndRemoteSlots

namespace Sys2Proof.Say
/-- A task of the issuer's launch may be pushed: entry, launch, room (R210, R332). -/
def MayPush (a : Src) (e : Nat) (l : Launch) (s s1 : State) : Prop :=
  s.me.hnd = false ∧ s.me.depth = 0 ∧ readN64 2 a s = .ok e s1 ∧ s1.launch s1.me.vdev s1.me.lid = some l ∧ e < 65536 ∧
    e < l.rcd.segbound ∧ s1.quiet s1.cur = true

/-- Room in the deque (R122, R210). -/
def DequeRoom (s : State) : Prop := s.myCore.dqCount < 64 ∧ s.myCore.retSlot = none
end Sys2Proof.Say

/-- R121, R122, R332: FORK and RFORK push their record at the head; an empty range is pushed nowhere; a full deque raises
DEQUEFULL. -/
def Sys2Proof.Say.forksPushRecords : Prop :=
  ∀ (h : Head) (n e : Nat) (m : SrcMod) (fe : Bool) (a : Src) (l : Launch) (s s1 : State), Runs h s → MayPush a e l s s1 →
    let w := fun i => (s1.me.reg (n + i)).toNat
    (n + 3 ≤ 64 → (∀ i, i < 3 → s1.me.full (n + i) = true) →
      (DequeRoom s1 → exec (.fork h a (.scal n m fe)) s = .next ((s1.modMyCore (fun x => x.dqPush
        (Task.word ⟨l.lid, e, 1, w 0, w 1, w 2 % 2 ^ 32, w 2 / 2 ^ 32⟩))).advance h)) ∧
      (64 ≤ s1.myCore.dqCount → exec (.fork h a (.scal n m fe)) s = .next (s.takeTrap s.cur
        { cause := .dequefull, val := BitVec.ofNat 64 (s1.myCore.dqt * 256 + s1.myCore.dqh) } false))) ∧
    (n + 4 ≤ 64 → (∀ i, i < 4 → s1.me.full (n + i) = true) → w 2 ≠ 0 → w 2 < 2 ^ 32 →
      (w 0 < w 1 → DequeRoom s1 → exec (.rfork h a (.scal n m fe)) s = .next ((s1.modMyCore (fun x => x.dqPush
        (Task.word ⟨l.lid, e, 2, w 0, w 1, w 2, w 3 % 2 ^ 32⟩))).advance h)) ∧
      (w 1 ≤ w 0 → exec (.rfork h a (.scal n m fe)) s = .next (s1.advance h)))

/-- R28, R29: the parts that a take at the head and a steal at the tail cut from a range join to the range, the taken part
is one grain or starts at a multiple of grains, and neither is empty. -/
def Sys2Proof.Say.rangeSplitsCover : Prop :=
  ∀ (x : Core) (t : Task), t.kind = 2 → t.good = true → t.a1 < 2 ^ 64 → t.g < 2 ^ 32 → t.lid < 2 ^ 32 → t.entry < 2 ^ 16 →
    t.arg < 2 ^ 32 →
    (x.dqSlot (x.dqh + 127) = t.word →
      (x.takeHead).1 = { t with a1 := min (t.a0 + t.g) t.a1 } ∧
      (t.a0 + t.g < t.a1 → Task.ofWord ((x.takeHead).2.dqSlot (x.dqh + 127)) = { t with a0 := t.a0 + t.g } ∧
        (x.takeHead).2.dqh = x.dqh) ∧
      (t.a1 ≤ t.a0 + t.g → (x.takeHead).2 = x.dqPop)) ∧
    (x.dqSlot x.dqt = t.word → 2 * t.g ≤ t.a1 - t.a0 → ∃ mid,
      mid = t.a0 + (t.a1 - t.a0) / 2 / t.g * t.g ∧ (x.steal).1 = { t with a0 := mid } ∧ Task.ofWord ((x.steal).2.dqSlot x.dqt) = { t with a1 := mid } ∧
      t.a0 < mid ∧ mid < t.a1 ∧ t.g ∣ (mid - t.a0)) ∧
    (x.dqSlot x.dqt = t.word → t.a1 - t.a0 < 2 * t.g → (x.steal).1 = t ∧ (x.steal).2 = { x with dqt := (x.dqt + 1) % 128 })

/-- R28, R29, R121, R122, R332: FORK, RFORK and the splits of ranges. -/
def Obligations.ForksAndSplits : Prop :=
  Say.forksPushRecords ∧ Say.rangeSplitsCover

namespace Sys2Proof.Say
/-- R28: the order of a search: the head of the core's own deque; then, where it has room, the tails of the neighbours, east,
south, west and north one hop away, then two; then the overflow list. A plain record of a neighbour is taken whole, a part of a
range is placed at the taker's head and its first grain taken from there. -/
def searchOrder : Prop :=
  ∀ (c n x y : Nat) (ns : List Nat) (l : Launch) (r : Option Found) (f : Found) (s s1 s2 : State),
    (let own := (s.core c).cleanHead 64
     let s0 := s.modCore c (Core.cleanHead 64)
     let mine := own.dqCount ≠ 0 ∧ own.headTask.lid = l.lid
     (mine → search c l s = .ok (some (own.takeHead.1, c)) (s0.setCore c own.takeHead.2)) ∧
     (¬mine → own.dqRoom = false → search c l s = .ok none s0) ∧
     (¬mine → own.dqRoom = true →
       (stealFrom c l (neighbours c) s0 = .ok (some f) s1 → search c l s = .ok (some f) s1) ∧
       (stealFrom c l (neighbours c) s0 = .ok none s1 → overflowTake c l s1 = .ok r s2 → search c l s = .ok r s2))) ∧
    (2 ≤ x → x + 2 < 128 → 2 ≤ y → y + 2 < 126 → let m := 128 * y + x
      neighbours m = [m + 1, m + 128, m - 1, m - 128, m + 2, m + 256, m - 2, m - 256]) ∧
    (let z := (s.core n).cleanTail 64
     let s0 := s.modCore n (Core.cleanTail 64)
     let theirs := z.dqCount ≠ 0 ∧ z.tailTask.lid = l.lid
     let open_ := s.holdsCore l.vdev n = true ∧ (s.core n).refuses = false
     (¬open_ → stealFrom c l (n :: ns) s = stealFrom c l ns s) ∧
     (open_ → ¬theirs → stealFrom c l (n :: ns) s = stealFrom c l ns s0) ∧
     (open_ → theirs → z.steal.1.kind = 1 →
       stealFrom c l (n :: ns) s = .ok (some (z.steal.1, n)) (s0.setCore n z.steal.2)) ∧
     (open_ → theirs → z.steal.1.kind ≠ 1 → n ≠ c → let p := ((s.core c).dqPush z.steal.1.word).takeHead
       stealFrom c l (n :: ns) s = .ok (some (p.1, n)) ((s0.setCore n z.steal.2).setCore c p.2)))
end Sys2Proof.Say

/-- R21, R28, R333: TASK and the search of an idle seat start the thread of the record that the search takes; where it takes
none, TASK writes 0 to its predicate and the thread goes on. The event form takes the oldest event of the ring. -/
def Sys2Proof.Say.tasksBecomeThreads : Prop :=
  ∀ (h : Head) (d pst c k : Nat) (l : Launch) (f : Found) (bs : List Byte) (s s1 s2 : State),
    (Runs h s → s.me.hnd = false → s.me.depth = 0 → s.me.gang = false → s.me.lead = false →
      s.launch s.me.vdev s.me.lid = some l →
      (search s.cur.core l s = .ok none s1 →
        exec (.task h d) s = .next ((s1.modMe (fun x => x.setP d false)).advance h)) ∧
      (search s.cur.core l s = .ok (some f) s1 → meet false s1 = .ok () s2 → s2.cur = s.cur →
        exec (.task h d) s = .next
          (let t := (s2.hints h).endThread s.cur.core s.cur.seat
           t.startThread s.cur.core s.cur.seat (t.taskStart s.cur.core s.cur.seat l f)))) ∧
    (Runs h s → s.me.hnd = false → s.me.depth = 0 → s.me.gang = false → s.me.lead = false →
      s.launch s.me.vdev s.me.lid = none → exec (.task h d) s = .next ((s.modMe (fun x => x.setP d false)).advance h)) ∧
    (Runs h s → s.me.hnd = false → s.me.who.dom = 0 → d ≤ 60 →
      let v := s.vd s.me.vdev
      let q := s.quota s.me.vdev
      (v.evput ≤ v.evget → exec (.taskEv h pst d) s = .next ((s.modMe (fun x => x.setP pst false)).advance h)) ∧
      (v.evget < v.evput →
        seatRead (root s.me.vdev) (q.evbase + 32 * (v.evget % q.evcap)) 32 s = .ok bs s1 →
        writeScals d ((upto 4).map (fun i => BitVec.ofNat 64 (numAt bs (8 * i) 8))) s1 = .ok () s2 →
        exec (.taskEv h pst d) s = .next ((((s2.modVd s.me.vdev (fun v => { v with evget := v.evget + 1 })).flushEvents 257
          s.me.vdev).modMe (fun x => x.setP pst true)).advance h))) ∧
    (k < 4 → (s.seat c k).occ = .idle → (s.core c).halted = false → (s.core c).pre = none →
      (s.core c).retiring = false → s.inTurn (s.seat c k).vdev = true → s.launch (s.seat c k).vdev (s.seat c k).lid = some l →
      search c l { s with cur := { core := c, seat := k } } = .ok (some f) s1 →
      exec (.idleSeatSearch c k) s = .next ({ s1 with cur := s.cur }.startThread c k (s1.taskStart c k l f))) ∧
    (∀ w, (s.core c).retSlot = some w → (s.core c).dqCount < 64 →
      exec (.returnSlotEntry c) s = .next (s.setCore c { (s.core c).dqPush w with retSlot := none }))

/-- R21, R28, R333: the search for work, and what TASK and an idle seat do with it. -/
def Obligations.TasksBecomeThreads : Prop :=
  Say.searchOrder ∧ Say.tasksBecomeThreads

/-- R22, R335, R336: EFORK starts a free engine strand at its entry and writes 1, or writes 0 where it is busy or another
seat holds the matrix unit, the last by the model's choice (log 91); RDV goes on once both engine strands have ended and no operation of the thread is left. -/
def Obligations.EngineStrandsForkAndMeet : Prop :=
  ∀ (h : Head) (pst e : Nat) (a : Src) (s s1 : State), Runs h s → s.me.hnd = false →
    (readN64 2 a s = .ok e s1 → e < s1.me.segb →
      let t : Strand := { live := true, pc := ⟨s1.me.main.pc.seg, e⟩ }
      (s1.me.cpy.live = true → exec (.efork h true pst a) s = .next ((s1.modMe (fun x => x.setP pst false)).advance h)) ∧
      (s1.me.mat.live = true → exec (.efork h false pst a) s = .next ((s1.modMe (fun x => x.setP pst false)).advance h)) ∧
      (∀ k, s1.myCore.mat.holder = some k → k ≠ s1.cur.seat →
        exec (.efork h false pst a) s = .next ((s1.modMe (fun x => x.setP pst false)).advance h)) ∧
      (s1.me.cpy.live = false → s1.quiet s1.cur = true →
        exec (.efork h true pst a) s =
          .next (((s1.modMe (fun x => { x with cpy := t })).modMe (fun x => x.setP pst true)).advance h)) ∧
      (s1.me.mat.live = false → s1.myCore.mat.holder = some s1.cur.seat → s1.quiet s1.cur = true →
        exec (.efork h false pst a) s =
          .next (((s1.modMe (fun x => { x with mat := t })).modMe (fun x => x.setP pst true)).advance h)) ∧
      (s1.me.mat.live = false → s1.myCore.mat.holder = none → s1.quiet s1.cur = true →
        exec (.efork h false pst a) s = .next ((((s1.modMyCore (fun x =>
          ({ x with mat := { x.mat with holder := some s1.cur.seat, eng := {} } }).setTl 4 {})).modMe
            (fun x => { x with mat := t })).modMe (fun x => x.setP pst true)).advance h))) ∧
    (s.stopOf [0, 1, 2, 3, 4] = none → s.me.mat.live = false → s.me.cpy.live = false →
      (∀ c ∈ s.myCore.ctxs.toList, ∀ o ∈ c.ops, o.seat ≠ s.cur.seat) →
      (∀ o ∈ s.myCore.mat.ops, o.seat ≠ s.cur.seat) → s.quiet s.cur = true →
      exec (.rdv h) s = .next (s.advance h))

/-- R126 to R128, R338, R339: SEND puts one message in flight; its arrival stores it in the inbox, discards it where its
launch is gone, or refuses it where the inbox is full, and a retry sends a refused one again; RECV takes the oldest entry
for its thread. -/
def Sys2Proof.Say.messagesTravel : Prop :=
  ∀ (h : Head) (len n m d num : Nat) (xl : Bool) (q r : SrcMod) (fa fb : Bool) (f : Flying) (g : Msg) (s : State),
    (Runs h s → s.me.hnd = false → 1 ≤ len → len ≤ 64 → n < 64 → n % 2 = 0 → s.me.full n = true →
      (xl = true → s.me.full (n + 1) = true) → m + (len + 7) / 8 ≤ 64 → (∀ i, i < (len + 7) / 8 → s.me.full (m + i) = true) → (s.me.reg n).toNat < 2 ^ 48 →
      let w := (s.me.reg n).toNat
      let dest := w % 2 ^ 14
      s.ldaOpen s.cur = false → s.mapped dest = true → s.holdsCore s.me.vdev dest = true → s.outgoing s.cur.core < 8 →
      ∃ data : List Byte, data.length = 64 ∧
        (∀ i, i < len → data[i]? = some (((s.me.reg (m + i / 8)).extractLsb' (8 * (i % 8)) 8))) ∧
        exec (.send h len xl (.scal n q fa) (.scal m r fb)) s = .next (({ s with
          accNum := s.accNum + 1
          msgs := s.msgs ++ [{ num := s.accNum, src := s.cur.core, seat := s.cur.seat, dest := dest, vdev := s.me.vdev
                               ref := false
                               msg := { lid := if xl then (s.me.reg (n + 1)).toNat % 2 ^ 32 else s.me.lid
                                        src := s.cur.seat * 2 ^ 14 + s.cur.core, dseat := w / 2 ^ 14 % 4, len := len
                                        tag := BitVec.ofNat 32 (w / 2 ^ 16 % 2 ^ 32), data := data } }] } : State).advance
          h)) ∧
    (s.msgs.find? (fun x => x.num == f.num) = some f → s.msgDue f = true →
      s.savedAt f.vdev f.dest = false →
      let gone := { s with msgs := s.msgs.filter (fun x => x.num != f.num) }
      (s.launch f.vdev f.msg.lid = none → exec (.messageArrival f.num) s = .next (gone.modCore f.dest (fun x => x.discard 1))) ∧
      (s.launch f.vdev f.msg.lid ≠ none → (s.core f.dest).inbox.length < 64 →
        exec (.messageArrival f.num) s = .next (gone.modCore f.dest (fun x => { x with inbox := x.inbox ++ [f.msg] }))) ∧
      (s.launch f.vdev f.msg.lid ≠ none → 64 ≤ (s.core f.dest).inbox.length →
        exec (.messageArrival f.num) s =
          .next { s with msgs := s.msgs.map (fun x => if x.num = f.num then { x with ref := true } else x) })) ∧
    exec (.messageRetry num) s = .next { s with msgs := s.msgs.map (fun x => if x.num = num then { x with ref := false } else x) } ∧
    (Runs h s → s.me.hnd = false → d ≤ 55 → BankQuiet s → s.cur.seat < 4 → (∀ i, i < 9 → s.me.full (d + i) = true) →
      s.myCore.inbox.find? (fun x => x.dseat == s.cur.seat && x.lid == s.me.lid) = some g →
      ∃ t, exec (.recv h d) s = .next (State.advance t h) ∧ t.myCore.inbox = s.myCore.inbox.erase g ∧
        t.me.reg d = BitVec.ofNat 64 (g.src + g.len * 2 ^ 16 + g.tag.toNat * 2 ^ 32) ∧
        (∀ i, i < 8 → t.me.reg (d + 1 + i) = BitVec.ofNat 64 (numAt g.data (8 * i) 8)) ∧
        (∀ r, r < d ∨ d + 8 < r → t.me.reg r = s.me.reg r) ∧ t.lmem = s.lmem)

/-- R136, R337: LAUNCH gives its child the next number of tl5 and submits the record that it reads. -/
def Sys2Proof.Say.launchSubmitsRecord : Prop :=
  ∀ (h : Head) (d : Option Nat) (va q : Nat) (a b : Src) (bs : List Byte) (s s1 s2 s3 s4 : State),
    Runs h s → s.me.hnd = false → readN64 2 a s = .ok va s1 → readN64 3 b s1 = .ok q s2 → va % 64 = 0 →
    q < (s2.quota s2.me.vdev).nqueue → s2.quiet s2.cur = true →
    unitRead (some s2.cur.core) s2.me.who va 128 s2 = .ok bs s3 → (∀ r, d = some r → Dest r s3) →
    let n := ((s3.myCore.tl 5).iss + 1) % 2 ^ 56
    let s3' := s3.modMyCore (fun x => x.setTl 5 { x.tl 5 with iss := n })
    let s3'' := match d with | some r => s3'.modMe (fun x => x.setReg r (BitVec.ofNat 64 n)) | none => s3'
    (∃ ok, submit { lid := 0, vdev := s2.me.vdev, queue := q, base := s2.me.who.dom, rcd := LRec.ofBytes bs, addr := va
                    child := some (s2.cur.core, n) } s3'' = .ok ok s4) →
    exec (.launch h d a b) s = .next ((s4.syncChild s2.cur.core).advance h)

/-- R126 to R128, R136, R337 to R339: SEND, RECV and LAUNCH. -/
def Obligations.LaunchAndMessages : Prop :=
  Say.messagesTravel ∧ Say.launchSubmitsRecord

/-! ## Gates, crossings, unwinding, revocation -/

namespace Sys2Proof.Say
/-- The issuer may use family 0xD (R203, R341). -/
def MayGate (s : State) : Prop := s.me.hnd = false ∧ s.me.gang = false ∧ s.me.lead = false

/-- A gate image within its limits (R152, R342). -/
def GateImage (b : List Byte) (dcap : Nat) : Prop :=
  numAt b 4 2 < 2 ^ 13 ∧ numAt b 6 2 ≠ 0 ∧ numAt b 8 4 < numAt b 6 2 ∧ numAt b 0xC 4 < numAt b 6 2 ∧
  numAt b 0x10 4 ≤ 1048576 ∧ numAt b 0x14 1 / 4 % 32 = 0 ∧ 1 ≤ numAt b 0x15 1 ∧ numAt b 0x15 1 ≤ 64 ∧ numAt b 0x16 1 ≤ 8 ∧
  numAt b 0x17 1 = 0 ∧ numAt b 0x1C 4 = 0 ∧ numAt b 0x30 16 = 0 ∧
  ∀ i, i < 8 → if i < numAt b 0x16 1 then numAt b (0x20 + 2 * i) 2 < dcap else numAt b (0x20 + 2 * i) 2 = 0

/-- V and RETIRED of a gate entry are 0 (R152). -/
def GateFree (s : State) (vd i : Nat) : Prop := s.gateNum vd i 0 2 / 2 ^ 12 % 4 = 0

/-- The meeting before a crossing, and the end of every producer into the seat (R176, R177); the thread's accesses may be on
their way (R178; log 107). -/
def Met (s : State) : Prop :=
  s.stopOf [0, 1, 2, 3, 4] = none ∧ s.me.mat.live = false ∧ s.me.cpy.live = false ∧
  (∀ c ∈ s.myCore.ctxs.toList, ∀ o ∈ c.ops, o.seat = s.cur.seat → o.strn = .main) ∧
  (∀ o ∈ s.myCore.mat.ops, o.seat = s.cur.seat → o.strn = .main) ∧
  (∀ i, i < 64 → s.me.full i = true) ∧ ∀ i, i < 64 → (s.me.view i).fe = true

/-- What GCALL reads from its optional pair of registers. -/
def Descriptor (b : Option Src) (s : State) (d : Option (Nat × Nat)) (s1 : State) : Prop :=
  match b with
  | none => d = none ∧ s1 = s
  | some b => ∃ u v, readPair 3 b s = .ok (u, v) s1 ∧ d = some (u.toNat, v.toNat)

/-- Memory and every other seat are as before. -/
def OnlySeat (c k : Nat) (s t : State) : Prop :=
  t.lmem = s.lmem ∧ t.acc = s.acc ∧ t.dram = s.dram ∧ t.host = s.host ∧ t.fabric = s.fabric ∧
  ∀ c' k', c' ≠ c ∨ k' ≠ k → t.seat c' k' = s.seat c' k'

/-- The registers that a popped frame restores: s8 to s63, t4 to t63, CURDOM, SEGB, PC, p1 to p7 (R177, R180). -/
def Restored (f : Frame) (x : Seat) : Prop :=
  x.curdom = f.caller ∧ x.segb = f.csegb ∧ x.main.pc = f.retpc ∧
  (∀ i, i < 56 → x.reg (8 + i) = (f.ssave[i]?).getD 0) ∧
  (∀ i, i < 60 → x.view (4 + i) = { (f.tsave[i]?).getD {} with fe := true }) ∧
  (∀ i, i < 4 → x.view i = {}) ∧ ∀ i, 1 ≤ i → i < 8 → x.p i = f.cstat.getLsbD i
end Sys2Proof.Say

/-- R154, R174, R342 to R344, R346: GPOST fills the first unused entry and gives its handle, or 0; GRETRACT retracts a valid
handle for its owner or domain 0; GWIN builds a descriptor; GINFO shows a frame to its caller, its callee. The EVAL and OPND of
traps for which the spec names none are 0, the model's choice (log 25). -/
def Obligations.GateTableInstructions : Prop :=
  ∀ (h : Head) (d pst off v base size k : Nat) (wr ww : Bool) (a b : Src) (bs : List Byte) (s s1 s2 : State), Runs h s →
    MayGate s → let x := s1.me; let q := s1.quota x.vdev
    (readN64 2 a s = .ok off s1 → localImage 2 off 64 s1 = .ok bs s1 → GateImage bs q.dcap → s1.quiet s1.cur = true →
      Dest d s1 →
      (∀ i, i < q.gcap → GateFree s1 x.vdev i → (∀ j, j < i → ¬ GateFree s1 x.vdev j) →
        s1.devSnooped 0 (s1.gateAddr x.vdev i) 64 = false →
        let gen := s1.gateGen x.vdev i
        exec (.gpost h d a) s = .next (((s1.devWrite 0 (s1.gateAddr x.vdev i) (leBytes (gen + 2 ^ 12) 2 ++ leBytes x.curdom 2
          ++ (bs.drop 4).take 20 ++ leBytes 8192 4 ++ bs.drop 28)).modMe
            (fun x => x.setReg d (BitVec.ofNat 64 (gen * 2 ^ 20 + i)))).advance h)) ∧
      ((∀ i, i < q.gcap → ¬ GateFree s1 x.vdev i) →
        exec (.gpost h d a) s = .next ((s1.modMe (fun x => x.setReg d 0)).advance h))) ∧
    (readN64 2 a s = .ok v s1 →
      (s1.handleOk x.vdev v = false →
        exec (.gretract h pst a) s = .next ((s1.modMe (fun x => x.setP pst false)).advance h)) ∧
      (s1.handleOk x.vdev v = true → s1.gateNum x.vdev (v % 2 ^ 20) 2 2 = x.curdom ∨ x.curdom = 0 → s1.quiet s1.cur = true →
        s1.devSnooped 0 (s1.gateAddr x.vdev (v % 2 ^ 20)) 2 = false →
        exec (.gretract h pst a) s =
          .next (((s1.retract x.vdev (v % 2 ^ 20)).modMe (fun x => x.setP pst true)).advance h)) ∧
      (s1.handleOk x.vdev v = true → s1.gateNum x.vdev (v % 2 ^ 20) 2 2 ≠ x.curdom → x.curdom ≠ 0 →
        exec (.gretract h pst a) s = .next (s.takeTrap s.cur { cause := .privilege } false))) ∧
    (d % 2 = 0 → d ≤ 62 → readN64 2 a s = .ok base s1 → readN64 3 b s1 = .ok size s2 → base < 2 ^ 57 → size ≤ 1048576 →
      s2.me.full d = true → s2.me.full (d + 1) = true →
      exec (.gwin h wr ww d a b) s = .next ((s2.modMe (fun x => (x.setReg d (BitVec.ofNat 64
        (base + wr.toNat * 2 ^ 57 + ww.toNat * 2 ^ 58))).setReg (d + 1) (BitVec.ofNat 64
          (size + s2.me.curdom * 2 ^ 32)))).advance h)) ∧
    (d % 2 = 0 → d ≤ 62 → readN64 2 a s = .ok k s1 → s1.me.full d = true → s1.me.full (d + 1) = true →
      (x.depth = 0 → k = 0 → exec (.ginfo h d a) s =
        .next ((s1.modMe (fun x => (x.setReg d 0).setReg (d + 1) 0)).advance h)) ∧
      (∀ f n, 1 ≤ n → n ≤ x.depth → k = n ∨ (k = 0 ∧ n = x.depth) → x.frames[x.depth - n]? = some f →
        f.caller = x.curdom ∨ f.callee = x.curdom →
        exec (.ginfo h d a) s = .next ((s1.modMe (fun x => (x.setReg d (BitVec.ofNat 64
          (f.handle.toNat + f.caller * 2 ^ 32 + f.callee * 2 ^ 48))).setReg (d + 1) (BitVec.ofNat 64
            (f.win.size + f.win.wr.toNat * 2 ^ 21 + f.win.ww.toNat * 2 ^ 22 + n * 2 ^ 32 + f.cln.toNat * 2 ^ 39
              + f.doom.toNat * 2 ^ 40)))).advance h)))

/-- R176, R177, R345: a GCALL that is granted switches the thread to the callee's domain, entry and window, keeps s0 to s7
alone, and pushes a frame that holds what GRET restores; a refusal only writes GSTAT. GRET returns s0 to s3. -/
def Sys2Proof.Say.crossingsSwitchDomains : Prop :=
  ∀ (h : Head) (a : Src) (b : Option Src) (hd ceil : Nat) (dd : Option (Nat × Nat)) (g : Gate) (w : Window) (f : Frame)
    (fs : List Frame) (s s1 s2 : State), Runs h s → MayGate s → s.cur.seat < 4 → s.cur.strn = .main →
    (readN64 2 a s = .ok hd s1 → Descriptor b s1 dd s2 → s2.me.unw = none → Met s2 → s2.cur = s.cur →
      (∀ code, s2.callCheck s2.me hd dd = .error code → 1 ≤ code ∧ code ≤ 5 ∧
        exec (.gcall h a b) s = .next ((s2.modMe (fun x => { x with gstat := BitVec.ofNat 16 code })).advance h)) ∧
      (s2.callCheck s2.me hd dd = .ok (g, w, ceil) → s2.me.frames.length < 8 → ∃ t, exec (.gcall h a b) s = .next t ∧
        OnlySeat s.cur.core s.cur.seat s2 t ∧ t.me.curdom = g.owner ∧ t.me.segb = g.segbnd ∧ t.me.main.pc = ⟨g.cseg, g.entry⟩ ∧
        t.me.gstat = 0 ∧ t.me.depth = s2.me.depth + 1 ∧ (∀ i, i < 8 → t.me.reg i = s2.me.reg i) ∧
        (∀ i, 8 ≤ i → i < 64 → t.me.reg i = 0) ∧ (∀ i, 4 ≤ i → i < 64 → t.me.view i = {}) ∧ (∀ i, 1 ≤ i → t.me.p i = false) ∧
        ∃ e, t.me.frames = e :: s2.me.frames ∧ e.retpc = s2.me.main.pc.next ∧ e.caller = s2.me.curdom ∧ e.callee = g.owner ∧
          e.csegb = s2.me.segb ∧ e.win = w ∧ e.ceil = ceil ∧ e.doom = false ∧
          (∀ i, i < 56 → e.ssave[i]? = some (s2.me.reg (8 + i))) ∧ ∀ i, i < 60 → e.tsave[i]? = some (s2.me.view (4 + i)))) ∧
    (s.me.unw = none → s.me.frames = f :: fs → s.me.depth ≠ 0 → (fs ≠ [] ∨ s.me.depth = 1) → Met s →
      ∃ t, exec (.gret h) s = .next t ∧ OnlySeat s.cur.core s.cur.seat s t ∧ Restored f t.me ∧ t.me.gstat = 0 ∧
        t.me.frames = fs ∧ t.me.depth = s.me.depth - 1 ∧ (∀ i, i < 4 → t.me.reg i = s.me.reg i) ∧
        ∀ i, 4 ≤ i → i < 8 → t.me.reg i = 0)

namespace Sys2Proof.Say
/-- The thread of a seat may be taken by its unwinding now: it stands at a boundary outside its handler, and its producers have
completed once what it has begun has stopped there (R88, R179, R203). -/
def Takeable (s : State) (c k : Nat) : Prop :=
  k < 4 ∧ (s.core c).takeable k = true ∧ ((s.settle c k).core c).producersDone k = true

/-- The end of an unwinding: the first live caller goes on with the report in GSTAT and s0 to s3 (R180). -/
def Resumed (u : Unwind) (f : Frame) (x : Seat) : Prop :=
  Restored f x ∧ x.unw = none ∧ x.gstat = BitVec.ofNat 16 ((u.rsn.toNat + 1) * 256 + 6) ∧
  x.reg 0 = u.hnd.setWidth 64 ∧ x.reg 1 = BitVec.ofNat 64 u.xdom ∧ ∀ i, 2 ≤ i → i < 8 → x.reg i = 0
end Sys2Proof.Say

/-- R180, R181, R347: an unwinding takes its thread to the frame below the lowest marked one; GCLEAN, or a pop without code,
drops the innermost frame and the caller resumes at the target; so it does where the budget of a cleanup is used up, which is
counted. -/
def Sys2Proof.Say.unwindingPopsFrames : Prop :=
  ∀ (h : Head) (c k j : Nat) (f e : Frame) (fs : List Frame) (u : Unwind) (s : State),
    (Runs h s → MayGate s → s.cur.seat < 4 → s.cur.strn = .main → s.me.frames = f :: fs → s.me.unw = some u → u.run = true →
      f.cln = true → f.callee = s.me.curdom → (fs ≠ [] ∨ s.me.depth = 1) → Met s → s.quiet s.cur = true → s.me.marked = false → u.retire = false →
      s.me.depth ≤ u.target + 1 →
      ∃ t, exec (.gclean h) s = .next t ∧ OnlySeat s.cur.core s.cur.seat s t ∧ Resumed u f t.me ∧ t.me.frames = fs) ∧
    (Takeable s c k → (s.seat c k).marked = true → (s.seat c k).unw = none → (s.seat c k).frames.length = (s.seat c k).depth →
      1 ≤ j → (s.seat c k).frames[(s.seat c k).depth - j]? = some f → f.doom = true →
      (∀ i e, 1 ≤ i → i < j → (s.seat c k).frames[(s.seat c k).depth - i]? = some e → e.doom = false) →
      (s.seat c k).frames.getLast? = some e → e.bdoom = false →
      (s.seat c k).main.blk ≠ .pairing → (s.seat c k).main.blk ≠ .unpairing →
      ∃ t r, exec (.unwindTake c k) s = .next t ∧ (t.seat c k).marked = false ∧ (t.seat c k).depth = (s.seat c k).depth ∧
        (t.seat c k).mat.live = false ∧ (t.seat c k).cpy.live = false ∧
        (t.seat c k).unw = some { target := j - 1, retire := false, rsn := f.rsn, hnd := f.handle, xdom := f.callee, run := r }) ∧
    (Takeable s c k → (s.seat c k).unw = some u → (s.seat c k).marked = false → (s.seat c k).frames = f :: fs → f.doom = true →
      (u.run = true → f.bud ≠ 0) → u.retire = false → (s.seat c k).depth = u.target + 1 → (fs ≠ [] ∨ (s.seat c k).depth = 1) →
      ∃ t, exec (.unwindPop c k) s = .next t ∧ Resumed u f (t.seat c k) ∧ (t.seat c k).frames = fs) ∧
    (Takeable s c k → (s.seat c k).unw = some u → u.run = true → (s.seat c k).marked = false → (s.seat c k).frames = f :: fs →
      u.retire = false → (s.seat c k).depth = u.target + 1 → (fs ≠ [] ∨ (s.seat c k).depth = 1) →
      (f.bud = 0 → ∃ t, exec (.cleanupOverrun c k) s = .next t ∧ Resumed u f (t.seat c k) ∧ (t.seat c k).frames = fs ∧
        (t.vd (s.seat c k).vdev).clovr = min ((s.vd (s.seat c k).vdev).clovr + 1) (2 ^ 32 - 1)) ∧
      (f.bud ≠ 0 → exec (.cleanupOverrun c k) s = .next s))

/-- R176, R177, R180, R181, R345, R347: GCALL, GRET, GCLEAN and unwinding. -/
def Obligations.CrossingsAndUnwinding : Prop :=
  Say.crossingsSwitchDomains ∧ Say.unwindingPopsFrames

/-- R159, R179, R348: DREVOKE revokes the domain, waits until nothing issued as it is open, and marks; the kill form then
reclaims. Revocation leaves no translation of the domain cached; marking dooms exactly the frames whose callee it is. A
killed domain becomes FREE when no page and no frame is left. -/
def Obligations.RevocationMarksAndFrees : Prop :=
  ∀ (h : Head) (a : Src) (d : Nat) (kill : Bool) (s s1 : State), let vd := s.me.vdev
    (Runs h s → MayGate s → s.me.curdom = 0 → readN64 2 a s = .ok d s1 → d ≠ 0 → d < (s1.quota vd).dcap →
      (∀ x ∈ s1.myFlight s1.cur, ∀ p ∈ x.pieces, scopeHas s1.cur.core .dev p.home = false) →
      (s1.vd vd).fencing.contains d = false →
      (s1.dstate vd d = 1 → s1.tablesHeld vd = false →
        let s2 := (s1.revoke vd d).modVd vd (fun v => { v with fencing := d :: v.fencing })
        (s2.fenceOpen vd d = true → exec (.drevoke h a) s = .next s2 ∧ exec (.drevokeKill h a) s = .next s2) ∧
        (s2.fenceOpen vd d = false →
          exec (.drevoke h a) s = .next ((s2.advance h).revokeEnd vd d false) ∧
          exec (.drevokeKill h a) s = .next ((s2.advance h).revokeEnd vd d true))) ∧
      (s1.dstate vd d = 2 → exec (.drevoke h a) s = .next (s1.advance h) ∧
        exec (.drevokeKill h a) s = .next ((s1.advance h).revokeEnd vd d true))) ∧
    (∀ c e, e ∈ ((s.revoke vd d).core c).tlb → ¬ (e.vdev = vd ∧ e.dom = d)) ∧
    (∀ (c k i : Nat) (f : Frame), k < 4 → (s.seat c k).seq = .none → (s.seat c k).depth = (s.seat c k).frames.length → (s.seat c k).frames[i]? = some f →
      ∃ e : Frame, ((s.markSeat c k d kill).seat c k).frames[i]? = some e ∧ e.doom = (f.doom || f.callee == d) ∧
        e.rsn = (f.rsn || (f.callee == d && kill)) ∧ e.callee = f.callee ∧ e.retpc = f.retpc ∧ e.ssave = f.ssave) ∧
    (∀ vd, (s.vd vd).killing.contains d = true → (∀ p ∈ s.owners, ¬ (p.2.vdev = vd ∧ p.2.owner = d ∧ p.2.state ≠ 0)) →
      s.threads vd = [] → (s.vd vd).saved = [] →
      s.tablesHeld vd = false →
      exec (.domainFreed vd d) s = .next ((s.setDstate vd d 0).modVd vd (fun v =>
        { v with killing := v.killing.filter (fun x => x != d) })))

/-! ## The Escapement -/

namespace Sys2Proof.Say
/-- A stream word that names stream i, of the issuer's launch and not FREE (R350). -/
def MyStream (a : Src) (s : State) (v i : Nat) (y : Stream) (s1 : State) : Prop :=
  readN64 2 a s = .ok v s1 ∧ i = v % 64 ∧ y = s1.stream i ∧ y.st ≠ .free ∧ y.lid = s1.me.lid ∧ y.vdev = s1.me.vdev
/-- A batch word of the batch in flight (R350). -/
def MyBatch (a : Src) (s : State) (i : Nat) (y : Stream) (s1 : State) : Prop :=
  ∃ v, MyStream a s v i y s1 ∧ y.st ≠ .error ∧ v / 64 % 2 ^ 26 = (y.batch + 2 ^ 26 - 1) % 2 ^ 26
/-- The bodies of a constraint that count (R354). -/
def realBodies (c : Constraint) : List Nat := c.bodies.filter (fun b => b != 0xFFFFF)
end Sys2Proof.Say

/-- R349 to R353, R355, R356: ESUB.open takes the lowest free stream and a party of its phaser; ESUB appends a constraint;
ECLOSE seals the cut, and .end ends the stream, or frees it and drops its party where nothing is left; ENEXT reads a position,
and .done counts; ESTAT shows the stream. The EVAL of a SYNCSTATE is the model's choice (log 25), and so are the words that a
stream keeps when it is opened again (log 79). -/
def Sys2Proof.Say.escapementInstructions : Prop :=
  ∀ (h : Head) (pst d i n v p : Nat) (a b : Src) (u w : Word) (l : Launch) (sl : Slot) (y : Stream) (k c : Constraint)
    (s s1 : State), Runs h s →
    (readN64 2 a s = .ok v s1 → s1.me.depth = 0 → s1.launch s1.me.vdev s1.me.lid = some l → v / 2 ^ 14 % 4 = 0 →
      v / 2 ^ 24 % 2 ^ 8 = 0 → v / 2 ^ 58 = 0 → s1.inSet l (v % 2 ^ 14) = true → v / 2 ^ 32 % 2 ^ 16 < l.rcd.segbound →
      let id := fun k => dieOf s1.cur.core * 16 + k
      (n < 16 → (s1.stream (id n)).st = .free → (∀ m, m < n → (s1.stream (id m)).st ≠ .free) → Dest d s1 →
        s1.slot (v % 2 ^ 14) (v / 2 ^ 16 % 2 ^ 8) = some sl → sl.kind = .ph → sl.nreg < 65535 →
        exec (.esubOpen h pst d a) s = .next (((((s1.setSlot (v % 2 ^ 14) (v / 2 ^ 16 % 2 ^ 8) { sl with nreg := sl.nreg + 1
          }).setStream (id n) { s1.stream (id n) with st := .opened, cfg := BitVec.ofNat 58 v, lid := s1.me.lid
                                                      vdev := s1.me.vdev, pendC := [], store := [], remain := 0
                                                      infl := false, arr := false }).modMe
            (fun x => x.setReg d (BitVec.ofNat 64 (id n)))).modMe (fun x => x.setP pst true)).advance h)) ∧
      ((∀ m, m < 16 → (s1.stream (id m)).st ≠ .free) →
        exec (.esubOpen h pst d a) s = .next ((s1.modMe (fun x => x.setP pst false)).advance h))) ∧
    (∀ s0, readN64 2 a s = .ok v s0 → readPair 3 b s0 = .ok (u, w) s1 → i = v % 64 → y = s1.stream i → y.lid = s1.me.lid →
      y.vdev = s1.me.vdev → y.st = .opened → constraintOf u.toNat w.toNat y.cut = some k → y.pendC.length < 4096 →
      s1.window (i / 16) < 4096 → s1.quiet s1.cur = true →
      exec (.esub h a b) s = .next ((s1.setStream i { y with pendC := y.pendC ++ [k] }).advance h)) ∧
    (MyStream a s v i y s1 → y.st = .opened →
      let z := { y with sealed := (y.cut + 1) % 2 ^ 32, cut := (y.cut + 1) % 2 ^ 32 }
      exec (.ecloseCut h a) s = .next ((s1.setStream i z).advance h) ∧
      (y.pendC ≠ [] ∨ y.infl = true →
        exec (.ecloseEnd h a) s = .next ((s1.setStream i { z with st := .ended }).advance h)) ∧
      (y.pendC = [] → y.infl = false →
        (∀ x, s1.slot y.target.1 y.target.2 = some x → x.kind = .ph → exec (.ecloseEnd h a) s =
          .next ((((s1.setStream i z.freed).dropParty y.target.1 y.target.2).complete y.target.1 y.target.2).advance h)) ∧
        ((∀ x, s1.slot y.target.1 y.target.2 = some x → x.kind ≠ .ph) → exec (.ecloseEnd h a) s =
          .next ((s1.setStream i { z with st := .error }).advance h)))) ∧
    (∀ s0, readN64 3 b s = .ok p s0 → MyBatch a s0 i y s1 → d % 2 = 0 → d ≤ 60 → y.infl = true → y.store[p]? = some c →
      (∀ j, j < 3 → s1.me.full (d + j) = true) →
      let body := fun j => (c.bodies[j]?).getD 0
      exec (.enext h d a b) s = .next ((s1.modMe (fun x => ((x.setReg d (BitVec.ofNat 64
        (c.index + (c.bodies.length - 1) * 2 ^ 32))).setReg (d + 1) (BitVec.ofNat 64 (body 0 + body 1 * 2 ^ 32))).setReg (d + 2)
          (BitVec.ofNat 64 (body 2 + body 3 * 2 ^ 32)))).advance h)) ∧
    (∀ s0, readN64 3 b s = .ok n s0 → MyBatch a s0 i y s1 → 1 ≤ n → s1.quiet s1.cur = true →
      (n < y.remain → exec (.enextDone h a b) s = .next ((s1.setStream i { y with remain := y.remain - n }).advance h)) ∧
      (n = y.remain → exec (.enextDone h a b) s = .next ((((s1.setStream i { y with remain := 0 }).arrive y.target.1 y.target.2
        (.stream i)).complete y.target.1 y.target.2).advance h)) ∧
      (y.remain < n → exec (.enextDone h a b) s = .next (s.takeTrap s.cur
        { cause := .syncstate, val := BitVec.ofNat 64 i } false))) ∧
    (MyStream a s v i y s1 → Dest d s1 → exec (.estat h d a) s = .next ((s1.modMe (fun x => x.setReg d (BitVec.ofNat 64
      ((match y.st with | .free => 0 | .opened => 1 | .ended => 2 | .error => 3) + y.infl.toNat * 4 + y.pendC.length * 8
        + y.remain * 2 ^ 16 + y.batch * 2 ^ 32)))).advance h))

/-- R354: the stream that is due, the first after the one served last, releases as a range record at its target core what
its batch holds; a batch takes constraints of one cut in their order, at most 1,024, no two of which share a body, and the
first constraint of the cut is always among them. -/
def Sys2Proof.Say.batchesShareNoBody : Prop :=
  (∀ (c0 : Nat) (cs b keep : List Constraint), formBatch c0 cs [] [] = (b, keep) →
    b.length ≤ 1024 ∧ (∀ c ∈ b, c.cut = c0) ∧ b.Sublist cs ∧ keep.Sublist cs ∧ b.length + keep.length = cs.length ∧
    b.Pairwise (fun c d => ∀ x ∈ realBodies c, x ∉ realBodies d) ∧
    ∀ c, cs.find? (fun c => c.cut == c0) = some c → b.head? = some c) ∧
  ∀ (die k n c0 : Nat) (y : Stream) (s : State), k < 16 → n < 16 → mapGet 15 die s.modl.rrStream = k → y = s.stream (die * 16 + n) →
    y.due = some c0 → (∀ m, m < 16 → (m + 15 - k) % 16 < (n + 15 - k) % 16 → (s.stream (die * 16 + m)).due = none) →
    (s.core y.target.1).dqCount < 64 → (s.core y.target.1).retSlot = none → (s.vd y.vdev).cores = [] →
    let bk := formBatch c0 y.pendC [] []
    exec (.escapementBatchRelease die) s = .next (((s.modCore y.target.1 (fun x => x.dqPush (Task.word
      { lid := y.lid, entry := y.cfg.toNat / 2 ^ 32 % 2 ^ 16, kind := 2, a0 := 0, a1 := bk.1.length
        g := y.cfg.toNat / 2 ^ 48 % 2 ^ 10 + 1, arg := die * 16 + n + 64 * (y.batch % 2 ^ 26) }))).setStream (die * 16 + n)
          { y with pendC := bk.2, store := bk.1, batch := (y.batch + 1) % 2 ^ 32, remain := bk.1.length, infl := true }).modModule
            (fun m => { m with rrStream := mapPut die n m.rrStream }))

/-- R349 to R354: the escapement (the model's choices: log 25, 79). -/
def Obligations.EscapementInstructions : Prop :=
  Say.escapementInstructions ∧ Say.batchesShareNoBody

/-! ## System registers, traps, privileged instructions -/

namespace Sys2Proof.Say
/-- STATUS of the issuer (R76). -/
def statusWord (s : State) : Nat :=
  let x := s.me
  (x.pred.toNat / 2 * 2 + 1) + x.ftz.toNat * 2 ^ 8 + x.rsm.toNat * 2 ^ 9
    + (if x.occ = .free ∨ x.curdom ≠ 0 then 0 else if x.vdev ≠ 0 then 1 else 2) * 2 ^ 10 + x.hnd.toNat * 2 ^ 12
    + (if s.myCore.mat.holder = some s.cur.seat then 2 ^ 13 else 0) + x.mat.live.toNat * 2 ^ 14 + x.cpy.live.toNat * 2 ^ 15
    + x.gang.toNat * 2 ^ 16 + x.lead.toNat * 2 ^ 17 + (if ∃ p, s.myCore.pair = some p ∧ p.on = true then 2 ^ 18 else 0)

/-- REPC as a word (R80). -/
def repWord (r : Rep) : Nat := r.count + r.done * 2 ^ 7 + r.dstr * 2 ^ 14 + r.astr * 2 ^ 16 + r.bstr * 2 ^ 18

/-- The seat system registers but QUOTA, by number (R75 to R83, R358). -/
def seatValue (s : State) (n : Nat) : Nat :=
  let x := s.me
  match n with
  | 0 => x.main.pc.seg * 2 ^ 32 + x.main.pc.idx
  | 1 => statusWord s
  | 2 => x.fstat.toNat
  | 3 => x.amax.toNat
  | 4 => x.epc.seg * 2 ^ 32 + x.epc.idx
  | 5 => x.ecause.toNat
  | 6 => x.eval.toNat
  | 7 => repWord (if x.hnd then x.repSys else x.main.rep)
  | 8 => x.curdom + x.vdev * 2 ^ 16 + x.basedom * 2 ^ 32
  | 9 => x.depth + x.frames.length * 2 ^ 7 + x.limit * 2 ^ 20
  | 10 => x.gstat.toNat
  | 11 => x.lid + x.queue * 2 ^ 32
  | _ => s.cur.seat

/-- A repeat that a REPC word names: COUNT at most 64, DONE 0 where COUNT is, their sum at most 64 (R80). -/
def repCut (v : Nat) : Rep :=
  let c := min 64 (v % 2 ^ 7)
  { count := c, done := if c = 0 then 0 else min (64 - c) (v / 2 ^ 7 % 2 ^ 7), dstr := v / 2 ^ 14 % 4, astr := v / 2 ^ 16 % 4
    bstr := v / 2 ^ 18 % 4 }

/-- An optional source, 0 where it is absent. -/
def Index (b : Option Src) (s : State) (i : Nat) (s1 : State) : Prop :=
  match b with
  | none => i = 0 ∧ s1 = s
  | some b => readN64 3 b s = .ok i s1

/-- The state after a privilege trap that names register or selector n and index i (R84, R146, R197). -/
def denied (s : State) (n : Nat) : Out := .next (s.takeTrap s.cur { cause := .privilege, val := BitVec.ofNat 64 n } false)

/-- The state after a scalar result and the advance. -/
def answer (h : Head) (d v : Nat) (s : State) : Out := .next ((s.modMe (fun x => x.setReg d (BitVec.ofNat 64 v))).advance h)
end Sys2Proof.Say

/-- R75 to R87, R146, R166, R196, R308, R358, R365: what SYSR and CAPR read. QUOTA reads as far as the moves of time have
counted it down (the model's choice, log 8). Where RGOVR stands in a Regulator slot's words (log 49), and that the core, table
and QUOTA forms look at the acting domain (log 48), are the model's choices too. -/
def Sys2Proof.Say.sysrReadsRegisters : Prop :=
  ∀ (h : Head) (d n i : Nat) (a : Src) (b : Option Src) (s s0 s1 : State), Runs h s → Dest d s1 → readN64 2 a s = .ok n s0 →
    (Index b s0 i s1 →
      (n ≤ 13 → n ≠ 12 → exec (.sysr h .seat d a b) s = answer h d (seatValue s1 n) s1) ∧
      ((s1.quota s1.me.vdev).fixed = true → n = 12 → exec (.sysr h .seat d a b) s = answer h d (2 ^ 48 - 1) s1) ∧
      ((s1.quota s1.me.vdev).fixed = false → n = 12 → exec (.sysr h .seat d a b) s = answer h d s1.me.cyc.toNat s1) ∧
      (14 ≤ n → exec (.sysr h .seat d a b) s =
        .next (s.takeTrap s.cur { cause := .operand, opnd := 2, val := BitVec.ofNat 64 n } false)) ∧
      (n = 0 → exec (.sysr h .core d a b) s = answer h d (s1.coreId s1.cur.core) s1) ∧
      (n = 1 → exec (.sysr h .core d a b) s = answer h d ((s1.myCore.seat 0).segb % 2 ^ 16
        + (s1.myCore.seat 1).segb % 2 ^ 16 * 2 ^ 16 + (s1.myCore.seat 2).segb % 2 ^ 16 * 2 ^ 32
        + (s1.myCore.seat 3).segb % 2 ^ 16 * 2 ^ 48) s1) ∧
      (n = 2 → exec (.sysr h .core d a b) s = answer h d s1.myCore.dqh s1) ∧
      (n = 3 → exec (.sysr h .core d a b) s = answer h d s1.myCore.dqt s1) ∧
      (n = 4 → exec (.sysr h .core d a b) s = answer h d s1.myCore.inbox.length s1) ∧
      (5 ≤ n ∧ n < 0x40 ∨ 0x140 ≤ n → exec (.sysr h .core d a b) s =
        .next (s.takeTrap s.cur { cause := .operand, opnd := 2, val := BitVec.ofNat 64 n } false)) ∧
      (∀ k w, k < 64 → w < 4 → n = 0x40 + 4 * k + w → s1.me.who.dom = 0 →
        exec (.sysr h .core d a b) s = answer h d ((s1.myCore.dqSlot k).toNat / 2 ^ (64 * w) % 2 ^ 64) s1) ∧
      (∀ k w, k < 64 → w < 4 → n = 0x40 + 4 * k + w → s1.me.who.dom ≠ 0 → exec (.sysr h .core d a b) s = denied s n) ∧
      (∀ k w, i = 32 * k + w → w < 32 → k < 2 ^ 32 →
        (n = 1 → k < 64 → w = 0 → exec (.sysr h .tab d a b) s = answer h d (s1.lrtEntry s1.cur.core k).toNat s1) ∧
        (n = 2 → k < (s1.quota s1.me.vdev).gcap → w = 3 →
          exec (.sysr h .tab d a b) s = answer h d (s1.gateNum s1.me.vdev k 0x18 4) s1) ∧
        (n = 3 → k = 0 → w = 11 → s1.me.who.dom = 0 →
          exec (.sysr h .tab d a b) s = answer h d (s1.quota s1.me.vdev).evbase s1) ∧
        (n = 3 → k = 0 → w = 12 → s1.me.who.dom = 0 →
          exec (.sysr h .tab d a b) s = answer h d (s1.quota s1.me.vdev).evcap s1) ∧
        (n = 4 → k / 4096 < 4 → k % 4096 < 4032 → w = 0 → s1.me.who.dom = 0 → s1.me.vdev = 0 →
          exec (.sysr h .tab d a b) s = answer h d ((s1.lptEntry (k / 4096) (k % 4096)).toNat &&& 0x8FFF) s1) ∧
        (n = 6 → k < 256 → w < 8 → s1.me.who.dom = 0 → s1.me.vdev = 0 → let r := mapGet ({} : RegSlot) k s1.regs
          exec (.sysr h .tab d a b) s = answer h d (match w with
            | 0 => r.arm.toNat + r.vdev * 2 ^ 8 + r.queue * 2 ^ 16
            | 1 => r.period
            | 2 => r.next
            | 3 => r.rcd
            | 4 => r.infl % 2 ^ 32 + r.rgovr * 2 ^ 32
            | _ => 0) s1) ∧
        (n = 5 → k < 4096 → w = 0 → s1.me.who.dom = 0 → s1.me.vdev = 0 → let y := s1.key k
          exec (.sysr h .tab d a b) s =
            answer h d (y.kstate + y.use * 2 ^ 2 + y.vdev * 2 ^ 16 + y.kgen % 2 ^ 16 * 2 ^ 48) s1) ∧
        (4 ≤ n → n ≤ 6 → s1.tableOk s1.me.vdev n k w = true → s1.me.who.dom ≠ 0 →
          exec (.sysr h .tab d a b) s = denied s (n + k * 2 ^ 16))) ∧
      (n ≤ 3 → n ≠ s1.cur.seat → s1.me.who.dom ≠ 0 → i ≤ 4 → exec (.sysr h .eng d a b) s = denied s n) ∧
      (n = 4 ∨ n = s1.cur.seat ∨ s1.me.who.dom = 0 → n ≤ 4 →
        let e := if n = 4 then s1.myCore.mat.eng else (s1.myCore.ctx n).eng
        (i = 0 → exec (.sysr h .eng d a b) s = answer h d e.efop.toNat s1) ∧
        (i = 1 → exec (.sysr h .eng d a b) s = answer h d e.efcode.toNat s1) ∧
        (i = 2 → exec (.sysr h .eng d a b) s = answer h d e.efval.toNat s1) ∧
        (i = 3 → exec (.sysr h .eng d a b) s = answer h d e.efrst.toNat s1) ∧
        (i = 4 → exec (.sysr h .eng d a b) s = answer h d e.errlast.toNat s1))) ∧
    (s1 = s0 → exec (.capr h d a) s = answer h d (s1.capability n) s1)

/-- R75, R76, R84, R86, R123, R146, R153, R161, R168, R358: what SYSW writes, for whom, and when it raises PRIVILEGE. That the
core, table and QUOTA forms look at the acting domain (log 48), and how a REPC word is cut to its range (log 97), are the model's
choices. -/
def Sys2Proof.Say.syswWritesRegisters : Prop :=
  ∀ (h : Head) (n v iw k w : Nat) (dd : Nat) (a b : Src) (s s0 s1 : State), Runs h s →
    (readN64 2 a s = .ok n s0 → readN64 3 b s0 = .ok v s1 → v < 2 ^ 64 →
      let seat := fun (f : Seat → Seat) => exec (.sysw h .seat none a b) s = .next ((s1.modMe f).advance h)
      (n = 1 → seat (fun x => { x with pred := BitVec.ofNat 8 (v % 2 ^ 8) ||| 1, ftz := v.testBit 8 })) ∧
      (n = 2 → seat (fun x => { x with fstat := BitVec.ofNat 7 v })) ∧
      (n = 3 → v ≤ 0x7FF0000000000000 → seat (fun x => { x with amax := BitVec.ofNat 64 v })) ∧
      (s1.me.hnd = true →
        (n = 4 → seat (fun x => { x with epc := ⟨v / 2 ^ 32 % 2 ^ 13, v % 2 ^ 32⟩, rsm := false })) ∧
        (n = 6 → seat (fun x => { x with eval := BitVec.ofNat 64 v })) ∧
        (n = 5 → seat (fun x => { x with ecause := BitVec.ofNat 16 (v % 2 ^ 12) })) ∧
        (n = 7 → seat (fun x => { x with repSys := repCut v }))) ∧
      (s1.me.hnd = false → 4 ≤ n → n ≤ 7 → exec (.sysw h .seat none a b) s = denied s n) ∧
      (n ∈ [0, 8, 9, 10, 11, 13] → exec (.sysw h .seat none a b) s = denied s n) ∧
      (n = 12 → s1.me.who.dom = 0 → s1.me.vdev = 0 → (s1.quota 0).fixed = false → seat (fun x => { x with cyc := BitVec.ofNat 48 v })) ∧
      (n = 12 → s1.me.who.dom = 0 → s1.me.vdev = 0 → (s1.quota 0).fixed = true →
        exec (.sysw h .seat none a b) s = .next (s1.advance h)) ∧
      (n = 12 → (s1.me.who.dom ≠ 0 ∨ s1.me.vdev ≠ 0) → exec (.sysw h .seat none a b) s = denied s n) ∧
      (s1.me.who.dom = 0 →
        (n = 2 → { s1.myCore with dqh := v % 128 }.dqCount ≤ 64 →
          exec (.sysw h .core none a b) s = .next ((s1.modMyCore (fun x => { x with dqh := v % 128 })).advance h)) ∧
        (n = 3 → { s1.myCore with dqt := v % 128 }.dqCount ≤ 64 →
          exec (.sysw h .core none a b) s = .next ((s1.modMyCore (fun x => { x with dqt := v % 128 })).advance h))) ∧
      (s1.me.who.dom ≠ 0 → n < 5 → exec (.sysw h .core none a b) s = denied s n) ∧
      (n ≤ 4 → exec (.sysw h .eng none a b) s = denied s n)) ∧
    (dd < 64 → s.me.full dd = true → (s.me.reg dd).toNat = iw → iw = 32 * k + w → w < 32 → k < 2 ^ 32 → readN64 2 a s = .ok n s0 →
      readN64 3 b s0 = .ok v s1 →
      let tab := fun (t : State) => exec (.sysw h .tab (some dd) a b) s = .next (t.advance h)
      let old := s1.lrtEntry s1.cur.core k
      let new := old.toNat / 2 ^ 28 * 2 ^ 28 + v / 2 ^ 6 % 2 ^ 22 * 2 ^ 6
      (n = 1 → k < 64 → w = 0 → s1.me.who.dom = 0 → old.toNat / 2 ^ 28 = s1.me.vdev →
        (old.getLsbD 10 = true → new ≠ old.toNat → ∀ r, s1.myCore.hinst = some r → k ∉ r.cover) →
        (new.testBit 11 = true → s1.domLive s1.me.vdev (new / 2 ^ 12 % 2 ^ 16) = true) →
        tab (s1.modMyCore (fun x => { x with lrt := mapPut k (BitVec.ofNat 32 new) x.lrt }))) ∧
      (n = 1 → k < 64 → w = 0 → s1.me.who.dom ≠ 0 → exec (.sysw h .tab (some dd) a b) s = denied s (1 + k * 2 ^ 16)) ∧
      (n = 2 → k < (s1.quota s1.me.vdev).gcap → w = 3 → s1.me.who.dom = 0 → 1024 ≤ v % 2 ^ 32 → v % 2 ^ 32 ≤ 65536 →
        s1.devSnooped 0 (s1.gateAddr s1.me.vdev k + 0x18) 4 = false →
        tab (s1.devWrite 0 (s1.gateAddr s1.me.vdev k + 0x18) (leBytes (v % 2 ^ 32) 4))) ∧
      (n = 3 → k = 0 → w = 11 → s1.me.who.dom = 0 → v % 32 = 0 →
        tab (({ s1 with quotas := mapPut s1.me.vdev { s1.quota s1.me.vdev with evbase := v } s1.quotas } : State).flushEvents 257
          s1.me.vdev)) ∧
      (n = 3 → k = 0 → w = 12 → s1.me.who.dom = 0 → (∃ e, e < 32 ∧ v % 2 ^ 32 = 2 ^ e) → 64 ≤ v % 2 ^ 32 → v % 2 ^ 32 ≤ 65536 →
        tab (({ s1 with quotas := mapPut s1.me.vdev { s1.quota s1.me.vdev with evcap := v % 2 ^ 32 } s1.quotas } : State).flushEvents
          257 s1.me.vdev)) ∧
      (∀ r r', n = 6 → k < 256 → w < 8 → s1.me.who.dom = 0 → s1.me.vdev = 0 → r = mapGet ({} : RegSlot) k s1.regs →
        r.put w v = some r' → tab { s1 with regs := mapSet {} k r' s1.regs }))

/-- R357, R358: SYSR, SYSW and CAPR (the model's choices: log 8, 48, 49, 97). -/
def Obligations.SystemRegisters : Prop :=
  Say.sysrReadsRegisters ∧ Say.syswWritesRegisters

namespace Sys2Proof.Say
/-- A family that a handler may not use: 0x4 to 0x8, 0xC, 0xD (R203). -/
def barred (i : Instr) : Bool :=
  let f := (toFields i).opc / 64
  !i.isEvent && ((decide (4 ≤ f) && decide (f ≤ 8)) || f == 12 || f == 13)

/-- s56 to s63, STATUS, FSTAT and the seat's SEGB in its part of the handler data area (R201). -/
def AreaHolds (t : State) (c : Nat) (area : Nat) (x : Seat) (status : Nat) : Prop :=
  (∀ i, i < 8 → t.locNum c (area + 8 * i) 8 = (x.reg (56 + i)).toNat) ∧ t.locNum c (area + 0x40) 8 = status ∧
  t.locNum c (area + 0x48) 8 = x.fstat.toNat ∧ t.locNum c (area + 0x50) 8 = x.segb % 2 ^ 64

/-- The value of register or predicate n after writes held for a handler's return, in their order; `old` where none names it. -/
def lastOf {β : Type} (l : List (Option (Nat × β))) (n : Nat) (old : β) : β :=
  ((l.filterMap (fun e => e.bind (fun q => if q.1 = n then some q.2 else none))).getLast?).getD old
end Sys2Proof.Say

/-- R79, R201, R202: trap entry saves s56 to s63, STATUS, FSTAT and SEGB in the handler data area and PC in EPC, sets ECAUSE,
EVAL, HND and RSM, goes to the handler's entry, and changes no other byte of memory; a tile instruction of the seat stops at
its row-group boundary before (R69). While a producer of s56 to s63 is outstanding the entry waits. -/
def Sys2Proof.Say.trapEntrySavesState : Prop :=
  ∀ (s : State) (a : Agent) (t : Trap) (save : Bool) (r : HRec), a.seat < 4 → s.lmem.wf = true →
    (s.core a.core).hinst = some r → (s.seat a.core a.seat).hnd = false →
    let s0 := s.settle a.core a.seat
    let x := s0.seat a.core a.seat
    let u := s.takeTrap a t save
    let y := u.seat a.core a.seat
    ((∀ i, 56 ≤ i → i < 64 → x.full i = true) →
      y.hnd = true ∧ y.rsm = true ∧ y.epc = (x.strand a.strn).pc ∧ y.eval = t.val ∧
      y.ecause = BitVec.ofNat 16 ((match a.strn with | .main => 0 | .matrix => 1 | .copy => 2) * 256 + t.opnd * 1024 + t.cause.code) ∧
      y.repSys = (x.strand a.strn).rep ∧ y.segb = r.hbnd ∧ y.main.pc = ⟨r.hseg, r.hent⟩ ∧ y.curdom = x.curdom ∧
      (∀ i, i < 64 → y.reg i = x.reg i) ∧ AreaHolds u a.core (r.hdata + 0x40 + 128 * a.seat) x ((s0.core a.core).status a.seat) ∧
      (∀ m, m < lkey a.core (r.hdata + 0x40 + 128 * a.seat) ∨ lkey a.core (r.hdata + 0x40 + 128 * a.seat) + 88 ≤ m →
        memRead u.lmem m = memRead s0.lmem m) ∧ u.acc = s.acc ∧ u.dram = s0.dram ∧ u.host = s0.host ∧ u.fabric = s0.fabric) ∧
    ((∃ i, 56 ≤ i ∧ i < 64 ∧ x.full i = false) →
      y.hnd = false ∧ y.pend = some { trap := t, strn := a.strn, pc := (x.strand a.strn).pc, save := save } ∧
      y.main = x.main ∧ u.lmem = s0.lmem) ∧
    ((∀ q, (s.core a.core).tile = some q → q.seat ≠ a.seat) →
      s0.lmem = s.lmem ∧ s0.dram = s.dram ∧ s0.host = s.host ∧ s0.fabric = s.fabric ∧
      ((s.seat a.core a.seat).main.blk ≠ .comparing → x = s.seat a.core a.seat))

/-- R202, R306, R359: TRAP raises SOFTWARE with its operand; ERET without a handler's trap raises OPERAND; with one it restores
what the data area holds, clears HND and RSM, and goes to EPC with the value of REPC, after the handler's stores to the area
(R317) have been performed; it restarts the operation that an ENGINE fault named. Writes of the thread's own that completed
while the handler ran stand after it. A tile instruction of the strand that trapped goes on part-way only with RSM set (R69). A
thread that is to retire ends then (R203). That ERET without a handler's trap leaves OPND 0 and EVAL 0 is the model's choice
(log 25). -/
def Sys2Proof.Say.trapAndEret : Prop :=
  ∀ (h : Head) (a : Src) (v : Nat) (r : Held) (s s1 : State), Runs h s →
    (readN64 2 a s = .ok v s1 →
      exec (.trap h a) s = .next (s.takeTrap s.cur { cause := .software, val := BitVec.ofNat 64 v } false)) ∧
    (s.me.held = none → exec (.eret h) s = .next (s.takeTrap s.cur { cause := .operand } false)) ∧
    (s.me.held = some r → s.bankDone = false → exec (.eret h) s = .next s) ∧
    (s.me.held = some r → s.bankDone = true → s.cur.seat < 4 → ∃ t,
      exec (.eret h) s = .next (if s.me.ending then t.retireNow s.cur.core s.cur.seat else t) ∧
        let area := r.inst.hdata + 0x40 + 128 * s.cur.seat
        let hs := fun off => s.locNum s.cur.core (area + off) 8
        let redone := fun (e : EngWords) => if e.stopped then { e with stopped := false, efrst := 0 } else e
        let tl := r.trap.val.toNat / 2 ^ 56 % 16
        t.me.hnd = false ∧ t.me.rsm = false ∧ t.me.held = none ∧
        t.me.resume = (s.me.rsm && (r.res || (!r.save && r.strn == .main))) ∧
        t.me.main.blk = (if r.strn = .main ∧ r.save = false then .none else r.mblk) ∧
        (t.me.strand r.strn).pc = (if r.strn = .main then r.ret.getD s.me.epc else s.me.epc) ∧ (t.me.strand r.strn).rep = s.me.repSys ∧
        (r.strn ≠ .main → t.me.main.pc = r.mpc ∧ t.me.main.rep = r.mrep) ∧
        (∀ i, i < 8 → t.me.reg (56 + i) = lastOf (r.fins.map (·.1)) (56 + i) (BitVec.ofNat 64 (hs (8 * i))) ∧
          t.me.full (56 + i) = true) ∧
        (∀ i, i < 56 → t.me.reg i = lastOf (r.fins.map (·.1)) i (s.me.reg i)) ∧
        (∀ i, 1 ≤ i → i < 8 → t.me.p i = lastOf (r.fins.map (·.2)) i ((hs 0x40).testBit i)) ∧
        t.me.ftz = (hs 0x40).testBit 8 ∧ t.me.fstat = BitVec.ofNat 7 (hs 0x48) ∧ t.me.segb = hs 0x50 % 2 ^ 16 ∧
        (∀ n, n < 4 → (t.myCore.ctx n).eng =
          if r.trap.cause = .engine ∧ tl = n then redone (s.myCore.ctx n).eng else (s.myCore.ctx n).eng) ∧
        t.myCore.mat.eng = (if r.trap.cause = .engine ∧ tl = 4 then redone s.myCore.mat.eng else s.myCore.mat.eng) ∧
        t.lmem = s.lmem ∧ t.acc = s.acc ∧ t.dram = s.dram ∧ t.host = s.host ∧ t.fabric = s.fabric)

/-- R79, R201, R202, R359: trap entry, TRAP and ERET. EVAL and OPND of traps for which the spec names none are 0, the model's choice (log 25). -/
def Obligations.TrapEntryAndReturn : Prop :=
  Say.trapEntrySavesState ∧ Say.trapAndEret

/-- R202: what a trap on any strand saves, its return restores, where the handler leaves the data area, EPC and REPC as
they were: registers, predicates, FTZ, FSTAT, SEGB, and PC and REPC of the strand and of the main strand. -/
def Obligations.ReturnUndoesTrapEntry : Prop :=
  ∀ (s : State) (c k : Nat) (st : StrandK) (t : Trap) (i : HRec) (r : Held),
    let x := (s.settle c k).seat c k
    k < 4 → s.lmem.wf = true → (s.core c).hinst = some i →
    (s.seat c k).hnd = false → (∀ j, 56 ≤ j → j < 64 → x.full j = true) → x.segb < 2 ^ 16 → x.ending = false →
    let u := s.takeTrap { core := c, seat := k, strn := st } t false
    (u.seat c k).held = some r →
    let y := (u.leaveHandler c k r).seat c k
    y.hnd = false ∧ y.main.pc = x.main.pc ∧ y.main.rep = x.main.rep ∧ (y.strand st).pc = (x.strand st).pc ∧
    (y.strand st).rep = (x.strand st).rep ∧ (∀ j, j < 64 → y.reg j = x.reg j) ∧
    (∀ j, j < 8 → y.p j = x.p j) ∧ y.ftz = x.ftz ∧ y.fstat = x.fstat ∧ y.segb = x.segb ∧ y.curdom = x.curdom ∧
    (∀ n, y.view n = x.view n)

/-- R203, R212: inside a handler every trap, and on a core without a handler any trap, is a double fault that halts the core;
a handler's instruction of families 0x4 to 0x8, 0xC, 0xD is one. That such an instruction leaves ECAUSE as it stands is the
model's choice (log 109): no rule names a code for it. -/
def Obligations.DoubleFaultHaltsCore : Prop :=
  ∀ (s : State) (a : Agent) (t : Trap) (save : Bool) (i : Instr),
    ((s.seat a.core a.seat).hnd = true ∨ (s.core a.core).hinst = none →
      ((s.takeTrap a t save).core a.core).halted = true) ∧
    (barred i = true → guardOk (headOf i) s.me = true → s.me.hnd = true →
      exec i s = .next (s.doubleFault s.cur.core s.cur.seat) ∧
      ((s.doubleFault s.cur.core s.cur.seat).core s.cur.core).halted = true ∧
      ((s.doubleFault s.cur.core s.cur.seat).seat s.cur.core s.cur.seat).ecause = s.me.ecause)

/-- R203, R204, R217, R360, R363, R396: WAIT answers 1 as soon as the word differs, or a store has made it differ while it
slept, 0 when its time has passed, and sleeps otherwise; holds, timeouts and the end of a slice do what their rules say. -/
def Obligations.WaitsAndTimers : Prop :=
  ∀ (h h' : Head) (tmo d off v o w c k : Nat) (e : Bool) (st : StrandK) (a b : Src) (bs : List Byte) (r : Held) (p : Pair) (s s0 s1 s2 : State),
    let g : Agent := { core := c, seat := k }
    (Runs h s → readN64 2 a s = .ok off s0 → readN64 3 b s0 = .ok v s1 →
      (s1.me.main.blk = .timed o w (some e) →
        exec (.wait h tmo d a b) s = .next (((s1.modMe (fun x => x.setP d e)).setBlk s1.cur .none).advance h)) ∧
      ((∀ o w e, s1.me.main.blk ≠ .timed o w (some e)) → localImage 2 off 8 s1 = .ok bs s2 →
        (leNat bs ≠ v → exec (.wait h tmo d a b) s = .next (((s2.modMe (fun x => x.setP d true)).setBlk s2.cur .none).advance h)) ∧
        (leNat bs = v → exec (.wait h tmo d a b) s = .next (s2.setBlk s2.cur (.timed off v none))))) ∧
    ((s.seat c k).occ = .thread → (s.seat c k).main.blk = .timed o w none → (s.core c).seatStopped k = false →
      s.nextInstr g = .ok (.wait h' tmo d a b) → tmo ≠ 0 →
      exec (.waitTimeout c k) s = .next (s.setBlk g (.timed o w (some false)))) ∧
    (k < 4 → exec (.issueHoldExpiry c k st) s =
      .next (s.modStrand { core := c, seat := k, strn := st } (fun t => { t with hold := false }))) ∧
    ((s.seat c k).holds = true → (s.seat c k).hnd = false → (s.seat c k).cyc = 0 → (s.quota (s.seat c k).vdev).fixed = false →
      (s.core c).pre = none → exec (.quotaExpiry c k) s = .next (s.preempt c .slice)) ∧
    ((s.seat c k).holds = true → (s.seat c k).hnd = false → (s.seat c k).cyc = 0 → (s.quota (s.seat c k).vdev).fixed = false →
      (s.core c).pre = none → (s.core c).gang = none → (s.core c).running = true →
      exec (.quotaExpiry c k) s = .next (s.modCore c (fun x => { x with pre := some .slice }))) ∧
    ((s.seat c k).occ = .thread → (s.seat c k).hnd = true → (s.seat c k).held = some r → r.save = false →
      exec (.handlerTimeout c k) s = .next (s.doubleFault c k)) ∧
    ((s.seat c k).seq = .saving v true ∨ (s.seat c k).seq = .restoring v true →
      exec (.savefaultTimeout c k) s = .next (s.teardown (s.seat c k).vdev)) ∧
    ((s.core c).pair = some p → p.on = false → s.pairSeat c .pairing = some k →
      exec (.chkpTimeout c) s = .next ((s.modCore c (fun y => { y with pair := none })).finishMain c k (some (p.pd, false)))) ∧
    (∀ j, (s.core c).pair = some p → s.pairSeat c .unpairing = some k → (s.core p.mate).onlySeat = some j →
      (s.seat p.mate j).hnd = false → (s.seat p.mate j).topFull = true → p.on = true → p.bye = true → (s.seat c k).hnd = false →
      let t := { (s.modCore c (fun y => { y with pair := some { p with bye := false } })).setBlk g .none with cur := g }
      exec (.chkxTimeout c) s = .next { t.mismatch c p.mate 0 0 with cur := s.cur })

namespace Sys2Proof.Say
/-- The main strand of the issuer waits in `b` after the hints of its word. -/
def waits (h : Head) (b : Blk) (s : State) : State := (s.hints h).setBlk s.cur b

/-- A core has no place in a gang of a leader and a shape: it is in a gang or a pair, or a thread of it names another shape
for that leader (R364). -/
def Clash (x : Core) (l w ht : Nat) : Prop :=
  x.gang ≠ none ∨ (∃ p, x.pair = some p ∧ p.on = true) ∨
  ∃ k a b d, k < 4 ∧ (x.seat k).occ = .thread ∧ (x.seat k).asks = some (l, a, b, d) ∧ (a ≠ w ∨ b ≠ ht)

/-- A seat after a wait of its thread's main strand has ended with a predicate: it goes on behind that instruction, or will when
its handler returns (R202, R363, R364). -/
def answered (x : Seat) (pd : Nat) (v : Bool) : Seat :=
  match x.held with
  | none => ((x.setP pd v).modStrand .main (fun t => { t with blk := .none })).advance .main
  | some h =>
    let m : Strand := Strand.advance { pc := h.mpc, rep := h.mrep }
    { x with held := some { h with fins := h.fins ++ [(none, some (pd, v))], mpc := m.pc, mrep := m.rep, mblk := .none } }

/-- R363: a refusal of the partner that waits in CHKP ends its wait with pD := 0 and couples its core with none. -/
def pairRefusal : Prop :=
  ∀ (m j : Nat) (q : Pair) (t : State), (t.core m).pair = some q → (t.core m).pairAsker = some j →
    let u := t.refusePair m
    (u.core m).pair = none ∧ (∀ n, n ≠ m → u.core n = t.core n) ∧
    ((t.seat m j).main.blk = .pairing → (t.seat m j).held = none → u.seat m j = answered (t.seat m j) q.pd false) ∧
    (∀ r, (t.seat m j).held = some r → (t.seat m j).main.blk = .none → u.seat m j = answered (t.seat m j) q.pd false)

/-- R25, R364: what the start, the refusal and the end of a gang leave in pD, LEAD, GANG, the gang register and the PC of every
member, and that they touch no other core. -/
def gangMembers : Prop :=
  ∀ (l w ht n k pd a b : Nat) (g : Gang) (cs : List Nat) (t : State),
    (n ∈ cs → k ∈ (t.core n).askers l → (t.seat n k).asks = some (l, a, b, pd) →
      (t.refuseGang l cs).seat n k = answered (t.seat n k) pd false) ∧
    (n ∉ cs → (t.refuseGang l cs).core n = t.core n ∧ (t.startGang l w ht cs).core n = t.core n) ∧
    (n ∈ cs → cs.Nodup → (t.core n).joins l w ht = some k → (t.seat n k).asks = some (l, w, ht, pd) →
      let u := t.startGang l w ht cs
      let y := answered (t.seat n k) pd true
      u.seat n k = { y with lead := n == l, gang := n != l } ∧
      (u.core n).gang = some { leader := l, w := w, h := ht, seat := k, gdone := false, ret := y.main.pc }) ∧
    ((t.core n).gang = some g → g.leader = l → g.seat < 4 →
      let u := t.endGang l
      let x := t.seat n g.seat
      let y := u.seat n g.seat
      (u.core n).gang = none ∧ y.lead = false ∧ y.gang = false ∧ (∀ i, y.reg i = x.reg i) ∧ (∀ i, y.p i = x.p i) ∧
      (n = l → y.main = x.main ∧ y.held = x.held) ∧
      (n ≠ l → x.held = none → y.main = { x.main with pc := g.ret }) ∧
      (∀ r, n ≠ l → x.held = some r → y.main = x.main ∧ ∃ r', y.held = some r' ∧ r'.mpc = g.ret)) ∧
    ((∀ g, (t.core n).gang = some g → g.leader ≠ l) → (t.endGang l).core n = t.core n)

/-- Cores of the other rectangles that threads waiting for the leader l name and in which core c lies (R364). -/
def otherRectangles : Prop :=
  ∀ (l w ht c n : Nat) (t : State), n ∈ t.otherShapes l w ht c ↔
    ∃ m y k a b pd cs, (m, y) ∈ t.cores ∧ k < 4 ∧ (y.seat k).occ = .thread ∧ (y.seat k).asks = some (l, a, b, pd) ∧
      (a ≠ w ∨ b ≠ ht) ∧ t.rectangle (y.seat k).vdev l a b = some cs ∧ c ∈ cs ∧ n ∈ cs

/-- The issuer's trap that names no operand or operand n and a value. -/
def trapped (s : State) (c : Cause) (n v : Nat) : Out :=
  .next (s.takeTrap s.cur { cause := c, opnd := n, val := BitVec.ofNat 64 v } false)

/-- SIGCORE's target n: mapped, of the issuer's device, named by domain 0 (R366). -/
def Target (a : Src) (n : Nat) (s s1 : State) : Prop :=
  s.me.curdom = 0 ∧ readN64 2 a s = .ok n s1 ∧ s1.mapped n = true ∧ s1.holdsCore s.me.vdev n = true

/-- A page of a domain lies in the scope of a TLBINV (R361). -/
def Covers (sc : InvScope) (dom va edom lo bits : Nat) : Prop :=
  match sc with
  | .vdev => True
  | .dom => edom = dom
  | .page => edom = dom ∧ va / 2 ^ bits = lo / 2 ^ bits

/-- A cached translation lies in the scope of a TLBINV of a virtual device (R361). -/
def Scope (sc : InvScope) (vd dom va : Nat) (e : TlbEntry) : Prop := e.vdev = vd ∧ Covers sc dom va e.dom e.va e.bits

/-- An access of a virtual device that was translated in the scope and is not yet performed outside its core. -/
def UnderWay (s : State) (sc : InvScope) (vd dom va : Nat) : Prop :=
  ∃ a ∈ s.flight, a.vdev = vd ∧ ∃ p ∈ a.pieces, p.sent = true ∧ (∀ n, p.home ≠ .bank n) ∧ Covers sc dom va p.tdom p.tva 30

/-- A walk of a virtual device in the scope that began no later than a number of the access order. -/
def Walking (s : State) (sc : InvScope) (vd dom va num : Nat) : Prop :=
  ∃ w ∈ s.walks, w.vdev = vd ∧ w.num ≤ num ∧ Covers sc dom va w.dom w.va 30
end Sys2Proof.Say

/-- R190, R201, R361, R362, R377: TLBINV takes its number on XTL; it completes once no access translated in its scope is still
to be performed and no walk of the scope begun before it goes on: its completion removes what lies in its scope and advances
XTL. HINST installs a handler whose every granule qualifies, while no other seat's handler runs. Outside domain 0 they raise
PRIVILEGE. The model's choices: the EVAL 0 of PRIVILEGE and of an absent or unwanted operand (log 25), and that TLBINV goes by the
acting domain (log 48). -/
def Obligations.TlbinvAndHinst : Prop :=
  ∀ (h : Head) (d va dom n num c : Nat) (a b : Src) (a' b' : Option Src) (sc : InvScope) (u v : Word)
    (rest : List (Nat × InvScope × Nat × Nat × Nat)) (e : TlbEntry) (s s0 s1 : State), Runs h s →
    (s.me.who.dom = 0 → Dest d s1 → let vd := s.me.vdev
      let m := ((s1.vd vd).xiss + 1) % 2 ^ 56
      let done := fun (sc : InvScope) (dom va : Nat) => (.next (((s1.modMe (fun x => x.setReg d (BitVec.ofNat 64 m))).modVd vd
        (fun y => { y with xiss := m, invs := y.invs ++ [(m, sc, dom, va, s1.accNum)] })).advance h) : Out)
      (readN64 2 a s = .ok va s0 → readN64 3 b s0 = .ok dom s1 →
        (dom < (s.quota vd).dcap → exec (.tlbinv h .page d (some a) (some b)) s = done .page dom va ∧
          exec (.tlbinv h .dom d (some a) (some b)) s = done .dom dom va) ∧
        ((s.quota vd).dcap ≤ dom → exec (.tlbinv h .page d (some a) (some b)) s = trapped s .operand 3 dom)) ∧
      (readN64 3 b s = .ok dom s1 →
        (dom < (s.quota vd).dcap → exec (.tlbinv h .dom d none (some b)) s = done .dom dom 0) ∧
        ((s.quota vd).dcap ≤ dom → exec (.tlbinv h .dom d none (some b)) s = trapped s .operand 3 dom)) ∧
      (s1 = s → exec (.tlbinv h .vdev d none none) s = done .vdev 0 0) ∧
      exec (.tlbinv h .page d none b') s = trapped s .operand 2 0 ∧
      exec (.tlbinv h .page d (some a) none) s = trapped s .operand 3 0 ∧
      exec (.tlbinv h .dom d a' none) s = trapped s .operand 3 0 ∧
      exec (.tlbinv h .vdev d (some a) b') s = trapped s .operand 2 0 ∧
      exec (.tlbinv h .vdev d none (some b)) s = trapped s .operand 3 0) ∧
    (s.me.who.dom ≠ 0 → exec (.tlbinv h sc d a' b') s = denied s 0) ∧
    ((s.vd c).invs = (n, sc, dom, va, num) :: rest →
      (UnderWay s sc c dom va ∨ Walking s sc c dom va num → exec (.tlbinvComplete c) s = .next s) ∧
      (¬ UnderWay s sc c dom va → ¬ Walking s sc c dom va num → (∀ x ∈ s.cores, x.2.enginesOpen c = false) →
        ∃ t, exec (.tlbinvComplete c) s = .next t ∧ (t.vd c).xtl = n ∧ (t.vd c).invs = rest ∧
        (∀ k, e ∈ (t.core k).tlb ↔ e ∈ (s.core k).tlb ∧ ¬ Scope sc c dom va e) ∧
        ∀ k, e ∈ mapGet [] k t.dieTlb ↔ e ∈ mapGet [] k s.dieTlb ∧ ¬ Scope sc c dom va e)) ∧
    (s.me.curdom = 0 → readPair 2 a s = .ok (u, v) s1 → u.toNat / 2 ^ 13 % 2 ^ 3 = 0 → u.toNat / 2 ^ 48 = 0 →
      v.toNat / 2 ^ 34 = 0 →
      let r : HRec := { hseg := u.toNat % 2 ^ 13, hent := u.toNat / 2 ^ 16 % 2 ^ 32, hbnd := v.toNat % 2 ^ 16
                        hdata := v.toNat / 2 ^ 16 % 2 ^ 18 }
      r.hbnd ≠ 0 → r.hdata % 1024 = 0 → r.hent < r.hbnd →
      ((∀ g ∈ r.cover, s1.handlerGranule s1.cur.core s.me.vdev g = true) →
        ((∀ k, k < 4 → k ≠ s1.cur.seat → (s1.myCore.seat k).hnd = false) →
          exec (.hinst h a) s = .next ((s1.modMyCore (fun y => { y with hinst := some r })).advance h)) ∧
        ((∃ k, k < 4 ∧ k ≠ s1.cur.seat ∧ (s1.myCore.seat k).hnd = true) → exec (.hinst h a) s = .next s)) ∧
      (∀ g l l', r.cover = l ++ g :: l' → (∀ g' ∈ l, s1.handlerGranule s1.cur.core s.me.vdev g' = true) →
        s1.handlerGranule s1.cur.core s.me.vdev g = false → exec (.hinst h a) s = trapped s .operand 2 g)) ∧
    (s.me.curdom ≠ 0 → exec (.hinst h a) s = denied s 0)

/-- R25, R210, R363, R364: CHKP and CHKX of the two neighbours make and end a pair, FOLLOW and UNFOLLOW a gang; the first to come
waits for the other. CHKP is refused where the core, or the partner that answers, does not hold one thread outside a gang, or
the core is in a pair: both get pD := 0. FOLLOW is refused where the rectangle leaves the die or the virtual device, or a core of
it is in a gang or a pair or names another shape: every thread of the rectangles concerned that has issued FOLLOW gets pD := 0. At
the start of a gang pD is 1 on every member, LEAD 1 on the leader, GANG 1 on the followers; at its end each follower goes on after
its FOLLOW. A thread outside the rectangle that it names is refused with the rectangles in which its core lies (log 35). The
model's choices (log 25): EVAL 0 with CHKP's PRIVILEGE and UNFOLLOW's OPERAND, and FOLLOW's EVAL, the descriptor word DSP. A
partner whose wait for CHKP is found nowhere leaves the issuer waiting. -/
def Sys2Proof.Say.pairsAndGangs : Prop :=
  ∀ (h : Head) (d dir m j w ht l : Nat) (a : Src) (p q : Pair) (cs : List Nat) (s s1 : State), Runs h s →
    let c := s.cur.core
    (s.me.curdom = 0 → readN64 2 a s = .ok dir s1 → s1.cur = s.cur →
      (4 ≤ dir → exec (.chkp h d a) s = trapped s .operand 2 dir) ∧
      (dir < 4 → neighbour c dir 1 = none → exec (.chkp h d a) s = denied s 0) ∧
      (dir < 4 → neighbour c dir 1 = some m → s1.holdsCore s.me.vdev m = false ∨ dieOf m ≠ dieOf c →
        exec (.chkp h d a) s = denied s 0) ∧
      (dir < 4 → neighbour c dir 1 = some m → s1.holdsCore s.me.vdev m = true → dieOf m = dieOf c →
        let mine : Pair := { dir := dir, mate := m, on := false, bye := false, pd := d }
        let fit := s1.myCore.pair = none ∨ s.me.main.blk = .pairing ∧ ∃ p', s1.myCore.pair = some p' ∧ p'.on = false
        let alone := fun (x : Core) => (∃ k, x.onlySeat = some k) ∧ x.gang = none
        let refused := (s1.modMe (fun x => x.setP d false)).setBlk s1.cur .none
        let t := if s1.myCore.pair = none ∨ s.me.main.blk = .pairing ∧ (s1.myCore.pair.all (fun p => !p.on)) = true then
          refused.modMyCore (fun y => { y with pair := none }) else refused
        (fit → alone s1.myCore →
          ((∀ q, (s1.core m).pair = some q → q.on = true ∨ q.mate ≠ c ∨ q.dir ≠ (dir + 2) % 4) →
            exec (.chkp h d a) s = .next (waits h .pairing (s1.modMyCore (fun y => { y with pair := some mine })))) ∧
          ((s1.core m).pair = some q → q.on = false → q.mate = c → q.dir = (dir + 2) % 4 →
            ((s1.core m).pairAsker = none → exec (.chkp h d a) s = .next (waits h .pairing s1)) ∧
            ((s1.core m).pairAsker = some j → alone (s1.core m) → exec (.chkp h d a) s = .next ((((((s1.modMyCore
              (fun y => { y with pair := some { mine with on := true } })).modCore m (fun y =>
                { y with pair := y.pair.map (fun q => { q with on := true }) })).finishMain m j (some (q.pd, true))).modMe
                  (fun x => x.setP d true)).setBlk s1.cur .none).advance h)) ∧
            ((s1.core m).pairAsker = some j → ¬ alone (s1.core m) → exec (.chkp h d a) s = .next ((((((s1.modMyCore
              (fun y => { y with pair := none })).modCore m (fun y => { y with pair := none })).finishMain m j
                (some (q.pd, false))).modMe (fun x => x.setP d false)).setBlk s1.cur .none).advance h)))) ∧
        (¬ (fit ∧ alone s1.myCore) →
          ((s1.core m).pair = some q → q.on = false → q.mate = c → q.dir = (dir + 2) % 4 →
            exec (.chkp h d a) s = .next ((t.refusePair m).advance h)) ∧
          ((∀ q, (s1.core m).pair = some q → q.on = true ∨ q.mate ≠ c ∨ q.dir ≠ (dir + 2) % 4) →
            exec (.chkp h d a) s = .next (t.advance h))))) ∧
    (s.me.curdom ≠ 0 → exec (.chkp h d a) s = denied s 0) ∧
    (s.myCore.pair = none ∨ (∃ p, s.myCore.pair = some p ∧ p.on = false) → exec (.chkx h) s = trapped s .operand 0 0) ∧
    (s.myCore.pair = some p → p.on = true →
      ((s.core p.mate).pair = some q → q.bye = true → s.pairSeat p.mate .unpairing = some j →
        exec (.chkx h) s = .next ((((((s.modMyCore (fun y => { y with pair := none })).modCore p.mate (fun y =>
          { y with pair := none })).finishMain p.mate j none).setBlk s.cur .none)).advance h)) ∧
      ((s.core p.mate).pair = none ∨ s.pairSeat p.mate .unpairing = none →
        exec (.chkx h) s = .next (waits h .unpairing (s.modMyCore (fun y => { y with pair := some { p with bye := true } }))))) ∧
    (s.me.depth ≠ 0 ∨ s.me.hnd = true →
      exec (.follow h w ht d a) s = trapped s .operand 0 (s.me.depth + s.me.frames.length * 2 ^ 7 + s.me.limit * 2 ^ 20)) ∧
    (s.me.depth = 0 → s.me.hnd = false → readN64 2 a s = .ok l s1 → s1.cur = s.cur →
      let r := s1.rectangle s.me.vdev l (w + 1) (ht + 1)
      let others := s1.otherShapes l (w + 1) (ht + 1) c
      let refused := fun (ns : List Nat) => (.next ((((s1.setBlk s1.cur .none).refuseGang l ns).modMe
        (fun x => x.setP d false)).advance h) : Out)
      (r = none ∨ r = some cs ∧ c ∉ cs → exec (.follow h w ht d a) s = refused others) ∧
      (r = some cs → c ∈ cs →
        ((∃ n ∈ cs, Clash (s1.core n) l (w + 1) (ht + 1)) ∨ others ≠ [] →
          exec (.follow h w ht d a) s = refused (cs ++ others)) ∧
        ((∀ n ∈ cs, ¬ Clash (s1.core n) l (w + 1) (ht + 1)) → others = [] →
          let t := waits h (.following l (w + 1) (ht + 1) d) s1
          ((∀ n ∈ cs, ∃ k, (t.core n).joins l (w + 1) (ht + 1) = some k) →
            exec (.follow h w ht d a) s = .next (t.startGang l (w + 1) (ht + 1) cs)) ∧
          ((∃ n ∈ cs, (t.core n).joins l (w + 1) (ht + 1) = none) → exec (.follow h w ht d a) s = .next t)))) ∧
    (s.me.lead = true → exec (.unfollow h) s = .next ((s.advance h).endGang s.cur.core)) ∧
    (s.me.lead = false → exec (.unfollow h) s = .next (s.takeTrap s.cur { cause := .operand } false))

/-- R25, R210, R363, R364: CHKP, CHKX, FOLLOW and UNFOLLOW, and what they leave in every core concerned. EVAL of their traps is the model's choice (log 25), as is log 35. -/
def Obligations.PairsAndGangs : Prop :=
  Say.pairRefusal ∧ Say.gangMembers ∧ Say.otherRectangles ∧ Say.pairsAndGangs

/-- R74, R173, R204, R205, R366: SIGCORE.pre pre-empts the named core, its gang at one instruction boundary (R26); .spawn starts
a thread from its descriptor on a free seat and answers 0 where the seat is taken; .res restores a saved thread and answers 0
where there is none or it cannot run. Outside domain 0 they raise PRIVILEGE. The model's choices: EVAL and OPND of PRIVILEGE and ADDRESS
(log 25), the EVAL of a descriptor breach, and that the spawned thread's QUEUE is its launch's (log 78). -/
def Obligations.SigcoreActsOnTarget : Prop :=
  ∀ (h : Head) (pst n va k : Nat) (a b : Src) (bs : List Byte) (im : SavedImage) (s s1 s2 s3 : State), Runs h s →
    (s.me.curdom ≠ 0 → exec (.sigcorePre h pst a) s = denied s 0 ∧ exec (.sigcoreSpawn h pst a b) s = denied s 0 ∧
      exec (.sigcoreRes h pst a b) s = denied s 0) ∧
    (s.me.curdom = 0 → readN64 2 a s = .ok n s1 → ∀ c v, (s1.mapped n = false ∧ c = Cause.address ∧ v = n) ∨
        (s1.mapped n = true ∧ s1.holdsCore s.me.vdev n = false ∧ c = Cause.operand ∧ v = n) →
      exec (.sigcorePre h pst a) s = trapped s c 2 v ∧ exec (.sigcoreSpawn h pst a b) s = trapped s c 2 v ∧
      exec (.sigcoreRes h pst a b) s = trapped s c 2 v) ∧
    (Target a n s s1 →
    (exec (.sigcorePre h pst a) s = .next (((s1.modMe (fun x => x.setP pst true)).advance h).preempt n .sigcore)) ∧
    (readN64 3 b s1 = .ok va s2 → va % 64 ≠ 0 → exec (.sigcoreSpawn h pst a b) s = trapped s .operand 3 va) ∧
    (readN64 3 b s1 = .ok va s2 → va % 64 = 0 → seatRead { vdev := s2.me.vdev, dom := 0, win := none } va 64 s2 =
      .ok bs s3 → k = numAt bs 0xA 1 →
      (spawnOk s3 s2.me.vdev bs = false → exec (.sigcoreSpawn h pst a b) s = trapped s .operand 3 va) ∧
      (spawnOk s3 s2.me.vdev bs = true →
      ((s3.seat n k).occ = .thread →
        exec (.sigcoreSpawn h pst a b) s = .next ((s3.modMe (fun x => x.setP pst false)).advance h)) ∧
      ((s3.seat n k).occ ≠ .thread → exec (.sigcoreSpawn h pst a b) s = .next (((s3.startThread n k
        { pc := ⟨numAt bs 0 8 / 2 ^ 32 % 2 ^ 13, numAt bs 0 8 % 2 ^ 32⟩, segb := numAt bs 8 2, vdev := s2.me.vdev
          dom := numAt bs 0x38 2, lid := numAt bs 0xC 4
          queue := ((s3.launch s2.me.vdev (numAt bs 0xC 4)).map (fun l => l.queue)).getD 0, limit := numAt bs 0xB 1, image := numAt bs 0x10 8
          args := (upto 4).map (fun i => BitVec.ofNat 64 (numAt bs (0x18 + 8 * i) 8)) }).modMe
            (fun x => x.setP pst true)).advance h)))) ∧
    (readN64 3 b s1 = .ok va s2 →
      ((∀ i ∈ (s2.vd s2.me.vdev).saved, ¬ (i.core = n ∧ i.image = va)) →
        (∀ k, k < 4 → ¬ ((s2.seat n k).vdev = s2.me.vdev ∧ (s2.seat n k).image = va)) →
        exec (.sigcoreRes h pst a b) s = .next ((s2.modMe (fun x => x.setP pst false)).advance h)) ∧
      (s2.savedImage s2.me.vdev n va = some im →
        (s2.imgTaken im = true ∨ (s2.seat im.core im.seat).seq ≠ .none ∨ (s2.core n).halted = true ∨
          (∃ v, s2.istate s2.me.vdev im = some v ∧ v ≠ 1) →
          exec (.sigcoreRes h pst a b) s = .next ((s2.modMe (fun x => x.setP pst false)).advance h)) ∧
        (s2.imgTaken im = false → (s2.seat im.core im.seat).seq = .none → (s2.core n).halted = false →
          (∀ v, s2.istate s2.me.vdev im = some v → v = 1) → im ∈ (s2.vd s2.me.vdev).saved →
          exec (.sigcoreRes h pst a b) s =
            .next (((s2.modMe (fun x => x.setP pst true)).advance h).restoreSeat s2.me.vdev im)) ∧
        (s2.imgTaken im = false → (s2.seat im.core im.seat).seq = .none → (s2.core n).halted = false →
          (∀ v, s2.istate s2.me.vdev im = some v → v = 1) → im ∉ (s2.vd s2.me.vdev).saved →
          let t := (s2.modMe (fun x => x.setP pst true)).advance h
          exec (.sigcoreRes h pst a b) s = .next (({ t.modVd s2.me.vdev (fun v => { v with saved := v.saved ++ [im] }) with
            fresh := t.fresh + 1 } : State).restoreSeat s2.me.vdev im)))))

/-! ## Operations that retire, saves, turns -/

namespace Sys2Proof.Say
/-- The place that a check and translation of a spot answered in some state of the run. -/
def Placed (c : Nat) (w : Who) (k : Right) (st : Bool) (p : Spot) (x : Loc) : Prop := ∃ u u' : State, p.place c w k st u = .ok x u'

/-- The moves of a group are those of its rows. -/
def OfRows (rows : List Nat) (f : Nat → M (List Mv)) (ms : List Mv) : Prop :=
  (∀ r ∈ rows, ∃ l u u', f r u = .ok l u' ∧ ∀ m ∈ l, m ∈ ms) ∧ ∀ m ∈ ms, ∃ r ∈ rows, ∃ l u u', f r u = .ok l u' ∧ m ∈ l

/-- R44, R147, R289, R300, R303: where the ends of a move stand: a tensor's element at its coordinate, a view's in its line, and the
coordinate of a view's element from the origin, or from its row's index. -/
def engineSpots : Prop :=
  ∀ (t : Tensor) (v b : View) (o : CopyOp) (x : Nat → Nat → Option (List Int)) (p : Spot) (i j c a0 a1 a2 : Nat) (o0 o1 o2 o3 : Int)
    (x0 x1 x2 x3 : Nat) (tr wr : Bool) (s : State),
    ((tensEnd t x).loc i j = some p ↔ ∃ q : List Int, x i j = some q ∧ (∀ (k : Nat) (n : Int) (d : Nat), q[k]? = some n → t.dims[k]? = some d → 0 ≤ n ∧ n < (d : Int)) ∧
      p = .mem (t.bitPos q / 8) (t.bitPos q % 8) (fmtWidth t.fm)) ∧
    (t.strs = [a0, a1, a2] → t.bitPos [(x0 : Int), x1, x2, x3] =
      (8 * (t.base + x1 * a0 + x2 * a1 + x3 * a2) + (if isBlock t.fm
        then 8 * (x0 / 128 * (16 + 16 * fmtWidth t.fm) + 16) + x0 % 128 * fmtWidth t.fm else x0 * fmtWidth t.fm)) % 2 ^ 67) ∧
    (v.layout < 2 → ∃ pad, (viewEnd v wr).loc i j = some (.here (⟨v.bitPos i j, fmtWidth v.fm⟩ :: pad)) ∧ (wr = false → pad = [])) ∧
    coord [o0, o1, o2, o3] tr i j = (if tr then [o0 + i, o1 + j, o2, o3] else [o0 + j, o1 + i, o2, o3]) ∧
    (o.idx = none → o.place s c i j = some (coord o.org o.t i j)) ∧
    (o.idx = some b → o.org = [o0, o1, o2, o3] → o.place s c i j =
      if i < b.vrows ∧ 1 ≤ b.vcols then some [o0 + j, elemInt b.fm (s.elemBits c b i 0), o2, o3] else none)

/-- R45, R300: in a row, every element of the destination receives the source's, or zero where a load has none; a block of a block
format receives the header of the block its elements come from; nothing else moves. -/
def engineMoves : Prop :=
  ∀ (c r n : Nat) (w : Who) (f : Fmt) (adds zero : Bool) (src dst : End) (ms : List Mv) (s s1 : State),
    rowMoves c w f adds zero src dst r n s = .ok ms s1 →
    let wk : Right := if adds then .rw else .w
    let El := fun (j : Nat) (m : Mv) => ∃ d, dst.loc r j = some d ∧ Placed c w wk (!adds) d m.dst ∧
      ((∃ x l, src.loc r j = some x ∧ Placed c w .r false x l ∧ m.src = .loc l ∧ m.elem = true) ∨
        (src.loc r j = none ∧ zero = true ∧ m.src = .num 0 ∧ m.elem = false))
    (∀ j, j < n → dst.loc r j ≠ none → zero = true ∨ src.loc r j ≠ none → ∃ m ∈ ms, El j m) ∧
    (isBlock f = false → ∀ m ∈ ms, ∃ j, j < n ∧ El j m) ∧
    (isBlock f = true → ∀ j, j < n → dst.loc r j ≠ none → src.loc r j ≠ none →
      (∀ i k, i < n → k < n → dst.loc r i ≠ none → src.loc r i ≠ none → dst.blk r i = dst.blk r j → dst.loc r k ≠ none →
        src.loc r k ≠ none → dst.blk r k = dst.blk r j → src.blk r i = src.blk r k) →
      ∃ m ∈ ms, ∃ i k l, dst.blk r i = dst.blk r j ∧ dst.blk r k = dst.blk r j ∧ Placed c w wk (!adds) (dst.hdr r i) m.dst ∧
        m.src = .loc l ∧ Placed c w .r false (src.hdr r k) l ∧ m.elem = false)

/-- R300 to R306: a row group of CPY.ld or CPYG moves tensor elements into the view's valid rows, one of CPY.st, CPYS or CPYADD the
view's into the tensor, one of CPYX those of one tensor into the other, 8 rows at a time; it waits for earlier accesses of its
strand to the homes it reaches (R299, R301). -/
def copyGroups : Prop :=
  ∀ (o : CopyOp) (c g nrows ncols : Nat) (t2 : Tensor) (org2 : List Int) (adds : Bool) (ms : List Mv) (s s1 : State),
    let w := o.space.who
    let v := o.view
    let tens := tensEnd o.tens (o.place s c)
    (o.plan c g s = .ok ms s1 →
      (o.kind = .move t2 org2 nrows ncols adds → OfRows (grpRows nrows g) (fun r => rowMoves c w o.tens.fm adds false
        (tensEnd o.tens (fun r j => some (coord o.org false r j))) (tensEnd t2 (fun r j => some (coord org2 o.t r j))) r ncols) ms) ∧
      (o.kind = .load ∨ o.kind = .gather → OfRows ((grpRows v.vrows g).filter (fun i => !o.idxBad s c i))
        (fun r => rowMoves c w v.fm false true tens (viewEnd v true) r v.vcols) ms) ∧
      (o.kind = .store ∨ o.kind = .scatter → OfRows ((grpRows v.vrows g).filter (fun i => !o.idxBad s c i))
        (fun r => rowMoves c w v.fm false false (viewEnd v false) tens r v.vcols) ms) ∧
      (o.kind = .add → OfRows ((grpRows v.vrows g).filter (fun i => !o.idxBad s c i))
        (fun r => rowMoves c w v.fm true false (viewEnd v false) tens r v.vcols) ms)) ∧
    (∀ r, r ∈ grpRows nrows g ↔ 8 * g ≤ r ∧ r < 8 * g + 8 ∧ r < nrows) ∧
    (o.plan c o.group s = .ok ms s1 →
      let busy := s1.earlier c o.seat o.strn o.before (homesOf ms ++ if o.idx.isSome then [.bank c] else [])
      (busy = true → o.runGroup c s = .error (none, s)) ∧
      (busy = false → (∀ i ∈ grpRows v.vrows o.group, o.idxBad s c i = false) →
        o.runGroup c s = .ok (s1.doMoves (if o.fills then v.fm else o.tens.fm) o.c o.adds ms)))

/-- R300, R304, R306, R307: what a group's moves leave where none meets an error: each destination holds the source's bits,
conjugated under C, or the sum at the home of an add; no other byte of memory has changed. -/
def movesPerformed : Prop :=
  ∀ (f : Fmt) (cj adds : Bool) (ms : List Mv) (s : State), s.lmem.wf = true → s.dram.wf = true → s.host.wf = true →
    s.fabric.wf = true → (∀ m ∈ ms, m.srcBad s = false ∧ m.atHost adds = false ∧ ∀ x ∈ m.dst, x.bad s = []) →
    FragsApart (ms.flatMap (fun m => m.dst)) →
    let t := (s.doMoves f cj adds ms).1
    (s.doMoves f cj adds ms).2 = 0 ∧
    (∀ m ∈ ms, let x := if m.elem then conjEl f cj (m.src.get s) else m.src.get s
      Loc.read t m.dst = (if adds && m.elem then addEl f (Loc.read s m.dst) x else x) % 2 ^ (m.dst.map (fun y => y.len)).sum) ∧
    (∀ h a, (∀ y ∈ ms.flatMap (fun m => m.dst), memKind y.home ≠ memKind h ∨ a < y.abs / 8 ∨ (y.abs + y.len + 7) / 8 ≤ a) →
      memRead (t.homeMem h) a = memRead (s.homeMem h) a) ∧
    t.acc = s.acc ∧ t.cores = s.cores

/-- R304: the adds at the home: modulo 2^w on integers, rounded to nearest on reals, by component on complex numbers. -/
def addsAtHome : Prop :=
  ∀ (f : Fmt) (m v : Nat),
    (isInt f = true → addEl f m v = (m + v) % 2 ^ fmtWidth f) ∧
    (isFL f = true → addEl f m v = (roundF f false .rne .sat (fAdd .rne (decodeF f false m) (decodeF f false v)).1).1) ∧
    (isCX f = true → addEl f m v = pairUp f (addEl (compOf f) (comps f m).1 (comps f v).1) (addEl (compOf f) (comps f m).2 (comps f v).2))

/-- Accumulator cells that a step leaves: `new` in the cells that it names, the rest as before; it changes no memory and no
register but flags. -/
def AccAfter (s t : State) (c : Nat) (o : MatOp) (new : Nat → Nat → Option Nat) : Prop :=
  (∀ i j x, new i j = some x → t.accRead c o.af (o.row0 + i) (o.col0 + j) = x % 2 ^ (8 * accBytes o.af)) ∧
  (∀ a, (∀ i j x, new i j = some x → a < accKey c o.af (o.row0 + i) (o.col0 + j) ∨
    accKey c o.af (o.row0 + i) (o.col0 + j) + accBytes o.af ≤ a) → memRead t.acc a = memRead s.acc a) ∧
  t.dram = s.dram ∧ t.host = s.host ∧ t.fabric = s.fabric ∧ ∀ n, (t.seat c o.seat).reg n = (s.seat c o.seat).reg n

/-- R289, R293, R294: a row group of MMA or MMAC adds to each accumulator cell of the valid rows of A and B the products along the valid
columns, and writes no other cell. -/
def mulGroups : Prop :=
  ∀ (o : MatOp) (c code : Nat) (sat : Bool) (s t : State), o.gid = none → s.lpoison = [] → s.apoison = [] → s.acc.wf = true →
    o.va.ok = true → o.vb.ok = true → o.va.layout = 2 → o.vb.layout = 2 → o.row0 + o.va.vrows ≤ 128 → o.col0 + o.vb.vrows ≤ accCols o.af → o.mulGroup c sat s = .ok code t →
    let n := min (min o.va.vcols o.vb.vcols) (min o.va.cols o.vb.cols)
    let kb := min (kBlock o.va.fm) (kBlock o.vb.fm)
    let real := fun (v : View) (m : SrcMod) i k => let x := s.elemVal c v o.ftz i k; if m.neg then x.negate else x
    let int := fun (v : View) (m : SrcMod) i k => modInt (isSigned v.fm) (fmtWidth v.fm) m (elemInt v.fm (s.elemBits c v i k))
    let cplx := fun (v : View) (m : SrcMod) i k => let p := comps v.fm (modElem v.fm m (s.elemBits c v i k))
      (decodeF (compOf v.fm) false p.1, decodeF (compOf v.fm) false p.2)
    let sum := fun i j => let old := s.accRead c o.af (o.row0 + i) (o.col0 + j)
      match o.af with
      | .i32 => (mmaI sat old ((upto n).map (fun k => (int o.va o.ma i k, int o.vb o.mb j k)))).1
      | .cf32 | .cf64 => (mmaC (accFmt o.af) kb old ((upto n).map (fun k => (cplx o.va o.ma i k, cplx o.vb o.mb j k)))).1
      | _ => (mmaF (accFmt o.af) kb old ((upto n).map (fun k => (real o.va o.ma i k, real o.vb o.mb j k)))).1
    code = 0 ∧ t.lmem = s.lmem ∧ AccAfter s t c o (fun i j =>
      if 8 * o.group ≤ i ∧ i < 8 * o.group + 8 ∧ i < o.va.vrows ∧ j < o.vb.vrows then some (sum i j) else none)

/-- R55 to R58: the sums of MMA and MMAC: k-block by k-block; a block of one product by one fused multiply-add, a longer one by its
exact sum, rounded, then added; complex numbers in four such steps; an integer's exact total added once. -/
def productSums : Prop :=
  ∀ (f : Fmt) (k acc : Nat) (sat : Bool) (l l' : List (FVal × FVal)) (z z' : List ((FVal × FVal) × FVal × FVal)) (q : List (Int × Int))
    (a b : FVal) (u : Int) (xs : List (Int × Int)), 1 ≤ k →
    let rnd := fun (x : FVal) => (roundF f false .rne .sat x).1
    let old := decodeF f false acc
    (mmaF f k acc []).1 = acc ∧ (l.length = k → (mmaF f k acc (l ++ l')).1 = (mmaF f k (mmaF f k acc l).1 l').1) ∧
    (mmaF f 1 acc [(a, b)]).1 = rnd (fFma .rne a b old).1 ∧
    (1 < k → l ≠ [] → l.length ≤ k →
      (mmaF f k acc l).1 = rnd (fAdd .rne old (decodeF f false (rnd (sumProd l).1))).1) ∧
    (l ≠ [] → l.map (fun p => asInts u p.1) = xs.map (fun p => some p.1) → l.map (fun p => asInts u p.2) = xs.map (fun p => some p.2) →
      asInts (2 * u) (sumProd l).1 = some (xs.map (fun p => p.1 * p.2)).sum ∧ (sumProd l).2 = 0) ∧
    ((∃ p ∈ l, ∃ y, (fMul p.1 p.2).1 = .nan y) → ∃ y, (sumProd l).1 = .nan y) ∧
    ((∃ p ∈ l, ∃ r ∈ l, (fMul p.1 p.2).1 = .inf true ∧ (fMul r.1 r.2).1 = .inf false) →
      (∃ y, (sumProd l).1 = .nan y) ∧ (sumProd l).2 &&& fNV = fNV) ∧
    (isCX f = true → z.length ≤ k → z ≠ [] →
      let g := compOf f
      let one := k == 1
      let re := accBlock g one (accBlock g one ((comps f acc).1, 0) (z.map (fun e => (e.1.1, e.2.1)))) (z.map (fun e => (e.1.2.negate, e.2.2)))
      let im := accBlock g one (accBlock g one ((comps f acc).2, 0) (z.map (fun e => (e.1.1, e.2.2)))) (z.map (fun e => (e.1.2, e.2.1)))
      (mmaC f k acc z).1 = pairUp f re.1 im.1) ∧
    (isCX f = true → z.length = k → acc < 2 ^ fmtWidth f → (mmaC f k acc (z ++ z')).1 = (mmaC f k (mmaC f k acc z).1 z').1) ∧
    (acc < 2 ^ 32 → let total := elemInt .int32 acc + (q.map (fun p => p.1 * p.2)).sum
      elemInt .int32 (mmaI sat acc q).1 = (if sat && outside .i32 total then nearest .i32 total else wrapTo .i32 total)) ∧
    kBlock .fp64 = 1 ∧ kBlock .cf64 = 1 ∧ kBlock .fp32 = 4 ∧ kBlock .cf32 = 4 ∧ kBlock .bf16 = 16 ∧ kBlock .fp16 = 16 ∧
    kBlock .int8 = 16 ∧ kBlock .nat8 = 16 ∧ kBlock .int4 = 32 ∧ kBlock .e4m3 = 32 ∧ kBlock .e2m1 = 32

/-- R296 to R298: MZERO clears its group's rows, MLOAD converts the view's valid elements into cells, MDRAIN cells into them, clearing
those cells under CLR; MDRAINC hands the values to the drain port with the places of the tensor's elements, and the port stores
or adds them. -/
def accMoves : Prop :=
  ∀ (o : MatOp) (c code rows cols : Nat) (e : Int) (rnd : Rnd) (satx clr add tr : Bool) (tens : Tensor) (org : List Int)
    (ms hs : List Mv) (done : List (Nat × Nat)) (s t u : State), s.lpoison = [] → s.apoison = [] → s.acc.wf = true → s.lmem.wf = true →
    let v := o.va
    let inG := fun (n i : Nat) => 8 * o.group ≤ i ∧ i < 8 * o.group + 8 ∧ i < n
    let g := accFmt o.af
    let old := fun i j => s.accRead c o.af (o.row0 + i) (o.col0 + j)
    (o.kind = .zero rows cols → o.row0 + rows ≤ 128 → o.col0 + cols ≤ accCols o.af → ∃ t, o.nextGroup c s = .ok (0, []) t ∧
      t.lmem = s.lmem ∧ AccAfter s t c o (fun i j => if inG rows i ∧ j < cols then some 0 else none)) ∧
    (v.ok = true → v.layout < 2 → o.row0 + v.vrows ≤ 128 → o.col0 + v.vcols ≤ accCols o.af →
      (o.loadGroup c s = .ok code t → code = 0 ∧ t.lmem = s.lmem ∧ AccAfter s t c o (fun i j =>
        if inG v.vrows i ∧ j < v.vcols then some (
          if isCX v.fm then
            let p := comps v.fm (s.elemBits c v i j)
            let one := fun n => (convertEl (compOf g) false o.ftz false .rne (decodeF (compOf v.fm) o.ftz n)).1
            pairUp g (one p.1) (one p.2)
          else (convertEl (compOf g) (isInt v.fm) o.ftz false .rne (s.elemVal c v o.ftz i j)).1) else none)) ∧
      (isBlock v.fm = false → o.drainGroup c e rnd satx clr s = .ok (code, done) t → code = 0 ∧ done = v.cells o.group ∧
        (∀ i j, inG v.vrows i → j < v.vcols → t.elemBits c v i j =
          (if isCX v.fm then
            let one := fun n => (convertEl (compOf v.fm) false o.ftz satx rnd ((decodeF (compOf g) false n).scale e)).1
            pairUp v.fm (one (comps g (old i j)).1) (one (comps g (old i j)).2)
          else (convertEl v.fm (o.af == .i32) o.ftz satx rnd
            ((if o.af = .i32 then FVal.ofInt (elemInt .int32 (old i j)) else decodeF g false (old i j)).scale e)).1) % 2 ^ fmtWidth v.fm) ∧
        (∀ a, (∀ i j, inG v.vrows i → j < v.vcols → ∀ l, v.spot true i j = .here l →
          ∀ r ∈ l, a < lkey c r.off ∨ lkey c r.off + r.bytes ≤ a) → memRead t.lmem a = memRead s.lmem a) ∧
        AccAfter s t c o (fun i j => if clr = true ∧ inG v.vrows i ∧ j < v.vcols then some 0 else none))) ∧
    (o.kind = .drainc e satx clr add tr tens org → o.portMoves c o.group add tr tens org s = .ok ms u →
      o.drainGroup c e .rne satx clr u = .ok (code, v.cells o.group) t →
      o.nextGroup c s = .ok (code, ms.map (fun m => { m with src := .num (m.src.get t) })) t) ∧
    (o.portMoves c o.group add tr tens org s = .ok ms u → OfRows (grpRows v.vrows o.group) (fun r => rowMoves c o.space.who v.fm add
      false (viewEnd v false) (tensEnd tens (fun r j => some (coord org tr r j))) r v.vcols) ms) ∧
    (o.sendPort c hs s = .ok code t → s.doMoves v.fm false o.adds hs = (t, code))
end Sys2Proof.Say

/-- R187, R200, R291, R306 to R308: a step of an engine runs the next row group; the last one, or an error, retires the operation; a
trap stops the context, or the unit, with a fault record. Of the unit's own next group and the drain port's the model's free
value chooses (log 1). -/
def Sys2Proof.Say.enginesRunRowGroups : Prop :=
  ∀ (c k op code : Nat) (o : CopyOp) (m : MatTurn) (r : MatOp) (ms : List Mv) (tr : Trap) (w : Option Trap) (s s1 : State),
    let stopAt := fun (y : EngWords) (tl num group : Nat) => { y with
      efop := BitVec.ofNat 64 (tl * 2 ^ 56 + num), efval := tr.val, efrst := BitVec.ofNat 64 group, stopped := true
      efcode := BitVec.ofNat 64 (tr.cause.code + (if tr.cause = .pagefault then tr.val.toNat / 2 ^ 60 * 2 ^ 8 else 0)) }
    ((s.core c).runnable k op = some o →
      (o.groups ≤ o.group → exec (.copyOpRetire c k op) s = .next (s.modCore c (fun x => x.retireCopy k o 0))) ∧
      (o.group < o.groups → o.runGroup c s = .ok (s1, code) →
        (code ≠ 0 ∨ o.group + 1 = o.groups →
          exec (.copyOpRetire c k op) s = .next (s1.modCore c (fun x => x.retireCopy k o code))) ∧
        (code = 0 → o.group + 1 < o.groups →
          exec (.copyOpRetire c k op) s = .next (s1.modCore c (fun x => x.setCopy k { o with group := o.group + 1 })))) ∧
      (o.group < o.groups → o.runGroup c s = .error (w, s1) → exec (.copyOpRetire c k op) s = .next s1) ∧
      (o.group < o.groups → o.runGroup c s = .error (some tr, s1) → s1 = { s with lostAt := s1.lostAt } ∧
        (k < 4 → let y := (s.core c).ctx k
        exec (.engineFault c k op) s = .next (s.modCore c (fun x => x.setCtx k { y with eng := stopAt y.eng k o.num o.group }))))) ∧
    ((s.core c).matTurn op (Config.portFirst s.fresh) = some m →
      let s0 : State := { s with fresh := s.fresh + 1 }
      (m.run c s0 = .ok (code, ms) s1 →
        let u := m.after code ms
        (u.handed = true → u.port = [] →
          exec (.matrixOpRetire c op) s = .next (s1.modCore c (fun x => x.retireMat u u.err))) ∧
        (u.handed = false ∨ u.port ≠ [] → exec (.matrixOpRetire c op) s = .next (s1.modCore c (fun x => x.setMat u))) ∧
        (∀ q, m = .port r q → (code = 0 → u = { r with port := r.port.drop 1 }) ∧
          (code ≠ 0 → u = { r with port := [], err := code })) ∧
        (m = .unit r → r.handed = false → u.group = r.group + 1 ∧ u.err = code ∧
          ((∀ e satx clr add t tens org, r.kind ≠ .drainc e satx clr add t tens org) → u.port = r.port))) ∧
      (m.run c s0 = .error .wait s1 → exec (.matrixOpRetire c op) s = .next s0) ∧
      (m.run c s0 = .error .waitAt s1 → exec (.matrixOpRetire c op) s = .next s1)) ∧
    ((s.core c).matTurn op false = some (.unit r) → r.handed = false → r.nextGroup c s = .error (.trap tr) s1 →
      exec (.engineFault c 4 op) s =
        .next (s.modCore c (fun y => { y with mat := { y.mat with eng := stopAt y.mat.eng 4 r.num r.group } })))

/-- R44, R55 to R58, R147, R187, R200, R289 to R308: what the row groups of copies and matrix operations read and write, and how an engine runs and retires them. -/
def Obligations.EnginesRunRowGroups : Prop :=
  Say.engineSpots ∧ Say.engineMoves ∧ Say.copyGroups ∧ Say.movesPerformed ∧ Say.addsAtHome ∧ Say.mulGroups ∧ Say.productSums ∧ Say.accMoves ∧ Say.enginesRunRowGroups

namespace Sys2Proof.Say
/-- The state in which a save begins: what the strands had begun stands at its boundary, and their walks and log records that
wait are withdrawn (R204). -/
def saveStart (s : State) (c k : Nat) : State :=
  let s0 := s.settle c k
  { s0 with walks := s0.walks.filter (fun w => !(w.core == c && w.seat == k))
            logs := s0.logs.filter (fun r => !(r.core == c && r.seat == k)) }

/-- A save begins with unit 0 of its list, or goes on with the unit that SVPROG names, with the fault mark f, in u (R206). -/
def SaveFrom (s : State) (c k n : Nat) (f : Bool) (u : State) : Prop :=
  let t := (s.settle c k).seat c k
  (t.seq = .none ∧ n = 0 ∧ f = false ∧ u = (saveStart s c k).setProgress c k 0 false) ∨
  ∃ m, t.seq = .saving m f ∧ u = saveStart s c k ∧ ((s.core c).hinst = none → n = m) ∧
    ∀ r, (s.core c).hinst = some r → n = (s.settle c k).locNum c (r.hdata + 8 * k) 8

/-- R204: a pre-empted thread is saved once its handler has returned, its producers have completed and nothing of it is on its
way; the messages for the core that are due come first. A save that SAVEFAULT stopped goes on. -/
def savesBegin : Prop :=
  ∀ (c k : Nat) (s : State), k < 4 → (s.seat c k).occ = .thread → (s.seat c k).hnd = false → (s.seat c k).pend = none →
    (s.core c).halted = false →
    ((s.seat c k).seq = .none → (s.core c).pre ≠ none → (s.seat c k).ending = false → (s.seat c k).reports = [] →
      (s.seat c k).unw = none → (s.core c).midGroup k = false → s.gangWhole c = true → ((s.settle c k).core c).producersDone k = true →
      (∀ a ∈ s.flight, ¬ (a.core = c ∧ a.seat = k)) → (∀ r ∈ s.slotReqs, ¬ (r.core = c ∧ r.seat = k)) →
      exec (.threadSave c k) s = .next (((s.msgs.filter (fun m => m.dest == c)).foldl
        (fun s m => if s.msgDue m then s.deliverMsg m else s) s).doSave c k)) ∧
    ((∃ n f, (s.seat c k).seq = .saving n f) → exec (.threadSave c k) s = .next (s.doSave c k))

/-- R206: the sequencer writes the units of the image in their order, counting each in SVPROG; a save that goes on starts after
as many units as SVPROG says; at a fault the thread stays on its seat and takes SAVEFAULT; after the last unit it is saved. -/
def savesWriteUnits : Prop :=
  ∀ (c k n m va : Nat) (f : Bool) (w : Who) (b : List Byte) (us : List (Nat × List Byte)) (r : HRec) (tr : Trap) (st : Stop)
    (s s1 s2 u : State),
    let t := (s.settle c k).seat c k
    let ist := if (s.core c).pre = some .retire then 2 else 1
    (SaveFrom s c k n f u →
      let run := State.saveUnits c k t.saver f ((u.saveList c k ist).drop n) n u
      (run = (s2, none) → s.doSave c k = s2.saveDone c k) ∧
      (run = (s2, some .waitAt) → s.doSave c k = s2) ∧
      (run = (s2, some (.trap tr)) → (s2.seat c k).seq = .saving m f →
        s.doSave c k = (s2.modSeat c k (fun x => { x with seq := .saving m true })).takeTrap { core := c, seat := k }
          { cause := .savefault, val := BitVec.ofNat 64 tr.addr } true)) ∧
    (unitWrite (some c) w va b s = .ok () s1 → State.saveUnits c k w f ((va, b) :: us) n s =
      State.saveUnits c k w f us (n + 1) (s1.setProgress c k (n + 1) f)) ∧
    (unitWrite (some c) w va b s = .error st s1 → State.saveUnits c k w f ((va, b) :: us) n s =
      (if st = .waitAt then s1 else s, some st)) ∧
    (State.saveUnits c k w f [] n s = (s, none)) ∧
    (k < 4 → ((s.setProgress c k n f).seat c k).seq = .saving n f ∧
      ((s.core c).hinst = some r → s.lmem.wf = true → n < 2 ^ 64 → (s.setProgress c k n f).locNum c (r.hdata + 8 * k) 8 = n))

/-- R204, R205, R211: once its image is written the seat is free of the thread; the saved thread keeps the core, the seat, the
image's address and what no store can change; memory stands as the units left it, and the thread's messages are in the image. A
core that is retired ends the thread instead. -/
def savesFreeSeat : Prop :=
  ∀ (c k : Nat) (s : State), k < 4 →
    let t := s.seat c k
    let u := s.saveDone c k
    (u.seat c k).occ ≠ .thread ∧
    ((s.core c).pre = some .retire → u = (s.retireNow c k).modCore c Core.preDone) ∧
    ((s.core c).pre ≠ some .retire → u.lmem = s.lmem ∧ u.acc = s.acc ∧ u.dram = s.dram ∧ u.host = s.host ∧ ∃ i, (u.vd t.vdev).saved = (s.vd t.vdev).saved ++ [i] ∧ i.core = c ∧ i.seat = k ∧
      i.image = t.image ∧ i.dom = t.basedom ∧ i.cur = t.curdom ∧ i.lid = t.lid ∧ i.queue = t.queue ∧ i.depth = t.depth ∧
      i.limit = t.limit ∧ i.gstat = t.gstat ∧ i.pc = t.main.pc ∧
      (u.core c).inbox = (s.core c).inbox.filter (fun m => !m.isFor k t.lid))

/-- R205, R206: units 1 to 107 in rising order, then the frames held in hardware from the outermost, then unit 0; and where the
fields stand that the image's table names. -/
def imageFields : Prop :=
  ∀ (c k ist i n q : Nat) (f : Frame) (s : State),
    let t := s.seat c k
    let l := s.saveList c k ist
    let b := s.imageBody c k
    let e := s.imageHead c k ist
    b.length = 6848 ∧ e.length = 64 ∧ l.length = 108 + 23 * t.frames.length ∧
    (i < 107 → l[i]? = some (t.image + 64 + 64 * i, (b.drop (64 * i)).take 64)) ∧
    (n < t.frames.length → q < 23 → t.frames[t.frames.length - 1 - n]? = some f →
      l[107 + 23 * n + q]? = some (t.spill (t.depth - (t.frames.length - 1 - n)) + 64 * q, (f.bytes.drop (64 * q)).take 64)) ∧
    l.getLast? = some (t.image, e) ∧
    (ist < 256 → numAt e 0 1 = ist) ∧ numAt e 2 1 = ((s.core c).mail k).length % 256 ∧
    numAt e 4 4 = (108 + 23 * t.depth) % 2 ^ 32 ∧
    numAt b 0 8 = (t.main.pc.seg * 2 ^ 32 + t.main.pc.idx) % 2 ^ 64 ∧ numAt b 0x10 8 = t.fstat.toNat ∧
    numAt b 0x18 8 = t.amax.toNat ∧ numAt b 0x30 8 = t.eval.toNat ∧ numAt b 0x50 8 = t.gstat.toNat ∧
    numAt b 0x60 8 = (if (s.quota t.vdev).fixed then 2 ^ 48 - 1 else t.cyc.toNat) ∧ numAt b 0x68 8 = t.segb % 2 ^ 64 ∧
    (i < 64 → numAt b (0xC0 + 8 * i) 8 = (t.reg i).toNat) ∧
    (i < 64 → numAt b (0x2C0 + 16 * i) 16 = (t.view i).image % 2 ^ 128)

/-- R205: a restored seat has the registers of its image, every FE 1; the domain, launch and gang fields, which no store
changes, are the thread's own (R75). -/
def imageRestores : Prop :=
  ∀ (vd j : Nat) (im : SavedImage) (g : Option Gang) (b : List Byte) (fs : List Frame) (x : Seat), j < 64 →
    let y := x.ofImage vd im g b fs
    y.occ = .thread ∧ y.main.pc = ⟨numAt b 0x40 8 / 2 ^ 32 % 2 ^ 13, numAt b 0x40 8 % 2 ^ 32⟩ ∧
    y.reg j = BitVec.ofNat 64 (numAt b (0x100 + 8 * j) 8) ∧ y.full j = true ∧
    y.view j = { View.ofImage (numAt b (0x300 + 16 * j) 16) with fe := true } ∧
    (∀ i, 1 ≤ i → i < 8 → y.p i = (numAt b 0x48 8).testBit i) ∧ y.ftz = (numAt b 0x48 8).testBit 8 ∧
    y.fstat = BitVec.ofNat 7 (numAt b 0x50 8) ∧ y.amax = BitVec.ofNat 64 (numAt b 0x58 8) ∧
    y.eval = BitVec.ofNat 64 (numAt b 0x70 8) ∧ y.cyc = BitVec.ofNat 48 (numAt b 0xA0 8) ∧
    y.segb = numAt b 0xA8 8 % 2 ^ 16 ∧ y.hnd = false ∧ y.frames = fs ∧ y.vdev = vd ∧ y.basedom = im.dom ∧ y.curdom = im.cur ∧
    y.lid = im.lid ∧ y.queue = im.queue ∧ y.gstat = im.gstat

/-- R208: where a core image holds local memory, the accumulator store, the region table, the timelines, DQHEAD, DQTAIL and the
deque; a core restored from those bytes has them back. -/
def coreImageFields : Prop :=
  ∀ (c i o : Nat) (m : CoreMisc) (b : List Byte) (s : State),
    let im := s.coreImage c
    let u := s.restoreCore c b m
    im.length = coreImageLen ∧ im.take 262144 = s.locRead c 0 262144 ∧
    (im.drop 262144).take 131072 = memReads s.acc (c * 131072) 131072 ∧
    (i < 64 → numAt im (0x60000 + 4 * i) 4 = (s.lrtEntry c i).toNat ∧
      numAt im (0x60200 + 32 * i) 32 = ((s.core c).dqSlot i).toNat) ∧
    (i < 8 → numAt im (0x60100 + 16 * i) 8 = ((s.core c).tl i).iss % 2 ^ 64 ∧
      numAt im (0x60108 + 16 * i) 8 = ((s.core c).tl i).done % 2 ^ 64) ∧
    (b.length = coreImageLen → s.lmem.wf = true → s.acc.wf = true →
      (o < 262144 → some (memRead u.lmem (lkey c o)) = b[o]?) ∧
      (o < 131072 → some (memRead u.acc (c * 131072 + o)) = b[262144 + o]?) ∧
      (u.core c).dqh = numAt b 0x60180 8 % 2 ^ 7 ∧ (u.core c).dqt = numAt b 0x60180 8 / 2 ^ 8 % 2 ^ 7 ∧
      (i < 64 → (u.core c).dqSlot i = BitVec.ofNat 256 (numAt b (0x60200 + 32 * i) 32)) ∧
      (∀ n, n ≠ c → u.core n = s.core n))

/-- R392: a device takes part in the rotation while it has a saved thread, or a launch that has started or may start. -/
def turnsQualify : Prop :=
  ∀ (v : Nat) (s : State), s.qualifies v = true ↔ (s.quota v).active = true ∧ (s.quota v).fixed = false ∧
    ((s.vd v).saved ≠ [] ∨ ∃ l ∈ s.launches, l.vdev = v ∧ (l.started = true ∨ s.waitsMet l = true))
end Sys2Proof.Say

/-- R118, R208, R392: a core passes to another device once the turn is over and its engines are quiet: its image goes to memory
of virtual device 0; a turn that brings no row and no image starts its threads' slices; a row that passes to another device is
scrubbed, and no other. -/
def Sys2Proof.Say.turnsPassCores : Prop :=
  ∀ (c addr u vd y : Nat) (s : State),
    (s.modl.turn = some u → s.holdsCore u c = true → mapGet 0 (c / 128) s.rowVd = u → s.coreUsed c = true → s.turnOver u = true →
      s.nextTurn ≠ some u → s.coreQuiet c = true → (∀ p ∈ (s.vd u).cores, p.1 ≠ c) → s.imageRoom addr = true →
      s.devSnooped 0 addr coreImageLen = false →
      exec (.coreImageSave c addr) s = .next ((s.devWrite 0 addr (s.coreImage c)).modVd u (fun v => { v with
        cores := mapPut c addr v.cores, cmisc := mapPut c (s.core c).misc v.cmisc }) |> fun t => { t with fresh := s.fresh + 1 })) ∧
    (s.nextTurn = some vd → (∀ v, s.modl.turn = some v → s.turnOver v = true) → (∀ r ∈ (s.quota vd).rowList, mapGet 0 r s.rowVd = vd) →
      (s.vd vd).saved = [] → (s.vd vd).cores = [] →
      let rows := (s.quota vd).rowList
      let begun := (((s.modVd vd (fun v => { v with cores := [], cmisc := [] })).modCores (fun n x =>
        if rows.contains (n / 128) then { x with pre := none } else x)).modModule (fun m => { m with turn := some vd })).modVd vd
          (fun v => { v with saved := [] })
      exec (.turnStart vd) s = .next (begun.modCores (fun n x => if rows.contains (n / 128) then { x with
        seats := x.seats.map (fun t => { t with cyc := BitVec.ofNat 48 (s.quota vd).slice, sliced := true }) } else x))) ∧
    (mapGet 0 y s.rowVd ≠ vd → let p := s.passRow vd y
      ∀ n, (n / 128 = y →
        (∀ i, i < 2 ^ 18 → memRead p.lmem (lkey n i) = 0) ∧ (∀ i, i < 131072 → memRead p.acc (n * 131072 + i) = 0) ∧
        (p.core n).lrt = [] ∧ (p.core n).ccache = [] ∧ (p.core n).tlb = [] ∧ (p.core n).inbox = [] ∧ (p.core n).slots = [] ∧
        (p.core n).dqh = (s.core n).dqh ∧ (p.core n).dqt = (s.core n).dqt ∧ (p.core n).dqs = (s.core n).dqs) ∧
        (n / 128 ≠ y → p.core n = s.core n ∧ (∀ i, i < 2 ^ 18 → memRead p.lmem (lkey n i) = memRead s.lmem (lkey n i)) ∧
          ∀ i, i < 131072 → memRead p.acc (n * 131072 + i) = memRead s.acc (n * 131072 + i)))

/-- R118, R204 to R206, R208, R392: saves and restores of threads, core images, turns. Of the core image the bytes that R208 lays out in no more than name are the model's free bytes (log 18). -/
def Obligations.SavesAndTurns : Prop :=
  Say.savesBegin ∧ Say.savesWriteUnits ∧ Say.savesFreeSeat ∧ Say.imageFields ∧ Say.imageRestores ∧ Say.coreImageFields ∧ Say.turnsQualify ∧ Say.turnsPassCores

/-! ## Queues, launches, the Regulator -/

namespace Sys2Proof.Say
/-- A running queue whose next command, valid, has an OP, at an offset of its segment (R133, R134). -/
def AtCommand (s : State) (vd q op : Nat) (b : List Byte) (off : Nat) : Prop :=
  s.queueIs vd q = true ∧ (s.queue vd q).state = .run ∧ (s.queue vd q).copy = none ∧ (s.queue vd q).seg = some b ∧
  (s.queue vd q).off = off ∧ numAt b off 1 = op ∧ cmdOk (s.quota vd).nqueue b off = true

/-- Every launch of the queue accepted before has started (R135). -/
def EarlierStarted (s : State) (vd q : Nat) : Prop := ∀ l ∈ s.launches, l.vdev = vd → l.queue = q → l.started = true
end Sys2Proof.Say

/-- R132 to R135, R188, R190, R394: the doorbell and enabling of a queue, and what each command does; COPY and SIGNAL wait for
the launches before them to start, and a COPY that meets a fault rejects the queue. The model's choices: a COPY goes in parts that
end at 4 KiB boundaries, one a step (log 83), one command of a queue at a time (log 58). -/
def Obligations.QueueCommands : Prop :=
  ∀ (vd q off lid : Nat) (put : BitVec 32) (b bs : List Byte) (y : QCopy) (tr : Trap) (s s1 s2 : State),
    let x := s.queue vd q
    (s.portOpen vd = true → s.queueIs vd q = true →
      (x.state = .run → let t := s.modQueue vd q (fun x => { x with qput := put.toNat })
        ((put.toNat + 2 ^ 32 - x.qget) % 2 ^ 32 ≤ x.qsize → exec (.doorbell vd q put) s = .next (t.settleQueue vd q)) ∧
        (x.qsize < (put.toNat + 2 ^ 32 - x.qget) % 2 ^ 32 →
          exec (.doorbell vd q put) s = .next (t.modQueue vd q (fun x => { x with state := .error })))) ∧
      (x.state = .idle →
        (s.domLive vd x.qown = true → exec (.queueEnable vd q) s =
          .next ((s.modQueue vd q (fun x => { x with state := .run })).settleQueue vd q)) ∧
        (s.domLive vd x.qown = false → exec (.queueEnable vd q) s =
          .next (s.modQueue vd q (fun x => { x with state := .error }))))) ∧
    (AtCommand s vd q 0 b off → exec (.qcmdEnd vd q) s = .next ((s.modQueue vd q (fun x =>
      { x with qget := (x.qget + 1) % 2 ^ 32, seg := none, off := 0 })).settleQueue vd q)) ∧
    (AtCommand s vd q 1 b off → submit { lid := 0, vdev := vd, queue := q, base := x.qown
                                         rcd := LRec.ofBytes ((b.drop (off + 8)).take 128)
                                         addr := (x.qbase * 4096 + 4096 * (x.qget % x.qsize) + off + 8) % 2 ^ 64 } s = .ok lid s1 →
      exec (.qcmdLaunch vd q) s = .next ((s1.modQueue vd q (fun x => { x with off := x.off + 136 })).settleQueue vd q)) ∧
    (AtCommand s vd q 2 b off → EarlierStarted s vd q → exec (.qcmdCopy vd q) s = .next (((s.modQueue vd q (fun x =>
      { x with copy := some { src := numAt b (off + 8) 8, dst := numAt b (off + 16) 8, left := numAt b (off + 24) 8
                              seq := numAt b 0xFE8 8 } })).modQueue vd q (fun x => { x with off := x.off + 40 })).settleQueue vd q)) ∧
    (AtCommand s vd q 3 b off → EarlierStarted s vd q → exec (.qcmdSignal vd q) s = .next (((s.writeQtl vd q
      (numAt b (off + 8) 7)).modQueue vd q (fun x => { x with off := x.off + 16 })).settleQueue vd q)) ∧
    (¬ EarlierStarted s vd q → (AtCommand s vd q 2 b off → exec (.qcmdCopy vd q) s = .next s) ∧
      (AtCommand s vd q 3 b off → exec (.qcmdSignal vd q) s = .next s)) ∧
    (AtCommand s vd q 4 b off →
      (numAt b (off + 15) 1 = 255 ∨ tlMet (s.selTl vd (numAt b (off + 15) 1)) (numAt b (off + 8) 7) = true →
        exec (.qcmdWait vd q) s = .next ((s.modQueue vd q (fun x => { x with off := x.off + 16 })).settleQueue vd q)) ∧
      (numAt b (off + 15) 1 ≠ 255 → tlMet (s.selTl vd (numAt b (off + 15) 1)) (numAt b (off + 8) 7) = false →
        exec (.qcmdWait vd q) s = .next s)) ∧
    (x.copy = some y → let n := min y.left (min (4096 - y.src % 4096) (4096 - y.dst % 4096))
      (unitRead none (s.qWho vd q) y.src n s = .error (.trap tr) s1 → exec (.copyCommandComplete vd q) s =
        .next ((s.modQueue vd q (fun x => { x with copy := none })).rejectQueue vd q y.seq 4)) ∧
      (unitRead none (s.qWho vd q) y.src n s = .ok bs s1 → unitWrite none (s.qWho vd q) y.dst bs s1 = .ok () s2 →
      (y.left ≤ n → exec (.copyCommandComplete vd q) s =
        .next ((s2.modQueue vd q (fun x => { x with copy := none })).settleQueue vd q)) ∧
      (n < y.left → exec (.copyCommandComplete vd q) s = .next (s2.modQueue vd q (fun x =>
        { x with copy := some { y with src := (y.src + n) % 2 ^ 64, dst := (y.dst + n) % 2 ^ 64, left := y.left - n } })))))

/-- R35 to R37, R137, R391, R395: the first candidate of a device has the highest priority, and is started where its cores have
their seats free, else another whose cores have; a start message gives threads to the lowest free seats with their arguments; a launch with nothing left completes; a
kill clears its queue once its overflow lists can be reached, then kills QOWN under DOMK. -/
def Sys2Proof.Say.launchesStartAndComplete : Prop :=
  ∀ (vd q c lid : Nat) (l : Launch) (s t : State),
    (s.nextVisit = some vd →
      let w : Int := (s.quota vd).weight
      let s2 := (s.noteMet.modVd vd (fun v => { v with cr := min (v.cr + w * 2 ^ 24) (w * 2 ^ 26) })).modModule
        (fun m => { m with lastVd := vd })
      (s2.chosen vd = none ∨ (s2.vd vd).cr ≤ 0 ∨ s2.mayStart vd = false → exec (.dispatchVisit vd) s = .next s2) ∧
      (0 < (s2.vd vd).cr → s2.mayStart vd = true → s2.chosen vd = some l →
        (startLaunch l s2 = .ok 0 t → exec (.dispatchVisit vd) s = .next (t.modVd vd (fun v => { v with rrq := l.queue }))) ∧
        ∀ n, startLaunch l s2 = .ok (n + 1) t → exec (.dispatchVisit vd) s = .next (t.refuse l (n + 1)))) ∧
    (l ∈ s.candidates vd ↔ l ∈ s.launches ∧ l.vdev = vd ∧ l.started = false ∧ l.met ≠ none ∧ orderMet l s.launches = true) ∧
    (s.chosen vd = some l → l ∈ s.candidates vd ∧ s.seatsFree l = true) ∧
    (∀ m, (s.candidates vd).head? = some m → (∀ l ∈ s.candidates vd, s.effPri l ≤ s.effPri m) ∧
      (s.seatsFree m = true → s.chosen vd = some m)) ∧
    (s.launches.find? (fun m => m.lid == lid && m.starts.contains c) = some l → s.coreOpen l.vdev c = true →
      s.inTurn l.vdev = true → let free := (upto 4).filter (fun k => (s.seat c k).occ == .free)
      l.rcd.seats ≤ free.length → ∃ t, exec (.startMessage lid c) s = .next t ∧
        (∀ j k, j < l.rcd.seats → free[j]? = some k → let x := t.seat c k
          x.occ = .thread ∧ x.lid = l.lid ∧ x.queue = l.queue ∧ x.vdev = l.vdev ∧ x.curdom = l.base ∧ x.basedom = l.base ∧
          x.depth = 0 ∧ x.main.pc = ⟨l.rcd.codeoff / 32, l.rcd.entry⟩ ∧ x.segb = l.rcd.segbound % 2 ^ 16 ∧
          x.reg 0 = l.rcd.arg ∧ x.reg 1 = BitVec.ofNat 64 ((s.coreSet l.vdev l.rcd).idxOf c) ∧ x.reg 2 = BitVec.ofNat 64 j ∧
          x.reg 3 = BitVec.ofNat 64 (l.rcd.setw * l.rcd.seth) ∧ (∀ r, 4 ≤ r → x.reg r = 0) ∧ x.p 0 = true ∧ x.fstat = 0) ∧
        ∀ k, k < 4 → (s.seat c k).occ ≠ .free → t.seat c k = s.seat c k) ∧
    (s.launches.find? (fun m => m.lid == lid) = some l → s.finished l = true → l.child = none →
      exec (.launchComplete lid) s = .next (((((({ s with launches := s.launches.filter (fun m => m.lid != lid) } : State).endStreams
        l.vdev lid).endSlots l.vdev lid).endMail l.vdev lid).endSeats l.vdev lid).writeQtl l.vdev l.queue l.rcd.signal)) ∧
    (s.queueRegs vd q = true → (s.queue vd q).qkstat = 1 → ∀ d, exec (.queueKill vd q d) s = .next (s.killOn vd q)) ∧
    (s.queueRegs vd q = true → s.portOpen vd = true → (s.queue vd q).qkstat ≠ 1 → ∀ d,
      ((s.queue vd q).qown = 0 → d = true → exec (.queueKill vd q d) s =
        .next (s.modQueue vd q (fun x => { x with qgo := true, qdomk := d, qkstat := 3 }))) ∧
      ((s.queue vd q).qown ≠ 0 ∨ d = false → exec (.queueKill vd q d) s = .next ((s.modQueue vd q (fun x =>
        { x with qgo := true, qdomk := d, qkstat := 1, qkdom := d, qkleft := true, state := .idle })).killOn vd q))) ∧
    (let x := s.queue vd q
      let mine := s.launches.filter (fun l => l.vdev == vd && l.queue == q)
      let u := if x.qkleft then (s.killQueue vd q).modQueue vd q (fun x => { x with qkleft := false }) else s
      (x.qkleft = true → s.listsWait mine = some t → s.killOn vd q = t) ∧
      (x.qkleft = false ∨ s.listsWait mine = none →
        (x.qkdom = false → s.killOn vd q = u.modQueue vd q (fun x => { x with qkstat := 2 })) ∧
        (x.qkdom = true → u.tablesHeld vd = true → s.killOn vd q = u) ∧
        (x.qkdom = true → u.tablesHeld vd = false → s.killOn vd q = u.killOwner vd q)))

/-- R166, R167: a slot that is due advances its next time by whole periods past the clock, counts the periods that it missed,
and submits its record, or posts an event where it cannot read it; one that is not due does nothing. The model's choices (log 65): a
slot whose queue does not exist only advances, and a record that cannot be read posts event 0x07 with reason 8 and leaves INFL 0. -/
def Sys2Proof.Say.regulatorFiresOnTime : Prop :=
  ∀ (k n : Nat) (bs : List Byte) (tr : Trap) (s s1 s2 : State), k < 256 → let r := s.reg k
    let flies := r.infl ≠ 0 ∧ ∃ l ∈ s.launches, l.lid = r.infl
    (r.arm = false ∨ s.modl.rclk < r.next ∨ flies → exec (.regulatorFire k) s = .next s) ∧
    (r.arm = true → r.next ≤ s.modl.rclk → ¬ flies → s.modl.rclk - r.next ≤ r.period → 1 ≤ r.period →
      let put := fun (t : State) (lid : Nat) =>
        { t with regs := mapPut k { r with next := (r.next + r.period) % 2 ^ 64, infl := lid } t.regs }
      (r.rgovr < 2 ^ 32 → s.queueIs r.vdev r.queue = false → exec (.regulatorFire k) s = .next (put s 0)) ∧
      (r.rgovr < 2 ^ 32 → s.queueIs r.vdev r.queue = true →
        unitRead none (s.qWho r.vdev r.queue) r.rcd 128 s = .ok bs s1 →
        submit { lid := 0, vdev := r.vdev, queue := r.queue, base := (s.queue r.vdev r.queue).qown, rcd := LRec.ofBytes bs
                 addr := r.rcd, slot := some k } s1 = .ok n s2 →
        exec (.regulatorFire k) s = .next (put s2 n)) ∧
      (r.rgovr < 2 ^ 32 → s.queueIs r.vdev r.queue = true →
        unitRead none (s.qWho r.vdev r.queue) r.rcd 128 s = .error (.trap tr) s1 →
        exec (.regulatorFire k) s = .next (put (s.postEvent r.vdev (event 0 7 r.queue r.rcd 8)) 0))) ∧
    (r.arm = true → r.next ≤ s.modl.rclk → ¬ flies → 1 ≤ r.period → r.period < s.modl.rclk - r.next →
      s.modl.rclk < 2 ^ 63 → r.period ≤ 2 ^ 40 → let missed := (s.modl.rclk - r.next) / r.period
      let ovr := min (r.rgovr + missed) (2 ^ 32 - 1)
      let next := r.next + missed * r.period + r.period
      let u := s.postEvent r.vdev (event 0 8 k ovr 0)
      let put := fun (t : State) (lid : Nat) => { t with regs := mapPut k { r with rgovr := ovr, next := next, infl := lid } t.regs }
      (s.modl.rclk < next ∧ next ≤ s.modl.rclk + r.period) ∧
      (u.queueIs r.vdev r.queue = false → exec (.regulatorFire k) s = .next (put u 0)) ∧
      (u.queueIs r.vdev r.queue = true → unitRead none (u.qWho r.vdev r.queue) r.rcd 128 u = .ok bs s1 →
        submit { lid := 0, vdev := r.vdev, queue := r.queue, base := (u.queue r.vdev r.queue).qown, rcd := LRec.ofBytes bs
                 addr := r.rcd, slot := some k } s1 = .ok n s2 →
        exec (.regulatorFire k) s = .next (put s2 n)) ∧
      (u.queueIs r.vdev r.queue = true → unitRead none (u.qWho r.vdev r.queue) r.rcd 128 u = .error (.trap tr) s1 →
        exec (.regulatorFire k) s = .next (put (u.postEvent r.vdev (event 0 7 r.queue r.rcd 8)) 0)))

/-- R35 to R37, R137, R166, R167, R391, R395: launches start and complete; Regulator slots fire (the model's choice for a slot without a queue and an unreadable record: log 65). -/
def Obligations.LaunchesAndRegulator : Prop :=
  Say.launchesStartAndComplete ∧ Say.regulatorFiresOnTime

/-! ## The host, the fabric, the management core -/

/-- R132, R168 to R170, R384, R389, R390, R394, R396, R408, R411: what a host write to a register does, by its register, and
where it is not performed; the quota interface; a load's start and end. The model's choices: a write out of the limits of QSIZE,
CPKIND, FWSEL, LDDST and QTIMG is not stored (log 63), nothing passes a function's port before its stream is secure (log 62), and a
teardown that reclaims pages ends at a later step (log 70). -/
def Obligations.HostRegistersAndLoads : Prop :=
  ∀ (vd q n : Nat) (v : BitVec 64) (r : HostReg) (b : List Byte) (s t : State), let x := (s.vd vd).loader
    let wr := fun (r : HostReg) (t : State) => exec (.registerWrite r vd q v) s = .next t
    (s.portOpen vd = true →
      ((s.vd vd).tdi = .unlocked → s.queueRegs vd q = true → (s.queue vd q).state = .idle → let put := fun (f : Queue → Queue) => s.modQueue vd q f
        wr .qbase (put (fun x => { x with qbase := v.toNat / 4096 })) ∧ wr .qown (put (fun x => { x with qown := v.toNat % 2 ^ 16 })) ∧
        wr .qseq (put (fun x => { x with qseq := v.toNat })) ∧
        (1 ≤ v.toNat → v.toNat ≤ 4096 → wr .qsize (put (fun x => { x with qsize := v.toNat }))) ∧
        (v.toNat = 0 ∨ 4096 < v.toNat → wr .qsize s)) ∧
      ((s.vd vd).tdi = .unlocked → (s.queue vd q).state ≠ .idle → wr .qbase s ∧ wr .qown s ∧ wr .qseq s ∧ wr .qsize s) ∧
      (s.queueRegs vd q = true → wr .qpri (s.modQueue vd q (fun x => { x with qpri := v.toNat % 8 }))) ∧
      (s.queueRegs vd q = true → v.getLsbD 63 = false ∨ (s.queue vd q).qkstat = 1 →
        wr .qkill (s.modQueue vd q (fun x => { x with qgo := v.getLsbD 63, qdomk := v.getLsbD 8 }))) ∧
      (v.getLsbD 63 = true → (s.queue vd q).qkstat ≠ 1 →
        exec (.registerWrite .qkill vd q v) s = exec (.queueKill vd q (v.getLsbD 8)) s) ∧
      ((s.vd vd).tdi = .unlocked → ∀ r ∈ [HostReg.qkey, .ldstate, .lderr, .ldsel, .ldrev, .ldused, .cpstat, .cpdone], wr r s) ∧
      ((s.vd vd).tdi = .unlocked → x.ldstate ≠ 1 → let put := fun (f : Loader → Loader) => s.modVd vd (fun y => { y with loader := f y.loader })
        wr .ldsrc (put (fun x => { x with ldsrc := v })) ∧
        wr .lddst (if v.toNat % 65536 = 0 then put (fun x => { x with lddst := v }) else s) ∧
        wr .ldlen (put (fun x => { x with ldlen := v })) ∧ wr .ldcap (put (fun x => { x with ldcap := v })) ∧
        wr .ldsig (put (fun x => { x with ldsig := v }))) ∧
      ((s.vd vd).tdi = .unlocked → x.ldstate = 1 → wr .ldsrc s ∧ wr .lddst s ∧ wr .ldlen s ∧ wr .ldcap s ∧ wr .ldsig s) ∧
      ((s.vd vd).tdi = .unlocked → (s.vd vd).prop.cpstat = 1 → wr .cpkind s ∧ wr .cppage s ∧ wr .cpcnt s ∧ wr .cpent s ∧ wr .cproot s) ∧
      ((s.vd vd).tdi = .unlocked → (s.vd vd).prop.cpstat ≠ 1 →
        let put := fun (f : Proposal → Proposal) => s.modVd vd (fun y => { y with prop := f y.prop })
        wr .cpkind (if v.toNat % 4 = 1 ∨ v.toNat % 4 = 2 then put (fun x => { x with cpkind := v.toNat % 4 }) else s) ∧
        wr .cppage (put (fun x => { x with cppage := v.toNat % 2 ^ 26 })) ∧
        wr .cpcnt (put (fun x => { x with cpcnt := v.toNat % 2 ^ 16 })) ∧
        wr .cpent (put (fun x => { x with cpent := v })) ∧ wr .cproot (put (fun x => { x with cproot := v }))) ∧
      (pfOnly r = true → vd ≠ 0 → wr r s) ∧
      (vd = 0 → let put := fun (f : Module → Module) => s.modModule f
        wr .qtsel (if s.modl.qtstat = 1 then s else put (fun m => { m with qtsel := v.toNat % 16 })) ∧
        wr .qtimg (if s.modl.qtstat = 1 ∨ v.toNat % 128 ≠ 0 then s else put (fun m => { m with qtimg := v })) ∧
        wr .dbgsrc (put (fun m => { m with dbgsrc := v })) ∧
        wr .fwsel (if 1 ≤ v.toNat ∧ v.toNat ≤ 6 then put (fun m => { m with fwsel := v.toNat }) else s) ∧
        wr .fwsrc (put (fun m => { m with fwsrc := v })) ∧ wr .fwlen (put (fun m => { m with fwlen := v }))) ∧
      (inBar0 r = true → isCounter r = false → pfOnly r = false → (s.vd vd).tdi = .locked ∨ (s.vd vd).tdi = .run →
        wr r (s.tdiError vd) ∧ (s.listsWait (s.launches.filter (fun l => l.vdev == vd)) = none → ((s.tdiError vd).vd vd).tdi = .error)) ∧
      (inBar0 r = true → isCounter r = false → (s.vd vd).tdi = .error → wr r s) ∧
      (x.ldstate ≠ 1 → (s.quota vd).active = true → exec (.loadGo vd) s = .next (s.modVd vd (fun y =>
        { y with loader := { y.loader with ldctl := false, ldstate := 1, lderr := 0 } }))) ∧
      (x.ldstate ≠ 1 → (s.quota vd).active = false → exec (.loadGo vd) s = .next (s.modVd vd (fun y =>
        { y with loader := { y.loader with ldstate := 3, lderr := 5 } })))) ∧
    (s.portOpen vd = false → isCounter r = false → wr r s) ∧
    (v ≠ 0 → isCounter r = true → wr r s) ∧
    (v = 0 → wr .eccc (s.modCore q (fun x => { x with eccc := 0 })) ∧ wr .eccu (s.modCore q (fun x => { x with eccu := 0 })) ∧
      wr .mscc (s.modModule (fun m => { m with mscc := mapDel q m.mscc })) ∧
      wr .mscu (s.modModule (fun m => { m with mscu := mapDel q m.mscu })) ∧
      wr .drc (s.modModule (fun m => { m with drc := mapDel q m.drc })) ∧
      wr .dru (s.modModule (fun m => { m with dru := mapDel q m.dru }))) ∧
    (vd ≠ s.modl.qtsel ∨ s.portOpen 0 = false → exec (.dlgetWrite vd v) s = .next s) ∧
    (vd = s.modl.qtsel → s.portOpen 0 = true → exec (.dlgetWrite vd v) s = .next ((s.modVd vd (fun x => { x with dlget := v.toNat })).dlThrottle vd)) ∧
    (x.ldstate = 1 →
      (∀ code, loadRun vd s = .ok (.error code) t → exec (.loadComplete vd) s = .next (t.modVd vd (fun y =>
        { y with loader := { y.loader with ldstate := 3, lderr := code } }))) ∧
      (loadRun vd s = .ok (.ok n) t → (t.vd vd).loader.ldsig.getLsbD 63 = false → exec (.loadComplete vd) s = .next (t.modVd vd
        (fun y => { y with loader := { y.loader with ldstate := 2, ldused := BitVec.ofNat 64 n } }))) ∧
      (loadRun vd s = .ok (.ok n) t → (t.vd vd).loader.ldsig.getLsbD 63 = true →
        let g := (t.vd vd).loader.ldsig.toNat
        t.queueIs vd (g / 2 ^ 56 % 64) = true → exec (.loadComplete vd) s = .next ((t.modVd vd
          (fun y => { y with loader := { y.loader with ldstate := 2, ldused := BitVec.ofNat 64 n } })).writeQtl vd
            (g / 2 ^ 56 % 64) (g % 2 ^ 56)))) ∧
    (s.portOpen 0 = false ∨ s.modl.qtstat = 1 → exec .quotaWrite s = .next s) ∧
    (s.portOpen 0 = true → s.modl.qtstat ≠ 1 →
      let s0 := s.modModule (fun m => { m with qtcmd := 1 })
      (s.devPoisoned 0 s.modl.qtimg.toNat 128 = true ∨ s.devRead 0 s.modl.qtimg.toNat 128 = none →
        exec .quotaWrite s = .next (s0.qtDone (if s.modl.qtsel = 0 then 7 else 8))) ∧
      (s.devPoisoned 0 s.modl.qtimg.toNat 128 = false → s.devRead 0 s.modl.qtimg.toNat 128 = some b → let d := s.modl.qtsel
        let s2 : State := { s0 with quotas := mapPut d (Quota.ofBytes b (s.quota d)) s.quotas }
        (s0.quotaCode d (some b) ≠ 0 → exec .quotaWrite s = .next (s0.qtDone (s0.quotaCode d (some b)))) ∧
        (s0.quotaCode d (some b) = 0 → (s.quota d).active = true → exec .quotaWrite s = .next
          (((s2.moveRows d (s.quota d).rows false).dlThrottle d).qtDone 0)) ∧
        (s0.quotaCode d (some b) = 0 → (s.quota d).active = false → numAt b 0 1 % 2 = 1 →
          (s2.tablesHeld d = true → exec .quotaWrite s = .next s) ∧
          (s2.tablesHeld d = false →
            exec .quotaWrite s = .next ((((s2.createVd d).moveRows d 0 true).dlThrottle d).qtDone 0))))) ∧
    (s.portOpen 0 = false → exec .quotaTeardown s = .next s) ∧
    (s.portOpen 0 = true → s.modl.qtsel ≠ 0 → let d := s.modl.qtsel
      let s1 := if s.modl.qtstat = 1 then s
        else (((s.modModule (fun m => { m with qtcmd := 2 })).teardown d).reclaimAll (fun o => o.vdev == d)).qtDone 1
      (s1.reclaiming d = true → exec .quotaTeardown s = .next s1) ∧
      (s1.reclaiming d = false → exec .quotaTeardown s = .next ((({ s1.eraseKeys d with
        quotas := mapPut d { s1.quota d with active := false } s1.quotas } : State).moveRows d (s1.quota d).rows false).qtDone 0))) ∧
    (s.portOpen 0 = true → s.modl.qtsel = 0 → s.modl.qtstat ≠ 1 →
      exec .quotaTeardown s = .next ((s.modModule (fun m => { m with qtcmd := 2 })).qtDone 7))

namespace Sys2Proof.Say
/-- The page that holds these bytes is OWNED by the device and visible to its host (R110). -/
def HostSees (s : State) (vd dpa len p : Nat) : Prop :=
  s.portOpen vd = true ∧ 1 ≤ len ∧ dpa % 64 + len ≤ 64 ∧ s.modPage vd dpa = some p ∧ (s.owner p).state = 1 ∧
  (s.owner p).vdev = vd ∧ (s.owner p).hostvis = true ∧ (s.owner p).pull = false
end Sys2Proof.Say

/-- R110, R111, R397 to R399: host requests to visible pages, fabric requests after their checks, and the end of a post-copy
pull, with its data or by its failure. A request to a page that the host may not see changes nothing, nor does one that fails
its checks; the data of a page that has been reclaimed meanwhile are dropped (log 99). The model's choices: a host request reaches
one line, and a read marks it as one that the host may cache (log 80); the form of a fabric request (log 81); word 0 of event 0x04
(log 85). -/
def Obligations.OutsideRequests : Prop :=
  ∀ (vd dpa p m l n line dom : Nat) (b : List Byte) (va v : BitVec 64) (acc : OutAcc)
    (op : AtomOp) (ty : ITy) (tr : Trap) (s s1 s2 s3 : State),
    let s0 : State := { s with resps := [] }
    let ask := exec (.hostMemAccess vd dpa acc) s
    (HostSees s vd dpa (outLen acc) p → s.dpaHome vd dpa = some (m, l) →
      (acc = .read n → ask = .next { s with
        snoops := mapPut ((m * sliceBytes + l) / 64) () s.snoops
        resps := [if s.homeBad (.slice m) l n then .poison else .data (s.homeRead (.slice m) l n)] }) ∧
      (acc = .write b → s.homePartBad (.slice m) l b.length = false → ask = .next ((s0.homeWrite (.slice m) l b).reply .done)) ∧
      (acc = .write b → s.homePartBad (.slice m) l b.length = true → ask = .next (s0.reply .poison))) ∧
    (s.portOpen vd = true → 1 ≤ outLen acc → dpa % 64 + outLen acc ≤ 64 → s.modPage vd dpa = some p → (s.owner p).state = 1 →
      (s.owner p).vdev = vd → (s.owner p).hostvis = true → (s.owner p).pull = true → s.dpaHome vd dpa = some (m, l) →
      ask = .next (s0.startPull p 0 (.req { vdev := vd, dpa := dpa, acc := acc }))) ∧
    ((∀ p, s.modPage vd dpa = some p → (s.owner p).hostvis = false ∨ (s.owner p).vdev ≠ vd ∨ (s.owner p).state ≠ 1) →
      ask = .next s0) ∧
    (exec (.backInvalidateResponse ⟨vd, line⟩) s = .next (if s.portOpen vd = true ∧ line * 64 / sliceBytes ∈ (s.quota vd).sliceList
      then { s with snoops := mapDel line s.snoops } else s)) ∧
    (∀ w : Who, w = { vdev := vd, dom := dom, win := none } → let ask := exec (.fabricRequest vd dom va acc) s
      (acc = .read n → 1 ≤ n → regionSpan va.toNat n = some .device →
        (unitRead none w va.toNat n s0 = .ok b s1 → ask = .next (s1.reply (.data b))) ∧
        (unitRead none w va.toNat n s0 = .error (.trap tr) s1 → ask = .next (s0.reply (.fault tr))) ∧
        (unitRead none w va.toNat n s0 = .error (.trapAt tr) s1 → ask = .next (s1.reply (.fault tr)))) ∧
      (acc = .write b → 1 ≤ b.length → regionSpan va.toNat b.length = some .device →
        (unitWrite none w va.toNat b s0 = .ok () s1 → ask = .next (s1.reply .done)) ∧
        (unitWrite none w va.toNat b s0 = .error (.trap tr) s1 → ask = .next (s0.reply (.fault tr)))) ∧
      (∀ q, let k := wOf ty / 8
        acc = .atomic op ty v → atomTy ty = true → va.toNat % k = 0 → regionSpan va.toNat k = some .device →
        unitPlaces none w va.toNat k .rw true s0 = .ok q s1 → unitRead none w va.toNat k s1 = .ok b s2 →
        unitWrite none w va.toNat (leBytes (atomNew op ty (leNat b) (v.toNat % 2 ^ wOf ty)) k) s2 = .ok () s3 →
        ask = .next (s3.reply (.data b)))) ∧
    (∀ pl, s.pulls.find? (fun x => x.page == p && x.req) = some pl → (s.owner p).pull = true → let o := s.owner p
      let rest := fun (t : State) => ({ t with pulls := t.pulls.filter (fun x => x.page != p) } : State).nextPull (pageDie p)
      (b.length = 65536 → s.pageSnooped o.vdev p = false → exec (.pullDataArrival p b) s =
        .next ((rest ((if o.state = 1 then s0.writePage o.vdev p b else s0).setOwner p { o with pull := false })).performHeld pl.queue)) ∧
      (s.pageSnooped o.vdev p = true → exec (.pullDataArrival p b) s = .next s) ∧
      (exec (.pullFail p) s = .next ((pl.queue.foldl State.lose (s0.pageLost p)).postEvent o.vdev
          (event 0 4 pl.va o.owner o.srcdev)) ∧
        (∀ d, s.pageDpa o.vdev p = some d → ∀ a ∈ s.pageLines o.vdev d, (mapFind a (s.pageLost p).dpoison).isSome = true) ∧
        (s.pageLost p).dram = s.dram ∧ (s.pageLost p).owner p = { o with pull := false, lost := true })) ∧
    (∀ q : List HeldAcc, (∀ x ∈ q, x.isUnit = false) → s.performHeld q = q.foldl State.performOne s) ∧
    s.performOne (.piece n l) = s.stepPiece n l ∧ s.performOne (.req { vdev := vd, dpa := dpa, acc := acc }) =
      s.hostReq { vdev := vd, dpa := dpa, acc := acc } ∧
    s.lose (.req { vdev := vd, dpa := dpa, acc := acc }) = s.reply .poison ∧
    (∀ x, (s.access n).bind (fun a => a.pieces[l]?) = some x → x.sent = true →
      s.lose (.piece n l) = s.failPiece n l (pageFault x.va 5)) ∧
    (∀ mv, s.lose (.unit vd dom p (some mv)) = { s with lostAt := s.lostAt ++ [(vd, dom, p)], agenda := s.agenda ++ [mv] })

/-! ## The Caddy -/

namespace Sys2Proof.Say
/-- The state after an SPDM response, with a change of the SPDM state. -/
def reply (s : State) (r : Resp) (f : Spdm → Spdm) : Out :=
  .next (s.modModule (fun m => { m with spdm := { f m.spdm with resp := r } }))

/-- The Caddy takes a proposal: the host's while the interface is unlocked, its registers as they stand, or the tenant's from
its session while it is locked or runs; `s0` is the state with the proposal in the registers (R403, R408). -/
def Takes (s : State) (vd kind : Nat) (req : Option SessionReq) (s0 : State) : Prop :=
  vd < 16 ∧ (s.vd vd).prop.cpstat ≠ 1 ∧ match req with
  | none => (s.vd vd).tdi = .unlocked ∧ s.portOpen vd = true ∧ (s.vd vd).prop.cpkind = kind ∧ s0 = s
  | some r => ((s.vd vd).tdi = .locked ∨ (s.vd vd).tdi = .run) ∧ s.modl.spdm.session = true ∧
      s0 = s.modVd vd (fun v => { v with prop := { v.prop with
        cpkind := kind, cppage := r.page.toNat, cpcnt := r.cnt.toNat, cpent := r.ent, cproot := r.root } })

/-- A proposal has been accepted (R403). -/
def accepted (s : State) (vd : Nat) : State :=
  s.modVd vd (fun v => { v with prop := { v.prop with cpgo := false, cpstat := 1, cpdone := 0 } })

/-- The entry that a PAGE proposal asks for; its other bits are zero (R403). -/
def Asks (e : Nat) (n : Owner) : Prop :=
  e = n.owner * 2 ^ 44 + n.key * 2 ^ 32 + n.shared.toNat * 2 ^ 29 + n.hostvis.toNat * 2 ^ 28 ∧ n.owner < 2 ^ 16 ∧ n.key < 2 ^ 12 ∧
  n.state = 1 ∧ n.pull = false ∧ n.lost = false ∧ n.srcdev = 0

/-- What is decided about the next page of a BUSY proposal: `t` is the state after (R158, R403, R404). -/
def Decides (s : State) (vd : Nat) (n : Owner) (t : State) : Prop :=
  let p := (s.vd vd).prop
  let page := p.cppage + p.cpdone
  let o := s.owner page
  let code := s.pageCode vd page n.owner n.key
  (code ≠ 0 → t = s.cpDone vd code) ∧
  (code = 0 → o.state = 1 → o.vdev = vd → o.owner = n.owner → o.key = n.key →
    t.owner page = { o with shared := n.shared, hostvis := n.hostvis } ∧ (t.vd vd).prop.cpdone = p.cpdone + 1 ∧
    (t.vd vd).prop.cpstat = (if p.cpcnt ≤ p.cpdone + 1 then 0 else p.cpstat) ∧ t.dram = s.dram) ∧
  (code = 0 → o.state ≠ 1 ∨ o.vdev ≠ vd ∨ o.owner ≠ n.owner ∨ o.key ≠ n.key →
    t = s.reclaim page { n with vdev := vd } (some vd))
end Sys2Proof.Say

/-- R107, R157, R158, R397, R403, R404, R408: the Caddy decides a page proposal page by page: a page of the same owner and key
takes its bits at once, any other goes through RECLAIM, and a failed check is named in CPSTAT; a domain proposal makes a FREE
record LIVE; the end of the zero fill leaves a page of zeros with its new entry, once the host caches no line of it (log 99). The model's
choices: the order of the checks and the code for a domain out of range (log 61), that a session's request carries the
proposal's fields (log 71), which fields change directly (log 72), what a page becomes that fails a check after its zero fill
(log 120). -/
def Obligations.PagesChangeHands : Prop :=
  ∀ (vd page src key own : Nat) (req : Option SessionReq) (n : Owner) (r : Reclaim) (s s0 : State),
    (Takes s vd 1 req s0 → Asks (s0.vd vd).prop.cpent.toNat n → (s0.vd vd).prop.cpcnt ≠ 0 →
      ∃ t, exec (.proposePage vd req) s = .next t ∧ Decides (accepted s0 vd) vd n t) ∧
    (Takes s vd 1 req s0 → let p := (s0.vd vd).prop
      p.cpcnt = 0 ∨ p.cpent.toNat % 2 ^ 28 ≠ 0 ∨ p.cpent.toNat / 2 ^ 30 % 4 ≠ 0 ∨ p.cpent.toNat / 2 ^ 60 ≠ 0 →
      exec (.proposePage vd req) s = .next ((accepted s0 vd).cpDone vd 6)) ∧
    (vd < 16 → (s.vd vd).prop.cpstat = 1 → (s.vd vd).prop.cpkind = 1 → (s.vd vd).tdi ≠ .error →
      (req = none → (s.vd vd).tdi = .unlocked) →
      (s.filling vd = true → exec (.proposePage vd req) s = .next s) ∧
      (s.filling vd = false → Asks (s.vd vd).prop.cpent.toNat n →
        ∃ t, exec (.proposePage vd req) s = .next t ∧ Decides s vd n t)) ∧
    (Takes s vd 2 req s0 →
      let d := (s0.vd vd).prop.cpent.toNat
      let root := (s0.vd vd).prop.cproot.toNat
      let ends := fun (t : State) n => exec (.proposeDomain vd req) s = .next (t.cpDone vd n)
      (2 ^ 16 ≤ d ∨ root % 4096 ≠ 0 ∨ 2 ^ 56 ≤ root → ends (accepted s0 vd) 6) ∧
      (d < 2 ^ 16 → root % 4096 = 0 → root < 2 ^ 56 →
        ((s.quota vd).active = false ∨ s.dpaHome vd root = none → ends (accepted s0 vd) 2) ∧
        ((s.quota vd).active = true → (s.dpaHome vd root).isSome = true →
          (d = 0 ∨ (s.quota vd).dcap ≤ d ∨ s.dstate vd d ≠ 0 → ends (accepted s0 vd) 3) ∧
          (d ≠ 0 → d < (s.quota vd).dcap → s.dstate vd d = 0 → (accepted s0 vd).tablesHeld vd = true →
            exec (.proposeDomain vd req) s = .next (accepted s0 vd)) ∧
          (d ≠ 0 → d < (s.quota vd).dcap → s.dstate vd d = 0 → (accepted s0 vd).tablesHeld vd = false →
            ends (((accepted s0 vd).devWrite 0 ((s.quota vd).dbase + 32 * d) (leBytes root 8)).setDstate vd d 1) 0)))) ∧
    (vd < 16 → (s.vd vd).tdi = .locked ∨ (s.vd vd).tdi = .run → s.portOpen vd = true →
      exec (.proposePage vd none) s = .next (s.tdiError vd) ∧ exec (.proposeDomain vd none) s = .next (s.tdiError vd)) ∧
    ((s.vd vd).tdi = .error → exec (.proposePage vd req) s = .next s ∧ exec (.proposeDomain vd req) s = .next s) ∧
    (s.reclaims.find? (fun x => x.page == page) = some r →
      let code := if r.next.state = 0 then 0 else (s.setOwner r.page {}).pageCode r.next.vdev r.page r.next.owner r.next.key
      let o := s.owner page
      let entry := if r.next.state = 0 ∨ code ≠ 0 then { o with state := 0, lost := false } else if r.next.pull then r.next
        else { r.next with pull := o.pull, srcdev := o.srcdev }
      let held := s.pageSnooped r.next.vdev page = true ∨ (r.next.state = 1 ∧ code = 0 ∧ (s.vd r.next.vdev).tdi = .error)
      let filled := ((s.writePage r.next.vdev page (zeros 65536)).setOwner page entry) |> fun t =>
        { t with reclaims := t.reclaims.filter (fun x => x.page != page) }
      (held → exec (.reclaimZeroFillDone page) s = .next s) ∧
      (¬ held → (r.prop = none → exec (.reclaimZeroFillDone page) s = .next filled) ∧
        (r.prop = some vd → code = 0 → exec (.reclaimZeroFillDone page) s = .next (filled.pageDone vd)) ∧
        (r.prop = some vd → code ≠ 0 → exec (.reclaimZeroFillDone page) s = .next (filled.cpDone vd code)))) ∧
    (vd < 16 → src < 256 → (s.vd vd).tdi ≠ .error → (s.pageCode vd page own key = 0 →
      exec (.migrationStart vd page src key ⟨own, n.shared, n.hostvis⟩) s = .next (s.reclaim page
        { vdev := vd, owner := own, key := key, state := 1, shared := n.shared, hostvis := n.hostvis, pull := true, srcdev := src } none))) ∧
    (16 ≤ vd ∨ 256 ≤ src ∨ s.pageCode vd page own key ≠ 0 →
      exec (.migrationStart vd page src key ⟨own, n.shared, n.hostvis⟩) s = .next s)

/-- R405 to R407: the SPDM requests in their order; a request out of order is answered UnexpectedRequest; GET_MEASUREMENTS
gives the seven blocks; a CHALLENGE holds its slot against SET_CERTIFICATE until the response has been sent. The error codes are the standard's (log 61);
nonces, signatures and shares are values without a body (log 10). -/
def Sys2Proof.Say.spdmAnswers : Prop :=
  ∀ (slot off len i a b c d : Nat) (ch : List Byte) (nonce : BitVec 256) (peer : BitVec 768) (mac : BitVec 512) (s : State),
    let x := s.modl.spdm
    (exec .getVersion s = reply s (.version 0x13) (fun x => { x with conn := 1, session := false, peer := none })) ∧
    (x.conn < 1 → exec .getCapabilities s = reply s (.error 4) id) ∧
    (1 ≤ x.conn → exec .getCapabilities s = reply s (.capabilities 21) (fun x => { x with conn := max 2 x.conn })) ∧
    (x.conn < 3 → exec .getDigests s = reply s (.error 4) id ∧ exec (.getMeasurements i) s = reply s (.error 4) id ∧
      exec (.challenge slot nonce) s = reply s (.error 4) id ∧ exec (.getCertificate slot off len) s = reply s (.error 4) id) ∧
    (2 ≤ x.conn → a % 2 = 1 → b % 2 = 1 → c % 2 = 1 → d % 2 = 1 →
      exec (.negotiateAlgorithms a b c d) s = reply s (.algorithms 1 1 1 1) (fun x => { x with conn := 3 })) ∧
    (3 ≤ x.conn →
      exec .getDigests s = reply s (.digests ((upto 8).filterMap (fun k => (s.chain k).map (fun c => (k, shake256 c))))) id ∧
      (s.chain slot = some ch → off < ch.length →
        exec (.getCertificate slot off len) s = reply s (.certificate slot ((ch.drop off).take len)) id) ∧
      (1 ≤ slot → slot < 8 → x.chal = none →
        exec (.setCertificate slot ch) s = reply s (.setCertificate slot) (fun x => { x with certs := mapPut slot ch x.certs })) ∧
      (x.chal = some (slot, nonce, i) → s.modl.rclk < i + 2097152000 → 1 ≤ slot → slot < 8 →
        exec (.setCertificate slot ch) s = reply s (.error 3) id) ∧
      (slot = 0 → exec (.setCertificate slot ch) s = reply s (.error 1) id) ∧
      (s.chain slot ≠ none → x.chal = none → exec (.challenge slot nonce) s =
        reply s .none (fun x => { x with chal := some (slot, nonce, s.modl.rclk) })) ∧
      (1 ≤ i → i ≤ 7 → exec (.getMeasurements i) s = reply s (.measurements [(i, s.measurement i)]) id) ∧
      (i = 0xFF → exec (.getMeasurements i) s =
        reply s (.measurements ([1, 2, 3, 4, 5, 6, 7].map (fun k => (k, s.measurement k)))) id) ∧
      (s.chain slot = some ch → x.session = false → let share := Config.keyShare s.fresh
        exec (.keyExchange slot peer) s = reply { s with fresh := s.fresh + 1 } (.keyExchange share
          (Config.sign (leBytes peer.toNat 96 ++ leBytes share.toNat 96 ++ ch))) (fun x => { x with peer := some peer }))) ∧
    (x.chal = some (slot, nonce, i) → exec .challengeResponseSent s = reply s (.challengeAuth slot
      (Config.sign (leBytes nonce.toNat 32 ++ (s.chain slot).getD []))) (fun x => { x with chal := none })) ∧
    (x.peer = some peer → x.session = false →
      (Config.finishOk peer mac = true → exec (.finish mac) s = reply s .finish (fun x => { x with session := true })) ∧
      (Config.finishOk peer mac = false → exec (.finish mac) s = reply s (.error 6) (fun x => { x with peer := none }))) ∧
    (x.session = true → exec .endSession s = reply s .endSession (fun x => { x with session := false, peer := none })) ∧
    (x.session = false → exec .endSession s = reply s (.error 4) id)

/-- R160, R402, R406, R408: in the secure session, key slots are loaded under the next generation and erased where no page
names them; stream keys open a function's port; an interface goes from unlocked to locked to run and back; a stream's failure
closes the port and makes the interface ERROR. Outside the session each is answered UnexpectedRequest. The code of
INVALID_REQUEST (log 61), the phases of a stop (log 70) and what a failing stream leaves (log 82) are the model's choices. -/
def Sys2Proof.Say.keysAndInterfaces : Prop :=
  ∀ (vd slot q : Nat) (nonce : BitVec 256) (s : State), let v := s.vd vd
    let mine := s.launches.filter (fun l => l.vdev == vd)
    (s.modl.spdm.session = false → (∀ i ∈ [Instr.keySlotLoad vd slot 0 q, .keySlotErase vd slot, .ideKm vd, .lockInterfaceRequest vd,
      .startInterfaceRequest vd nonce, .stopInterfaceRequest vd, .getDeviceInterfaceReport vd, .getDeviceInterfaceState vd],
      exec i s = reply s (.error 4) id)) ∧
    (s.modl.spdm.session = true →
      (s.inKeys vd slot = true → let k := s.key slot
        exec (.keySlotLoad vd slot 0 q) s =
          reply (s.setKey slot { kgen := (k.kgen + 1) % 2 ^ 16, vdev := vd, use := 0, kstate := 1 }) .vendor id ∧
        (s.queueIs vd q = true → exec (.keySlotLoad vd slot 1 q) s = reply ((s.setKey slot
          { kgen := (k.kgen + 1) % 2 ^ 16, vdev := vd, use := 1, kstate := 1 }).modQueue vd q (fun x => { x with qkey := slot }))
            .vendor id) ∧
        (slot ≠ 0 → k.kstate ≠ 0 → (∀ e ∈ s.owners, ¬ (e.2.state = 1 ∧ e.2.key = slot)) →
          exec (.keySlotErase vd slot) s = reply (s.setKey slot { k with kstate := 0 }) .vendor id)) ∧
      (s.inKeys vd slot = false → exec (.keySlotLoad vd slot 0 q) s = reply s (.error 1) id ∧
        exec (.keySlotErase vd slot) s = reply s (.error 1) id) ∧
      (∀ e ∈ s.owners, e.2.state = 1 → e.2.key = slot → exec (.keySlotErase vd slot) s = reply s (.error 1) id) ∧
      (vd < 16 → exec (.ideKm vd) s = reply (s.modVd vd (fun v => { v with ide := true, ideKey := v.ideKey + 1 })) (.ideKm vd) id) ∧
      (1 ≤ vd → vd < 16 →
        (v.tdi = .unlocked → (s.quota vd).active = true → v.ide = true → s.modl.unlocked = false → v.prop.cpstat ≠ 1 →
          let n := Config.random s.fresh
          exec (.lockInterfaceRequest vd) s = reply ({ s with fresh := s.fresh + 1 }.modVd vd (fun v =>
            { v with tdi := .locked, nonce := n })) (.lock n) id) ∧
        (v.tdi ≠ .unlocked ∨ s.modl.unlocked = true → exec (.lockInterfaceRequest vd) s = reply s (.error 1) id) ∧
        (v.tdi = .locked → v.nonce = nonce → exec (.startInterfaceRequest vd nonce) s =
          reply (s.modVd vd (fun v => { v with tdi := .run })) (.started vd) id) ∧
        (v.tdi ≠ .locked ∨ v.nonce ≠ nonce → exec (.startInterfaceRequest vd nonce) s = reply s (.error 1) id) ∧
        (v.tdi ≠ .unlocked → s.listsWait mine = none → let s1 := (s.killQueues vd).reclaimAll (fun o => o.vdev == vd)
          (s1.reclaiming vd = true ∨ s1.tablesHeld vd = true → exec (.stopInterfaceRequest vd) s = .next s1) ∧
          (s1.reclaiming vd = false → s1.tablesHeld vd = false → ∃ t, exec (.stopInterfaceRequest vd) s = .next t ∧ (t.vd vd).tdi = .unlocked ∧
            t.modl.spdm.resp = .stopped vd)) ∧
        (v.tdi = .locked ∨ v.tdi = .run → exec (.getDeviceInterfaceReport vd) s = reply s (.report vd true true) id) ∧
        exec (.getDeviceInterfaceState vd) s = reply s (.state vd v.tdi) id)) ∧
    (vd < 16 → v.ide = true → ∃ t, exec (.ideStreamFailure vd) s = .next t ∧
      (vd ≠ 0 → s.listsWait mine = none → (t.vd vd).tdi = .error ∧ (t.vd vd).ide = false) ∧ (vd = 0 → (t.vd vd).ide = false))

/-- R160, R402, R405 to R408: SPDM requests, and keys and interfaces under the secure session. The model's choices: log 10, 61, 70, 82. -/
def Obligations.SpdmKeysAndInterfaces : Prop :=
  Say.spdmAnswers ∧ Say.keysAndInterfaces

/-- R409 to R411: a valid debug token unlocks the module while no interface is locked; an image whose signature and security
version pass is staged, waits for its boundary when activated, and runs where its self-test passes; the link controllers'
(k = 5) retrain the links one by one (R401). Signatures and the fields' places in a token and an image (log 10), and the codes of
DBGSTAT and FWSTAT (log 61), are the model's choices. -/
def Obligations.DebugAndFirmware : Prop :=
  ∀ (k : Nat) (b : List Byte) (s : State), let m := s.modl
    (s.portOpen 0 = true →
      (s.devPoisoned 0 m.dbgsrc.toNat (40 + sigLen) = false → s.devRead 0 m.dbgsrc.toNat (40 + sigLen) = some b →
        (numAt b 0 8 = Config.serial.toNat → numAt b 8 32 = m.dbgnonce.toNat → Config.sigOk 0 b = true →
          ((∀ v, 1 ≤ v → v < 16 → (s.vd v).tdi ≠ .locked ∧ (s.vd v).tdi ≠ .run) → exec .debugTokenSubmit s = .next
            ({ s with fresh := s.fresh + 1 }.modModule (fun m =>
              { m with unlocked := true, dbgstat := 0, dbgnonce := Config.random s.fresh }))) ∧
          (∀ v, 1 ≤ v → v < 16 → (s.vd v).tdi = .locked ∨ (s.vd v).tdi = .run →
            exec .debugTokenSubmit s = .next (s.modModule (fun m => { m with dbgstat := 2 })))) ∧
        (numAt b 0 8 ≠ Config.serial.toNat ∨ numAt b 8 32 ≠ m.dbgnonce.toNat ∨ Config.sigOk 0 b = false →
          exec .debugTokenSubmit s = .next (s.modModule (fun m => { m with dbgstat := 1 })))) ∧
      (m.fwsel ≠ 0 → let u := s.modModule (fun m => { m with fwcmd := 1 })
        s.devPoisoned 0 m.fwsrc.toNat m.fwlen.toNat = false → s.devRead 0 m.fwsrc.toNat m.fwlen.toNat = some b →
        (Config.sigOk m.fwsel b = true → (s.fw m.fwsel).secver ≤ Config.secVersion b →
          exec .fwStage s = .next ((u.modFw m.fwsel (fun x => { x with staged := some b })).fwStat 0)) ∧
        (Config.sigOk m.fwsel b = false ∨ Config.secVersion b < (s.fw m.fwsel).secver → exec .fwStage s = .next (u.fwStat 2))) ∧
      (m.fwsel ≠ 0 → let u := s.modModule (fun m => { m with fwcmd := 2 })
        ((s.fw m.fwsel).staged ≠ none →
          exec .fwActivate s = .next ((u.modFw m.fwsel (fun x => { x with act := true, next := 0 })).fwStat 1)) ∧
        ((s.fw m.fwsel).staged = none → exec .fwActivate s = .next (u.fwStat 2)))) ∧
    ((s.fw k).staged = some b → (s.fw k).act = true → s.fwBoundary k = false →
      exec (.fwSwitch k true) s = .next s ∧ exec (.fwSwitch k false) s = .next s) ∧
    ((s.fw k).staged = some b → (s.fw k).act = true → s.fwBoundary k = true → let n := (s.fw k).next
      (k = 5 → n < 274 → ∀ ok, exec (.fwSwitch k ok) s =
        .next ((s.retrain (fun l => l == n)).modFw k (fun x => { x with next := n + 1 }))) ∧
      (k ≠ 5 ∨ 274 ≤ n →
        exec (.fwSwitch k true) s =
          .next ((s.modFw k (fun _ => { meas := some (shake256 b), secver := Config.secVersion b })).fwStat 0) ∧
        exec (.fwSwitch k false) s = .next ((s.modFw k (fun x => { x with staged := none, act := false })).fwStat 3)))

/-! ## Links, cores, clock, resets -/

namespace Sys2Proof.Say
/-- The dies that the shared edge of mesh link k joins (R14). -/
def dies (k : Nat) : List Nat := match k / 64 with | 0 => [0, 1] | 1 => [2, 3] | 2 => [0, 2] | _ => [1, 3]
end Sys2Proof.Say

/-- R12, R14, R165, R195, R401, R413, R414: a link, of the 256 on the shared edges or the 18 fabric ports, retrains under fresh
keys and is retired at its third failure; a core's number passes to a spare when its threads have gone, its queues, registers
and counters as they are; time is slewed by at most 200 ppm, not before the first synchronisation, and stepped forward only;
heat lowers the clock within its limits and stops it; a die's reset retrains that die's links and tears down the devices with a
core on it. Which spare is taken, the numbers of the edges and how a synchronisation slews are the model's choices (log 64, 73, 74). -/
def Obligations.ModuleEvents : Prop :=
  ∀ (k n j temp flow elapsed die power : Nat) (offset : Int) (reason : BitVec 64) (s : State), let l := s.link k
    let live := k < 274 ∧ l.retired = false
    let fresh : Link := { l with tx := { keygen := l.tx.keygen + 1 }, rx := { keygen := l.rx.keygen + 1 }, fails := 0 }
    let rekey := fun (w : Way) => if 2 ^ 47 ≤ w.count then { keygen := w.keygen + 1 } else w
    (∃ t, exec (.flitTagFail k true) s = .next t ∧ (¬ live → t = s) ∧
      (live → t = ({ s with fresh := s.fresh + 1 }.setLink k fresh).postEvent 0
        (event 0 2 k (if k < 256 then k / 64 else k - 256) (Config.linkLanes k s.fresh)))) ∧
    (∃ t, exec (.flitTagFail k false) s = .next t ∧ (¬ live → t = s) ∧
      (live → t = s.setLink k { l with fails := l.fails + 1, retired := decide (3 ≤ l.fails + 1) })) ∧
    (∃ t, exec (.linkRekey k) s = .next t ∧ (¬ live → t = s) ∧
      (live → t = s.setLink k { l with tx := rekey l.tx, rx := rekey l.rx })) ∧
    (∃ u, exec (.coreRetire n) s = .next u ∧
      (s.mapped n = false → u = s) ∧
      (s.mapped n = true → (s.core n).running = true →
        u = (s.modCore n (fun x => { x with retiring := true })).preempt n .retire) ∧
      (s.mapped n = true → (s.core n).running = false → let d := dieOf n
        let old := (s.lptEntry d (dieIdx n)).toNat % 4096
        let vd := mapGet 0 (n / 128) s.rowVd
        (j < 64 → (s.detour d j).getLsbD 31 = false → (∀ i, i < j → (s.detour d i).getLsbD 31 = true) → ∃ t : State,
          u = t.postEvent vd (event 0 5 n old (4032 + j)) ∧
          t.lptEntry d (dieIdx n) = BitVec.ofNat 16 (0x8000 + 4032 + j) ∧
          t.detour d j = BitVec.ofNat 32 (2 ^ 31 + j * 2 ^ 24 + old * 2 ^ 12 + dieIdx n) ∧
          t.core n = { s.core n with
            lrt := [], ccache := [], tlb := [], hinst := none, halted := false, pre := none, retiring := false, tile := none } ∧
          (∀ i, i < 2 ^ 18 → memRead t.lmem (lkey n i) = 0) ∧ (∀ i, i < 131072 → memRead t.acc (n * 131072 + i) = 0) ∧
          ∀ c, c ≠ n → t.core c = s.core c) ∧
        ((∀ i, i < 64 → (s.detour d i).getLsbD 31 = true) →
          u = { s.modCore n (fun x => { x with retiring := false }) with
            lpt := mapPut (d * 4096 + dieIdx n) (BitVec.ofNat 16 old) s.lpt }.postEvent vd (event 0 5 n old old)))) ∧
    (∃ t, exec (.ptpSync offset elapsed) s = .next t ∧ t.modl.synced = true ∧ t.lmem = s.lmem ∧ t.cores = s.cores ∧
      (s.modl.rclk + elapsed + elapsed * 200 / 1000000 + 1000000 < 2 ^ 64 → offset ≤ 1000000 →
        s.modl.rclk + elapsed - elapsed * 200 / 1000000 ≤ t.modl.rclk ∧
        t.modl.rclk ≤ s.modl.rclk + elapsed + elapsed * 200 / 1000000 ∧ s.modl.rclk ≤ t.modl.rclk) ∧
      (s.modl.synced = false → offset ≤ 1000000 → t.modl.rclk = (s.modl.rclk + elapsed) % 2 ^ 64) ∧
      (1000000 < offset → t.modl.rclk = (s.modl.rclk + elapsed + offset.toNat) % 2 ^ 64)) ∧
    exec (.thermalStep temp) s = .next (s.modModule (fun m =>
      { m with hot := decide (100 ≤ temp), clock := if 100 ≤ temp then max 4 (m.clock - 1) else m.clock })) ∧
    exec (.thermalTrip temp) s =
      .next (if 110 ≤ temp then s.modModule (fun m => { m with hot := true, tripped := true, tripRep := true }) else s) ∧
    exec (.coolantFlowLow flow) s = .next (if flow < 4000 then s.modModule (fun m => { m with coolLow := true }) else s) ∧
    exec (.coolantFlowRestored flow) s = .next (if 4000 ≤ flow then s.modModule (fun m => { m with coolLow := false }) else s) ∧
    (∀ limit, limit = (if s.modl.coolLow then 3000 else 5000) →
      exec (.powerLimitStep ⟨false, power⟩) s =
        .next (if limit < power then s.modModule (fun m => { m with clock := max 4 (m.clock - 1) }) else s) ∧
      exec (.powerLimitStep ⟨true, power⟩) s =
        .next (if power ≤ limit ∧ s.modl.hot = false then s.modModule (fun m => { m with clock := min 16 (m.clock + 1) }) else s)) ∧
    (4 ≤ die → exec (.dieReset die reason) s = .next s) ∧
    (die < 4 → ∃ lks : List (Nat × Link),
      (∀ m, let y := s.link m
        mapGet {} m lks = if m < 256 ∧ die ∈ dies m ∧ y.retired = false then
          { y with tx := { keygen := y.tx.keygen + 1 }, rx := { keygen := y.rx.keygen + 1 }, fails := 0 } else y) ∧
      exec (.dieReset die reason) s =
        .next (((upto 16).foldl (fun t v => if s.onDie v die then t.teardown v else t)
          (s.modModule (fun m => { m with links := lks }))).postEvent 0 (event 0 3 die reason.toNat 0)))

/-- R2, R74, R75, R161, R164, R413: what reset leaves: each register at its reset value, every core and seat empty, no launch,
every logical core mapped to the physical core of its number; a cold reset takes every state there, but for what lies beyond
the module, its certificates and its firmware. Registers for which the spec states no value hold the model's own (log 2, 3, 5);
what a cold reset keeps is the model's reading (log 75). -/
def Obligations.ResetState : Prop :=
  let r := State.reset
  (∀ c k, let x := r.seat c k
    x.occ = .free ∧ (r.core c).status k = 1 ∧ x.main.pc = ⟨0, 0⟩ ∧ x.fstat = 0 ∧ x.amax = 0 ∧ x.epc = ⟨0, 0⟩ ∧ x.ecause = 0 ∧ x.eval = 0 ∧ x.gstat = 0 ∧
    x.depth = 0 ∧ x.lid = 0 ∧ x.hnd = false ∧ x.rsm = false ∧ x.curdom = 0 ∧ x.basedom = 0 ∧ (∀ n, x.view n = {}) ∧
    (∀ n, x.reg n = 0) ∧ (∀ n, x.full n = true) ∧ (∀ n, x.p n = decide (n = 0)) ∧ ((r.core c).hinst = none) ∧
    (r.core c).inbox = [] ∧ (r.core c).dqCount = 0 ∧ (r.core c).slots = []) ∧
  (∀ c, c < 16128 → r.mapped c = true ∧ r.coreId c = dieIdx c * 2 ^ 16 + dieOf c * 2 ^ 14 + c) ∧
  r.launches = [] ∧ r.flight = [] ∧ (∀ p, (r.owner p).state = 0) ∧
  (∀ s, ∃ t, exec .moduleColdReset s = .next t ∧ t.cores = r.cores ∧ t.lmem = r.lmem ∧ t.acc = r.acc ∧ t.dram = r.dram ∧
    t.quotas = r.quotas ∧ t.owners = r.owners ∧ t.launches = r.launches ∧ t.vdevs = r.vdevs ∧ t.keys = r.keys ∧
    t.host = s.host ∧ t.fabric = s.fabric ∧ t.hpoison = s.hpoison ∧ t.fpoison = s.fpoison ∧ t.modl.spdm.certs = s.modl.spdm.certs ∧
    ∀ k, (t.fw k).meas = (s.fw k).meas ∧ (t.fw k).secver = (s.fw k).secver ∧ (t.fw k).staged = none)

/-! ## The step, the decoder, memory -/

namespace Sys2Proof.Say
/-- The state after a move: accesses of units that the move has had held are named to be made again in it (R398), and a write
that made a sleeper's word differ has woken it (R360). -/
def woken (m : Move) (o : Out) : Out :=
  match o with | .next t => .next ({ t with pulls := t.pulls.map (fun (p : Pull) => p.named m) } : State).wake | o => o

/-- The state after a core's port has issued: each follower that has executed the forwarded instruction has given it its slot,
and its ready seats have aged (R20, R25). -/
def issued (s : State) (c : Nat) (o : Out) : Out :=
  match o with
  | .next t => .next ((s.forwardedTo t c).foldl (fun t n => t.modCore n (fun x => x.ages (s.readySeats n 0).2 none)) t)
  | o => o

/-- The twelve bytes of local memory at a strand's PC decode to `i`: within SEGB, in granules that it may execute, not
poisoned, nothing in its fetch buffer, no repeat, an operation that its kind of strand accepts (R232). -/
def Fetches (s : State) (a : Agent) (i : Instr) : Prop :=
  let x := s.seat a.core a.seat
  let t := x.strand a.strn
  let off := codeAddr t.pc
  let w : IWord := BitVec.ofNat 96 (leNat ((upto 12).map (fun j => memRead s.lmem (lkey a.core (off + j)))))
  t.fbuf = [] ∧ t.rep.count = 0 ∧ t.pc.idx < x.segb ∧ localOkAt s a.core off 12 x.who .x false false = true ∧
  (∀ j, j < 12 → mapFind (lkey a.core (off + j) / 8) s.lpoison = none) ∧ decode w = .ok i ∧
  strandOk a.strn (fieldsOf w).opc = true
end Sys2Proof.Say

/-- R20, R80, R215, R232, R360, R413, R414: a step is one move. A ready strand whose twelve bytes of local memory at its PC decode to an
instruction that its kind of strand accepts issues `exec` of that instruction, and after it holds what its fetch buffer then
holds. An engine strand issues by its own move, a main strand by its core's port, which gives the turn to the seat that R20
chooses among those whose attempt does not only wait (log 90); a unit's move is `exec` of it. After each move sleepers whose word
differs are woken. Which move comes next is the agenda's, then a free choice (log 1), and so is how many words a strand fetches
ahead (log 37); time goes by, bit errors strike and flits pass, by moves of their own (log 8, 95). After a thermal trip only a
cold reset can follow. -/
def Obligations.StepRunsDecodedInstruction : Prop :=
  ∀ (c k pre n ns cycles : Nat) (hard tx : Bool) (em : EccMem) (l : List Nat) (a : Agent) (st : StrandK) (m : Move) (ms : List Move)
    (i : Instr) (u s : State), let s' : State := { s with agenda := ms }
    (Fetches u a i → u.nextInstr a = .ok i) ∧
    (let u0 : State := { u with cur := a, did := false }
      let x := u.seat a.core a.seat
      u0.ready a = true → (∀ r ∈ x.reports, r.1 ≠ a.strn) → (a.strn = .main → (u.core a.core).leads a.core a.seat = none) →
      u0.nextInstr a = .ok i →
      u.issueAt a pre = match exec i u0 with | .next t => .next (t.afterIssue a (x.strand a.strn).pc i pre) | o => o) ∧
    (s.modl.tripped = false → s.agenda = .strand c k st pre :: ms → st ≠ .main →
      step s = woken (.strand c k st pre) (s'.issueAt { core := c, seat := k, strn := st } pre)) ∧
    (s.modl.tripped = false → s.agenda = .port c pre :: ms →
      let (s0, ready) := s'.readySeats c pre
      let chosen := (s0.core c).choose ready
      let s1 := s0.modCore c (fun x => x.ages ready chosen)
      step s = woken (.port c pre) (match chosen with
        | some k => issued s1 c (s1.issueAt { core := c, seat := k } pre)
        | none => .next s1) ∧
      (∀ j, chosen = some j → j ∈ ready ∧
        (∀ i ∈ ready, 16 ≤ ((s0.core c).seat i).age → ((s0.core c).seat i).age ≤ ((s0.core c).seat j).age) ∧
        ((∀ i ∈ ready, ((s0.core c).seat i).age < 16) → ∀ i ∈ ready, ((s0.core c).seat i).pri ≤ ((s0.core c).seat j).pri)) ∧
      (chosen = none ↔ ready = [])) ∧
    (s.modl.tripped = false → s.agenda = .port c pre :: ms → k < 4 → s'.ready { core := c, seat := k } = true →
      (∀ j, j < 4 → j ≠ k → s'.ready { core := c, seat := j } = false) → s'.unmet c k pre = none →
      let s1 := s'.modCore c (fun x => x)
      step s = woken (.port c pre) (issued s1 c (s1.issueAt { core := c, seat := k } pre))) ∧
    (s.modl.tripped = false ∨ i = .moduleColdReset → s.agenda = .event i :: ms → i.isEvent = true →
      step s = woken (.event i) (exec i { s' with cur := {}, did := false })) ∧
    (s.modl.tripped = false →
      (m = .reach l → s.agenda = m :: ms → step s = woken m (.next { s' with reach := l })) ∧
      (m = .flaw em n hard → s.agenda = m :: ms → step s = woken m (.next (s'.flaw em n hard))) ∧
      (m = .pass ns cycles → s.agenda = m :: ms → step s = woken m (.next (s'.elapse ns cycles))) ∧
      (m = .flits c tx n → s.agenda = m :: ms → step s = woken m (.next (s'.flits c tx n)))) ∧
    (s.modl.tripped = true → s.agenda = m :: ms → m ≠ .event .moduleColdReset → step s = .fault .clocksStopped)

/-- R214 to R226: the words that the spec writes out decode to the instructions that it names, and words that it calls
reserved to none: opcode 0, family 0xF, the inverted p0, ADD with a tile destination, MOV with register 70. -/
def Obligations.DecodeWords : Prop :=
  let h : Head := { ginv := false, gpred := 0, endH := false, yld := false, pri := 1, dly := 0 }
  let r (n : Nat) : Src := .scal n ⟨false, false, false⟩ false
  let t (n : Nat) : Src := .tile n ⟨false, false, false⟩ false
  let word (w0 w1 w2 : Nat) : Nat := w0 + w1 * 2 ^ 32 + w2 * 2 ^ 64
  decodeTableWord 96 (word 0x01BFFFFD 0x40010280 0x10C94104) =
    some (.add { h with gpred := 2, yld := true } ⟨.i32, false⟩ 4 (r 5) (.lit (BitVec.ofInt 22 (-3)))) ∧
  decodeTableWord 96 (word 0x010B0040 0x60018480 0x1164C908) =
    some (.mul { h with ginv := true, gpred := 1, pri := 3, dly := 2 } ⟨.i64, false⟩ 8
      (.scal 9 ⟨false, false, false⟩ true) (.cbank 2 3 0x40)) ∧
  decodeTableWord 96 (word 0 0 0x02024300) = some (.exit { h with endH := true }) ∧
  decodeTableWord 96 (word 0 0x00000700 0x62404014) = some (.tsplit h none 20 (t 14)) ∧
  decodeTableWord 96 (word 0x00040000 0x00000780 0x7000411E) = some (.mma h .fp32 false 30 (t 15) (t 16)) ∧
  decodeTableWord 96 (word 0 0x00310C00 0x80004004) = some (.cpyLd h 0 true true false 4 (r 24)) ∧
  decodeTableWord 96 (word 0x01801000 0x60010000 0x90804109) = some (.lda h 3 false 9 (r 0) (.lit 0x1000)) ∧
  decodeTableWord 96 (word 0x01800001 0xE0010200 0xA0004106) = some (.aadd h .n64 (some 6) (r 4) (.lit 1)) ∧
  decodeTableWord 96 (word 0 0x68000000 0xA8004300) = some (.fence h .dev .rel) ∧
  decodeTableWord 96 (word 0 0x00010600 0xD0C04300) = some (.gcall h (r 12) none) ∧
  decodeTableWord 96 (word 0 0x90010200 0xE0004103) = some (.esubOpen h 1 3 (r 4)) ∧
  decodeTableWord 96 (word 0 0 0) = none ∧ decodeTableWord 96 (word 0 0 0xFC000000) = none ∧
  decodeTableWord 96 (word 0x01BFFFFD 0x40010280 0x10E14104) = none ∧
  decodeTableWord 96 (word 0x01BFFFFD 0x40010280 0x10C94004) = none ∧
  decodeTableWord 96 (word 0 0x40010280 0x10004146) = none

/-- R214 to R226: for every instruction that a word can hold, the word that encodes it decodes to it: no operand, modifier,
hint or guard is lost. -/
def Obligations.EncodeDecodeRoundTrip : Prop := ∀ i : Instr, i.wf = true → decode (encode i) = .ok i

/-- Every step keeps the canonical form of local, accumulator, device, host and fabric memory, so that equal memories are
equal data (log 4). -/
def Obligations.StepKeepsMemoryForm : Prop :=
  ∀ s s' : State, Safety.MemWf s → step s = .next s' → Safety.MemWf s'

/-- R2: after reset every memory is empty, in its canonical form, and reads as zero (host and fabric memory: log 4). -/
def Obligations.ResetMemoryForm : Prop :=
  Safety.MemWf State.reset ∧ ∀ a, memRead State.reset.lmem a = 0 ∧ memRead State.reset.acc a = 0 ∧
    memRead State.reset.dram a = 0 ∧ memRead State.reset.host a = 0 ∧ memRead State.reset.fabric a = 0
end

