-- ==== Sys2Proof/Laws/Map.lean ====
section
/-! SUPPORT. Laws of sparse data and of memory: a read after a write, what a write leaves alone, and that every operation
keeps the canonical form. -/
namespace Sys2Proof.Machine

variable {α : Type}

@[simp] theorem mapFind_mapPut_self (k : Nat) (v : α) (m : List (Nat × α)) : mapFind k (mapPut k v m) = some v := by
  induction m with
  | nil => simp [mapPut, mapFind]
  | cons e m ih =>
    obtain ⟨j, w⟩ := e
    by_cases h : j < k
    · have : j ≠ k := by omega
      simp [mapPut, mapFind, h, this, ih]
    · by_cases h2 : j = k <;> simp [mapPut, mapFind, h, h2]

theorem mapFind_mapPut_ne {k k' : Nat} (hk : k' ≠ k) (v : α) (m : List (Nat × α)) :
    mapFind k' (mapPut k v m) = mapFind k' m := by
  induction m with
  | nil => simp [mapPut, mapFind, hk.symm]
  | cons e m ih =>
    obtain ⟨j, w⟩ := e
    by_cases h : j < k
    · simp [mapPut, mapFind, h, ih]
    · by_cases h2 : j = k
      · subst h2; simp [mapPut, mapFind, hk.symm]
      · simp [mapPut, mapFind, h, h2, hk.symm]

theorem mapFind_mapDel_ne {k k' : Nat} (hk : k' ≠ k) (m : List (Nat × α)) :
    mapFind k' (mapDel k m) = mapFind k' m := by
  induction m with
  | nil => rfl
  | cons e m ih =>
    obtain ⟨j, w⟩ := e
    by_cases h2 : j = k
    · subst h2; simp [mapDel, mapFind, hk.symm]
    · simp [mapDel, mapFind, h2, ih]

@[simp] theorem mapGet_mapPut_self (d : α) (k : Nat) (v : α) (m : List (Nat × α)) : mapGet d k (mapPut k v m) = v := by
  simp [mapGet]

theorem mapGet_mapPut_ne (d : α) {k k' : Nat} (hk : k' ≠ k) (v : α) (m : List (Nat × α)) :
    mapGet d k' (mapPut k v m) = mapGet d k' m := by
  simp [mapGet, mapFind_mapPut_ne hk]

@[simp] theorem mapPut_mapPut (k : Nat) (v w : α) (m : List (Nat × α)) : mapPut k v (mapPut k w m) = mapPut k v m := by
  induction m with
  | nil => simp [mapPut]
  | cons e m ih =>
    obtain ⟨j, u⟩ := e
    by_cases h : j < k
    · simp [mapPut, h, ih]
    · by_cases h2 : j = k <;> simp [mapPut, h, h2]

section canonical
variable [DecidableEq α]

theorem mapWfFrom_le {d : α} {lo lo' : Nat} (h : lo' ≤ lo) {m : List (Nat × α)} (hm : mapWfFrom d lo m = true) :
    mapWfFrom d lo' m = true := by
  cases m with
  | nil => rfl
  | cons e m =>
    simp only [mapWfFrom, Bool.and_eq_true, decide_eq_true_eq] at hm ⊢
    exact ⟨⟨by omega, hm.1.2⟩, hm.2⟩

theorem mapFind_below {d : α} {lo k : Nat} (hk : k < lo) {m : List (Nat × α)} (hm : mapWfFrom d lo m = true) :
    mapFind k m = none := by
  induction m generalizing lo with
  | nil => rfl
  | cons e m ih =>
    obtain ⟨j, w⟩ := e
    simp only [mapWfFrom, Bool.and_eq_true, decide_eq_true_eq] at hm
    have : j ≠ k := by omega
    simp only [mapFind, this, if_false]
    exact ih (lo := j + 1) (by omega) hm.2

theorem mapFind_mapDel_self {d : α} {lo : Nat} (k : Nat) {m : List (Nat × α)} (hm : mapWfFrom d lo m = true) :
    mapFind k (mapDel k m) = none := by
  induction m generalizing lo with
  | nil => rfl
  | cons e m ih =>
    obtain ⟨j, w⟩ := e
    simp only [mapWfFrom, Bool.and_eq_true, decide_eq_true_eq] at hm
    by_cases h : j = k
    · subst h
      simpa [mapDel] using mapFind_below (Nat.lt_succ_self j) hm.2
    · simpa [mapDel, mapFind, h] using ih hm.2

theorem mapWfFrom_mapPut {d v : α} {lo k : Nat} (hv : v ≠ d) (hk : lo ≤ k) {m : List (Nat × α)}
    (hm : mapWfFrom d lo m = true) : mapWfFrom d lo (mapPut k v m) = true := by
  induction m generalizing lo with
  | nil => simp [mapPut, mapWfFrom, hv, hk]
  | cons e m ih =>
    obtain ⟨j, w⟩ := e
    simp only [mapWfFrom, Bool.and_eq_true, decide_eq_true_eq] at hm
    by_cases h : j < k
    · simp [mapPut, mapWfFrom, h, hm.1.1, hm.1.2, ih (lo := j + 1) (by omega) hm.2]
    · by_cases h2 : j = k
      · subst h2; simp [mapPut, mapWfFrom, hv, hk, hm.2]
      · have h3 : k + 1 ≤ j := by omega
        simp [mapPut, mapWfFrom, h, h2, hv, hk, h3, hm.1.2, hm.2]

theorem mapWfFrom_mapDel {d : α} {lo : Nat} (k : Nat) {m : List (Nat × α)} (hm : mapWfFrom d lo m = true) :
    mapWfFrom d lo (mapDel k m) = true := by
  induction m generalizing lo with
  | nil => rfl
  | cons e m ih =>
    obtain ⟨j, w⟩ := e
    simp only [mapWfFrom, Bool.and_eq_true, decide_eq_true_eq] at hm
    by_cases h : j = k
    · simpa [mapDel, h] using mapWfFrom_le (by omega) hm.2
    · simp [mapDel, h, mapWfFrom, hm.1.1, hm.1.2, ih hm.2]

theorem mapWf_mapSet {d v : α} (k : Nat) {m : List (Nat × α)} (hm : mapWf d m = true) : mapWf d (mapSet d k v m) = true := by
  unfold mapSet
  split
  · exact mapWfFrom_mapDel k hm
  · exact mapWfFrom_mapPut ‹_› (Nat.zero_le _) hm

theorem mapGet_mapSet_self {d : α} (k : Nat) (v : α) {m : List (Nat × α)} (hm : mapWf d m = true) :
    mapGet d k (mapSet d k v m) = v := by
  unfold mapSet
  split
  · rename_i h
    simp [mapGet, mapFind_mapDel_self k hm, h]
  · exact mapGet_mapPut_self d k v m

theorem mapGet_mapSet_ne (d : α) {k k' : Nat} (hk : k' ≠ k) (v : α) (m : List (Nat × α)) :
    mapGet d k' (mapSet d k v m) = mapGet d k' m := by
  unfold mapSet
  split
  · simp [mapGet, mapFind_mapDel_ne hk]
  · exact mapGet_mapPut_ne d hk v m

theorem mapWfFrom_filter {d : α} {lo : Nat} (p : Nat × α → Bool) {m : List (Nat × α)} (hm : mapWfFrom d lo m = true) :
    mapWfFrom d lo (m.filter p) = true := by
  induction m generalizing lo with
  | nil => rfl
  | cons e m ih =>
    simp only [mapWfFrom, Bool.and_eq_true, decide_eq_true_eq] at hm
    by_cases h : p e
    · simp [List.filter, h, mapWfFrom, hm.1.1, hm.1.2, ih hm.2]
    · simpa [List.filter, h] using mapWfFrom_le (by omega) (ih hm.2)

end canonical

/-! ### Memory -/

theorem memWrite_wf {m : Memory} (a : Nat) (b : Byte) (h : m.wf = true) : (memWrite m a b).wf = true := mapWf_mapSet a h

theorem memWrites_wf {m : Memory} (a : Nat) (bs : List Byte) (h : m.wf = true) : (memWrites m a bs).wf = true := by
  induction bs generalizing m a with
  | nil => exact h
  | cons b bs ih => exact ih (a + 1) (memWrite_wf a b h)

theorem filter_wf {m : Memory} (p : Nat × Byte → Bool) (h : m.wf = true) : Memory.wf (m.filter p) = true :=
  mapWfFrom_filter p h

/-- A byte reads as it was last written. -/
theorem memRead_memWrite_self {m : Memory} (a : Nat) (b : Byte) (h : m.wf = true) : memRead (memWrite m a b) a = b :=
  mapGet_mapSet_self a b h

/-- A write leaves every other byte as it was. -/
theorem memRead_memWrite_ne {a a' : Nat} (ha : a' ≠ a) (m : Memory) (b : Byte) :
    memRead (memWrite m a b) a' = memRead m a' := mapGet_mapSet_ne unwritten ha b m

/-- A write of several bytes leaves every byte outside them as it was. -/
theorem memRead_memWrites_of_outside {a a' : Nat} (bs : List Byte) (h : a' < a ∨ a + bs.length ≤ a') (m : Memory) :
    memRead (memWrites m a bs) a' = memRead m a' := by
  induction bs generalizing m a with
  | nil => rfl
  | cons b bs ih =>
    simp only [List.length_cons] at h
    rw [memWrites, ih (by omega), memRead_memWrite_ne (by omega)]

/-- Each byte of a write of several reads as it was written. -/
theorem memRead_memWrites_of_inside {m : Memory} (a i : Nat) (bs : List Byte) (hi : i < bs.length) (h : m.wf = true) :
    memRead (memWrites m a bs) (a + i) = bs[i] := by
  induction bs generalizing m a i with
  | nil => simp at hi
  | cons b bs ih =>
    rw [memWrites]
    cases i with
    | zero => rw [memRead_memWrites_of_outside bs (by omega), Nat.add_zero, memRead_memWrite_self a b h]; rfl
    | succ i =>
      have e : a + (i + 1) = a + 1 + i := by omega
      rw [e, ih (a + 1) i (by simpa using hi) (memWrite_wf a b h)]; rfl

theorem memReads_length (m : Memory) (a n : Nat) : (memReads m a n).length = n := by
  induction n generalizing a with
  | zero => rfl
  | succ n ih => simp [memReads, ih]

/-- Bytes written are the bytes read back. -/
theorem memReads_memWrites {m : Memory} (a : Nat) (bs : List Byte) (h : m.wf = true) :
    memReads (memWrites m a bs) a bs.length = bs := by
  induction bs generalizing m a with
  | nil => rfl
  | cons b bs ih =>
    simp only [List.length_cons, memReads, memWrites]
    rw [memRead_memWrites_of_outside bs (by omega), memRead_memWrite_self a b h, ih (a + 1) (memWrite_wf a b h)]

theorem leBytes_length (v n : Nat) : (leBytes v n).length = n := by
  induction n generalizing v with
  | zero => rfl
  | succ n ih => simp [leBytes, ih]

/-- The bytes of a number hold the number, modulo their width. -/
theorem leNat_leBytes (v n : Nat) : leNat (leBytes v n) = v % 256 ^ n := by
  induction n generalizing v with
  | zero => simp [leBytes, leNat, Nat.mod_one]
  | succ n ih =>
    rw [leBytes, leNat, ih, Nat.pow_succ, Nat.mul_comm (256 ^ n) 256, Nat.mod_mul]
    simp

/-! ### Vectors -/

@[simp] theorem vget_vset_self {n : Nat} (v : Vector α n) {i : Nat} (hi : i < n) (x d : α) : vget (vset v i x) i d = x := by
  simp [vget, vset, hi]

@[simp] theorem vset_vset {n : Nat} (v : Vector α n) (i : Nat) (x y : α) : vset (vset v i x) i y = vset v i y := by
  ext j hj
  simp only [vset, Vector.getElem_setIfInBounds]
  split <;> rfl

theorem vget_vset_ge {n : Nat} (v : Vector α n) {i : Nat} (hi : n ≤ i) (x d : α) : vget (vset v i x) i d = d := by
  simp [vget, vset, Nat.not_lt.mpr hi]

theorem vget_ge {n : Nat} (v : Vector α n) {i : Nat} (hi : n ≤ i) (d : α) : vget v i d = d := by
  simp [vget, Nat.not_lt.mpr hi]

theorem vset_ge {n : Nat} (v : Vector α n) {i : Nat} (hi : n ≤ i) (x : α) : vset v i x = v := by
  ext j hj
  have : i ≠ j := by omega
  simp [vset, this]

theorem vget_vset_ne {n : Nat} (v : Vector α n) {i j : Nat} (h : j ≠ i) (x d : α) : vget (vset v i x) j d = vget v j d := by
  by_cases hj : j < n
  · simp [vget, vset, hj, h.symm]
  · simp [vget, vset, hj]

end Sys2Proof.Machine
end

