-- ==== Sys2Proof/Laws/State.lean ====
section
/-! SUPPORT. What each update of the state leaves as it was, and what it puts: one lemma for each field and update. -/
namespace Sys2Proof.Machine

variable (s : State) (x : Seat) (y : Core) (v : VDev)


/-! `State.setCore`. -/

@[simp] theorem State.setCore_vdevs (c : Nat) (z : Core) : (s.setCore c z).vdevs = s.vdevs := rfl
@[simp] theorem State.setCore_lmem (c : Nat) (z : Core) : (s.setCore c z).lmem = s.lmem := rfl
@[simp] theorem State.setCore_acc (c : Nat) (z : Core) : (s.setCore c z).acc = s.acc := rfl
@[simp] theorem State.setCore_dram (c : Nat) (z : Core) : (s.setCore c z).dram = s.dram := rfl
@[simp] theorem State.setCore_host (c : Nat) (z : Core) : (s.setCore c z).host = s.host := rfl
@[simp] theorem State.setCore_fabric (c : Nat) (z : Core) : (s.setCore c z).fabric = s.fabric := rfl
@[simp] theorem State.setCore_lpoison (c : Nat) (z : Core) : (s.setCore c z).lpoison = s.lpoison := rfl
@[simp] theorem State.setCore_apoison (c : Nat) (z : Core) : (s.setCore c z).apoison = s.apoison := rfl
@[simp] theorem State.setCore_dpoison (c : Nat) (z : Core) : (s.setCore c z).dpoison = s.dpoison := rfl
@[simp] theorem State.setCore_hpoison (c : Nat) (z : Core) : (s.setCore c z).hpoison = s.hpoison := rfl
@[simp] theorem State.setCore_fpoison (c : Nat) (z : Core) : (s.setCore c z).fpoison = s.fpoison := rfl
@[simp] theorem State.setCore_snoops (c : Nat) (z : Core) : (s.setCore c z).snoops = s.snoops := rfl
@[simp] theorem State.setCore_flight (c : Nat) (z : Core) : (s.setCore c z).flight = s.flight := rfl
@[simp] theorem State.setCore_accNum (c : Nat) (z : Core) : (s.setCore c z).accNum = s.accNum := rfl
@[simp] theorem State.setCore_msgs (c : Nat) (z : Core) : (s.setCore c z).msgs = s.msgs := rfl
@[simp] theorem State.setCore_slotReqs (c : Nat) (z : Core) : (s.setCore c z).slotReqs = s.slotReqs := rfl
@[simp] theorem State.setCore_walks (c : Nat) (z : Core) : (s.setCore c z).walks = s.walks := rfl
@[simp] theorem State.setCore_logs (c : Nat) (z : Core) : (s.setCore c z).logs = s.logs := rfl
@[simp] theorem State.setCore_dieTlb (c : Nat) (z : Core) : (s.setCore c z).dieTlb = s.dieTlb := rfl
@[simp] theorem State.setCore_streams (c : Nat) (z : Core) : (s.setCore c z).streams = s.streams := rfl
@[simp] theorem State.setCore_launches (c : Nat) (z : Core) : (s.setCore c z).launches = s.launches := rfl
@[simp] theorem State.setCore_nextLid (c : Nat) (z : Core) : (s.setCore c z).nextLid = s.nextLid := rfl
@[simp] theorem State.setCore_lpt (c : Nat) (z : Core) : (s.setCore c z).lpt = s.lpt := rfl
@[simp] theorem State.setCore_route (c : Nat) (z : Core) : (s.setCore c z).route = s.route := rfl
@[simp] theorem State.setCore_owners (c : Nat) (z : Core) : (s.setCore c z).owners = s.owners := rfl
@[simp] theorem State.setCore_keys (c : Nat) (z : Core) : (s.setCore c z).keys = s.keys := rfl
@[simp] theorem State.setCore_quotas (c : Nat) (z : Core) : (s.setCore c z).quotas = s.quotas := rfl
@[simp] theorem State.setCore_rowVd (c : Nat) (z : Core) : (s.setCore c z).rowVd = s.rowVd := rfl
@[simp] theorem State.setCore_regs (c : Nat) (z : Core) : (s.setCore c z).regs = s.regs := rfl
@[simp] theorem State.setCore_reclaims (c : Nat) (z : Core) : (s.setCore c z).reclaims = s.reclaims := rfl
@[simp] theorem State.setCore_pulls (c : Nat) (z : Core) : (s.setCore c z).pulls = s.pulls := rfl
@[simp] theorem State.setCore_lostAt (c : Nat) (z : Core) : (s.setCore c z).lostAt = s.lostAt := rfl
@[simp] theorem State.setCore_resps (c : Nat) (z : Core) : (s.setCore c z).resps = s.resps := rfl
@[simp] theorem State.setCore_modl (c : Nat) (z : Core) : (s.setCore c z).modl = s.modl := rfl
@[simp] theorem State.setCore_cur (c : Nat) (z : Core) : (s.setCore c z).cur = s.cur := rfl
@[simp] theorem State.setCore_agenda (c : Nat) (z : Core) : (s.setCore c z).agenda = s.agenda := rfl
@[simp] theorem State.setCore_reach (c : Nat) (z : Core) : (s.setCore c z).reach = s.reach := rfl
@[simp] theorem State.setCore_moves (c : Nat) (z : Core) : (s.setCore c z).moves = s.moves := rfl
@[simp] theorem State.setCore_fresh (c : Nat) (z : Core) : (s.setCore c z).fresh = s.fresh := rfl
@[simp] theorem State.setCore_did (c : Nat) (z : Core) : (s.setCore c z).did = s.did := rfl

/-! `State.modCore`. -/

@[simp] theorem State.modCore_vdevs (c : Nat) (f : Core → Core) : (s.modCore c f).vdevs = s.vdevs := rfl
@[simp] theorem State.modCore_lmem (c : Nat) (f : Core → Core) : (s.modCore c f).lmem = s.lmem := rfl
@[simp] theorem State.modCore_acc (c : Nat) (f : Core → Core) : (s.modCore c f).acc = s.acc := rfl
@[simp] theorem State.modCore_dram (c : Nat) (f : Core → Core) : (s.modCore c f).dram = s.dram := rfl
@[simp] theorem State.modCore_host (c : Nat) (f : Core → Core) : (s.modCore c f).host = s.host := rfl
@[simp] theorem State.modCore_fabric (c : Nat) (f : Core → Core) : (s.modCore c f).fabric = s.fabric := rfl
@[simp] theorem State.modCore_lpoison (c : Nat) (f : Core → Core) : (s.modCore c f).lpoison = s.lpoison := rfl
@[simp] theorem State.modCore_apoison (c : Nat) (f : Core → Core) : (s.modCore c f).apoison = s.apoison := rfl
@[simp] theorem State.modCore_dpoison (c : Nat) (f : Core → Core) : (s.modCore c f).dpoison = s.dpoison := rfl
@[simp] theorem State.modCore_hpoison (c : Nat) (f : Core → Core) : (s.modCore c f).hpoison = s.hpoison := rfl
@[simp] theorem State.modCore_fpoison (c : Nat) (f : Core → Core) : (s.modCore c f).fpoison = s.fpoison := rfl
@[simp] theorem State.modCore_snoops (c : Nat) (f : Core → Core) : (s.modCore c f).snoops = s.snoops := rfl
@[simp] theorem State.modCore_flight (c : Nat) (f : Core → Core) : (s.modCore c f).flight = s.flight := rfl
@[simp] theorem State.modCore_accNum (c : Nat) (f : Core → Core) : (s.modCore c f).accNum = s.accNum := rfl
@[simp] theorem State.modCore_msgs (c : Nat) (f : Core → Core) : (s.modCore c f).msgs = s.msgs := rfl
@[simp] theorem State.modCore_slotReqs (c : Nat) (f : Core → Core) : (s.modCore c f).slotReqs = s.slotReqs := rfl
@[simp] theorem State.modCore_walks (c : Nat) (f : Core → Core) : (s.modCore c f).walks = s.walks := rfl
@[simp] theorem State.modCore_logs (c : Nat) (f : Core → Core) : (s.modCore c f).logs = s.logs := rfl
@[simp] theorem State.modCore_dieTlb (c : Nat) (f : Core → Core) : (s.modCore c f).dieTlb = s.dieTlb := rfl
@[simp] theorem State.modCore_streams (c : Nat) (f : Core → Core) : (s.modCore c f).streams = s.streams := rfl
@[simp] theorem State.modCore_launches (c : Nat) (f : Core → Core) : (s.modCore c f).launches = s.launches := rfl
@[simp] theorem State.modCore_nextLid (c : Nat) (f : Core → Core) : (s.modCore c f).nextLid = s.nextLid := rfl
@[simp] theorem State.modCore_lpt (c : Nat) (f : Core → Core) : (s.modCore c f).lpt = s.lpt := rfl
@[simp] theorem State.modCore_route (c : Nat) (f : Core → Core) : (s.modCore c f).route = s.route := rfl
@[simp] theorem State.modCore_owners (c : Nat) (f : Core → Core) : (s.modCore c f).owners = s.owners := rfl
@[simp] theorem State.modCore_keys (c : Nat) (f : Core → Core) : (s.modCore c f).keys = s.keys := rfl
@[simp] theorem State.modCore_quotas (c : Nat) (f : Core → Core) : (s.modCore c f).quotas = s.quotas := rfl
@[simp] theorem State.modCore_rowVd (c : Nat) (f : Core → Core) : (s.modCore c f).rowVd = s.rowVd := rfl
@[simp] theorem State.modCore_regs (c : Nat) (f : Core → Core) : (s.modCore c f).regs = s.regs := rfl
@[simp] theorem State.modCore_reclaims (c : Nat) (f : Core → Core) : (s.modCore c f).reclaims = s.reclaims := rfl
@[simp] theorem State.modCore_pulls (c : Nat) (f : Core → Core) : (s.modCore c f).pulls = s.pulls := rfl
@[simp] theorem State.modCore_lostAt (c : Nat) (f : Core → Core) : (s.modCore c f).lostAt = s.lostAt := rfl
@[simp] theorem State.modCore_resps (c : Nat) (f : Core → Core) : (s.modCore c f).resps = s.resps := rfl
@[simp] theorem State.modCore_modl (c : Nat) (f : Core → Core) : (s.modCore c f).modl = s.modl := rfl
@[simp] theorem State.modCore_cur (c : Nat) (f : Core → Core) : (s.modCore c f).cur = s.cur := rfl
@[simp] theorem State.modCore_agenda (c : Nat) (f : Core → Core) : (s.modCore c f).agenda = s.agenda := rfl
@[simp] theorem State.modCore_reach (c : Nat) (f : Core → Core) : (s.modCore c f).reach = s.reach := rfl
@[simp] theorem State.modCore_moves (c : Nat) (f : Core → Core) : (s.modCore c f).moves = s.moves := rfl
@[simp] theorem State.modCore_fresh (c : Nat) (f : Core → Core) : (s.modCore c f).fresh = s.fresh := rfl
@[simp] theorem State.modCore_did (c : Nat) (f : Core → Core) : (s.modCore c f).did = s.did := rfl

/-! `State.modSeat`. -/

@[simp] theorem State.modSeat_vdevs (c k : Nat) (f : Seat → Seat) : (s.modSeat c k f).vdevs = s.vdevs := rfl
@[simp] theorem State.modSeat_lmem (c k : Nat) (f : Seat → Seat) : (s.modSeat c k f).lmem = s.lmem := rfl
@[simp] theorem State.modSeat_acc (c k : Nat) (f : Seat → Seat) : (s.modSeat c k f).acc = s.acc := rfl
@[simp] theorem State.modSeat_dram (c k : Nat) (f : Seat → Seat) : (s.modSeat c k f).dram = s.dram := rfl
@[simp] theorem State.modSeat_host (c k : Nat) (f : Seat → Seat) : (s.modSeat c k f).host = s.host := rfl
@[simp] theorem State.modSeat_fabric (c k : Nat) (f : Seat → Seat) : (s.modSeat c k f).fabric = s.fabric := rfl
@[simp] theorem State.modSeat_lpoison (c k : Nat) (f : Seat → Seat) : (s.modSeat c k f).lpoison = s.lpoison := rfl
@[simp] theorem State.modSeat_apoison (c k : Nat) (f : Seat → Seat) : (s.modSeat c k f).apoison = s.apoison := rfl
@[simp] theorem State.modSeat_dpoison (c k : Nat) (f : Seat → Seat) : (s.modSeat c k f).dpoison = s.dpoison := rfl
@[simp] theorem State.modSeat_hpoison (c k : Nat) (f : Seat → Seat) : (s.modSeat c k f).hpoison = s.hpoison := rfl
@[simp] theorem State.modSeat_fpoison (c k : Nat) (f : Seat → Seat) : (s.modSeat c k f).fpoison = s.fpoison := rfl
@[simp] theorem State.modSeat_snoops (c k : Nat) (f : Seat → Seat) : (s.modSeat c k f).snoops = s.snoops := rfl
@[simp] theorem State.modSeat_flight (c k : Nat) (f : Seat → Seat) : (s.modSeat c k f).flight = s.flight := rfl
@[simp] theorem State.modSeat_accNum (c k : Nat) (f : Seat → Seat) : (s.modSeat c k f).accNum = s.accNum := rfl
@[simp] theorem State.modSeat_msgs (c k : Nat) (f : Seat → Seat) : (s.modSeat c k f).msgs = s.msgs := rfl
@[simp] theorem State.modSeat_slotReqs (c k : Nat) (f : Seat → Seat) : (s.modSeat c k f).slotReqs = s.slotReqs := rfl
@[simp] theorem State.modSeat_walks (c k : Nat) (f : Seat → Seat) : (s.modSeat c k f).walks = s.walks := rfl
@[simp] theorem State.modSeat_logs (c k : Nat) (f : Seat → Seat) : (s.modSeat c k f).logs = s.logs := rfl
@[simp] theorem State.modSeat_dieTlb (c k : Nat) (f : Seat → Seat) : (s.modSeat c k f).dieTlb = s.dieTlb := rfl
@[simp] theorem State.modSeat_streams (c k : Nat) (f : Seat → Seat) : (s.modSeat c k f).streams = s.streams := rfl
@[simp] theorem State.modSeat_launches (c k : Nat) (f : Seat → Seat) : (s.modSeat c k f).launches = s.launches := rfl
@[simp] theorem State.modSeat_nextLid (c k : Nat) (f : Seat → Seat) : (s.modSeat c k f).nextLid = s.nextLid := rfl
@[simp] theorem State.modSeat_lpt (c k : Nat) (f : Seat → Seat) : (s.modSeat c k f).lpt = s.lpt := rfl
@[simp] theorem State.modSeat_route (c k : Nat) (f : Seat → Seat) : (s.modSeat c k f).route = s.route := rfl
@[simp] theorem State.modSeat_owners (c k : Nat) (f : Seat → Seat) : (s.modSeat c k f).owners = s.owners := rfl
@[simp] theorem State.modSeat_keys (c k : Nat) (f : Seat → Seat) : (s.modSeat c k f).keys = s.keys := rfl
@[simp] theorem State.modSeat_quotas (c k : Nat) (f : Seat → Seat) : (s.modSeat c k f).quotas = s.quotas := rfl
@[simp] theorem State.modSeat_rowVd (c k : Nat) (f : Seat → Seat) : (s.modSeat c k f).rowVd = s.rowVd := rfl
@[simp] theorem State.modSeat_regs (c k : Nat) (f : Seat → Seat) : (s.modSeat c k f).regs = s.regs := rfl
@[simp] theorem State.modSeat_reclaims (c k : Nat) (f : Seat → Seat) : (s.modSeat c k f).reclaims = s.reclaims := rfl
@[simp] theorem State.modSeat_pulls (c k : Nat) (f : Seat → Seat) : (s.modSeat c k f).pulls = s.pulls := rfl
@[simp] theorem State.modSeat_lostAt (c k : Nat) (f : Seat → Seat) : (s.modSeat c k f).lostAt = s.lostAt := rfl
@[simp] theorem State.modSeat_resps (c k : Nat) (f : Seat → Seat) : (s.modSeat c k f).resps = s.resps := rfl
@[simp] theorem State.modSeat_modl (c k : Nat) (f : Seat → Seat) : (s.modSeat c k f).modl = s.modl := rfl
@[simp] theorem State.modSeat_cur (c k : Nat) (f : Seat → Seat) : (s.modSeat c k f).cur = s.cur := rfl
@[simp] theorem State.modSeat_agenda (c k : Nat) (f : Seat → Seat) : (s.modSeat c k f).agenda = s.agenda := rfl
@[simp] theorem State.modSeat_reach (c k : Nat) (f : Seat → Seat) : (s.modSeat c k f).reach = s.reach := rfl
@[simp] theorem State.modSeat_moves (c k : Nat) (f : Seat → Seat) : (s.modSeat c k f).moves = s.moves := rfl
@[simp] theorem State.modSeat_fresh (c k : Nat) (f : Seat → Seat) : (s.modSeat c k f).fresh = s.fresh := rfl
@[simp] theorem State.modSeat_did (c k : Nat) (f : Seat → Seat) : (s.modSeat c k f).did = s.did := rfl

/-! `State.modStrand`. -/

@[simp] theorem State.modStrand_vdevs (a : Agent) (f : Strand → Strand) : (s.modStrand a f).vdevs = s.vdevs := rfl
@[simp] theorem State.modStrand_lmem (a : Agent) (f : Strand → Strand) : (s.modStrand a f).lmem = s.lmem := rfl
@[simp] theorem State.modStrand_acc (a : Agent) (f : Strand → Strand) : (s.modStrand a f).acc = s.acc := rfl
@[simp] theorem State.modStrand_dram (a : Agent) (f : Strand → Strand) : (s.modStrand a f).dram = s.dram := rfl
@[simp] theorem State.modStrand_host (a : Agent) (f : Strand → Strand) : (s.modStrand a f).host = s.host := rfl
@[simp] theorem State.modStrand_fabric (a : Agent) (f : Strand → Strand) : (s.modStrand a f).fabric = s.fabric := rfl
@[simp] theorem State.modStrand_lpoison (a : Agent) (f : Strand → Strand) : (s.modStrand a f).lpoison = s.lpoison := rfl
@[simp] theorem State.modStrand_apoison (a : Agent) (f : Strand → Strand) : (s.modStrand a f).apoison = s.apoison := rfl
@[simp] theorem State.modStrand_dpoison (a : Agent) (f : Strand → Strand) : (s.modStrand a f).dpoison = s.dpoison := rfl
@[simp] theorem State.modStrand_hpoison (a : Agent) (f : Strand → Strand) : (s.modStrand a f).hpoison = s.hpoison := rfl
@[simp] theorem State.modStrand_fpoison (a : Agent) (f : Strand → Strand) : (s.modStrand a f).fpoison = s.fpoison := rfl
@[simp] theorem State.modStrand_snoops (a : Agent) (f : Strand → Strand) : (s.modStrand a f).snoops = s.snoops := rfl
@[simp] theorem State.modStrand_flight (a : Agent) (f : Strand → Strand) : (s.modStrand a f).flight = s.flight := rfl
@[simp] theorem State.modStrand_accNum (a : Agent) (f : Strand → Strand) : (s.modStrand a f).accNum = s.accNum := rfl
@[simp] theorem State.modStrand_msgs (a : Agent) (f : Strand → Strand) : (s.modStrand a f).msgs = s.msgs := rfl
@[simp] theorem State.modStrand_slotReqs (a : Agent) (f : Strand → Strand) : (s.modStrand a f).slotReqs = s.slotReqs := rfl
@[simp] theorem State.modStrand_walks (a : Agent) (f : Strand → Strand) : (s.modStrand a f).walks = s.walks := rfl
@[simp] theorem State.modStrand_logs (a : Agent) (f : Strand → Strand) : (s.modStrand a f).logs = s.logs := rfl
@[simp] theorem State.modStrand_dieTlb (a : Agent) (f : Strand → Strand) : (s.modStrand a f).dieTlb = s.dieTlb := rfl
@[simp] theorem State.modStrand_streams (a : Agent) (f : Strand → Strand) : (s.modStrand a f).streams = s.streams := rfl
@[simp] theorem State.modStrand_launches (a : Agent) (f : Strand → Strand) : (s.modStrand a f).launches = s.launches := rfl
@[simp] theorem State.modStrand_nextLid (a : Agent) (f : Strand → Strand) : (s.modStrand a f).nextLid = s.nextLid := rfl
@[simp] theorem State.modStrand_lpt (a : Agent) (f : Strand → Strand) : (s.modStrand a f).lpt = s.lpt := rfl
@[simp] theorem State.modStrand_route (a : Agent) (f : Strand → Strand) : (s.modStrand a f).route = s.route := rfl
@[simp] theorem State.modStrand_owners (a : Agent) (f : Strand → Strand) : (s.modStrand a f).owners = s.owners := rfl
@[simp] theorem State.modStrand_keys (a : Agent) (f : Strand → Strand) : (s.modStrand a f).keys = s.keys := rfl
@[simp] theorem State.modStrand_quotas (a : Agent) (f : Strand → Strand) : (s.modStrand a f).quotas = s.quotas := rfl
@[simp] theorem State.modStrand_rowVd (a : Agent) (f : Strand → Strand) : (s.modStrand a f).rowVd = s.rowVd := rfl
@[simp] theorem State.modStrand_regs (a : Agent) (f : Strand → Strand) : (s.modStrand a f).regs = s.regs := rfl
@[simp] theorem State.modStrand_reclaims (a : Agent) (f : Strand → Strand) : (s.modStrand a f).reclaims = s.reclaims := rfl
@[simp] theorem State.modStrand_pulls (a : Agent) (f : Strand → Strand) : (s.modStrand a f).pulls = s.pulls := rfl
@[simp] theorem State.modStrand_lostAt (a : Agent) (f : Strand → Strand) : (s.modStrand a f).lostAt = s.lostAt := rfl
@[simp] theorem State.modStrand_resps (a : Agent) (f : Strand → Strand) : (s.modStrand a f).resps = s.resps := rfl
@[simp] theorem State.modStrand_modl (a : Agent) (f : Strand → Strand) : (s.modStrand a f).modl = s.modl := rfl
@[simp] theorem State.modStrand_cur (a : Agent) (f : Strand → Strand) : (s.modStrand a f).cur = s.cur := rfl
@[simp] theorem State.modStrand_agenda (a : Agent) (f : Strand → Strand) : (s.modStrand a f).agenda = s.agenda := rfl
@[simp] theorem State.modStrand_reach (a : Agent) (f : Strand → Strand) : (s.modStrand a f).reach = s.reach := rfl
@[simp] theorem State.modStrand_moves (a : Agent) (f : Strand → Strand) : (s.modStrand a f).moves = s.moves := rfl
@[simp] theorem State.modStrand_fresh (a : Agent) (f : Strand → Strand) : (s.modStrand a f).fresh = s.fresh := rfl
@[simp] theorem State.modStrand_did (a : Agent) (f : Strand → Strand) : (s.modStrand a f).did = s.did := rfl

/-! `State.modMe`. -/

@[simp] theorem State.modMe_vdevs (f : Seat → Seat) : (s.modMe f).vdevs = s.vdevs := rfl
@[simp] theorem State.modMe_lmem (f : Seat → Seat) : (s.modMe f).lmem = s.lmem := rfl
@[simp] theorem State.modMe_acc (f : Seat → Seat) : (s.modMe f).acc = s.acc := rfl
@[simp] theorem State.modMe_dram (f : Seat → Seat) : (s.modMe f).dram = s.dram := rfl
@[simp] theorem State.modMe_host (f : Seat → Seat) : (s.modMe f).host = s.host := rfl
@[simp] theorem State.modMe_fabric (f : Seat → Seat) : (s.modMe f).fabric = s.fabric := rfl
@[simp] theorem State.modMe_lpoison (f : Seat → Seat) : (s.modMe f).lpoison = s.lpoison := rfl
@[simp] theorem State.modMe_apoison (f : Seat → Seat) : (s.modMe f).apoison = s.apoison := rfl
@[simp] theorem State.modMe_dpoison (f : Seat → Seat) : (s.modMe f).dpoison = s.dpoison := rfl
@[simp] theorem State.modMe_hpoison (f : Seat → Seat) : (s.modMe f).hpoison = s.hpoison := rfl
@[simp] theorem State.modMe_fpoison (f : Seat → Seat) : (s.modMe f).fpoison = s.fpoison := rfl
@[simp] theorem State.modMe_snoops (f : Seat → Seat) : (s.modMe f).snoops = s.snoops := rfl
@[simp] theorem State.modMe_flight (f : Seat → Seat) : (s.modMe f).flight = s.flight := rfl
@[simp] theorem State.modMe_accNum (f : Seat → Seat) : (s.modMe f).accNum = s.accNum := rfl
@[simp] theorem State.modMe_msgs (f : Seat → Seat) : (s.modMe f).msgs = s.msgs := rfl
@[simp] theorem State.modMe_slotReqs (f : Seat → Seat) : (s.modMe f).slotReqs = s.slotReqs := rfl
@[simp] theorem State.modMe_walks (f : Seat → Seat) : (s.modMe f).walks = s.walks := rfl
@[simp] theorem State.modMe_logs (f : Seat → Seat) : (s.modMe f).logs = s.logs := rfl
@[simp] theorem State.modMe_dieTlb (f : Seat → Seat) : (s.modMe f).dieTlb = s.dieTlb := rfl
@[simp] theorem State.modMe_streams (f : Seat → Seat) : (s.modMe f).streams = s.streams := rfl
@[simp] theorem State.modMe_launches (f : Seat → Seat) : (s.modMe f).launches = s.launches := rfl
@[simp] theorem State.modMe_nextLid (f : Seat → Seat) : (s.modMe f).nextLid = s.nextLid := rfl
@[simp] theorem State.modMe_lpt (f : Seat → Seat) : (s.modMe f).lpt = s.lpt := rfl
@[simp] theorem State.modMe_route (f : Seat → Seat) : (s.modMe f).route = s.route := rfl
@[simp] theorem State.modMe_owners (f : Seat → Seat) : (s.modMe f).owners = s.owners := rfl
@[simp] theorem State.modMe_keys (f : Seat → Seat) : (s.modMe f).keys = s.keys := rfl
@[simp] theorem State.modMe_quotas (f : Seat → Seat) : (s.modMe f).quotas = s.quotas := rfl
@[simp] theorem State.modMe_rowVd (f : Seat → Seat) : (s.modMe f).rowVd = s.rowVd := rfl
@[simp] theorem State.modMe_regs (f : Seat → Seat) : (s.modMe f).regs = s.regs := rfl
@[simp] theorem State.modMe_reclaims (f : Seat → Seat) : (s.modMe f).reclaims = s.reclaims := rfl
@[simp] theorem State.modMe_pulls (f : Seat → Seat) : (s.modMe f).pulls = s.pulls := rfl
@[simp] theorem State.modMe_lostAt (f : Seat → Seat) : (s.modMe f).lostAt = s.lostAt := rfl
@[simp] theorem State.modMe_resps (f : Seat → Seat) : (s.modMe f).resps = s.resps := rfl
@[simp] theorem State.modMe_modl (f : Seat → Seat) : (s.modMe f).modl = s.modl := rfl
@[simp] theorem State.modMe_cur (f : Seat → Seat) : (s.modMe f).cur = s.cur := rfl
@[simp] theorem State.modMe_agenda (f : Seat → Seat) : (s.modMe f).agenda = s.agenda := rfl
@[simp] theorem State.modMe_reach (f : Seat → Seat) : (s.modMe f).reach = s.reach := rfl
@[simp] theorem State.modMe_moves (f : Seat → Seat) : (s.modMe f).moves = s.moves := rfl
@[simp] theorem State.modMe_fresh (f : Seat → Seat) : (s.modMe f).fresh = s.fresh := rfl
@[simp] theorem State.modMe_did (f : Seat → Seat) : (s.modMe f).did = s.did := rfl

/-! `State.modMyCore`. -/

@[simp] theorem State.modMyCore_vdevs (f : Core → Core) : (s.modMyCore f).vdevs = s.vdevs := rfl
@[simp] theorem State.modMyCore_lmem (f : Core → Core) : (s.modMyCore f).lmem = s.lmem := rfl
@[simp] theorem State.modMyCore_acc (f : Core → Core) : (s.modMyCore f).acc = s.acc := rfl
@[simp] theorem State.modMyCore_dram (f : Core → Core) : (s.modMyCore f).dram = s.dram := rfl
@[simp] theorem State.modMyCore_host (f : Core → Core) : (s.modMyCore f).host = s.host := rfl
@[simp] theorem State.modMyCore_fabric (f : Core → Core) : (s.modMyCore f).fabric = s.fabric := rfl
@[simp] theorem State.modMyCore_lpoison (f : Core → Core) : (s.modMyCore f).lpoison = s.lpoison := rfl
@[simp] theorem State.modMyCore_apoison (f : Core → Core) : (s.modMyCore f).apoison = s.apoison := rfl
@[simp] theorem State.modMyCore_dpoison (f : Core → Core) : (s.modMyCore f).dpoison = s.dpoison := rfl
@[simp] theorem State.modMyCore_hpoison (f : Core → Core) : (s.modMyCore f).hpoison = s.hpoison := rfl
@[simp] theorem State.modMyCore_fpoison (f : Core → Core) : (s.modMyCore f).fpoison = s.fpoison := rfl
@[simp] theorem State.modMyCore_snoops (f : Core → Core) : (s.modMyCore f).snoops = s.snoops := rfl
@[simp] theorem State.modMyCore_flight (f : Core → Core) : (s.modMyCore f).flight = s.flight := rfl
@[simp] theorem State.modMyCore_accNum (f : Core → Core) : (s.modMyCore f).accNum = s.accNum := rfl
@[simp] theorem State.modMyCore_msgs (f : Core → Core) : (s.modMyCore f).msgs = s.msgs := rfl
@[simp] theorem State.modMyCore_slotReqs (f : Core → Core) : (s.modMyCore f).slotReqs = s.slotReqs := rfl
@[simp] theorem State.modMyCore_walks (f : Core → Core) : (s.modMyCore f).walks = s.walks := rfl
@[simp] theorem State.modMyCore_logs (f : Core → Core) : (s.modMyCore f).logs = s.logs := rfl
@[simp] theorem State.modMyCore_dieTlb (f : Core → Core) : (s.modMyCore f).dieTlb = s.dieTlb := rfl
@[simp] theorem State.modMyCore_streams (f : Core → Core) : (s.modMyCore f).streams = s.streams := rfl
@[simp] theorem State.modMyCore_launches (f : Core → Core) : (s.modMyCore f).launches = s.launches := rfl
@[simp] theorem State.modMyCore_nextLid (f : Core → Core) : (s.modMyCore f).nextLid = s.nextLid := rfl
@[simp] theorem State.modMyCore_lpt (f : Core → Core) : (s.modMyCore f).lpt = s.lpt := rfl
@[simp] theorem State.modMyCore_route (f : Core → Core) : (s.modMyCore f).route = s.route := rfl
@[simp] theorem State.modMyCore_owners (f : Core → Core) : (s.modMyCore f).owners = s.owners := rfl
@[simp] theorem State.modMyCore_keys (f : Core → Core) : (s.modMyCore f).keys = s.keys := rfl
@[simp] theorem State.modMyCore_quotas (f : Core → Core) : (s.modMyCore f).quotas = s.quotas := rfl
@[simp] theorem State.modMyCore_rowVd (f : Core → Core) : (s.modMyCore f).rowVd = s.rowVd := rfl
@[simp] theorem State.modMyCore_regs (f : Core → Core) : (s.modMyCore f).regs = s.regs := rfl
@[simp] theorem State.modMyCore_reclaims (f : Core → Core) : (s.modMyCore f).reclaims = s.reclaims := rfl
@[simp] theorem State.modMyCore_pulls (f : Core → Core) : (s.modMyCore f).pulls = s.pulls := rfl
@[simp] theorem State.modMyCore_lostAt (f : Core → Core) : (s.modMyCore f).lostAt = s.lostAt := rfl
@[simp] theorem State.modMyCore_resps (f : Core → Core) : (s.modMyCore f).resps = s.resps := rfl
@[simp] theorem State.modMyCore_modl (f : Core → Core) : (s.modMyCore f).modl = s.modl := rfl
@[simp] theorem State.modMyCore_cur (f : Core → Core) : (s.modMyCore f).cur = s.cur := rfl
@[simp] theorem State.modMyCore_agenda (f : Core → Core) : (s.modMyCore f).agenda = s.agenda := rfl
@[simp] theorem State.modMyCore_reach (f : Core → Core) : (s.modMyCore f).reach = s.reach := rfl
@[simp] theorem State.modMyCore_moves (f : Core → Core) : (s.modMyCore f).moves = s.moves := rfl
@[simp] theorem State.modMyCore_fresh (f : Core → Core) : (s.modMyCore f).fresh = s.fresh := rfl
@[simp] theorem State.modMyCore_did (f : Core → Core) : (s.modMyCore f).did = s.did := rfl

/-! `State.modCores`. -/

@[simp] theorem State.modCores_vdevs (f : Nat → Core → Core) : (s.modCores f).vdevs = s.vdevs := rfl
@[simp] theorem State.modCores_lmem (f : Nat → Core → Core) : (s.modCores f).lmem = s.lmem := rfl
@[simp] theorem State.modCores_acc (f : Nat → Core → Core) : (s.modCores f).acc = s.acc := rfl
@[simp] theorem State.modCores_dram (f : Nat → Core → Core) : (s.modCores f).dram = s.dram := rfl
@[simp] theorem State.modCores_host (f : Nat → Core → Core) : (s.modCores f).host = s.host := rfl
@[simp] theorem State.modCores_fabric (f : Nat → Core → Core) : (s.modCores f).fabric = s.fabric := rfl
@[simp] theorem State.modCores_lpoison (f : Nat → Core → Core) : (s.modCores f).lpoison = s.lpoison := rfl
@[simp] theorem State.modCores_apoison (f : Nat → Core → Core) : (s.modCores f).apoison = s.apoison := rfl
@[simp] theorem State.modCores_dpoison (f : Nat → Core → Core) : (s.modCores f).dpoison = s.dpoison := rfl
@[simp] theorem State.modCores_hpoison (f : Nat → Core → Core) : (s.modCores f).hpoison = s.hpoison := rfl
@[simp] theorem State.modCores_fpoison (f : Nat → Core → Core) : (s.modCores f).fpoison = s.fpoison := rfl
@[simp] theorem State.modCores_snoops (f : Nat → Core → Core) : (s.modCores f).snoops = s.snoops := rfl
@[simp] theorem State.modCores_flight (f : Nat → Core → Core) : (s.modCores f).flight = s.flight := rfl
@[simp] theorem State.modCores_accNum (f : Nat → Core → Core) : (s.modCores f).accNum = s.accNum := rfl
@[simp] theorem State.modCores_msgs (f : Nat → Core → Core) : (s.modCores f).msgs = s.msgs := rfl
@[simp] theorem State.modCores_slotReqs (f : Nat → Core → Core) : (s.modCores f).slotReqs = s.slotReqs := rfl
@[simp] theorem State.modCores_walks (f : Nat → Core → Core) : (s.modCores f).walks = s.walks := rfl
@[simp] theorem State.modCores_logs (f : Nat → Core → Core) : (s.modCores f).logs = s.logs := rfl
@[simp] theorem State.modCores_dieTlb (f : Nat → Core → Core) : (s.modCores f).dieTlb = s.dieTlb := rfl
@[simp] theorem State.modCores_streams (f : Nat → Core → Core) : (s.modCores f).streams = s.streams := rfl
@[simp] theorem State.modCores_launches (f : Nat → Core → Core) : (s.modCores f).launches = s.launches := rfl
@[simp] theorem State.modCores_nextLid (f : Nat → Core → Core) : (s.modCores f).nextLid = s.nextLid := rfl
@[simp] theorem State.modCores_lpt (f : Nat → Core → Core) : (s.modCores f).lpt = s.lpt := rfl
@[simp] theorem State.modCores_route (f : Nat → Core → Core) : (s.modCores f).route = s.route := rfl
@[simp] theorem State.modCores_owners (f : Nat → Core → Core) : (s.modCores f).owners = s.owners := rfl
@[simp] theorem State.modCores_keys (f : Nat → Core → Core) : (s.modCores f).keys = s.keys := rfl
@[simp] theorem State.modCores_quotas (f : Nat → Core → Core) : (s.modCores f).quotas = s.quotas := rfl
@[simp] theorem State.modCores_rowVd (f : Nat → Core → Core) : (s.modCores f).rowVd = s.rowVd := rfl
@[simp] theorem State.modCores_regs (f : Nat → Core → Core) : (s.modCores f).regs = s.regs := rfl
@[simp] theorem State.modCores_reclaims (f : Nat → Core → Core) : (s.modCores f).reclaims = s.reclaims := rfl
@[simp] theorem State.modCores_pulls (f : Nat → Core → Core) : (s.modCores f).pulls = s.pulls := rfl
@[simp] theorem State.modCores_lostAt (f : Nat → Core → Core) : (s.modCores f).lostAt = s.lostAt := rfl
@[simp] theorem State.modCores_resps (f : Nat → Core → Core) : (s.modCores f).resps = s.resps := rfl
@[simp] theorem State.modCores_modl (f : Nat → Core → Core) : (s.modCores f).modl = s.modl := rfl
@[simp] theorem State.modCores_cur (f : Nat → Core → Core) : (s.modCores f).cur = s.cur := rfl
@[simp] theorem State.modCores_agenda (f : Nat → Core → Core) : (s.modCores f).agenda = s.agenda := rfl
@[simp] theorem State.modCores_reach (f : Nat → Core → Core) : (s.modCores f).reach = s.reach := rfl
@[simp] theorem State.modCores_moves (f : Nat → Core → Core) : (s.modCores f).moves = s.moves := rfl
@[simp] theorem State.modCores_fresh (f : Nat → Core → Core) : (s.modCores f).fresh = s.fresh := rfl
@[simp] theorem State.modCores_did (f : Nat → Core → Core) : (s.modCores f).did = s.did := rfl

/-! `State.modVd`. -/

@[simp] theorem State.modVd_cores (n : Nat) (f : VDev → VDev) : (s.modVd n f).cores = s.cores := rfl
@[simp] theorem State.modVd_lmem (n : Nat) (f : VDev → VDev) : (s.modVd n f).lmem = s.lmem := rfl
@[simp] theorem State.modVd_acc (n : Nat) (f : VDev → VDev) : (s.modVd n f).acc = s.acc := rfl
@[simp] theorem State.modVd_dram (n : Nat) (f : VDev → VDev) : (s.modVd n f).dram = s.dram := rfl
@[simp] theorem State.modVd_host (n : Nat) (f : VDev → VDev) : (s.modVd n f).host = s.host := rfl
@[simp] theorem State.modVd_fabric (n : Nat) (f : VDev → VDev) : (s.modVd n f).fabric = s.fabric := rfl
@[simp] theorem State.modVd_lpoison (n : Nat) (f : VDev → VDev) : (s.modVd n f).lpoison = s.lpoison := rfl
@[simp] theorem State.modVd_apoison (n : Nat) (f : VDev → VDev) : (s.modVd n f).apoison = s.apoison := rfl
@[simp] theorem State.modVd_dpoison (n : Nat) (f : VDev → VDev) : (s.modVd n f).dpoison = s.dpoison := rfl
@[simp] theorem State.modVd_hpoison (n : Nat) (f : VDev → VDev) : (s.modVd n f).hpoison = s.hpoison := rfl
@[simp] theorem State.modVd_fpoison (n : Nat) (f : VDev → VDev) : (s.modVd n f).fpoison = s.fpoison := rfl
@[simp] theorem State.modVd_snoops (n : Nat) (f : VDev → VDev) : (s.modVd n f).snoops = s.snoops := rfl
@[simp] theorem State.modVd_flight (n : Nat) (f : VDev → VDev) : (s.modVd n f).flight = s.flight := rfl
@[simp] theorem State.modVd_accNum (n : Nat) (f : VDev → VDev) : (s.modVd n f).accNum = s.accNum := rfl
@[simp] theorem State.modVd_msgs (n : Nat) (f : VDev → VDev) : (s.modVd n f).msgs = s.msgs := rfl
@[simp] theorem State.modVd_slotReqs (n : Nat) (f : VDev → VDev) : (s.modVd n f).slotReqs = s.slotReqs := rfl
@[simp] theorem State.modVd_walks (n : Nat) (f : VDev → VDev) : (s.modVd n f).walks = s.walks := rfl
@[simp] theorem State.modVd_logs (n : Nat) (f : VDev → VDev) : (s.modVd n f).logs = s.logs := rfl
@[simp] theorem State.modVd_dieTlb (n : Nat) (f : VDev → VDev) : (s.modVd n f).dieTlb = s.dieTlb := rfl
@[simp] theorem State.modVd_streams (n : Nat) (f : VDev → VDev) : (s.modVd n f).streams = s.streams := rfl
@[simp] theorem State.modVd_launches (n : Nat) (f : VDev → VDev) : (s.modVd n f).launches = s.launches := rfl
@[simp] theorem State.modVd_nextLid (n : Nat) (f : VDev → VDev) : (s.modVd n f).nextLid = s.nextLid := rfl
@[simp] theorem State.modVd_lpt (n : Nat) (f : VDev → VDev) : (s.modVd n f).lpt = s.lpt := rfl
@[simp] theorem State.modVd_route (n : Nat) (f : VDev → VDev) : (s.modVd n f).route = s.route := rfl
@[simp] theorem State.modVd_owners (n : Nat) (f : VDev → VDev) : (s.modVd n f).owners = s.owners := rfl
@[simp] theorem State.modVd_keys (n : Nat) (f : VDev → VDev) : (s.modVd n f).keys = s.keys := rfl
@[simp] theorem State.modVd_quotas (n : Nat) (f : VDev → VDev) : (s.modVd n f).quotas = s.quotas := rfl
@[simp] theorem State.modVd_rowVd (n : Nat) (f : VDev → VDev) : (s.modVd n f).rowVd = s.rowVd := rfl
@[simp] theorem State.modVd_regs (n : Nat) (f : VDev → VDev) : (s.modVd n f).regs = s.regs := rfl
@[simp] theorem State.modVd_reclaims (n : Nat) (f : VDev → VDev) : (s.modVd n f).reclaims = s.reclaims := rfl
@[simp] theorem State.modVd_pulls (n : Nat) (f : VDev → VDev) : (s.modVd n f).pulls = s.pulls := rfl
@[simp] theorem State.modVd_lostAt (n : Nat) (f : VDev → VDev) : (s.modVd n f).lostAt = s.lostAt := rfl
@[simp] theorem State.modVd_resps (n : Nat) (f : VDev → VDev) : (s.modVd n f).resps = s.resps := rfl
@[simp] theorem State.modVd_modl (n : Nat) (f : VDev → VDev) : (s.modVd n f).modl = s.modl := rfl
@[simp] theorem State.modVd_cur (n : Nat) (f : VDev → VDev) : (s.modVd n f).cur = s.cur := rfl
@[simp] theorem State.modVd_agenda (n : Nat) (f : VDev → VDev) : (s.modVd n f).agenda = s.agenda := rfl
@[simp] theorem State.modVd_reach (n : Nat) (f : VDev → VDev) : (s.modVd n f).reach = s.reach := rfl
@[simp] theorem State.modVd_moves (n : Nat) (f : VDev → VDev) : (s.modVd n f).moves = s.moves := rfl
@[simp] theorem State.modVd_fresh (n : Nat) (f : VDev → VDev) : (s.modVd n f).fresh = s.fresh := rfl
@[simp] theorem State.modVd_did (n : Nat) (f : VDev → VDev) : (s.modVd n f).did = s.did := rfl

/-! `State.modQueue`. -/

@[simp] theorem State.modQueue_cores (n q : Nat) (f : Queue → Queue) : (s.modQueue n q f).cores = s.cores := rfl
@[simp] theorem State.modQueue_lmem (n q : Nat) (f : Queue → Queue) : (s.modQueue n q f).lmem = s.lmem := rfl
@[simp] theorem State.modQueue_acc (n q : Nat) (f : Queue → Queue) : (s.modQueue n q f).acc = s.acc := rfl
@[simp] theorem State.modQueue_dram (n q : Nat) (f : Queue → Queue) : (s.modQueue n q f).dram = s.dram := rfl
@[simp] theorem State.modQueue_host (n q : Nat) (f : Queue → Queue) : (s.modQueue n q f).host = s.host := rfl
@[simp] theorem State.modQueue_fabric (n q : Nat) (f : Queue → Queue) : (s.modQueue n q f).fabric = s.fabric := rfl
@[simp] theorem State.modQueue_lpoison (n q : Nat) (f : Queue → Queue) : (s.modQueue n q f).lpoison = s.lpoison := rfl
@[simp] theorem State.modQueue_apoison (n q : Nat) (f : Queue → Queue) : (s.modQueue n q f).apoison = s.apoison := rfl
@[simp] theorem State.modQueue_dpoison (n q : Nat) (f : Queue → Queue) : (s.modQueue n q f).dpoison = s.dpoison := rfl
@[simp] theorem State.modQueue_hpoison (n q : Nat) (f : Queue → Queue) : (s.modQueue n q f).hpoison = s.hpoison := rfl
@[simp] theorem State.modQueue_fpoison (n q : Nat) (f : Queue → Queue) : (s.modQueue n q f).fpoison = s.fpoison := rfl
@[simp] theorem State.modQueue_snoops (n q : Nat) (f : Queue → Queue) : (s.modQueue n q f).snoops = s.snoops := rfl
@[simp] theorem State.modQueue_flight (n q : Nat) (f : Queue → Queue) : (s.modQueue n q f).flight = s.flight := rfl
@[simp] theorem State.modQueue_accNum (n q : Nat) (f : Queue → Queue) : (s.modQueue n q f).accNum = s.accNum := rfl
@[simp] theorem State.modQueue_msgs (n q : Nat) (f : Queue → Queue) : (s.modQueue n q f).msgs = s.msgs := rfl
@[simp] theorem State.modQueue_slotReqs (n q : Nat) (f : Queue → Queue) : (s.modQueue n q f).slotReqs = s.slotReqs := rfl
@[simp] theorem State.modQueue_walks (n q : Nat) (f : Queue → Queue) : (s.modQueue n q f).walks = s.walks := rfl
@[simp] theorem State.modQueue_logs (n q : Nat) (f : Queue → Queue) : (s.modQueue n q f).logs = s.logs := rfl
@[simp] theorem State.modQueue_dieTlb (n q : Nat) (f : Queue → Queue) : (s.modQueue n q f).dieTlb = s.dieTlb := rfl
@[simp] theorem State.modQueue_streams (n q : Nat) (f : Queue → Queue) : (s.modQueue n q f).streams = s.streams := rfl
@[simp] theorem State.modQueue_launches (n q : Nat) (f : Queue → Queue) : (s.modQueue n q f).launches = s.launches := rfl
@[simp] theorem State.modQueue_nextLid (n q : Nat) (f : Queue → Queue) : (s.modQueue n q f).nextLid = s.nextLid := rfl
@[simp] theorem State.modQueue_lpt (n q : Nat) (f : Queue → Queue) : (s.modQueue n q f).lpt = s.lpt := rfl
@[simp] theorem State.modQueue_route (n q : Nat) (f : Queue → Queue) : (s.modQueue n q f).route = s.route := rfl
@[simp] theorem State.modQueue_owners (n q : Nat) (f : Queue → Queue) : (s.modQueue n q f).owners = s.owners := rfl
@[simp] theorem State.modQueue_keys (n q : Nat) (f : Queue → Queue) : (s.modQueue n q f).keys = s.keys := rfl
@[simp] theorem State.modQueue_quotas (n q : Nat) (f : Queue → Queue) : (s.modQueue n q f).quotas = s.quotas := rfl
@[simp] theorem State.modQueue_rowVd (n q : Nat) (f : Queue → Queue) : (s.modQueue n q f).rowVd = s.rowVd := rfl
@[simp] theorem State.modQueue_regs (n q : Nat) (f : Queue → Queue) : (s.modQueue n q f).regs = s.regs := rfl
@[simp] theorem State.modQueue_reclaims (n q : Nat) (f : Queue → Queue) : (s.modQueue n q f).reclaims = s.reclaims := rfl
@[simp] theorem State.modQueue_pulls (n q : Nat) (f : Queue → Queue) : (s.modQueue n q f).pulls = s.pulls := rfl
@[simp] theorem State.modQueue_lostAt (n q : Nat) (f : Queue → Queue) : (s.modQueue n q f).lostAt = s.lostAt := rfl
@[simp] theorem State.modQueue_resps (n q : Nat) (f : Queue → Queue) : (s.modQueue n q f).resps = s.resps := rfl
@[simp] theorem State.modQueue_modl (n q : Nat) (f : Queue → Queue) : (s.modQueue n q f).modl = s.modl := rfl
@[simp] theorem State.modQueue_cur (n q : Nat) (f : Queue → Queue) : (s.modQueue n q f).cur = s.cur := rfl
@[simp] theorem State.modQueue_agenda (n q : Nat) (f : Queue → Queue) : (s.modQueue n q f).agenda = s.agenda := rfl
@[simp] theorem State.modQueue_reach (n q : Nat) (f : Queue → Queue) : (s.modQueue n q f).reach = s.reach := rfl
@[simp] theorem State.modQueue_moves (n q : Nat) (f : Queue → Queue) : (s.modQueue n q f).moves = s.moves := rfl
@[simp] theorem State.modQueue_fresh (n q : Nat) (f : Queue → Queue) : (s.modQueue n q f).fresh = s.fresh := rfl
@[simp] theorem State.modQueue_did (n q : Nat) (f : Queue → Queue) : (s.modQueue n q f).did = s.did := rfl

/-! `State.setOwner`. -/

@[simp] theorem State.setOwner_cores (p : Nat) (z : Owner) : (s.setOwner p z).cores = s.cores := rfl
@[simp] theorem State.setOwner_vdevs (p : Nat) (z : Owner) : (s.setOwner p z).vdevs = s.vdevs := rfl
@[simp] theorem State.setOwner_lmem (p : Nat) (z : Owner) : (s.setOwner p z).lmem = s.lmem := rfl
@[simp] theorem State.setOwner_acc (p : Nat) (z : Owner) : (s.setOwner p z).acc = s.acc := rfl
@[simp] theorem State.setOwner_dram (p : Nat) (z : Owner) : (s.setOwner p z).dram = s.dram := rfl
@[simp] theorem State.setOwner_host (p : Nat) (z : Owner) : (s.setOwner p z).host = s.host := rfl
@[simp] theorem State.setOwner_fabric (p : Nat) (z : Owner) : (s.setOwner p z).fabric = s.fabric := rfl
@[simp] theorem State.setOwner_lpoison (p : Nat) (z : Owner) : (s.setOwner p z).lpoison = s.lpoison := rfl
@[simp] theorem State.setOwner_apoison (p : Nat) (z : Owner) : (s.setOwner p z).apoison = s.apoison := rfl
@[simp] theorem State.setOwner_dpoison (p : Nat) (z : Owner) : (s.setOwner p z).dpoison = s.dpoison := rfl
@[simp] theorem State.setOwner_hpoison (p : Nat) (z : Owner) : (s.setOwner p z).hpoison = s.hpoison := rfl
@[simp] theorem State.setOwner_fpoison (p : Nat) (z : Owner) : (s.setOwner p z).fpoison = s.fpoison := rfl
@[simp] theorem State.setOwner_snoops (p : Nat) (z : Owner) : (s.setOwner p z).snoops = s.snoops := rfl
@[simp] theorem State.setOwner_flight (p : Nat) (z : Owner) : (s.setOwner p z).flight = s.flight := rfl
@[simp] theorem State.setOwner_accNum (p : Nat) (z : Owner) : (s.setOwner p z).accNum = s.accNum := rfl
@[simp] theorem State.setOwner_msgs (p : Nat) (z : Owner) : (s.setOwner p z).msgs = s.msgs := rfl
@[simp] theorem State.setOwner_slotReqs (p : Nat) (z : Owner) : (s.setOwner p z).slotReqs = s.slotReqs := rfl
@[simp] theorem State.setOwner_walks (p : Nat) (z : Owner) : (s.setOwner p z).walks = s.walks := rfl
@[simp] theorem State.setOwner_logs (p : Nat) (z : Owner) : (s.setOwner p z).logs = s.logs := rfl
@[simp] theorem State.setOwner_dieTlb (p : Nat) (z : Owner) : (s.setOwner p z).dieTlb = s.dieTlb := rfl
@[simp] theorem State.setOwner_streams (p : Nat) (z : Owner) : (s.setOwner p z).streams = s.streams := rfl
@[simp] theorem State.setOwner_launches (p : Nat) (z : Owner) : (s.setOwner p z).launches = s.launches := rfl
@[simp] theorem State.setOwner_nextLid (p : Nat) (z : Owner) : (s.setOwner p z).nextLid = s.nextLid := rfl
@[simp] theorem State.setOwner_lpt (p : Nat) (z : Owner) : (s.setOwner p z).lpt = s.lpt := rfl
@[simp] theorem State.setOwner_route (p : Nat) (z : Owner) : (s.setOwner p z).route = s.route := rfl
@[simp] theorem State.setOwner_keys (p : Nat) (z : Owner) : (s.setOwner p z).keys = s.keys := rfl
@[simp] theorem State.setOwner_quotas (p : Nat) (z : Owner) : (s.setOwner p z).quotas = s.quotas := rfl
@[simp] theorem State.setOwner_rowVd (p : Nat) (z : Owner) : (s.setOwner p z).rowVd = s.rowVd := rfl
@[simp] theorem State.setOwner_regs (p : Nat) (z : Owner) : (s.setOwner p z).regs = s.regs := rfl
@[simp] theorem State.setOwner_reclaims (p : Nat) (z : Owner) : (s.setOwner p z).reclaims = s.reclaims := rfl
@[simp] theorem State.setOwner_pulls (p : Nat) (z : Owner) : (s.setOwner p z).pulls = s.pulls := rfl
@[simp] theorem State.setOwner_lostAt (p : Nat) (z : Owner) : (s.setOwner p z).lostAt = s.lostAt := rfl
@[simp] theorem State.setOwner_resps (p : Nat) (z : Owner) : (s.setOwner p z).resps = s.resps := rfl
@[simp] theorem State.setOwner_modl (p : Nat) (z : Owner) : (s.setOwner p z).modl = s.modl := rfl
@[simp] theorem State.setOwner_cur (p : Nat) (z : Owner) : (s.setOwner p z).cur = s.cur := rfl
@[simp] theorem State.setOwner_agenda (p : Nat) (z : Owner) : (s.setOwner p z).agenda = s.agenda := rfl
@[simp] theorem State.setOwner_reach (p : Nat) (z : Owner) : (s.setOwner p z).reach = s.reach := rfl
@[simp] theorem State.setOwner_moves (p : Nat) (z : Owner) : (s.setOwner p z).moves = s.moves := rfl
@[simp] theorem State.setOwner_fresh (p : Nat) (z : Owner) : (s.setOwner p z).fresh = s.fresh := rfl
@[simp] theorem State.setOwner_did (p : Nat) (z : Owner) : (s.setOwner p z).did = s.did := rfl

/-! `State.setKey`. -/

@[simp] theorem State.setKey_cores (p : Nat) (z : KeySlot) : (s.setKey p z).cores = s.cores := rfl
@[simp] theorem State.setKey_vdevs (p : Nat) (z : KeySlot) : (s.setKey p z).vdevs = s.vdevs := rfl
@[simp] theorem State.setKey_lmem (p : Nat) (z : KeySlot) : (s.setKey p z).lmem = s.lmem := rfl
@[simp] theorem State.setKey_acc (p : Nat) (z : KeySlot) : (s.setKey p z).acc = s.acc := rfl
@[simp] theorem State.setKey_dram (p : Nat) (z : KeySlot) : (s.setKey p z).dram = s.dram := rfl
@[simp] theorem State.setKey_host (p : Nat) (z : KeySlot) : (s.setKey p z).host = s.host := rfl
@[simp] theorem State.setKey_fabric (p : Nat) (z : KeySlot) : (s.setKey p z).fabric = s.fabric := rfl
@[simp] theorem State.setKey_lpoison (p : Nat) (z : KeySlot) : (s.setKey p z).lpoison = s.lpoison := rfl
@[simp] theorem State.setKey_apoison (p : Nat) (z : KeySlot) : (s.setKey p z).apoison = s.apoison := rfl
@[simp] theorem State.setKey_dpoison (p : Nat) (z : KeySlot) : (s.setKey p z).dpoison = s.dpoison := rfl
@[simp] theorem State.setKey_hpoison (p : Nat) (z : KeySlot) : (s.setKey p z).hpoison = s.hpoison := rfl
@[simp] theorem State.setKey_fpoison (p : Nat) (z : KeySlot) : (s.setKey p z).fpoison = s.fpoison := rfl
@[simp] theorem State.setKey_snoops (p : Nat) (z : KeySlot) : (s.setKey p z).snoops = s.snoops := rfl
@[simp] theorem State.setKey_flight (p : Nat) (z : KeySlot) : (s.setKey p z).flight = s.flight := rfl
@[simp] theorem State.setKey_accNum (p : Nat) (z : KeySlot) : (s.setKey p z).accNum = s.accNum := rfl
@[simp] theorem State.setKey_msgs (p : Nat) (z : KeySlot) : (s.setKey p z).msgs = s.msgs := rfl
@[simp] theorem State.setKey_slotReqs (p : Nat) (z : KeySlot) : (s.setKey p z).slotReqs = s.slotReqs := rfl
@[simp] theorem State.setKey_walks (p : Nat) (z : KeySlot) : (s.setKey p z).walks = s.walks := rfl
@[simp] theorem State.setKey_logs (p : Nat) (z : KeySlot) : (s.setKey p z).logs = s.logs := rfl
@[simp] theorem State.setKey_dieTlb (p : Nat) (z : KeySlot) : (s.setKey p z).dieTlb = s.dieTlb := rfl
@[simp] theorem State.setKey_streams (p : Nat) (z : KeySlot) : (s.setKey p z).streams = s.streams := rfl
@[simp] theorem State.setKey_launches (p : Nat) (z : KeySlot) : (s.setKey p z).launches = s.launches := rfl
@[simp] theorem State.setKey_nextLid (p : Nat) (z : KeySlot) : (s.setKey p z).nextLid = s.nextLid := rfl
@[simp] theorem State.setKey_lpt (p : Nat) (z : KeySlot) : (s.setKey p z).lpt = s.lpt := rfl
@[simp] theorem State.setKey_route (p : Nat) (z : KeySlot) : (s.setKey p z).route = s.route := rfl
@[simp] theorem State.setKey_owners (p : Nat) (z : KeySlot) : (s.setKey p z).owners = s.owners := rfl
@[simp] theorem State.setKey_quotas (p : Nat) (z : KeySlot) : (s.setKey p z).quotas = s.quotas := rfl
@[simp] theorem State.setKey_rowVd (p : Nat) (z : KeySlot) : (s.setKey p z).rowVd = s.rowVd := rfl
@[simp] theorem State.setKey_regs (p : Nat) (z : KeySlot) : (s.setKey p z).regs = s.regs := rfl
@[simp] theorem State.setKey_reclaims (p : Nat) (z : KeySlot) : (s.setKey p z).reclaims = s.reclaims := rfl
@[simp] theorem State.setKey_pulls (p : Nat) (z : KeySlot) : (s.setKey p z).pulls = s.pulls := rfl
@[simp] theorem State.setKey_lostAt (p : Nat) (z : KeySlot) : (s.setKey p z).lostAt = s.lostAt := rfl
@[simp] theorem State.setKey_resps (p : Nat) (z : KeySlot) : (s.setKey p z).resps = s.resps := rfl
@[simp] theorem State.setKey_modl (p : Nat) (z : KeySlot) : (s.setKey p z).modl = s.modl := rfl
@[simp] theorem State.setKey_cur (p : Nat) (z : KeySlot) : (s.setKey p z).cur = s.cur := rfl
@[simp] theorem State.setKey_agenda (p : Nat) (z : KeySlot) : (s.setKey p z).agenda = s.agenda := rfl
@[simp] theorem State.setKey_reach (p : Nat) (z : KeySlot) : (s.setKey p z).reach = s.reach := rfl
@[simp] theorem State.setKey_moves (p : Nat) (z : KeySlot) : (s.setKey p z).moves = s.moves := rfl
@[simp] theorem State.setKey_fresh (p : Nat) (z : KeySlot) : (s.setKey p z).fresh = s.fresh := rfl
@[simp] theorem State.setKey_did (p : Nat) (z : KeySlot) : (s.setKey p z).did = s.did := rfl

/-! `State.setStream`. -/

@[simp] theorem State.setStream_cores (i : Nat) (z : Stream) : (s.setStream i z).cores = s.cores := rfl
@[simp] theorem State.setStream_vdevs (i : Nat) (z : Stream) : (s.setStream i z).vdevs = s.vdevs := rfl
@[simp] theorem State.setStream_lmem (i : Nat) (z : Stream) : (s.setStream i z).lmem = s.lmem := rfl
@[simp] theorem State.setStream_acc (i : Nat) (z : Stream) : (s.setStream i z).acc = s.acc := rfl
@[simp] theorem State.setStream_dram (i : Nat) (z : Stream) : (s.setStream i z).dram = s.dram := rfl
@[simp] theorem State.setStream_host (i : Nat) (z : Stream) : (s.setStream i z).host = s.host := rfl
@[simp] theorem State.setStream_fabric (i : Nat) (z : Stream) : (s.setStream i z).fabric = s.fabric := rfl
@[simp] theorem State.setStream_lpoison (i : Nat) (z : Stream) : (s.setStream i z).lpoison = s.lpoison := rfl
@[simp] theorem State.setStream_apoison (i : Nat) (z : Stream) : (s.setStream i z).apoison = s.apoison := rfl
@[simp] theorem State.setStream_dpoison (i : Nat) (z : Stream) : (s.setStream i z).dpoison = s.dpoison := rfl
@[simp] theorem State.setStream_hpoison (i : Nat) (z : Stream) : (s.setStream i z).hpoison = s.hpoison := rfl
@[simp] theorem State.setStream_fpoison (i : Nat) (z : Stream) : (s.setStream i z).fpoison = s.fpoison := rfl
@[simp] theorem State.setStream_snoops (i : Nat) (z : Stream) : (s.setStream i z).snoops = s.snoops := rfl
@[simp] theorem State.setStream_flight (i : Nat) (z : Stream) : (s.setStream i z).flight = s.flight := rfl
@[simp] theorem State.setStream_accNum (i : Nat) (z : Stream) : (s.setStream i z).accNum = s.accNum := rfl
@[simp] theorem State.setStream_msgs (i : Nat) (z : Stream) : (s.setStream i z).msgs = s.msgs := rfl
@[simp] theorem State.setStream_slotReqs (i : Nat) (z : Stream) : (s.setStream i z).slotReqs = s.slotReqs := rfl
@[simp] theorem State.setStream_walks (i : Nat) (z : Stream) : (s.setStream i z).walks = s.walks := rfl
@[simp] theorem State.setStream_logs (i : Nat) (z : Stream) : (s.setStream i z).logs = s.logs := rfl
@[simp] theorem State.setStream_dieTlb (i : Nat) (z : Stream) : (s.setStream i z).dieTlb = s.dieTlb := rfl
@[simp] theorem State.setStream_launches (i : Nat) (z : Stream) : (s.setStream i z).launches = s.launches := rfl
@[simp] theorem State.setStream_nextLid (i : Nat) (z : Stream) : (s.setStream i z).nextLid = s.nextLid := rfl
@[simp] theorem State.setStream_lpt (i : Nat) (z : Stream) : (s.setStream i z).lpt = s.lpt := rfl
@[simp] theorem State.setStream_route (i : Nat) (z : Stream) : (s.setStream i z).route = s.route := rfl
@[simp] theorem State.setStream_owners (i : Nat) (z : Stream) : (s.setStream i z).owners = s.owners := rfl
@[simp] theorem State.setStream_keys (i : Nat) (z : Stream) : (s.setStream i z).keys = s.keys := rfl
@[simp] theorem State.setStream_quotas (i : Nat) (z : Stream) : (s.setStream i z).quotas = s.quotas := rfl
@[simp] theorem State.setStream_rowVd (i : Nat) (z : Stream) : (s.setStream i z).rowVd = s.rowVd := rfl
@[simp] theorem State.setStream_regs (i : Nat) (z : Stream) : (s.setStream i z).regs = s.regs := rfl
@[simp] theorem State.setStream_reclaims (i : Nat) (z : Stream) : (s.setStream i z).reclaims = s.reclaims := rfl
@[simp] theorem State.setStream_pulls (i : Nat) (z : Stream) : (s.setStream i z).pulls = s.pulls := rfl
@[simp] theorem State.setStream_lostAt (i : Nat) (z : Stream) : (s.setStream i z).lostAt = s.lostAt := rfl
@[simp] theorem State.setStream_resps (i : Nat) (z : Stream) : (s.setStream i z).resps = s.resps := rfl
@[simp] theorem State.setStream_modl (i : Nat) (z : Stream) : (s.setStream i z).modl = s.modl := rfl
@[simp] theorem State.setStream_cur (i : Nat) (z : Stream) : (s.setStream i z).cur = s.cur := rfl
@[simp] theorem State.setStream_agenda (i : Nat) (z : Stream) : (s.setStream i z).agenda = s.agenda := rfl
@[simp] theorem State.setStream_reach (i : Nat) (z : Stream) : (s.setStream i z).reach = s.reach := rfl
@[simp] theorem State.setStream_moves (i : Nat) (z : Stream) : (s.setStream i z).moves = s.moves := rfl
@[simp] theorem State.setStream_fresh (i : Nat) (z : Stream) : (s.setStream i z).fresh = s.fresh := rfl
@[simp] theorem State.setStream_did (i : Nat) (z : Stream) : (s.setStream i z).did = s.did := rfl

/-! `State.modModule`. -/

@[simp] theorem State.modModule_cores (f : Module → Module) : (s.modModule f).cores = s.cores := rfl
@[simp] theorem State.modModule_vdevs (f : Module → Module) : (s.modModule f).vdevs = s.vdevs := rfl
@[simp] theorem State.modModule_lmem (f : Module → Module) : (s.modModule f).lmem = s.lmem := rfl
@[simp] theorem State.modModule_acc (f : Module → Module) : (s.modModule f).acc = s.acc := rfl
@[simp] theorem State.modModule_dram (f : Module → Module) : (s.modModule f).dram = s.dram := rfl
@[simp] theorem State.modModule_host (f : Module → Module) : (s.modModule f).host = s.host := rfl
@[simp] theorem State.modModule_fabric (f : Module → Module) : (s.modModule f).fabric = s.fabric := rfl
@[simp] theorem State.modModule_lpoison (f : Module → Module) : (s.modModule f).lpoison = s.lpoison := rfl
@[simp] theorem State.modModule_apoison (f : Module → Module) : (s.modModule f).apoison = s.apoison := rfl
@[simp] theorem State.modModule_dpoison (f : Module → Module) : (s.modModule f).dpoison = s.dpoison := rfl
@[simp] theorem State.modModule_hpoison (f : Module → Module) : (s.modModule f).hpoison = s.hpoison := rfl
@[simp] theorem State.modModule_fpoison (f : Module → Module) : (s.modModule f).fpoison = s.fpoison := rfl
@[simp] theorem State.modModule_snoops (f : Module → Module) : (s.modModule f).snoops = s.snoops := rfl
@[simp] theorem State.modModule_flight (f : Module → Module) : (s.modModule f).flight = s.flight := rfl
@[simp] theorem State.modModule_accNum (f : Module → Module) : (s.modModule f).accNum = s.accNum := rfl
@[simp] theorem State.modModule_msgs (f : Module → Module) : (s.modModule f).msgs = s.msgs := rfl
@[simp] theorem State.modModule_slotReqs (f : Module → Module) : (s.modModule f).slotReqs = s.slotReqs := rfl
@[simp] theorem State.modModule_walks (f : Module → Module) : (s.modModule f).walks = s.walks := rfl
@[simp] theorem State.modModule_logs (f : Module → Module) : (s.modModule f).logs = s.logs := rfl
@[simp] theorem State.modModule_dieTlb (f : Module → Module) : (s.modModule f).dieTlb = s.dieTlb := rfl
@[simp] theorem State.modModule_streams (f : Module → Module) : (s.modModule f).streams = s.streams := rfl
@[simp] theorem State.modModule_launches (f : Module → Module) : (s.modModule f).launches = s.launches := rfl
@[simp] theorem State.modModule_nextLid (f : Module → Module) : (s.modModule f).nextLid = s.nextLid := rfl
@[simp] theorem State.modModule_lpt (f : Module → Module) : (s.modModule f).lpt = s.lpt := rfl
@[simp] theorem State.modModule_route (f : Module → Module) : (s.modModule f).route = s.route := rfl
@[simp] theorem State.modModule_owners (f : Module → Module) : (s.modModule f).owners = s.owners := rfl
@[simp] theorem State.modModule_keys (f : Module → Module) : (s.modModule f).keys = s.keys := rfl
@[simp] theorem State.modModule_quotas (f : Module → Module) : (s.modModule f).quotas = s.quotas := rfl
@[simp] theorem State.modModule_rowVd (f : Module → Module) : (s.modModule f).rowVd = s.rowVd := rfl
@[simp] theorem State.modModule_regs (f : Module → Module) : (s.modModule f).regs = s.regs := rfl
@[simp] theorem State.modModule_reclaims (f : Module → Module) : (s.modModule f).reclaims = s.reclaims := rfl
@[simp] theorem State.modModule_pulls (f : Module → Module) : (s.modModule f).pulls = s.pulls := rfl
@[simp] theorem State.modModule_lostAt (f : Module → Module) : (s.modModule f).lostAt = s.lostAt := rfl
@[simp] theorem State.modModule_resps (f : Module → Module) : (s.modModule f).resps = s.resps := rfl
@[simp] theorem State.modModule_cur (f : Module → Module) : (s.modModule f).cur = s.cur := rfl
@[simp] theorem State.modModule_agenda (f : Module → Module) : (s.modModule f).agenda = s.agenda := rfl
@[simp] theorem State.modModule_reach (f : Module → Module) : (s.modModule f).reach = s.reach := rfl
@[simp] theorem State.modModule_moves (f : Module → Module) : (s.modModule f).moves = s.moves := rfl
@[simp] theorem State.modModule_fresh (f : Module → Module) : (s.modModule f).fresh = s.fresh := rfl
@[simp] theorem State.modModule_did (f : Module → Module) : (s.modModule f).did = s.did := rfl
@[simp] theorem State.modModule_modl (f : Module → Module) : (s.modModule f).modl = f s.modl := rfl

/-! `Core.modSeat`. -/

@[simp] theorem Core.modSeat_last (k : Nat) (f : Seat → Seat) : (y.modSeat k f).last = y.last := rfl
@[simp] theorem Core.modSeat_dqh (k : Nat) (f : Seat → Seat) : (y.modSeat k f).dqh = y.dqh := rfl
@[simp] theorem Core.modSeat_dqt (k : Nat) (f : Seat → Seat) : (y.modSeat k f).dqt = y.dqt := rfl
@[simp] theorem Core.modSeat_dqs (k : Nat) (f : Seat → Seat) : (y.modSeat k f).dqs = y.dqs := rfl
@[simp] theorem Core.modSeat_retSlot (k : Nat) (f : Seat → Seat) : (y.modSeat k f).retSlot = y.retSlot := rfl
@[simp] theorem Core.modSeat_inbox (k : Nat) (f : Seat → Seat) : (y.modSeat k f).inbox = y.inbox := rfl
@[simp] theorem Core.modSeat_slots (k : Nat) (f : Seat → Seat) : (y.modSeat k f).slots = y.slots := rfl
@[simp] theorem Core.modSeat_tls (k : Nat) (f : Seat → Seat) : (y.modSeat k f).tls = y.tls := rfl
@[simp] theorem Core.modSeat_ctxs (k : Nat) (f : Seat → Seat) : (y.modSeat k f).ctxs = y.ctxs := rfl
@[simp] theorem Core.modSeat_mat (k : Nat) (f : Seat → Seat) : (y.modSeat k f).mat = y.mat := rfl
@[simp] theorem Core.modSeat_fed (k : Nat) (f : Seat → Seat) : (y.modSeat k f).fed = y.fed := rfl
@[simp] theorem Core.modSeat_tile (k : Nat) (f : Seat → Seat) : (y.modSeat k f).tile = y.tile := rfl
@[simp] theorem Core.modSeat_sboard (k : Nat) (f : Seat → Seat) : (y.modSeat k f).sboard = y.sboard := rfl
@[simp] theorem Core.modSeat_lrt (k : Nat) (f : Seat → Seat) : (y.modSeat k f).lrt = y.lrt := rfl
@[simp] theorem Core.modSeat_hinst (k : Nat) (f : Seat → Seat) : (y.modSeat k f).hinst = y.hinst := rfl
@[simp] theorem Core.modSeat_ccache (k : Nat) (f : Seat → Seat) : (y.modSeat k f).ccache = y.ccache := rfl
@[simp] theorem Core.modSeat_tlb (k : Nat) (f : Seat → Seat) : (y.modSeat k f).tlb = y.tlb := rfl
@[simp] theorem Core.modSeat_halted (k : Nat) (f : Seat → Seat) : (y.modSeat k f).halted = y.halted := rfl
@[simp] theorem Core.modSeat_pre (k : Nat) (f : Seat → Seat) : (y.modSeat k f).pre = y.pre := rfl
@[simp] theorem Core.modSeat_retiring (k : Nat) (f : Seat → Seat) : (y.modSeat k f).retiring = y.retiring := rfl
@[simp] theorem Core.modSeat_pair (k : Nat) (f : Seat → Seat) : (y.modSeat k f).pair = y.pair := rfl
@[simp] theorem Core.modSeat_gang (k : Nat) (f : Seat → Seat) : (y.modSeat k f).gang = y.gang := rfl
@[simp] theorem Core.modSeat_ibdisc (k : Nat) (f : Seat → Seat) : (y.modSeat k f).ibdisc = y.ibdisc := rfl
@[simp] theorem Core.modSeat_eccc (k : Nat) (f : Seat → Seat) : (y.modSeat k f).eccc = y.eccc := rfl
@[simp] theorem Core.modSeat_eccu (k : Nat) (f : Seat → Seat) : (y.modSeat k f).eccu = y.eccu := rfl

/-! `Seat.setView`. -/

@[simp] theorem Seat.setView_occ (n : Nat) (z : View) : (x.setView n z).occ = x.occ := rfl
@[simp] theorem Seat.setView_home (n : Nat) (z : View) : (x.setView n z).home = x.home := rfl
@[simp] theorem Seat.setView_scal (n : Nat) (z : View) : (x.setView n z).scal = x.scal := rfl
@[simp] theorem Seat.setView_scalFe (n : Nat) (z : View) : (x.setView n z).scalFe = x.scalFe := rfl
@[simp] theorem Seat.setView_main (n : Nat) (z : View) : (x.setView n z).main = x.main := rfl
@[simp] theorem Seat.setView_mat (n : Nat) (z : View) : (x.setView n z).mat = x.mat := rfl
@[simp] theorem Seat.setView_cpy (n : Nat) (z : View) : (x.setView n z).cpy = x.cpy := rfl
@[simp] theorem Seat.setView_pred (n : Nat) (z : View) : (x.setView n z).pred = x.pred := rfl
@[simp] theorem Seat.setView_ftz (n : Nat) (z : View) : (x.setView n z).ftz = x.ftz := rfl
@[simp] theorem Seat.setView_rsm (n : Nat) (z : View) : (x.setView n z).rsm = x.rsm := rfl
@[simp] theorem Seat.setView_hnd (n : Nat) (z : View) : (x.setView n z).hnd = x.hnd := rfl
@[simp] theorem Seat.setView_gang (n : Nat) (z : View) : (x.setView n z).gang = x.gang := rfl
@[simp] theorem Seat.setView_lead (n : Nat) (z : View) : (x.setView n z).lead = x.lead := rfl
@[simp] theorem Seat.setView_fstat (n : Nat) (z : View) : (x.setView n z).fstat = x.fstat := rfl
@[simp] theorem Seat.setView_amax (n : Nat) (z : View) : (x.setView n z).amax = x.amax := rfl
@[simp] theorem Seat.setView_epc (n : Nat) (z : View) : (x.setView n z).epc = x.epc := rfl
@[simp] theorem Seat.setView_ecause (n : Nat) (z : View) : (x.setView n z).ecause = x.ecause := rfl
@[simp] theorem Seat.setView_eval (n : Nat) (z : View) : (x.setView n z).eval = x.eval := rfl
@[simp] theorem Seat.setView_repSys (n : Nat) (z : View) : (x.setView n z).repSys = x.repSys := rfl
@[simp] theorem Seat.setView_basedom (n : Nat) (z : View) : (x.setView n z).basedom = x.basedom := rfl
@[simp] theorem Seat.setView_vdev (n : Nat) (z : View) : (x.setView n z).vdev = x.vdev := rfl
@[simp] theorem Seat.setView_curdom (n : Nat) (z : View) : (x.setView n z).curdom = x.curdom := rfl
@[simp] theorem Seat.setView_limit (n : Nat) (z : View) : (x.setView n z).limit = x.limit := rfl
@[simp] theorem Seat.setView_depth (n : Nat) (z : View) : (x.setView n z).depth = x.depth := rfl
@[simp] theorem Seat.setView_frames (n : Nat) (z : View) : (x.setView n z).frames = x.frames := rfl
@[simp] theorem Seat.setView_gstat (n : Nat) (z : View) : (x.setView n z).gstat = x.gstat := rfl
@[simp] theorem Seat.setView_lid (n : Nat) (z : View) : (x.setView n z).lid = x.lid := rfl
@[simp] theorem Seat.setView_queue (n : Nat) (z : View) : (x.setView n z).queue = x.queue := rfl
@[simp] theorem Seat.setView_cyc (n : Nat) (z : View) : (x.setView n z).cyc = x.cyc := rfl
@[simp] theorem Seat.setView_segb (n : Nat) (z : View) : (x.setView n z).segb = x.segb := rfl
@[simp] theorem Seat.setView_age (n : Nat) (z : View) : (x.setView n z).age = x.age := rfl
@[simp] theorem Seat.setView_pri (n : Nat) (z : View) : (x.setView n z).pri = x.pri := rfl
@[simp] theorem Seat.setView_yld (n : Nat) (z : View) : (x.setView n z).yld = x.yld := rfl
@[simp] theorem Seat.setView_image (n : Nat) (z : View) : (x.setView n z).image = x.image := rfl
@[simp] theorem Seat.setView_resume (n : Nat) (z : View) : (x.setView n z).resume = x.resume := rfl
@[simp] theorem Seat.setView_sliced (n : Nat) (z : View) : (x.setView n z).sliced = x.sliced := rfl
@[simp] theorem Seat.setView_held (n : Nat) (z : View) : (x.setView n z).held = x.held := rfl
@[simp] theorem Seat.setView_pend (n : Nat) (z : View) : (x.setView n z).pend = x.pend := rfl
@[simp] theorem Seat.setView_reports (n : Nat) (z : View) : (x.setView n z).reports = x.reports := rfl
@[simp] theorem Seat.setView_unw (n : Nat) (z : View) : (x.setView n z).unw = x.unw := rfl
@[simp] theorem Seat.setView_marked (n : Nat) (z : View) : (x.setView n z).marked = x.marked := rfl
@[simp] theorem Seat.setView_ending (n : Nat) (z : View) : (x.setView n z).ending = x.ending := rfl
@[simp] theorem Seat.setView_seq (n : Nat) (z : View) : (x.setView n z).seq = x.seq := rfl
@[simp] theorem Seat.setView_record (n : Nat) (z : View) : (x.setView n z).record = x.record := rfl
@[simp] theorem Seat.setView_engDefer (n : Nat) (z : View) : (x.setView n z).engDefer = x.engDefer := rfl

/-! `Seat.setReg`. -/

@[simp] theorem Seat.setReg_occ (n : Nat) (z : Word) : (x.setReg n z).occ = x.occ := rfl
@[simp] theorem Seat.setReg_home (n : Nat) (z : Word) : (x.setReg n z).home = x.home := rfl
@[simp] theorem Seat.setReg_views (n : Nat) (z : Word) : (x.setReg n z).views = x.views := rfl
@[simp] theorem Seat.setReg_scalFe (n : Nat) (z : Word) : (x.setReg n z).scalFe = x.scalFe := rfl
@[simp] theorem Seat.setReg_main (n : Nat) (z : Word) : (x.setReg n z).main = x.main := rfl
@[simp] theorem Seat.setReg_mat (n : Nat) (z : Word) : (x.setReg n z).mat = x.mat := rfl
@[simp] theorem Seat.setReg_cpy (n : Nat) (z : Word) : (x.setReg n z).cpy = x.cpy := rfl
@[simp] theorem Seat.setReg_pred (n : Nat) (z : Word) : (x.setReg n z).pred = x.pred := rfl
@[simp] theorem Seat.setReg_ftz (n : Nat) (z : Word) : (x.setReg n z).ftz = x.ftz := rfl
@[simp] theorem Seat.setReg_rsm (n : Nat) (z : Word) : (x.setReg n z).rsm = x.rsm := rfl
@[simp] theorem Seat.setReg_hnd (n : Nat) (z : Word) : (x.setReg n z).hnd = x.hnd := rfl
@[simp] theorem Seat.setReg_gang (n : Nat) (z : Word) : (x.setReg n z).gang = x.gang := rfl
@[simp] theorem Seat.setReg_lead (n : Nat) (z : Word) : (x.setReg n z).lead = x.lead := rfl
@[simp] theorem Seat.setReg_fstat (n : Nat) (z : Word) : (x.setReg n z).fstat = x.fstat := rfl
@[simp] theorem Seat.setReg_amax (n : Nat) (z : Word) : (x.setReg n z).amax = x.amax := rfl
@[simp] theorem Seat.setReg_epc (n : Nat) (z : Word) : (x.setReg n z).epc = x.epc := rfl
@[simp] theorem Seat.setReg_ecause (n : Nat) (z : Word) : (x.setReg n z).ecause = x.ecause := rfl
@[simp] theorem Seat.setReg_eval (n : Nat) (z : Word) : (x.setReg n z).eval = x.eval := rfl
@[simp] theorem Seat.setReg_repSys (n : Nat) (z : Word) : (x.setReg n z).repSys = x.repSys := rfl
@[simp] theorem Seat.setReg_basedom (n : Nat) (z : Word) : (x.setReg n z).basedom = x.basedom := rfl
@[simp] theorem Seat.setReg_vdev (n : Nat) (z : Word) : (x.setReg n z).vdev = x.vdev := rfl
@[simp] theorem Seat.setReg_curdom (n : Nat) (z : Word) : (x.setReg n z).curdom = x.curdom := rfl
@[simp] theorem Seat.setReg_limit (n : Nat) (z : Word) : (x.setReg n z).limit = x.limit := rfl
@[simp] theorem Seat.setReg_depth (n : Nat) (z : Word) : (x.setReg n z).depth = x.depth := rfl
@[simp] theorem Seat.setReg_frames (n : Nat) (z : Word) : (x.setReg n z).frames = x.frames := rfl
@[simp] theorem Seat.setReg_gstat (n : Nat) (z : Word) : (x.setReg n z).gstat = x.gstat := rfl
@[simp] theorem Seat.setReg_lid (n : Nat) (z : Word) : (x.setReg n z).lid = x.lid := rfl
@[simp] theorem Seat.setReg_queue (n : Nat) (z : Word) : (x.setReg n z).queue = x.queue := rfl
@[simp] theorem Seat.setReg_cyc (n : Nat) (z : Word) : (x.setReg n z).cyc = x.cyc := rfl
@[simp] theorem Seat.setReg_segb (n : Nat) (z : Word) : (x.setReg n z).segb = x.segb := rfl
@[simp] theorem Seat.setReg_age (n : Nat) (z : Word) : (x.setReg n z).age = x.age := rfl
@[simp] theorem Seat.setReg_pri (n : Nat) (z : Word) : (x.setReg n z).pri = x.pri := rfl
@[simp] theorem Seat.setReg_yld (n : Nat) (z : Word) : (x.setReg n z).yld = x.yld := rfl
@[simp] theorem Seat.setReg_image (n : Nat) (z : Word) : (x.setReg n z).image = x.image := rfl
@[simp] theorem Seat.setReg_resume (n : Nat) (z : Word) : (x.setReg n z).resume = x.resume := rfl
@[simp] theorem Seat.setReg_sliced (n : Nat) (z : Word) : (x.setReg n z).sliced = x.sliced := rfl
@[simp] theorem Seat.setReg_held (n : Nat) (z : Word) : (x.setReg n z).held = x.held := rfl
@[simp] theorem Seat.setReg_pend (n : Nat) (z : Word) : (x.setReg n z).pend = x.pend := rfl
@[simp] theorem Seat.setReg_reports (n : Nat) (z : Word) : (x.setReg n z).reports = x.reports := rfl
@[simp] theorem Seat.setReg_unw (n : Nat) (z : Word) : (x.setReg n z).unw = x.unw := rfl
@[simp] theorem Seat.setReg_marked (n : Nat) (z : Word) : (x.setReg n z).marked = x.marked := rfl
@[simp] theorem Seat.setReg_ending (n : Nat) (z : Word) : (x.setReg n z).ending = x.ending := rfl
@[simp] theorem Seat.setReg_seq (n : Nat) (z : Word) : (x.setReg n z).seq = x.seq := rfl
@[simp] theorem Seat.setReg_record (n : Nat) (z : Word) : (x.setReg n z).record = x.record := rfl
@[simp] theorem Seat.setReg_engDefer (n : Nat) (z : Word) : (x.setReg n z).engDefer = x.engDefer := rfl

/-! `Seat.setFull`. -/

@[simp] theorem Seat.setFull_occ (n : Nat) (b : Bool) : (x.setFull n b).occ = x.occ := rfl
@[simp] theorem Seat.setFull_home (n : Nat) (b : Bool) : (x.setFull n b).home = x.home := rfl
@[simp] theorem Seat.setFull_views (n : Nat) (b : Bool) : (x.setFull n b).views = x.views := rfl
@[simp] theorem Seat.setFull_scal (n : Nat) (b : Bool) : (x.setFull n b).scal = x.scal := rfl
@[simp] theorem Seat.setFull_main (n : Nat) (b : Bool) : (x.setFull n b).main = x.main := rfl
@[simp] theorem Seat.setFull_mat (n : Nat) (b : Bool) : (x.setFull n b).mat = x.mat := rfl
@[simp] theorem Seat.setFull_cpy (n : Nat) (b : Bool) : (x.setFull n b).cpy = x.cpy := rfl
@[simp] theorem Seat.setFull_pred (n : Nat) (b : Bool) : (x.setFull n b).pred = x.pred := rfl
@[simp] theorem Seat.setFull_ftz (n : Nat) (b : Bool) : (x.setFull n b).ftz = x.ftz := rfl
@[simp] theorem Seat.setFull_rsm (n : Nat) (b : Bool) : (x.setFull n b).rsm = x.rsm := rfl
@[simp] theorem Seat.setFull_hnd (n : Nat) (b : Bool) : (x.setFull n b).hnd = x.hnd := rfl
@[simp] theorem Seat.setFull_gang (n : Nat) (b : Bool) : (x.setFull n b).gang = x.gang := rfl
@[simp] theorem Seat.setFull_lead (n : Nat) (b : Bool) : (x.setFull n b).lead = x.lead := rfl
@[simp] theorem Seat.setFull_fstat (n : Nat) (b : Bool) : (x.setFull n b).fstat = x.fstat := rfl
@[simp] theorem Seat.setFull_amax (n : Nat) (b : Bool) : (x.setFull n b).amax = x.amax := rfl
@[simp] theorem Seat.setFull_epc (n : Nat) (b : Bool) : (x.setFull n b).epc = x.epc := rfl
@[simp] theorem Seat.setFull_ecause (n : Nat) (b : Bool) : (x.setFull n b).ecause = x.ecause := rfl
@[simp] theorem Seat.setFull_eval (n : Nat) (b : Bool) : (x.setFull n b).eval = x.eval := rfl
@[simp] theorem Seat.setFull_repSys (n : Nat) (b : Bool) : (x.setFull n b).repSys = x.repSys := rfl
@[simp] theorem Seat.setFull_basedom (n : Nat) (b : Bool) : (x.setFull n b).basedom = x.basedom := rfl
@[simp] theorem Seat.setFull_vdev (n : Nat) (b : Bool) : (x.setFull n b).vdev = x.vdev := rfl
@[simp] theorem Seat.setFull_curdom (n : Nat) (b : Bool) : (x.setFull n b).curdom = x.curdom := rfl
@[simp] theorem Seat.setFull_limit (n : Nat) (b : Bool) : (x.setFull n b).limit = x.limit := rfl
@[simp] theorem Seat.setFull_depth (n : Nat) (b : Bool) : (x.setFull n b).depth = x.depth := rfl
@[simp] theorem Seat.setFull_frames (n : Nat) (b : Bool) : (x.setFull n b).frames = x.frames := rfl
@[simp] theorem Seat.setFull_gstat (n : Nat) (b : Bool) : (x.setFull n b).gstat = x.gstat := rfl
@[simp] theorem Seat.setFull_lid (n : Nat) (b : Bool) : (x.setFull n b).lid = x.lid := rfl
@[simp] theorem Seat.setFull_queue (n : Nat) (b : Bool) : (x.setFull n b).queue = x.queue := rfl
@[simp] theorem Seat.setFull_cyc (n : Nat) (b : Bool) : (x.setFull n b).cyc = x.cyc := rfl
@[simp] theorem Seat.setFull_segb (n : Nat) (b : Bool) : (x.setFull n b).segb = x.segb := rfl
@[simp] theorem Seat.setFull_age (n : Nat) (b : Bool) : (x.setFull n b).age = x.age := rfl
@[simp] theorem Seat.setFull_pri (n : Nat) (b : Bool) : (x.setFull n b).pri = x.pri := rfl
@[simp] theorem Seat.setFull_yld (n : Nat) (b : Bool) : (x.setFull n b).yld = x.yld := rfl
@[simp] theorem Seat.setFull_image (n : Nat) (b : Bool) : (x.setFull n b).image = x.image := rfl
@[simp] theorem Seat.setFull_resume (n : Nat) (b : Bool) : (x.setFull n b).resume = x.resume := rfl
@[simp] theorem Seat.setFull_sliced (n : Nat) (b : Bool) : (x.setFull n b).sliced = x.sliced := rfl
@[simp] theorem Seat.setFull_held (n : Nat) (b : Bool) : (x.setFull n b).held = x.held := rfl
@[simp] theorem Seat.setFull_pend (n : Nat) (b : Bool) : (x.setFull n b).pend = x.pend := rfl
@[simp] theorem Seat.setFull_reports (n : Nat) (b : Bool) : (x.setFull n b).reports = x.reports := rfl
@[simp] theorem Seat.setFull_unw (n : Nat) (b : Bool) : (x.setFull n b).unw = x.unw := rfl
@[simp] theorem Seat.setFull_marked (n : Nat) (b : Bool) : (x.setFull n b).marked = x.marked := rfl
@[simp] theorem Seat.setFull_ending (n : Nat) (b : Bool) : (x.setFull n b).ending = x.ending := rfl
@[simp] theorem Seat.setFull_seq (n : Nat) (b : Bool) : (x.setFull n b).seq = x.seq := rfl
@[simp] theorem Seat.setFull_record (n : Nat) (b : Bool) : (x.setFull n b).record = x.record := rfl
@[simp] theorem Seat.setFull_engDefer (n : Nat) (b : Bool) : (x.setFull n b).engDefer = x.engDefer := rfl

/-! `Seat.raiseFlags`. -/

@[simp] theorem Seat.raiseFlags_occ (f : Flags) : (x.raiseFlags f).occ = x.occ := rfl
@[simp] theorem Seat.raiseFlags_home (f : Flags) : (x.raiseFlags f).home = x.home := rfl
@[simp] theorem Seat.raiseFlags_views (f : Flags) : (x.raiseFlags f).views = x.views := rfl
@[simp] theorem Seat.raiseFlags_scal (f : Flags) : (x.raiseFlags f).scal = x.scal := rfl
@[simp] theorem Seat.raiseFlags_scalFe (f : Flags) : (x.raiseFlags f).scalFe = x.scalFe := rfl
@[simp] theorem Seat.raiseFlags_main (f : Flags) : (x.raiseFlags f).main = x.main := rfl
@[simp] theorem Seat.raiseFlags_mat (f : Flags) : (x.raiseFlags f).mat = x.mat := rfl
@[simp] theorem Seat.raiseFlags_cpy (f : Flags) : (x.raiseFlags f).cpy = x.cpy := rfl
@[simp] theorem Seat.raiseFlags_pred (f : Flags) : (x.raiseFlags f).pred = x.pred := rfl
@[simp] theorem Seat.raiseFlags_ftz (f : Flags) : (x.raiseFlags f).ftz = x.ftz := rfl
@[simp] theorem Seat.raiseFlags_rsm (f : Flags) : (x.raiseFlags f).rsm = x.rsm := rfl
@[simp] theorem Seat.raiseFlags_hnd (f : Flags) : (x.raiseFlags f).hnd = x.hnd := rfl
@[simp] theorem Seat.raiseFlags_gang (f : Flags) : (x.raiseFlags f).gang = x.gang := rfl
@[simp] theorem Seat.raiseFlags_lead (f : Flags) : (x.raiseFlags f).lead = x.lead := rfl
@[simp] theorem Seat.raiseFlags_amax (f : Flags) : (x.raiseFlags f).amax = x.amax := rfl
@[simp] theorem Seat.raiseFlags_epc (f : Flags) : (x.raiseFlags f).epc = x.epc := rfl
@[simp] theorem Seat.raiseFlags_ecause (f : Flags) : (x.raiseFlags f).ecause = x.ecause := rfl
@[simp] theorem Seat.raiseFlags_eval (f : Flags) : (x.raiseFlags f).eval = x.eval := rfl
@[simp] theorem Seat.raiseFlags_repSys (f : Flags) : (x.raiseFlags f).repSys = x.repSys := rfl
@[simp] theorem Seat.raiseFlags_basedom (f : Flags) : (x.raiseFlags f).basedom = x.basedom := rfl
@[simp] theorem Seat.raiseFlags_vdev (f : Flags) : (x.raiseFlags f).vdev = x.vdev := rfl
@[simp] theorem Seat.raiseFlags_curdom (f : Flags) : (x.raiseFlags f).curdom = x.curdom := rfl
@[simp] theorem Seat.raiseFlags_limit (f : Flags) : (x.raiseFlags f).limit = x.limit := rfl
@[simp] theorem Seat.raiseFlags_depth (f : Flags) : (x.raiseFlags f).depth = x.depth := rfl
@[simp] theorem Seat.raiseFlags_frames (f : Flags) : (x.raiseFlags f).frames = x.frames := rfl
@[simp] theorem Seat.raiseFlags_gstat (f : Flags) : (x.raiseFlags f).gstat = x.gstat := rfl
@[simp] theorem Seat.raiseFlags_lid (f : Flags) : (x.raiseFlags f).lid = x.lid := rfl
@[simp] theorem Seat.raiseFlags_queue (f : Flags) : (x.raiseFlags f).queue = x.queue := rfl
@[simp] theorem Seat.raiseFlags_cyc (f : Flags) : (x.raiseFlags f).cyc = x.cyc := rfl
@[simp] theorem Seat.raiseFlags_segb (f : Flags) : (x.raiseFlags f).segb = x.segb := rfl
@[simp] theorem Seat.raiseFlags_age (f : Flags) : (x.raiseFlags f).age = x.age := rfl
@[simp] theorem Seat.raiseFlags_pri (f : Flags) : (x.raiseFlags f).pri = x.pri := rfl
@[simp] theorem Seat.raiseFlags_yld (f : Flags) : (x.raiseFlags f).yld = x.yld := rfl
@[simp] theorem Seat.raiseFlags_image (f : Flags) : (x.raiseFlags f).image = x.image := rfl
@[simp] theorem Seat.raiseFlags_resume (f : Flags) : (x.raiseFlags f).resume = x.resume := rfl
@[simp] theorem Seat.raiseFlags_sliced (f : Flags) : (x.raiseFlags f).sliced = x.sliced := rfl
@[simp] theorem Seat.raiseFlags_held (f : Flags) : (x.raiseFlags f).held = x.held := rfl
@[simp] theorem Seat.raiseFlags_pend (f : Flags) : (x.raiseFlags f).pend = x.pend := rfl
@[simp] theorem Seat.raiseFlags_reports (f : Flags) : (x.raiseFlags f).reports = x.reports := rfl
@[simp] theorem Seat.raiseFlags_unw (f : Flags) : (x.raiseFlags f).unw = x.unw := rfl
@[simp] theorem Seat.raiseFlags_marked (f : Flags) : (x.raiseFlags f).marked = x.marked := rfl
@[simp] theorem Seat.raiseFlags_ending (f : Flags) : (x.raiseFlags f).ending = x.ending := rfl
@[simp] theorem Seat.raiseFlags_seq (f : Flags) : (x.raiseFlags f).seq = x.seq := rfl
@[simp] theorem Seat.raiseFlags_record (f : Flags) : (x.raiseFlags f).record = x.record := rfl
@[simp] theorem Seat.raiseFlags_engDefer (f : Flags) : (x.raiseFlags f).engDefer = x.engDefer := rfl
@[simp] theorem Seat.raiseFlags_fstat (f : Flags) : (x.raiseFlags f).fstat = x.fstat ||| f := rfl

/-! `VDev.modQueue`. -/

@[simp] theorem VDev.modQueue_xtl (q : Nat) (f : Queue → Queue) : (v.modQueue q f).xtl = v.xtl := rfl
@[simp] theorem VDev.modQueue_xiss (q : Nat) (f : Queue → Queue) : (v.modQueue q f).xiss = v.xiss := rfl
@[simp] theorem VDev.modQueue_invs (q : Nat) (f : Queue → Queue) : (v.modQueue q f).invs = v.invs := rfl
@[simp] theorem VDev.modQueue_vused (q : Nat) (f : Queue → Queue) : (v.modQueue q f).vused = v.vused := rfl
@[simp] theorem VDev.modQueue_clovr (q : Nat) (f : Queue → Queue) : (v.modQueue q f).clovr = v.clovr := rfl
@[simp] theorem VDev.modQueue_cr (q : Nat) (f : Queue → Queue) : (v.modQueue q f).cr = v.cr := rfl
@[simp] theorem VDev.modQueue_evput (q : Nat) (f : Queue → Queue) : (v.modQueue q f).evput = v.evput := rfl
@[simp] theorem VDev.modQueue_evget (q : Nat) (f : Queue → Queue) : (v.modQueue q f).evget = v.evget := rfl
@[simp] theorem VDev.modQueue_heldEv (q : Nat) (f : Queue → Queue) : (v.modQueue q f).heldEv = v.heldEv := rfl
@[simp] theorem VDev.modQueue_dlput (q : Nat) (f : Queue → Queue) : (v.modQueue q f).dlput = v.dlput := rfl
@[simp] theorem VDev.modQueue_dlget (q : Nat) (f : Queue → Queue) : (v.modQueue q f).dlget = v.dlget := rfl
@[simp] theorem VDev.modQueue_dlthr (q : Nat) (f : Queue → Queue) : (v.modQueue q f).dlthr = v.dlthr := rfl
@[simp] theorem VDev.modQueue_loader (q : Nat) (f : Queue → Queue) : (v.modQueue q f).loader = v.loader := rfl
@[simp] theorem VDev.modQueue_prop (q : Nat) (f : Queue → Queue) : (v.modQueue q f).prop = v.prop := rfl
@[simp] theorem VDev.modQueue_tdi (q : Nat) (f : Queue → Queue) : (v.modQueue q f).tdi = v.tdi := rfl
@[simp] theorem VDev.modQueue_nonce (q : Nat) (f : Queue → Queue) : (v.modQueue q f).nonce = v.nonce := rfl
@[simp] theorem VDev.modQueue_ide (q : Nat) (f : Queue → Queue) : (v.modQueue q f).ide = v.ide := rfl
@[simp] theorem VDev.modQueue_ideKey (q : Nat) (f : Queue → Queue) : (v.modQueue q f).ideKey = v.ideKey := rfl
@[simp] theorem VDev.modQueue_hold (q : Nat) (f : Queue → Queue) : (v.modQueue q f).hold = v.hold := rfl
@[simp] theorem VDev.modQueue_fencing (q : Nat) (f : Queue → Queue) : (v.modQueue q f).fencing = v.fencing := rfl
@[simp] theorem VDev.modQueue_killing (q : Nat) (f : Queue → Queue) : (v.modQueue q f).killing = v.killing := rfl
@[simp] theorem VDev.modQueue_rrq (q : Nat) (f : Queue → Queue) : (v.modQueue q f).rrq = v.rrq := rfl
@[simp] theorem VDev.modQueue_saved (q : Nat) (f : Queue → Queue) : (v.modQueue q f).saved = v.saved := rfl
@[simp] theorem VDev.modQueue_cores (q : Nat) (f : Queue → Queue) : (v.modQueue q f).cores = v.cores := rfl
@[simp] theorem VDev.modQueue_cmisc (q : Nat) (f : Queue → Queue) : (v.modQueue q f).cmisc = v.cmisc := rfl
@[simp] theorem VDev.modQueue_down (q : Nat) (f : Queue → Queue) : (v.modQueue q f).down = v.down := rfl

/-! `Seat.setStrand` and `Seat.setP`. -/

@[simp] theorem Seat.setStrand_occ (k : StrandK) (t : Strand) : (x.setStrand k t).occ = x.occ := by cases k <;> rfl
@[simp] theorem Seat.setStrand_home (k : StrandK) (t : Strand) : (x.setStrand k t).home = x.home := by cases k <;> rfl
@[simp] theorem Seat.setStrand_views (k : StrandK) (t : Strand) : (x.setStrand k t).views = x.views := by cases k <;> rfl
@[simp] theorem Seat.setStrand_scal (k : StrandK) (t : Strand) : (x.setStrand k t).scal = x.scal := by cases k <;> rfl
@[simp] theorem Seat.setStrand_scalFe (k : StrandK) (t : Strand) : (x.setStrand k t).scalFe = x.scalFe := by cases k <;> rfl
@[simp] theorem Seat.setStrand_pred (k : StrandK) (t : Strand) : (x.setStrand k t).pred = x.pred := by cases k <;> rfl
@[simp] theorem Seat.setStrand_ftz (k : StrandK) (t : Strand) : (x.setStrand k t).ftz = x.ftz := by cases k <;> rfl
@[simp] theorem Seat.setStrand_rsm (k : StrandK) (t : Strand) : (x.setStrand k t).rsm = x.rsm := by cases k <;> rfl
@[simp] theorem Seat.setStrand_hnd (k : StrandK) (t : Strand) : (x.setStrand k t).hnd = x.hnd := by cases k <;> rfl
@[simp] theorem Seat.setStrand_gang (k : StrandK) (t : Strand) : (x.setStrand k t).gang = x.gang := by cases k <;> rfl
@[simp] theorem Seat.setStrand_lead (k : StrandK) (t : Strand) : (x.setStrand k t).lead = x.lead := by cases k <;> rfl
@[simp] theorem Seat.setStrand_fstat (k : StrandK) (t : Strand) : (x.setStrand k t).fstat = x.fstat := by cases k <;> rfl
@[simp] theorem Seat.setStrand_amax (k : StrandK) (t : Strand) : (x.setStrand k t).amax = x.amax := by cases k <;> rfl
@[simp] theorem Seat.setStrand_epc (k : StrandK) (t : Strand) : (x.setStrand k t).epc = x.epc := by cases k <;> rfl
@[simp] theorem Seat.setStrand_ecause (k : StrandK) (t : Strand) : (x.setStrand k t).ecause = x.ecause := by cases k <;> rfl
@[simp] theorem Seat.setStrand_eval (k : StrandK) (t : Strand) : (x.setStrand k t).eval = x.eval := by cases k <;> rfl
@[simp] theorem Seat.setStrand_repSys (k : StrandK) (t : Strand) : (x.setStrand k t).repSys = x.repSys := by cases k <;> rfl
@[simp] theorem Seat.setStrand_basedom (k : StrandK) (t : Strand) : (x.setStrand k t).basedom = x.basedom := by cases k <;> rfl
@[simp] theorem Seat.setStrand_vdev (k : StrandK) (t : Strand) : (x.setStrand k t).vdev = x.vdev := by cases k <;> rfl
@[simp] theorem Seat.setStrand_curdom (k : StrandK) (t : Strand) : (x.setStrand k t).curdom = x.curdom := by cases k <;> rfl
@[simp] theorem Seat.setStrand_limit (k : StrandK) (t : Strand) : (x.setStrand k t).limit = x.limit := by cases k <;> rfl
@[simp] theorem Seat.setStrand_depth (k : StrandK) (t : Strand) : (x.setStrand k t).depth = x.depth := by cases k <;> rfl
@[simp] theorem Seat.setStrand_frames (k : StrandK) (t : Strand) : (x.setStrand k t).frames = x.frames := by cases k <;> rfl
@[simp] theorem Seat.setStrand_gstat (k : StrandK) (t : Strand) : (x.setStrand k t).gstat = x.gstat := by cases k <;> rfl
@[simp] theorem Seat.setStrand_lid (k : StrandK) (t : Strand) : (x.setStrand k t).lid = x.lid := by cases k <;> rfl
@[simp] theorem Seat.setStrand_queue (k : StrandK) (t : Strand) : (x.setStrand k t).queue = x.queue := by cases k <;> rfl
@[simp] theorem Seat.setStrand_cyc (k : StrandK) (t : Strand) : (x.setStrand k t).cyc = x.cyc := by cases k <;> rfl
@[simp] theorem Seat.setStrand_segb (k : StrandK) (t : Strand) : (x.setStrand k t).segb = x.segb := by cases k <;> rfl
@[simp] theorem Seat.setStrand_age (k : StrandK) (t : Strand) : (x.setStrand k t).age = x.age := by cases k <;> rfl
@[simp] theorem Seat.setStrand_pri (k : StrandK) (t : Strand) : (x.setStrand k t).pri = x.pri := by cases k <;> rfl
@[simp] theorem Seat.setStrand_yld (k : StrandK) (t : Strand) : (x.setStrand k t).yld = x.yld := by cases k <;> rfl
@[simp] theorem Seat.setStrand_image (k : StrandK) (t : Strand) : (x.setStrand k t).image = x.image := by cases k <;> rfl
@[simp] theorem Seat.setStrand_resume (k : StrandK) (t : Strand) : (x.setStrand k t).resume = x.resume := by cases k <;> rfl
@[simp] theorem Seat.setStrand_sliced (k : StrandK) (t : Strand) : (x.setStrand k t).sliced = x.sliced := by cases k <;> rfl
@[simp] theorem Seat.setStrand_held (k : StrandK) (t : Strand) : (x.setStrand k t).held = x.held := by cases k <;> rfl
@[simp] theorem Seat.setStrand_pend (k : StrandK) (t : Strand) : (x.setStrand k t).pend = x.pend := by cases k <;> rfl
@[simp] theorem Seat.setStrand_reports (k : StrandK) (t : Strand) : (x.setStrand k t).reports = x.reports := by cases k <;> rfl
@[simp] theorem Seat.setStrand_unw (k : StrandK) (t : Strand) : (x.setStrand k t).unw = x.unw := by cases k <;> rfl
@[simp] theorem Seat.setStrand_marked (k : StrandK) (t : Strand) : (x.setStrand k t).marked = x.marked := by cases k <;> rfl
@[simp] theorem Seat.setStrand_ending (k : StrandK) (t : Strand) : (x.setStrand k t).ending = x.ending := by cases k <;> rfl
@[simp] theorem Seat.setStrand_seq (k : StrandK) (t : Strand) : (x.setStrand k t).seq = x.seq := by cases k <;> rfl
@[simp] theorem Seat.setStrand_record (k : StrandK) (t : Strand) : (x.setStrand k t).record = x.record := by cases k <;> rfl
@[simp] theorem Seat.setStrand_engDefer (k : StrandK) (t : Strand) : (x.setStrand k t).engDefer = x.engDefer := by cases k <;> rfl
@[simp] theorem Seat.strand_setStrand (k : StrandK) (t : Strand) : (x.setStrand k t).strand k = t := by cases k <;> rfl
@[simp] theorem Seat.modStrand_occ (k : StrandK) (g : Strand → Strand) : (x.modStrand k g).occ = x.occ := by cases k <;> rfl
@[simp] theorem Seat.modStrand_home (k : StrandK) (g : Strand → Strand) : (x.modStrand k g).home = x.home := by cases k <;> rfl
@[simp] theorem Seat.modStrand_views (k : StrandK) (g : Strand → Strand) : (x.modStrand k g).views = x.views := by cases k <;> rfl
@[simp] theorem Seat.modStrand_scal (k : StrandK) (g : Strand → Strand) : (x.modStrand k g).scal = x.scal := by cases k <;> rfl
@[simp] theorem Seat.modStrand_scalFe (k : StrandK) (g : Strand → Strand) : (x.modStrand k g).scalFe = x.scalFe := by cases k <;> rfl
@[simp] theorem Seat.modStrand_pred (k : StrandK) (g : Strand → Strand) : (x.modStrand k g).pred = x.pred := by cases k <;> rfl
@[simp] theorem Seat.modStrand_ftz (k : StrandK) (g : Strand → Strand) : (x.modStrand k g).ftz = x.ftz := by cases k <;> rfl
@[simp] theorem Seat.modStrand_rsm (k : StrandK) (g : Strand → Strand) : (x.modStrand k g).rsm = x.rsm := by cases k <;> rfl
@[simp] theorem Seat.modStrand_hnd (k : StrandK) (g : Strand → Strand) : (x.modStrand k g).hnd = x.hnd := by cases k <;> rfl
@[simp] theorem Seat.modStrand_gang (k : StrandK) (g : Strand → Strand) : (x.modStrand k g).gang = x.gang := by cases k <;> rfl
@[simp] theorem Seat.modStrand_lead (k : StrandK) (g : Strand → Strand) : (x.modStrand k g).lead = x.lead := by cases k <;> rfl
@[simp] theorem Seat.modStrand_fstat (k : StrandK) (g : Strand → Strand) : (x.modStrand k g).fstat = x.fstat := by cases k <;> rfl
@[simp] theorem Seat.modStrand_amax (k : StrandK) (g : Strand → Strand) : (x.modStrand k g).amax = x.amax := by cases k <;> rfl
@[simp] theorem Seat.modStrand_epc (k : StrandK) (g : Strand → Strand) : (x.modStrand k g).epc = x.epc := by cases k <;> rfl
@[simp] theorem Seat.modStrand_ecause (k : StrandK) (g : Strand → Strand) : (x.modStrand k g).ecause = x.ecause := by cases k <;> rfl
@[simp] theorem Seat.modStrand_eval (k : StrandK) (g : Strand → Strand) : (x.modStrand k g).eval = x.eval := by cases k <;> rfl
@[simp] theorem Seat.modStrand_repSys (k : StrandK) (g : Strand → Strand) : (x.modStrand k g).repSys = x.repSys := by cases k <;> rfl
@[simp] theorem Seat.modStrand_basedom (k : StrandK) (g : Strand → Strand) : (x.modStrand k g).basedom = x.basedom := by cases k <;> rfl
@[simp] theorem Seat.modStrand_vdev (k : StrandK) (g : Strand → Strand) : (x.modStrand k g).vdev = x.vdev := by cases k <;> rfl
@[simp] theorem Seat.modStrand_curdom (k : StrandK) (g : Strand → Strand) : (x.modStrand k g).curdom = x.curdom := by cases k <;> rfl
@[simp] theorem Seat.modStrand_limit (k : StrandK) (g : Strand → Strand) : (x.modStrand k g).limit = x.limit := by cases k <;> rfl
@[simp] theorem Seat.modStrand_depth (k : StrandK) (g : Strand → Strand) : (x.modStrand k g).depth = x.depth := by cases k <;> rfl
@[simp] theorem Seat.modStrand_frames (k : StrandK) (g : Strand → Strand) : (x.modStrand k g).frames = x.frames := by cases k <;> rfl
@[simp] theorem Seat.modStrand_gstat (k : StrandK) (g : Strand → Strand) : (x.modStrand k g).gstat = x.gstat := by cases k <;> rfl
@[simp] theorem Seat.modStrand_lid (k : StrandK) (g : Strand → Strand) : (x.modStrand k g).lid = x.lid := by cases k <;> rfl
@[simp] theorem Seat.modStrand_queue (k : StrandK) (g : Strand → Strand) : (x.modStrand k g).queue = x.queue := by cases k <;> rfl
@[simp] theorem Seat.modStrand_cyc (k : StrandK) (g : Strand → Strand) : (x.modStrand k g).cyc = x.cyc := by cases k <;> rfl
@[simp] theorem Seat.modStrand_segb (k : StrandK) (g : Strand → Strand) : (x.modStrand k g).segb = x.segb := by cases k <;> rfl
@[simp] theorem Seat.modStrand_age (k : StrandK) (g : Strand → Strand) : (x.modStrand k g).age = x.age := by cases k <;> rfl
@[simp] theorem Seat.modStrand_pri (k : StrandK) (g : Strand → Strand) : (x.modStrand k g).pri = x.pri := by cases k <;> rfl
@[simp] theorem Seat.modStrand_yld (k : StrandK) (g : Strand → Strand) : (x.modStrand k g).yld = x.yld := by cases k <;> rfl
@[simp] theorem Seat.modStrand_image (k : StrandK) (g : Strand → Strand) : (x.modStrand k g).image = x.image := by cases k <;> rfl
@[simp] theorem Seat.modStrand_resume (k : StrandK) (g : Strand → Strand) : (x.modStrand k g).resume = x.resume := by cases k <;> rfl
@[simp] theorem Seat.modStrand_sliced (k : StrandK) (g : Strand → Strand) : (x.modStrand k g).sliced = x.sliced := by cases k <;> rfl
@[simp] theorem Seat.modStrand_held (k : StrandK) (g : Strand → Strand) : (x.modStrand k g).held = x.held := by cases k <;> rfl
@[simp] theorem Seat.modStrand_pend (k : StrandK) (g : Strand → Strand) : (x.modStrand k g).pend = x.pend := by cases k <;> rfl
@[simp] theorem Seat.modStrand_reports (k : StrandK) (g : Strand → Strand) : (x.modStrand k g).reports = x.reports := by cases k <;> rfl
@[simp] theorem Seat.modStrand_unw (k : StrandK) (g : Strand → Strand) : (x.modStrand k g).unw = x.unw := by cases k <;> rfl
@[simp] theorem Seat.modStrand_marked (k : StrandK) (g : Strand → Strand) : (x.modStrand k g).marked = x.marked := by cases k <;> rfl
@[simp] theorem Seat.modStrand_ending (k : StrandK) (g : Strand → Strand) : (x.modStrand k g).ending = x.ending := by cases k <;> rfl
@[simp] theorem Seat.modStrand_seq (k : StrandK) (g : Strand → Strand) : (x.modStrand k g).seq = x.seq := by cases k <;> rfl
@[simp] theorem Seat.modStrand_record (k : StrandK) (g : Strand → Strand) : (x.modStrand k g).record = x.record := by cases k <;> rfl
@[simp] theorem Seat.modStrand_engDefer (k : StrandK) (g : Strand → Strand) : (x.modStrand k g).engDefer = x.engDefer := by cases k <;> rfl
@[simp] theorem Seat.setP_occ (n : Nat) (b : Bool) : (x.setP n b).occ = x.occ := by unfold Seat.setP; split <;> rfl
@[simp] theorem Seat.setP_home (n : Nat) (b : Bool) : (x.setP n b).home = x.home := by unfold Seat.setP; split <;> rfl
@[simp] theorem Seat.setP_views (n : Nat) (b : Bool) : (x.setP n b).views = x.views := by unfold Seat.setP; split <;> rfl
@[simp] theorem Seat.setP_scal (n : Nat) (b : Bool) : (x.setP n b).scal = x.scal := by unfold Seat.setP; split <;> rfl
@[simp] theorem Seat.setP_scalFe (n : Nat) (b : Bool) : (x.setP n b).scalFe = x.scalFe := by unfold Seat.setP; split <;> rfl
@[simp] theorem Seat.setP_main (n : Nat) (b : Bool) : (x.setP n b).main = x.main := by unfold Seat.setP; split <;> rfl
@[simp] theorem Seat.setP_mat (n : Nat) (b : Bool) : (x.setP n b).mat = x.mat := by unfold Seat.setP; split <;> rfl
@[simp] theorem Seat.setP_cpy (n : Nat) (b : Bool) : (x.setP n b).cpy = x.cpy := by unfold Seat.setP; split <;> rfl
@[simp] theorem Seat.setP_ftz (n : Nat) (b : Bool) : (x.setP n b).ftz = x.ftz := by unfold Seat.setP; split <;> rfl
@[simp] theorem Seat.setP_rsm (n : Nat) (b : Bool) : (x.setP n b).rsm = x.rsm := by unfold Seat.setP; split <;> rfl
@[simp] theorem Seat.setP_hnd (n : Nat) (b : Bool) : (x.setP n b).hnd = x.hnd := by unfold Seat.setP; split <;> rfl
@[simp] theorem Seat.setP_gang (n : Nat) (b : Bool) : (x.setP n b).gang = x.gang := by unfold Seat.setP; split <;> rfl
@[simp] theorem Seat.setP_lead (n : Nat) (b : Bool) : (x.setP n b).lead = x.lead := by unfold Seat.setP; split <;> rfl
@[simp] theorem Seat.setP_fstat (n : Nat) (b : Bool) : (x.setP n b).fstat = x.fstat := by unfold Seat.setP; split <;> rfl
@[simp] theorem Seat.setP_amax (n : Nat) (b : Bool) : (x.setP n b).amax = x.amax := by unfold Seat.setP; split <;> rfl
@[simp] theorem Seat.setP_epc (n : Nat) (b : Bool) : (x.setP n b).epc = x.epc := by unfold Seat.setP; split <;> rfl
@[simp] theorem Seat.setP_ecause (n : Nat) (b : Bool) : (x.setP n b).ecause = x.ecause := by unfold Seat.setP; split <;> rfl
@[simp] theorem Seat.setP_eval (n : Nat) (b : Bool) : (x.setP n b).eval = x.eval := by unfold Seat.setP; split <;> rfl
@[simp] theorem Seat.setP_repSys (n : Nat) (b : Bool) : (x.setP n b).repSys = x.repSys := by unfold Seat.setP; split <;> rfl
@[simp] theorem Seat.setP_basedom (n : Nat) (b : Bool) : (x.setP n b).basedom = x.basedom := by unfold Seat.setP; split <;> rfl
@[simp] theorem Seat.setP_vdev (n : Nat) (b : Bool) : (x.setP n b).vdev = x.vdev := by unfold Seat.setP; split <;> rfl
@[simp] theorem Seat.setP_curdom (n : Nat) (b : Bool) : (x.setP n b).curdom = x.curdom := by unfold Seat.setP; split <;> rfl
@[simp] theorem Seat.setP_limit (n : Nat) (b : Bool) : (x.setP n b).limit = x.limit := by unfold Seat.setP; split <;> rfl
@[simp] theorem Seat.setP_depth (n : Nat) (b : Bool) : (x.setP n b).depth = x.depth := by unfold Seat.setP; split <;> rfl
@[simp] theorem Seat.setP_frames (n : Nat) (b : Bool) : (x.setP n b).frames = x.frames := by unfold Seat.setP; split <;> rfl
@[simp] theorem Seat.setP_gstat (n : Nat) (b : Bool) : (x.setP n b).gstat = x.gstat := by unfold Seat.setP; split <;> rfl
@[simp] theorem Seat.setP_lid (n : Nat) (b : Bool) : (x.setP n b).lid = x.lid := by unfold Seat.setP; split <;> rfl
@[simp] theorem Seat.setP_queue (n : Nat) (b : Bool) : (x.setP n b).queue = x.queue := by unfold Seat.setP; split <;> rfl
@[simp] theorem Seat.setP_cyc (n : Nat) (b : Bool) : (x.setP n b).cyc = x.cyc := by unfold Seat.setP; split <;> rfl
@[simp] theorem Seat.setP_segb (n : Nat) (b : Bool) : (x.setP n b).segb = x.segb := by unfold Seat.setP; split <;> rfl
@[simp] theorem Seat.setP_age (n : Nat) (b : Bool) : (x.setP n b).age = x.age := by unfold Seat.setP; split <;> rfl
@[simp] theorem Seat.setP_pri (n : Nat) (b : Bool) : (x.setP n b).pri = x.pri := by unfold Seat.setP; split <;> rfl
@[simp] theorem Seat.setP_yld (n : Nat) (b : Bool) : (x.setP n b).yld = x.yld := by unfold Seat.setP; split <;> rfl
@[simp] theorem Seat.setP_image (n : Nat) (b : Bool) : (x.setP n b).image = x.image := by unfold Seat.setP; split <;> rfl
@[simp] theorem Seat.setP_resume (n : Nat) (b : Bool) : (x.setP n b).resume = x.resume := by unfold Seat.setP; split <;> rfl
@[simp] theorem Seat.setP_sliced (n : Nat) (b : Bool) : (x.setP n b).sliced = x.sliced := by unfold Seat.setP; split <;> rfl
@[simp] theorem Seat.setP_held (n : Nat) (b : Bool) : (x.setP n b).held = x.held := by unfold Seat.setP; split <;> rfl
@[simp] theorem Seat.setP_pend (n : Nat) (b : Bool) : (x.setP n b).pend = x.pend := by unfold Seat.setP; split <;> rfl
@[simp] theorem Seat.setP_reports (n : Nat) (b : Bool) : (x.setP n b).reports = x.reports := by unfold Seat.setP; split <;> rfl
@[simp] theorem Seat.setP_unw (n : Nat) (b : Bool) : (x.setP n b).unw = x.unw := by unfold Seat.setP; split <;> rfl
@[simp] theorem Seat.setP_marked (n : Nat) (b : Bool) : (x.setP n b).marked = x.marked := by unfold Seat.setP; split <;> rfl
@[simp] theorem Seat.setP_ending (n : Nat) (b : Bool) : (x.setP n b).ending = x.ending := by unfold Seat.setP; split <;> rfl
@[simp] theorem Seat.setP_seq (n : Nat) (b : Bool) : (x.setP n b).seq = x.seq := by unfold Seat.setP; split <;> rfl
@[simp] theorem Seat.setP_record (n : Nat) (b : Bool) : (x.setP n b).record = x.record := by unfold Seat.setP; split <;> rfl
@[simp] theorem Seat.setP_engDefer (n : Nat) (b : Bool) : (x.setP n b).engDefer = x.engDefer := by unfold Seat.setP; split <;> rfl

end Sys2Proof.Machine
end

