-- ==== Sys2Proof/Laws/Ops.lean ====
section
/-! SUPPORT. One law for each shared operation: what it does where it completes, waits or traps. -/
namespace Sys2Proof.Machine

variable {α β : Type}

/-! ### Parts of the state -/

@[simp] theorem State.core_setCore_self (s : State) (c : Nat) (x : Core) : (s.setCore c x).core c = x := by
  simp [State.core, State.setCore]

theorem State.core_setCore_ne (s : State) {c c' : Nat} (h : c' ≠ c) (x : Core) : (s.setCore c x).core c' = s.core c' := by
  simp [State.core, State.setCore, mapGet_mapPut_ne _ h]

@[simp] theorem State.core_modCore_self (s : State) (c : Nat) (f : Core → Core) : (s.modCore c f).core c = f (s.core c) := by
  simp [State.modCore]

theorem State.core_modCore_ne (s : State) {c c' : Nat} (h : c' ≠ c) (f : Core → Core) :
    (s.modCore c f).core c' = s.core c' := by
  simp [State.modCore, State.core_setCore_ne _ h]

theorem Core.seat_modSeat_self (x : Core) {k : Nat} (h : k < 4) (f : Seat → Seat) : (x.modSeat k f).seat k = f (x.seat k) := by
  simp [Core.seat, Core.modSeat, h]

theorem Core.seat_modSeat_ne (x : Core) {k k' : Nat} (h : k' ≠ k) (f : Seat → Seat) : (x.modSeat k f).seat k' = x.seat k' := by
  simp [Core.seat, Core.modSeat, vget_vset_ne _ h]

theorem State.seat_modSeat_self (s : State) (c : Nat) {k : Nat} (h : k < 4) (f : Seat → Seat) :
    (s.modSeat c k f).seat c k = f (s.seat c k) := by
  simp [State.seat, State.modSeat, Core.seat_modSeat_self _ h]

theorem State.seat_modSeat_ne (s : State) {c c' k k' : Nat} (h : c' ≠ c ∨ k' ≠ k) (f : Seat → Seat) :
    (s.modSeat c k f).seat c' k' = s.seat c' k' := by
  by_cases hc : c' = c
  · subst hc
    have hk : k' ≠ k := by simpa using h
    simp [State.seat, State.modSeat, Core.seat_modSeat_ne _ hk]
  · simp [State.seat, State.modSeat, State.core_modCore_ne _ hc]

/-- The issuer's seat after a change of it. -/
theorem State.me_modMe (s : State) (h : s.cur.seat < 4) (f : Seat → Seat) : (s.modMe f).me = f s.me := by
  simp only [State.me, State.modMe_cur]
  exact State.seat_modSeat_self s _ h f

/-- Two changes of one seat are one change. -/
theorem Core.modSeat_modSeat (x : Core) (k : Nat) (f g : Seat → Seat) :
    (x.modSeat k f).modSeat k g = x.modSeat k (fun t => g (f t)) := by
  by_cases hk : k < 4
  · simp [Core.modSeat, Core.seat, hk]
  · have h : 4 ≤ k := by omega
    simp [Core.modSeat, vset_ge _ h]

theorem State.modCore_modCore (s : State) (c : Nat) (f g : Core → Core) :
    (s.modCore c f).modCore c g = s.modCore c (fun x => g (f x)) := by
  simp [State.modCore, State.setCore, State.core]

theorem State.modMe_modMe (s : State) (f g : Seat → Seat) : (s.modMe f).modMe g = s.modMe (fun x => g (f x)) := by
  simp [State.modMe, State.modSeat, State.modCore_modCore, Core.modSeat_modSeat]

/-- A change that keeps the full bits keeps what the issuer sees of them. -/
theorem State.full_modMe (s : State) (f : Seat → Seat) (hf : ∀ x, (f x).scalFe = x.scalFe) (n : Nat) :
    (s.modMe f).me.full n = s.me.full n := by
  by_cases hk : s.cur.seat < 4
  · rw [State.me_modMe s hk]; simp [Seat.full, hf]
  · have h : 4 ≤ s.cur.seat := by omega
    simp [State.me, State.seat, State.modMe, State.modSeat, Core.seat, Core.modSeat, vget_ge _ h]

@[simp] theorem State.vd_modVd_self (s : State) (v : Nat) (f : VDev → VDev) : (s.modVd v f).vd v = f (s.vd v) := by
  simp [State.vd, State.modVd]

theorem State.vd_modVd_ne (s : State) {v v' : Nat} (h : v' ≠ v) (f : VDev → VDev) : (s.modVd v f).vd v' = s.vd v' := by
  simp [State.vd, State.modVd, mapGet_mapPut_ne _ h]

@[simp] theorem VDev.queue_modQueue_self (v : VDev) (q : Nat) (f : Queue → Queue) :
    (v.modQueue q f).queue q = f (v.queue q) := by
  simp [VDev.queue, VDev.modQueue]

@[simp] theorem State.queue_modQueue_self (s : State) (v q : Nat) (f : Queue → Queue) :
    (s.modQueue v q f).queue v q = f (s.queue v q) := by
  simp [State.queue, State.modQueue]

@[simp] theorem State.stream_setStream_self (s : State) (i : Nat) (x : Stream) : (s.setStream i x).stream i = x := by
  simp [State.stream, State.setStream]

/-! ### Registers -/

theorem Seat.reg_setReg_self (x : Seat) {n : Nat} (h : n < 64) (v : Word) : (x.setReg n v).reg n = v := by
  simp [Seat.reg, Seat.setReg, h]

theorem Seat.reg_setReg_ne (x : Seat) {n m : Nat} (h : m ≠ n) (v : Word) : (x.setReg n v).reg m = x.reg m := by
  simp [Seat.reg, Seat.setReg, vget_vset_ne _ h]

theorem Seat.view_setView_self (x : Seat) {n : Nat} (h : n < 64) (v : View) : (x.setView n v).view n = v := by
  simp [Seat.view, Seat.setView, h]

theorem Seat.view_setView_ne (x : Seat) {n m : Nat} (h : m ≠ n) (v : View) : (x.setView n v).view m = x.view m := by
  simp [Seat.view, Seat.setView, vget_vset_ne _ h]

@[simp] theorem Seat.full_setReg (x : Seat) (n m : Nat) (v : Word) : (x.setReg n v).full m = x.full m := rfl

@[simp] theorem Seat.full_raiseFlags (x : Seat) (f : Flags) (m : Nat) : (x.raiseFlags f).full m = x.full m := rfl

/-- p0 reads 1 whatever has been written (R73). -/
@[simp] theorem Seat.p_zero (x : Seat) : x.p 0 = true := rfl

/-- A write to p0 is discarded (R73). -/
@[simp] theorem Seat.setP_zero (x : Seat) (b : Bool) : x.setP 0 b = x := rfl

/-! ### Computations -/

theorem M.bind_ok {m : M α} {f : α → M β} {s s1 : State} {a : α} (h : m s = .ok a s1) : (m >>= f) s = f a s1 := by
  show EStateM.bind m f s = _
  simp [EStateM.bind, h]

theorem M.bind_error {m : M α} {f : α → M β} {s s1 : State} {e : Stop} (h : m s = .error e s1) :
    (m >>= f) s = .error e s1 := by
  show EStateM.bind m f s = _
  simp [EStateM.bind, h]

@[simp] theorem M.pure_eq (a : α) (s : State) : (pure a : M α) s = .ok a s := rfl
@[simp] theorem M.throw_eq (e : Stop) (s : State) : (throw e : M α) s = .error e s := rfl
@[simp] theorem look_eq (f : State → α) (s : State) : look f s = .ok (f s) s := rfl
@[simp] theorem change_eq (f : State → State) (s : State) : change f s = .ok () (f s) := rfl
@[simp] theorem me_eq (s : State) : me s = .ok s.me s := rfl
@[simp] theorem modMe_eq (f : Seat → Seat) (s : State) : modMe f s = .ok () (s.modMe f) := rfl
@[simp] theorem flag_eq (f : Flags) (s : State) : flag f s = .ok () (s.modMe (fun x => x.raiseFlags f)) := rfl
@[simp] theorem writeP_eq (n : Nat) (b : Bool) (s : State) : writeP n b s = .ok () (s.modMe (fun x => x.setP n b)) := rfl
@[simp] theorem waitFor_true (s : State) : waitFor true s = .ok () s := rfl
@[simp] theorem waitFor_false (s : State) : waitFor false s = .error .wait s := rfl
@[simp] theorem need_true (o v : Nat) (s : State) : need true o v s = .ok () s := rfl
@[simp] theorem need_false (o v : Nat) (s : State) :
    need false o v s = .error (.trap { cause := .operand, opnd := o, val := BitVec.ofNat 64 v }) s := rfl
@[simp] theorem fullOr_full (fe : Bool) (o k n : Nat) (s : State) : fullOr true fe o k n s = .ok () s := rfl

/-- One step of a computation. -/
theorem M.bind_run (m : M α) (f : α → M β) (s : State) :
    (m >>= f) s = match m s with
      | .ok a s1 => f a s1
      | .error e s1 => .error e s1 := by
  show EStateM.bind m f s = _
  unfold EStateM.bind
  cases m s <;> rfl

@[simp] theorem M.map_run (f : α → β) (m : M α) (s : State) :
    (f <$> m) s = match m s with
      | .ok a s1 => .ok (f a) s1
      | .error e s1 => .error e s1 := by
  show EStateM.map f m s = _
  unfold EStateM.map
  cases m s <;> rfl

/-- A full scalar register reads its value. -/
theorem readScal_full {o n : Nat} {fe : Bool} {s : State} (hn : n < 64) (hf : s.me.full n = true) :
    readScal o n fe s = .ok (s.me.reg n) s := by
  have h : ¬ 64 ≤ n := by omega
  simp [readScal, h, M.bind_run, hf]

/-- A read of an empty register waits, or traps as EMPTY under the mode bit (R70, R72, R225). -/
theorem readScal_empty {o n : Nat} {fe : Bool} {s : State} (hn : n < 64) (hf : s.me.full n = false) :
    readScal o n fe s =
      .error (if fe then .trap { cause := .empty, opnd := o, val := BitVec.ofNat 64 (256 + n) } else .wait) s := by
  have h : ¬ 64 ≤ n := by omega
  cases fe <;> simp [readScal, h, M.bind_run, hf, fullOr, raise]

/-- A write of a full scalar register. -/
theorem writeScal_full {n : Nat} {v : Word} {s : State} (hn : n < 64) (hf : s.me.full n = true) :
    writeScal n v s = .ok () (s.modMe (fun x => x.setReg n v)) := by
  have h : ¬ 64 ≤ n := by omega
  simp [writeScal, h, M.bind_run, hf]

/-! ### How an instruction ends -/

theorem issue_ok {h : Head} {body : M Unit} {s s' : State} {u : Unit} (hg : guardOk h s.me = true)
    (hb : body s = .ok u s') : issue h body s = .next (s'.advance h) := by
  simp [issue, hg, hb]

theorem issue_skip {h : Head} {body : M Unit} {s : State} (hg : guardOk h s.me = false) :
    issue h body s = .next (s.advance h) := by
  simp [issue, hg]

theorem issue_stop {h : Head} {body : M Unit} {s s' : State} {e : Stop} (hg : guardOk h s.me = true)
    (hb : body s = .error e s') : issue h body s = .next (stopped s e s') := by
  simp [issue, hg, hb]

theorem jump_ok {h : Head} {body : M (Bool × Nat)} {s s' : State} {t : Bool} {i : Nat} (hg : guardOk h s.me = true)
    (hb : body s = .ok (t, i) s') : jump h body s = .next ((s'.goto t i).hints h) := by
  simp [jump, hg, hb]

theorem jump_skip {h : Head} {body : M (Bool × Nat)} {s : State} (hg : guardOk h s.me = false) :
    jump h body s = .next (s.advance h) := by
  simp [jump, hg]

theorem jump_stop {h : Head} {body : M (Bool × Nat)} {s s' : State} {e : Stop} (hg : guardOk h s.me = true)
    (hb : body s = .error e s') : jump h body s = .next (stopped s e s') := by
  simp [jump, hg, hb]

theorem leave_ok {h : Head} {body : M Unit} {s s' : State} {u : Unit} (hg : guardOk h s.me = true)
    (hb : body s = .ok u s') : leave h body s = .next s' := by
  simp [leave, hg, hb]

theorem leave_skip {h : Head} {body : M Unit} {s : State} (hg : guardOk h s.me = false) :
    leave h body s = .next (s.advance h) := by
  simp [leave, hg]

theorem leave_stop {h : Head} {body : M Unit} {s s' : State} {e : Stop} (hg : guardOk h s.me = true)
    (hb : body s = .error e s') : leave h body s = .next (stopped s e s') := by
  simp [leave, hg, hb]

/-- Every issued instruction answers a next state. -/
theorem issue_next (h : Head) (body : M Unit) (s : State) : ∃ t, issue h body s = .next t := by
  unfold issue
  split
  · split <;> exact ⟨_, rfl⟩
  · exact ⟨_, rfl⟩

end Sys2Proof.Machine
end

