-- ==== Sys2Proof/Tests/Slice0.lean ====
section
/-! SUPPORT. Small tests: ill-formed terms, words that the spec writes out, results of its worked examples, and a state that
meets the hypotheses of each statement for the provers. -/
namespace Sys2Proof.Tests
set_option maxRecDepth 100000
set_option Elab.async false
open Sys2Proof Sys2Proof.Machine Sys2Proof.Say

/-! ### Helpers -/

/-- Head of a line without guard or hints (R236). -/
def h0 : Head := { ginv := false, gpred := 0, endH := false, yld := false, pri := 1, dly := 0 }
/-- A scalar source. -/
def rs (n : Nat) : Src := .scal n ⟨false, false, false⟩ false
/-- A tile source. -/
def rt (n : Nat) : Src := .tile n ⟨false, false, false⟩ false
/-- A literal source. -/
def rl (v : Int) : Src := .lit (BitVec.ofInt 22 v)
/-- A thread on core 0, seat 0, at its first word. -/
def base : State :=
  { State.reset.modCore 0 (fun y => y.modSeat 0 Seat.atWord) with cur := { core := 0, seat := 0, strn := .main } }
/-- `base` with scalars. -/
def withRegs (l : List (Nat × Word)) : State := base.modMe (fun x => l.foldl (fun x e => x.setReg e.1 e.2) x)
/-- The seat after a step. -/
def seatAfter (o : Out) : Seat :=
  match o with
  | .next s => s.seat 0 0
  | _ => default
/-- A scalar after a step. -/
def regAfter (o : Out) (n : Nat) : Word := (seatAfter o).reg n
/-- A predicate after a step. -/
def predAfter (o : Out) (n : Nat) : Bool := (seatAfter o).p n
/-- The word of three storage words. -/
def word (w0 w1 w2 : Nat) : Nat := w0 + w1 * 2 ^ 32 + w2 * 2 ^ 64

/-! ### Ill-formed terms -/

theorem test_wf_guard_range : (Instr.nop { h0 with gpred := 8 }).wf = false := by decide
theorem test_wf_pri_range : (Instr.nop { h0 with pri := 4 }).wf = false := by decide
theorem test_wf_dly_range : (Instr.nop { h0 with dly := 16 }).wf = false := by decide
theorem test_wf_inverted_p0 : (Instr.nop { h0 with ginv := true }).wf = false := by decide
theorem test_wf_dest_range : (Instr.mov h0 .i32 64 (rs 0)).wf = false := by decide
theorem test_wf_src_range : (Instr.mov h0 .i32 0 (rs 64)).wf = false := by decide
theorem test_wf_src_kind : (Instr.mov h0 .i32 0 (rt 0)).wf = false := by decide
theorem test_wf_src_modifier : (Instr.mov h0 .i32 0 (.scal 0 ⟨true, false, false⟩ false)).wf = false := by decide
theorem test_wf_conj : (Instr.add h0 ⟨.i32, false⟩ 0 (.scal 0 ⟨false, false, true⟩ false) (rs 0)).wf = false := by decide
theorem test_wf_tile_range : (Instr.tmov h0 none 0 (rt 64)).wf = false := by decide
theorem test_wf_cbank_range : (Instr.mov h0 .i32 0 (.cbank 16 0 0)).wf = false := by decide
theorem test_wf_cbank_size : (Instr.mov h0 .i32 0 (.cbank 0 4 0)).wf = false := by decide
theorem test_wf_cbank_offset : (Instr.mov h0 .i32 0 (.cbank 0 0 65536)).wf = false := by decide
theorem test_wf_cbank_aligned : (Instr.mov h0 .i32 0 (.cbank 0 3 4)).wf = false := by decide
theorem test_wf_cbank_width : (Instr.fadd h0 ⟨.fp32, .rne⟩ 0 (.cbank 0 3 8) (rs 0)).wf = false := by decide
theorem test_wf_pred_range : (Instr.cmp h0 .i32 0 8 (rs 0) (rs 0)).wf = false := by decide
theorem test_wf_cond_range : (Instr.cmp h0 .i32 8 0 (rs 0) (rs 0)).wf = false := by decide
theorem test_wf_lim_range : (Instr.brx h0 16384 (rl 0) (rs 0)).wf = false := by decide
theorem test_wf_stride_range : (Instr.rep h0 4 0 0 (rl 1)).wf = false := by decide
theorem test_wf_pset_lut : (Instr.pset h0 0 0 16 0).wf = false := by decide
theorem test_wf_sel_pred : (Instr.sel h0 .i32 8 false 0 (rs 0) (rs 0)).wf = false := by decide
theorem test_wf_cvt_satc : (Instr.cvt h0 (.int .i32) .fp32 .rne true 0 (rs 0)).wf = false := by decide
theorem test_wf_tsel_view : (Instr.tsel h0 none 64 0 (rt 0) (rt 0)).wf = false := by decide
theorem test_wf_mma_sat : (Instr.mma h0 .fp32 true 0 (rt 0) (rt 0)).wf = false := by decide
theorem test_wf_mma_complex : (Instr.mma h0 .cf32 false 0 (rt 0) (rt 0)).wf = false := by decide
theorem test_wf_mmac_real : (Instr.mmac h0 .fp32 0 (rt 0) (rt 0)).wf = false := by decide
theorem test_wf_zone_range : (Instr.cpyLd h0 256 false false false 0 (rs 0)).wf = false := by decide
theorem test_wf_timeline_range : (Instr.tlwait h0 8 (rs 0)).wf = false := by decide
theorem test_wf_ld_size : (Instr.ld h0 5 false 0 (rs 0) (rl 0)).wf = false := by decide
theorem test_wf_ld_sign : (Instr.ld h0 3 true 0 (rs 0) (rl 0)).wf = false := by decide
theorem test_wf_atomic_dest : (Instr.aadd h0 .n64 (some 64) (rs 0) (rl 0)).wf = false := by decide
theorem test_wf_slot_range : (Instr.syfree h0 256).wf = false := by decide
theorem test_wf_place_slot_range : (Instr.tqacq h0 256 0 none).wf = false := by decide
theorem test_wf_phwait_both : (Instr.phwait h0 true 0 (some (rs 0)) none).wf = false := by decide
theorem test_wf_opt_src : (Instr.tqacq h0 0 0 (some (rt 0))).wf = false := by decide
theorem test_wf_send_length : (Instr.send h0 128 false (rs 0) (rs 0)).wf = false := by decide
theorem test_wf_gwin_rights : (Instr.gwin h0 false false 0 (rs 0) (rs 0)).wf = false := by decide
theorem test_wf_sysr_index : (Instr.sysr h0 .tab 0 (rl 0) none).wf = false := by decide
theorem test_wf_sysw_index : (Instr.sysw h0 .seat (some 0) (rl 0) (rs 0)).wf = false := by decide
theorem test_wf_wait_timeout : (Instr.wait h0 16384 0 (rl 0) (rl 0)).wf = false := by decide
theorem test_wf_gang_size : (Instr.follow h0 4 0 0 (rl 0)).wf = false := by decide
theorem test_wf_event : Instr.moduleColdReset.wf = false := by decide

/-! ### Words -/


/-! ### Words, from the fields that the spec's tables give each instruction (R214, R226 to R357) -/

/-- A table of words and instructions agrees with the decoder and, on a well-formed instruction, with the encoder. -/
def wordsOk (l : List (Nat × Instr)) : Bool :=
  l.all (fun (w, i) => decodeTableWord 96 w == some i && (encode i).toNat == w && i.wf)

theorem test_decode_control : wordsOk [
    (word 0x00000000 0x00000000 0x00405300, .nop { h0 with dly := 4 }),
    (word 0xF4000000 0x00037FFF 0x00804300, .bra h0 (rl (-6))),
    (word 0x12814000 0x00230000 0x00C04300, .brx h0 8 (rl 9) (rs 5)),
    (word 0xC8000000 0x00030000 0x0100411F, .call h0 31 (rl 100)),
    (word 0x00000000 0x00010F80 0x01404300, .ret h0 (rs 31)),
    (word 0xF4000000 0x00037FFF 0x01804106, .loop h0 6 (rl (-6))),
    (word 0x08000000 0x6C030000 0x01C04300, .rep h0 1 2 3 (rl 4)),
    (word 0x00000000 0x00000000 0x02024300, .exit { h0 with endH := true }),
    (word 0x00824000 0x80000180 0x02404300, .waitf h0 (rt 3) (some (rs 9))),
    (word 0x00000000 0x80000180 0x02404300, .waitf h0 (rt 3) (some (rt 0))),
    (word 0x00000000 0x00000180 0x02404300, .waitf h0 (rt 3) none)] = true := by decide

theorem test_decode_integer : wordsOk [
    (word 0x00000000 0x40010280 0x10004104, .mov h0 .i32 4 (rs 5)),
    (word 0xAB800155 0x00032AAA 0x10404104, .ldil h0 4 0x55555555#32),
    (word 0xAB8000FF 0x00032AAA 0x10804104, .ldih h0 4 0x3FD55555#32),
    (word 0x01800204 0x50010280 0x10C04104, .add h0 ⟨.i32, true⟩ 4 (rs 5) (rl 0x204)),
    (word 0x01800204 0xA0010280 0x11004104, .sub h0 ⟨.n16, false⟩ 4 (rs 5) (rl 0x204)),
    (word 0x01800204 0x60010280 0x11404104, .mul h0 ⟨.i64, false⟩ 4 (rs 5) (rl 0x204)),
    (word 0x01800204 0xE0010280 0x11804104, .mulh h0 .n64 4 (rs 5) (rl 0x204)),
    (word 0x01800204 0x40010280 0x11C04104, .mad h0 ⟨.i32, false⟩ 4 (rs 5) (rl 0x204)),
    (word 0x01800204 0x10010280 0x12004104, .div h0 ⟨.i8, true⟩ 4 (rs 5) (rl 0x204)),
    (word 0x01800204 0x20010280 0x12404104, .rem h0 .i16 4 (rs 5) (rl 0x204)),
    (word 0x01800204 0xC0010280 0x13004104, .min h0 .n32 4 (rs 5) (rl 0x204)),
    (word 0x01800204 0x80010280 0x13404104, .max h0 .n8 4 (rs 5) (rl 0x204)),
    (word 0x01800204 0x60010280 0x13804104, .and h0 .i64 4 (rs 5) (rl 0x204)),
    (word 0x01800204 0x80010280 0x13C04104, .or h0 .n8 4 (rs 5) (rl 0x204)),
    (word 0x01800204 0xA0010280 0x14004104, .xor h0 .n16 4 (rs 5) (rl 0x204)),
    (word 0x01800204 0xC0010280 0x14404104, .andn h0 .n32 4 (rs 5) (rl 0x204)),
    (word 0x01800204 0x00010280 0x14804104, .shl h0 .i8 4 (rs 5) (rl 0x204)),
    (word 0x01800204 0x20010280 0x14C04104, .shr h0 .i16 4 (rs 5) (rl 0x204)),
    (word 0x01800204 0x20010280 0x15004104, .sar h0 .i16 4 (rs 5) (rl 0x204)),
    (word 0x01800204 0x80010280 0x15404104, .rol h0 .n8 4 (rs 5) (rl 0x204)),
    (word 0x01800204 0xE0010280 0x15804104, .bext h0 .n64 4 (rs 5) (rl 0x204)),
    (word 0x01800204 0x60010280 0x15C04104, .bins h0 .i64 4 (rs 5) (rl 0x204)),
    (word 0x00000000 0x30010280 0x12804104, .neg h0 ⟨.i16, true⟩ 4 (rs 5)),
    (word 0x00000000 0x60010280 0x12C04104, .abs h0 ⟨.i64, false⟩ 4 (rs 5)),
    (word 0x00000000 0xC0010280 0x16004104, .clz h0 .n32 4 (rs 5)),
    (word 0x00000000 0x20010280 0x16404104, .ctz h0 .i16 4 (rs 5)),
    (word 0x00000000 0x80010280 0x16804104, .popc h0 .n8 4 (rs 5)),
    (word 0x00818000 0x67010280 0x16C04104, .sel h0 .i64 3 true 4 (rs 5) (rs 6)),
    (word 0x00850000 0x00030000 0x1700410A, .gaddr h0 10 (rl 0) (rs 20))] = true := by decide

theorem test_decode_float : wordsOk [
    (word 0x00818000 0x09010280 0x20004104, .fadd h0 ⟨.fp32, .rtz⟩ 4 (rs 5) (rs 6)),
    (word 0x00818000 0x130102A0 0x20404104, .fmul h0 ⟨.bf16, .rdn⟩ 4 (.scal 5 ⟨false, true, false⟩ false) (rs 6)),
    (word 0x0081A000 0x04010280 0x20804104, .ffma h0 ⟨.fp64, .rne⟩ 4 (rs 5) (.scal 6 ⟨true, false, false⟩ false)),
    (word 0x00818000 0x04010280 0x20C04104, .fmin h0 .fp64 4 (rs 5) (rs 6)),
    (word 0x01050006 0x0C010280 0x21004104, .fmax h0 .fp16 4 (rs 5) (.cbank 1 1 6)),
    (word 0x00818000 0x04210280 0x21404202, .fcmp h0 .fp64 2 2 (rs 5) (rs 6)),
    (word 0x00000000 0x50510280 0x21804104, .cvt h0 (.int .i32) .fp32 .rtz false 4 (rs 5)),
    (word 0x01BFFFFF 0x84010280 0x30004203, .cmp h0 .n8 2 3 (rs 5) (rl (-1))),
    (word 0x00000000 0x29000000 0x30404203, .pset h0 1 2 4 3)] = true := by decide

theorem test_decode_view : wordsOk [
    (word 0x00000000 0x00010200 0x40004005, .tview h0 5 (rs 4)),
    (word 0x0081C000 0x00410300 0x40404005, .tvalid h0 true 5 (rs 6) (rs 7)),
    (word 0x01800001 0x00000280 0x40804104, .tget h0 4 (rt 5) (rl 1)),
    (word 0x00000000 0x00000080 0x40C04002, .tmov h0 none 2 (rt 1)),
    (word 0x00000000 0x080303FC 0x41004002, .tfill h0 (some .fp32) 2 (rl 0x1FE00)),
    (word 0x01800001 0x74430000 0x41404002, .tiota h0 ⟨some .nat32, .rne, false⟩ .col 2 (rl 0) (rl 1)),
    (word 0x00000000 0x38000080 0x41804002, .tcopy h0 (some .mxfp4) 2 (rt 1)),
    (word 0x00000000 0x00010200 0x41C04005, .tldr h0 5 (rs 4))] = true := by decide

theorem test_decode_tile : wordsOk [
    (word 0x0001C000 0x08000300 0x50004005, .tadd h0 ⟨some .fp32, .rne, false⟩ 5 (rt 6) (rt 7)),
    (word 0x01800001 0x6C800300 0x50404005, .tsub h0 ⟨some .int16, .rne, true⟩ 5 (rt 6) (rl 1)),
    (word 0x00810000 0x12000300 0x50804005, .tmul h0 ⟨some .bf16, .rup, false⟩ 5 (rt 6) (rs 4)),
    (word 0x0002A000 0x09000480 0x50C44408, .tfma { h0 with gpred := 1, dly := 1 } ⟨some .fp32, .rtz, false⟩ 8 (rt 9) (.tile 10 ⟨true, false, false⟩ false)),
    (word 0x0001C000 0x07000300 0x51004005, .tdiv h0 (some .fp64) .rdn 5 (rt 6) (rt 7)),
    (word 0x01800000 0x00000300 0x51404005, .tmin h0 none 5 (rt 6) (rl 0)),
    (word 0x01800000 0x0C000300 0x51804005, .tmax h0 (some .fp16) 5 (rt 6) (rl 0)),
    (word 0x00000000 0x70800300 0x51C04005, .tabs h0 (some .int32) true 5 (rt 6)),
    (word 0x00000000 0x84000300 0x52004005, .tneg h0 (some .cf64) false 5 (rt 6)),
    (word 0x018000FF 0x74000300 0x52404005, .tand h0 (some .nat32) 5 (rt 6) (rl 255)),
    (word 0x0001C000 0x00000300 0x52804005, .tor h0 none 5 (rt 6) (rt 7)),
    (word 0x0001C000 0x00000300 0x52C04005, .txor h0 none 5 (rt 6) (rt 7)),
    (word 0x01800003 0x00000300 0x53004005, .tshl h0 none 5 (rt 6) (rl 3)),
    (word 0x01800003 0x6C000300 0x53404005, .tshr h0 (some .int16) 5 (rt 6) (rl 3)),
    (word 0x0001C000 0x00500300 0x53804005, .tcmp h0 none 5 5 (rt 6) (rt 7)),
    (word 0x01800000 0x00300300 0x53C04005, .tsel h0 none 12 5 (rt 6) (rl 0)),
    (word 0x0001C800 0x81000300 0x54004005, .tcmul h0 (some .cf32) .rtz 5 (rt 6) (.tile 7 ⟨false, false, true⟩ false)),
    (word 0x0001C000 0x84000340 0x54404005, .tcfma h0 (some .cf64) .rne 5 (.tile 6 ⟨true, false, false⟩ false) (rt 7)),
    (word 0x00000000 0x09300300 0x54804005, .tred h0 ⟨some .fp32, .rtz, false⟩ .min .all 5 (rt 6)),
    (word 0x00000000 0x00400080 0x54C04002, .tbcast h0 none true 2 (rt 1)),
    (word 0x00000000 0x00000080 0x55004002, .ttrans h0 none 2 (rt 1)),
    (word 0x0000C000 0x00400080 0x55404002, .tgather h0 none true 2 (rt 1) (rt 3))] = true := by decide

theorem test_decode_special : wordsOk [
    (word 0x00000000 0x00000180 0x60004004, .texp2 h0 none 4 (rt 3)),
    (word 0x00000000 0x00000180 0x60404004, .tlog2 h0 none 4 (rt 3)),
    (word 0x00000000 0x02000180 0x60804004, .trcp h0 none .rup 4 (rt 3)),
    (word 0x00000000 0x00000180 0x60C04004, .trsq h0 none 4 (rt 3)),
    (word 0x00000000 0x09000180 0x61004004, .tsqrt h0 (some .fp32) .rtz 4 (rt 3)),
    (word 0x00000000 0x00000180 0x61404004, .tsin h0 none 4 (rt 3)),
    (word 0x00000000 0x00000180 0x61804004, .tcos h0 none 4 (rt 3)),
    (word 0x01800001 0x14A00180 0x61C04004, .tconv h0 ⟨some .e4m3, .rne, true⟩ .h16 4 (rt 3) (some (rl 1))),
    (word 0x00824000 0x03000180 0x62004004, .tscale h0 none .rdn 4 (rt 3) (rs 9)),
    (word 0x00000000 0x00000700 0x62404014, .tsplit h0 none 20 (rt 14))] = true := by decide

theorem test_decode_matrix : wordsOk [
    (word 0x00040000 0x00000780 0x7000411E, .mma h0 .fp32 false 30 (rt 15) (rt 16)),
    (word 0x00004000 0xA0000000 0x70004104, .mma h0 .i32 true 4 (rt 0) (rt 1)),
    (word 0x0007C000 0x40000F40 0x70404128, .mmac h0 .cf64 40 (.tile 30 ⟨true, false, false⟩ false) (rt 31)),
    (word 0x01800100 0x40030001 0x70804104, .mzero h0 .fp64 4 (rl 128) (rl 256)),
    (word 0x00000000 0x60000180 0x70C04104, .mload h0 .cf64 4 (rt 3)),
    (word 0x01800001 0x1E010200 0x71004006, .mdrain h0 .fp32 .rdn true true 6 (rs 4) (some (rl 1))),
    (word 0x00000000 0x416D0A00 0x71404006, .mdrainc h0 .fp64 5 true false true true 6 (rs 20) none),
    (word 0x00004000 0x00000000 0x71804104, .mgang h0 .fp32 false 4 (rt 0) (rt 1))] = true := by decide

theorem test_decode_copy : wordsOk [
    (word 0x00000000 0x03310A00 0x80004004, .cpyLd h0 3 true true false 4 (rs 20)),
    (word 0x00000000 0x03610A00 0x80004004, .cpySt h0 3 true false 4 (rs 20)),
    (word 0x00024000 0x03110A00 0x80404004, .cpyg h0 3 true 4 (rs 20) (rt 9)),
    (word 0x00024000 0xFF010A00 0x80804004, .cpys h0 255 false 4 (rs 20) (rt 9)),
    (word 0x00000000 0x05210A00 0x80C04006, .cpyadd h0 5 true false 6 (rs 20)),
    (word 0x00000000 0x00010300 0x81004300, .cpyx h0 (rs 6)),
    (word 0x00000000 0x00010480 0x84004200, .tlwait h0 0 (rs 9)),
    (word 0x01800001 0x00030000 0x84404104, .tlget h0 4 (rl 0) (rl 1)),
    (word 0x02000000 0x00030000 0x84804206, .tladv h0 6 (rl 1))] = true := by decide

theorem test_decode_memory : wordsOk [
    (word 0x01BFFFFE 0x30010200 0x90004105, .ld h0 1 true 5 (rs 4) (rl (-2))),
    (word 0x01800000 0x00010200 0x90004003, .ldTile h0 3 (rs 4) (rl 0)),
    (word 0x01800018 0x80010000 0x9040411A, .st h0 4 26 (rs 0) (rl 0x18)),
    (word 0x01800000 0x00010200 0x90404003, .stTile h0 3 (rs 4) (rl 0)),
    (word 0x01801000 0x60010000 0x90804109, .lda h0 3 false 9 (rs 0) (rl 0x1000)),
    (word 0x01800000 0x60010200 0x90C04107, .stl h0 3 7 (rs 4) (rl 0)),
    (word 0x01801000 0x00010200 0x91004300, .pref h0 (rs 4) (rl 0x1000))] = true := by decide

theorem test_decode_atomic : wordsOk [
    (word 0x01800001 0xE0010200 0xA0004106, .aadd h0 .n64 (some 6) (rs 4) (rl 1)),
    (word 0x0081C000 0xE0010200 0xA0404300, .amin h0 .n64 none (rs 4) (rs 7)),
    (word 0x0081C000 0x40010200 0xA0804300, .amax h0 .i32 none (rs 4) (rs 7)),
    (word 0x0081C000 0xC0010200 0xA0C04300, .aand h0 .n32 none (rs 4) (rs 7)),
    (word 0x0081C000 0xC0010200 0xA1004300, .aor h0 .n32 none (rs 4) (rs 7)),
    (word 0x0081C000 0x60010200 0xA1404300, .axor h0 .i64 none (rs 4) (rs 7)),
    (word 0x0081C000 0xE0010200 0xA1804300, .axchg h0 .n64 none (rs 4) (rs 7)),
    (word 0x0081C000 0xC0010200 0xA2004300, .aincw h0 .n32 none (rs 4) (rs 7)),
    (word 0x00830000 0xE0010200 0xA1C04106, .acas h0 .n64 (some 6) (rs 4) (rs 12)),
    (word 0x0081C000 0x09010200 0xA2404106, .afadd h0 ⟨.fp32, .rtz⟩ (some 6) (rs 4) (rs 7)),
    (word 0x00000000 0x68000000 0xA8004300, .fence h0 .dev .rel),
    (word 0x00000000 0x00000000 0xA8404300, .codefLoc h0),
    (word 0x01800040 0x60010200 0xA8404300, .codefDev h0 (rs 4) (rl 64))] = true := by decide

theorem test_decode_sync : wordsOk [
    (word 0x10000000 0x90030000 0xB0004205, .synew h0 .tq 2 5 (rl 8)),
    (word 0x00000000 0x00000000 0xB0404205, .syfree h0 5),
    (word 0x05800082 0x00030000 0xB0804203, .phreg h0 3 (rl 2) (some (rl 130))),
    (word 0x02000000 0x00030000 0xB0C04203, .phdrop h0 3 (rl 1) none),
    (word 0x00000000 0x00000000 0xB1004203, .phsig h0 3 none),
    (word 0x00000000 0x00010400 0xB1404203, .phwait h0 false 3 (some (rs 8)) none),
    (word 0x00000000 0x80000000 0xB1404203, .phwait h0 true 3 none none),
    (word 0x00000000 0x00000000 0xB1804203, .phnext h0 3 none),
    (word 0x00000000 0x05000000 0xB2004104, .tqacq h0 5 4 none),
    (word 0x00000000 0x00010200 0xB2404205, .tqpost h0 5 (rs 4) none),
    (word 0x01800082 0x05000000 0xB2804104, .tqtake h0 5 4 (some (rl 130))),
    (word 0x00000000 0x00010200 0xB2C042FF, .tqrel h0 255 (rs 4) none),
    (word 0x00000000 0x00000000 0xB4004300, .sstep h0),
    (word 0x01800082 0x00000000 0xB4404203, .join h0 3 (some (rl 130))),
    (word 0x00000000 0x00000000 0xB4804203, .leave h0 3 none)] = true := by decide

theorem test_decode_task : wordsOk [
    (word 0x0E820000 0x00030000 0xC0004300, .fork h0 (rl 7) (rs 8)),
    (word 0x0E830000 0x00030000 0xC0404300, .rfork h0 (rl 7) (rs 12)),
    (word 0x00000000 0x00000000 0xC0804201, .task h0 1),
    (word 0x00000000 0xB0000000 0xC0804114, .taskEv h0 3 20),
    (word 0x0080C000 0x00000000 0xC0C04207, .tdone h0 7 (some (rs 3))),
    (word 0x50000000 0x90030000 0xC1004300, .efork h0 true 1 (rl 40)),
    (word 0x00000000 0x00000000 0xC1404300, .rdv h0),
    (word 0x01800003 0x00010200 0xC180410A, .launch h0 (some 10) (rs 4) (rl 3)),
    (word 0x00820000 0x31010200 0xC1C04300, .send h0 24 true (rs 4) (rs 8)),
    (word 0x00000000 0x00000000 0xC2004114, .recv h0 20)] = true := by decide

theorem test_decode_gate : wordsOk [
    (word 0x00000000 0x00030080 0xD000410A, .gpost h0 10 (rl 0x4000)),
    (word 0x00000000 0x20010500 0xD0404300, .gretract h0 2 (rs 10)),
    (word 0x01800040 0xC0010A00 0xD080410E, .gwin h0 true true 14 (rs 20) (rl 64)),
    (word 0x01800040 0x40010A00 0xD080410E, .gwin h0 true false 14 (rs 20) (rl 64)),
    (word 0x00838000 0x00010600 0xD0C04300, .gcall h0 (rs 12) (some (rs 14))),
    (word 0x00000000 0x00000000 0xD1004300, .gret h0),
    (word 0x00000000 0x00030000 0xD1404114, .ginfo h0 20 (rl 0)),
    (word 0x00000000 0x00000000 0xD1824300, .gclean { h0 with endH := true }),
    (word 0x00000000 0x00010300 0xD1C04300, .drevoke h0 (rs 6)),
    (word 0x00000000 0x80010280 0xD1C04300, .drevokeKill h0 (rs 5))] = true := by decide

theorem test_decode_escapement : wordsOk [
    (word 0x00820000 0x00010180 0xE0004300, .esub h0 (rs 3) (rs 8)),
    (word 0x00000000 0x90010200 0xE0004103, .esubOpen h0 1 3 (rs 4)),
    (word 0x00000000 0x00010180 0xE0404300, .ecloseCut h0 (rs 3)),
    (word 0x00000000 0x80010180 0xE0404300, .ecloseEnd h0 (rs 3)),
    (word 0x00830000 0x00010100 0xE0804114, .enext h0 20 (rs 2) (rs 12)),
    (word 0x00834000 0x80010100 0xE0804300, .enextDone h0 (rs 2) (rs 13)),
    (word 0x00000000 0x00010180 0xE0C04104, .estat h0 4 (rs 3))] = true := by decide

theorem test_decode_system : wordsOk [
    (word 0x0A000000 0x00030000 0xE4004104, .sysr h0 .seat 4 (rl 5) none),
    (word 0x02824000 0x80030000 0xE4004104, .sysr h0 .tab 4 (rl 1) (some (rs 9))),
    (word 0x04810000 0x40030000 0xE4404300, .sysw h0 .core none (rl 2) (rs 4)),
    (word 0x04810000 0x80030000 0xE4404109, .sysw h0 .tab (some 9) (rl 2) (rs 4)),
    (word 0x0E000000 0x00030000 0xE4804300, .trap h0 (rl 7)),
    (word 0x00000000 0x00000000 0xE4C04300, .eret h0),
    (word 0x80814000 0x00430004 0xE5004202, .wait h0 16 2 (rl 0x240) (rs 5)),
    (word 0x0081C000 0x40000000 0xE5404104, .tlbinv h0 .dom 4 none (some (rs 7))),
    (word 0x00000000 0x00010A00 0xE5804300, .hinst h0 (rs 20)),
    (word 0x00000000 0x00030000 0xE5C04201, .chkp h0 1 (rl 0)),
    (word 0x00000000 0x00000000 0xE6004300, .chkx h0),
    (word 0x00000000 0xE0010300 0xE6404201, .follow h0 3 2 1 (rs 6)),
    (word 0x00000000 0x00000000 0xE6804300, .unfollow h0),
    (word 0x00000000 0x00030000 0xE6C04104, .capr h0 4 (rl 0)),
    (word 0x00000000 0x18010300 0xE7004300, .sigcorePre h0 3 (rs 6)),
    (word 0x00820000 0x58010300 0xE7004300, .sigcoreSpawn h0 3 (rs 6) (rs 8)),
    (word 0x00820000 0x80010300 0xE7004300, .sigcoreRes h0 0 (rs 6) (rs 8))] = true := by decide

/-! ### Words that are no instruction (R233) -/

theorem test_refuse_reserved : decode (iword 0x01BFFFFD#32 0x40010280#32 0x10E14104#32) = .illegal ∧ decode 0 = .illegal ∧
    decode (iword 0#32 0x00010280#32 0x29404104#32) = .illegal := by decide
theorem test_refuse_operand : decode (iword 0x01BFFFFD#32 0x40010280#32 0x10C94004#32) = .operand .d ∧
    decode (iword 0#32 0x40010280#32 0x10004146#32) = .operand .d ∧
    decode (iword 0#32 0x40010280#32 0x10404104#32) ≠ .ok default := by decide
theorem test_strand_subset : strandOk .copy 0x140 = false ∧ strandOk .copy 0x200 = true ∧ strandOk .matrix 0x1C0 = true ∧
    strandOk .matrix 0x200 = false := by decide

/-! ### Scalar results (the worked cases of R257 and R258) -/

theorem test_add_wraps :
    regAfter (exec (.add h0 ⟨.n8, false⟩ 4 (rs 5) (rs 6)) (withRegs [(5, 200), (6, 100)])) 4 = 0x2C := by decide
theorem test_add_saturates :
    let x := seatAfter (exec (.add h0 ⟨.n8, true⟩ 4 (rs 5) (rs 6)) (withRegs [(5, 200), (6, 100)]))
    x.reg 4 = 0xFF ∧ x.fstat = fSAT := by decide
theorem test_sub_saturates :
    regAfter (exec (.sub h0 ⟨.i32, true⟩ 4 (rs 5) (rl 1)) (withRegs [(5, 0x80000000)])) 4 = 0xFFFFFFFF80000000 := by decide
theorem test_mulh : regAfter (exec (.mulh h0 .n64 4 (rs 5) (rl 4)) (withRegs [(5, 0x8000000000000000)])) 4 = 2 := by decide
theorem test_div_rounds_to_zero :
    regAfter (exec (.div h0 ⟨.i32, false⟩ 4 (rl (-7)) (rl 2)) base) 4 = BitVec.ofInt 64 (-3) := by decide
theorem test_rem_sign : regAfter (exec (.rem h0 .i32 4 (rl (-7)) (rl 2)) base) 4 = BitVec.ofInt 64 (-1) := by decide
theorem test_div_by_zero :
    let x := seatAfter (exec (.div h0 ⟨.i32, false⟩ 4 (rl 5) (rl 0)) base)
    x.reg 4 = 0x7FFFFFFF ∧ x.fstat = fDZ := by decide
theorem test_sar_beyond_width :
    regAfter (exec (.sar h0 .i16 4 (rs 5) (rl 20)) (withRegs [(5, 0x8000)])) 4 = BitVec.allOnes 64 := by decide
theorem test_rol : regAfter (exec (.rol h0 .n8 4 (rl 0x81) (rl 9)) base) 4 = 0x03 := by decide
theorem test_bext_unsigned :
    regAfter (exec (.bext h0 .n64 4 (rs 5) (rl 0x204)) (withRegs [(5, 0xABCD)])) 4 = 0xBC := by decide
theorem test_bext_signed :
    regAfter (exec (.bext h0 .i64 4 (rs 5) (rl 0x204)) (withRegs [(5, 0xABCD)])) 4 = BitVec.ofInt 64 (-68) := by decide
theorem test_clz : regAfter (exec (.clz h0 .n32 4 (rl 1)) base) 4 = 31 := by decide
theorem test_ctz_of_zero : regAfter (exec (.ctz h0 .i16 4 (rl 0)) base) 4 = 16 := by decide
theorem test_popc : regAfter (exec (.popc h0 .n8 4 (rl 0x1FF)) base) 4 = 8 := by decide
theorem test_ldil_ldih :
    regAfter (exec (.ldil h0 4 0x55555555#32) base) 4 = 0x55555555 ∧
    regAfter (exec (.ldih h0 4 0x3FD55555#32) (withRegs [(4, 0x55555555)])) 4 = 0x3FD5555555555555 := by decide
theorem test_cmp_unsigned_literal :
    predAfter (exec (.cmp h0 .n8 2 3 (rs 5) (rl (-1))) (withRegs [(5, 254)])) 3 = true := by decide
theorem test_pset_table : predAfter (exec (.pset h0 0 2 4 3) base) 3 = true := by decide
theorem test_p0_write_discarded : predAfter (exec (.cmp h0 .n8 1 0 (rl 1) (rl 1)) base) 0 = true := by decide

/-! ### Control (R249) -/

theorem test_loop_closes :
    let x := seatAfter (exec (.loop h0 6 (rl (-6))) (withRegs [(6, 2)]))
    x.reg 6 = 1 ∧ x.main.pc.idx = 2 ^ 32 - 5 := by decide
theorem test_loop_zero : (seatAfter (exec (.loop h0 6 (rl (-6))) base)).main.pc.idx = 1 := by decide
theorem test_brx_falls_through : (seatAfter (exec (.brx h0 8 (rl 9) (rl 8)) base)).main.pc.idx = 1 := by decide
theorem test_brx_jumps : (seatAfter (exec (.brx h0 8 (rl 9) (rl 7)) base)).main.pc.idx = 17 := by decide

/-! ### Floats (R47, R260 to R262) -/

theorem test_fadd_fp32 : regAfter (exec (.fadd h0 ⟨.fp32, .rne⟩ 4 (rs 5) (rs 6))
    (withRegs [(5, 0x3F800000), (6, 0x40000000)])) 4 = 0x40400000 := by decide
theorem test_ffma_one_rounding : regAfter (exec (.ffma h0 ⟨.fp16, .rup⟩ 4 (rs 5) (rs 6))
    (withRegs [(4, 0xBC00), (5, 0x3C01), (6, 0x3C01)])) 4 = 0x1801 := by decide
theorem test_cvt_to_int : regAfter (exec (.cvt h0 (.int .i32) .fp32 .rtz false 4 (rs 5))
    (withRegs [(5, 0xC0200000)])) 4 = BitVec.ofInt 64 (-2) := by decide
theorem test_empty_dest_waits :
    let s := base.modMe (fun x => x.setFull 4 false)
    (match exec (.mov h0 .i64 4 (rl 1)) s with | .next t => t == s | _ => false) = true := by decide

/-! ### States that meet the hypotheses of the statements -/

/-- `base` with words in its code, and what fetching them needs. -/
def prog (ws : List Nat) : State :=
  let s := placeWord State.reset (ws.flatMap (fun w => leBytes w 12))
  { s.modCore 0 (fun y => y.modSeat 0 (fun x => { x with segb := ws.length })) with cur := { core := 0, seat := 0, strn := .main } }
/-- The worked word of ADD (R226). -/
def addWord : Nat := word 0x01BFFFFD 0x40010200 0x10C04104

theorem test_meets_FalseGuard :
    let i : Instr := .nop { h0 with gpred := 1 }
    i.isEvent = false ∧ guardOk (headOf i) base.me = false := by decide
theorem test_meets_FalseGuard_rep :
    let s := prog [0, addWord]
    let i : Instr := .rep { h0 with gpred := 1 } 1 1 0 (rl 2)
    i.isEvent = false ∧ guardOk (headOf i) s.me = false ∧ s.repCheck s.cur (encode i) 1 1 0 = none := by decide
theorem test_meets_Branches :
    Runs h0 base ∧ Goto (rl (-6)) base (2 ^ 32 - 5) base ∧ readN64 3 (rs 5) base = .ok 0 base ∧ Dest 63 base ∧
      base.me.reg 6 = 0 ∧ (withRegs [(6, 2)]).me.reg 6 ≠ 0 ∧ Goto (rs 6) (withRegs [(6, 2)]) 2 (withRegs [(6, 2)]) :=
  ⟨by decide, ⟨rfl, by decide⟩, rfl, by decide, by decide, by decide, 2, rfl, rfl⟩
theorem test_meets_Rep :
    let s := prog [0, addWord]
    Runs h0 s ∧ s.repCheck s.cur (encode (.rep h0 1 1 0 (rl 64))) 1 1 0 = none ∧ readN64 2 (rl 64) s = .ok 64 s ∧
      s.me.hnd = false := ⟨by decide, by decide, rfl, by decide⟩
theorem test_meets_Exit_main :
    base.cur.strn = .main ∧ base.me.hnd = false ∧ base.me.depth = 0 ∧ base.me.gang = false ∧ base.me.lead = false ∧
      base.stopOf [0, 1, 2, 3, 4] = none ∧ base.me.mat.live = false ∧ base.me.cpy.live = false ∧
      (∀ c ∈ base.myCore.ctxs.toList, ∀ o ∈ c.ops, o.seat ≠ base.cur.seat) ∧
      (∀ o ∈ base.myCore.mat.ops, o.seat ≠ base.cur.seat) ∧ base.quiet base.cur = true := by decide
theorem test_meets_Exit_engine :
    let s : State := { base with cur := { core := 0, seat := 0, strn := .copy } }
    Runs h0 s ∧ s.cur.strn ≠ .main := by decide
/-- `base` with view 63 defined, its mode bit as given, and scalar 63 full as given. -/
def feState (v f : Bool) : State :=
  base.modMe (fun x => (x.setView 63 { x.view 63 with defd := true, fe := v }).setFull 63 f)
theorem test_meets_Waitf :
    (∀ v f, Runs h0 (feState v f) ∧ ((feState v f).me.view 63).defd = true ∧ ((feState v f).me.view 63).fe = v ∧
      (feState v f).me.full 63 = f) := by decide

theorem test_meets_Arithmetic :
    Runs h0 base ∧ Reads1 .i8 (rl (-128)) base (-128) base ∧ Reads2 .n64 (rs 5) (rl (-1)) base 0 (2 ^ 64 - 1) base ∧
      Reads2 .i32 (rl 7) (rl 0) base 7 0 base ∧ Dest 0 base :=
  ⟨by decide, rfl, ⟨base, rfl, rfl⟩, ⟨base, rfl, rfl⟩, by decide⟩
theorem test_meets_Shift : ReadsN .i16 (rl (-1)) (rl 64) base (-1) 64 base := ⟨base, rfl, rfl⟩
theorem test_meets_BitField : ReadsN .i64 (rl (-1)) (rl 0x1000) base (-1) (64 * 64) base ∧ 64 * 64 / 64 ≤ 64 :=
  ⟨⟨base, rfl, rfl⟩, by decide⟩

/-! Floats -/

theorem test_meets_Float :
    Runs h0 base ∧ isFL .fp32 = true ∧ ReadsF .fp32 (rs 5) (rl 0xFE000) base 0 0x3F800000 base ∧ Dest 63 base := by
  refine ⟨by decide, by decide, ?_, by decide⟩
  exact ⟨base, rfl, rfl⟩
theorem test_meets_ExactSum : asInts (-1) (.fin true 3 0) = some (-6) ∧ asInts (-1) (.fin false 0 (-5)) = some 0 := by decide
theorem test_meets_Cvt :
    Reads1 .i8 (rl (-1)) base (-1) base ∧ readF (cfmt .fp16) 2 (rs 5) base = .ok 0 base ∧ (∀ t, CTy.fp16 ≠ .int t) :=
  ⟨rfl, rfl, fun t => by cases t <;> decide⟩

/-! Tiles -/

/-- A defined view of one row and `c` columns in a format, row-major, at a local offset. -/
def oneRow (f : Fmt) (c off : Nat) : View :=
  { defd := true, fe := true, vcols := c, vrows := 1, fmt := f.code, colsm1 := c - 1, rowsm1 := 0, pitch := 64, base := off }
/-- A thread with views 0 to 7 of one row in a format, their lines within its readable and writable granule. -/
def tiles (f : Fmt) : State :=
  ((prog [0]).modCore 0 (fun x => { x with lrt := mapPut 0 0xBC0#32 x.lrt })).modMe (fun x => (upto 8).foldl (fun x n => x.setView n (oneRow f 1 (1024 + 64 * n))) x)
/-- View 1 of `tiles`. -/
def tv (f : Fmt) (n : Nat) : View := oneRow f 1 (1024 + 64 * n)

theorem test_meets_TileDest :
    TileDest none isFLINCX 1 (tv .cf32 1) (tiles .cf32) ∧ TileDest (some .fp32) isFLIN 1 (tv .fp32 1) (tiles .fp32) ∧
      TileDest none isFL 1 (tv .bf16 1) (tiles .bf16) ∧ TileDest none isIN 1 (tv .int8 1) (tiles .int8) ∧
      TileDest none isCX 1 (tv .cf64 1) (tiles .cf64) ∧ TileDest none isNB 1 (tv .e2m1 1) (tiles .e2m1) := by
  simp only [TileDest]; decide
theorem test_meets_SrcFits : SrcFits .fp32 (rt 2) (tiles .fp32) ∧ SrcFits .fp32 (rs 2) (tiles .fp32) ∧
    SrcFits .fp32 (rl 2) (tiles .fp32) := by
  simp only [SrcFits, rt, rs, rl]; decide
theorem test_meets_Loads :
    Loads2 .fp32 (rt 2) (rl 0xFE000) (tiles .fp32) (.view 2 (tv .fp32 2) ⟨false, false, false⟩) (.one 0x3F800000) (tiles .fp32) :=
  ⟨tiles .fp32, rfl, rfl⟩

/-- The groups of a cell job pass every check in `tiles`. -/
theorem test_meets_Open (f : State → Nat → Nat → Nat × Flags) :
    let xs : List TSrc := [.view 2 (tv .fp32 2) ⟨false, false, false⟩, .view 3 (tv .fp32 3) ⟨false, false, false⟩]
    Open (cellJob 0 1 (tv .fp32 1) (fun _ g => alike (tv .fp32 1) xs g) f) (tv .fp32 1).groups (tiles .fp32) ∧
      (tv .fp32 1).groups = 1 := by
  refine ⟨⟨by decide, by decide, by simp only [BankQuiet]; decide, fun t g hg => ?_⟩, by decide⟩
  have hg : g = 0 := by have : (tv .fp32 1).groups = 1 := by decide
                        omega
  subst hg
  exact ⟨by dsimp only [cellJob]; decide, by dsimp only [cellJob]; decide, by dsimp only [cellJob]; decide⟩
theorem test_meets_TileOther :
    (∃ k, readN64 3 (rs 5) (tiles .int32) = .ok k (tiles .int32)) ∧
    cmpFmt (some .fp32) none (some .int8) = .fp32 ∧ MoveSrc (tv .fp32 1) 2 (tv .fp32 2) (tiles .fp32) ∧
    readElem .fp32 2 (rl 0xFE000) (tiles .fp32) = .ok 0x3F800000 (tiles .fp32) ∧
    readI64 3 (rl (-3)) (tiles .fp32) = .ok (-3) (tiles .fp32) :=
  ⟨⟨0, rfl⟩, by decide, by simp only [MoveSrc]; decide, rfl, rfl⟩
/-- `tiles` of FP32 with an index view 3 of INT32. -/
def gatherSt : State := (tiles .fp32).modMe (fun x => x.setView 3 (tv .int32 3))
theorem test_meets_Tgather (place : State → Nat → Nat → Option (Nat × Nat))
    (hp : ∀ t i j p, place t i j = some p → p = (0, 0)) (f : State → Nat → Nat → Nat × Flags) :
    MoveSrc (tv .fp32 1) 2 (tv .fp32 2) gatherSt ∧ gatherSt.me.view 3 = tv .int32 3 ∧ isIN (tv .int32 3).fm = true ∧
    Open (cellJob 0 1 (tv .fp32 1) (fun t g =>
      (2, ((tv .fp32 1).cells g).filterMap (fun e => (place t e.1 e.2).map (fun p => (tv .fp32 2).elem p.1 p.2))) ::
        alike (tv .fp32 1) [.view 3 (tv .int32 3) ⟨false, false, false⟩] g) f) (tv .fp32 1).groups gatherSt := by
  refine ⟨by simp only [MoveSrc]; decide, by decide, by decide, by decide, by decide, by simp only [BankQuiet]; decide,
    fun t g hg => ?_⟩
  have hg : g = 0 := by have : (tv .fp32 1).groups = 1 := by decide
                        omega
  subst hg
  refine ⟨?_, by dsimp only [cellJob]; decide, by dsimp only [cellJob]; decide⟩
  dsimp only [cellJob]
  have hc : (tv .fp32 1).cells 0 = [(0, 0)] := by decide
  rw [hc]
  simp only [List.filterMap_cons, List.filterMap_nil]
  cases h : place t 0 0 with
  | none => simp only [Option.map_none]; decide
  | some p => rw [hp t 0 0 p h]; simp only [Option.map_some]; decide
theorem test_meets_Tred (op : RedOp) (axis : RedAxis) :
    TileDest none (fun f => if op = .sum then isFLINCX f else isFLIN f) 1 (tv .fp32 1) (tiles .fp32) ∧
    0 < (tv .fp32 1).vrows ∧ 0 < (tv .fp32 1).vcols ∧
    Open (redJob ⟨none, .rne, false⟩ op axis 1 (tv .fp32 1) 2 (tv .fp32 2) false 0) 1 (tiles .fp32) := by
  refine ⟨by cases op <;> simp only [TileDest] <;> decide, by decide, by decide, by decide, by decide,
    by simp only [BankQuiet]; decide, fun t g hg => ?_⟩
  have hg : g = 0 := by omega
  subst hg
  have hn : ¬ ((tv .fp32 1).vrows = 0 ∨ (tv .fp32 1).vcols = 0) := by decide
  cases axis <;> exact ⟨by dsimp only [redJob]; rw [if_neg hn]; dsimp only; decide, by dsimp only [redJob]; rw [if_neg hn]; dsimp only; decide,
    by dsimp only [redJob]; rw [if_neg hn]; dsimp only; decide⟩
/-- The view image of the worked example of R70, and a state that holds it at local offset 1,024. -/
def imageSt : State :=
  let s := prog [0]
  { s with lmem := memWrites s.lmem (lkey 0 1024) (leBytes (0x3409793003008000 + 0x180A0 * 2 ^ 64) 16) }
theorem test_meets_Views :
    (let w := View.ofImage (0x0009793003008000 % 2 ^ 58 + 2 ^ 80 + 2 ^ 79)
     ({ w with vrows := w.rows, vcols := w.cols }).ok = true) ∧
    (tiles .fp32).me.view 1 = tv .fp32 1 ∧ (tv .fp32 1).defd = true ∧ readI64 2 (rl 1) base = .ok 1 base ∧
    readN64 2 (rl 1024) imageSt = .ok 1024 imageSt ∧ BankQuiet imageSt ∧ imageSt.myCore.tile = none ∧
    localOk imageSt 0 1024 16 imageSt.me.who .r false = true ∧ imageSt.myCore.heldRange 1024 16 none = false ∧
    imageSt.locBad 0 1024 16 = none ∧ imageOk (imageSt.locNum 0 1024 16) = true :=
  ⟨by decide, by decide, by decide, rfl, rfl, by simp only [BankQuiet]; decide, by decide, by decide, by decide, by decide, by decide⟩
/-- `tiles` with another seat's instruction on the tile engine. -/
theorem test_meets_ViewsWait :
    let s := (tiles .fp32).modMyCore (fun x => { x with tile := some { seat := 1, view := 1, fills := false, group := 0, phase := .start } })
    (∃ r, s.myCore.tile = some r ∧ r.seat ≠ s.cur.seat) ∧ s.me.hnd = false := ⟨⟨_, rfl, by decide⟩, by decide⟩

/-! Tables, copies, timelines, matrix -/

/-- Tensor entry: FP32, one dimension of 16 elements (R148). -/
def tensEntry : List Byte :=
  leBytes (2 ^ 40 + 4096) 8 ++ leBytes 0x02 1 ++ leBytes 0x80 1 ++ leBytes 0 6 ++
    (leBytes 16 4 ++ leBytes 1 4 ++ leBytes 1 4 ++ leBytes 1 4) ++ leBytes 64 8 ++ leBytes 64 8 ++ leBytes 64 8 ++ leBytes 0 8
/-- Distribution entry: 10 elements of 4 bytes on one rank from local offset 1,024 (R149). -/
def distEntry : List Byte :=
  leBytes 1024 4 ++ leBytes 0x80 1 ++ leBytes 2 1 ++ leBytes 0 2 ++ (leBytes 10 4 ++ leBytes 1 4 ++ leBytes 1 4 ++ leBytes 1 4) ++
    (leBytes 10 2 ++ leBytes 1 2 ++ leBytes 1 2 ++ leBytes 1 2) ++ leBytes 0x01010101 4 ++ leBytes 0 4 ++ leBytes 0 12 ++ leBytes 0 12
/-- Transfer entry: a store of 1 row and 16 columns from tensor 0 to tensor 0 (R150). -/
def xferEntry : List Byte :=
  leBytes 0 6 ++ leBytes 1 1 ++ leBytes 0 1 ++ leBytes 0 4 ++ leBytes 1 2 ++ leBytes 16 2 ++ leBytes 0 32 ++ leBytes 0 16
/-- A launch whose tables stand in the local memory of core 0. -/
def launch0 : Launch :=
  { lid := 0, vdev := 0, queue := 0, base := 0, addr := 0, started := true
    rcd := { tidtab := 2 ^ 40 + 2048, disttab := 2 ^ 40 + 2560, setw := 1, seth := 1, seats := 1 } }
/-- `tiles` with that launch and its tables, and a transfer entry at local offset 3,072. -/
def launched (f : Fmt) : State :=
  let s := tiles f
  { s with launches := [launch0]
           lmem := memWrites (memWrites (memWrites s.lmem (lkey 0 2048) tensEntry) (lkey 0 2560) distEntry) (lkey 0 3072) xferEntry }

theorem test_meets_Gaddr :
    let s := launched .fp32
    s.launch s.me.vdev s.me.lid = some launch0 ∧ launch0.rcd.disttab ≠ 0 ∧ (Dist.ofBytes distEntry).bad = false ∧
      (Dist.ofBytes distEntry).ranks ≤ 1 ∧ readN64 2 (rl 0) s = .ok 0 s ∧ (∀ j, j < 4 → s.me.full (20 + j) = true) ∧
      s.me.full 10 = true ∧ s.me.full 11 = true ∧
      unitRead (some 0) { vdev := 0, dom := 0, win := none } (2 ^ 40 + 2560) 64 s = .ok distEntry s ∧
      (∀ j, j < 4 → 0 < nth (Dist.ofBytes distEntry).n j) ∧
      ((Dist.ofBytes distEntry).place [0, 0, 0, 0]).2 + 2 ^ (Dist.ofBytes distEntry).esize ≤ 2 ^ 18 :=
  ⟨by decide, by decide, by decide, by decide, rfl, by decide, by decide, by decide, rfl, by decide, by decide⟩
theorem test_gaddr_places_element :
    let x := seatAfter (exec (.gaddr h0 10 (rl 0) (rs 20)) ((launched .fp32).modMe (fun x => x.setReg 20 7)))
    x.reg 10 = 0x10000000000 + 1024 + 28 ∧ x.reg 11 = 0 := by decide
theorem test_gaddr_outside :
    let x := seatAfter (exec (.gaddr h0 10 (rl 0) (rs 20)) ((launched .fp32).modMe (fun x => x.setReg 20 10)))
    x.reg 10 = 0 ∧ x.reg 11 = BitVec.allOnes 64 := by decide
/-- The tensor of `tensEntry`. -/
def tens0 : Tensor := { base := 2 ^ 40 + 4096, fmt := 2, dims := [16, 1, 1, 1], strs := [64, 64, 64] }
theorem test_meets_Copies :
    let s := (launched .fp32).modMe (fun x => x.setView 3 (tv .int32 3))
    Runs h0 s ∧ s.me.hnd = false ∧ s.cur.seat < 4 ∧ s.me.view 1 = tv .fp32 1 ∧ (tv .fp32 1).defd = true ∧
      (tv .fp32 1).fe = true ∧ FourFull 20 s ∧ readTensor 0 s = .ok tens0 s ∧ tens0.fm = (tv .fp32 1).fm ∧ CopyRoom s ∧
      addFmt (tv .fp32 1).fm = true ∧ s.me.view 3 = tv .int32 3 ∧ (tv .int32 3).fm = .int32 ∧ (tv .int32 3).layout < 3 ∧ s.ldaOpen s.cur = false :=
  ⟨by decide, by decide, by decide, by decide, by decide, by decide, by simp only [FourFull]; decide, rfl, by decide,
    by simp only [CopyRoom]; decide, by decide, by decide, by decide, by decide, by decide⟩
theorem test_meets_Cpyx :
    let s := launched .fp32
    readN64 2 (rl 3072) s = .ok 3072 s ∧ BankQuiet s ∧ localOk s 0 3072 64 s.me.who .r false = true ∧
      s.myCore.heldRange 3072 64 none = false ∧ s.locBad 0 3072 64 = none ∧
      (Xfer.ofBytes (s.locRead 0 3072 64)).ok = true ∧ (Xfer.ofBytes (s.locRead 0 3072 64)).fmtOk tens0.fm tens0.fm = true :=
  ⟨rfl, by simp only [BankQuiet]; decide, by decide, by decide, by decide, by decide, by decide⟩
theorem test_meets_Timelines :
    Runs h0 base ∧ base.me.hnd = false ∧ tlMet (base.myCore.tl 0).iss 0 = true ∧ base.stopOf [0] = none ∧
      tlMet (base.myCore.tl 0).done 0 = true ∧ tlMet (base.myCore.tl 6).done (2 ^ 56 - 1) = true ∧
      tlMet (base.myCore.tl 6).done 1 = false ∧ base.stopOf [7] = none ∧ base.quiet base.cur = true := by decide
/-- `prog` with full bit-plane views 1 and 2 of 16 rows and 16 columns, and a plain view 3. -/
def planes (f : Fmt) : State :=
  let p (off : Nat) : View := { defd := true, vcols := 16, vrows := 16, layout := 2, fmt := f.code, colsm1 := 15, rowsm1 := 15,
                                pitch := 64, base := off }
  (launched .fp32).modMe (fun x => (x.setView 1 (p 1024)).setView 2 (p 2048))
theorem test_meets_Matrix :
    let s := planes .fp16
    Runs h0 s ∧ s.me.hnd = false ∧ PlaneSrc 1 (s.me.view 1) s ∧ PlaneSrc 2 (s.me.view 2) s ∧
      mmaPair (s.me.view 1).fm (s.me.view 2).fm .fp32 = true ∧ Dest 4 s ∧ AccAt (s.me.reg 4) .fp32 16 16 0 0 ∧
      AccAt 0x7F .fp32 1 256 127 0 ∧ MatRoom s ∧ s.myCore.gang = none ∧ readN64 2 (rl 128) s = .ok 128 s ∧
      readN64 3 (rl 256) s = .ok 256 s ∧ (tv .fp32 3).plain = true ∧ s.me.view 3 = tv .fp32 3 ∧
      readOpt 0 (readI64 3) (some (rl (-2048))) s = .ok (-2048) s ∧ readOpt 0 (readI64 3) none s = .ok 0 s ∧
      isCplxAf .cf64 = true ∧ readTensor 0 s = .ok tens0 s ∧ (∀ j, j < 5 → s.me.full (20 + j) = true) := by
  refine ⟨by decide, by decide, by simp only [PlaneSrc]; decide, by simp only [PlaneSrc]; decide, by decide, by decide,
    by simp only [AccAt]; decide, by simp only [AccAt]; decide, by simp only [MatRoom]; decide, by decide, rfl, rfl, by decide,
    by decide, rfl, rfl, by decide, rfl, by decide⟩
/-- `planes` leading a gang of one seat at itself. -/
def gangSt : State :=
  (planes .fp16).modCore 0 (fun x =>
    let q : Gang := { leader := 0, w := 1, h := 1, seat := 0, gdone := false, ret := ⟨0, 0⟩ }
    { x with gang := some q })
theorem test_meets_Mgang :
    let s := gangSt
    s.cur.strn = .main ∧ s.cur.seat < 4 ∧ (∃ q, s.myCore.gang = some q ∧ q.seat = s.cur.seat ∧ q.leader = 0) ∧
      PlaneSrc 1 (s.me.view 1) s ∧ MatRoom s ∧ s.me.hnd = false := by
  refine ⟨by decide, by decide, ⟨_, rfl, by decide, by decide⟩, by simp only [PlaneSrc]; decide, by simp only [MatRoom]; decide,
    by decide⟩
/-- One step of a conversion and of a split pass every check. -/
theorem test_meets_Conversion :
    let s := (tiles .fp32).modMe (fun x => ((x.setView 1 (tv .bf16 1)).setView 3 (tv .bf16 3)).setView 2 (tv .bf16 2))
    s.myCore.tile = none ∧ convPair .fp32 .bf16 false = true ∧ s.me.view 1 = tv .bf16 1 ∧ s.me.view 4 = tv .fp32 4 ∧ (tv .bf16 1).layout < 2 ∧
    Open (convJob 1 (tv .bf16 1) 4 (tv .fp32 4) { satx := false, rnd := .rne, had := 0, e := 0, ftz := false } 0) 1 s ∧
    Open (splitJob 1 (tv .bf16 1) (tv .bf16 2) (tv .bf16 3) 4 (tv .fp32 4) 0) 1 s := by
  refine ⟨by decide, by decide, by decide, by decide, by decide,
    ⟨by decide, by decide, by simp only [BankQuiet]; decide, fun t g hg => ?_⟩,
    by decide, by decide, by simp only [BankQuiet]; decide, fun t g hg => ?_⟩ <;>
    have hg : g = 0 := by omega
  · subst hg; exact ⟨by dsimp only [convJob]; decide, by dsimp only [convJob]; decide, by dsimp only [convJob]; decide⟩
  · subst hg; exact ⟨by dsimp only [splitJob]; decide, by dsimp only [splitJob]; decide, by dsimp only [splitJob]; decide⟩
theorem test_meets_SplitSum : asInts (-149) (decodeF .fp32 false 0x3F800000) = some (2 ^ 149) ∧
    (split3 0x3F800000).2.2.2 = 0 ∧ asInts (-149) (decodeF .bf16 false (split3 0x3F800000).1) = some (2 ^ 149) := by decide
theorem test_meets_ElementWrite : (tiles .fp32).lmem.wf = true ∧ (tv .fp32 1).ok = true ∧ (tv .fp32 1).layout < 2 ∧
    0 < (tv .fp32 1).rows ∧ 0 < (tv .fp32 1).cols := by decide

/-! Memory -/

/-- The state after a step. -/
def after (o : Out) : State := match o with | .next s => s | _ => base
theorem test_meets_LoadStore :
    let s := tiles .fp32
    let va := 2 ^ 40 + 2048
    let t := s.modMe (fun x => x.setReg 4 (BitVec.ofNat 64 va))
    (t.ldaOpen t.cur = false ∧ Runs h0 t) ∧ Addr (rs 4) (rl (-16)) t (va - 16) t ∧ t.me.full 63 = true ∧ t.quiet t.cur = true ∧ t.myCore.pair = none ∧
      (∃ ps u, seatPieces va 16 .r false false false t = .ok ps u ∧ u.myCore.pair = none ∧ u.cur = t.cur) ∧
      (∃ ps u, seatPieces va 8 .r false false true t = .ok ps u ∧ u.cur = t.cur) ∧
      (∃ ps u, seatPieces va 4 .w true false false t = .ok ps u) ∧
      (∃ ps u, seatPieces va 8 .w true false true t = .ok ps u) ∧ (∃ ps u, seatPieces va 8 .rw false true true t = .ok ps u) :=
  ⟨⟨by decide, by decide⟩, ⟨2 ^ 40 + 2048, -16, _, rfl, rfl, by decide⟩, by decide, by decide, by decide, ⟨_, _, rfl, by decide, by decide⟩,
    ⟨_, _, rfl, by decide⟩, ⟨_, _, rfl⟩, ⟨_, _, rfl⟩, ⟨_, _, rfl⟩⟩
theorem test_meets_Atomic :
    readInt .i32 3 (rl (-1)) base = .ok (-1) base ∧ readF .fp32 3 (rs 5) base = .ok 0 base ∧ base.me.full 13 = true ∧
      base.ldaOpen base.cur = false := ⟨rfl, rfl, by decide, by decide⟩
theorem test_meets_AtomicValue : wrapTo .i32 (2 ^ 32 - 1 : Nat) ≤ wrapTo .i32 0 ∧ wrapTo .n32 0 < wrapTo .n32 1 := by decide
/-- A load that has left the strand. -/
def loading : State :=
  after (exec (.ld h0 2 false 5 (rs 4) (rl 0)) ((tiles .fp32).modMe (fun x => x.setReg 4 (BitVec.ofNat 64 (2 ^ 40 + 2048)))))
/-- A store that has left the strand. -/
def storing : State :=
  after (exec (.st h0 2 5 (rs 4) (rl 0)) ((tiles .fp32).modMe (fun x => x.setReg 4 (BitVec.ofNat 64 (2 ^ 40 + 2048)))))
/-- An atomic that has left the strand. -/
def adding : State :=
  after (exec (.aadd h0 .n64 (some 5) (rs 4) (rl 1)) ((tiles .fp32).modMe (fun x => x.setReg 4 (BitVec.ofNat 64 (2 ^ 40 + 2048)))))
/-- The access in flight. -/
def acc0 (s : State) : Access := (s.flight.head?).getD default
/-- Its first piece. -/
def piece0 (s : State) : Piece := ((acc0 s).pieces.head?).getD default
theorem test_meets_Fences :
    let x := acc0 storing
    base.myFlight base.cur = [] ∧ x ∈ storing.myFlight storing.cur ∧
      (∃ p ∈ x.pieces, scopeHas storing.cur.core .seat p.home = true) ∧ x.returns = false ∧
      (∀ p ∈ (acc0 loading).pieces, p.home = .bank 0) ∧ (acc0 loading).returns = true := by decide
theorem bank_only {q : Piece} (c n : Nat) (hq : q.home = .bank c) {P : Prop} (h : q.home = .bank n) : n = c ∨ P :=
  .inl (Home.bank.inj (h.symm.trans hq))
theorem test_meets_PieceReady_load : PieceReady loading (acc0 loading) 0 (piece0 loading) .r false :=
  ⟨by decide, by decide, by decide, by decide, by decide, by decide, by decide, by decide, by decide, .inl (by decide),
    fun n h => bank_only 0 n (by decide) h, by decide⟩
theorem test_meets_PieceReady_store : PieceReady storing (acc0 storing) 0 (piece0 storing) .w true ∧
    storing.snooped (piece0 storing).home (piece0 storing).addr (piece0 storing).len = false :=
  ⟨⟨by decide, by decide, by decide, by decide, by decide, by decide, by decide, by decide, by decide, .inl (by decide),
    fun n h => bank_only 0 n (by decide) h, by decide⟩, by decide⟩
theorem test_meets_PieceReady_atomic : PieceReady adding (acc0 adding) 0 (piece0 adding) .rw false :=
  ⟨by decide, by decide, by decide, by decide, by decide, by decide, by decide, by decide, by decide, .inl (by decide),
    fun n h => bank_only 0 n (by decide) h, by decide⟩
theorem test_meets_Reply :
    let s := after (exec (.remoteAccess (acc0 loading).num 0) loading)
    let t := after (exec (.remoteAccess (acc0 storing).num 0) storing)
    (∀ p ∈ (acc0 s).pieces, p.st ≠ .sent) ∧ (acc0 s).failed = none ∧ (acc0 s).returns = true ∧ (acc0 s).dst = some 5 ∧
      (acc0 s).pair = false ∧ (acc0 t).failed = none ∧ (acc0 t).returns = false := by decide
theorem test_load_reads_back :
    let s := after (exec (.remoteAccess (acc0 storing).num 0) storing)
    s.locRead 0 2048 4 = [0, 0, 0, 0] ∧ memRead (after (exec (.remoteAccess (acc0 adding).num 0) adding)).lmem (lkey 0 2048) = 1 := by
  decide
theorem test_meets_TileLoad :
    let s := tiles .fp32
    (s.ldaOpen s.cur = false ∧ Runs h0 s) ∧ s.me.view 1 = tv .fp32 1 ∧ (2 ^ 40 + 2048) % 16 = 0 ∧ BankQuiet s ∧ s.myCore.tile = none ∧ s.reach = none ∧
      (s.myCore.pair = none) ∧
      (∃ t, tileMemGroups true 1 (tv .fp32 1) (2 ^ 40 + 2048) (List.range' 0 ((tv .fp32 1).groups - 0)) none s = .ok () t) ∧
      (∃ t, tileMemGroups false 1 (tv .fp32 1) (2 ^ 40 + 2048) (List.range' 0 ((tv .fp32 1).groups - 0)) none s = .ok () t) :=
  ⟨⟨by decide, by decide⟩, by decide, by decide, by simp only [BankQuiet]; decide, by decide, by decide, by decide, ⟨_, rfl⟩, ⟨_, rfl⟩⟩

/-- A walk for the first page of the device region. -/
def walk0 (k : Nat) : Walk := { core := 0, seat := 0, strn := .main, vdev := 0, dom := 0, va := 2 ^ 41 + 65536 * k, at_ := 2 ^ 41 + 65536 * k }
/-- A write that waits for the LOG bit of its leaf at device address 0. -/
def logReq0 : LogReq := { core := 0, seat := 0, strn := .main
                          entry := { vdev := 0, dom := 0, va := 2 ^ 41, bits := 16, oa := 0, tgt := 0, log := true, x := false, w := true, r := true, leaf := 0 } }
theorem test_meets_Walks :
    let s := { base with walks := [walk0 0] }
    let t := { base with walks := (upto 65).map walk0 }
    s.walks[0]? = some (walk0 0) ∧ regionOf (walk0 0).va = some .device ∧ s.walking (walk0 0) = true ∧
      (match walk s 0 0 (walk0 0).va .device with | .error _ => true | _ => false) = true ∧ t.walks[64]? = some (walk0 64) ∧
      t.walking (walk0 64) = false ∧ t.walking (walk0 63) = true ∧ s.walkPull 0 0 (walk0 0).va = none ∧
      (s.setOwner 0 { s.owner 0 with pull := true }).walkPull 0 0 (walk0 0).va = some 0 := by decide +kernel
theorem test_meets_Logs :
    let s := { base with logs := [logReq0] }
    let full := s.devWrite 0 0 (leBytes 32 8)
    let room := { full with quotas := mapPut 0 { full.quota 0 with dlcap := 1024, dlbase := 65536 } full.quotas }
    let bad := { s with dpoison := (upto 64).map (fun i => (i, ())) }
    s.logs[0]? = some logReq0 ∧ s.devPoisoned 0 0 8 = false ∧ (s.logAtomic logReq0.entry).map (fun r => r.1) = some false ∧
      (full.logAtomic logReq0.entry).isNone = true ∧ (room.logAtomic logReq0.entry).map (fun r => r.1) = some true ∧
      bad.devPoisoned 0 0 8 = true := by decide +kernel

/-! Slots, tasks, messages -/

/-- `tiles` with a slot of a kind at y3. -/
def slotted (l : Slot) : State := (tiles .fp32).setSlot 0 3 l
/-- An empty slot. -/
def slot0 (k : SyKind) : Slot := { kind := k, lid := 0, vdev := 0 }
theorem test_meets_Slots :
    let ph := { slot0 .ph with nreg := 2, narr := 1 }
    let tq := { slot0 .tq with cap := 2, places := [.resv, .taken] }
    let jn := { slot0 .join with jcount := 2 }
    (slotted ph).slot 0 3 = some ph ∧ (slotted tq).slot 0 3 = some tq ∧ (slotted jn).slot 0 3 = some jn ∧
      ph.nreg + 65533 ≤ 65535 ∧ ph.member? 0 0 = none ∧ ph.aa < ph.anon ∧ 1 ≤ ph.anon - ph.aa ∧ ph.phase = 2 ^ 32 % 2 ^ 32 ∧
      ((slotted ph).groupsOf 0 0).length < 8 ∧ tq.places[0]? = some .resv ∧ tq.places[1]? = some .taken ∧
      2 ≤ jn.jcount ∧ Runs h0 base ∧ base.quiet base.cur = true ∧ base.ldaOpen base.cur = false := by decide
theorem test_meets_PhaseComplete :
    let l := { slot0 .ph with nreg := 1, narr := 1 }
    (slotted l).slot 0 3 = some l ∧ l.held = [] ∧ l.waiters = [] ∧ (∀ e ∈ (slotted l).streams, e.2.target ≠ (0, 3)) := by decide
theorem test_meets_SlotDo :
    let s := slotted { slot0 .ph with nreg := 2 }
    (∃ t, (standsAt h0 3 s).slotDo (slotAgent s) 0 3 (.phreg 1) = .ok t) ∧
    (∃ t, (standsAt h0 3 s).slotDo (slotAgent s) 0 3 .phsig = .ok t) ∧ s.mapped 1 = true ∧ s.bankDone = true :=
  ⟨⟨_, rfl⟩, ⟨_, rfl⟩, by decide, by decide⟩
/-- `tiles`, whose virtual device has cores 0 and 1. -/
def twoCores : State := tiles .fp32
theorem test_meets_RemoteSlot : readN64 3 (rl 1) twoCores = .ok 1 twoCores ∧ twoCores.mapped 1 = true ∧
    1 ≠ twoCores.cur.core ∧ twoCores.holdsCore twoCores.me.vdev 1 = true ∧ twoCores.ldaOpen twoCores.cur = false :=
  ⟨rfl, by decide, by decide, by decide, by decide⟩
theorem test_meets_SynewSyfree :
    base.slot 0 5 = none ∧ readN64 2 (rl 256) base = .ok 256 base ∧ base.myCore.tokens + 256 ≤ 1024 ∧
      (slotted (slot0 .ph)).slot 0 3 = some (slot0 .ph) ∧ (slot0 .ph).members = [] ∧ base.bankDone = true ∧
      (slotted (slot0 .ph)).bankDone = true := ⟨by decide, rfl, by decide, by decide, by decide, by decide, by decide⟩
theorem test_meets_Sstep :
    let s := launched .fp32
    s.quiet s.cur = true ∧ s.launch s.me.vdev s.me.lid = some launch0 ∧ base.launch base.me.vdev base.me.lid = none ∧
      s.launches.find? (fun m => m.lid == launch0.lid && m.started) = some launch0 ∧ launch0.rcd.xfertab = 0 ∧
      launch0.sst = none ∧ (after (exec (.sstep h0) s)).allArrived launch0 = true := by decide
/-- A launch in its superstep: core 0 has one transfer left, or none. -/
def stepping (xs : List XferSt) : Launch := { launch0 with sst := some xs, arrived := [(0, 0)] }
theorem test_meets_Transfers :
    let x : XferSt := { rank := 0, entry := 0, group := 0, stop := none }
    let s := fun xs => ({ launched .fp32 with launches := [stepping xs] } : State)
    (s [x]).launches.find? (fun m => m.lid == (stepping [x]).lid && m.started) = some (stepping [x]) ∧
      (s [x]).xferGoes (stepping [x]) x = true ∧ (stepping [x]).sst = some [x] ∧
      (s []).launches.find? (fun m => m.lid == (stepping []).lid && m.started) = some (stepping []) ∧ (stepping []).sst = some [] ∧
      (launched .fp32).allArrived launch0 = false := by decide
theorem test_meets_RemoteSlotArrival :
    let s := after (exec (.phsig h0 3 (some (rl 1))) (twoCores.setSlot 1 3 { slot0 .ph with nreg := 2 }))
    ∃ q, s.slotReqs = [q] ∧ q.dest = 1 ∧ s.packetBehind q.core q.dest q.num = false ∧ (s.vd 0).cores = [] ∧
      (∃ t, ((({ s with slotReqs := [] } : State).atSlot ⟨q.core, q.seat, q.strn, q.hnd⟩ q.dest q.y).slotDo
        ⟨q.core, q.seat, q.strn, q.hnd⟩ q.dest q.y q.op) = .ok t) := ⟨_, rfl, rfl, by decide, by decide, _, rfl⟩
/-- `launched` with entries to push and a range to hold. -/
def pushSt : State :=
  let s := launched .fp32
  { s with launches := [{ launch0 with rcd := { launch0.rcd with segbound := 100 } }] }.modMe (fun x =>
    (((x.setReg 8 0).setReg 9 1000).setReg 10 64).setReg 60 5)
theorem test_meets_Forks :
    MayPush (rl 99) 99 { launch0 with rcd := { launch0.rcd with segbound := 100 } } pushSt pushSt ∧ DequeRoom pushSt ∧
      (pushSt.me.reg 8).toNat < (pushSt.me.reg 9).toNat ∧ (pushSt.me.reg 10).toNat = 64 ∧
      (∀ i, i < 4 → pushSt.me.full (60 + i) = true) ∧ (pushSt.me.reg 9).toNat ≥ (pushSt.me.reg 8).toNat := by
  simp only [MayPush, DequeRoom]
  exact ⟨⟨by decide, by decide, rfl, by decide, by decide, by decide, by decide⟩, by decide, by decide, by decide, by decide,
    by decide⟩
/-- The range [0, 1000) of grain 64 (R29). -/
def range0 : Task := ⟨0, 1, 2, 0, 1000, 64, 0⟩
theorem test_meets_Splits :
    let x : Core := ({} : Core).dqPush range0.word
    range0.good = true ∧ x.dqSlot (x.dqh + 127) = range0.word ∧ x.dqSlot x.dqt = range0.word ∧ 2 * range0.g ≤ range0.a1 - range0.a0 := by
  decide
theorem test_steal_splits :
    let x : Core := ({} : Core).dqPush range0.word
    (x.steal).1.a0 = 448 ∧ (x.steal).1.a1 = 1000 ∧ (Task.ofWord ((x.steal).2.dqSlot 0)).a1 = 448 := by decide
/-- `pushSt` after a FORK of entry 3. -/
def forked : State := after (exec (.fork h0 (rl 3) (rs 8)) pushSt)
theorem test_meets_Tasks :
    let l := { launch0 with rcd := { launch0.rcd with segbound := 100 } }
    (∃ s1, search 0 l pushSt = .ok none s1) ∧ (∃ f s1 s2, search 0 l forked = .ok (some f) s1 ∧ meet false s1 = .ok () s2) ∧
    base.me.who.dom = 0 ∧ (base.vd 0).evput ≤ (base.vd 0).evget ∧ base.me.depth = 0 := by
  exact ⟨⟨_, rfl⟩, ⟨_, _, _, rfl, rfl⟩, by decide, by decide, by decide⟩
theorem test_meets_EngineStrands :
    Runs h0 base ∧ base.me.hnd = false ∧ readN64 2 (rl 0) base = .ok 0 base ∧ 0 < base.me.segb ∧ base.me.cpy.live = false ∧
      base.quiet base.cur = true ∧ base.me.mat.live = false ∧ base.myCore.mat.holder = none ∧
      base.stopOf [0, 1, 2, 3, 4] = none := ⟨by decide, by decide, rfl, by decide, by decide, by decide, by decide, by decide, by decide⟩
/-- A message in flight to core 0, and the state it travels in. -/
def msg0 : Flying := { num := 7, src := 0, seat := 0, dest := 0, vdev := 0, ref := false, msg := { (default : Msg) with lid := 0, dseat := 0 } }
theorem test_meets_Messages :
    let s := { launched .fp32 with msgs := [msg0] }
    s.msgs.find? (fun x => x.num == msg0.num) = some msg0 ∧ s.msgDue msg0 = true ∧ s.launch msg0.vdev msg0.msg.lid ≠ none ∧
      (s.core 0).inbox.length < 64 ∧ twoCores.mapped 0 = true ∧ twoCores.outgoing 0 < 8 ∧
      (∀ i, i < 8 → twoCores.me.full (56 + i) = true) ∧ (twoCores.me.reg 4).toNat < 2 ^ 48 := by decide
theorem test_meets_Recv :
    let s := (launched .fp32).modCore 0 (fun x => { x with inbox := [msg0.msg] })
    s.myCore.inbox.find? (fun x => x.dseat == s.cur.seat && x.lid == s.me.lid) = some msg0.msg ∧
      (∀ i, i < 9 → s.me.full (55 + i) = true) := by decide

/-! Gates, unwinding, revocation -/

/-- A gate image: segment 5, bound 10, entry 2, window limit 4,096, depth 4, any caller (R152). -/
def gateImg : List Byte :=
  leBytes 0 4 ++ leBytes 5 2 ++ leBytes 10 2 ++ leBytes 2 4 ++ leBytes 0 4 ++ leBytes 4096 4 ++ leBytes 3 1 ++ leBytes 4 1 ++
    leBytes 1 1 ++ leBytes 0 1 ++ leBytes 0 8 ++ leBytes 0 32
/-- `tiles` with gate capacity 2, domain capacity 4, generations 1, and that image at local offset 2,048. -/
def gateSt : State :=
  let s := tiles .fp32
  let t : State := { (s.modMe (fun x => { x with limit := 8 })) with
    quotas := mapPut 0 { s.quota 0 with gcap := 2, gbase := 8192, dcap := 4, dbase := 16384 } s.quotas
    lmem := memWrites s.lmem (lkey 0 2048) gateImg }
  (t.devWrite 0 (t.gateAddr 0 0) [1]).devWrite 0 (t.gateAddr 0 1) [1]
/-- `gateSt` after GPOST of that image into s10. -/
def posted : State := after (exec (.gpost h0 10 (rl 2048)) gateSt)
/-- `posted` after GCALL of that gate. -/
def inside : State := after (exec (.gcall h0 (rs 10) none) posted)
theorem test_meets_Gpost :
    MayGate gateSt ∧ GateImage gateImg (gateSt.quota 0).dcap ∧
      (match localImage 2 2048 64 gateSt with | .ok bs t => bs == gateImg && t.quiet t.cur | _ => false) = true ∧
      GateFree gateSt 0 0 ∧ ¬ GateFree posted 0 0 ∧ GateFree posted 0 1 ∧ (gateSt.quota 0).gcap = 2 := by
  simp only [MayGate, GateFree, GateImage]
  exact ⟨by decide +kernel, by decide +kernel, by decide +kernel, by decide +kernel, by decide +kernel, by decide +kernel, by decide +kernel⟩
theorem test_meets_Gretract :
    posted.handleOk 0 (posted.me.reg 10).toNat = true ∧ posted.gateNum 0 0 2 2 = posted.me.curdom ∧
      posted.handleOk 0 0 = false ∧ (posted.modMe (fun x => { x with curdom := 3 })).me.curdom ≠ posted.gateNum 0 0 2 2 := by decide +kernel
theorem test_meets_Ginfo :
    inside.me.depth = 1 ∧ (∃ f, inside.me.frames[inside.me.depth - 1]? = some f ∧ f.caller = inside.me.curdom) ∧ posted.me.depth = 0 :=
  ⟨by decide +kernel, ⟨_, rfl, by decide +kernel⟩, by decide +kernel⟩
theorem test_meets_Gcall :
    posted.me.unw = none ∧ Met posted ∧ (∃ g w k, posted.callCheck posted.me (posted.me.reg 10).toNat none = .ok (g, w, k)) ∧
      posted.me.frames.length < 8 ∧ posted.callCheck posted.me 0 none = .error 1 := by
  simp only [Met]
  exact ⟨by decide +kernel, by decide +kernel, ⟨_, _, _, rfl⟩, by decide +kernel, rfl⟩
theorem test_meets_Gret :
    inside.me.unw = none ∧ (∃ f, inside.me.frames = [f]) ∧ inside.me.depth = 1 ∧ Met inside ∧ inside.me.main.pc = ⟨5, 2⟩ := by
  simp only [Met]
  exact ⟨by decide +kernel, ⟨_, rfl⟩, by decide +kernel, by decide +kernel, by decide +kernel⟩
/-- A frame of `inside`. -/
def frame0 : Frame := (inside.me.frames.head?).getD default
/-- An unwinding to the base that runs a cleanup. -/
def unw0 : Unwind := { target := 0, retire := false, rsn := false, hnd := 5, xdom := 2, run := true }
/-- `inside` with its frame as given and an unwinding. -/
def unwinding (f : Frame) (u : Option Unwind) (m : Bool) : State :=
  inside.modMe (fun x => { x with frames := [f], unw := u, marked := m })
theorem test_meets_Gclean :
    let f := { frame0 with cln := true, bud := 9 }
    let s := unwinding f (some unw0) false
    f.callee = s.me.curdom ∧ Met s ∧ s.me.depth ≤ unw0.target + 1 ∧ unw0.retire = false ∧ unw0.run = true ∧ f.bud ≠ 0 ∧
      (s.seat 0 0).occ = .thread ∧ (s.seat 0 0).seq = .none := by
  simp only [Met]
  exact ⟨by decide +kernel, by decide +kernel, by decide +kernel, by decide +kernel, by decide +kernel, by decide +kernel, by decide +kernel, by decide +kernel⟩
theorem test_meets_UnwindTake :
    let f := { frame0 with doom := true }
    let s := unwinding f none true
    Takeable s 0 0 ∧ (s.seat 0 0).marked = true ∧ (s.seat 0 0).unw = none ∧ (s.seat 0 0).frames.length = (s.seat 0 0).depth ∧
      (s.seat 0 0).frames[(s.seat 0 0).depth - 1]? = some f ∧ (s.seat 0 0).frames.getLast? = some f ∧ f.bdoom = false ∧
      (s.seat 0 0).main.blk = .none := by
  simp only [Takeable]; decide +kernel
theorem test_meets_UnwindPop :
    let f := { frame0 with doom := true }
    let s := unwinding f (some { unw0 with run := false }) false
    Takeable s 0 0 ∧ (s.seat 0 0).frames = [f] ∧ (s.seat 0 0).depth = unw0.target + 1 := by
  simp only [Takeable]; decide +kernel
/-- `gateSt` with domain `d` live (1) or revoked (2). -/
def domSt (d st : Nat) : State := gateSt.setDstate 0 d st
theorem test_meets_Drevoke :
    (domSt 3 1).dstate 0 3 = 1 ∧ (domSt 3 2).dstate 0 3 = 2 ∧ 3 < ((domSt 3 1).quota 0).dcap ∧ (domSt 3 1).me.curdom = 0 ∧
      ((domSt 3 1).vd 0).fencing.contains 3 = false ∧
      (let s := ((domSt 3 1).revoke 0 3).modVd 0 (fun v => { v with fencing := 3 :: v.fencing })
       s.fenceOpen 0 3 = false) ∧
      (let s := (domSt 3 2).modVd 1 (fun v => { v with killing := [3] })
       (s.vd 1).killing.contains 3 = true ∧ s.threads 1 = [] ∧ (s.vd 1).saved = [] ∧
         ∀ p ∈ s.owners, ¬ (p.2.vdev = 1 ∧ p.2.owner = 3 ∧ p.2.state ≠ 0)) := by decide +kernel
theorem test_meets_MarkSeat : (inside.seat 0 0).seq = .none ∧ (inside.seat 0 0).depth = (inside.seat 0 0).frames.length ∧
    (inside.seat 0 0).frames[0]? = some frame0 := by decide +kernel

/-! The Escapement -/

/-- `launched` with code to run and a phaser at y3 of core 0. -/
def escSt : State :=
  let s := launched .fp32
  ({ s with launches := [{ launch0 with rcd := { launch0.rcd with segbound := 100 } }] }).setSlot 0 3 { slot0 .ph with nreg := 1 }
/-- A configuration word: target core 0, slot y3, entry 5, grain 1. -/
def cfg0 : Nat := 3 * 2 ^ 16 + 5 * 2 ^ 32
/-- `escSt` after ESUB.open into s3. -/
def openedSt : State :=
  after (exec (.esubOpen h0 1 3 (rs 4)) (escSt.modMe (fun x => x.setReg 4 (BitVec.ofNat 64 cfg0))))
/-- A constraint of one body. -/
def cons0 : Constraint := { cut := 0, index := 7, bodies := [9] }
/-- `openedSt` after ESUB of that constraint, and after ECLOSE.cut. -/
def sealedSt : State :=
  after (exec (.ecloseCut h0 (rs 3)) (after (exec (.esub h0 (rs 3) (rs 8))
    (openedSt.modMe (fun x => x.setReg 8 (BitVec.ofNat 64 (7 + 9 * 2 ^ 34)))))))
/-- `sealedSt` after the release of its batch. -/
def batchSt : State := after (exec (.escapementBatchRelease 0) sealedSt)
theorem test_meets_EsubOpen :
    let s := escSt.modMe (fun x => x.setReg 4 (BitVec.ofNat 64 cfg0))
    readN64 2 (rs 4) s = .ok cfg0 s ∧ s.me.depth = 0 ∧ cfg0 / 2 ^ 14 % 4 = 0 ∧ cfg0 / 2 ^ 24 % 2 ^ 8 = 0 ∧ cfg0 / 2 ^ 58 = 0 ∧
      s.inSet { launch0 with rcd := { launch0.rcd with segbound := 100 } } 0 = true ∧ (s.stream 0).st = .free ∧
      (∃ l, s.slot 0 3 = some l ∧ l.kind = .ph ∧ l.nreg < 65535) := ⟨rfl, by decide +kernel, by decide +kernel, by decide +kernel, by decide +kernel, by decide +kernel,
    by decide +kernel, ⟨_, rfl, by decide +kernel, by decide +kernel⟩⟩
theorem test_meets_Esub :
    (∃ v, MyStream (rs 3) openedSt v 0 (openedSt.stream 0) openedSt) ∧ (openedSt.stream 0).st = .opened ∧
      constraintOf (7 + 9 * 2 ^ 34) 0 0 = some cons0 ∧ openedSt.window 0 < 4096 ∧ openedSt.quiet openedSt.cur = true ∧
      (sealedSt.stream 0).pendC = [cons0] ∧ (sealedSt.stream 0).due = some 0 :=
  ⟨⟨0, rfl, by decide +kernel, rfl, by decide +kernel, by decide +kernel, by decide +kernel⟩, by decide +kernel, by decide +kernel, by decide +kernel, by decide +kernel, by decide +kernel, by decide +kernel⟩
theorem test_meets_Enext :
    MyBatch (rs 3) batchSt 0 (batchSt.stream 0) batchSt ∧ (batchSt.stream 0).infl = true ∧
      (batchSt.stream 0).store[0]? = some cons0 ∧ (batchSt.stream 0).remain = 1 :=
  ⟨⟨0, ⟨rfl, by decide +kernel, rfl, by decide +kernel, by decide +kernel, by decide +kernel⟩, by decide +kernel, by decide +kernel⟩, by decide +kernel, by decide +kernel, by decide +kernel⟩
theorem test_meets_Batch :
    mapGet 15 0 sealedSt.modl.rrStream = 15 ∧ (sealedSt.core 0).dqCount < 64 ∧ (sealedSt.vd 0).cores = [] ∧
      formBatch 0 [cons0] [] [] = ([cons0], []) := by decide +kernel
/-- The worked batch of R354: bodies c0 (1 2), c1 (2 3), c2 (3 4), c3 (4 5), c4 (6 7), c5 (7 2). -/
theorem test_batches :
    let c (i : Nat) (b : List Nat) : Constraint := { cut := 0, index := i, bodies := b }
    (formBatch 0 [c 0 [1, 2], c 1 [2, 3], c 2 [4], c 3 [1]] [] []).1.map Constraint.index = [0, 2] := by decide +kernel

/-! System registers, traps, privileged instructions -/

/-- `base` where virtual device 0 is not a fixed one. -/
def loose : State := { base with quotas := mapPut 0 { base.quota 0 with fixed := false } base.quotas }
theorem test_meets_Sysr :
    Index none base 0 base ∧ Index (some (rl 32)) base 32 base ∧ base.me.who.dom = 0 ∧ base.me.vdev = 0 ∧
      (loose.quota loose.me.vdev).fixed = false ∧ (gateSt.quota 0).gcap = 2 ∧
      (base.modMe (fun x => { x with curdom := 3 })).me.who.dom = 3 ∧ base.tableOk 0 5 0 0 = true :=
  ⟨⟨rfl, rfl⟩, rfl, by decide, by decide, by decide, by decide, by decide, by decide⟩
theorem test_meets_Sysw :
    readN64 2 (rl 2) base = .ok 2 base ∧ readN64 3 (rs 5) base = .ok 0 base ∧ base.me.hnd = false ∧
      ({ base.myCore with dqh := 64 } : Core).dqCount ≤ 64 ∧ (base.me.reg 9).toNat = 32 * 0 + 0 ∧
      (base.lrtEntry 0 5).toNat / 2 ^ 28 = base.me.vdev ∧ (base.lrtEntry 0 5).getLsbD 10 = false ∧
      (∃ r, (mapGet ({} : RegSlot) 0 base.regs).put 2 0 = some r) :=
  ⟨rfl, rfl, by decide, by decide, by decide, by decide, by decide, ⟨_, rfl⟩⟩
/-- A handler installed on core 0: code at segment 5, data area at local offset 4,096. -/
def hrec0 : HRec := { hseg := 5, hent := 2, hbnd := 10, hdata := 4096 }
/-- `tiles` with that handler. -/
def handled : State := (tiles .fp32).modCore 0 (fun x => { x with hinst := some hrec0 })
/-- A trap of software. -/
def trap0 : Trap := { cause := .software, val := 7 }
/-- `handled` inside its handler. -/
def inHandler : State := handled.takeTrap handled.cur trap0 false
theorem test_meets_TrapEntry :
    (handled.settle 0 0).seat 0 0 = handled.seat 0 0 ∧ (handled.core 0).tile = none ∧
      handled.lmem.wf = true ∧ (handled.core 0).hinst = some hrec0 ∧ (handled.seat 0 0).hnd = false ∧
      (∀ i, 56 ≤ i → i < 64 → (handled.seat 0 0).full i = true) ∧ (handled.seat 0 0).segb < 2 ^ 16 ∧
      (handled.seat 0 0).ending = false ∧ trap0.cause ≠ .engine ∧ inHandler.me.held.isSome = true := by
  refine ⟨by decide, by decide, by decide, by decide, by decide, fun i h1 h2 => ?_, by decide, by decide, by decide, by decide⟩
  have : i = 56 ∨ i = 57 ∨ i = 58 ∨ i = 59 ∨ i = 60 ∨ i = 61 ∨ i = 62 ∨ i = 63 := by omega
  rcases this with h | h | h | h | h | h | h | h <;> subst h <;> decide
/-- A store of the handler to its own core's banks, under way (R317). -/
def ownStore : Access :=
  { num := 0, core := 0, seat := 0, strn := .main, kind := .store [0], len := 1, dst := none, pair := false, acq := false
    va := 0, dom := 0, vdev := 1, pieces := [{ home := .bank 0, addr := 0, va := 0, len := 1, vdev := 1, dom := 0, win := false }] }
theorem test_meets_EretWaits :
    ({ inHandler with flight := [ownStore] } : State).me.held.isSome = true ∧
      ({ inHandler with flight := [ownStore] } : State).bankDone = false := by decide
theorem test_meets_Eret :
    base.me.held = none ∧ base.me.hnd = false ∧ (∃ r, inHandler.me.held = some r ∧ r.save = false ∧ r.strn = .main ∧
      r.trap.cause ≠ .engine) ∧ inHandler.me.hnd = true ∧ inHandler.cur.strn = .main ∧ inHandler.me.ending = false ∧
      inHandler.bankDone = true :=
  ⟨by decide, by decide, ⟨_, rfl, by decide, by decide, by decide⟩, by decide, by decide, by decide, by decide⟩
theorem test_trap_entry :
    let x := inHandler.seat 0 0
    x.main.pc = ⟨5, 2⟩ ∧ x.ecause.toNat % 256 = trap0.cause.code ∧ x.eval = 7 ∧ x.segb = 10 := by decide
theorem test_meets_DoubleFault :
    (inHandler.seat 0 0).hnd = true ∧ (base.core 0).hinst = none ∧ barred (.tmov h0 none 1 (rt 2)) = true ∧
      barred (.gret h0) = true ∧ barred (.rdv h0) = true ∧ guardOk (headOf (.tmov h0 none 1 (rt 2))) inHandler.me = true := by decide
theorem test_meets_Wait :
    let s := tiles .fp32
    readN64 2 (rl 2048) s = .ok 2048 s ∧ (∃ bs t, localImage 2 2048 8 s = .ok bs t ∧ leNat bs = 0) :=
  ⟨rfl, ⟨_, _, rfl, by decide⟩⟩
/-- `prog` whose word is WAIT with a timeout of 16, asleep in it. -/
def asleep : State :=
  (prog [(encode (.wait h0 16 2 (rl 2048) (rs 5))).toNat]).modStrand { core := 0, seat := 0 } (fun t => { t with blk := .timed 2048 0 none })
theorem test_meets_WaitTimeout :
    (asleep.seat 0 0).occ = .thread ∧ (asleep.seat 0 0).main.blk = .timed 2048 0 none ∧ (asleep.core 0).seatStopped 0 = false ∧
      asleep.nextInstr { core := 0, seat := 0 } = .ok (.wait h0 16 2 (rl 2048) (rs 5)) := ⟨by decide, by decide, by decide, rfl⟩
theorem test_meets_Timers :
    (base.seat 0 0).occ = .thread ∧ (loose.quota (loose.seat 0 0).vdev).fixed = false ∧ (base.core 0).pre = none ∧
      (base.core 0).gang = none ∧ (base.seat 0 0).seq = .none ∧ (inHandler.seat 0 0).hnd = true ∧
      (let s := base.modSeat 0 0 (fun x => { x with seq := .saving 5 true })
       (s.seat 0 0).seq = .saving 5 true) := by decide
/-- Cores 0 and 1, a thread on seat 0 of each, in one row of the device. -/
def pairSt : State :=
  (tiles .fp32).modSeat 1 0 (fun x => { x with occ := .thread, main := { x.main with live := true } })
/-- `pairSt` with core 1 waiting for a pair. -/
def pairing1 (on bye : Bool) (b : Blk) : State :=
  (pairSt.modCore 1 (fun x => { x with pair := some { dir := 2, mate := 0, on := on, bye := bye, pd := 3 } })).modStrand
    { core := 1, seat := 0 } (fun t => { t with blk := b })
theorem test_meets_Pairs :
    let s := pairing1 false false .pairing
    s.me.curdom = 0 ∧ readN64 2 (rl 0) s = .ok 0 s ∧ neighbour 0 0 1 = some 1 ∧ s.holdsCore s.me.vdev 1 = true ∧ dieOf 1 = dieOf 0 ∧
      s.myCore.pair = none ∧ s.myCore.onlySeat = some s.cur.seat ∧ s.myCore.gang = none ∧ pairSt.myCore.pair = none ∧
      (pairSt.core 1).pair = none ∧ (∃ q, (s.core 1).pair = some q ∧ q.on = false ∧ q.mate = 0 ∧ q.dir = 2) ∧
      (s.core 1).onlySeat = some 0 ∧ (s.core 1).gang = none ∧ gangSt.myCore.gang ≠ none ∧ s.pairSeat 1 .pairing = some 0 :=
  ⟨by decide, rfl, by decide, by decide, by decide, by decide, by decide, by decide, by decide, by decide,
    ⟨_, rfl, by decide, by decide, by decide⟩, by decide, by decide, by decide, by decide⟩
theorem test_meets_Chkx :
    let s := (pairing1 true true .unpairing).modCore 0 (fun x => { x with pair := some { dir := 0, mate := 1, on := true, bye := false, pd := 2 } })
    (∃ p, s.myCore.pair = some p ∧ p.on = true ∧ p.mate = 1) ∧ (∃ q, (s.core 1).pair = some q ∧ q.bye = true) ∧
      s.pairSeat 1 .unpairing = some 0 ∧ (s.core 0).onlySeat = some 0 ∧ (s.seat 0 0).topFull = true ∧ (s.seat 0 0).hnd = false :=
  ⟨⟨_, rfl, by decide, by decide⟩, ⟨_, rfl, by decide⟩, by decide, by decide, by decide, by decide⟩
theorem test_meets_Gangs :
    pairSt.rectangle 0 0 2 1 = some [0, 1] ∧ pairSt.rectangle 0 127 4 4 = none ∧ pairSt.me.depth = 0 ∧
      (∀ n ∈ [0, 1], (pairSt.core n).pair = none ∧ (pairSt.core n).gang = none) ∧ base.me.lead = false := by decide
/-- A follower at core 1 waits for the gang of cores 0 and 1. -/
def oneFollows : State := pairSt.modStrand { core := 1, seat := 0 } (fun t => { t with blk := .following 0 2 1 2 })
theorem no_clash {x : Core} (hg : x.gang = none) (hp : x.pair = none)
    (ha : ∀ k, k < 4 → (x.seat k).asks = none ∨ (x.seat k).asks = some (0, 2, 1, 2)) : ¬ Clash x 0 2 1 := by
  rintro (h | ⟨p, h, -⟩ | ⟨k, a, b, d, hk, -, e, f⟩)
  · exact h hg
  · rw [hp] at h; cases h
  · rcases ha k hk with g | g <;> rw [g] at e <;> cases e
    exact f.elim (fun h => h rfl) (fun h => h rfl)
theorem test_meets_Follow :
    ¬ Clash (oneFollows.core 0) 0 2 1 ∧ ¬ Clash (oneFollows.core 1) 0 2 1 ∧
      ((waits h0 (.following 0 2 1 2) oneFollows).core 0).joins 0 2 1 = some 0 ∧
      ((waits h0 (.following 0 2 1 2) oneFollows).core 1).joins 0 2 1 = some 0 ∧
      ((waits h0 (.following 0 2 1 2) pairSt).core 1).joins 0 2 1 = none ∧ Clash (oneFollows.core 1) 0 1 2 ∧
      Clash (gangSt.core 0) 0 2 1 :=
  ⟨no_clash (by decide) (by decide) (by decide), no_clash (by decide) (by decide) (by decide), by decide, by decide, by decide,
    .inr (.inr ⟨0, 2, 1, 2, by decide, by decide, by decide, .inl (by decide)⟩), .inl (by decide)⟩
theorem test_meets_Tlbinv :
    base.me.who.dom = 0 ∧ Dest 4 base ∧ 0 < (gateSt.quota 0).dcap ∧ readN64 3 (rl 0) gateSt = .ok 0 gateSt ∧
      (let s := base.modVd 0 (fun v => { v with invs := [(1, .dom, 3, 0, 0)] })
       (s.vd 0).invs = (1, .dom, 3, 0, 0) :: [] ∧ s.flight = [] ∧ s.walks = [] ∧ (∀ x ∈ s.cores, x.2.enginesOpen 0 = false) ∧
         (let w : Walk := { core := 0, seat := 0, strn := .main, vdev := 0, dom := 3, va := 2 ^ 41, at_ := 2 ^ 41 }
          Walking { s with walks := [w] } .dom 0 3 0 0)) :=
  ⟨by decide, by decide, by decide, rfl, by decide, by decide, by decide, by decide, ⟨_, List.mem_singleton.mpr rfl, rfl, by decide, rfl⟩⟩
/-- `tiles` with granules 2 and 3 of core 0 fit for a handler, its pair of words in s20 and s21. -/
def hinstSt : State :=
  ((tiles .fp32).modCore 0 (fun x => { x with lrt := mapPut 2 0xFC0#32 (mapPut 3 0xFC0#32 x.lrt) })).modMe (fun x =>
    (x.setReg 20 (BitVec.ofNat 64 (256 + 2 * 2 ^ 16))).setReg 21 (BitVec.ofNat 64 (10 + 12288 * 2 ^ 16)))
theorem test_meets_Hinst :
    let r : HRec := { hseg := 256, hent := 2, hbnd := 10, hdata := 12288 }
    (∃ u v, readPair 2 (rs 20) hinstSt = .ok (u, v) hinstSt ∧ u.toNat % 2 ^ 13 = 256 ∧ v.toNat % 2 ^ 16 = 10) ∧
      (∀ g ∈ r.cover, hinstSt.handlerGranule 0 0 g = true) ∧ (∀ k, k < 4 → k ≠ 0 → (hinstSt.myCore.seat k).hnd = false) :=
  ⟨⟨_, _, rfl, by decide, by decide⟩, by decide, by decide⟩

/-! Units, the dispatcher, the host, the management core -/

/-- `pairSt` with an image of a thread of seat 1 in local memory, as saved. -/
def im0 : SavedImage := { id := 1, core := 0, seat := 1, image := 2 ^ 40 + 2048, dom := 0, lid := 0 }
def svSt : State :=
  { pairSt.modVd 0 (fun v => { v with saved := [im0] }) with lmem := memWrites pairSt.lmem (lkey 0 2048) [1] }
theorem test_meets_Sigcore :
    let s := pairSt.modMe (fun x => x.setReg 2 (BitVec.ofNat 64 (2 ^ 40 + 2048)))
    Runs h0 s ∧ Target (rl 0) 0 s s ∧ s.gangWhole 0 = true ∧ readN64 3 (rs 2) s = .ok (2 ^ 40 + 2048) s ∧
      (∃ bs t, unitRead (some 0) { vdev := 0, dom := 0, win := none } (2 ^ 40 + 2048) 64 s = .ok bs t ∧ spawnOk t 0 bs = true) ∧
      (s.seat 0 0).occ = .thread ∧ (s.seat 0 1).occ ≠ .thread ∧ (s.vd 0).saved = [] ∧
      (∀ k, k < 4 → (s.seat 0 k).image ≠ 2 ^ 40 + 2048) ∧ svSt.imgTaken im0 = false ∧ (svSt.seat 0 1).seq = .none ∧
      svSt.istate 0 im0 = some 1 ∧ (svSt.core 0).halted = false ∧ im0 ∈ (svSt.vd 0).saved := by
  simp only [Target]
  exact ⟨by decide, ⟨by decide, rfl, by decide, by decide⟩, by decide, rfl, ⟨_, _, rfl, by decide⟩, by decide, by decide, by decide,
    by decide, by decide, by decide, by decide, by decide, by decide⟩
/-- A copy operation from local offset 3,072 into view 1, one that faults, and a matrix operation, on core 0. -/
def engSt : State :=
  (launched .fp32).modCore 0 (fun x =>
    let o : CopyOp := { num := 1, seat := 0, strn := .main, kind := .load, vnum := 1, view := tv .fp32 1, idx := none
                        tens := { tens0 with base := 2 ^ 40 + 3072 }, org := [0, 0, 0, 0], t := false, c := false
                        space := { vdev := 0, dom := 0, win := none }, before := 0, ranges := [] }
    let m : MatOp := { (default : MatOp) with num := 1, kind := .zero 8 8 }
    { (x.setCtx 0 { ops := [o] }).setCtx 1 { ops := [{ o with tens := tens0 }] } with mat := { ops := [m] } })
theorem test_meets_Engines :
    (∃ o, (engSt.core 0).runnable 0 1 = some o ∧ o.group < o.groups ∧ ∃ s1, o.runGroup 0 engSt = .ok (s1, 0)) ∧
      (∃ o t, (engSt.core 0).runnable 1 1 = some o ∧ o.group < o.groups ∧ ∃ s1, o.runGroup 0 engSt = .error (some t, s1)) ∧
      (∃ m ms s1, (engSt.core 0).matTurn 1 false = some m ∧ m.run 0 engSt = .ok (0, ms) s1) :=
  ⟨⟨_, rfl, by decide, _, rfl⟩, ⟨_, _, rfl, by decide, _, rfl⟩, ⟨_, _, _, rfl, rfl⟩⟩
/-- `tiles` on a core that is being pre-empted. -/
def preSt : State := (tiles .fp32).modCore 0 (fun x => { x with pre := some .sigcore })
/-- `tiles` without its thread, in the turn of virtual device 0, which has ended. -/
def turned : State :=
  ((tiles .fp32).modSeat 0 0 (fun _ => {})).modModule (fun m => { m with turn := some 0 })
theorem test_meets_Saves :
    (preSt.seat 0 0).occ = .thread ∧ (preSt.seat 0 0).hnd = false ∧ (preSt.seat 0 0).pend = none ∧ (preSt.core 0).halted = false ∧
      (preSt.seat 0 0).seq = .none ∧ (preSt.core 0).pre ≠ none ∧ (preSt.seat 0 0).ending = false ∧
      (preSt.seat 0 0).reports = [] ∧ (preSt.seat 0 0).unw = none ∧ (preSt.seat 0 0).allFull = true ∧ preSt.flight = [] ∧
      preSt.slotReqs = [] ∧ preSt.msgs = [] ∧ turned.holdsCore 0 0 = true ∧ mapGet 0 (0 / 128) turned.rowVd = 0 ∧
      turned.coreUsed 0 = true ∧ turned.turnOver 0 = true ∧ turned.nextTurn ≠ some 0 ∧ turned.coreQuiet 0 = true ∧
      (turned.vd 0).cores = [] ∧ turned.imageRoom 0 = true ∧ turned.devSnooped 0 0 coreImageLen = false ∧
      (let s := preSt.modSeat 0 0 (fun x => { x with seq := .saving 1 true }); (s.seat 0 0).seq = .saving 1 true) := by decide
theorem test_meets_TurnStart :
    let s := { preSt with quotas := mapPut 1 { active := true, rows := 2 } preSt.quotas, rowVd := [(1, 1)] }.modVd 1 (fun v =>
      { v with saved := [] })
    let t := { s with launches := [{ launch0 with vdev := 1, started := false }] }
    t.nextTurn = some 1 ∧ (∀ r ∈ (t.quota 1).rowList, mapGet 0 r t.rowVd = 1) ∧ (t.vd 1).saved = [] ∧ (t.vd 1).cores = [] ∧
      t.modl.turn = none ∧ mapGet 0 0 t.rowVd ≠ 1 := by decide
/-- `tiles` with its host's port open and a running queue at a command of an OP and a length. -/
def host0 : State := (tiles .fp32).modVd 0 (fun v => { v with ide := true })
def queued (op len : Nat) (body : List Byte) : State :=
  host0.modQueue 0 0 (fun x => { x with
      state := .run, qsize := 4, qget := 1, qput := 1, seg := some (leBytes op 1 ++ leBytes len 2 ++ leBytes 0 5 ++ body) })
theorem test_meets_Queues :
    let l := queued 1 16 (zeros 128)
    let c := queued 2 4 (leBytes (2 ^ 40 + 2048) 8 ++ leBytes (2 ^ 40 + 3072) 8 ++ leBytes 16 8 ++ zeros 8)
    let w := queued 4 1 (leBytes 5 7 ++ leBytes 255 1)
    let v := queued 4 1 (leBytes 5 7 ++ leBytes 0 1)
    let y : QCopy := { src := 2 ^ 40 + 2048, dst := 2 ^ 40 + 3072, left := 16, seq := 0 }
    host0.portOpen 0 = true ∧ host0.queueIs 0 0 = true ∧ (host0.queue 0 0).state = .idle ∧
      host0.domLive 0 (host0.queue 0 0).qown = true ∧ (w.queue 0 0).state = .run ∧
      (∃ b, AtCommand (queued 0 0 []) 0 0 0 b 0) ∧
      (∃ b, AtCommand l 0 0 1 b 0 ∧ ∃ lid t, submit { lid := 0, vdev := 0, queue := 0, base := (l.queue 0 0).qown,
                                                       rcd := LRec.ofBytes ((b.drop 8).take 128), addr := 4096 + 8 } l = .ok lid t) ∧
      (∃ b, AtCommand c 0 0 2 b 0) ∧ (∃ b, AtCommand (queued 3 1 (leBytes 7 8)) 0 0 3 b 0) ∧ EarlierStarted c 0 0 ∧
      (∃ b, AtCommand w 0 0 4 b 0 ∧ numAt b 15 1 = 255) ∧
      (∃ b, AtCommand v 0 0 4 b 0 ∧ numAt b 15 1 ≠ 255 ∧ tlMet (v.selTl 0 (numAt b 15 1)) (numAt b 8 7) = false) ∧
      (∃ bs s1 s2, unitRead none (c.qWho 0 0) y.src 16 c = .ok bs s1 ∧ unitWrite none (c.qWho 0 0) y.dst bs s1 = .ok () s2) := by
  simp only [AtCommand, EarlierStarted]
  exact ⟨by decide, by decide, by decide, by decide, by decide, ⟨_, by decide, by decide, by decide, rfl, by decide, by decide, by decide⟩,
    ⟨_, ⟨by decide, by decide, by decide, rfl, by decide, by decide, by decide⟩, _, _, rfl⟩,
    ⟨_, by decide, by decide, by decide, rfl, by decide, by decide, by decide⟩,
    ⟨_, by decide, by decide, by decide, rfl, by decide, by decide, by decide⟩, fun l hl => (nomatch (show l ∈ ([] : List Launch) from hl)),
    ⟨_, ⟨by decide, by decide, by decide, rfl, by decide, by decide, by decide⟩, by decide⟩,
    ⟨_, ⟨by decide, by decide, by decide, rfl, by decide, by decide, by decide⟩, by decide, by decide⟩, ⟨_, _, _, rfl, rfl⟩⟩
/-- A launch of one core, not started, whose code is the first word of core 0. -/
def launch1 : Launch :=
  { launch0 with lid := 1, started := false
                 rcd := { codeaddr := 2 ^ 40, segbound := 1, codeoff := 3072, savebase := 2 ^ 40 + 2048, setw := 1, seth := 1, seats := 1 } }
/-- `tiles` with that launch, and with that launch at its start message. -/
def waiting : State := { tiles .fp32 with launches := [launch1] }
def starting : State := { tiles .fp32 with launches := [{ launch1 with started := true, starts := [0] }] }
/-- A launch with nothing left. -/
def launch2 : Launch := { launch0 with rcd := { launch0.rcd with savebase := 2 ^ 40 + 2048 } }
def ended : State := { turned with launches := [launch2] }
theorem test_meets_Launches :
    let s2 := (waiting.noteMet.modVd 0 (fun v => { v with cr := min (v.cr + 2 ^ 24) (2 ^ 26) })).modModule (fun m => { m with lastVd := 0 })
    base.nextVisit = some 0 ∧ base.chosen 0 = none ∧ waiting.nextVisit = some 0 ∧ s2.mayStart 0 = true ∧
      (∃ l t, s2.chosen 0 = some l ∧ startLaunch l s2 = .ok 0 t) ∧ starting.coreOpen 0 0 = true ∧ starting.inTurn 0 = true ∧
      1 ≤ ((upto 4).filter (fun k => (starting.seat 0 k).occ == .free)).length ∧
      ended.finished launch2 = true ∧ (host0.queue 0 0).qkstat ≠ 1 ∧ (waiting.quota 0).weight = 1 := by
  exact ⟨by decide, by decide, by decide, by decide, ⟨_, _, rfl, rfl⟩, by decide, by decide, by decide, by decide, by decide, by decide⟩
/-- `tiles` at a time of the Regulator, with slot 3 armed for a queue. -/
def regSt (clk q : Nat) : State :=
  { (tiles .fp32).modModule (fun m => { m with rclk := clk }) with
    regs := [(3, { arm := true, queue := q, period := 5, rcd := 2 ^ 40 + 2048 })] }
theorem test_meets_Regulator :
    (State.reset.reg 3).arm = false ∧ ((regSt 2 9).reg 3).next ≤ (regSt 2 9).modl.rclk ∧ (regSt 2 9).queueIs 0 9 = false ∧
      (regSt 2 0).queueIs 0 0 = true ∧ (regSt 100 9).modl.rclk = 100 ∧ ((regSt 100 9).reg 3).period = 5 ∧
      ((regSt 100 9).postEvent 0 (event 0 8 3 20 0)).queueIs 0 9 = false ∧
      (∃ bs s1 n s2, unitRead none ((regSt 2 0).qWho 0 0) (2 ^ 40 + 2048) 128 (regSt 2 0) = .ok bs s1 ∧
        submit { lid := 0, vdev := 0, queue := 0, base := ((regSt 2 0).queue 0 0).qown, rcd := LRec.ofBytes bs
                 addr := 2 ^ 40 + 2048, slot := some 3 } s1 = .ok n s2) :=
  ⟨by decide, by decide, by decide, by decide, by decide, by decide, by decide, ⟨_, _, _, _, rfl, rfl⟩⟩
theorem test_meets_HostRegisters :
    (host0.vd 0).tdi = .unlocked ∧ (host0.queue 0 0).state = .idle ∧ ((queued 0 0 []).queue 0 0).state ≠ .idle ∧
      (host0.vd 0).loader.ldstate ≠ 1 ∧ (host0.quota 0).active = true ∧ (host0.quota 1).active = false ∧
      inBar0 .qbase = true ∧ isCounter .qbase = false ∧ pfOnly .qbase = false ∧
      ((host0.modVd 0 (fun v => { v with tdi := .run })).vd 0).tdi = .run ∧
      ((host0.modVd 0 (fun v => { v with tdi := .error })).vd 0).tdi = .error ∧ base.portOpen 0 = false := by decide
/-- A quota image of an active device with weight 1, 1 queue, key range 1 and 0, 1 domain and a dirty log of 2^10. -/
def quotaImg : List Byte :=
  leBytes 1 1 ++ leBytes 1 1 ++ leBytes 1 2 ++ zeros 52 ++ leBytes 1 2 ++ zeros 14 ++ leBytes 1 4 ++ zeros 36 ++ leBytes 1024 4 ++ zeros 12
def quotaSt (d : Nat) (img : List Byte) : State :=
  (host0.modModule (fun m => { m with qtsel := d, qtimg := 65536 })).devWrite 0 65536 img
theorem test_meets_Quotas :
    let s := quotaSt 1 quotaImg
    let z := quotaSt 1 []
    s.portOpen 0 = true ∧ s.modl.qtstat ≠ 1 ∧ s.devPoisoned 0 65536 128 = false ∧ s.devRead 0 65536 128 = some quotaImg ∧
      s.quotaCode 1 (some quotaImg) = 0 ∧ (s.quota 1).active = false ∧ numAt quotaImg 0 1 % 2 = 1 ∧
      (match z.devRead 0 65536 128 with | some b => decide (z.quotaCode 1 (some b) ≠ 0) | none => false) = true ∧
      (let t := { s with quotas := mapPut 1 { active := true } s.quotas }
       t.quotaCode 1 (some quotaImg) = 0 ∧ (t.quota 1).active = true) :=
  ⟨by decide +kernel, by decide +kernel, by decide +kernel, by decide +kernel, by decide +kernel, by decide +kernel, by decide +kernel,
    by decide +kernel, by decide +kernel⟩
theorem test_meets_Teardown :
    let s := { quotaSt 1 [] with owners := [(5, { vdev := 1, state := 1 })] }
    (((s.teardown 1).reclaimAll (fun o => o.vdev == 1)).qtDone 1).reclaiming 1 = true ∧ s.modl.qtsel ≠ 0 ∧
      (quotaSt 0 []).modl.qtsel = 0 := by decide +kernel
/-- `host0` with device address 65,536 OWNED by domain 0, visible to the host, and mapped at the bottom of the device region. -/
def ownSt : State :=
  let s := { host0 with
    quotas := mapPut 0 { host0.quota 0 with dbase := 131072 } host0.quotas
    owners := [(196608, { state := 1, hostvis := true })] }
  ((((s.devWrite 0 0 (leBytes 4097 8)).devWrite 0 4128 (leBytes 8193 8)).devWrite 0 8192 (leBytes 12289 8)).devWrite 0 12288
    (leBytes 16385 8)).devWrite 0 16384 (leBytes (65536 + 15) 8)
theorem test_meets_HostSees :
    HostSees ownSt 0 65536 8 196608 ∧ ownSt.dpaHome 0 65536 = some (0, 8192) ∧ ownSt.homePartBad (.slice 0) 8192 8 = false ∧
      (∀ p, base.modPage 0 65536 = some p → (base.owner p).hostvis = false) := by
  simp only [HostSees]
  refine ⟨⟨by decide +kernel, by decide, by decide, by decide +kernel, by decide +kernel, by decide +kernel, by decide +kernel,
    by decide +kernel⟩, by decide +kernel, by decide +kernel, fun p _ => rfl⟩
theorem test_meets_Fabric :
    let w : Who := { vdev := 0, dom := 0, win := none }
    regionSpan (2 ^ 41) 8 = some .device ∧ (match unitRead none w (2 ^ 41) 8 ownSt with | .ok _ _ => true | _ => false) = true ∧
      (match unitWrite none w (2 ^ 41) [1, 2, 3, 4, 5, 6, 7, 8] ownSt with | .ok _ _ => true | _ => false) = true ∧
      (match unitPlaces none w (2 ^ 41) 8 .rw true ownSt with
        | .ok _ t => (match unitRead none w (2 ^ 41) 8 t with | .ok _ _ => true | _ => false) | _ => false) = true := by
  decide +kernel
/-- Page 5 in pull. -/
def pullSt : State := { base with owners := [(5, { state := 1, pull := true })], pulls := [{ page := 5, req := true, va := 0 }] }
theorem test_meets_Pulls :
    (∃ pl, pullSt.pulls.find? (fun x => x.page == 5 && x.req) = some pl) ∧ (pullSt.owner 5).pull = true ∧ pullSt.pageSnooped 0 5 = false ∧
      (zeros 65536).length = 65536 := ⟨⟨_, rfl⟩, by decide, by decide, List.length_replicate⟩
/-- `host0` with a page proposal of page 5 for domain 0. -/
def pageSt (st : Nat) : State :=
  { host0.modVd 0 (fun v => { v with prop := { cpkind := 1, cppage := 5, cpcnt := 1 } }) with owners := [(5, { state := st })] }
theorem test_meets_Pages :
    Takes (pageSt 0) 0 1 none (pageSt 0) ∧ Asks ((pageSt 0).vd 0).prop.cpent.toNat { state := 1 } ∧ ((pageSt 0).vd 0).prop.cpcnt ≠ 0 ∧
      ((pageSt 0).owner 5).state ≠ 1 ∧ ((pageSt 1).owner 5).state = 1 ∧ ((accepted (pageSt 0) 0).vd 0).prop.cpstat = 1 ∧
      (accepted (pageSt 0) 0).filling 0 = false ∧
      (let s := { gateSt.modVd 0 (fun v => { v with ide := true, prop := { cpkind := 2, cpent := 3, cproot := 4096 } }) with fresh := 0 }
       (s.quota 0).active = true ∧ (s.dpaHome 0 4096).isSome = true ∧ 3 < (s.quota 0).dcap ∧ s.dstate 0 3 = 0) ∧
      (∃ r, ({ base with reclaims := [{ page := 5, next := {}, prop := none }] } : State).reclaims.find? (fun x => x.page == 5) = some r ∧
        r.prop = none) ∧ (pageSt 0).pageCode 0 5 0 0 = 0 := by
  simp only [Asks]
  exact ⟨⟨by decide +kernel, by decide +kernel, by decide +kernel, by decide +kernel, by decide +kernel, rfl⟩, by decide +kernel, by decide +kernel, by decide +kernel, by decide +kernel, by decide +kernel, by decide +kernel, by decide +kernel, ⟨_, rfl, rfl⟩, by decide +kernel⟩
/-- An SPDM connection. -/
def spdm (n : Nat) (sess : Bool) (ch : Option (Nat × BitVec 256 × Nat)) : State :=
  host0.modModule (fun m => { m with spdm := { conn := n, session := sess, certs := [(1, [7])], chal := ch, peer := some 9 } })
theorem test_meets_Spdm (mac : BitVec 512) :
    (spdm 0 false none).modl.spdm.conn < 1 ∧ 2 ≤ (spdm 2 false none).modl.spdm.conn ∧ 3 ≤ (spdm 3 false none).modl.spdm.conn ∧
      (spdm 3 false none).chain 1 = some [7] ∧ (spdm 3 false none).modl.spdm.chal = none ∧
      (spdm 3 false (some (1, 5, 0))).modl.spdm.chal = some (1, 5, 0) ∧
      (spdm 3 false (some (1, 5, 0))).modl.rclk < 0 + 2097152000 ∧ (spdm 3 false none).modl.spdm.peer = some 9 ∧
      (Config.finishOk 9 mac = true ∨ Config.finishOk 9 mac = false) ∧ (spdm 3 true none).modl.spdm.session = true :=
  ⟨by decide, by decide, by decide, by decide, by decide, by decide, by decide, rfl, (Bool.dichotomy _).symm, by decide⟩
/-- `spdm` with a key range and an interface in a state. -/
def tdiSt (t : Tdi) (ks : Nat) : State :=
  let s := (spdm 3 true none).modVd 1 (fun v => { v with tdi := t, ide := true })
  { s with quotas := mapPut 1 { active := true, keybase := 4, keycnt := 4, nqueue := 1 } s.quotas, keys := [(5, { kstate := ks })] }
theorem test_meets_Tenant :
    let t := tdiSt .run 0
    Takes t 1 2 (some { page := 5, cnt := 1, ent := 3, root := 4096 }) (t.modVd 1 (fun v => { v with prop := { v.prop with
      cpkind := 2, cppage := 5, cpcnt := 1, cpent := 3, cproot := 4096 } })) :=
  ⟨by decide, by decide, .inr (by decide), by decide, rfl⟩
theorem test_meets_Keys :
    let s := tdiSt .unlocked 1
    s.inKeys 1 5 = true ∧ s.queueIs 1 0 = true ∧ (s.key 5).kstate ≠ 0 ∧ s.owners = [] ∧ s.inKeys 1 9 = false ∧
      ({ s with owners := [(3, { state := 1, key := 5 })] } : State).owners = [(3, { state := 1, key := 5 })] ∧
      (s.vd 1).tdi = .unlocked ∧ (s.quota 1).active = true ∧ (s.vd 1).ide = true ∧ s.modl.unlocked = false ∧ (s.vd 1).prop.cpstat ≠ 1 ∧
      ((tdiSt .locked 1).vd 1).tdi = .locked ∧ ((tdiSt .locked 1).vd 1).nonce = 0 ∧ ((tdiSt .run 1).vd 1).tdi ≠ .locked ∧
      (let t := ((tdiSt .run 1).killQueues 1).reclaimAll (fun o => o.vdev == 1); t.reclaiming 1 = false) ∧
      (let t := (({ tdiSt .run 1 with owners := [(3, { state := 1, vdev := 1 })] } : State).killQueues 1).reclaimAll (fun o => o.vdev == 1)
       t.reclaiming 1 = true) := by decide
/-- `host0` with firmware staged for the command of subsystem 2. -/
def fwSt (st : Option (List Byte)) (act : Bool) : State :=
  host0.modModule (fun m => { m with fwsel := 2, fws := [(2, { staged := st, act := act })] })
theorem test_meets_Firmware :
    host0.devPoisoned 0 host0.modl.dbgsrc.toNat (40 + sigLen) = false ∧ (host0.devRead 0 0 (40 + sigLen)).isSome = true ∧
      (∀ v, 1 ≤ v → v < 16 → (host0.vd v).tdi ≠ .locked ∧ (host0.vd v).tdi ≠ .run) ∧ (fwSt none false).modl.fwsel ≠ 0 ∧
      (fwSt none false).devPoisoned 0 0 0 = false ∧ (fwSt none false).devRead 0 0 0 = some [] ∧ (fwSt none false).modl.fwlen.toNat = 0 ∧
      (Config.sigOk 2 [] = true ∨ Config.sigOk 2 [] = false) ∧ ((fwSt (some [1]) true).fw 2).staged = some [1] ∧
      ((fwSt (some [1]) true).fw 2).act = true ∧ (fwSt (some [1]) true).fwBoundary 2 = true ∧ ((fwSt none false).fw 2).staged = none := by
  refine ⟨by decide +kernel, by decide +kernel, fun v h1 h2 => ?_, by decide, by decide +kernel, by decide, by decide, (Bool.dichotomy _).symm,
    by decide, by decide, by decide, by decide⟩
  have h : (host0.vd v).tdi = .unlocked := by
    rcases v with _ | v
    · omega
    · rfl
  rw [h]; exact ⟨by decide, by decide⟩
/-- `base` where the first k spares of die 0 are taken. -/
def spares (k : Nat) : State := { base with route := (upto k).map (fun i => (i, 2 ^ 31)) }
theorem test_meets_Spares :
    (∀ i, i < 64 → ((spares 64).detour 0 i).getLsbD 31 = true) ∧ (∀ i, i < 63 → ((spares 63).detour 0 i).getLsbD 31 = true) ∧
      ((spares 63).detour 0 63).getLsbD 31 = false := by decide
theorem test_meets_Module :
    (base.link 3).retired = false ∧ (base.link 273).retired = false ∧ (¬ (274 < 274 ∧ (base.link 274).retired = false)) ∧
      ({ base with modl := { base.modl with links := [(3, { retired := true })] } } : State).link 3 = { retired := true } ∧
      base.mapped 0 = true ∧ (base.core 0).running = true ∧ base.gangWhole 0 = true ∧ (base.core 1).running = false ∧ base.modl.synced = false ∧ (base.detour 0 0).getLsbD 31 = false ∧
      base.modl.rclk + 1000 + 1000 * 200 / 1000000 + 1000000 < 2 ^ 64 := by decide
/-- `prog` of one ADD at the turn of a core, and at a unit's move. -/
def turnSt (m : Move) : State := { prog [addWord] with agenda := [m] }
theorem test_meets_StepRuns :
    let s := turnSt (.port 0 0)
    (({ s with agenda := [] } : State).unmet 0 0 0 = none) ∧
      (∀ j, j < 4 → j ≠ 0 → ({ s with agenda := [] } : State).ready { core := 0, seat := j } = false) ∧ s.modl.tripped = false ∧ ({ s with agenda := [], cur := { core := 0, seat := 0, strn := .main }, did := false } : State).ready
      { core := 0, seat := 0, strn := .main } = true ∧ (s.seat 0 0).reports = [] ∧ (s.core 0).gang = none ∧
      (s.seat 0 0).main.fbuf = [] ∧ (s.seat 0 0).main.rep.count = 0 ∧ (s.seat 0 0).main.pc.idx < (s.seat 0 0).segb ∧
      localOkAt s 0 (codeAddr (s.seat 0 0).main.pc) 12 (s.seat 0 0).who .x false false = true ∧ s.lpoison = [] ∧
      BitVec.ofNat 96 (leNat ((upto 12).map (fun j => memRead s.lmem (lkey 0 (codeAddr (s.seat 0 0).main.pc + j))))) =
        BitVec.ofNat 96 addWord ∧
      (∃ i, decode (BitVec.ofNat 96 addWord) = .ok i ∧ strandOk .main (fieldsOf (BitVec.ofNat 96 addWord)).opc = true) ∧
      (turnSt (.port 0 0)).agenda = [.port 0 0] ∧ (turnSt (.strand 0 0 .copy 0)).agenda = [.strand 0 0 .copy 0] ∧
      (turnSt (.pass 5 9)).agenda = [.pass 5 9] ∧ (turnSt (.event (.loadGo 0))).agenda = [.event (.loadGo 0)] ∧
      (Instr.loadGo 0).isEvent = true :=
  ⟨by decide, by decide, by decide, by decide, by decide, by decide, by decide, by decide, by decide, by decide, by decide, by decide,
    ⟨_, rfl, by decide⟩, rfl, rfl, rfl, rfl, rfl⟩
theorem test_meets_MemoryForm :
    Safety.MemWf (turnSt (.event (.loadGo 0))) ∧ ∃ t, step (turnSt (.event (.loadGo 0))) = .next t :=
  ⟨by simp only [Safety.MemWf]; decide, _, rfl⟩
theorem test_meets_RoundTrip : (Instr.nop h0).wf = true := by decide

/-! Loads -/

/-- A container of one native image without segments (R379, R380). -/
def container : List Byte :=
  leBytes 0x4B4D4152 4 ++ leBytes 1 2 ++ leBytes 1 2 ++ leBytes 160 8 ++ leBytes 64 8 ++ zeros 40 ++
    (leBytes 1 1 ++ leBytes 1 1 ++ leBytes 0x2304 2 ++ zeros 20 ++ leBytes 128 8 ++ leBytes 32 8 ++
      leBytes ((shake256 (zeros 32)).toNat % 2 ^ 192) 24) ++ zeros 32
/-- `ownSt` with a load of those bytes under way. -/
def loadSt (b : List Byte) (sig : Word) : State :=
  (ownSt.devWrite 0 65536 b).modVd 0 (fun v => { v with
    loader := { v.loader with ldstate := 1, ldsrc := 2 ^ 41, lddst := 2 ^ 41, ldlen := 160, ldcap := 4096, ldsig := sig } })
theorem test_meets_Loads_done :
    (match loadRun 0 (loadSt container 0) with
      | .ok (.ok n) t => decide (n = 64 ∧ ((t.vd 0).loader.ldsig.getLsbD 63) = false ∧ (t.vd 0).loader.ldstate = 1)
      | _ => false) = true ∧
    (match loadRun 0 (loadSt container (2 ^ 63)) with
      | .ok (.ok _) t => (t.vd 0).loader.ldsig.getLsbD 63 && t.queueIs 0 0
      | _ => false) = true ∧
    (match loadRun 0 (loadSt [] 0) with | .ok (.error n) _ => decide (n = 1) | _ => false) = true := by decide +kernel

/-! Sources, float conditions, special functions, bytes of tile loads and stores -/

/-- `tiles` with a launch that binds constant bank 0 to 80 bytes of local memory at offset 2,048, four of them set, scalar 9
empty. -/
def banked : State :=
  let s := tiles .fp32
  let l : Launch := { lid := 0, vdev := 0, queue := 0, base := 0, addr := 0, started := true, banks := [(2 ^ 40 + 2048, 80)],
                      rcd := { cbmask := 1, setw := 1, seth := 1, seats := 1 } }
  ({ s with lmem := memWrites s.lmem (lkey 0 2048) [1, 2, 3, 4], launches := [l] } : State).modMe
    (fun x => x.setFull 9 false)
/-- `banked` after a read of its bank has filled the cache. -/
def cachedSt : State := match readInt .n32 2 (.cbank 0 2 0) banked with | .ok _ t => t | .error _ t => t
theorem test_meets_OperandReading :
    banked.me.full 5 = true ∧ banked.me.full 9 = false ∧ isFL .bf16 = true ∧
    (∃ l : Launch, banked.launch banked.me.vdev banked.me.lid = some l ∧ l.banks[0]? = some (2 ^ 40 + 2048, 80) ∧
      l.rcd.cbmask.testBit 0 = true ∧ 76 + 2 ^ 2 ≤ 80 ∧ 80 < 79 + 2 ^ 2 ∧ l.banks[1]? = none ∧
      banked.myCore.ccache.find? (fun x => x.lid == l.lid && x.bank == 0 && x.line == 0 / 64) = none ∧
      (cachedSt.myCore.ccache.find? (fun x => x.lid == l.lid && x.bank == 0 && x.line == 0 / 64)).isSome = true ∧
      ∃ bs t, unitRead (some 0) { vdev := 0, dom := 0, win := none } (2 ^ 40 + 2048) 64 banked = .ok bs t) :=
  ⟨by decide, by decide, by decide, _, rfl, by decide, by decide, by decide, by decide, by decide, by decide, by decide, _, _, rfl⟩
theorem test_constant_bank : (match readInt .n32 2 (.cbank 0 2 0) cachedSt with | .ok v _ => decide (v = 0x04030201) | _ => false) = true ∧
    (match readInt .i16 2 (.cbank 0 1 2) banked with | .ok v _ => decide (v = 0x0403) | _ => false) = true := by decide
theorem test_meets_FloatConditions : asInts 0 (.fin true 0 5) = some 0 ∧ asInts (-3) (.fin true 3 (-2)) = some (-6) ∧
    (fCond 2 (.fin true 3 (-2)) (.fin false 0 0)).1 = true ∧ (fCond 6 (.nan true) (.inf false)) = (true, fNV) := by decide
theorem test_meets_SpecialBounds : (1 : Nat) ≠ 0 ∧ (∀ z, ¬ IsInt 1 (-1) z) ∧ (Nat.log2 1 : Int) + (-1) ≤ 12 ∧ (∀ j, 3 ≠ 2 ^ j) ∧
    ∀ z, ¬ IsInt 1 (-3 + 2) z := by
  refine ⟨by decide, fun z h => ?_, by decide, fun j h => ?_, fun z h => ?_⟩
  · simp only [IsInt] at h; change z * 2 = 1 at h; omega
  · rcases j with _ | j
    · simp at h
    · omega
  · simp only [IsInt] at h; change z * 2 = 1 at h; omega
theorem test_meets_SpecialExact : IsInt 3 1 6 ∧ (roundF .fp32 false .rne .sat (.fin false 1 6)).2 = 0 ∧ IsInt 1 (-2 + 2) 1 ∧ IsInt 1 (-1 + 2) 2 ∧
    IsInt 3 (-2 + 2) 3 ∧ IsInt 1 (0 + 2) 4 := by simp only [IsInt]; decide
/-- R283: TEXP2 of 6, TLOG2 of 8 and TSIN of −1/4, in FP32. -/
theorem test_special_exact : specialWide .fp32 .exp2 (.fin false 3 1) 0 = (0x42800000, 0) ∧
    specialWide .fp32 .log2 (.fin false 1 3) 0 = (0x40400000, 0) ∧ specialWide .fp32 .sin (.fin true 1 (-2)) 0 = (0xBF800000, 0) := by decide

/-- View 1 of `tiles` as a complete view, loaded from and stored to local offset 2,048. -/
theorem test_meets_TileMemPlaces :
    (tv .fp32 1).ok = true ∧ (tv .fp32 1).valid 0 0 = true ∧ (tv .fp32 1).layout < 2 ∧ ((tv .fp32 1).memRuns 0).length = 1 ∧
    (let p : View := { defd := true, vcols := 16, vrows := 16, layout := 2, fmt := Fmt.fp16.code, colsm1 := 15, rowsm1 := 15, pitch := 256, base := 1024 }
     p.ok = true ∧ p.valid 3 5 = true ∧ (p.memRuns 0).length ≠ 0) := by decide
theorem test_meets_TileMemMoves :
    let s := tiles .fp32
    let v := tv .fp32 1
    let rs := v.memRuns 0
    s.lmem.wf = true ∧ s.dram.wf = true ∧ s.host.wf = true ∧ s.fabric.wf = true ∧
    (∀ load : Bool, ∃ s0 ls s1 t, atGroup 1 0 load s = .ok () s0 ∧
      mapL rs (fun r => (memSpot v (2 ^ 40 + 2048) r).place s.cur.core s0.me.who (if load then .r else .w) (!load)) s0 = .ok ls s1 ∧
      tileMemGroup load 1 v (2 ^ 40 + 2048) 0 none s = .ok none t ∧ (∃ u, tileMemGroups load 1 v (2 ^ 40 + 2048) [] none t = .ok () u) ∧
      FragsApart ls.flatten) ∧ RunsApart (rs ++ v.zeroRuns 0) :=
  ⟨by decide, by decide, by decide, by decide, fun l => by
    cases l <;> exact ⟨_, _, _, _, rfl, rfl, rfl, ⟨_, rfl⟩, by simp only [FragsApart]; decide⟩, by simp only [RunsApart]; decide⟩
/-- `tiles` of FP32 with bit-plane views 1 and 2, or views of a block format. -/
def copySt (layout : Nat) (f : Fmt) : State :=
  let p (off : Nat) : View := { defd := true, vcols := 32, vrows := 2, layout := layout, fmt := f.code, colsm1 := 31, rowsm1 := 1, pitch := 512, base := off, fe := true }
  (tiles .fp32).modMe (fun x => (x.setView 1 (p 1024)).setView 2 (p 2048))
/-- `Open` for a job of one group. -/
theorem open_one {j : Job} {s : State} (h1 : s.reach = none) (h2 : s.myCore.tile = none) (h3 : BankQuiet s)
    (h4 : ∀ t, (∀ e ∈ j.reads t 0, ∀ r ∈ e.2, s.runDenied s.cur.core s.me.who .r false r = none ∧
        s.myCore.heldRange r.off r.bytes none = false ∧ s.runBad s.cur.core r = none) ∧
      (∀ e ∈ j.writes t 0, ∀ r ∈ e.2, s.runDenied s.cur.core s.me.who .w true r.wide = none ∧
        s.myCore.heldRange r.wide.off r.wide.bytes none = false) ∧
      s.partBadAt s.cur.core ((j.writes t 0).flatMap (fun e => e.2)) = none) : Open j 1 s :=
  ⟨h1, h2, h3, fun t g hg => by obtain rfl : g = 0 := by omega
                                exact h4 t⟩
theorem test_meets_TcopyBlock :
    let s := copySt 0 .mxfp4
    let v := s.me.view 1
    v.fe = true ∧ v.layout = 0 ∧ isBlock v.fm = true ∧ v.groups = 1 ∧ Open (blockJob 1 v 2 (s.me.view 2) s.cur.core) 1 s :=
  ⟨by decide, by decide, by decide, by decide, open_one (by decide) (by decide) (by simp only [BankQuiet]; decide) (fun t =>
    ⟨by dsimp only [blockJob]; decide, by dsimp only [blockJob]; decide, by dsimp only [blockJob]; decide⟩)⟩
theorem test_meets_TcopyPlanes :
    let s := copySt 2 .fp16
    let v := s.me.view 1
    v.layout = 2 ∧ v.vrows = v.rows ∧ v.vcols = v.cols ∧ Open (planeJob 1 v 2 (s.me.view 2) s.cur.core) 1 s :=
  ⟨by decide, by decide, by decide, open_one (by decide) (by decide) (by simp only [BankQuiet]; decide) (fun t =>
    ⟨by dsimp only [planeJob]; decide, by dsimp only [planeJob]; decide, by dsimp only [planeJob]; decide⟩)⟩
theorem test_meets_TgatherScalar :
    let s := tiles .fp32
    let v := tv .fp32 1
    let y := tv .fp32 2
    readI64 3 (rl 0) s = .ok 0 s ∧ Open (cellJob s.cur.core 1 v
      (fun _ g => (2, (v.cells g).filterMap (fun e => ((fun (x : Int) (i : Nat) =>
        if 0 ≤ x ∧ x < y.vcols ∧ i < y.vrows then some (i, x.toNat) else none) 0 e.1).map (fun p => y.elem p.1 p.2))) :: alike v [.one 0] g)
      (fun _ _ _ => (0, 0))) 1 s :=
  ⟨rfl, open_one (by decide) (by decide) (by simp only [BankQuiet]; decide) (fun t =>
    ⟨by dsimp only [cellJob]; decide, by dsimp only [cellJob]; decide, by dsimp only [cellJob]; decide⟩)⟩

/-! Copies, matrix groups, saves, turns -/

/-- The accessor of the operations below. -/
def space0 : Space := { vdev := 0, dom := 0, win := none }
/-- A copy operation of a kind, between view 1 and four elements of local memory from offset 3,072. -/
def copyOp (k : CopyKind) (idx : Option View) : CopyOp :=
  { num := 1, seat := 0, strn := .main, kind := k, vnum := 1, view := tv .fp32 1, idx := idx
    tens := { tens0 with base := 2 ^ 40 + 3072 }, org := [0, 0, 0, 0], t := false, c := false, space := space0, before := 1, ranges := [] }
/-- The moves of its only row group. -/
def movesOf (o : CopyOp) : List Mv := match o.plan 0 0 (launched .fp32) with | .ok ms _ => ms | _ => []
theorem test_meets_EngineSpots :
    tens0.strs = [64, 64, 64] ∧ (tv .fp32 1).layout < 2 ∧ (copyOp .load none).idx = none ∧ (copyOp .gather (some (tv .int32 3))).org = [0, 0, 0, 0] ∧
    (copyOp .gather (some (tv .int32 3))).idx = some (tv .int32 3) := by decide
theorem test_meets_EngineMoves :
    let s := copySt 0 .mxfp4
    let src := viewEnd (s.me.view 2) false
    let dst := viewEnd (s.me.view 1) true
    (∃ ms t, rowMoves 0 space0.who .mxfp4 false false src dst 0 32 s = .ok ms t) ∧ isBlock .mxfp4 = true ∧ isBlock .fp32 = false ∧
    dst.loc 0 5 ≠ none ∧ src.loc 0 5 ≠ none ∧ ((upto 32).all (fun j => dst.blk 0 j == 0 && src.blk 0 j == 0)) = true ∧
    (∃ ms t, rowMoves 0 space0.who .fp32 false true (tensEnd tens0 (fun _ _ => none)) (viewEnd (tv .fp32 1) true) 0 1 (tiles .fp32) = .ok ms t) :=
  ⟨⟨_, _, rfl⟩, by decide, by decide, by simp only [viewEnd, ne_eq]; decide, by simp only [viewEnd, ne_eq]; decide, by decide, _, _, rfl⟩
theorem test_meets_CopyGroups :
    let s := launched .fp32
    (∀ k ∈ [CopyKind.load, .store, .add, .move (copyOp .load none).tens [1, 0, 0, 0] 1 1 false], ∃ ms t, (copyOp k none).plan 0 0 s = .ok ms t) ∧
    (∀ k ∈ [CopyKind.gather, .scatter], ∃ ms t, (copyOp k (some (tv .int32 3))).plan 0 0 s = .ok ms t) ∧
    (∃ ms t, (copyOp .load none).plan 0 0 s = .ok ms t ∧ t.earlier 0 0 .main 1 (homesOf ms ++ []) = false) ∧
    (∃ ms t, (copyOp .load none).plan 0 0 loading = .ok ms t ∧ t.earlier 0 0 .main 1 (homesOf ms ++ []) = true) ∧
    (∀ i ∈ grpRows (tv .fp32 1).vrows 0, (copyOp .load none).idxBad s 0 i = false) := by
  refine ⟨fun k hk => ?_, fun k hk => ?_, ⟨_, _, rfl, by decide⟩, ⟨_, _, rfl, by decide⟩, by decide⟩
  · simp only [List.mem_cons, List.not_mem_nil, or_false] at hk
    rcases hk with rfl | rfl | rfl | rfl <;> exact ⟨_, _, rfl⟩
  · simp only [List.mem_cons, List.not_mem_nil, or_false] at hk
    rcases hk with rfl | rfl <;> exact ⟨_, _, rfl⟩
theorem test_meets_MovesPerformed :
    let s := launched .fp32
    s.lmem.wf = true ∧ s.dram.wf = true ∧ s.host.wf = true ∧ s.fabric.wf = true ∧
    (∀ k ∈ [CopyKind.load, .add], movesOf (copyOp k none) ≠ [] ∧ FragsApart ((movesOf (copyOp k none)).flatMap (fun m => m.dst)) ∧
      ∀ m ∈ movesOf (copyOp k none), m.srcBad s = false ∧ m.atHost (k == .add) = false ∧ ∀ x ∈ m.dst, x.bad s = []) := by
  simp only [FragsApart]; decide
/-- A matrix operation on FP16 bit-plane views of 2 rows and 3 columns. -/
def matOp (k : MatKind) (v : View) : MatOp :=
  { num := 1, seat := 0, strn := .main, kind := k, af := .fp32, row0 := 0, col0 := 0, va := v, vb := v
    ma := ⟨false, false, false⟩, mb := ⟨false, false, false⟩, vnum := 1, vbnum := 1, space := space0, ftz := false, before := 1 }
def plane0 : View := { defd := true, fe := true, vcols := 3, vrows := 2, layout := 2, fmt := Fmt.fp16.code, colsm1 := 2, rowsm1 := 1, pitch := 256, base := 1024 }
/-- `tiles` with two FP16 values in row 0 of `plane0`: 1 in column 0, 2 in column 1. -/
def planeSt : State :=
  let s := tiles .fp32
  { s with lmem := memWrites s.lmem (lkey 0 1024) ((upto 16).flatMap (fun b => [BitVec.ofNat 8 ((0x3C00 / 2 ^ b % 2) + 2 * (0x4000 / 2 ^ b % 2))] ++ zeros 15)) }
theorem test_meets_MulGroups :
    let o := matOp (.mma false) plane0
    o.gid = none ∧ planeSt.lpoison = [] ∧ planeSt.apoison = [] ∧ planeSt.acc.wf = true ∧ o.va.ok = true ∧ o.va.layout = 2 ∧
    (match o.mulGroup 0 false planeSt with | .ok c t => decide (c = 0 ∧ t.accRead 0 .fp32 0 0 = 0x40A00000 ∧ t.accRead 0 .fp32 1 0 = 0) | _ => false) = true := by
  decide +kernel
theorem test_meets_ProductSums : (1 : Nat) ≤ 16 ∧ asInts (-1) (.fin true 3 0) = some (-6) ∧ (fMul (.inf true) (.fin false 1 0)).1 = .inf true ∧
    (∃ y, (fMul (.nan true) (.fin false 1 0)).1 = .nan y) ∧ isCX .cf32 = true := ⟨by decide, by decide, by decide, ⟨_, rfl⟩, by decide⟩
theorem test_meets_AccMoves :
    let v := { tv .fp32 1 with base := 1088 }
    let o := matOp (.drainc 0 false true true false (copyOp .load none).tens [0, 0, 0, 0]) v
    planeSt.lmem.wf = true ∧ v.ok = true ∧ v.layout < 2 ∧ isBlock v.fm = false ∧
    (∃ c t, o.loadGroup 0 planeSt = .ok c t) ∧ (∃ c d t, o.drainGroup 0 0 .rne false true planeSt = .ok (c, d) t) ∧
    (∃ ms u, o.portMoves 0 0 true false (copyOp .load none).tens [0, 0, 0, 0] planeSt = .ok ms u ∧
      (∃ c t, o.drainGroup 0 0 .rne false true u = .ok (c, v.cells 0) t) ∧ ∃ c t, o.sendPort 0 ms u = .ok c t) :=
  ⟨by decide, by decide, by decide, by decide, ⟨_, _, rfl⟩, ⟨_, _, _, rfl⟩, ⟨_, _, rfl, ⟨_, _, rfl⟩, _, _, rfl⟩⟩

/-- `handled`, pre-empted, its image at device address 2^41 + 65,536 mapped nowhere, or in local memory. -/
def saveSt : State := (handled.modCore 0 (fun x => { x with pre := some .sigcore })).modMe (fun x => { x with image := 2 ^ 40 + 2048 })
def saving0 (f : Bool) : State := saveSt.modSeat 0 0 (fun x => { x with seq := .saving 0 f })
theorem test_meets_Saves_begin :
    (saveSt.core 0).midGroup 0 = false ∧ saveSt.gangWhole 0 = true ∧ ((saveSt.settle 0 0).core 0).producersDone 0 = true ∧
    (saveSt.seat 0 0).occ = .thread ∧ (saveSt.core 0).halted = false ∧ ((saving0 false).seat 0 0).seq = .saving 0 false := by decide
theorem test_meets_SaveFrom :
    SaveFrom saveSt 0 0 0 false ((saveStart saveSt 0 0).setProgress 0 0 0 false) ∧
    SaveFrom (saving0 true) 0 0 ((saving0 true).locNum 0 4096 8) true (saveStart (saving0 true) 0 0) :=
  ⟨.inl ⟨by decide, rfl, rfl, rfl⟩, .inr ⟨0, by decide, rfl, fun h => absurd h (by decide), fun r h => by
    have hi : ((saving0 true).core 0).hinst = some hrec0 := by decide
    obtain rfl : hrec0 = r := Option.some.inj (hi.symm.trans h)
    decide⟩⟩
theorem test_meets_SaveUnits :
    (∃ t, unitWrite (some 0) space0.who (2 ^ 40 + 2048) [1] saveSt = .ok () t) ∧
    (∃ e t, unitWrite (some 0) space0.who (2 ^ 41) [1] saveSt = .error e t) ∧ (saveSt.core 0).hinst = some hrec0 ∧
    saveSt.lmem.wf = true := ⟨⟨_, rfl⟩, ⟨_, _, rfl⟩, by decide, by decide⟩
theorem test_meets_SavesFreeSeat : (saveSt.core 0).pre ≠ some .retire ∧
    ((saveSt.modCore 0 (fun x => { x with pre := some .retire })).core 0).pre = some .retire := by decide
theorem test_meets_ImageFields : frame0.bytes.length = 1472 ∧ (inside.seat 0 0).frames.length = 1 ∧
    (inside.seat 0 0).frames[1 - 1 - 0]? = some frame0 := by decide +kernel
theorem test_meets_CoreImage : (List.replicate coreImageLen (0 : Byte)).length = coreImageLen ∧ preSt.lmem.wf = true ∧ preSt.acc.wf = true :=
  ⟨List.length_replicate, by decide, by decide⟩
theorem test_meets_Qualify :
    let s := { loose with quotas := mapPut 1 { active := true, rows := 2 } loose.quotas, launches := [{ launch0 with vdev := 1 }] }
    s.qualifies 1 = true ∧ s.qualifies 2 = false := by decide
theorem test_meets_RowPasses : mapGet 0 0 turned.rowVd ≠ 1 ∧ 130 / 128 ≠ 0 ∧ 5 / 128 = 0 := by decide

/-- A state whose core 0 has one matrix operation. -/
def matAt (m : MatOp) (s : State) : State := s.modCore 0 (fun x => { x with mat := { ops := [m] } })
/-- A store of 1 that the drain port has been handed. -/
def portOp : MatOp :=
  let o := matOp (.drainc 0 false false false false (copyOp .load none).tens [0, 0, 0, 0]) { tv .fp32 1 with base := 1088 }
  { o with group := 1, port := [[⟨[⟨.bank 0, 8 * 3072, 32⟩], .num 1, true⟩]] }
/-- A drain into device memory. -/
def farOp : MatOp := matOp (.drainc 0 false false false false { tens0 with base := 2 ^ 41 } [0, 0, 0, 0]) { tv .fp32 1 with base := 1088 }
/-- `ownSt` with its page still to be pulled. -/
def pullOwn : State := ownSt.setOwner 196608 { ownSt.owner 196608 with pull := true }
theorem test_meets_EngineTurns :
    (∀ b, ((matAt (matOp (.mma false) plane0) planeSt).core 0).matTurn 1 b = some (.unit (matOp (.mma false) plane0))) ∧
    (∀ b, ((matAt portOp planeSt).core 0).matTurn 1 b = some (.port portOp [⟨[⟨.bank 0, 8 * 3072, 32⟩], .num 1, true⟩])) ∧
    (matOp (.mma false) plane0).handed = false ∧
    (let o := (matAt portOp planeSt)
     (∃ n ms t, (MatTurn.port portOp [⟨[⟨.bank 0, 8 * 3072, 32⟩], .num 1, true⟩]).run 0 o = .ok (n, ms) t)) ∧
    (∃ t, (MatTurn.port portOp [⟨[⟨.bank 0, 8 * 3072, 32⟩], .num 1, true⟩]).run 0 (matAt portOp loading) = .error .wait t) ∧
    (∃ e t, farOp.nextGroup 0 planeSt = .error (.trap e) t) ∧
    (match (MatTurn.unit farOp).run 0 pullOwn with | .error .waitAt _ => true | _ => false) = true ∧
    (copyOp (.move (copyOp .load none).tens [0, 0, 0, 0] 0 1 false) none).groups = 0 :=
  ⟨fun b => by cases b <;> rfl, fun b => by cases b <;> rfl, by decide, ⟨_, _, _, rfl⟩, ⟨_, rfl⟩, ⟨_, _, rfl⟩, by decide +kernel, by decide⟩

/-! Memory, slots, tasks, messages -/

theorem test_meets_NotCompared : Unpaired (tiles .fp32) ∧ NotCompared (acc0 storing).pieces (tiles .fp32) :=
  ⟨fun p h => absurd h (by simp [show (tiles .fp32).myCore.pair = none by decide]), .inl (by decide)⟩
/-- A decided access of seat 0 of core 0: its kind, its failure, whether it has two destinations, its strand awake or not. -/
def decided (k : AccKind) (f : Option Trap) (d : Option Nat) (pair awake : Bool) : State :=
  let s : State := { base with flight := [{ ownStore with kind := k, dst := d, pair := pair, pieces := ownStore.pieces.map (fun p =>
    { p with st := match f with | none => .done [7] | some t => .failed t }) }] }
  if awake then s else s.modMe (fun x => { x with main := { x.main with blk := .sstep } })
theorem test_meets_RepliesAndReports :
    (∀ k ∈ [AccKind.load true, .atomic .add .n64 1], ((decided k none (some 5) false true).access 0).map (fun a => (a.failed, a.returns, a.dst, a.pair)) =
      some (none, true, some 5, false)) ∧
    (∀ f ∈ [none, some trap0], ∀ d ∈ [none, some 4], ∀ p ∈ [false, true], ∃ a, (decided (.load false) f d p true).access 0 = some a ∧
      (∀ q ∈ a.pieces, q.st ≠ .sent) ∧ a.failed = f ∧ a.dst = d ∧ a.pair = p ∧ a.seat < 4 ∧ Awake a (decided (.load false) f d p true)) ∧
    (∃ a, (decided (.store [1]) none none false true).access 0 = some a ∧ a.returns = false) ∧
    (decided (.store [1]) (some trap0) none false false).asleep { core := 0, seat := 0, strn := .main } = true := by
  refine ⟨by decide, fun f hf d hd p hp => ?_, ⟨_, rfl, by decide⟩, by decide⟩
  simp only [List.mem_cons, List.not_mem_nil, or_false] at hf hd hp
  rcases hf with rfl | rfl <;> rcases hd with rfl | rfl <;> rcases hp with rfl | rfl <;>
    exact ⟨_, rfl, by decide, by decide, by decide, by decide, by decide, by decide⟩
theorem test_meets_WalksEnd :
    let w := walk0 0
    let s := { ownSt with walks := [w, { w with seat := 1 }] }
    regionOf w.va = some .device ∧ s.walking w = true ∧ s.walkPull 0 0 w.va = none ∧ w.joins { w with seat := 1 } = true ∧
    (match walk s 0 0 w.va .device with | .ok _ => true | _ => false) = true ∧ s.canFault { core := 0, seat := 0 } = true := by decide +kernel
theorem test_meets_CodeDone : CodeDone base ∧ (acc0 storing).kind ≠ .load true ∧ tlMet (base.vd 0).xtl (0 % 2 ^ 56) = true ∧
    tlMet (base.queue 0 0).qtl (0 % 2 ^ 56) = true ∧ 0 < (base.quota 0).nqueue :=
  ⟨fun x hx => absurd hx (by rw [show base.myFlight base.cur = [] by decide]; exact List.not_mem_nil), by decide, by decide, by decide, by decide⟩
theorem test_meets_SlotErrors :
    (standsAt h0 3 (slotted (slot0 .tq))).slotDo (slotAgent (slotted (slot0 .tq))) 0 3 .phsig = .error 3 ∧
    (slotted { slot0 .tq with places := [.free] }).slotDo (slotAgent base) 0 3 (.tqpost 0) = .error 0 ∧
    (slotted { slot0 .join with jcount := 0 }).slotDo (slotAgent base) 0 3 .tdone = .error 3 := ⟨rfl, rfl, rfl⟩
theorem test_meets_SlotMembers :
    let l := { slot0 .ph with nreg := 2, members := [⟨0, 0, false⟩] }
    l.member? 0 0 = some ⟨0, 0, false⟩ ∧ { l with members := [⟨0, 0, true⟩] }.member? 0 0 = some ⟨0, 0, true⟩ ∧
    (let h := { slot0 .ph with nreg := 1, narr := 1 }; h.member? 0 0 = none ∧ 0 < h.anon ∧ h.anon ≤ h.aa) ∧
    { slot0 .ph with phase := 3 }.phase ≠ 2 % 2 ^ 32 := by decide
theorem test_meets_PhaseCompletes :
    let l := { slot0 .ph with nreg := 1, narr := 1, waiters := [⟨0, 0, .main, false, .phase 0⟩] }
    (slotted l).slot 0 3 = some l ∧ l.nreg ≠ 0 ∧ l.narr = l.nreg ∧ l.held = [] ∧
      (∀ e ∈ (slotted l).streams, e.2.arr = true → e.2.target ≠ (0, 3)) := by decide
theorem test_meets_SynewRefusals :
    readN64 2 (rl 300) base = .ok 300 base ∧ readN64 2 (rs 5) (withRegs [(5, 65536)]) = .ok 65536 (withRegs [(5, 65536)]) ∧
    readN64 2 (rs 5) (withRegs [(5, 2 ^ 32)]) = .ok (2 ^ 32) (withRegs [(5, 2 ^ 32)]) ∧
    (let s := (tiles .fp32).setSlot 0 3 { slot0 .tq with cap := 1000, places := [.taken] }
     1024 < s.myCore.tokens + 100 ∧ s.slot 0 4 = none ∧ s.slot 0 3 ≠ none ∧ s.bankDone = true ∧ s.ldaOpen s.cur = false ∧
       ¬ ∀ p ∈ [Place.taken], p = .free) := ⟨rfl, rfl, rfl, by decide, by decide, by decide, by decide, by decide, by decide⟩
theorem test_meets_Search :
    let l := { launch0 with rcd := { launch0.rcd with segbound := 100 } }
    (let own := (forked.core 0).cleanHead 64; own.dqCount ≠ 0 ∧ own.headTask.lid = l.lid) ∧ ((pushSt.core 0).cleanHead 64).dqRoom = true ∧
    (let own := ((pushSt.modCore 0 (fun x => { x with dqh := 64 })).core 0).cleanHead 64; ¬(own.dqCount ≠ 0 ∧ own.headTask.lid = 7)) ∧
    (∃ t, stealFrom 0 l (neighbours 0) pushSt = .ok none t ∧ ∃ r u, overflowTake 0 l t = .ok r u) ∧
    (∃ f t, stealFrom 1 l [0] forked = .ok (some f) t) ∧
    (let s := forked.modCore 0 (fun x => ({ x with dqh := 0, dqt := 0 } : Core).dqPush range0.word)
     let z := (s.core 0).cleanTail 64
     z.dqCount ≠ 0 ∧ z.tailTask.lid = range0.lid ∧ z.steal.1.kind ≠ 1 ∧ s.holdsCore 0 0 = true ∧ (s.core 0).refuses = false) ∧
    forked.holdsCore 9 0 = false :=
  ⟨by decide, by decide, by decide, ⟨_, rfl, _, _, rfl⟩, ⟨_, _, rfl⟩, by decide, by decide⟩
theorem test_neighbours : neighbours (128 * 5 + 7) = [648, 775, 646, 519, 649, 903, 645, 391] := by decide
/-- `launched` with a message for core 0 and an inbox of that many entries. -/
def mailSt (n : Nat) : State := { (launched .fp32).modCore 0 (fun x => { x with inbox := List.replicate n msg0.msg }) with msgs := [msg0] }
theorem test_meets_Arrivals :
    (mailSt 3).savedAt 0 0 = false ∧ ((mailSt 3).core 0).inbox.length < 64 ∧ 64 ≤ ((mailSt 64).core 0).inbox.length ∧
    (mailSt 64).msgDue msg0 = true ∧ ({ tiles .fp32 with msgs := [msg0] } : State).launch 0 msg0.msg.lid = none := by decide
theorem test_meets_Launch :
    let s := launched .fp32
    (2 ^ 40 + 2048) % 64 = 0 ∧ 0 < (s.quota 0).nqueue ∧ s.quiet s.cur = true ∧
    (∃ bs t, unitRead (some 0) s.me.who (2 ^ 40 + 2048) 128 s = .ok bs t ∧ Dest 7 t ∧
      (∃ ok u, submit { lid := 0, vdev := 0, queue := 0, base := 0, rcd := LRec.ofBytes bs, addr := 2 ^ 40 + 2048, child := some (0, 1) }
        ((t.modMyCore (fun x => x.setTl 5 { x.tl 5 with iss := 1 })).modMe (fun x => x.setReg 7 1)) = .ok ok u)) :=
  ⟨by decide, by decide, by decide, _, _, rfl, by decide, _, _, rfl⟩
theorem test_meets_EforkBusy :
    ((base.modMe (fun x => { x with cpy := { x.cpy with live := true }, mat := { x.mat with live := true } })).me.cpy.live = true) ∧
    (base.modMyCore (fun x => { x with mat := { x.mat with holder := some 2 } })).myCore.mat.holder = some 2 ∧
    (base.modMyCore (fun x => { x with mat := { x.mat with holder := some 0 } })).myCore.mat.holder = some base.cur.seat := by decide
theorem test_meets_TaskEvent :
    let s := { (tiles .fp32) with quotas := mapPut 0 { (tiles .fp32).quota 0 with evbase := 2 ^ 40 + 2048, evcap := 64 } (tiles .fp32).quotas }.modVd 0
      (fun v => { v with evput := 1 })
    (s.vd 0).evget < (s.vd 0).evput ∧ (∃ bs t, seatRead (root 0) (2 ^ 40 + 2048) 32 s = .ok bs t ∧
      ∃ u, writeScals 8 ((upto 4).map (fun i => BitVec.ofNat 64 (numAt bs (8 * i) 8))) t = .ok () u) :=
  ⟨by decide, _, _, rfl, _, rfl⟩
theorem test_meets_IdleSearch :
    let s := forked.modSeat 0 1 (fun x => { x with occ := .idle, lid := 0, vdev := 0 })
    (s.seat 0 1).occ = .idle ∧ (s.core 0).halted = false ∧ (s.core 0).pre = none ∧ (s.core 0).retiring = false ∧ s.inTurn 0 = true ∧
    (s.launch 0 0).isSome = true ∧ (∃ f t, search 0 { launch0 with rcd := { launch0.rcd with segbound := 100 } }
      { s with cur := { core := 0, seat := 1 } } = .ok (some f) t) ∧
    ((s.modCore 0 (fun x => { x with retSlot := some 5 })).core 0).retSlot = some 5 :=
  ⟨by decide, by decide, by decide, by decide, by decide, by decide, ⟨_, _, rfl⟩, by decide⟩

/-! Gates, revocation, the escapement, traps, pairs, gangs -/

theorem test_meets_Overrun :
    (∀ b ∈ [0, 9], let f := { frame0 with cln := true, bud := b }
      let s := unwinding f (some unw0) false
      Takeable s 0 0 ∧ (s.seat 0 0).unw = some unw0 ∧ (s.seat 0 0).marked = false ∧ (s.seat 0 0).frames = [f] ∧ unw0.run = true ∧
        unw0.retire = false ∧ (s.seat 0 0).depth = unw0.target + 1) := by
  simp only [Takeable]; decide +kernel
theorem test_meets_Fence :
    (domSt 3 1).tablesHeld 0 = false ∧ (let s := ((domSt 3 1).revoke 0 3).modVd 0 (fun v => { v with fencing := 3 :: v.fencing })
      ({ s with flight := [{ ownStore with vdev := 0, dom := 3 }] } : State).fenceOpen 0 3 = true) ∧
    (∀ x ∈ (domSt 3 1).myFlight (domSt 3 1).cur, ∀ p ∈ x.pieces, scopeHas 0 .dev p.home = false) ∧
    (gateSt.devSnooped 0 (gateSt.gateAddr 0 0) 64 = false) := by decide +kernel
theorem test_meets_EcloseEnd :
    (openedSt.stream 0).st = .opened ∧ (openedSt.stream 0).pendC = [] ∧ (openedSt.stream 0).infl = false ∧
    (∃ x, openedSt.slot 0 3 = some x ∧ x.kind = .ph) ∧ ({ openedSt.modMyCore (fun x => { x with slots := [] }) with fresh := 0 } : State).slot 0 3 = none ∧
    (openedSt.stream 0).target = (0, 3) := ⟨by decide +kernel, by decide +kernel, by decide +kernel, ⟨_, rfl, by decide +kernel⟩, by decide +kernel, by decide +kernel⟩
theorem test_meets_WaitAnswered :
    let s := (tiles .fp32).modMe (fun x => { x with main := { x.main with blk := .timed 2048 0 (some true) } })
    s.me.main.blk = .timed 2048 0 (some true) ∧ (∀ o w e, (tiles .fp32).me.main.blk ≠ .timed o w (some e)) ∧
    (asleep.seat 0 0).occ = .thread := ⟨by decide, fun o w e h =>
      (nomatch (show Blk.none = .timed o w (some e) from (show (tiles .fp32).me.main.blk = Blk.none by decide).symm.trans h)), by decide⟩
theorem test_meets_QuotaExpiry :
    (loose.seat 0 0).holds = true ∧ (loose.seat 0 0).hnd = false ∧ ((loose.modMe (fun x => { x with cyc := 0 })).seat 0 0).cyc = 0 ∧ (loose.core 0).pre = none ∧ (loose.core 0).gang = none ∧
    (loose.core 0).running = true ∧ (inHandler.seat 0 0).held.map (fun r => r.save) = some false := by decide
/-- `pairing1` while the waiting thread is in its handler. -/
def pairingHeld : State :=
  (pairing1 false false .none).modSeat 1 0 (fun x => { x with hnd := true, held := inHandler.me.held.map (fun h => { h with mblk := .pairing }) })
theorem test_meets_PairRefusal :
    ((pairing1 false false .pairing).core 1).pairAsker = some 0 ∧ (pairingHeld.core 1).pairAsker = some 0 ∧ (pairingHeld.core 1).pair.isSome = true ∧
    ((pairing1 false false .pairing).seat 1 0).held = none ∧ (pairingHeld.seat 1 0).held.isSome = true ∧ (pairingHeld.seat 1 0).main.blk = .none := by decide
/-- The refusal as `pairRefusal` says it, on both. -/
theorem test_refusal : ((pairing1 false false .pairing).refusePair 1).seat 1 0 = answered ((pairing1 false false .pairing).seat 1 0) 3 false ∧
    (pairingHeld.refusePair 1).seat 1 0 = answered (pairingHeld.seat 1 0) 3 false ∧ (pairingHeld.refusePair 1).core 0 = pairingHeld.core 0 := by decide +kernel
/-- A second thread on a core. -/
def crowded (c : Nat) (s : State) : State := s.modSeat c 1 (fun x => { x with occ := .thread, main := { x.main with live := true } })
theorem test_meets_Crowded :
    (crowded 0 pairSt).myCore.onlySeat = none ∧ ((crowded 1 (pairing1 false false .pairing)).core 1).onlySeat = none ∧
    ((crowded 1 (pairing1 false false .pairing)).core 1).pairAsker = some 0 ∧ neighbour 0 3 1 = none ∧ neighbour 0 0 1 = some 1 ∧
    (pairSt.modModule (fun m => { m with links := [] })).holdsCore 3 1 = false ∧
    (∃ q, ((pairing1 false false .none).core 1).pair = some q ∧ ((pairing1 false false .none).core 1).pairAsker = none ∧ q.on = false) :=
  ⟨by decide, by decide, by decide, by decide, by decide, by decide, ⟨_, rfl, by decide, by decide⟩⟩
theorem test_meets_GangMembers :
    0 ∈ (oneFollows.core 1).askers 0 ∧ (oneFollows.seat 1 0).asks = some (0, 2, 1, 2) ∧ (oneFollows.core 1).joins 0 2 1 = some 0 ∧
    (let u := oneFollows.startGang 0 2 1 [1]
     (u.core 1).gang = some { leader := 0, w := 2, h := 1, seat := 0, gdone := false, ret := (answered (oneFollows.seat 1 0) 2 true).main.pc } ∧
       u.seat 1 0 = { answered (oneFollows.seat 1 0) 2 true with lead := false, gang := true }) ∧
    (oneFollows.refuseGang 0 [1]).seat 1 0 = answered (oneFollows.seat 1 0) 2 false ∧
    (∃ g, (gangSt.core 0).gang = some g ∧ g.leader = 0 ∧ g.seat < 4) :=
  ⟨by decide, by decide, by decide, ⟨by decide, by decide⟩, by decide, ⟨_, rfl, by decide, by decide⟩⟩
theorem test_gang_end :
    let t := (oneFollows.startGang 0 2 1 [1]).modSeat 1 0 (fun x => { x with main := { x.main with pc := ⟨9, 9⟩ } })
    ((t.endGang 0).seat 1 0).main.pc = ⟨(oneFollows.seat 1 0).main.pc.seg, (oneFollows.seat 1 0).main.pc.idx + 1⟩ ∧ ((t.endGang 0).core 1).gang = none := by decide
theorem test_meets_OtherShapes :
    (oneFollows.modStrand { core := 1, seat := 0 } (fun t => { t with blk := .following 0 3 1 2 })).otherShapes 0 2 1 1 = [0, 1, 2] ∧
    oneFollows.otherShapes 0 2 1 0 = [] ∧ oneFollows.rectangle 0 127 2 1 = none ∧ oneFollows.rectangle 0 1 1 1 = some [1] := by decide
theorem test_meets_TlbinvWaits :
    UnderWay { base with flight := [{ ownStore with vdev := 0, pieces := [{ home := .slice 0, addr := 0, va := 0, len := 1, vdev := 0, dom := 3, win := false, tdom := 3 }] }] }
      .dom 0 3 0 ∧ (gateSt.quota 0).dcap ≤ 4 ∧ (tiles .fp32).myCore.hinst = none :=
  ⟨⟨_, List.mem_singleton.mpr rfl, rfl, _, List.mem_singleton.mpr rfl, by decide, fun n h => (nomatch h), rfl⟩, by decide, by decide⟩
theorem test_meets_SigcoreRes :
    let s := pairSt.modSeat 1 0 (fun x => { x with image := 2 ^ 40 + 2048 })
    (s.savedImage 0 1 (2 ^ 40 + 2048)).map (fun i => (i.core, i.seat)) = some (1, 0) ∧ (2 ^ 40 + 2049) % 64 ≠ 0 ∧ s.mapped 20000 = false ∧
    (∀ i ∈ (s.vd 0).saved, ¬ (i.core = 0 ∧ i.image = 5)) ∧ (s.core 1).halted = false := by decide

/-! The dispatcher, the host, the management core, the step -/

/-- `tiles` with a copy command under way from an address. -/
def copying (src : Nat) : State := host0.modQueue 0 0 (fun x => { x with state := .run, copy := some { src := src, dst := 2 ^ 40 + 3072, left := 16, seq := 1 } })
theorem test_meets_CopyFault :
    (∃ t u, unitRead none ((copying (2 ^ 41)).qWho 0 0) (2 ^ 41) 16 (copying (2 ^ 41)) = .error (.trap t) u) ∧
    ((copying (2 ^ 41)).queue 0 0).copy = some { src := 2 ^ 41, dst := 2 ^ 40 + 3072, left := 16, seq := 1 } := ⟨⟨_, _, rfl⟩, by decide⟩
theorem test_meets_EarlierWaits : ¬ EarlierStarted waiting 0 0 ∧ host0.domLive 0 (host0.queue 0 0).qown = true ∧
    (let s := host0.modQueue 0 0 (fun x => { x with qown := 3 }); s.domLive 0 (s.queue 0 0).qown = false) :=
  ⟨fun h => absurd (h launch1 (List.mem_singleton.mpr rfl) rfl rfl) (by decide), by decide, by decide⟩
/-- `pullOwn` with a launch whose overflow list starts in the page that is still to be pulled. -/
def listSt : State := { pullOwn with launches := [{ launch0 with rcd := { launch0.rcd with savebase := 2 ^ 41 } }] }
theorem test_meets_Kills :
    host0.queueRegs 0 0 = true ∧ ((host0.modQueue 0 0 (fun x => { x with qkstat := 1, qkleft := true, qkdom := true })).queue 0 0).qkleft = true ∧
    (host0.queue 0 0).qown = 0 ∧ ((host0.modQueue 0 0 (fun x => { x with qown := 3 })).queue 0 0).qown ≠ 0 ∧ host0.listsWait [] = none ∧
    (listSt.listsWait listSt.launches).isSome = true ∧ host0.tablesHeld 0 = false ∧
    (let s := { gateSt with snoops := [(4 * sliceBytes / 64, ())] }; s.tablesHeld 0 = true) := by decide +kernel
theorem test_meets_Candidates :
    let s := (waiting.noteMet)
    (∃ l ∈ s.launches, l ∈ s.candidates 0 ∧ s.seatsFree l = true ∧ s.chosen 0 = some l) ∧
    (let t := waiting.noteMet
     let bad : Launch := { launch1 with rcd := { launch1.rcd with codeaddr := 2 ^ 41 } }
     (∃ n u, startLaunch bad { t with launches := [bad] } = .ok (n + 1) u)) ∧
    (let f := (upto 4).filter (fun k => (starting.seat 0 k).occ == .free); 1 ≤ f.length ∧ f[0]? = some 1) :=
  ⟨⟨_, List.mem_singleton.mpr rfl, by decide, by decide, by decide⟩, ⟨_, _, rfl⟩, by decide⟩
theorem test_meets_Overruns :
    let s := regSt 100 0
    let u := s.postEvent 0 (event 0 8 3 20 0)
    (s.reg 3).arm = true ∧ (s.reg 3).next ≤ s.modl.rclk ∧ 1 ≤ (s.reg 3).period ∧ (s.reg 3).period < s.modl.rclk - (s.reg 3).next ∧
    s.modl.rclk < 2 ^ 63 ∧ (s.reg 3).period ≤ 2 ^ 40 ∧ (s.reg 3).infl = 0 ∧ (s.modl.rclk - (s.reg 3).next) / (s.reg 3).period = 20 ∧
    u.queueIs 0 0 = true ∧
    (∃ bs t n v, unitRead none (u.qWho 0 0) (2 ^ 40 + 2048) 128 u = .ok bs t ∧ submit
      { lid := 0, vdev := 0, queue := 0, base := (u.queue 0 0).qown, rcd := LRec.ofBytes bs, addr := 2 ^ 40 + 2048, slot := some 3 } t = .ok n v) ∧
    (∃ e t, unitRead none (u.qWho 0 0) (2 ^ 41) 128 u = .error (.trap e) t) ∧ ∃ e t, unitRead none (s.qWho 0 0) (2 ^ 41) 128 s = .error (.trap e) t :=
  ⟨by decide, by decide, by decide, by decide, by decide, by decide, by decide, by decide, by decide, ⟨_, _, _, _, rfl, rfl⟩, ⟨_, _, rfl⟩, ⟨_, _, rfl⟩⟩
theorem test_meets_HostWrites :
    host0.queueRegs 0 0 = true ∧ (host0.modQueue 0 0 (fun x => { x with qkstat := 1 })).portOpen 0 = true ∧ (host0.quota 1).active = false ∧ host0.queueRegs 1 5 = true ∧
    pfOnly .qtsel = true ∧ (host0.vd 0).prop.cpstat ≠ 1 ∧ ((accepted host0 0).vd 0).prop.cpstat = 1 ∧ host0.modl.qtstat ≠ 1 ∧
    isCounter .eccc = true ∧ ((host0.modVd 0 (fun v => { v with loader := { v.loader with ldstate := 1 } })).vd 0).loader.ldstate = 1 ∧
    host0.listsWait (host0.launches.filter (fun l => l.vdev == 0)) = none ∧ (quotaSt 1 quotaImg).tablesHeld 1 = false ∧
    ({ quotaSt 1 quotaImg with quotas := mapPut 1 { (quotaSt 1 quotaImg).quota 1 with active := true, gcap := 1, gbase := 16384 } (quotaSt 1 quotaImg).quotas, snoops := [(4 * sliceBytes / 64, ())] } : State).tablesHeld 1 = true := by
  decide +kernel
theorem test_meets_HostPull :
    pullOwn.portOpen 0 = true ∧ pullOwn.modPage 0 65536 = some 196608 ∧ (pullOwn.owner 196608).state = 1 ∧ (pullOwn.owner 196608).hostvis = true ∧
    (pullOwn.owner 196608).pull = true ∧ (pullOwn.owner 196608).vdev = 0 ∧ pullOwn.dpaHome 0 65536 = some (0, 8192) ∧
    ((ownSt.setOwner 196608 { ownSt.owner 196608 with hostvis := false }).owner 196608).hostvis = false ∧
    0 * 64 / sliceBytes ∈ (ownSt.quota 0).sliceList ∧
    (match unitRead none space0.who (2 ^ 41 + 65536) 8 ownSt with | .error (.trap _) _ => true | _ => false) = true ∧
    ({ ownSt with dpoison := [(8192 / 64, ())] } : State).homePartBad (.slice 0) 8192 8 = true := by decide +kernel
theorem test_meets_HeldAccesses :
    (∃ x, (storing.access (acc0 storing).num).bind (fun a => a.pieces[0]?) = some x ∧ x.sent = true) ∧
    (∀ x ∈ [HeldAcc.piece 1 2], x.isUnit = false) ∧ pullSt.pageSnooped 0 5 = false := ⟨⟨_, rfl, by decide⟩, by decide, by decide⟩
theorem test_meets_BusyPages :
    let p := (accepted (pageSt 0) 0)
    let r : Reclaim := { page := 5, next := { state := 1 }, prop := some 0 }
    (p.vd 0).prop.cpstat = 1 ∧ (p.vd 0).prop.cpkind = 1 ∧ (p.vd 0).tdi = .unlocked ∧ ({ p with reclaims := [r] } : State).filling 0 = true ∧
    p.filling 0 = false ∧ ({ p with reclaims := [r] } : State).reclaims.find? (fun x => x.page == 5) = some r ∧
    (p.setOwner 5 {}).pageCode 0 5 0 0 = 0 ∧ p.pageSnooped 0 5 = false ∧ p.pageCode 0 5 0 4000 ≠ 0 ∧
    ((p.modVd 0 (fun v => { v with tdi := .error })).vd 0).tdi = .error ∧ (p.vd 0).prop.cpcnt ≤ (p.vd 0).prop.cpdone + 1 := by decide +kernel
theorem test_meets_DomainProposals :
    let s := (gateSt.modVd 0 (fun v => { v with ide := true, prop := { cpkind := 2, cpent := 3, cproot := 4096 } }))
    Takes s 0 2 none s ∧ (s.vd 0).prop.cpent.toNat < 2 ^ 16 ∧ (s.vd 0).prop.cproot.toNat % 4096 = 0 ∧ (accepted s 0).tablesHeld 0 = false ∧
    ({ accepted s 0 with snoops := [(4 * sliceBytes / 64, ())] } : State).tablesHeld 0 = true ∧ s.dpaHome 0 (2 ^ 50) = none :=
  ⟨⟨by decide, by decide +kernel, by decide +kernel, by decide +kernel, by decide +kernel, rfl⟩, by decide +kernel, by decide +kernel, by decide +kernel, by decide +kernel, by decide +kernel⟩
theorem test_meets_InterfaceStops :
    let s := tdiSt .run 0
    s.listsWait (s.launches.filter (fun l => l.vdev == 1)) = none ∧ ((s.killQueues 1).reclaimAll (fun o => o.vdev == 1)).tablesHeld 1 = false ∧
    (s.vd 1).ide = true ∧ (fwSt (some [1]) true).fwBoundary 5 = true ∧
    ((fwSt (some [1]) true).modFw 5 (fun x => { x with staged := some [1], act := true })).fw 5 = { staged := some [1], act := true } ∧
    ((fwSt (some [1]) true).modFw 5 (fun x => { x with next := 274 })).fw 5 = { next := 274 } := by decide +kernel
theorem test_meets_Moves :
    (turnSt (.reach none)).modl.tripped = false ∧ (turnSt (.flaw .dram 0 true)).agenda = .flaw .dram 0 true :: [] ∧
    (turnSt (.flits 3 true 2)).agenda = .flits 3 true 2 :: [] ∧ ((turnSt (.pass 1 1)).modModule (fun m => { m with tripped := true })).modl.tripped = true ∧
    (let s := turnSt (.port 0 0)
     let a : Agent := { core := 0, seat := 0, strn := .main }
     (∀ r ∈ (s.seat 0 0).reports, r.1 ≠ a.strn) ∧ (s.core 0).leads 0 0 = none) := by decide

end Sys2Proof.Tests
end

section
/-! PROOFS. What reset leaves (R2, R413), and the events of links, spare cores, time, heat and dies (R165, R195, R401, R413, R414). -/
namespace Sys2Proof.Machine

/-! ### Sparse data -/

section
variable {α : Type}

@[simp] theorem mapGet_nil (d : α) (k : Nat) : mapGet d k [] = d := rfl

@[simp] theorem memRead_nil (a : Nat) : memRead [] a = 0 := rfl

@[simp] theorem vget_replicate (n i : Nat) (d : α) : vget (Vector.replicate n d) i d = d := by
  by_cases h : i < n
  · simp [vget, h]
  · exact vget_ge _ (Nat.le_of_not_lt h) d

/-- A change of every entry that keeps the default changes what each key reads as. -/
theorem mapGet_mapVals (f : Nat → α → α) {d : α} {k : Nat} (hd : f k d = d) (m : List (Nat × α)) :
    mapGet d k (mapVals f m) = f k (mapGet d k m) := by
  induction m with
  | nil => simp [mapVals, hd]
  | cons e m ih =>
    obtain ⟨j, v⟩ := e
    by_cases hj : j = k
    · simp [mapGet, mapVals, mapFind, hj]
    · simpa [mapGet, mapVals, mapFind, hj] using ih

/-- A filter by key hides the entries at the keys that it refuses. -/
theorem mapFind_filter_key_of_false {p : Nat → Bool} {k : Nat} (hk : p k = false) (m : List (Nat × α)) :
    mapFind k (m.filter (fun e => p e.1)) = none := by
  induction m with
  | nil => rfl
  | cons e m ih =>
    obtain ⟨j, v⟩ := e
    cases hj : p j with
    | false => simpa [hj] using ih
    | true =>
      have hne : j ≠ k := by rintro rfl; simp [hk] at hj
      simpa [hj, mapFind, hne] using ih

theorem memRead_filter_key_of_false {p : Nat → Bool} {a : Nat} (ha : p a = false) (m : Memory) :
    memRead (m.filter (fun e => p e.1)) a = 0 := by
  simp [memRead, mapGet, mapFind_filter_key_of_false ha, unwritten]
end

/-! ### The state after reset -/

@[simp] theorem State.reset_core (c : Nat) : State.reset.core c = {} := rfl

@[simp] theorem State.reset_seat (c k : Nat) : State.reset.seat c k = {} := by
  simp [State.seat, Core.seat]

/-- Of a core as at reset every seat's STATUS has p0 alone (R75). -/
theorem Core.status_empty (k : Nat) : ({} : Core).status k = 1 := by
  simp [Core.status, Core.seat]

/-- Of a seat as at reset p0 alone is 1 (R73, R75). -/
theorem Seat.p_empty (n : Nat) : ({} : Seat).p n = decide (n = 0) := by
  by_cases h : n = 0 <;> simp [Seat.p, h]

theorem dieIdx_lt (c : Nat) : dieIdx c < 4096 := by
  unfold dieIdx; omega

/-- At reset entry i of a die's table is mapped to the die's physical core i (R164). -/
theorem State.reset_lptEntry (d i : Nat) : State.reset.lptEntry d i = BitVec.ofNat 16 (0x8000 + i) := rfl

theorem State.reset_mapped {c : Nat} (h : c < 16128) : State.reset.mapped c = true := by
  have hi := dieIdx_lt c
  have hbit : (0x8000 + dieIdx c).testBit 15 = true := by
    rw [Nat.testBit_eq_decide_div_mod_eq, decide_eq_true_eq]; omega
  rw [State.mapped, State.reset_lptEntry, BitVec.getLsbD_ofNat, hbit]
  simp [nCores, h]

theorem State.reset_coreId (c : Nat) : State.reset.coreId c = dieIdx c * 2 ^ 16 + dieOf c * 2 ^ 14 + c := by
  have hi := dieIdx_lt c
  have hphys : (0x8000 + dieIdx c) % 2 ^ 16 % 4096 = dieIdx c := by omega
  rw [State.coreId, State.reset_lptEntry, BitVec.toNat_ofNat, hphys]

/-- A cold reset leaves of a subsystem's firmware its running image (R411). -/
theorem fw_moduleColdReset {s t : State} (h : exec .moduleColdReset s = .next t) (k : Nat) : t.fw k = (s.fw k).kept := by
  cases h
  exact mapGet_mapVals (fun _ (f : FwSub) => f.kept) rfl s.modl.fws

/-! ### Links (R401) -/

/-- The link exists and is not retired. -/
def State.liveLink (s : State) (k : Nat) : Prop := k < 274 ∧ (s.link k).retired = false

theorem State.not_liveLink_iff (s : State) (k : Nat) : ¬ s.liveLink k ↔ nLinks ≤ k ∨ (s.link k).retired = true := by
  cases h : (s.link k).retired <;> simp [State.liveLink, nLinks, h]

/-- An event that names a link does nothing unless the link is live. -/
theorem exists_next_of_liveLink (s t : State) (k : Nat) :
    ∃ u, (Host.Outcome.next (if nLinks ≤ k ∨ (s.link k).retired = true then s else t) : Out) = .next u ∧
      (¬ s.liveLink k → u = s) ∧ (s.liveLink k → u = t) := by
  refine ⟨_, rfl, fun hdead => if_pos ?_, fun hlive => if_neg ?_⟩
  · exact (s.not_liveLink_iff k).mp hdead
  · exact fun hd => (s.not_liveLink_iff k).mpr hd hlive

/-- A trained link is not as at reset, for it has had a key. -/
theorem Link.trained_ne_default (l : Link) : l.trained ≠ {} := by
  simp [Link.trained]

theorem State.link_setLink_self (s : State) (k : Nat) {l : Link} (hl : l ≠ {}) : (s.setLink k l).link k = l := by
  simp [State.link, State.setLink, State.modModule, mapSet, hl]

theorem State.link_setLink_ne (s : State) {k m : Nat} (h : m ≠ k) (l : Link) : (s.setLink k l).link m = s.link m :=
  mapGet_mapSet_ne ({} : Link) h l s.modl.links

/-- The link after training, where it is named and not retired. -/
def Link.trainedIf (named : Bool) (l : Link) : Link := if named && !l.retired then l.trained else l

/-- One link's part of `State.retrain`. -/
def State.retrainOne (p : Nat → Bool) (s : State) (n : Nat) : State :=
  if p n && !(s.link n).retired then s.setLink n (s.link n).trained else s

theorem State.retrain_eq_foldl (s : State) (p : Nat → Bool) :
    s.retrain p = (upto nLinks).foldl (State.retrainOne p) s := rfl

theorem State.link_retrainOne_self (p : Nat → Bool) (s : State) (n : Nat) :
    (s.retrainOne p n).link n = (s.link n).trainedIf (p n) := by
  unfold State.retrainOne Link.trainedIf
  split
  · exact s.link_setLink_self n (s.link n).trained_ne_default
  · rfl

theorem State.link_retrainOne_ne (p : Nat → Bool) (s : State) {n m : Nat} (h : m ≠ n) :
    (s.retrainOne p n).link m = s.link m := by
  unfold State.retrainOne
  split
  · exact s.link_setLink_ne h _
  · rfl

theorem State.link_foldl_retrainOne (p : Nat → Bool) (m : Nat) {ns : List Nat} (hns : ns.Nodup) (s : State) :
    (ns.foldl (State.retrainOne p) s).link m = (s.link m).trainedIf (decide (m ∈ ns) && p m) := by
  induction ns generalizing s with
  | nil => rfl
  | cons n ns ih =>
    obtain ⟨hn, hns⟩ := List.nodup_cons.mp hns
    rw [List.foldl_cons, ih hns]
    by_cases hm : m = n
    · subst hm
      rw [s.link_retrainOne_self]
      simp [hn, Link.trainedIf]
    · rw [s.link_retrainOne_ne p hm]
      simp [hm]

/-- A link after those that a test names have trained (R401). -/
theorem State.link_retrain (s : State) (p : Nat → Bool) (m : Nat) :
    (s.retrain p).link m = (s.link m).trainedIf (decide (m < 274) && p m) := by
  have hmem : decide (m ∈ upto nLinks) = decide (m < 274) := decide_eq_decide.mpr List.mem_range
  rw [s.retrain_eq_foldl, ← hmem]
  exact State.link_foldl_retrainOne p m List.nodup_range s

theorem State.modModule_links_retrainOne (s : State) (p : Nat → Bool) (n : Nat) (lks : List (Nat × Link)) :
    (s.retrainOne p n).modModule (fun m => { m with links := lks }) = s.modModule (fun m => { m with links := lks }) := by
  unfold State.retrainOne
  split <;> rfl

/-- Training changes nothing but the links. -/
theorem State.retrain_eq_modModule (s : State) (p : Nat → Bool) :
    s.retrain p = s.modModule (fun m => { m with links := (s.retrain p).modl.links }) := by
  rw [s.retrain_eq_foldl]
  generalize upto nLinks = ns
  induction ns generalizing s with
  | nil => rfl
  | cons n ns ih => exact (ih (s.retrainOne p n)).trans (s.modModule_links_retrainOne p n _)

/-- The mesh links of a die are those on the shared edges that it has (R14). -/
theorem linkOf_eq_mem_dies (die m : Nat) : linkOf die m = decide (m < 256 ∧ die ∈ Say.dies m) := by
  by_cases hm : m < 256
  · have hq : m / 64 < 4 := by omega
    simp only [linkOf, linkEdge, edgeDies, Say.dies, hm]
    interval_cases m / 64 <;> simp [beq_eq_decide, eq_comm (b := die)]
  · simp [linkOf, hm]

/-- A link after the links of a die have trained (R413). -/
theorem State.link_retrain_linkOf (s : State) (die m : Nat) :
    (s.retrain (linkOf die)).link m =
      if m < 256 ∧ die ∈ Say.dies m ∧ (s.link m).retired = false then (s.link m).trained else s.link m := by
  have hnamed : (decide (m < 274) && linkOf die m) = decide (m < 256 ∧ die ∈ Say.dies m) := by
    rw [linkOf_eq_mem_dies, ← Bool.decide_and, decide_eq_decide]
    exact and_iff_right_of_imp fun ⟨hm, _⟩ => hm.trans (by decide)
  rw [s.link_retrain, hnamed, Link.trainedIf]
  simp [and_assoc]

/-! ### Spare cores (R165) -/

/-- The spare taken is the lowest that is free. -/
theorem State.spare_eq_some {s : State} {d j : Nat} (hj : j < 64) (hfree : (s.detour d j).getLsbD 31 = false)
    (hlow : ∀ i, i < j → (s.detour d i).getLsbD 31 = true) : s.spare d = some j :=
  List.find?_range_eq_some.mpr
    ⟨by rw [hfree]; rfl, List.mem_range.mpr hj, fun i hi => by rw [hlow i hi]; rfl⟩

theorem State.spare_eq_none {s : State} {d : Nat} (h : ∀ i, i < 64 → (s.detour d i).getLsbD 31 = true) :
    s.spare d = none :=
  List.find?_eq_none.mpr fun i hi => by rw [h i (List.mem_range.mp hi)]; decide

theorem State.lmem_emptyCores_self (s : State) (n : Nat) {i : Nat} (hi : i < 2 ^ 18) :
    memRead (s.emptyCores (fun m => m == n)).lmem (lkey n i) = 0 := by
  have hcore : lkey n i / 2 ^ 18 = n := by unfold lkey; omega
  exact memRead_filter_key_of_false (p := fun a => !(a / 2 ^ 18 == n)) (by rw [hcore]; simp) s.lmem

theorem State.acc_emptyCores_self (s : State) (n : Nat) {i : Nat} (hi : i < 131072) :
    memRead (s.emptyCores (fun m => m == n)).acc (n * 131072 + i) = 0 := by
  have hcore : (n * 131072 + i) / 131072 = n := by omega
  exact memRead_filter_key_of_false (p := fun a => !(a / 131072 == n)) (by rw [hcore]; simp) s.acc

/-- The physical core that a logical one has. -/
def State.physical (s : State) (n : Nat) : Nat := (s.lptEntry (dieOf n) (dieIdx n)).toNat % 4096

/-- The state with core `n` on spare `k` of its die, before the event is posted. -/
def State.onSpare (s : State) (n k : Nat) : State :=
  { (s.emptyCores (fun m => m == n)).modCore n Core.onSpare with
    route := mapPut (dieOf n * 64 + k) (BitVec.ofNat 32 (2 ^ 31 + k * 2 ^ 24 + s.physical n * 2 ^ 12 + dieIdx n)) s.route
    lpt := mapPut (dieOf n * 4096 + dieIdx n) (BitVec.ofNat 16 (0x8000 + (4032 + k))) s.lpt }

/-- The state with core `n` unmapped, before the event is posted. -/
def State.unmapCore (s : State) (n : Nat) : State :=
  { s.modCore n (fun x => { x with retiring := false }) with
    lpt := mapPut (dieOf n * 4096 + dieIdx n) (BitVec.ofNat 16 (s.physical n)) s.lpt }

theorem State.replaceCore_of_spare {s : State} {n k : Nat} (h : s.spare (dieOf n) = some k) :
    s.replaceCore n = (s.onSpare n k).postEvent (mapGet 0 (n / 128) s.rowVd) (event 0 5 n (s.physical n) (4032 + k)) := by
  simp only [State.replaceCore, h]
  rfl

theorem State.replaceCore_of_none {s : State} {n : Nat} (h : s.spare (dieOf n) = none) :
    s.replaceCore n =
      (s.unmapCore n).postEvent (mapGet 0 (n / 128) s.rowVd) (event 0 5 n (s.physical n) (s.physical n)) := by
  simp only [State.replaceCore, h]
  rfl

theorem State.core_onSpare_self (s : State) (n k : Nat) : (s.onSpare n k).core n = (s.core n).onSpare :=
  (s.emptyCores (fun m => m == n)).core_modCore_self n Core.onSpare

theorem State.core_onSpare_ne (s : State) {n c : Nat} (h : c ≠ n) (k : Nat) : (s.onSpare n k).core c = s.core c :=
  (s.emptyCores (fun m => m == n)).core_modCore_ne h Core.onSpare

theorem State.lptEntry_onSpare (s : State) (n k : Nat) :
    (s.onSpare n k).lptEntry (dieOf n) (dieIdx n) = BitVec.ofNat 16 (0x8000 + 4032 + k) := by
  rw [Nat.add_assoc]
  exact mapGet_mapPut_self _ _ _ _

theorem State.detour_onSpare (s : State) (n k : Nat) :
    (s.onSpare n k).detour (dieOf n) k = BitVec.ofNat 32 (2 ^ 31 + k * 2 ^ 24 + s.physical n * 2 ^ 12 + dieIdx n) :=
  mapGet_mapPut_self _ _ _ _

theorem exec_coreRetire_of_unmapped {n : Nat} {s : State} (h : s.mapped n = false) :
    exec (.coreRetire n) s = .next s := by
  show execCoreRetire n s = _
  simp [execCoreRetire, h]

theorem exec_coreRetire_of_running {n : Nat} {s : State} (h : s.mapped n = true) (hr : (s.core n).running = true) :
    exec (.coreRetire n) s = .next ((s.modCore n (fun x => { x with retiring := true })).preempt n .retire) := by
  show execCoreRetire n s = _
  simp [execCoreRetire, h, hr]

theorem exec_coreRetire_of_empty {n : Nat} {s : State} (h : s.mapped n = true) (hr : (s.core n).running = false) :
    exec (.coreRetire n) s = .next (s.replaceCore n) := by
  show execCoreRetire n s = _
  simp [execCoreRetire, h, hr]

/-! ### Time (R195) -/

/-- By how much RCLK departs from the time that has passed, at a synchronisation. -/
def slewOf (synced : Bool) (offset : Int) (elapsed : Nat) : Int :=
  let most : Int := if synced then (elapsed * 200 / 1000000 : Nat) else 0
  if 1000000 < offset then offset else max (-most) (min most offset)

/-- RCLK after a synchronisation. -/
def Module.syncedClock (m : Module) (offset : Int) (elapsed : Nat) : Nat :=
  (m.rclk + ((elapsed : Int) + slewOf m.synced offset elapsed).toNat) % 2 ^ 64

theorem exec_ptpSync (offset : Int) (elapsed : Nat) (s : State) :
    exec (.ptpSync offset elapsed) s =
      .next (s.noteMet.modModule (fun m => { m with rclk := m.syncedClock offset elapsed, synced := true })) := rfl

/-- A slew stays within 200 ppm of the time that has passed. -/
theorem slewOf_bounds {offset : Int} (h : offset ≤ 1000000) (synced : Bool) (elapsed : Nat) :
    -((elapsed * 200 / 1000000 : Nat) : Int) ≤ slewOf synced offset elapsed ∧
      slewOf synced offset elapsed ≤ (elapsed * 200 / 1000000 : Nat) := by
  have hslew : ¬ 1000000 < offset := by omega
  cases synced <;> simp only [slewOf, hslew, if_true, if_false, Bool.false_eq_true] <;> omega

theorem slewOf_unsynced {offset : Int} (h : offset ≤ 1000000) (elapsed : Nat) : slewOf false offset elapsed = 0 := by
  have hslew : ¬ 1000000 < offset := by omega
  simp only [slewOf, hslew, if_false, Bool.false_eq_true]
  omega

theorem Module.syncedClock_bounds {m : Module} {offset : Int} {elapsed : Nat}
    (hlt : m.rclk + elapsed + elapsed * 200 / 1000000 + 1000000 < 2 ^ 64) (h : offset ≤ 1000000) :
    m.rclk + elapsed - elapsed * 200 / 1000000 ≤ m.syncedClock offset elapsed ∧
      m.syncedClock offset elapsed ≤ m.rclk + elapsed + elapsed * 200 / 1000000 ∧ m.rclk ≤ m.syncedClock offset elapsed := by
  obtain ⟨hlow, hhigh⟩ := slewOf_bounds h m.synced elapsed
  rw [Module.syncedClock, Nat.mod_eq_of_lt (by omega)]
  omega

/-- Before the first synchronisation RCLK counts the time that has passed. -/
theorem Module.syncedClock_unsynced {m : Module} {offset : Int} (hm : m.synced = false) (h : offset ≤ 1000000) (elapsed : Nat) :
    m.syncedClock offset elapsed = (m.rclk + elapsed) % 2 ^ 64 := by
  simp [Module.syncedClock, hm, slewOf_unsynced h]

/-- More than 1 ms ahead is a step. -/
theorem Module.syncedClock_step (m : Module) {offset : Int} (h : 1000000 < offset) (elapsed : Nat) :
    m.syncedClock offset elapsed = (m.rclk + elapsed + offset.toNat) % 2 ^ 64 := by
  have hsum : m.rclk + ((elapsed : Int) + offset).toNat = m.rclk + elapsed + offset.toNat := by omega
  rw [Module.syncedClock, slewOf, if_pos h, hsum]

/-! ### Power and die resets (R413, R414) -/

theorem exec_powerLimitStep_down (power : Nat) (s : State) :
    exec (.powerLimitStep ⟨false, power⟩) s = .next
      (if s.modl.powerLimit < power then s.modModule (fun m => { m with clock := max 4 (m.clock - 1) }) else s) := by
  show execPowerLimitStep _ s = _
  by_cases h : s.modl.powerLimit < power <;> simp [execPowerLimitStep, State.modModule, h, clockMin]

theorem exec_powerLimitStep_up (power : Nat) (s : State) :
    exec (.powerLimitStep ⟨true, power⟩) s = .next
      (if power ≤ s.modl.powerLimit ∧ s.modl.hot = false then
        s.modModule (fun m => { m with clock := min 16 (m.clock + 1) }) else s) := by
  show execPowerLimitStep _ s = _
  by_cases h : power ≤ s.modl.powerLimit ∧ s.modl.hot = false <;> simp [execPowerLimitStep, State.modModule, h]

theorem exec_dieReset_of_ge {die : Nat} (h : 4 ≤ die) (reason : BitVec 64) (s : State) :
    exec (.dieReset die reason) s = .next s := by
  show execDieReset die reason s = _
  simp [execDieReset, h]

theorem exec_dieReset_of_lt {die : Nat} (h : die < 4) (reason : BitVec 64) (s : State) :
    exec (.dieReset die reason) s =
      .next (((upto 16).foldl (fun t v => if s.onDie v die then t.teardown v else t) (s.retrain (linkOf die))).postEvent 0
        (event 0 3 die reason.toNat 0)) := by
  have hdie : ¬ 4 ≤ die := by omega
  show execDieReset die reason s = _
  simp [execDieReset, hdie]

/-! ### The statements -/

/-- Settles O60: the reset state lists no byte of any memory. -/
theorem resetMemoryForm : Obligations.ResetMemoryForm :=
  ⟨⟨rfl, rfl, rfl, rfl, rfl⟩, fun a => ⟨memRead_nil a, memRead_nil a, memRead_nil a, memRead_nil a, memRead_nil a⟩⟩

/-- Settles O55: reset lists no core and no table entry, so each reads as its default; a cold reset is that state with the
fields of R413 and R411 put back. -/
theorem resetState : Obligations.ResetState := by
  refine ⟨fun c k => ?_, fun c hc => ⟨State.reset_mapped hc, State.reset_coreId c⟩, rfl, rfl, fun _ => rfl, fun s => ?_⟩
  · simp only [State.reset_seat, State.reset_core, Core.status_empty, Seat.p_empty]
    simp [Seat.view, Seat.reg, Seat.full, Core.dqCount]
  · refine ⟨_, rfl, rfl, rfl, rfl, rfl, rfl, rfl, rfl, rfl, rfl, rfl, rfl, rfl, rfl, rfl, fun k => ?_⟩
    rw [fw_moduleColdReset rfl k]
    exact ⟨rfl, rfl, rfl⟩

/-- Settles O54: event by event, from the laws above. -/
theorem moduleEvents : Obligations.ModuleEvents := by
  intro k n j temp flow elapsed die power offset reason s
  refine ⟨exists_next_of_liveLink s _ k, exists_next_of_liveLink s _ k, exists_next_of_liveLink s _ k, ?coreRetire, ?ptpSync,
    rfl, rfl, rfl, rfl, ?powerLimit, fun hdie => exec_dieReset_of_ge hdie reason s, fun hdie => ?dieReset⟩
  case coreRetire =>
    cases hm : s.mapped n with
    | false => exact ⟨s, exec_coreRetire_of_unmapped hm, fun _ => rfl, nofun, nofun⟩
    | true =>
      cases hr : (s.core n).running with
      | true => exact ⟨_, exec_coreRetire_of_running hm hr, nofun, fun _ _ => rfl, fun _ => nofun⟩
      | false =>
        refine ⟨_, exec_coreRetire_of_empty hm hr, nofun, fun _ => nofun, fun _ _ => ⟨fun hj hfree hlow => ?_, fun hfull => ?_⟩⟩
        · exact ⟨s.onSpare n j, State.replaceCore_of_spare (State.spare_eq_some hj hfree hlow), s.lptEntry_onSpare n j,
            s.detour_onSpare n j, s.core_onSpare_self n j, fun _ => s.lmem_emptyCores_self n,
            fun _ => s.acc_emptyCores_self n, fun _ hc => s.core_onSpare_ne hc j⟩
        · exact State.replaceCore_of_none (State.spare_eq_none hfull)
  case ptpSync =>
    exact ⟨_, exec_ptpSync offset elapsed s, rfl, rfl, rfl, Module.syncedClock_bounds,
      fun hm hoff => Module.syncedClock_unsynced hm hoff elapsed, fun hoff => s.modl.syncedClock_step hoff elapsed⟩
  case powerLimit =>
    rintro _ rfl
    exact ⟨exec_powerLimitStep_down power s, exec_powerLimitStep_up power s⟩
  case dieReset =>
    refine ⟨(s.retrain (linkOf die)).modl.links, s.link_retrain_linkOf die, ?_⟩
    rw [← s.retrain_eq_modModule]
    exact exec_dieReset_of_lt hdie reason s

end Sys2Proof.Machine
end

section
/-! PROOFS. One move of the machine: the word that a strand fetches, the issue port's choice, the step (R20, R215, R232). -/
namespace Sys2Proof.Machine

/-! ### The next instruction of a strand -/

/-- The twelve bytes of a core's local memory at a PC, as a word. -/
def State.codeWord (s : State) (c : Nat) (pc : Pc) : IWord :=
  BitVec.ofNat 96 (leNat ((upto 12).map (fun j => memRead s.lmem (lkey c (codeAddr pc + j)))))

/-- With an empty fetch buffer the word comes from local memory (R376). -/
theorem State.fetchWord_nil {s : State} {a : Agent} {pc : Pc} (hidx : pc.idx < (s.seat a.core a.seat).segb)
    (hok : localOkAt s a.core (codeAddr pc) 12 (s.seat a.core a.seat).who .x false false = true)
    (hclean : ∀ j, j < 12 → mapFind (lkey a.core (codeAddr pc + j) / 8) s.lpoison = none) :
    s.fetchWord a pc [] = .ok (s.codeWord a.core pc) := by
  have hpoison : (upto 12).find? (fun j => (mapFind (codeAddr pc + j) ([] : List (Nat × Byte))).isNone &&
      (mapFind (lkey a.core (codeAddr pc + j) / 8) s.lpoison).isSome) = none :=
    List.find?_eq_none.mpr fun j hj => by simp [hclean j (List.mem_range.mp hj)]
  simp only [State.fetchWord, Nat.not_le.mpr hidx, if_false, hok, Bool.not_true, Bool.false_eq_true, hpoison]
  rfl

/-- A word at its first repetition that decodes, in an operation that the strand accepts, passes the decode checks. -/
theorem checkWord_of_decode {k : StrandK} {r : Rep} {w : IWord} {i : Instr} (hr : r.count = 0) (hd : decode w = .ok i)
    (hk : strandOk k (fieldsOf w).opc = true) : checkWord k r w = .ok i := by
  have hf : ofFields (fieldsOf w) = .ok i := hd
  simp [checkWord, repShift, hr, hf, hk]

theorem State.nextInstr_of_word {s : State} {a : Agent} {w : IWord} {i : Instr}
    (hw : s.fetchWord a (s.strand a).pc (s.strand a).fbuf = .ok w) (hi : checkWord a.strn (s.strand a).rep w = .ok i) :
    s.nextInstr a = .ok i := by
  simp only [State.nextInstr, hw, hi]

theorem State.nextInstr_of_fetches {s : State} {a : Agent} {i : Instr} (h : Say.Fetches s a i) : s.nextInstr a = .ok i := by
  obtain ⟨hbuf, hrep, hidx, hok, hclean, hdec, hstrand⟩ := h
  have hword := State.fetchWord_nil (pc := (s.strand a).pc) hidx hok hclean
  rw [← (hbuf : (s.strand a).fbuf = [])] at hword
  exact State.nextInstr_of_word hword (checkWord_of_decode hrep hdec hstrand)

/-! ### One issue of a strand -/

/-- The state in which a strand issues. -/
def State.asIssuer (s : State) (a : Agent) : State := { s with cur := a, did := false }

section issue
variable {s : State} {a : Agent} {i : Instr} (pre : Nat) (hready : (s.asIssuer a).ready a = true)
  (hreports : ∀ r ∈ (s.seat a.core a.seat).reports, r.1 ≠ a.strn)
  (hlead : a.strn = .main → (s.core a.core).leads a.core a.seat = none) (hnext : (s.asIssuer a).nextInstr a = .ok i)
include hready hreports hlead hnext

/-- A ready strand without a report or a gang to lead issues its next instruction (R20, R315). -/
theorem State.issueAt_eq :
    (∀ t, exec i (s.asIssuer a) = .next t → s.issueAt a pre = .next (t.afterIssue a (s.strand a).pc i pre)) ∧
      (∀ f, exec i (s.asIssuer a) = .fault f → s.issueAt a pre = .fault f) ∧
      (∀ r, exec i (s.asIssuer a) = .refused r → s.issueAt a pre = .refused r) := by
  have hnolead : (if a.strn = .main then (s.core a.core).leads a.core a.seat else none) = none := by
    split
    · exact hlead ‹_›
    · rfl
  have hnoreport (b : Bool) :
      (if b then none else (s.seat a.core a.seat).reports.find? (fun r => r.1 == a.strn)) = none := by
    cases b with
    | true => rfl
    | false => exact List.find?_eq_none.mpr fun r hr => by simpa using hreports r hr
  have hcore (c : Nat) : State.core { s with cur := a, did := false } c = s.core c := rfl
  have hseat (c k : Nat) : State.seat { s with cur := a, did := false } c k = s.seat c k := rfl
  simp only [State.asIssuer] at *
  refine ⟨fun t ho => ?_, fun f ho => ?_, fun r ho => ?_⟩
  all_goals simp only [State.issueAt, hready, hcore, hseat, hnolead, hnoreport, hnext, ho, Option.bind_none, Bool.not_true,
    Bool.false_eq_true, if_false, Option.isSome_none, Bool.and_false]
  rfl
end issue

/-! ### The issue port -/

/-- Some element of a list that is not empty has the greatest value of a function. -/
theorem exists_mem_forall_le {l : List Nat} (f : Nat → Nat) (h : l ≠ []) : ∃ k ∈ l, ∀ j ∈ l, f j ≤ f k := by
  obtain ⟨k, hk, hmax⟩ := l.toFinset.exists_max_image f (List.toFinset_nonempty_iff l |>.mpr h)
  exact ⟨k, List.mem_toFinset.mp hk, fun j hj => hmax j (List.mem_toFinset.mpr hj)⟩

section choose
variable {x : Core} {ready : List Nat}

/-- The ready seats of age 16 or more, which go first (R20). -/
def Core.aged (x : Core) (ready : List Nat) : List Nat := ready.filter (fun k => decide (16 ≤ (x.seat k).age))

/-- The ready seats of the highest priority. -/
def Core.best (x : Core) (ready : List Nat) : List Nat :=
  ready.filter (fun k => ready.all (fun j => decide ((x.seat j).pri ≤ (x.seat k).pri)))

/-- The seats of the highest priority in round-robin order. -/
def Core.ties (x : Core) (ready : List Nat) : List Nat :=
  ((upto 4).map (fun i => (x.last + 1 + i) % 4)).filter (fun k => (x.best ready).contains k)

theorem Core.mem_aged {k : Nat} : k ∈ x.aged ready ↔ k ∈ ready ∧ 16 ≤ (x.seat k).age := by
  simp [Core.aged]

theorem Core.mem_best {k : Nat} : k ∈ x.best ready ↔ k ∈ ready ∧ ∀ j ∈ ready, (x.seat j).pri ≤ (x.seat k).pri := by
  simp [Core.best]

theorem Core.mem_ties {k : Nat} (hk : k < 4) : k ∈ x.ties ready ↔ k ∈ x.best ready := by
  have horder : k ∈ (upto 4).map (fun i => (x.last + 1 + i) % 4) :=
    List.mem_map.mpr ⟨(k + 3 * (x.last + 1)) % 4, List.mem_range.mpr (by omega), by omega⟩
  simp [Core.ties, List.mem_filter, horder]

theorem Core.mem_best_of_mem_ties {k : Nat} (h : k ∈ x.ties ready) : k ∈ x.best ready := by
  simpa using (List.mem_filter.mp h).2

/-- Where a ready seat has aged, the oldest one is chosen. -/
theorem Core.choose_of_aged (h : x.aged ready ≠ []) :
    ∃ k ∈ x.aged ready, x.choose ready = some k ∧ ∀ j ∈ x.aged ready, (x.seat j).age ≤ (x.seat k).age := by
  obtain ⟨m, hm, hmax⟩ := exists_mem_forall_le (fun k => (x.seat k).age) h
  have hfound : ((x.aged ready).find? (fun k => (x.aged ready).all (fun j => decide ((x.seat j).age ≤ (x.seat k).age)))).isSome :=
    List.find?_isSome.mpr ⟨m, hm, by simpa using hmax⟩
  obtain ⟨k, hk⟩ := Option.isSome_iff_exists.mp hfound
  refine ⟨k, List.mem_of_find?_eq_some hk, ?_, by simpa using List.find?_some hk⟩
  rw [← hk]
  unfold Core.choose
  change (match x.aged ready with
    | _ :: _ => (x.aged ready).find? (fun k => (x.aged ready).all (fun j => decide ((x.seat j).age ≤ (x.seat k).age)))
    | [] => _) = _
  split
  · rfl
  · exact absurd ‹x.aged ready = []› h

/-- Where none has aged, the choice is one of the highest priority; there is none only where no seat is of it. -/
theorem Core.choose_of_not_aged (h : x.aged ready = []) :
    (∀ k, x.choose ready = some k → k ∈ x.ties ready) ∧ (x.choose ready = none → x.ties ready = []) := by
  have hchoose : x.choose ready = ((x.ties ready).find? (fun k => !((x.seat k).yld && k == x.last))).or (x.ties ready).head? := by
    have h : ready.filter (fun k => decide (16 ≤ (x.seat k).age)) = [] := h
    unfold Core.choose
    simp only [h]
    change (match (x.ties ready).find? _ with | some k => some k | none => (x.ties ready).head?) = _
    cases (x.ties ready).find? (fun k => !((x.seat k).yld && k == x.last)) <;> rfl
  rw [hchoose]
  refine ⟨fun k hk => ?_, fun hn => ?_⟩
  · rcases Option.or_eq_some_iff.mp hk with hfind | ⟨-, hhead⟩
    · exact List.mem_of_find?_eq_some hfind
    · exact List.mem_of_mem_head? hhead
  · exact List.head?_eq_none_iff.mp (Option.or_eq_none_iff.mp hn).2

theorem Core.mem_of_choose {k : Nat} (h : x.choose ready = some k) : k ∈ ready := by
  by_cases haged : x.aged ready = []
  · exact (Core.mem_best.mp (Core.mem_best_of_mem_ties ((Core.choose_of_not_aged haged).1 k h))).1
  · obtain ⟨m, hm, hchoose, -⟩ := Core.choose_of_aged haged
    obtain rfl : m = k := by simpa [hchoose] using h
    exact (Core.mem_aged.mp hm).1

/-- R20: a seat that has aged is chosen before a younger one. -/
theorem Core.age_le_of_choose {k j : Nat} (h : x.choose ready = some k) (hj : j ∈ ready) (hage : 16 ≤ (x.seat j).age) :
    (x.seat j).age ≤ (x.seat k).age := by
  have hmem : j ∈ x.aged ready := Core.mem_aged.mpr ⟨hj, hage⟩
  obtain ⟨m, -, hchoose, hmax⟩ := Core.choose_of_aged (List.ne_nil_of_mem hmem)
  obtain rfl : m = k := by simpa [hchoose] using h
  exact hmax j hmem

/-- R20: while no seat has aged, the choice has the highest priority. -/
theorem Core.pri_le_of_choose {k j : Nat} (h : x.choose ready = some k) (hage : ∀ i ∈ ready, (x.seat i).age < 16)
    (hj : j ∈ ready) : (x.seat j).pri ≤ (x.seat k).pri := by
  have haged : x.aged ready = [] := List.eq_nil_iff_forall_not_mem.mpr fun i hi => by
    obtain ⟨hi, hold⟩ := Core.mem_aged.mp hi
    exact absurd hold (Nat.not_le.mpr (hage i hi))
  exact (Core.mem_best.mp (Core.mem_best_of_mem_ties ((Core.choose_of_not_aged haged).1 k h))).2 j hj

theorem Core.choose_eq_none_iff (hlt : ∀ k ∈ ready, k < 4) : x.choose ready = none ↔ ready = [] := by
  refine ⟨fun hnone => ?_, fun hnil => ?_⟩
  · by_contra hne
    by_cases haged : x.aged ready = []
    · obtain ⟨k, hk, hmax⟩ := exists_mem_forall_le (fun k => (x.seat k).pri) hne
      have htie : k ∈ x.ties ready := (Core.mem_ties (hlt k hk)).mpr (Core.mem_best.mpr ⟨hk, hmax⟩)
      rw [(Core.choose_of_not_aged haged).2 hnone] at htie
      exact absurd htie List.not_mem_nil
    · obtain ⟨m, -, hchoose, -⟩ := Core.choose_of_aged haged
      simp [hchoose] at hnone
  · cases hc : x.choose ready with
    | none => rfl
    | some k =>
      have hk := Core.mem_of_choose hc
      rw [hnil] at hk
      exact absurd hk List.not_mem_nil

theorem Core.choose_singleton {k : Nat} (h : k < 4) : x.choose [k] = some k := by
  cases hc : x.choose [k] with
  | none => exact absurd ((Core.choose_eq_none_iff (by simpa using h)).mp hc) (List.cons_ne_nil k [])
  | some j => rw [List.mem_singleton.mp (Core.mem_of_choose hc)]
end choose

/-! ### The ready seats -/

/-- One seat's part of `State.readySeats`. -/
def State.portTry (c pre : Nat) (r : State × List Nat) (k : Nat) : State × List Nat :=
  if r.1.ready { core := c, seat := k } then
    match r.1.unmet c k pre with
    | some t => (t, r.2)
    | none => (r.1, r.2 ++ [k])
  else r

theorem State.readySeats_eq_foldl (s : State) (c pre : Nat) : s.readySeats c pre = (upto 4).foldl (State.portTry c pre) (s, []) :=
  rfl

theorem State.portTry_of_not_ready {s : State} {c pre k : Nat} {ks : List Nat} (h : s.ready { core := c, seat := k } = false) :
    State.portTry c pre (s, ks) k = (s, ks) := by
  rw [State.portTry, h]
  rfl

theorem State.portTry_of_met {s : State} {c pre k : Nat} {ks : List Nat} (h : s.ready { core := c, seat := k } = true)
    (hmet : s.unmet c k pre = none) : State.portTry c pre (s, ks) k = (s, ks ++ [k]) := by
  rw [State.portTry, if_pos h, hmet]

theorem State.mem_portTry {c pre k j : Nat} {r : State × List Nat} (h : j ∈ (State.portTry c pre r k).2) : j ∈ r.2 ∨ j = k := by
  unfold State.portTry at h
  split at h
  · split at h
    · exact .inl h
    · simpa using h
  · exact .inl h

theorem State.mem_foldl_portTry {c pre j : Nat} {ks : List Nat} {r : State × List Nat}
    (h : j ∈ (ks.foldl (State.portTry c pre) r).2) : j ∈ r.2 ∨ j ∈ ks := by
  induction ks generalizing r with
  | nil => exact .inl h
  | cons k ks ih =>
    rcases ih h with hr | hks
    · exact (State.mem_portTry hr).imp_right fun (hk : j = k) => List.mem_cons.mpr (.inl hk)
    · exact .inr (List.mem_cons_of_mem k hks)

theorem State.lt_of_mem_readySeats {s : State} {c pre k : Nat} (h : k ∈ (s.readySeats c pre).2) : k < 4 :=
  List.mem_range.mp ((State.mem_foldl_portTry h).resolve_left List.not_mem_nil)

/-- Where one seat alone is ready and need not wait, it is the one that may issue. -/
theorem State.readySeats_eq_singleton {s : State} {c pre k : Nat} (hk : k < 4) (hready : s.ready { core := c, seat := k } = true)
    (hothers : ∀ j, j < 4 → j ≠ k → s.ready { core := c, seat := j } = false) (hmet : s.unmet c k pre = none) :
    s.readySeats c pre = (s, [k]) := by
  have hfold (l : List Nat) (hl : ∀ j ∈ l, j < 4) (ks : List Nat) :
      l.foldl (State.portTry c pre) (s, ks) = (s, ks ++ l.filter (· = k)) := by
    induction l generalizing ks with
    | nil => simp
    | cons j l ih =>
      have hl' : ∀ i ∈ l, i < 4 := fun i hi => hl i (List.mem_cons_of_mem j hi)
      by_cases hj : j = k
      · subst hj
        rw [List.foldl_cons, State.portTry_of_met hready hmet, ih hl']
        simp
      · rw [List.foldl_cons, State.portTry_of_not_ready (hothers j (hl j List.mem_cons_self) hj), ih hl']
        simp [hj]
  have hone : (upto 4).filter (· = k) = [k] := by interval_cases k <;> rfl
  rw [State.readySeats_eq_foldl, hfold (upto 4) (fun j => List.mem_range.mp), hone, List.nil_append]

/-! ### The step -/

theorem State.portAt_of_chosen {s s0 : State} {c pre k : Nat} {ready : List Nat} (hr : s.readySeats c pre = (s0, ready))
    (hk : (s0.core c).choose ready = some k) :
    s.portAt c pre = Say.issued (s0.modCore c (fun x => x.ages ready (some k))) c
      ((s0.modCore c (fun x => x.ages ready (some k))).issueAt { core := c, seat := k } pre) := by
  unfold State.portAt
  generalize s.readySeats c pre = r at hr
  subst hr
  dsimp only
  rw [hk]
  dsimp only
  cases (s0.modCore c (fun x => x.ages ready (some k))).issueAt { core := c, seat := k } pre <;> rfl

theorem State.portAt_of_none {s s0 : State} {c pre : Nat} {ready : List Nat} (hr : s.readySeats c pre = (s0, ready))
    (hk : (s0.core c).choose ready = none) : s.portAt c pre = .next (s0.modCore c (fun x => x.ages ready none)) := by
  unfold State.portAt
  generalize s.readySeats c pre = r at hr
  subst hr
  dsimp only
  rw [hk]

theorem runMove_eq_woken (m : Move) (s : State) : runMove m s = Say.woken m (act m s) := by
  unfold runMove
  cases act m s <;> rfl

theorem State.popMove_cons {s : State} {m : Move} {ms : List Move} (h : s.agenda = m :: ms) :
    s.popMove = (m, { s with agenda := ms }) := by
  simp only [State.popMove, h]

/-- A step makes the move at the head of the agenda. -/
theorem step_of_agenda {s : State} {m : Move} {ms : List Move} (h : s.agenda = m :: ms)
    (hgo : s.modl.tripped = false ∨ m = .event .moduleColdReset) :
    step s = Say.woken m (act m { s with agenda := ms }) := by
  have hrun : ¬ (s.modl.tripped ∧ m ≠ .event .moduleColdReset) := by
    rintro ⟨htrip, hm⟩
    rcases hgo with h | h
    · simp [h] at htrip
    · exact hm h
  rw [step, State.popMove_cons h, if_neg hrun, runMove_eq_woken]

/-- R413, R414: after a thermal trip a move that is no cold reset stops the machine. -/
theorem step_of_tripped {s : State} {m : Move} {ms : List Move} (h : s.agenda = m :: ms) (htrip : s.modl.tripped = true)
    (hm : m ≠ .event .moduleColdReset) : step s = .fault .clocksStopped := by
  rw [step, State.popMove_cons h, if_pos ⟨htrip, hm⟩]

/-- Settles O56: the laws above, move by move. -/
theorem stepRunsDecodedInstruction : Obligations.StepRunsDecodedInstruction := by
  intro c k pre n ns cycles hard tx em l a st m ms i u s s'
  refine ⟨State.nextInstr_of_fetches, ?issue, ?strand, ?port, ?single, ?event, fun hgo => ⟨?reach, ?flaw, ?pass, ?flits⟩,
    fun htrip h hm => step_of_tripped h htrip hm⟩
  case issue =>
    intro u0 x hready hreports hlead hnext
    obtain ⟨hn, hf, hr⟩ := State.issueAt_eq pre hready hreports hlead hnext
    cases ho : exec i u0 with
    | next t => exact hn t ho
    | fault f => exact hf f ho
    | refused r => exact hr r ho
  case strand =>
    intro hgo h hst
    rw [step_of_agenda h (.inl hgo), act, if_neg hst]
  case port =>
    intro hgo h
    rcases hr : s'.readySeats c pre with ⟨s0, ready⟩
    have hlt : ∀ k ∈ ready, k < 4 := fun k hk => State.lt_of_mem_readySeats (s := s') (c := c) (pre := pre) (by rw [hr]; exact hk)
    refine ⟨?_, fun j hj => ⟨Core.mem_of_choose hj, fun i => Core.age_le_of_choose hj, fun hage i => Core.pri_le_of_choose hj hage⟩,
      Core.choose_eq_none_iff hlt⟩
    rw [step_of_agenda h (.inl hgo), act]
    cases hk : (s0.core c).choose ready with
    | none => rw [State.portAt_of_none hr hk]
    | some k => rw [State.portAt_of_chosen hr hk]
  case single =>
    intro hgo h hk hready hothers hmet s1
    have hr := State.readySeats_eq_singleton hk hready hothers hmet
    rw [step_of_agenda h (.inl hgo), act, State.portAt_of_chosen hr (Core.choose_singleton hk)]
    simp [Core.ages, s1, s']
  case event =>
    intro hgo h hi
    have hgo : s.modl.tripped = false ∨ Move.event i = .event .moduleColdReset := hgo.imp_right (congrArg Move.event)
    rw [step_of_agenda h hgo, act, if_pos hi]
  case reach => rintro rfl h; exact step_of_agenda h (.inl hgo)
  case flaw => rintro rfl h; exact step_of_agenda h (.inl hgo)
  case pass => rintro rfl h; exact step_of_agenda h (.inl hgo)
  case flits => rintro rfl h; exact step_of_agenda h (.inl hgo)

end Sys2Proof.Machine
end

section
/-! PROOFS. How a computation goes past its checks, and loads and stores as they leave their strand (R313 to R319, R321). -/
namespace Sys2Proof.Machine

/-! ### Waits and checks at issue -/

@[simp] theorem raise_eq {α : Type} (c : Cause) (o v : Nat) (s : State) :
    (raise c o v : M α) s = .error (.trap { cause := c, opnd := o, val := BitVec.ofNat 64 v }) s := rfl

/-- A check that is made in one case only, and passes there, is passed. -/
theorem M.ite_check_run {α : Type} {b : Prop} [Decidable b] {m : M Unit} {s : State} (h : b → m s = .ok () s) (k : M α) :
    (if b then m >>= fun _ => k else k) s = k s := by
  split
  · exact M.bind_ok (h ‹_›)
  · rfl

theorem afterLda_ok {s : State} (h : s.ldaOpen s.cur = false) : afterLda s = .ok () s := by
  simp [afterLda, M.bind_run, h]

theorem release_ok {s : State} (h : s.quiet s.cur = true) : release s = .ok () s := by
  simp [release, M.bind_run, h]

theorem bankQuiet_ok {s : State} (h : s.bankDone = true) : bankQuiet s = .ok () s := by
  simp [bankQuiet, M.bind_run, h]

theorem noHandler_ok {s : State} (h : s.me.hnd = false) : noHandler s = .ok () s := by
  simp [noHandler, M.bind_run, h]

theorem evenD_ok {d : Nat} {s : State} (heven : d % 2 = 0) (hd : d < 64) : evenD d s = .ok () s := by
  have hle : d ≤ 62 := by omega
  simp [evenD, heven, hle]

theorem freeRegs_ok {d : Nat} {pair : Bool} {s : State} (h : s.me.full d = true)
    (hpair : pair = true → s.me.full (d + 1) = true) : freeRegs d pair s = .ok () s := by
  cases pair with
  | false => simp [freeRegs, M.bind_run, h]
  | true => simp [freeRegs, M.bind_run, h, hpair rfl]

theorem memAddr_ok {a b : Src} {va : Nat} {s s1 : State} (h : Say.Addr a b s va s1) : memAddr a b s = .ok va s1 := by
  obtain ⟨x, y, s0, hx, hy, hva⟩ := h
  have hva : (((x : Int) + y) % (2 ^ 64 : Nat)).toNat = va := by rw [← hva]; rfl
  simp only [memAddr, M.bind_run, hx, hy, hva, M.pure_eq]

/-! ### An access leaves its strand -/

/-- A load is not compared with the partner's: it is in flight at once. -/
theorem sendAccess_load (h : Head) (sx : Bool) (len d : Nat) (pair acq : Bool) (va : Nat) (data : List Byte)
    (ps : List Piece) (s : State) :
    sendAccess h (.load sx) len (some d) pair acq va data ps s =
      .ok () (Say.inFlight (Say.accessOf (.load sx) len (some d) pair acq va ps s) s) := rfl

theorem myPair_of_unpaired {s : State} (h : Say.Unpaired s) : myPair s = .ok none s := by
  cases hp : s.myCore.pair with
  | none => simp [myPair, hp]
  | some p => simp [myPair, hp, h p hp]

/-- In a core without a pair nothing is compared (R363). -/
theorem compared_of_unpaired {o : Offer} {act : M Unit} {s : State} (h : Say.Unpaired s) : compared o act s = act s := by
  simp [compared, M.bind_run, myPair_of_unpaired h]

/-- A store that is not compared is in flight at once (R210, R363). -/
theorem sendAccess_store {h : Head} {data : List Byte} {len : Nat} {pair : Bool} {va : Nat}
    {ps : List Piece} {s : State} (hfree : Say.NotCompared ps s) :
    sendAccess h (.store data) len none pair false va data ps s =
      .ok () (Say.inFlight (Say.accessOf (.store data) len none pair false va ps s) s) := by
  rcases hfree with hown | hunpaired
  · have hown : ownOnly s.cur.core ps = true := by simpa [ownOnly] using hown
    simp only [sendAccess, M.bind_run, look_eq, me_eq, hown, Bool.not_true, Bool.false_eq_true, if_false]
    rfl
  · simp only [sendAccess, M.bind_run, look_eq, me_eq]
    split
    · rw [compared_of_unpaired hunpaired]; rfl
    · rfl

/-- The bytes of a store of less than 16 bytes are those of D. -/
theorem Say.storeData_of_lt {sz : Nat} (h : sz < 4) (d : Nat) (s : State) (hi : Nat) :
    (leBytes (s.me.reg d).toNat 8 ++ leBytes hi 8).take (2 ^ sz) = Say.storeData sz d s := by
  have hlen : 2 ^ sz ≤ 8 := Nat.pow_le_pow_right (n := 2) (by decide) (Nat.le_of_lt_succ h)
  have hle (v : Nat) : 2 ^ sz ≤ (leBytes v 8).length := by rwa [leBytes_length]
  rw [Say.storeData, List.take_append_of_le_length (hle _), List.take_append_of_le_length (hle _)]

/-! ### Loads and stores -/

section
variable {h : Head} {sz d va : Nat} {a b : Src} {ps : List Piece} {s s1 s2 : State}
  (hlda : s.ldaOpen s.cur = false) (haddr : Say.Addr a b s va s1) (heven : sz = 4 → d % 2 = 0) (hd : d < 64)
  (hfull : s1.me.full d = true) (hfull2 : sz = 4 → s1.me.full (d + 1) = true)
include hlda haddr heven hd hfull hfull2

theorem loadOp_ok {acq sx : Bool} (hps : seatPieces va (2 ^ sz) .r false false acq s1 = .ok ps s2) :
    loadOp h acq sz sx d a b s = .ok ()
      (Say.inFlight (Say.accessOf (.load sx) (2 ^ sz) (some d) (sz == 4) acq va ps s2) s2) := by
  have hpair (k : M Unit) := M.ite_check_run (b := (sz == 4) = true) (m := evenD d) (s := s)
    (fun h4 => evenD_ok (heven (by simpa using h4)) hd) k
  have hfree : freeRegs d (sz == 4) s1 = .ok () s1 := freeRegs_ok hfull fun h4 => hfull2 (by simpa using h4)
  simp only [loadOp, M.bind_run, afterLda_ok hlda, hpair, memAddr_ok haddr, hfree, hps, sendAccess_load]

theorem storeOp_ok {rel : Bool} (hsz : sz ≤ 4) (hfree : Say.NotCompared ps s2) (hrel : rel = true → s1.quiet s1.cur = true)
    (hps : seatPieces va (2 ^ sz) .w true false rel s1 = .ok ps s2) :
    storeOp h rel sz d a b s = .ok ()
      (Say.inFlight (Say.accessOf (.store (Say.storeData sz d s1)) (2 ^ sz) none (sz == 4) false va ps s2) s2) := by
  have hlo : readD d s1 = .ok (s1.me.reg d) s1 := readScal_full hd hfull
  have hquiet (k : M Unit) := M.ite_check_run (m := release) (s := s1) (fun h => release_ok (hrel h)) k
  by_cases h4 : sz = 4
  · have hd1 : d + 1 < 64 := by have := heven h4; omega
    have hhi : readD (d + 1) s1 = .ok (s1.me.reg (d + 1)) s1 := readScal_full hd1 (hfull2 h4)
    have hpair : evenD d s = .ok () s := evenD_ok (heven h4) hd
    subst h4
    simp only [storeOp, BEq.rfl, if_true, M.bind_run, afterLda_ok hlda, hpair, memAddr_ok haddr, hlo, hhi, hquiet, hps]
    exact sendAccess_store hfree
  · have h4' : (sz == 4) = false := by simpa using h4
    simp only [storeOp, h4', Bool.false_eq_true, if_false, M.bind_run, M.pure_eq, afterLda_ok hlda, memAddr_ok haddr, hlo, hquiet, hps,
      Say.storeData_of_lt (Nat.lt_of_le_of_ne hsz h4)]
    exact sendAccess_store hfree
end

/-- Settles O21: a load or store whose checks pass puts its access in flight, and the strand advances. -/
theorem loadsAndStoresLeave : Obligations.LoadsAndStoresLeave := by
  intro h sz d va sx a b ps s s1 s2 hg hlda hsz haddr hcur1 hcur2 heven hd hfull hfull2
  refine ⟨fun hps => ?ld, fun hps => ?lda, fun hfree hlt hps => ?st, fun hfree h4 hps => ?st128, fun hfree hquiet hps => ?stl⟩
  case ld => exact issue_ok hg (loadOp_ok hlda haddr heven hd hfull hfull2 hps)
  case lda => exact issue_ok hg (loadOp_ok hlda haddr heven hd hfull hfull2 hps)
  case st =>
    have hpair : (sz == 4) = false := by simpa using Nat.ne_of_lt hlt
    have hop := storeOp_ok (h := h) (rel := false) hlda haddr heven hd hfull hfull2 hsz hfree nofun hps
    rw [hpair] at hop
    exact issue_ok hg hop
  case st128 =>
    subst h4
    exact issue_ok hg (storeOp_ok (rel := false) hlda haddr heven hd hfull hfull2 hsz hfree nofun hps)
  case stl => exact issue_ok hg (storeOp_ok (rel := true) hlda haddr heven hd hfull hfull2 hsz hfree (fun _ => hquiet) hps)

end Sys2Proof.Machine
end

section
/-! PROOFS. Engine strands start and end (R22, R335, R336). -/
namespace Sys2Proof.Machine

/-! ### The meeting of a thread with its engines -/

/-- No fault of the thread waits to be delivered, and its engine strands and operations have ended (R22, R200). -/
def State.enginesDone (s : State) : Prop :=
  s.stopOf [0, 1, 2, 3, 4] = none ∧ s.me.mat.live = false ∧ s.me.cpy.live = false ∧
    (∀ c ∈ s.myCore.ctxs.toList, ∀ o ∈ c.ops, o.seat ≠ s.cur.seat) ∧ ∀ o ∈ s.myCore.mat.ops, o.seat ≠ s.cur.seat

theorem meet_ok {s : State} (h : s.enginesDone) (hquiet : s.quiet s.cur = true) : meet false s = .ok () s := by
  obtain ⟨hstop, hmat, hcpy, hcopies, hops⟩ := h
  have hcopies : s.myCore.ctxs.toList.all (fun c => c.ops.all (fun o => o.seat != s.cur.seat)) = true :=
    List.all_eq_true.mpr fun c hc => by simpa using hcopies c hc
  have hops : s.myCore.mat.ops.all (fun o => o.seat != s.cur.seat) = true := by simpa using hops
  have hdeliver : deliver [0, 1, 2, 3, 4] s = .ok () s := by simp [deliver, M.bind_run, hstop]
  simp only [meet, M.bind_run, look_eq, hdeliver, hmat, hcpy, Bool.false_and, Bool.or_false, hcopies, hops, Bool.not_false,
    Bool.and_self, waitFor_true, Bool.false_eq_true, if_false, release_ok hquiet]

/-! ### EFORK -/

/-- An engine strand that has started at an index of the main strand's segment (R22). -/
def Seat.forked (x : Seat) (e : Nat) : Strand := { live := true, pc := ⟨x.main.pc.seg, e⟩ }

/-- The seat with its copy strand, or its matrix strand, replaced. -/
def Seat.setEngine (copy : Bool) (t : Strand) (x : Seat) : Seat := if copy then { x with cpy := t } else { x with mat := t }

/-- The core with its matrix unit given to a seat (R18, R189). -/
def Core.holdUnit (k : Nat) (x : Core) : Core := { x with mat := { x.mat with holder := some k, eng := {} } }.setTl 4 {}

/-- The engine strand that EFORK names runs, or another seat holds the matrix unit (R22; log 91). -/
def State.engineBusy (s : State) (copy : Bool) : Bool :=
  if copy then s.me.cpy.live
  else s.me.mat.live || (match s.myCore.mat.holder with | some k => k != s.cur.seat | none => false)

section
variable {h : Head} {copy : Bool} {pst e : Nat} {a : Src} {s s1 : State} (hg : guardOk h s.me = true)
  (hhnd : s.me.hnd = false) (ha : readN64 2 a s = .ok e s1) (he : e < s1.me.segb)
include hg hhnd ha he

theorem exec_efork_of_busy (hbusy : s1.engineBusy copy = true) :
    exec (.efork h copy pst a) s = .next ((s1.modMe (fun x => x.setP pst false)).advance h) := by
  refine issue_ok (u := ()) hg ?_
  simp only [M.bind_run, noHandler_ok hhnd, ha, me_eq, look_eq, he, decide_true, need_true]
  exact (congrFun (if_pos hbusy) s1).trans rfl

theorem exec_efork_of_free (hfree : s1.engineBusy copy = false) (hquiet : s1.quiet s1.cur = true) :
    exec (.efork h copy pst a) s = .next
      (((if !copy && s1.myCore.mat.holder.isNone then s1.modMyCore (Core.holdUnit s1.cur.seat) else s1).modMe
        (Seat.setEngine copy (s1.me.forked e))).modMe (fun x => x.setP pst true) |>.advance h) := by
  refine issue_ok (u := ()) hg ?_
  simp only [M.bind_run, noHandler_ok hhnd, ha, me_eq, look_eq, he, decide_true, need_true]
  refine (congrFun (if_neg (Bool.eq_false_iff.mp hfree)) s1).trans ?_
  simp only [M.bind_run, release_ok hquiet, change_eq, writeP_eq]
  rfl
end

/-- Settles O31: EFORK by whether its engine is busy and who holds the matrix unit, RDV by the meeting. -/
theorem engineStrandsForkAndMeet : Obligations.EngineStrandsForkAndMeet := by
  intro h pst e a s s1 hg hhnd
  refine ⟨fun ha he => ⟨fun hcpy => ?_, fun hmat => ?_, fun k hk hne => ?_, fun hcpy hquiet => ?_, fun hmat hk hquiet => ?_,
    fun hmat hk hquiet => ?_⟩, fun hstop hmat hcpy hcopies hops hquiet => ?_⟩
  · exact exec_efork_of_busy hg hhnd ha he hcpy
  · exact exec_efork_of_busy hg hhnd ha he (by simp [State.engineBusy, hmat])
  · exact exec_efork_of_busy hg hhnd ha he (by simp [State.engineBusy, hk, hne])
  · exact exec_efork_of_free hg hhnd ha he hcpy hquiet
  · rw [exec_efork_of_free hg hhnd ha he (by simp [State.engineBusy, hmat, hk]) hquiet, hk]
    rfl
  · rw [exec_efork_of_free hg hhnd ha he (by simp [State.engineBusy, hmat, hk]) hquiet, hk]
    rfl
  · refine issue_ok (u := ()) hg ?_
    simp only [M.bind_run, noHandler_ok hhnd, meet_ok ⟨hstop, hmat, hcpy, hcopies, hops⟩ hquiet]

end Sys2Proof.Machine
end

section
/-! PROOFS. Task records, the deque, FORK and RFORK (R28, R29, R121, R122, R332). -/
namespace Sys2Proof.Machine

/-! ### Records and the ring -/

/-- Every field of a record fits its place in the word (R121). -/
structure Task.Fits (t : Task) : Prop where
  lid   : t.lid < 2 ^ 32
  entry : t.entry < 2 ^ 16
  kind  : t.kind < 2 ^ 8
  a0    : t.a0 < 2 ^ 64
  a1    : t.a1 < 2 ^ 64
  g     : t.g < 2 ^ 32
  arg   : t.arg < 2 ^ 32

/-- A record's word as a number. -/
theorem Task.word_toNat {t : Task} (h : t.Fits) : t.word.toNat =
    t.lid + t.entry * 2 ^ 32 + t.kind * 2 ^ 48 + t.a0 * 2 ^ 64 + t.a1 * 2 ^ 128 + t.g * 2 ^ 192 + t.arg * 2 ^ 224 := by
  obtain ⟨hlid, hentry, hkind, h0, h1, hg, harg⟩ := h
  rw [Task.word, BitVec.toNat_ofNat, Nat.mod_eq_of_lt hlid, Nat.mod_eq_of_lt hentry, Nat.mod_eq_of_lt hkind,
    Nat.mod_eq_of_lt h0, Nat.mod_eq_of_lt h1, Nat.mod_eq_of_lt hg, Nat.mod_eq_of_lt harg]
  omega

/-- A record reads back from its word. -/
theorem Task.ofWord_word {t : Task} (h : t.Fits) : Task.ofWord t.word = t := by
  have hn := Task.word_toNat h
  obtain ⟨hlid, hentry, hkind, h0, h1, hg, harg⟩ := h
  obtain ⟨lid, entry, kind, a0, a1, g, arg⟩ := t
  simp only [Task.ofWord, hn, bitsAt, Task.mk.injEq] at *
  refine ⟨?_, ?_, ?_, ?_, ?_, ?_, ?_⟩ <;> omega

theorem Task.word_ne_zero {t : Task} (h : t.Fits) (hk : t.kind ≠ 0) : t.word ≠ 0 := by
  intro h0
  have hkind : (Task.ofWord t.word).kind = 0 := by rw [h0]; rfl
  rw [Task.ofWord_word h] at hkind
  exact hk hkind

theorem Core.dqSlot_setDq_self (x : Core) (i : Nat) {w : BitVec 256} (hw : w ≠ 0) : (x.setDq i w).dqSlot i = w := by
  show mapGet 0 _ (mapSet 0 _ w _) = w
  rw [mapSet, if_neg hw, mapGet_mapPut_self]

@[simp] theorem Core.setDq_dqh (x : Core) (i : Nat) (w : BitVec 256) : (x.setDq i w).dqh = x.dqh := rfl

theorem Core.headTask_of_word {x : Core} {t : Task} (h : t.Fits) (hx : x.dqSlot (x.dqh + 127) = t.word) : x.headTask = t := by
  rw [Core.headTask, hx, Task.ofWord_word h]

theorem Core.tailTask_of_word {x : Core} {t : Task} (h : t.Fits) (hx : x.dqSlot x.dqt = t.word) : x.tailTask = t := by
  rw [Core.tailTask, hx, Task.ofWord_word h]

/-! ### Takes and steals -/

/-- A take at the head leaves the rest of a range where it stands (R28). -/
theorem Core.takeHead_of_rest {x : Core} {t : Task} (ht : x.headTask = t) (hk : t.kind = 2) (hrest : t.a0 + t.g < t.a1) :
    x.takeHead = ({ t with a1 := min (t.a0 + t.g) t.a1 }, x.setDq (x.dqh + 127) ({ t with a0 := t.a0 + t.g } : Task).word) := by
  have hmin : min (t.a0 + t.g) t.a1 = t.a0 + t.g := Nat.min_eq_left hrest.le
  simp only [Core.takeHead, ht, hk, if_true, hmin, hrest]

/-- A range of one grain is taken away whole. -/
theorem Core.takeHead_of_last {x : Core} {t : Task} (ht : x.headTask = t) (hk : t.kind = 2) (hlast : t.a1 ≤ t.a0 + t.g) :
    x.takeHead = ({ t with a1 := min (t.a0 + t.g) t.a1 }, x.dqPop) := by
  have hmin : min (t.a0 + t.g) t.a1 = t.a1 := Nat.min_eq_right hlast
  simp only [Core.takeHead, ht, hk, if_true, hmin, Nat.lt_irrefl, if_false]

/-- Where a steal cuts a range: the middle, down to a multiple of grains (R29). -/
def Task.middle (t : Task) : Nat := t.a0 + (t.a1 - t.a0) / 2 / t.g * t.g

theorem Task.middle_between {t : Task} (hg : t.g ≠ 0) (h : t.a0 < t.a1) (h2 : 2 * t.g ≤ t.a1 - t.a0) :
    t.a0 < t.middle ∧ t.middle < t.a1 := by
  have hhalf : t.g ≤ (t.a1 - t.a0) / 2 := by omega
  have hone : 1 ≤ (t.a1 - t.a0) / 2 / t.g := (Nat.one_le_div_iff (Nat.pos_of_ne_zero hg)).mpr hhalf
  have hlow : t.g ≤ (t.a1 - t.a0) / 2 / t.g * t.g := Nat.le_mul_of_pos_left t.g hone
  have hhigh : (t.a1 - t.a0) / 2 / t.g * t.g ≤ (t.a1 - t.a0) / 2 := Nat.div_mul_le_self _ _
  unfold Task.middle
  omega

theorem Task.dvd_middle_sub (t : Task) : t.g ∣ t.middle - t.a0 := by
  rw [Task.middle, Nat.add_sub_cancel_left]
  exact Nat.dvd_mul_left t.g _

theorem Core.steal_of_range {x : Core} {t : Task} (ht : x.tailTask = t) (hk : t.kind = 2) (h2 : 2 * t.g ≤ t.a1 - t.a0) :
    x.steal = ({ t with a0 := t.middle }, x.setDq x.dqt ({ t with a1 := t.middle } : Task).word) := by
  simp only [Core.steal, ht, hk, h2, and_self, if_true]
  rfl

theorem Core.steal_of_small {x : Core} {t : Task} (ht : x.tailTask = t) (h2 : t.a1 - t.a0 < 2 * t.g) :
    x.steal = (t, x.dqDrop) := by
  simp only [Core.steal, ht, Nat.not_le.mpr h2, and_false, if_false]

theorem Task.Fits.of_a0 {t : Task} (h : t.Fits) {n : Nat} (hn : n ≤ t.a1) : ({ t with a0 := n } : Task).Fits :=
  { h with a0 := Nat.lt_of_le_of_lt hn h.a1 }

theorem Task.Fits.of_a1 {t : Task} (h : t.Fits) {n : Nat} (hn : n ≤ t.a1) : ({ t with a1 := n } : Task).Fits :=
  { h with a1 := Nat.lt_of_le_of_lt hn h.a1 }

section
variable {x : Core} {t : Task}

/-- What a take at the head leaves of a range (R28). -/
theorem Core.rest_of_takeHead (ht : x.headTask = t) (hk : t.kind = 2) (hfits : t.Fits) (hrest : t.a0 + t.g < t.a1) :
    Task.ofWord (x.takeHead.2.dqSlot (x.dqh + 127)) = { t with a0 := t.a0 + t.g } ∧ x.takeHead.2.dqh = x.dqh := by
  have hfits' := hfits.of_a0 hrest.le
  have hword : ({ t with a0 := t.a0 + t.g } : Task).word ≠ 0 := Task.word_ne_zero hfits' (by rw [hk]; norm_num)
  rw [Core.takeHead_of_rest ht hk hrest]
  constructor
  · rw [Core.dqSlot_setDq_self x _ hword, Task.ofWord_word hfits']
  · exact x.setDq_dqh _ _

/-- The part of a range that a take at the head removes: its first grain, or what is left of it. -/
theorem Core.part_of_takeHead (ht : x.headTask = t) (hk : t.kind = 2) :
    x.takeHead.1 = { t with a1 := min (t.a0 + t.g) t.a1 } := by
  rcases Nat.lt_or_ge (t.a0 + t.g) t.a1 with hrest | hlast
  · rw [Core.takeHead_of_rest ht hk hrest]
  · rw [Core.takeHead_of_last ht hk hlast]

/-- What a steal leaves of a range of at least two grains (R29). -/
theorem Core.rest_of_steal (ht : x.tailTask = t) (hk : t.kind = 2) (hfits : t.Fits) (hmid : t.middle < t.a1)
    (h2 : 2 * t.g ≤ t.a1 - t.a0) : Task.ofWord (x.steal.2.dqSlot x.dqt) = { t with a1 := t.middle } := by
  have hfits' := hfits.of_a1 hmid.le
  have hword : ({ t with a1 := t.middle } : Task).word ≠ 0 := Task.word_ne_zero hfits' (by rw [hk]; norm_num)
  rw [Core.steal_of_range ht hk h2]
  exact (congrArg Task.ofWord (x.dqSlot_setDq_self _ hword)).trans (Task.ofWord_word hfits')
end

theorem rangeSplitsCover : Say.rangeSplitsCover := by
  intro x t hk hgood h1 hg hlid hentry harg
  obtain ⟨hlt, hg0⟩ : t.a0 < t.a1 ∧ t.g ≠ 0 := by simpa [Task.good, hk] using hgood
  have hkind : t.kind < 2 ^ 8 := by rw [hk]; norm_num
  have hfits : t.Fits := ⟨hlid, hentry, hkind, hlt.trans h1, h1, hg, harg⟩
  refine ⟨fun hx => ?_, fun hx h2 => ?_, fun hx h2 => ?_⟩
  · have ht := Core.headTask_of_word hfits hx
    exact ⟨Core.part_of_takeHead ht hk, Core.rest_of_takeHead ht hk hfits,
      fun hlast => congrArg Prod.snd (Core.takeHead_of_last ht hk hlast)⟩
  · have ht := Core.tailTask_of_word hfits hx
    obtain ⟨hlow, hhigh⟩ := Task.middle_between hg0 hlt h2
    exact ⟨t.middle, rfl, congrArg Prod.fst (Core.steal_of_range ht hk h2), Core.rest_of_steal ht hk hfits hhigh h2,
      hlow, hhigh, t.dvd_middle_sub⟩
  · rw [Core.steal_of_small (Core.tailTask_of_word hfits hx) h2]
    exact ⟨rfl, rfl⟩

/-! ### FORK and RFORK -/

theorem need_ok {b : Bool} {o v : Nat} {s : State} (h : b = true) : need b o v s = .ok () s := by
  rw [h, need_true]

/-- A row of full scalars reads their values. -/
theorem readScals_ok {o n k : Nat} {fe : Bool} {s : State} (hn : n + k ≤ 64) (hfull : ∀ i, i < k → s.me.full (n + i) = true) :
    readScals o n k fe s = .ok ((upto k).map (fun i => s.me.reg (n + i))) s := by
  have hmap (l : List Nat) (hl : ∀ i ∈ l, i < k) :
      mapL l (fun i => readScal o (n + i) fe) s = .ok (l.map (fun i => s.me.reg (n + i))) s := by
    induction l with
    | nil => rfl
    | cons i l ih =>
      have hi := hl i List.mem_cons_self
      simp only [mapL, M.bind_run, readScal_full (Nat.lt_of_lt_of_le (Nat.add_lt_add_left hi n) hn) (hfull i hi),
        ih fun j hj => hl j (List.mem_cons_of_mem i hj), M.pure_eq, List.map_cons]
  exact hmap (upto k) fun i => List.mem_range.mp

theorem readRow_ok {o n k : Nat} {m : SrcMod} {fe : Bool} {s : State} (hn : n + k ≤ 64)
    (hfull : ∀ i, i < k → s.me.full (n + i) = true) :
    readRow o k (.scal n m fe) s = .ok ((upto k).map (fun i => s.me.reg (n + i))) s := by
  have hle : ¬ 64 < n + k := Nat.not_lt.mpr hn
  simp only [readRow, scalNum, M.bind_run, M.pure_eq, hle, if_false, readScals_ok hn hfull]

section
variable {h : Head} {a : Src} {e : Nat} {l : Launch} {s s1 : State}

theorem taskEntry_ok (hmay : Say.MayPush a e l s s1) : taskEntry a s = .ok (l, e) s1 := by
  obtain ⟨-, hdepth, ha, hl, he, hbound, -⟩ := hmay
  simp [taskEntry, M.bind_run, hdepth, ha, myLaunch, hl, he, hbound]

theorem pushTask_ok {t : Task} {s : State} (hquiet : s.quiet s.cur = true) (hroom : Say.DequeRoom s) :
    pushTask t s = .ok () (s.modMyCore (fun x => x.dqPush t.word)) := by
  obtain ⟨hcount, hret⟩ := hroom
  simp [pushTask, M.bind_run, release_ok hquiet, Nat.not_le.mpr hcount, hret]

theorem pushTask_full {t : Task} {s : State} (hquiet : s.quiet s.cur = true) (hfull : 64 ≤ s.myCore.dqCount) :
    pushTask t s = .error (.trap { cause := .dequefull, val := BitVec.ofNat 64 (s.myCore.dqt * 256 + s.myCore.dqh) }) s := by
  simp [pushTask, M.bind_run, release_ok hquiet, hfull]
end

section
variable {lo hi : Nat} {m : M Unit} {s : State}

/-- An empty range is pushed nowhere (R332). -/
theorem pushRange_of_empty (h : hi ≤ lo) : (if hi ≤ lo then pure () else m : M Unit) s = .ok () s := congrFun (if_pos h) s

theorem pushRange_of_nonempty (h : lo < hi) : (if hi ≤ lo then pure () else m : M Unit) s = m s :=
  congrFun (if_neg (Nat.not_le.mpr h)) s
end

theorem forksPushRecords : Say.forksPushRecords := by
  intro h n e m fe a l s s1 hg hmay w
  have hentry := taskEntry_ok hmay
  obtain ⟨hhnd, -, -, -, -, -, hquiet⟩ := hmay
  replace hhnd := noHandler_ok hhnd
  refine ⟨fun hn hfull => ⟨fun hroom => ?_, fun hmany => ?_⟩, fun hn hfull h0 hlt => ?_⟩
  · refine issue_ok (u := ()) hg ?_
    simp only [M.bind_run, hhnd, hentry, readRow_ok hn hfull, pushTask_ok hquiet hroom]
    rfl
  · refine (issue_stop hg (e := .trap _) (s' := s1) ?_)
    simp only [M.bind_run, hhnd, hentry, readRow_ok hn hfull, pushTask_full hquiet hmany]
  · have hgrain : (decide (w 2 < 2 ^ 32) && w 2 != 0) = true :=
      Bool.and_eq_true_iff.mpr ⟨decide_eq_true hlt, bne_iff_ne.mpr h0⟩
    refine ⟨fun hlo hroom => ?_, fun hlo => ?_⟩
    · refine issue_ok (u := ()) hg ?_
      have hpush := (pushRange_of_nonempty hlo).trans (pushTask_ok (t := ⟨l.lid, e, 2, w 0, w 1, w 2, w 3 % 2 ^ 32⟩) hquiet hroom)
      refine (M.bind_ok hhnd).trans <| (M.bind_ok hentry).trans <| (M.bind_ok (readRow_ok hn hfull)).trans ?_
      refine (M.bind_ok (need_ok hgrain)).trans ?_
      exact hpush
    · refine issue_ok (u := ()) hg ?_
      refine (M.bind_ok hhnd).trans <| (M.bind_ok hentry).trans <| (M.bind_ok (readRow_ok hn hfull)).trans ?_
      refine (M.bind_ok (need_ok hgrain)).trans ?_
      exact pushRange_of_empty hlo

/-- Settles O29: the deque after each push, and the two parts of a range after a take and after a steal. -/
theorem forksAndSplits : Obligations.ForksAndSplits := ⟨forksPushRecords, rangeSplitsCover⟩

end Sys2Proof.Machine
end

section
/-! PROOFS. The search for work, and what TASK and an idle seat do with it (R21, R28, R333). -/
namespace Sys2Proof.Machine

/-! ### The search -/

section
variable {c n : Nat} {l : Launch} {ns : List Nat} {s : State}

theorem placeTake_eq {c n : Nat} {t : Task} {s : State} {r : Task × Core} (hr : ((s.core c).dqPush t.word).takeHead = r) :
    placeTake c t n s = .ok (some (r.1, n)) (s.setCore c r.2) := by
  have hlook : look (fun s => ((s.core c).dqPush t.word).takeHead) s = .ok r s := by rw [look_eq, hr]
  exact M.bind_ok hlook

/-- What follows in a search where the core's own deque has room and no record of the launch: the neighbours, then the
overflow list (R28). -/
def stealOrOverflow (c : Nat) (l : Launch) : M (Option Found) := do
  match ← stealFrom c l (neighbours c) with
  | some f => pure (some f)
  | none => overflowTake c l

/-- The core's own deque comes first (R28). -/
theorem search_of_own (h : ((s.core c).cleanHead 64).dqCount ≠ 0 ∧ ((s.core c).cleanHead 64).headTask.lid = l.lid) :
    search c l s = .ok (some (((s.core c).cleanHead 64).takeHead.1, c))
      ((s.modCore c (Core.cleanHead 64)).setCore c ((s.core c).cleanHead 64).takeHead.2) := by
  simp only [search, M.bind_run, change_eq, look_eq, State.core_modCore_self, if_pos h, M.pure_eq]

theorem search_of_full (h : ¬(((s.core c).cleanHead 64).dqCount ≠ 0 ∧ ((s.core c).cleanHead 64).headTask.lid = l.lid))
    (hroom : ((s.core c).cleanHead 64).dqRoom = false) :
    search c l s = .ok none (s.modCore c (Core.cleanHead 64)) := by
  simp only [search, M.bind_run, change_eq, look_eq, State.core_modCore_self, if_neg h, hroom, Bool.not_false, if_true,
    M.pure_eq]

theorem search_of_room (h : ¬(((s.core c).cleanHead 64).dqCount ≠ 0 ∧ ((s.core c).cleanHead 64).headTask.lid = l.lid))
    (hroom : ((s.core c).cleanHead 64).dqRoom = true) :
    search c l s = stealOrOverflow c l (s.modCore c (Core.cleanHead 64)) := by
  refine (M.bind_ok (change_eq (fun s => s.modCore c (Core.cleanHead 64)) s)).trans ?_
  refine (M.bind_ok (look_eq (fun s => s.core c) _)).trans ?_
  rw [State.core_modCore_self]
  refine (congrFun (if_neg h) _).trans ?_
  exact congrFun (if_neg (by simp [hroom])) _

theorem stealFrom_of_closed (h : ¬(s.holdsCore l.vdev n = true ∧ (s.core n).refuses = false)) :
    stealFrom c l (n :: ns) s = stealFrom c l ns s := by
  have hopen : (s.holdsCore l.vdev n && !(s.core n).refuses) = false := by simpa using h
  simp only [stealFrom, M.bind_run, look_eq, hopen, Bool.false_eq_true, if_false]

section
variable (hopen : s.holdsCore l.vdev n = true ∧ (s.core n).refuses = false)
include hopen

theorem stealFrom_of_others
    (h : ¬(((s.core n).cleanTail 64).dqCount ≠ 0 ∧ ((s.core n).cleanTail 64).tailTask.lid = l.lid)) :
    stealFrom c l (n :: ns) s = stealFrom c l ns (s.modCore n (Core.cleanTail 64)) := by
  simp only [stealFrom, M.bind_run, look_eq, change_eq, hopen.1, hopen.2, Bool.not_false, Bool.and_self, if_true,
    State.core_modCore_self, if_neg h]

theorem stealFrom_of_theirs
    (h : ((s.core n).cleanTail 64).dqCount ≠ 0 ∧ ((s.core n).cleanTail 64).tailTask.lid = l.lid) :
    stealFrom c l (n :: ns) s =
      (if ((s.core n).cleanTail 64).steal.1.kind = 1 then pure (some (((s.core n).cleanTail 64).steal.1, n))
        else placeTake c ((s.core n).cleanTail 64).steal.1 n)
      ((s.modCore n (Core.cleanTail 64)).setCore n ((s.core n).cleanTail 64).steal.2) := by
  simp only [stealFrom, M.bind_run, look_eq, change_eq, hopen.1, hopen.2, Bool.not_false, Bool.and_self, if_true,
    State.core_modCore_self, if_pos h]
end
end

/-- The neighbours of a core two rows and two columns from the edge of the die. -/
theorem neighbours_of_interior {x y : Nat} (hx : 2 ≤ x) (hx2 : x + 2 < 128) (hy : 2 ≤ y) (hy2 : y + 2 < 126) :
    neighbours (128 * y + x) = [128 * y + x + 1, 128 * y + x + 128, 128 * y + x - 1, 128 * y + x - 128,
      128 * y + x + 2, 128 * y + x + 256, 128 * y + x - 2, 128 * y + x - 256] := by
  have hcol : (128 * y + x) % 128 = x := by omega
  have hrow : (128 * y + x) / 128 = y := by omega
  have h1 : x + 1 < 128 ∧ y + 1 < 126 ∧ 1 ≤ x ∧ 1 ≤ y := by omega
  simp [neighbours, neighbour, upto, List.range_succ, hcol, hrow, hx, hx2, hy, hy2, h1]

theorem searchOrder : Say.searchOrder := by
  intro c n x y ns l r f s s1 s2
  refine ⟨⟨search_of_own, search_of_full, fun hmine hroom => ⟨fun hs => ?_, fun hs ho => ?_⟩⟩,
    fun hx hx2 hy hy2 => neighbours_of_interior hx hx2 hy hy2,
    ⟨stealFrom_of_closed, stealFrom_of_others, fun hopen ht hk => ?_, fun hopen ht hk hne => ?_⟩⟩
  · exact (search_of_room hmine hroom).trans (M.bind_ok hs)
  · exact (search_of_room hmine hroom).trans ((M.bind_ok hs).trans ho)
  · rw [stealFrom_of_theirs hopen ht, if_pos hk, M.pure_eq]
  · have hcore : ((s.modCore n (Core.cleanTail 64)).setCore n ((s.core n).cleanTail 64).steal.2).core c = s.core c := by
      rw [State.core_setCore_ne _ hne.symm, State.core_modCore_ne _ hne.symm]
    rw [stealFrom_of_theirs hopen ht, if_neg hk, placeTake_eq (by rw [hcore])]

/-! ### TASK -/

theorem mayEnd_ok {s : State} (hdepth : s.me.depth = 0) (hgang : s.me.gang = false) (hlead : s.me.lead = false) :
    mayEnd s = .ok () s := by
  simp [mayEnd, M.bind_run, hdepth, hgang, hlead]

section
variable {h : Head} {d : Nat} {l : Launch} {f : Found} {s s1 s2 : State} (hg : guardOk h s.me = true)
  (hhnd : s.me.hnd = false) (hdepth : s.me.depth = 0) (hgang : s.me.gang = false) (hlead : s.me.lead = false)
include hg hhnd hdepth hgang hlead

/-- A search that takes nothing leaves the thread as it is, with its predicate clear (R333). -/
theorem exec_task_of_none (hl : s.launch s.me.vdev s.me.lid = some l) (hs : search s.cur.core l s = .ok none s1) :
    exec (.task h d) s = .next ((s1.modMe (fun x => x.setP d false)).advance h) := by
  refine leave_ok (u := ()) hg ?_
  refine (M.bind_ok (noHandler_ok hhnd)).trans <| (M.bind_ok (mayEnd_ok hdepth hgang hlead)).trans ?_
  simp only [M.bind_run, look_eq, myLaunch, me_eq, hl, hs, writeP_eq, change_eq]

theorem exec_task_of_some (hl : s.launch s.me.vdev s.me.lid = some l) (hs : search s.cur.core l s = .ok (some f) s1)
    (hmeet : meet false s1 = .ok () s2) :
    exec (.task h d) s = .next (((s2.hints h).endThread s.cur.core s.cur.seat).startThread s.cur.core s.cur.seat
      (((s2.hints h).endThread s.cur.core s.cur.seat).taskStart s.cur.core s.cur.seat l f)) := by
  refine leave_ok (u := ()) hg ?_
  refine (M.bind_ok (noHandler_ok hhnd)).trans <| (M.bind_ok (mayEnd_ok hdepth hgang hlead)).trans ?_
  simp only [M.bind_run, look_eq, myLaunch, me_eq, hl, hs, hmeet, change_eq]

theorem exec_task_of_no_launch (hl : s.launch s.me.vdev s.me.lid = none) :
    exec (.task h d) s = .next ((s.modMe (fun x => x.setP d false)).advance h) := by
  refine leave_ok (u := ()) hg ?_
  refine (M.bind_ok (noHandler_ok hhnd)).trans <| (M.bind_ok (mayEnd_ok hdepth hgang hlead)).trans ?_
  simp only [M.bind_run, look_eq, myLaunch, me_eq, hl, M.pure_eq, writeP_eq, change_eq]
end

/-! ### The event form of TASK -/

/-- The body of the event form once its operands and its privilege are accepted (R333). -/
def taskEvBody (pst d : Nat) (x : Seat) (v : VDev) (q : Quota) : M Unit :=
  if v.evput ≤ v.evget then writeP pst false
  else do
    let b ← seatRead (root x.vdev) (q.evbase + 32 * (v.evget % q.evcap)) 32
    writeScals d ((upto 4).map (fun i => BitVec.ofNat 64 (numAt b (8 * i) 8)))
    change (fun s => (s.modVd x.vdev (fun v => { v with evget := v.evget + 1 })).flushEvents 257 x.vdev)
    writeP pst true

section
variable {h : Head} {pst d : Nat} {s t : State} {u : Unit} (hg : guardOk h s.me = true) (hhnd : s.me.hnd = false)
  (hdom : s.me.who.dom = 0) (hd : d ≤ 60)
include hg hhnd hdom hd

theorem exec_taskEv_of_body (hbody : taskEvBody pst d s.me (s.vd s.me.vdev) (s.quota s.me.vdev) s = .ok u t) :
    exec (.taskEv h pst d) s = .next (t.advance h) := by
  refine issue_ok hg (Eq.trans ?_ hbody)
  refine (M.bind_ok (noHandler_ok hhnd)).trans <| (M.bind_ok (need_ok (decide_eq_true hd))).trans ?_
  refine (M.bind_ok (me_eq s)).trans ?_
  refine (congrFun (if_neg (not_not.mpr hdom)) s).trans ?_
  rfl
end

theorem searchedTasksStart : Say.tasksBecomeThreads := by
  intro h d pst c k l f bs s s1 s2
  refine ⟨fun hg hhnd hdepth hgang hlead hl => ⟨exec_task_of_none hg hhnd hdepth hgang hlead hl,
      fun hs hmeet _ => exec_task_of_some hg hhnd hdepth hgang hlead hl hs hmeet⟩,
    fun hg hhnd hdepth hgang hlead hl => exec_task_of_no_launch hg hhnd hdepth hgang hlead hl,
    fun hg hhnd hdom hd => ⟨fun hempty => ?_, fun hsome hread hwrite => ?_⟩,
    fun hk hocc hhalt hpre hret hturn hl hs => ?_, fun w hw hcount => ?_⟩
  · exact exec_taskEv_of_body (u := ()) hg hhnd hdom hd (congrFun (if_pos hempty) s)
  · refine exec_taskEv_of_body (u := ()) hg hhnd hdom hd ((congrFun (if_neg (Nat.not_le.mpr hsome)) s).trans ?_)
    exact (M.bind_ok hread).trans <| (M.bind_ok hwrite).trans rfl
  · have hrun : ¬(4 ≤ k ∨ ((s.core c).seat k).occ ≠ .idle ∨ (s.core c).halted = true ∨ (s.core c).pre.isSome = true ∨
        (s.core c).retiring = true ∨ (!s.inTurn ((s.core c).seat k).vdev) = true) := by
      have hocc : ((s.core c).seat k).occ = .idle := hocc
      have hturn : s.inTurn ((s.core c).seat k).vdev = true := hturn
      simp [hk, hocc, hhalt, hpre, hret, hturn]
    replace hl : s.launch ((s.core c).seat k).vdev ((s.core c).seat k).lid = some l := hl
    show execIdleSeatSearch c k s = _
    unfold execIdleSeatSearch
    dsimp only
    rw [if_neg hrun, hl]
    simp only [hs]
  · show execReturnSlotEntry c s = _
    simp only [execReturnSlotEntry, hw, hcount, if_true]

/-- Settles O30: the search in its order, and the thread that TASK or an idle seat starts from what it takes. -/
theorem tasksBecomeThreads : Obligations.TasksBecomeThreads := ⟨searchOrder, searchedTasksStart⟩

end Sys2Proof.Machine
end

section
/-! PROOFS. SIGCORE's target, and what its three functions do there (R366). -/
namespace Sys2Proof.Machine

/-! ### The target -/

section
variable {a : Src} {n : Nat} {s s1 : State}

theorem sigTarget_of_domain (h : s.me.curdom ≠ 0) : sigTarget a s = .error (.trap { cause := .privilege }) s := by
  refine (M.bind_ok (me_eq s)).trans ?_
  exact congrFun (if_pos h) s

/-- In domain 0 the target's number is checked against the die, then against the issuer's virtual device. -/
theorem sigTarget_of_root (h : s.me.curdom = 0) (ha : readN64 2 a s = .ok n s1) : sigTarget a s =
    (if s1.mapped n then need (s1.holdsCore s.me.vdev n) 2 n >>= fun _ => pure n else raise .address 2 n) s1 := by
  refine (M.bind_ok (me_eq s)).trans ?_
  refine (congrFun (if_neg (not_not.mpr h)) s).trans ?_
  refine (M.bind_ok ha).trans ?_
  cases hm : s1.mapped n with
  | true => simp [M.bind_run, hm]
  | false => simp [M.bind_run, hm]

theorem sigTarget_ok (h : Say.Target a n s s1) : sigTarget a s = .ok n s1 := by
  obtain ⟨hdom, ha, hmapped, hheld⟩ := h
  rw [sigTarget_of_root hdom ha, if_pos hmapped]
  exact M.bind_ok (need_ok hheld)

theorem sigTarget_refused {c : Cause} {v : Nat} (h : s.me.curdom = 0) (ha : readN64 2 a s = .ok n s1)
    (hc : (s1.mapped n = false ∧ c = Cause.address ∧ v = n) ∨
      (s1.mapped n = true ∧ s1.holdsCore s.me.vdev n = false ∧ c = Cause.operand ∧ v = n)) :
    sigTarget a s = .error (.trap { cause := c, opnd := 2, val := BitVec.ofNat 64 v }) s1 := by
  rw [sigTarget_of_root h ha]
  rcases hc with ⟨hm, rfl, rfl⟩ | ⟨hm, hheld, rfl, rfl⟩
  · rw [hm]; rfl
  · rw [if_pos hm, hheld]; rfl
end

/-- What stops the target's computation stops all three functions. -/
theorem exec_sigcore_of_refused {h : Head} {pst : Nat} {a b : Src} {t : Trap} {s s1 : State} (hg : guardOk h s.me = true)
    (ht : sigTarget a s = .error (.trap t) s1) :
    exec (.sigcorePre h pst a) s = .next (s.takeTrap s.cur t false) ∧
    exec (.sigcoreSpawn h pst a b) s = .next (s.takeTrap s.cur t false) ∧
    exec (.sigcoreRes h pst a b) s = .next (s.takeTrap s.cur t false) :=
  ⟨leave_stop hg (M.bind_error ht), issue_stop hg (M.bind_error ht), leave_stop hg (M.bind_error ht)⟩

/-! ### Pre-emption and spawn -/

section
variable {h : Head} {pst n va : Nat} {a b : Src} {bs : List Byte} {s s1 s2 s3 : State} (hg : guardOk h s.me = true)
  (ht : sigTarget a s = .ok n s1)
include hg ht

theorem exec_sigcorePre_ok :
    exec (.sigcorePre h pst a) s = .next (((s1.modMe (fun x => x.setP pst true)).advance h).preempt n .sigcore) :=
  leave_ok (u := ()) hg ((M.bind_ok ht).trans rfl)

variable (hb : readN64 3 b s1 = .ok va s2)
include hb

theorem exec_sigcoreSpawn_of_misaligned (hva : va % 64 ≠ 0) :
    exec (.sigcoreSpawn h pst a b) s = Say.trapped s .operand 3 va := by
  refine issue_stop (e := .trap _) (s' := s2) hg ?_
  refine (M.bind_ok ht).trans <| (M.bind_ok hb).trans <| M.bind_error ?_
  rw [beq_false_of_ne hva, need_false]

variable (hva : va % 64 = 0) (hbs : seatRead { vdev := s2.me.vdev, dom := 0, win := none } va 64 s2 = .ok bs s3)
include hva hbs

theorem exec_sigcoreSpawn_of_breach (hok : spawnOk s3 s2.me.vdev bs = false) :
    exec (.sigcoreSpawn h pst a b) s = Say.trapped s .operand 3 va := by
  refine issue_stop (e := .trap _) (s' := s3) hg ?_
  refine (M.bind_ok ht).trans <| (M.bind_ok hb).trans <| (M.bind_ok (need_ok (beq_iff_eq.mpr hva))).trans ?_
  refine (M.bind_ok (me_eq s2)).trans <| (M.bind_ok hbs).trans <| (M.bind_ok (look_eq _ s3)).trans <| M.bind_error ?_
  rw [hok, need_false]

/-- The spawn once its descriptor is read and accepted. -/
def spawnBody (pst n vd : Nat) (bs : List Byte) : M Unit := do
  let taken ← look (fun s => (s.seat n (numAt bs 0xA 1)).occ == .thread)
  if taken then writeP pst false
  else do
    let q ← look (fun s => ((s.launch vd (numAt bs 0xC 4)).map (fun l => l.queue)).getD 0)
    change (fun s => s.startThread n (numAt bs 0xA 1) {
      pc := Pc.ofWord (numAt bs 0 8), segb := numAt bs 8 2, vdev := vd, dom := numAt bs 0x38 2, lid := numAt bs 0xC 4
      queue := q, limit := numAt bs 0xB 1, image := numAt bs 0x10 8
      args := (upto 4).map (fun i => BitVec.ofNat 64 (numAt bs (0x18 + 8 * i) 8)) })
    writeP pst true

theorem exec_sigcoreSpawn_of_body {t : State} (hok : spawnOk s3 s2.me.vdev bs = true)
    (hbody : spawnBody pst n s2.me.vdev bs s3 = .ok () t) : exec (.sigcoreSpawn h pst a b) s = .next (t.advance h) := by
  refine issue_ok (u := ()) hg ?_
  refine (M.bind_ok ht).trans <| (M.bind_ok hb).trans <| (M.bind_ok (need_ok (beq_iff_eq.mpr hva))).trans ?_
  refine (M.bind_ok (me_eq s2)).trans <| (M.bind_ok hbs).trans <| (M.bind_ok (look_eq _ s3)).trans ?_
  refine (M.bind_ok (need_ok hok)).trans ?_
  exact hbody
end

theorem spawnBody_of_taken {pst n vd : Nat} {bs : List Byte} {s : State} (h : (s.seat n (numAt bs 0xA 1)).occ = .thread) :
    spawnBody pst n vd bs s = .ok () (s.modMe (fun x => x.setP pst false)) := by
  simp only [spawnBody, M.bind_run, look_eq, h, BEq.rfl, if_true, writeP_eq]

theorem Pc.ofWord_eq (n : Nat) : Pc.ofWord n = ⟨n / 2 ^ 32 % 2 ^ 13, n % 2 ^ 32⟩ := by
  simp only [Pc.ofWord, bitsAt, Nat.pow_zero, Nat.div_one]

theorem spawnBody_of_free {pst n vd : Nat} {bs : List Byte} {s : State} (h : (s.seat n (numAt bs 0xA 1)).occ ≠ .thread) :
    spawnBody pst n vd bs s = .ok () ((s.startThread n (numAt bs 0xA 1)
      { pc := ⟨numAt bs 0 8 / 2 ^ 32 % 2 ^ 13, numAt bs 0 8 % 2 ^ 32⟩, segb := numAt bs 8 2, vdev := vd
        dom := numAt bs 0x38 2, lid := numAt bs 0xC 4
        queue := ((s.launch vd (numAt bs 0xC 4)).map (fun l => l.queue)).getD 0, limit := numAt bs 0xB 1
        image := numAt bs 0x10 8
        args := (upto 4).map (fun i => BitVec.ofNat 64 (numAt bs (0x18 + 8 * i) 8)) }).modMe
          (fun x => x.setP pst true)) := by
  simp only [spawnBody, M.bind_run, look_eq, beq_false_of_ne h, Bool.false_eq_true, if_false, change_eq, writeP_eq,
    Pc.ofWord_eq]

/-! ### Restore -/

/-- The saved thread cannot come back: its seat is in use, its core has halted, or its image is not one of a saved thread
(R205, R366). -/
def State.unfit (s : State) (vd n : Nat) (i : SavedImage) : Bool :=
  s.imgTaken i || (s.seat i.core i.seat).seq != .none || (s.core n).halted ||
    (match s.istate vd i with | some v => v != 1 | none => false)

theorem State.unfit_iff {s : State} {vd n : Nat} {i : SavedImage} : s.unfit vd n i = true ↔
    s.imgTaken i = true ∨ (s.seat i.core i.seat).seq ≠ .none ∨ (s.core n).halted = true ∨
      ∃ v, s.istate vd i = some v ∧ v ≠ 1 := by
  cases hi : s.istate vd i with
  | none => simp [State.unfit, hi, or_assoc]
  | some v => simp [State.unfit, hi, or_assoc]

theorem State.not_unfit {s : State} {vd n : Nat} {i : SavedImage} (htaken : s.imgTaken i = false)
    (hseq : (s.seat i.core i.seat).seq = .none) (hhalt : (s.core n).halted = false) (hist : ∀ v, s.istate vd i = some v → v = 1) :
    ¬ s.unfit vd n i = true := by
  rw [State.unfit_iff]
  rintro (h | h | h | ⟨v, hv, hne⟩)
  · exact Bool.false_ne_true (htaken.symm.trans h)
  · exact h hseq
  · exact Bool.false_ne_true (hhalt.symm.trans h)
  · exact hne (hist v hv)

/-- The restore of an image: one that no record holds is recorded first (R366). -/
def State.resume (s : State) (vd : Nat) (i : SavedImage) : State :=
  (if (s.vd vd).saved.contains i then s
    else { s.modVd vd (fun v => { v with saved := v.saved ++ [i] }) with fresh := s.fresh + 1 }).restoreSeat vd i

theorem savedImage_none {s : State} {vd n va : Nat} (hrec : ∀ i ∈ (s.vd vd).saved, ¬(i.core = n ∧ i.image = va))
    (hseat : ∀ k, k < 4 → ¬((s.seat n k).vdev = vd ∧ (s.seat n k).image = va)) : s.savedImage vd n va = none := by
  have hfind : (s.vd vd).saved.find? (fun i => i.core == n && i.image == va) = none :=
    List.find?_eq_none.mpr fun i hi => by simpa using hrec i hi
  have hseats : (upto 4).find? (fun k => (s.seat n k).vdev == vd && (s.seat n k).image == va) = none :=
    List.find?_eq_none.mpr fun k hk => by simpa using hseat k (List.mem_range.mp hk)
  rw [State.savedImage, hfind, hseats]
  rfl

/-- SIGCORE.res once its image is found. -/
def resumeBody (h : Head) (pst n vd : Nat) (i : SavedImage) : M Unit := do
  let bad ← look (fun s => s.unfit vd n i)
  writeP pst (!bad)
  change (fun s => if bad then s.advance h else (s.advance h).resume vd i)
theorem resumeBody_eq (h : Head) (pst n vd : Nat) (i : SavedImage) (s : State) : resumeBody h pst n vd i s =
    .ok () (if s.unfit vd n i = true then (s.modMe (fun x => x.setP pst false)).advance h
      else ((s.modMe (fun x => x.setP pst true)).advance h).resume vd i) := by
  cases hbad : s.unfit vd n i with
  | true => simp only [resumeBody, M.bind_run, look_eq, hbad, writeP_eq, change_eq, if_true, Bool.not_true]
  | false => simp only [resumeBody, M.bind_run, look_eq, hbad, writeP_eq, change_eq, if_false, Bool.not_false, Bool.false_eq_true]

section
variable {h : Head} {pst n va : Nat} {a b : Src} {im : SavedImage} {s s1 s2 : State} (hg : guardOk h s.me = true)
  (ht : sigTarget a s = .ok n s1) (hb : readN64 3 b s1 = .ok va s2)
include hg ht hb

theorem exec_sigcoreRes_of_none (hi : s2.savedImage s2.me.vdev n va = none) :
    exec (.sigcoreRes h pst a b) s = .next ((s2.modMe (fun x => x.setP pst false)).advance h) := by
  have hlook : look (fun s => s.savedImage s2.me.vdev n va) s2 = .ok none s2 := by rw [look_eq, hi]
  exact leave_ok (u := ()) hg ((M.bind_ok ht).trans <| (M.bind_ok hb).trans <| (M.bind_ok (me_eq s2)).trans <|
    (M.bind_ok hlook).trans rfl)

theorem exec_sigcoreRes_of_some (hi : s2.savedImage s2.me.vdev n va = some im) :
    exec (.sigcoreRes h pst a b) s = .next (if s2.unfit s2.me.vdev n im = true
      then (s2.modMe (fun x => x.setP pst false)).advance h
      else ((s2.modMe (fun x => x.setP pst true)).advance h).resume s2.me.vdev im) := by
  have hlook : look (fun s => s.savedImage s2.me.vdev n va) s2 = .ok (some im) s2 := by rw [look_eq, hi]
  refine leave_ok (u := ()) hg ?_
  refine (M.bind_ok ht).trans <| (M.bind_ok hb).trans <| (M.bind_ok (me_eq s2)).trans <| (M.bind_ok hlook).trans ?_
  refine Eq.trans ?_ (resumeBody_eq h pst n s2.me.vdev im s2)
  unfold resumeBody State.unfit State.resume
  rfl
end

theorem State.resume_of_saved {s : State} {vd : Nat} {i : SavedImage} (h : i ∈ (s.vd vd).saved) :
    s.resume vd i = s.restoreSeat vd i := by
  rw [State.resume, if_pos (List.contains_iff_mem.mpr h)]

theorem State.resume_of_not_saved {s : State} {vd : Nat} {i : SavedImage} (h : i ∉ (s.vd vd).saved) :
    s.resume vd i = ({ s.modVd vd (fun v => { v with saved := v.saved ++ [i] }) with fresh := s.fresh + 1 } :
      State).restoreSeat vd i := by
  rw [State.resume, if_neg (mt List.contains_iff_mem.mp h)]

@[simp] theorem State.vdevs_hints (s : State) (h : Head) : (s.hints h).vdevs = s.vdevs := by
  unfold State.hints
  dsimp only
  split <;> simp

@[simp] theorem State.vd_setP_advance (s : State) (pst v : Nat) (b : Bool) (h : Head) :
    ((s.modMe (fun x => x.setP pst b)).advance h).vd v = s.vd v := by
  simp [State.vd, State.advance]

/-- Settles O44: the target's checks, then each function by the seat or the image that it finds. -/
theorem sigcoreActsOnTarget : Obligations.SigcoreActsOnTarget := by
  intro h pst n va k a b bs im s s1 s2 s3 hg
  refine ⟨fun hdom => exec_sigcore_of_refused hg (sigTarget_of_domain hdom),
    fun hdom ha c v hc => exec_sigcore_of_refused hg (sigTarget_refused hdom ha hc), fun htarget => ?_⟩
  have ht := sigTarget_ok htarget
  refine ⟨exec_sigcorePre_ok hg ht, fun hb hva => exec_sigcoreSpawn_of_misaligned hg ht hb hva,
    fun hb hva hbs hk => ⟨fun hok => exec_sigcoreSpawn_of_breach hg ht hb hva hbs hok,
      fun hok => ⟨fun hocc => ?_, fun hocc => ?_⟩⟩,
    fun hb => ⟨fun hrec hseat => exec_sigcoreRes_of_none hg ht hb (savedImage_none hrec hseat), fun hi => ⟨fun hbad => ?_,
      fun htaken hseq hhalt hist hmem => ?_, fun htaken hseq hhalt hist hmem => ?_⟩⟩⟩
  · subst hk
    exact exec_sigcoreSpawn_of_body hg ht hb hva hbs hok (spawnBody_of_taken hocc)
  · subst hk
    exact exec_sigcoreSpawn_of_body hg ht hb hva hbs hok (spawnBody_of_free hocc)
  · rw [exec_sigcoreRes_of_some hg ht hb hi, if_pos (State.unfit_iff.mpr hbad)]
  · rw [exec_sigcoreRes_of_some hg ht hb hi, if_neg (State.not_unfit htaken hseq hhalt hist),
      State.resume_of_saved (by simpa using hmem)]
  · rw [exec_sigcoreRes_of_some hg ht hb hi, if_neg (State.not_unfit htaken hseq hhalt hist),
      State.resume_of_not_saved (by simpa using hmem)]

end Sys2Proof.Machine
end

section
/-! PROOFS. Slot instructions reach the slot that they name, and supersteps end (R16, R32, R317, R327, R331). -/
namespace Sys2Proof.Machine

/-! ### Where a slot instruction goes -/

section
variable {h : Head} {c y e : Nat} {op : SlotOp} {s t : State}

theorem slotCore_none (s : State) : slotCore none s = .ok s.cur.core s := rfl

theorem slotCore_some {b : Src} {s1 : State} (hb : readN64 3 b s = .ok c s1) (hmapped : s1.mapped c = true)
    (hheld : s1.holdsCore s1.me.vdev c = true) : slotCore (some b) s = .ok c s1 := by
  simp only [slotCore, M.bind_run, look_eq, hb, hmapped, Bool.not_true, Bool.false_eq_true, if_false, M.pure_eq, me_eq,
    hheld, need_true]

/-- What the core's own sync unit answers to the issuer (R317, R327). -/
def State.slotHere (s : State) (h : Head) (y : Nat) (op : SlotOp) : Except Nat State :=
  (Say.standsAt h y s).slotDo (Say.slotAgent s) s.cur.core y op

/-- A slot instruction of the issuer's own core, once the core's banks have taken the strand's accesses. -/
def slotPerform (h : Head) (y : Nat) (op : SlotOp) : M Unit := do
  match ← look (fun s => s.slotHere h y op) with
  | .error e => raise .syncstate 0 e
  | .ok t => change (fun _ => t)

theorem slotGo_here (hc : c = s.cur.core) (hbank : s.bankDone = true) : slotGo h c y op s = slotPerform h y op s := by
  subst hc
  refine (M.bind_ok (look_eq State.cur s)).trans <| (M.bind_ok (me_eq s)).trans ?_
  refine (congrFun (if_pos rfl) s).trans <| (M.bind_ok (bankQuiet_ok hbank)).trans ?_
  rfl

theorem slotPerform_ok (hdo : s.slotHere h y op = .ok t) : slotPerform h y op s = .ok () t := by
  simp only [slotPerform, M.bind_run, look_eq, hdo, change_eq]

theorem slotPerform_error (hdo : s.slotHere h y op = .error e) :
    slotPerform h y op s = .error (.trap { cause := .syncstate, val := BitVec.ofNat 64 e }) s := by
  simp only [slotPerform, M.bind_run, look_eq, hdo, raise_eq]

/-- The issuer's strand waits for the answer of another core to the request that has left (R327). -/
def State.slotSent (s : State) (h : Head) (c y : Nat) (op : SlotOp) : State :=
  { (s.hints h).setBlk (Say.slotAgent s) (.sent s.accNum) with
    accNum := s.accNum + 1
    slotReqs := s.slotReqs ++ [{ num := s.accNum, core := s.cur.core, seat := s.cur.seat, strn := s.cur.strn
                                 hnd := (Say.slotAgent s).hnd, dest := c, y := y, op := op }] }

theorem slotGo_there (hc : c ≠ s.cur.core) : slotGo h c y op s = .ok () (s.slotSent h c y op) := by
  refine (M.bind_ok (look_eq State.cur s)).trans <| (M.bind_ok (me_eq s)).trans ?_
  refine (congrFun (if_neg hc) s).trans ?_
  rfl
end

/-- A slot instruction once its operands have made an operation (R327). -/
def slotBody (h : Head) (y : Nat) (b : Option Src) (arrival : Bool) (op : SlotOp) : M Unit := do
  let c ← slotCore b
  if arrival then release else afterLda
  slotGo h c y op

/-- The wait of a slot instruction: an arrival is a release, any other follows the strand's LDAs (R327). -/
def State.slotMay (s : State) (arrival : Bool) : Prop := if arrival then s.quiet s.cur = true else s.ldaOpen s.cur = false

theorem slotBody_eq {h : Head} {y c : Nat} {b : Option Src} {arrival : Bool} {op : SlotOp} {s s1 : State}
    (hcore : slotCore b s = .ok c s1) (hmay : s1.slotMay arrival) : slotBody h y b arrival op s = slotGo h c y op s1 := by
  refine (M.bind_ok hcore).trans ?_
  cases arrival with
  | true => exact M.bind_ok (release_ok hmay)
  | false => exact M.bind_ok (afterLda_ok hmay)

/-- A slot instruction whose operands make an operation reaches the slot (R317, R327). -/
theorem slotInstr_reaches {i : Option Src → Instr} {h : Head} {y : Nat} {arrival : Bool} {op : SlotOp} {m : M SlotOp}
    {s s1 : State} (hi : ∀ b, exec (i b) s = leave h (m >>= slotBody h y b arrival) s) (hop : m s = .ok op s1) :
    Say.SlotInstr i h y arrival op s s1 := by
  intro hg hcur may own
  have hown (b : Option Src) (s2 : State) (hcore : slotCore b s1 = .ok s2.cur.core s2) (hcur2 : s2.cur = s.cur) : own b s2 := by
    intro hmay hbank
    have hbody : (m >>= slotBody h y b arrival) s = slotPerform h y op s2 :=
      (M.bind_ok hop).trans ((slotBody_eq hcore hmay).trans (slotGo_here rfl hbank))
    refine ⟨fun t hdo => ?_, fun e hdo => ?_⟩
    · rw [← hcur2] at hdo
      exact (hi b).trans (leave_ok (u := ()) hg (hbody.trans (slotPerform_ok hdo)))
    · rw [← hcur2] at hdo
      exact (hi b).trans (leave_stop (e := .trap _) hg (hbody.trans (slotPerform_error hdo)))
  refine ⟨hown none s1 (slotCore_none s1) hcur, fun b c s2 hb hcur2 hmapped hheld => ⟨fun hc => ?_, fun hc hmay => ?_⟩⟩
  · exact hown (some b) s2 (by rw [hcur2, ← hc]; exact slotCore_some hb hmapped hheld) hcur2
  · have hbody := slotBody_eq (h := h) (y := y) (op := op) (slotCore_some hb hmapped hheld) hmay
    exact (hi (some b)).trans (leave_ok (u := ()) hg ((M.bind_ok hop).trans (hbody.trans (slotGo_there (by rwa [hcur2])))))

/-! ### Their operands -/

theorem parties_ok {a : Src} {n : Nat} {s s1 : State} (ha : readN64 2 a s = .ok n s1) (hlo : 1 ≤ n) (hhi : n ≤ 65535) :
    parties a s = .ok n s1 := by
  simp only [parties, M.bind_run, ha, hlo, hhi, decide_true, Bool.and_self, need_true, M.pure_eq]

theorem tokenD_ok {d : Nat} {s : State} (hd : Say.Dest d s) : tokenD d s = .ok () s := by
  obtain ⟨hlt, hfull⟩ := hd
  simp only [tokenD, M.bind_run, Nat.not_le.mpr hlt, if_false, me_eq, hfull, waitFor_true]

theorem slotInstructionsReachTheirUnit : Say.slotInstructionsReachTheirUnit := by
  intro h y d n v a s s1
  refine ⟨fun ha hlo hhi => ⟨?_, ?_⟩, ?_, ?_, fun ha => ⟨?_, ?_, ?_⟩, ?_, ?_, fun hd => ⟨?_, ?_⟩, ?_, ?_, fun hhnd => ?_⟩
  · exact slotInstr_reaches (fun _ => rfl) ((M.bind_ok (parties_ok ha hlo hhi)).trans rfl)
  · exact slotInstr_reaches (fun _ => rfl) ((M.bind_ok (parties_ok ha hlo hhi)).trans rfl)
  · exact slotInstr_reaches (fun _ => rfl) rfl
  · exact slotInstr_reaches (fun _ => rfl) rfl
  · exact slotInstr_reaches (fun _ => rfl) ((M.bind_ok ha).trans rfl)
  · exact slotInstr_reaches (fun _ => rfl) ((M.bind_ok ha).trans rfl)
  · exact slotInstr_reaches (fun _ => rfl) ((M.bind_ok ha).trans rfl)
  · exact slotInstr_reaches (fun _ => rfl) rfl
  · exact slotInstr_reaches (fun _ => rfl) rfl
  · exact slotInstr_reaches (fun _ => rfl) ((M.bind_ok (tokenD_ok hd)).trans rfl)
  · exact slotInstr_reaches (fun _ => rfl) ((M.bind_ok (tokenD_ok hd)).trans rfl)
  · exact slotInstr_reaches (fun _ => rfl) rfl
  · exact slotInstr_reaches (fun _ => rfl) rfl
  · exact slotInstr_reaches (fun _ => rfl) ((M.bind_ok (noHandler_ok hhnd)).trans rfl)

/-! ### Supersteps -/

section
variable {h : Head} {l : Launch} {s : State}

theorem exec_sstep_of_launch (hg : guardOk h s.me = true) (hquiet : s.quiet s.cur = true)
    (hl : s.launch s.me.vdev s.me.lid = some l) : exec (.sstep h) s = .next ((s.hints h).setBlk s.cur .sstep) := by
  refine leave_ok (u := ()) hg ?_
  simp only [M.bind_run, release_ok hquiet, look_eq, myLaunch, me_eq, hl, change_eq]

theorem exec_sstep_of_no_launch (hg : guardOk h s.me = true) (hquiet : s.quiet s.cur = true)
    (hl : s.launch s.me.vdev s.me.lid = none) : exec (.sstep h) s = .next (s.advance h) := by
  refine leave_ok (u := ()) hg ?_
  simp only [M.bind_run, release_ok hquiet, look_eq, myLaunch, me_eq, hl, change_eq]

variable (hfind : s.launches.find? (fun m => m.lid == l.lid && m.started) = some l)
include hfind

theorem superstep_waits (hsst : l.sst = none) (hall : s.allArrived l = false) : exec (.superstepRelease l.lid) s = .next s := by
  show execSuperstepRelease l.lid s = _
  simp only [execSuperstepRelease, hfind, hsst, hall, Bool.false_eq_true, if_false]

theorem superstep_starts (hsst : l.sst = none) (hall : s.allArrived l = true) : exec (.superstepRelease l.lid) s =
    .next (s.setLaunch { l with sst := some (xferStart l), arrived := s.arrivals l }) := by
  show execSuperstepRelease l.lid s = _
  simp only [execSuperstepRelease, hfind, hsst, hall, if_true]

theorem superstep_over (hsst : l.sst = some []) : exec (.superstepRelease l.lid) s = .next (s.stepOver l) := by
  show execSuperstepRelease l.lid s = _
  simp only [execSuperstepRelease, hfind, hsst]

/-- While transfers are left, a part of one of those that go on runs (R32, R151). -/
theorem superstep_moves {xs : List XferSt} (hsst : l.sst = some xs) (hgo : ∃ x ∈ xs, s.xferGoes l x = true) :
    ∃ x ∈ xs, s.xferGoes l x = true ∧
      exec (.superstepRelease l.lid) s = .next (State.xferStep { s with fresh := s.fresh + 1 } l xs x) := by
  obtain ⟨x, hx, hxgo⟩ := hgo
  have hmem : x ∈ xs.filter (fun x => s.xferGoes l x) := List.mem_filter.mpr ⟨hx, hxgo⟩
  cases hgoing : xs.filter (fun x => s.xferGoes l x) with
  | nil => rw [hgoing] at hmem; cases hmem
  | cons x0 ys =>
    have hlt : Config.nextRank s.fresh % (ys.length + 1) < (x0 :: ys).length := Nat.mod_lt _ (Nat.succ_pos _)
    have hchosen := List.getElem_mem hlt
    generalize hz : (x0 :: ys)[Config.nextRank s.fresh % (ys.length + 1)] = z at hchosen
    obtain ⟨hzs, hzgo⟩ := List.mem_filter.mp (hgoing ▸ hchosen)
    refine ⟨z, hzs, hzgo, ?_⟩
    have hget : ((x0 :: ys)[Config.nextRank s.fresh % (ys.length + 1)]?).getD x0 = z := by
      rw [List.getElem?_eq_getElem hlt, hz, Option.getD_some]
    cases xs with
    | nil => cases hzs
    | cons x1 xr =>
      show execSuperstepRelease l.lid s = _
      simp only [execSuperstepRelease, hfind, hsst, hgoing, hget]
end

/-! ### The arrival at another core -/

/-- The end of a slot instruction that has arrived at its core (R327). -/
def State.slotArrived (s : State) (q : SlotReq) : Out :=
  match (s.atSlot ⟨q.core, q.seat, q.strn, q.hnd⟩ q.dest q.y).slotDo ⟨q.core, q.seat, q.strn, q.hnd⟩ q.dest q.y q.op with
  | .ok t => .next t
  | .error e => .next (s.lateTrap ⟨q.core, q.seat, q.strn, q.hnd⟩ { cause := .syncstate, val := BitVec.ofNat 64 e })

theorem State.slotArrived_ok {q : SlotReq} {s t : State}
    (h : (s.atSlot ⟨q.core, q.seat, q.strn, q.hnd⟩ q.dest q.y).slotDo ⟨q.core, q.seat, q.strn, q.hnd⟩ q.dest q.y q.op = .ok t) :
    s.slotArrived q = .next t := by
  rw [State.slotArrived, h]

theorem State.slotArrived_error {q : SlotReq} {e : Nat} {s : State}
    (h : (s.atSlot ⟨q.core, q.seat, q.strn, q.hnd⟩ q.dest q.y).slotDo ⟨q.core, q.seat, q.strn, q.hnd⟩ q.dest q.y q.op =
      .error e) :
    s.slotArrived q =
      .next (s.lateTrap ⟨q.core, q.seat, q.strn, q.hnd⟩ { cause := .syncstate, val := BitVec.ofNat 64 e }) := by
  rw [State.slotArrived, h]

theorem arrival_performs {q : SlotReq} {s : State} (hfind : s.slotReqs.find? (fun r => r.num == q.num) = some q)
    (hmapped : s.mapped q.dest = true) (hbehind : s.packetBehind q.core q.dest q.num = false)
    (hcores : ∀ x ∈ (s.vd (s.seat q.core q.seat).vdev).cores, x.1 ≠ q.dest) :
    exec (.remoteSyncArrival q.num) s =
      ({ s with slotReqs := s.slotReqs.filter (fun r => r.num != q.num) } : State).slotArrived q := by
  have hfree : (s.vd (s.seat q.core q.seat).vdev).cores.any (fun x => x.1 == q.dest) = false := by simpa using hcores
  have hgo : (!s.mapped q.dest || s.packetBehind q.core q.dest q.num ||
      (s.vd (s.seat q.core q.seat).vdev).cores.any (fun x => x.1 == q.dest)) = false := by simp only [hmapped, hbehind, hfree]; rfl
  show execRemoteSyncArrival q.num s = _
  unfold execRemoteSyncArrival
  rw [hfind]
  exact if_neg (Bool.eq_false_iff.mp hgo)

theorem superstepsAndRemoteSlots : Say.superstepsAndRemoteSlots := by
  intro h s t l q e
  refine ⟨fun hg hquiet hl => exec_sstep_of_launch hg hquiet hl, fun hg hquiet hl => exec_sstep_of_no_launch hg hquiet hl,
    fun hfind => ⟨superstep_waits hfind, superstep_starts hfind, fun xs hsst hgo => superstep_moves hfind hsst hgo,
      superstep_over hfind⟩, fun hfind hmapped hbehind hcores => ?_⟩
  rw [arrival_performs hfind hmapped hbehind hcores]
  exact ⟨State.slotArrived_ok, State.slotArrived_error⟩

/-- Settles O28: one lemma for every slot instruction, one per state of a launch's superstep, and the arrival elsewhere. -/
theorem slotInstructionsAndSupersteps : Obligations.SlotInstructionsAndSupersteps :=
  ⟨slotInstructionsReachTheirUnit, superstepsAndRemoteSlots⟩

end Sys2Proof.Machine
end

section
/-! PROOFS. The waits of pairs and gangs end, and what a gang leaves in its members (R25, R210, R363, R364). -/
namespace Sys2Proof.Machine

/-! ### The end of a main strand's wait -/

theorem State.modSeat_congr {s : State} {c k : Nat} {f g : Seat → Seat} (h : f (s.seat c k) = g (s.seat c k)) :
    s.modSeat c k f = s.modSeat c k g := by
  have h : f ((s.core c).seat k) = g ((s.core c).seat k) := h
  simp only [State.modSeat, State.modCore, Core.modSeat, h]

theorem State.core_modSeat_ne (s : State) {c n : Nat} (h : n ≠ c) (k : Nat) (f : Seat → Seat) :
    (s.modSeat c k f).core n = s.core n := State.core_modCore_ne s h _

theorem State.core_modSeat_self (s : State) (c k : Nat) (f : Seat → Seat) : (s.modSeat c k f).core c = (s.core c).modSeat k f :=
  State.core_modCore_self s c _

/-- An end of a wait changes the seat alone. -/
theorem State.finish_eq_modSeat (s : State) (a : Agent) (d : Option (Nat × Word)) (p : Option (Nat × Bool)) (hk : a.seat < 4) :
    ∃ f, s.finish a d p = s.modSeat a.core a.seat f := by
  unfold State.finish
  dsimp only
  rw [if_neg (Nat.not_le.mpr hk)]
  split
  · split
    · exact ⟨_, rfl⟩
    · exact ⟨_, rfl⟩
  · exact ⟨_, rfl⟩

/-- A thread's wait ends with a predicate on its seat, or in what its handler will return to. -/
theorem State.finish_answered {s : State} {c k pd : Nat} {v hnd : Bool} (hk : k < 4)
    (h : (s.seat c k).held = none ∨ hnd = false) :
    s.finish { core := c, seat := k, hnd := hnd } none (some (pd, v)) =
      s.modSeat c k (fun x => Say.answered x pd v) := by
  unfold State.finish
  dsimp only
  rw [if_neg (Nat.not_le.mpr hk)]
  cases hheld : (s.seat c k).held with
  | none => exact State.modSeat_congr (by simp only [Say.answered, hheld])
  | some r =>
    obtain rfl : hnd = false := h.resolve_left (by simp [hheld])
    exact State.modSeat_congr (by simp [Say.answered, hheld])

theorem pairAsker_lt {x : Core} {j : Nat} (h : x.pairAsker = some j) : j < 4 := List.mem_range.mp (List.mem_of_find?_eq_some h)

/-- The refusal of a partner that waits, in terms of the end of its wait. -/
theorem State.refusePair_eq {t : State} {m j : Nat} {q : Pair} (hq : (t.core m).pair = some q)
    (hj : (t.core m).pairAsker = some j) :
    t.refusePair m = (t.modCore m (fun y => { y with pair := none })).finishMain m j (some (q.pd, false)) := by
  rw [State.refusePair, hq, hj]

theorem State.seat_uncouple (t : State) (m j : Nat) : (t.modCore m (fun y => { y with pair := none })).seat m j = t.seat m j := by
  rw [State.seat, State.core_modCore_self]
  rfl

theorem pairRefusal : Say.pairRefusal := by
  intro m j q t hq hj u
  have hlt := pairAsker_lt hj
  have hu : u = (t.modCore m (fun y => { y with pair := none })).finishMain m j (some (q.pd, false)) := State.refusePair_eq hq hj
  obtain ⟨f, hf⟩ : ∃ f, u = (t.modCore m (fun y => { y with pair := none })).modSeat m j f :=
    hu ▸ State.finish_eq_modSeat _ _ none _ hlt
  have hseat := State.seat_uncouple t m j
  refine ⟨?_, fun n hn => ?_, fun _ hheld => ?_, fun r _ hblk => ?_⟩
  · rw [hf, State.core_modSeat_self, State.core_modCore_self, Core.modSeat_pair]
  · rw [hf, State.core_modSeat_ne _ hn, State.core_modCore_ne _ hn]
  · rw [hu, State.finishMain, State.finish_answered hlt (.inl (hseat ▸ hheld)), State.seat_modSeat_self _ _ hlt, hseat]
  · rw [hu, State.finishMain, hseat, hblk, State.finish_answered hlt (.inr (Bool.and_false _)), State.seat_modSeat_self _ _ hlt,
      hseat]

/-! ### Steps along a list of cores -/

/-- A step for one core leaves every other core alone. -/
def OneCore (step : State → Nat → State) : Prop := ∀ s c n, n ≠ c → (step s c).core n = s.core n

theorem OneCore.core_foldl {step : State → Nat → State} (h : OneCore step) {cs : List Nat} {n : Nat} (hn : n ∉ cs) (s : State) :
    (cs.foldl step s).core n = s.core n := by
  induction cs generalizing s with
  | nil => rfl
  | cons c cs ih =>
    obtain ⟨hne, hcs⟩ := not_or.mp (mt List.mem_cons.mpr hn)
    exact (ih hcs _).trans (h s c n hne)

/-- The first step for a core of the list finds it as it stood. -/
theorem OneCore.foldl_of_mem {step : State → Nat → State} (h : OneCore step) {cs : List Nat} {n : Nat} (hn : n ∈ cs) (s : State) :
    ∃ (s' : State) (rest : List Nat), s'.core n = s.core n ∧ cs.foldl step s = rest.foldl step (step s' n) ∧
      (cs.Nodup → n ∉ rest) := by
  obtain ⟨before, rest, rfl, hbefore⟩ := List.eq_append_cons_of_mem hn
  refine ⟨before.foldl step s, rest, h.core_foldl hbefore s, ?_, fun hnodup => ?_⟩
  · rw [List.foldl_append, List.foldl_cons]
  · exact (List.nodup_cons.mp (List.nodup_append.mp hnodup).2.1).1

/-! ### The refusal of a gang -/

/-- The threads of one core that wait for a gang go on without it. -/
def State.refuseCore (l : Nat) (s : State) (n : Nat) : State := ((s.core n).askers l).foldl (fun s k => s.finishFollow n k false) s

theorem State.refuseGang_eq (s : State) (l : Nat) (cs : List Nat) : s.refuseGang l cs = cs.foldl (State.refuseCore l) s := rfl

theorem askers_lt {x : Core} {l k : Nat} (h : k ∈ x.askers l) : k < 4 := List.mem_range.mp (List.mem_of_mem_filter h)

theorem askers_nodup (x : Core) (l : Nat) : (x.askers l).Nodup := List.nodup_range.filter _

theorem State.finishFollow_eq_modSeat (s : State) (n : Nat) {k : Nat} (hk : k < 4) (v : Bool) :
    ∃ f, s.finishFollow n k v = s.modSeat n k f := State.finish_eq_modSeat s _ none _ hk

theorem State.finishFollow_of_asks {s : State} {n k l a b pd : Nat} (hk : k < 4) (hasks : (s.seat n k).asks = some (l, a, b, pd))
    (v : Bool) : s.finishFollow n k v = s.modSeat n k (fun x => Say.answered x pd v) := by
  rw [State.finishFollow, hasks]
  exact State.finish_answered hk (.inr rfl)

/-- Ends of waits on seats of core n leave the others as they are. -/
theorem foldl_finishFollow_other {n : Nat} {ks : List Nat} (hks : ∀ k ∈ ks, k < 4) (s : State) :
    (∀ m, m ≠ n → (ks.foldl (fun s k => s.finishFollow n k false) s).core m = s.core m) ∧
    ∀ k, k ∉ ks → (ks.foldl (fun s k => s.finishFollow n k false) s).seat n k = s.seat n k := by
  induction ks generalizing s with
  | nil => exact ⟨fun _ _ => rfl, fun _ _ => rfl⟩
  | cons j ks ih =>
    obtain ⟨f, hf⟩ := s.finishFollow_eq_modSeat n (hks j List.mem_cons_self) false
    obtain ⟨hcores, hseats⟩ := ih (fun k hk => hks k (List.mem_cons_of_mem j hk)) (s.finishFollow n j false)
    refine ⟨fun m hm => (hcores m hm).trans ?_, fun k hk => ?_⟩
    · rw [hf, State.core_modSeat_ne _ hm]
    · obtain ⟨hne, hnot⟩ := not_or.mp (mt List.mem_cons.mpr hk)
      exact (hseats k hnot).trans (by rw [hf, State.seat_modSeat_ne _ (.inr hne)])

theorem foldl_finishFollow_of_mem {n k l a b pd : Nat} {ks : List Nat} (hks : ∀ k ∈ ks, k < 4) (hnodup : ks.Nodup) (hk : k ∈ ks)
    {s : State} (hasks : (s.seat n k).asks = some (l, a, b, pd)) :
    (ks.foldl (fun s k => s.finishFollow n k false) s).seat n k = Say.answered (s.seat n k) pd false := by
  induction ks generalizing s with
  | nil => cases hk
  | cons j ks ih =>
    obtain ⟨hj, hnodup⟩ := List.nodup_cons.mp hnodup
    have hrest : ∀ k ∈ ks, k < 4 := fun k hk => hks k (List.mem_cons_of_mem j hk)
    have hjlt := hks j List.mem_cons_self
    rw [List.foldl_cons]
    by_cases hkj : k = j
    · subst hkj
      rw [(foldl_finishFollow_other hrest _).2 k hj, State.finishFollow_of_asks hjlt hasks, State.seat_modSeat_self _ _ hjlt]
    · obtain ⟨f, hf⟩ := s.finishFollow_eq_modSeat n hjlt false
      have hseat : (s.finishFollow n j false).seat n k = s.seat n k := by rw [hf, State.seat_modSeat_ne _ (.inr hkj)]
      rw [ih hrest hnodup ((List.mem_cons.mp hk).resolve_left hkj) (hseat ▸ hasks), hseat]

theorem State.refuseCore_oneCore (l : Nat) : OneCore (State.refuseCore l) :=
  fun s _ n hn => (foldl_finishFollow_other (fun _ => askers_lt) s).1 n hn

@[simp] theorem Strand.advance_blk (t : Strand) : t.advance.blk = t.blk := by
  unfold Strand.advance
  split
  · rfl
  · split <;> rfl

@[simp] theorem Seat.syncRep_held (x : Seat) (old : Rep) : (x.syncRep old).held = x.held := by
  unfold Seat.syncRep
  split <;> rfl

@[simp] theorem Seat.syncRep_main (x : Seat) (old : Rep) : (x.syncRep old).main = x.main := by
  unfold Seat.syncRep
  split <;> rfl

@[simp] theorem Seat.advance_held (x : Seat) (k : StrandK) : (x.advance k).held = x.held := by
  rw [Seat.advance, Seat.syncRep_held, Seat.modStrand_held]

@[simp] theorem Seat.advance_main (x : Seat) : (x.advance .main).main = x.main.advance := by
  rw [Seat.advance, Seat.syncRep_main]
  rfl

@[simp] theorem Seat.modStrand_main (x : Seat) (f : Strand → Strand) : (x.modStrand .main f).main = f x.main := rfl

/-- A thread whose wait has ended asks for no gang. -/
theorem answered_asks (x : Seat) (pd : Nat) (v : Bool) : (Say.answered x pd v).asks = none := by
  cases hheld : x.held with
  | none => simp [Say.answered, hheld, Seat.asks]
  | some r => simp [Say.answered, hheld, Seat.asks]

theorem not_mem_askers {x : Core} {l k : Nat} (h : (x.seat k).asks = none) : k ∉ x.askers l := by
  simp [Core.askers, h]

/-- A refusal leaves a thread alone that asks for no gang. -/
theorem State.refuseGang_of_not_asking {n k l : Nat} (cs : List Nat) {s : State} (h : (s.seat n k).asks = none) :
    (s.refuseGang l cs).seat n k = s.seat n k := by
  rw [State.refuseGang_eq]
  induction cs generalizing s with
  | nil => rfl
  | cons c cs ih =>
    have hseat : (s.refuseCore l c).seat n k = s.seat n k := by
      by_cases hc : n = c
      · subst hc
        exact (foldl_finishFollow_other (fun _ => askers_lt) s).2 k (not_mem_askers h)
      · exact congrArg (Core.seat · k) (State.refuseCore_oneCore l s c n hc)
    rw [List.foldl_cons, ih (hseat ▸ h), hseat]

theorem State.refuseGang_of_asking {n k l a b pd : Nat} {cs : List Nat} {s : State} (hn : n ∈ cs)
    (hk : k ∈ (s.core n).askers l) (hasks : (s.seat n k).asks = some (l, a, b, pd)) :
    (s.refuseGang l cs).seat n k = Say.answered (s.seat n k) pd false := by
  obtain ⟨s', rest, hcore, hfold, -⟩ := (State.refuseCore_oneCore l).foldl_of_mem hn s
  have hseat : s'.seat n k = s.seat n k := congrArg (Core.seat · k) hcore
  have hfirst : (s'.refuseCore l n).seat n k = Say.answered (s.seat n k) pd false := by
    rw [← hseat]
    exact foldl_finishFollow_of_mem (fun _ => askers_lt) (askers_nodup _ l) (hcore ▸ hk) (hseat ▸ hasks)
  rw [State.refuseGang_eq, hfold, ← State.refuseGang_eq, State.refuseGang_of_not_asking rest (hfirst ▸ answered_asks _ pd false),
    hfirst]

/-! ### The start of a gang -/

/-- The thread of one core joins a gang, where it runs and names the gang's shape (R25, R364). -/
def State.joinCore (l w h : Nat) (s : State) (n : Nat) : State :=
  match (s.core n).joins l w h with
  | some k =>
    let s1 := (s.finishFollow n k true).modSeat n k (fun t => { t with lead := n == l, gang := n != l })
    s1.modCore n (fun x => { x with gang := some {
      leader := l, w := w, h := h, seat := k, gdone := false, ret := (s1.seat n k).main.pc } })
  | none => s

theorem State.startGang_eq (s : State) (l w h : Nat) (cs : List Nat) : s.startGang l w h cs = cs.foldl (State.joinCore l w h) s :=
  rfl

theorem joins_lt {x : Core} {l w h k : Nat} (hk : x.joins l w h = some k) : k < 4 :=
  List.mem_range.mp (List.mem_of_find?_eq_some hk)

theorem State.joinCore_of_some {s : State} {l w h n k : Nat} (hk : (s.core n).joins l w h = some k) :
    s.joinCore l w h n = ((s.finishFollow n k true).modSeat n k (fun t => { t with lead := n == l, gang := n != l })).modCore n
      (fun x => { x with gang := some { leader := l, w := w, h := h, seat := k, gdone := false, ret :=
        (((s.finishFollow n k true).modSeat n k (fun t => { t with lead := n == l, gang := n != l })).seat n k).main.pc } }) := by
  rw [State.joinCore, hk]

theorem State.joinCore_oneCore (l w h : Nat) : OneCore (State.joinCore l w h) := by
  intro s c n hn
  cases hk : (s.core c).joins l w h with
  | none => rw [State.joinCore, hk]
  | some k =>
    obtain ⟨f, hf⟩ := s.finishFollow_eq_modSeat c (joins_lt hk) true
    rw [State.joinCore_of_some hk, State.core_modCore_ne _ hn, State.core_modSeat_ne _ hn, hf, State.core_modSeat_ne _ hn]

theorem State.joinCore_self {s : State} {l w h n k a b pd : Nat} (hk : (s.core n).joins l w h = some k)
    (hasks : (s.seat n k).asks = some (l, a, b, pd)) :
    ((s.joinCore l w h n).seat n k = { Say.answered (s.seat n k) pd true with lead := n == l, gang := n != l }) ∧
    ((s.joinCore l w h n).core n).gang = some { leader := l, w := w, h := h, seat := k, gdone := false
                                                ret := (Say.answered (s.seat n k) pd true).main.pc } := by
  have hlt := joins_lt hk
  have hseat : ((s.finishFollow n k true).modSeat n k (fun t => { t with lead := n == l, gang := n != l })).seat n k =
      { Say.answered (s.seat n k) pd true with lead := n == l, gang := n != l } := by
    rw [State.finishFollow_of_asks hlt hasks, State.seat_modSeat_self _ _ hlt, State.seat_modSeat_self _ _ hlt]
  rw [State.joinCore_of_some hk, State.core_modCore_self, hseat]
  refine ⟨?_, rfl⟩
  exact (congrArg (Core.seat · k) (State.core_modCore_self _ n _)).trans hseat

/-! ### The end of a gang -/

/-- What the end of a leader's gang leaves of a core. -/
def Core.ungang (l n : Nat) (x : Core) : Core :=
  match x.gang with
  | some g =>
    if g.leader = l then { x with gang := none }.modSeat g.seat (fun t => t.ungang (if n ≠ l then some g.ret else none)) else x
  | none => x

theorem State.core_endGang (s : State) (l n : Nat) : (s.endGang l).core n = (s.core n).ungang l n :=
  mapGet_mapVals (fun n x => Core.ungang l n x) rfl s.cores

theorem Core.ungang_of_gang {x : Core} {g : Gang} {l n : Nat} (hg : x.gang = some g) (hl : g.leader = l) :
    x.ungang l n = { x with gang := none }.modSeat g.seat (fun t => t.ungang (if n ≠ l then some g.ret else none)) := by
  rw [Core.ungang, hg]
  exact if_pos hl

theorem Core.ungang_of_other {x : Core} {l n : Nat} (h : ∀ g, x.gang = some g → g.leader ≠ l) : x.ungang l n = x := by
  cases hg : x.gang with
  | none => rw [Core.ungang, hg]
  | some g =>
    rw [Core.ungang, hg]
    exact if_neg (h g hg)

/-- A seat that leaves its gang keeps its registers and predicates. -/
theorem Seat.ungang_frame (x : Seat) (ret : Option Pc) : (x.ungang ret).lead = false ∧ (x.ungang ret).gang = false ∧
    (∀ i, (x.ungang ret).reg i = x.reg i) ∧ ∀ i, (x.ungang ret).p i = x.p i := by
  unfold Seat.ungang
  dsimp only
  split
  · exact ⟨rfl, rfl, fun _ => rfl, fun _ => rfl⟩
  · split <;> exact ⟨rfl, rfl, fun _ => rfl, fun _ => rfl⟩

theorem Seat.ungang_none (x : Seat) : (x.ungang none).main = x.main ∧ (x.ungang none).held = x.held := ⟨rfl, rfl⟩

theorem Seat.ungang_of_running {x : Seat} (h : x.held = none) (pc : Pc) : (x.ungang (some pc)).main = { x.main with pc := pc } := by
  simp only [Seat.ungang, h]

theorem Seat.ungang_of_held {x : Seat} {r : Held} (h : x.held = some r) (pc : Pc) :
    (x.ungang (some pc)).main = x.main ∧ ∃ r', (x.ungang (some pc)).held = some r' ∧ r'.mpc = pc := by
  simp only [Seat.ungang, h]
  exact ⟨trivial, _, rfl, rfl⟩

theorem State.seat_endGang {t : State} {g : Gang} {l n : Nat} (hg : (t.core n).gang = some g) (hl : g.leader = l)
    (hlt : g.seat < 4) :
    (t.endGang l).seat n g.seat = (t.seat n g.seat).ungang (if n ≠ l then some g.ret else none) := by
  rw [State.seat, State.core_endGang, Core.ungang_of_gang hg hl, Core.seat_modSeat_self _ hlt]
  rfl

theorem gangMembers : Say.gangMembers := by
  intro l w ht n k pd a b g cs t
  refine ⟨State.refuseGang_of_asking, fun hn => ⟨(State.refuseCore_oneCore l).core_foldl hn t,
      (State.joinCore_oneCore l w ht).core_foldl hn t⟩, fun hn hnodup hk hasks => ?_, fun hg hl hlt => ?_, fun h => ?_⟩
  · obtain ⟨s', rest, hcore, hfold, hrest⟩ := (State.joinCore_oneCore l w ht).foldl_of_mem hn t
    have hend : (t.startGang l w ht cs).core n = (s'.joinCore l w ht n).core n := by
      rw [State.startGang_eq, hfold, (State.joinCore_oneCore l w ht).core_foldl (hrest hnodup)]
    have hseat : s'.seat n k = t.seat n k := congrArg (Core.seat · k) hcore
    obtain ⟨hself, hgang⟩ := State.joinCore_self (hcore ▸ hk) (hseat ▸ hasks)
    rw [hseat] at hself hgang
    exact ⟨(congrArg (Core.seat · k) hend).trans hself, (congrArg Core.gang hend).trans hgang⟩
  · have hgang : ((t.endGang l).core n).gang = none := by rw [State.core_endGang, Core.ungang_of_gang hg hl]; rfl
    obtain ⟨hlead, hmember, hreg, hp⟩ := Seat.ungang_frame (t.seat n g.seat) (if n ≠ l then some g.ret else none)
    dsimp only
    rw [State.seat_endGang hg hl hlt]
    refine ⟨hgang, hlead, hmember, hreg, hp, fun hnl => ?_, fun hnl hheld => ?_, fun r hnl hheld => ?_⟩
    · rw [if_neg (not_not.mpr hnl)]
      exact Seat.ungang_none _
    · rw [if_pos hnl]
      exact Seat.ungang_of_running hheld g.ret
    · rw [if_pos hnl]
      exact Seat.ungang_of_held hheld g.ret
  · exact (State.core_endGang t l n).trans (Core.ungang_of_other h)

/-! ### The other rectangles -/

/-- The cores of the other rectangle that the thread on a seat names for a leader, where a core lies in it (R364). -/
def State.otherShape (s : State) (l w ht c : Nat) (x : Seat) : List Nat :=
  match x.asks with
  | some (_, a, b, _) => if a = w ∧ b = ht then [] else ((s.rectangle x.vdev l a b).filter (fun cs => cs.contains c)).getD []
  | none => []

theorem State.mem_otherShape {s : State} {l w ht c n : Nat} {x : Seat} : n ∈ s.otherShape l w ht c x ↔
    ∃ q cs, x.asks = some q ∧ (q.2.1 ≠ w ∨ q.2.2.1 ≠ ht) ∧ s.rectangle x.vdev l q.2.1 q.2.2.1 = some cs ∧ c ∈ cs ∧
      n ∈ cs := by
  cases hasks : x.asks with
  | none => simp [State.otherShape, hasks]
  | some q =>
    by_cases hsame : q.2.1 = w ∧ q.2.2.1 = ht
    · simp [State.otherShape, hasks, hsame]
    · have hother : q.2.1 ≠ w ∨ q.2.2.1 ≠ ht := not_and_or.mp hsame
      cases hrect : s.rectangle x.vdev l q.2.1 q.2.2.1 with
      | none => simp [State.otherShape, hasks, hsame, hrect]
      | some cs =>
        by_cases hc : c ∈ cs
        · simp [State.otherShape, hasks, hsame, hrect, hc, hother, Option.filter]
        · simp [State.otherShape, hasks, hsame, hrect, hc, Option.filter]

theorem State.mem_otherShapes {s : State} {l w ht c n : Nat} : n ∈ s.otherShapes l w ht c ↔
    ∃ m y, (m, y) ∈ s.cores ∧ ∃ k ∈ y.askers l, n ∈ s.otherShape l w ht c (y.seat k) := by
  simp only [State.otherShapes, List.mem_flatMap, Prod.exists]
  rfl

theorem mem_askers {x : Core} {l k : Nat} : k ∈ x.askers l ↔
    k < 4 ∧ (x.seat k).occ = .thread ∧ ∃ q, (x.seat k).asks = some q ∧ q.1 = l := by
  cases hasks : (x.seat k).asks with
  | none => simp [Core.askers, hasks]
  | some q => simp [Core.askers, hasks, upto]

theorem otherRectangles : Say.otherRectangles := by
  intro l w ht c n t
  rw [State.mem_otherShapes]
  constructor
  · rintro ⟨m, y, hcore, k, hk, hn⟩
    obtain ⟨hlt, hocc, ⟨_, a, b, pd⟩, hasks, rfl⟩ := mem_askers.mp hk
    obtain ⟨q, cs, hq, hother, hrect, hc, hncs⟩ := State.mem_otherShape.mp hn
    obtain rfl := Option.some.inj (hq.symm.trans hasks)
    exact ⟨m, y, k, a, b, pd, cs, hcore, hlt, hocc, hasks, hother, hrect, hc, hncs⟩
  · rintro ⟨m, y, k, a, b, pd, cs, hcore, hlt, hocc, hasks, hother, hrect, hc, hncs⟩
    exact ⟨m, y, hcore, k, mem_askers.mpr ⟨hlt, hocc, _, hasks, rfl⟩,
      State.mem_otherShape.mpr ⟨_, cs, hasks, hother, hrect, hc, hncs⟩⟩

end Sys2Proof.Machine
end

section
/-! PROOFS. CHKP, CHKX, FOLLOW and UNFOLLOW at issue (R25, R363, R364). -/
namespace Sys2Proof.Machine

/-! ### CHKP -/

/-- The core is in no pair, or its own CHKP still waits (R363). -/
def State.chkpFit (s : State) (x : Seat) : Bool :=
  match s.myCore.pair with | some p => !p.on && x.main.blk == .pairing | none => true

/-- The neighbour's CHKP waits for this core (R363). -/
def State.chkpAnswers (s : State) (c dir m : Nat) : Bool :=
  match (s.core m).pair with | some q => !q.on && q.mate == c && q.dir == (dir + 2) % 4 | none => false

/-- The core may not be coupled: the thread goes on with pD := 0, and so does a partner that answers. -/
def State.chkpRefused (s : State) (h : Head) (d dir m : Nat) (x : Seat) (g : Agent) : State :=
  let s1 := (s.modMe (fun x => x.setP d false)).setBlk g .none
  let s2 := if s.chkpFit x then s1.modMyCore (fun y => { y with pair := none }) else s1
  (if s.chkpAnswers g.core dir m then s2.refusePair m else s2).advance h

/-- Both cores have asked, and the partner's wait is on seat j: the pair begins, or is refused to both. -/
def State.chkpMet (s : State) (h : Head) (d dir m j : Nat) (g : Agent) : State :=
  let e := match (s.core m).pair with | some q => q.pd | none => 0
  let ok := (s.core m).pairable
  let s1 := if ok then
      (s.modMyCore (fun y => { y with pair := some { dir := dir, mate := m, on := true, bye := false, pd := d } })).modCore m
        (fun y => { y with pair := y.pair.map (fun q => { q with on := true }) })
    else (s.modMyCore (fun y => { y with pair := none })).modCore m (fun y => { y with pair := none })
  (((s1.finishMain m j (some (e, ok))).modMe (fun x => x.setP d ok)).setBlk g .none).advance h

/-- The first of the two waits. -/
def State.chkpFirst (s : State) (h : Head) (d dir m : Nat) (g : Agent) : State :=
  ((s.modMyCore (fun y => { y with pair := some { dir := dir, mate := m, on := false, bye := false, pd := d } })).hints h).setBlk g
    .pairing

/-- CHKP with a neighbour that can be its partner. -/
def State.chkpNext (s : State) (h : Head) (d dir m : Nat) (x : Seat) (g : Agent) : State :=
  if !s.chkpFit x || !s.myCore.pairable then s.chkpRefused h d dir m x g
  else if s.chkpAnswers g.core dir m then
    match (s.core m).pairAsker with
    | some j => s.chkpMet h d dir m j g
    | none => (s.hints h).setBlk g .pairing
  else s.chkpFirst h d dir m g

/-- CHKP once its partner is found. -/
def chkpAsk (h : Head) (d dir m : Nat) (x : Seat) (g : Agent) : M Unit := do
  let mine ← look (fun s => s.myCore.pair)
  let his ← look (fun s => (s.core m).pair)
  let fit := match mine with | some p => !p.on && x.main.blk == .pairing | none => true
  let free ← look (fun s => s.myCore.pairable)
  let answers := match his with | some q => !q.on && q.mate == g.core && q.dir == (dir + 2) % 4 | none => false
  if !fit || !free then
    change (fun s =>
      let s1 := (s.modMe (fun x => x.setP d false)).setBlk g .none
      let s2 := if fit then s1.modMyCore (fun y => { y with pair := none }) else s1
      (if answers then s2.refusePair m else s2).advance h)
  else if answers then do
    let y ← look (fun s => s.core m)
    match y.pairAsker with
    | some j => do
      let e := match his with | some q => q.pd | none => 0
      let ok := y.pairable
      change (fun s =>
        let s1 := if ok then
            (s.modMyCore (fun y => { y with pair := some { dir := dir, mate := m, on := true, bye := false, pd := d } })).modCore m
              (fun y => { y with pair := y.pair.map (fun q => { q with on := true }) })
          else (s.modMyCore (fun y => { y with pair := none })).modCore m (fun y => { y with pair := none })
        let s2 := s1.finishMain m j (some (e, ok))
        ((s2.modMe (fun x => x.setP d ok)).setBlk g .none).advance h)
    | none => do
      change (fun s => (s.hints h).setBlk g .pairing)
  else
    change (fun s =>
      (s.modMyCore (fun y => { y with pair := some { dir := dir, mate := m, on := false, bye := false, pd := d } })).hints h
        |> fun t => t.setBlk g .pairing)

theorem chkpAsk_eq (h : Head) (d dir m : Nat) (x : Seat) (g : Agent) (s : State) :
    chkpAsk h d dir m x g s = .ok () (s.chkpNext h d dir m x g) := by
  refine (M.bind_ok (look_eq (fun s => s.myCore.pair) s)).trans <| (M.bind_ok (look_eq (fun s => (s.core m).pair) s)).trans <|
    (M.bind_ok (look_eq (fun s => s.myCore.pairable) s)).trans ?_
  unfold State.chkpNext
  by_cases hrefuse : (!s.chkpFit x || !s.myCore.pairable) = true
  · rw [if_pos hrefuse]
    exact congrFun (if_pos hrefuse) s
  rw [if_neg hrefuse]
  refine (congrFun (if_neg hrefuse) s).trans ?_
  by_cases hanswers : s.chkpAnswers g.core dir m = true
  · rw [if_pos hanswers]
    refine (congrFun (if_pos hanswers) s).trans <| (M.bind_ok (look_eq (fun s => s.core m) s)).trans ?_
    cases (s.core m).pairAsker with
    | none => rfl
    | some j => rfl
  · rw [if_neg hanswers]
    exact congrFun (if_neg hanswers) s

section
variable {h : Head} {d dir m : Nat} {a : Src} {s s1 : State} (hg : guardOk h s.me = true)
include hg

theorem exec_chkp_of_domain (hdom : s.me.curdom ≠ 0) : exec (.chkp h d a) s = Say.denied s 0 := by
  refine leave_stop (e := .trap _) (s' := s) hg ?_
  refine (M.bind_ok (me_eq s)).trans <| (M.bind_ok (look_eq State.cur s)).trans ?_
  exact congrFun (if_pos hdom) s

variable (hdom : s.me.curdom = 0) (ha : readN64 2 a s = .ok dir s1)
include hdom ha

theorem exec_chkp_of_no_direction (hdir : 4 ≤ dir) : exec (.chkp h d a) s = Say.trapped s .operand 2 dir := by
  refine leave_stop (e := .trap _) (s' := s1) hg ?_
  refine (M.bind_ok (me_eq s)).trans <| (M.bind_ok (look_eq State.cur s)).trans ?_
  refine (congrFun (if_neg (not_not.mpr hdom)) s).trans <| (M.bind_ok ha).trans <| M.bind_error ?_
  rw [decide_eq_false (Nat.not_lt.mpr hdir), need_false]

variable (hdir : dir < 4)
include hdir

theorem exec_chkp_of_edge (hm : neighbour s.cur.core dir 1 = none) : exec (.chkp h d a) s = Say.denied s 0 := by
  refine leave_stop (e := .trap _) (s' := s1) hg ?_
  refine (M.bind_ok (me_eq s)).trans <| (M.bind_ok (look_eq State.cur s)).trans ?_
  refine (congrFun (if_neg (not_not.mpr hdom)) s).trans <| (M.bind_ok ha).trans <|
    (M.bind_ok (need_ok (decide_eq_true hdir))).trans ?_
  rw [hm]
  rfl

variable (hm : neighbour s.cur.core dir 1 = some m)
include hm

theorem exec_chkp_of_stranger (hok : (s1.holdsCore s.me.vdev m && dieOf m == dieOf s.cur.core) = false) :
    exec (.chkp h d a) s = Say.denied s 0 := by
  refine leave_stop (e := .trap _) (s' := s1) hg ?_
  refine (M.bind_ok (me_eq s)).trans <| (M.bind_ok (look_eq State.cur s)).trans ?_
  refine (congrFun (if_neg (not_not.mpr hdom)) s).trans <| (M.bind_ok ha).trans <|
    (M.bind_ok (need_ok (decide_eq_true hdir))).trans ?_
  rw [hm]
  refine (M.bind_ok (M.pure_eq m s1)).trans ?_
  refine (M.bind_ok (look_eq (fun s' => s'.holdsCore s.me.vdev m && dieOf m == dieOf s.cur.core) s1)).trans ?_
  rw [hok]
  rfl

theorem exec_chkp_of_mate (hok : (s1.holdsCore s.me.vdev m && dieOf m == dieOf s.cur.core) = true) :
    exec (.chkp h d a) s = .next (s1.chkpNext h d dir m s.me s.cur) := by
  refine leave_ok (u := ()) hg ?_
  refine (M.bind_ok (me_eq s)).trans <| (M.bind_ok (look_eq State.cur s)).trans ?_
  refine (congrFun (if_neg (not_not.mpr hdom)) s).trans <| (M.bind_ok ha).trans <|
    (M.bind_ok (need_ok (decide_eq_true hdir))).trans ?_
  rw [hm]
  refine (M.bind_ok (M.pure_eq m s1)).trans ?_
  refine (M.bind_ok (look_eq (fun s' => s'.holdsCore s.me.vdev m && dieOf m == dieOf s.cur.core) s1)).trans ?_
  rw [hok]
  exact chkpAsk_eq h d dir m s.me s.cur s1
end

/-! ### What CHKP leaves -/

theorem State.chkpFit_iff {s : State} {x : Seat} : s.chkpFit x = true ↔
    s.myCore.pair = none ∨ x.main.blk = .pairing ∧ ∃ p, s.myCore.pair = some p ∧ p.on = false := by
  cases hp : s.myCore.pair with
  | none => simp [State.chkpFit, hp]
  | some p => simp [State.chkpFit, hp, and_comm]

theorem State.chkpFit_iff_all {s : State} {x : Seat} : s.chkpFit x = true ↔
    s.myCore.pair = none ∨ x.main.blk = .pairing ∧ (s.myCore.pair.all (fun p => !p.on)) = true := by
  cases hp : s.myCore.pair with
  | none => simp [State.chkpFit, hp]
  | some p => simp [State.chkpFit, hp, and_comm]

/-- One thread outside a gang (R363). -/
theorem Core.pairable_iff {x : Core} : x.pairable = true ↔ (∃ k, x.onlySeat = some k) ∧ x.gang = none := by
  rw [Core.pairable, Bool.and_eq_true, Option.isSome_iff_exists, Option.isNone_iff_eq_none]

theorem State.chkpAnswers_of_waiting {s : State} {c dir m : Nat} {q : Pair} (hq : (s.core m).pair = some q) (hon : q.on = false)
    (hmate : q.mate = c) (hdir : q.dir = (dir + 2) % 4) : s.chkpAnswers c dir m = true := by
  simp [State.chkpAnswers, hq, hon, hmate, hdir]

theorem State.chkpAnswers_of_others {s : State} {c dir m : Nat}
    (h : ∀ q, (s.core m).pair = some q → q.on = true ∨ q.mate ≠ c ∨ q.dir ≠ (dir + 2) % 4) :
    s.chkpAnswers c dir m = false := by
  cases hq : (s.core m).pair with
  | none => simp [State.chkpAnswers, hq]
  | some q =>
    rcases h q hq with hon | hmate | hdir
    · simp [State.chkpAnswers, hq, hon]
    · simp [State.chkpAnswers, hq, hmate]
    · simp [State.chkpAnswers, hq, hdir]

section
variable {s : State} {h : Head} {d dir m : Nat} {x : Seat} {g : Agent}

theorem State.chkpNext_of_unfit (hno : ¬(s.chkpFit x = true ∧ s.myCore.pairable = true)) :
    s.chkpNext h d dir m x g = s.chkpRefused h d dir m x g := by
  have hrefuse : (!s.chkpFit x || !s.myCore.pairable) = true := by simpa [imp_iff_not_or] using hno
  exact if_pos hrefuse

variable (hfit : s.chkpFit x = true) (halone : s.myCore.pairable = true)
include hfit halone

theorem State.chkpNext_of_first (hanswers : s.chkpAnswers g.core dir m = false) :
    s.chkpNext h d dir m x g = s.chkpFirst h d dir m g := by
  simp only [State.chkpNext, hfit, halone, hanswers, Bool.not_true, Bool.or_self, Bool.false_eq_true, if_false]

variable (hanswers : s.chkpAnswers g.core dir m = true)
include hanswers

theorem State.chkpNext_of_met {j : Nat} (hj : (s.core m).pairAsker = some j) :
    s.chkpNext h d dir m x g = s.chkpMet h d dir m j g := by
  simp only [State.chkpNext, hfit, halone, hanswers, Bool.not_true, Bool.or_self, Bool.false_eq_true, if_false, if_true, hj]

/-- A partner whose wait for CHKP is found nowhere leaves the issuer waiting. -/
theorem State.chkpNext_of_lost (hj : (s.core m).pairAsker = none) :
    s.chkpNext h d dir m x g = (s.hints h).setBlk g .pairing := by
  simp only [State.chkpNext, hfit, halone, hanswers, Bool.not_true, Bool.or_self, Bool.false_eq_true, if_false, if_true, hj]
end

/-- The state in which a refused CHKP leaves its own core. -/
def State.chkpBack (s : State) (d : Nat) (x : Seat) : State :=
  if s.myCore.pair = none ∨ x.main.blk = .pairing ∧ (s.myCore.pair.all (fun p => !p.on)) = true then
    ((s.modMe (fun x => x.setP d false)).setBlk s.cur .none).modMyCore (fun y => { y with pair := none })
  else (s.modMe (fun x => x.setP d false)).setBlk s.cur .none

section
variable {s : State} {h : Head} {d dir m j : Nat} {x : Seat} {q : Pair}

theorem State.chkpBack_eq : (if s.chkpFit x = true then
      ((s.modMe (fun x => x.setP d false)).setBlk s.cur .none).modMyCore (fun y => { y with pair := none })
    else (s.modMe (fun x => x.setP d false)).setBlk s.cur .none) = s.chkpBack d x :=
  if_congr State.chkpFit_iff_all rfl rfl

theorem State.chkpRefused_of_waiting (h' : s.chkpAnswers s.cur.core dir m = true) :
    s.chkpRefused h d dir m x s.cur = ((s.chkpBack d x).refusePair m).advance h := by
  rw [← State.chkpBack_eq, State.chkpRefused, h']
  rfl

theorem State.chkpRefused_of_others (h' : s.chkpAnswers s.cur.core dir m = false) :
    s.chkpRefused h d dir m x s.cur = (s.chkpBack d x).advance h := by
  rw [← State.chkpBack_eq, State.chkpRefused, h']
  rfl

variable (hq : (s.core m).pair = some q)
include hq

theorem State.chkpMet_of_pairable (hok : (s.core m).pairable = true) : s.chkpMet h d dir m j s.cur =
    ((((((s.modMyCore (fun y => { y with pair := some { dir := dir, mate := m, on := true, bye := false, pd := d } })).modCore m
      (fun y => { y with pair := y.pair.map (fun q => { q with on := true }) })).finishMain m j (some (q.pd, true))).modMe
        (fun x => x.setP d true)).setBlk s.cur .none).advance h) := by
  rw [State.chkpMet, hq, hok]
  rfl

theorem State.chkpMet_of_not_pairable (hok : (s.core m).pairable = false) : s.chkpMet h d dir m j s.cur =
    ((((((s.modMyCore (fun y => { y with pair := none })).modCore m (fun y => { y with pair := none })).finishMain m j
      (some (q.pd, false))).modMe (fun x => x.setP d false)).setBlk s.cur .none).advance h) := by
  rw [State.chkpMet, hq, hok]
  rfl
end

/-! ### CHKX -/

section
variable {h : Head} {p q : Pair} {j : Nat} {s : State} (hg : guardOk h s.me = true)
include hg

theorem exec_chkx_of_no_pair (hp : s.myCore.pair = none ∨ ∃ p, s.myCore.pair = some p ∧ p.on = false) :
    exec (.chkx h) s = Say.trapped s .operand 0 0 := by
  refine leave_stop (e := .trap _) (s' := s) hg ?_
  refine (M.bind_ok (look_eq State.cur s)).trans <| (M.bind_ok (look_eq (fun s => s.myCore.pair) s)).trans ?_
  rcases hp with hp | ⟨p, hp, hon⟩
  · rw [hp]
    rfl
  · rw [hp]
    exact congrFun (if_pos (by simp [hon])) s

variable (hp : s.myCore.pair = some p) (hon : p.on = true)
include hp hon

theorem exec_chkx_of_both (hq : (s.core p.mate).pair = some q) (hbye : q.bye = true)
    (hj : s.pairSeat p.mate .unpairing = some j) :
    exec (.chkx h) s = .next ((((((s.modMyCore (fun y => { y with pair := none })).modCore p.mate (fun y =>
      { y with pair := none })).finishMain p.mate j none).setBlk s.cur .none)).advance h) := by
  refine leave_ok (u := ()) hg ?_
  refine (M.bind_ok (look_eq State.cur s)).trans <| (M.bind_ok (look_eq (fun s => s.myCore.pair) s)).trans ?_
  rw [hp]
  refine (congrFun (if_neg (by simp [hon])) s).trans ?_
  refine (M.bind_ok (look_eq (fun s => (s.core p.mate).pair) s)).trans <|
    (M.bind_ok (look_eq (fun s => s.pairSeat p.mate .unpairing) s)).trans ?_
  rw [hq, hj]
  exact congrFun (if_pos hbye) s

theorem exec_chkx_of_first (hwait : (s.core p.mate).pair = none ∨ s.pairSeat p.mate .unpairing = none) :
    exec (.chkx h) s = .next (Say.waits h .unpairing (s.modMyCore (fun y => { y with pair := some { p with bye := true } }))) := by
  refine leave_ok (u := ()) hg ?_
  refine (M.bind_ok (look_eq State.cur s)).trans <| (M.bind_ok (look_eq (fun s => s.myCore.pair) s)).trans ?_
  rw [hp]
  refine (congrFun (if_neg (by simp [hon])) s).trans ?_
  refine (M.bind_ok (look_eq (fun s => (s.core p.mate).pair) s)).trans <|
    (M.bind_ok (look_eq (fun s => s.pairSeat p.mate .unpairing) s)).trans ?_
  rcases hwait with hq | hj
  · rw [hq]
    rfl
  · rw [hj]
    cases (s.core p.mate).pair with
    | none => rfl
    | some q => rfl
end

end Sys2Proof.Machine
end

section
/-! PROOFS. FOLLOW and UNFOLLOW at issue, and pairs and gangs together (R25, R363, R364). -/
namespace Sys2Proof.Machine

/-! ### FOLLOW -/

/-- The core is in a pair that has begun. -/
def Core.coupled (x : Core) : Bool := match x.pair with | some p => p.on | none => false

/-- The thread on a seat names another shape for its gang. -/
def Seat.asksOther (x : Seat) (w ht : Nat) : Bool := match x.asks with | some (_, a, b, _) => a != w || b != ht | none => false

theorem Core.coupled_iff {x : Core} : x.coupled = true ↔ ∃ p, x.pair = some p ∧ p.on = true := by
  cases hp : x.pair with
  | none => simp [Core.coupled, hp]
  | some p => simp [Core.coupled, hp]

theorem Core.any_asksOther_iff {x : Core} {l w ht : Nat} : (x.askers l).any (fun k => (x.seat k).asksOther w ht) = true ↔
    ∃ k a b d, k < 4 ∧ (x.seat k).occ = .thread ∧ (x.seat k).asks = some (l, a, b, d) ∧ (a ≠ w ∨ b ≠ ht) := by
  rw [List.any_eq_true]
  constructor
  · rintro ⟨k, hk, hother⟩
    obtain ⟨hlt, hocc, ⟨_, a, b, d⟩, hasks, rfl⟩ := mem_askers.mp hk
    exact ⟨k, a, b, d, hlt, hocc, hasks, by simpa [Seat.asksOther, hasks] using hother⟩
  · rintro ⟨k, a, b, d, hlt, hocc, hasks, hother⟩
    exact ⟨k, mem_askers.mpr ⟨hlt, hocc, _, hasks, rfl⟩, by simpa [Seat.asksOther, hasks] using hother⟩

theorem Core.clashes_iff {x : Core} {l w ht : Nat} : x.clashes l w ht = true ↔ Say.Clash x l w ht := by
  show (x.gang.isSome || x.coupled || (x.askers l).any (fun k => (x.seat k).asksOther w ht)) = true ↔ _
  rw [Bool.or_eq_true, Bool.or_eq_true, Core.coupled_iff, Core.any_asksOther_iff, or_assoc, Option.isSome_iff_ne_none]
  rfl

/-- FOLLOW is refused with the threads of some cores (R364). -/
def State.followRefused (s : State) (h : Head) (d l : Nat) (ns : List Nat) : State :=
  (((s.setBlk s.cur .none).refuseGang l ns).modMe (fun x => x.setP d false)).advance h

theorem follow_check {x : Seat} (hdepth : x.depth = 0) (hhnd : x.hnd = false) : (x.depth == 0 && !x.hnd) = true := by
  rw [hdepth, hhnd]
  rfl

section
variable {h : Head} {w ht d l : Nat} {a : Src} {cs : List Nat} {s s1 : State} (hg : guardOk h s.me = true)
include hg

theorem exec_follow_of_gated (hbad : s.me.depth ≠ 0 ∨ s.me.hnd = true) : exec (.follow h w ht d a) s = Say.trapped s .operand 0
    (s.me.depth + s.me.frames.length * 2 ^ 7 + s.me.limit * 2 ^ 20) := by
  have hword : s.me.dspWord = s.me.depth + s.me.frames.length * 2 ^ 7 + s.me.limit * 2 ^ 20 := by
    unfold Seat.dspWord
    omega
  have hcheck : (s.me.depth == 0 && !s.me.hnd) = false := by
    rcases hbad with hdepth | hhnd
    · simp [hdepth]
    · simp [hhnd]
  rw [← hword]
  refine leave_stop (e := .trap _) (s' := s) hg ?_
  refine (M.bind_ok (me_eq s)).trans <| (M.bind_ok (look_eq State.cur s)).trans <| M.bind_error ?_
  rw [hcheck, need_false]

variable (hdepth : s.me.depth = 0) (hhnd : s.me.hnd = false) (ha : readN64 2 a s = .ok l s1) (hcur : s1.cur = s.cur)
include hdepth hhnd ha hcur

/-- The issuer's core lies outside the rectangle, or the rectangle leaves the die or the virtual device. -/
theorem exec_follow_of_outside
    (hr : s1.rectangle s.me.vdev l (w + 1) (ht + 1) = none ∨
      s1.rectangle s.me.vdev l (w + 1) (ht + 1) = some cs ∧ s.cur.core ∉ cs) :
    exec (.follow h w ht d a) s =
      .next (s1.followRefused h d l (s1.otherShapes l (w + 1) (ht + 1) s.cur.core)) := by
  refine leave_ok (u := ()) hg ?_
  refine (M.bind_ok (me_eq s)).trans <| (M.bind_ok (look_eq State.cur s)).trans <|
    (M.bind_ok (need_ok (follow_check hdepth hhnd))).trans <| (M.bind_ok ha).trans <|
    (M.bind_ok (look_eq (fun t => t.rectangle s.me.vdev l (w + 1) (ht + 1)) s1)).trans <|
    (M.bind_ok (look_eq (fun t => t.otherShapes l (w + 1) (ht + 1) s.cur.core) s1)).trans ?_
  rw [State.followRefused, hcur]
  rcases hr with hr | ⟨hr, hc⟩
  · rw [hr]
    rfl
  · rw [hr]
    refine (M.bind_ok (look_eq (fun t => cs.any (fun n => (t.core n).clashes l (w + 1) (ht + 1))) s1)).trans ?_
    exact congrFun (if_pos (by simpa using hc)) s1

variable (hr : s1.rectangle s.me.vdev l (w + 1) (ht + 1) = some cs) (hc : s.cur.core ∈ cs)
include hr hc

theorem exec_follow_of_clash
    (hclash : (cs.any (fun n => (s1.core n).clashes l (w + 1) (ht + 1)) ||
      !(s1.otherShapes l (w + 1) (ht + 1) s.cur.core).isEmpty) = true) :
    exec (.follow h w ht d a) s =
      .next (s1.followRefused h d l (cs ++ s1.otherShapes l (w + 1) (ht + 1) s.cur.core)) := by
  refine leave_ok (u := ()) hg ?_
  refine (M.bind_ok (me_eq s)).trans <| (M.bind_ok (look_eq State.cur s)).trans <|
    (M.bind_ok (need_ok (follow_check hdepth hhnd))).trans <| (M.bind_ok ha).trans <|
    (M.bind_ok (look_eq (fun t => t.rectangle s.me.vdev l (w + 1) (ht + 1)) s1)).trans <|
    (M.bind_ok (look_eq (fun t => t.otherShapes l (w + 1) (ht + 1) s.cur.core) s1)).trans ?_
  rw [State.followRefused, hcur, hr]
  refine (M.bind_ok (look_eq (fun t => cs.any (fun n => (t.core n).clashes l (w + 1) (ht + 1))) s1)).trans ?_
  refine (congrFun (if_neg (by simpa using hc)) s1).trans ?_
  exact congrFun (if_pos hclash) s1

theorem exec_follow_of_fit
    (hclash : (cs.any (fun n => (s1.core n).clashes l (w + 1) (ht + 1)) ||
      !(s1.otherShapes l (w + 1) (ht + 1) s.cur.core).isEmpty) = false) :
    exec (.follow h w ht d a) s = .next
      (if cs.all (fun n => (((Say.waits h (.following l (w + 1) (ht + 1) d) s1).core n).joins l (w + 1) (ht + 1)).isSome) = true
        then (Say.waits h (.following l (w + 1) (ht + 1) d) s1).startGang l (w + 1) (ht + 1) cs
        else Say.waits h (.following l (w + 1) (ht + 1) d) s1) := by
  refine leave_ok (u := ()) hg ?_
  refine (M.bind_ok (me_eq s)).trans <| (M.bind_ok (look_eq State.cur s)).trans <|
    (M.bind_ok (need_ok (follow_check hdepth hhnd))).trans <| (M.bind_ok ha).trans <|
    (M.bind_ok (look_eq (fun t => t.rectangle s.me.vdev l (w + 1) (ht + 1)) s1)).trans <|
    (M.bind_ok (look_eq (fun t => t.otherShapes l (w + 1) (ht + 1) s.cur.core) s1)).trans ?_
  rw [hr]
  refine (M.bind_ok (look_eq (fun t => cs.any (fun n => (t.core n).clashes l (w + 1) (ht + 1))) s1)).trans ?_
  refine (congrFun (if_neg (by simpa using hc)) s1).trans ?_
  refine (congrFun (if_neg (Bool.eq_false_iff.mp hclash)) s1).trans ?_
  have hwait : (s1.hints h).setBlk s.cur (.following l (w + 1) (ht + 1) d) = Say.waits h (.following l (w + 1) (ht + 1) d) s1 := by
    rw [Say.waits, hcur]
  refine (M.bind_ok (change_eq (fun t => (t.hints h).setBlk s.cur (.following l (w + 1) (ht + 1) d)) s1)).trans ?_
  rw [hwait]
  generalize Say.waits h (.following l (w + 1) (ht + 1) d) s1 = t
  refine (M.bind_ok (look_eq (fun t => cs.all (fun n => ((t.core n).joins l (w + 1) (ht + 1)).isSome)) t)).trans ?_
  by_cases hall : cs.all (fun n => ((t.core n).joins l (w + 1) (ht + 1)).isSome) = true
  · refine (congrFun (if_pos hall) t).trans ?_
    rw [if_pos hall]
    rfl
  · refine (congrFun (if_neg hall) t).trans ?_
    rw [if_neg hall]
    rfl
end

/-- No thread of the rectangle is in the way, and no other rectangle is asked for (R364). -/
theorem follow_clash_iff {s : State} {l w ht : Nat} {cs ns : List Nat} :
    (cs.any (fun n => (s.core n).clashes l w ht) || !ns.isEmpty) = true ↔
      (∃ n ∈ cs, Say.Clash (s.core n) l w ht) ∨ ns ≠ [] := by
  simp only [Bool.or_eq_true, List.any_eq_true, Core.clashes_iff, Bool.not_eq_true', List.isEmpty_eq_false_iff]

theorem all_join_iff {s : State} {l w ht : Nat} {cs : List Nat} :
    cs.all (fun n => ((s.core n).joins l w ht).isSome) = true ↔ ∀ n ∈ cs, ∃ k, (s.core n).joins l w ht = some k := by
  simp only [List.all_eq_true, Option.isSome_iff_exists]

/-! ### UNFOLLOW -/

section
variable {h : Head} {s : State} (hg : guardOk h s.me = true)
include hg

theorem exec_unfollow_of_leader (hlead : s.me.lead = true) :
    exec (.unfollow h) s = .next ((s.advance h).endGang s.cur.core) :=
  leave_ok (u := ()) hg ((M.bind_ok (me_eq s)).trans <| (M.bind_ok (need_ok hlead)).trans rfl)

theorem exec_unfollow_of_other (hlead : s.me.lead = false) :
    exec (.unfollow h) s = .next (s.takeTrap s.cur { cause := .operand } false) := by
  refine leave_stop (e := .trap _) (s' := s) hg ?_
  refine (M.bind_ok (me_eq s)).trans <| M.bind_error ?_
  rw [hlead]
  rfl
end

/-! ### The obligation -/

theorem pairAndGangInstructions : Say.pairsAndGangs := by
  intro h d dir m j w ht l a p q cs s s1 hg c
  refine ⟨fun hdom ha hcur => ⟨exec_chkp_of_no_direction hg hdom ha, exec_chkp_of_edge hg hdom ha, fun hdir hm hbad => ?_,
      fun hdir hm hheld hdie => ?_⟩, exec_chkp_of_domain hg, exec_chkx_of_no_pair hg,
    fun hp hon => ⟨exec_chkx_of_both hg hp hon, exec_chkx_of_first hg hp hon⟩, exec_follow_of_gated hg,
    fun hdepth hhnd ha hcur =>
      ⟨exec_follow_of_outside hg hdepth hhnd ha hcur, fun hr hc => ⟨fun hclash => ?_, fun hclash hns => ?_⟩⟩,
    exec_unfollow_of_leader hg, exec_unfollow_of_other hg⟩
  · refine exec_chkp_of_stranger hg hdom ha hdir hm ?_
    rcases hbad with hheld | hdie
    · simp [hheld]
    · exact Bool.and_eq_false_iff.mpr (.inr (beq_false_of_ne hdie))
  · have hnext := exec_chkp_of_mate (d := d) hg hdom ha hdir hm (Bool.and_eq_true_iff.mpr ⟨hheld, beq_iff_eq.mpr hdie⟩)
    rw [← hcur] at hnext
    intro mine fit alone refused t
    have hwaiting : (s1.core m).pair = some q → q.on = false → q.mate = c → q.dir = (dir + 2) % 4 →
        s1.chkpAnswers s1.cur.core dir m = true := fun hq hoff hmate hqdir =>
      State.chkpAnswers_of_waiting hq hoff (hmate.trans (congrArg Agent.core hcur.symm)) hqdir
    have hothers : (∀ q, (s1.core m).pair = some q → q.on = true ∨ q.mate ≠ c ∨ q.dir ≠ (dir + 2) % 4) →
        s1.chkpAnswers s1.cur.core dir m = false := fun h => by
      rw [hcur]
      exact State.chkpAnswers_of_others h
    refine ⟨fun hfit halone => ⟨fun ho => ?_, fun hq hoff hmate hqdir => ?_⟩,
      fun hno => ⟨fun hq hoff hmate hqdir => ?_, fun ho => ?_⟩⟩
    · rw [hnext, State.chkpNext_of_first (State.chkpFit_iff.mpr hfit) (Core.pairable_iff.mpr halone) (hothers ho)]
      rfl
    · have hanswers := hwaiting hq hoff hmate hqdir
      replace hfit := State.chkpFit_iff.mpr hfit
      replace halone := Core.pairable_iff.mpr halone
      refine ⟨fun hj => ?_, fun hj hmay => ?_, fun hj hmay => ?_⟩
      · rw [hnext, State.chkpNext_of_lost hfit halone hanswers hj]
        rfl
      · rw [hnext, State.chkpNext_of_met hfit halone hanswers hj, State.chkpMet_of_pairable hq (Core.pairable_iff.mpr hmay)]
      · rw [hnext, State.chkpNext_of_met hfit halone hanswers hj,
          State.chkpMet_of_not_pairable hq (Bool.eq_false_iff.mpr (mt Core.pairable_iff.mp hmay))]
    · rw [hnext, State.chkpNext_of_unfit (by rwa [State.chkpFit_iff, Core.pairable_iff]),
        State.chkpRefused_of_waiting (hwaiting hq hoff hmate hqdir)]
      rfl
    · rw [hnext, State.chkpNext_of_unfit (by rwa [State.chkpFit_iff, Core.pairable_iff]), State.chkpRefused_of_others (hothers ho)]
      rfl
  · exact exec_follow_of_clash hg hdepth hhnd ha hcur hr hc (follow_clash_iff.mpr hclash)
  · have hfree := Bool.eq_false_iff.mpr (mt follow_clash_iff.mp
      (not_or.mpr ⟨fun ⟨n, hn, hno⟩ => hclash n hn hno, not_not.mpr hns⟩))
    have hnext := exec_follow_of_fit (d := d) hg hdepth hhnd ha hcur hr hc hfree
    refine ⟨fun hall => ?_, fun ⟨n, hn, hnone⟩ => ?_⟩
    · rw [hnext, if_pos (all_join_iff.mpr hall)]
    · rw [hnext, if_neg]
      intro hall
      obtain ⟨k, hk⟩ := all_join_iff.mp hall n hn
      exact Option.some_ne_none k (hk.symm.trans hnone)

/-- Settles O43: the members by the ends of their waits, each instruction by the state of its core and its partner's. -/
theorem pairsAndGangs : Obligations.PairsAndGangs := ⟨pairRefusal, gangMembers, otherRectangles, pairAndGangInstructions⟩

end Sys2Proof.Machine
end

section
/-! PROOFS. The Regulator's slots (R136, R166, R167). -/
namespace Sys2Proof.Machine

/-! ### A computation whose trap is an answer -/

theorem attempt_ok {α : Type} {m : M α} {s s' : State} {a : α} (h : m s = .ok a s') : attempt m s = .ok (.ok a) s' := by
  simp only [attempt, h]

theorem attempt_trap {α : Type} {m : M α} {s s' : State} {t : Trap} (h : m s = .error (.trap t) s') :
    attempt m s = .ok (.error t) s := by
  simp only [attempt, h]

/-! ### A slot that is due -/

/-- The launch of the slot's last record is still there (R167). -/
def State.regFlies (s : State) (r : RegSlot) : Prop := r.infl ≠ 0 ∧ ∃ l ∈ s.launches, l.lid = r.infl

theorem State.regDue_iff {s : State} {r : RegSlot} : s.regDue r = true ↔
    r.arm = true ∧ r.next ≤ s.modl.rclk ∧ ¬ s.regFlies r := by
  have hflies : ¬ s.regFlies r ↔ r.infl = 0 ∨ ¬ ∃ l ∈ s.launches, l.lid = r.infl := by
    rw [State.regFlies, not_and_or, not_not]
  simp [State.regDue, hflies, and_assoc]

/-- The record of a due slot is read and submitted, or event 0x07 is posted (R167; log 65). -/
def regSubmit (slot : Nat) (r : RegSlot) (w : Who) : M (Option Nat) := do
  match ← attempt (unitRead none w r.rcd 128) with
  | .error _ => do
    change (fun s => s.postEvent r.vdev (event 0 7 r.queue r.rcd 8))
    pure none
  | .ok b => do
    let n ← submit { lid := 0, vdev := r.vdev, queue := r.queue, base := w.dom, rcd := LRec.ofBytes b, addr := r.rcd
                     slot := some slot }
    pure (some n)

/-- A due slot goes on in the state in which the missed periods have been told. -/
def State.regGo (s u : State) (slot : Nat) (r : RegSlot) (x : Nat → RegSlot) : Out :=
  if !u.queueIs r.vdev r.queue then .next { u with regs := mapPut slot (x 0) u.regs }
  else match regSubmit slot r (u.qWho r.vdev r.queue) u with
    | .ok n t => .next { t with regs := mapPut slot (x (n.getD 0)) t.regs }
    | .error .waitAt t => .next { s with pulls := t.pulls }
    | .error _ _ => .next s

/-- Whole periods that a slot has missed (R167). -/
def State.missed (s : State) (r : RegSlot) : Nat :=
  if r.period < s.modl.rclk - r.next then (s.modl.rclk - r.next) / r.period else 0

section
variable {k : Nat} {s : State}

theorem regulator_rests (h : s.regDue (s.reg k) = false) : exec (.regulatorFire k) s = .next s := by
  show execRegulatorFire k s = _
  unfold execRegulatorFire
  exact if_pos (.inr (by simp [h]))

variable (hk : k < 256) (hdue : s.regDue (s.reg k) = true)
include hk hdue

theorem regulator_fires : exec (.regulatorFire k) s = s.regGo
    (if s.missed (s.reg k) = 0 then s
      else s.postEvent (s.reg k).vdev (event 0 8 k (min ((s.reg k).rgovr + s.missed (s.reg k)) (2 ^ 32 - 1)) 0))
    k (s.reg k) (fun lid => { s.reg k with
      rgovr := min ((s.reg k).rgovr + s.missed (s.reg k)) (2 ^ 32 - 1)
      next := ((s.reg k).next + s.missed (s.reg k) * (s.reg k).period + (s.reg k).period) % 2 ^ 64, infl := lid }) := by
  have hgo : ¬(256 ≤ k ∨ (!s.regDue (s.reg k)) = true) := by simp [hk, hdue]
  show execRegulatorFire k s = _
  unfold execRegulatorFire State.regGo regSubmit
  exact if_neg hgo

/-- No period has been missed. -/
theorem regulator_on_time (hlate : s.modl.rclk - (s.reg k).next ≤ (s.reg k).period) (hovr : (s.reg k).rgovr < 2 ^ 32) :
    exec (.regulatorFire k) s = s.regGo s k (s.reg k)
      (fun lid => { s.reg k with next := ((s.reg k).next + (s.reg k).period) % 2 ^ 64, infl := lid }) := by
  have hmissed : s.missed (s.reg k) = 0 := if_neg (Nat.not_lt.mpr hlate)
  have hovr' : min (s.reg k).rgovr (2 ^ 32 - 1) = (s.reg k).rgovr := Nat.min_eq_left (Nat.le_pred_of_lt hovr)
  rw [regulator_fires hk hdue, hmissed, if_pos rfl, Nat.zero_mul, Nat.add_zero, Nat.add_zero, hovr']

/-- Whole periods have been missed. -/
theorem regulator_late (hlate : (s.reg k).period < s.modl.rclk - (s.reg k).next) {missed ovr : Nat}
    (hmissed : missed = (s.modl.rclk - (s.reg k).next) / (s.reg k).period) (hpos : missed ≠ 0)
    (hovr : ovr = min ((s.reg k).rgovr + missed) (2 ^ 32 - 1))
    (hnext : (s.reg k).next + missed * (s.reg k).period + (s.reg k).period < 2 ^ 64) :
    exec (.regulatorFire k) s = s.regGo (s.postEvent (s.reg k).vdev (event 0 8 k ovr 0)) k (s.reg k)
      (fun lid => { s.reg k with
        rgovr := ovr, next := (s.reg k).next + missed * (s.reg k).period + (s.reg k).period, infl := lid }) := by
  have hm : s.missed (s.reg k) = missed := (if_pos hlate).trans hmissed.symm
  rw [regulator_fires hk hdue, hm, if_neg hpos, ← hovr, Nat.mod_eq_of_lt hnext]
end

/-! ### What becomes of its record -/

section
variable {s u t : State} {slot n : Nat} {r : RegSlot} {x : Nat → RegSlot} {bs : List Byte} {tr : Trap}

theorem State.regGo_of_no_queue (h : u.queueIs r.vdev r.queue = false) :
    s.regGo u slot r x = .next { u with regs := mapPut slot (x 0) u.regs } := by
  rw [State.regGo, h]
  rfl

variable (h : u.queueIs r.vdev r.queue = true)
include h

theorem State.regGo_of_submit (hn : regSubmit slot r (u.qWho r.vdev r.queue) u = .ok (some n) t) :
    s.regGo u slot r x = .next { t with regs := mapPut slot (x n) t.regs } := by
  rw [State.regGo, h, hn]
  rfl

theorem State.regGo_of_none (hn : regSubmit slot r (u.qWho r.vdev r.queue) u = .ok none t) :
    s.regGo u slot r x = .next { t with regs := mapPut slot (x 0) t.regs } := by
  rw [State.regGo, h, hn]
  rfl
end

theorem regSubmit_ok {slot n : Nat} {r : RegSlot} {w : Who} {bs : List Byte} {s s1 s2 : State}
    (hread : unitRead none w r.rcd 128 s = .ok bs s1)
    (hsub : submit { lid := 0, vdev := r.vdev, queue := r.queue, base := w.dom, rcd := LRec.ofBytes bs, addr := r.rcd
                     slot := some slot } s1 = .ok n s2) : regSubmit slot r w s = .ok (some n) s2 :=
  (M.bind_ok (attempt_ok hread)).trans (M.bind_ok hsub)

theorem regSubmit_unread {slot : Nat} {r : RegSlot} {w : Who} {tr : Trap} {s s1 : State}
    (hread : unitRead none w r.rcd 128 s = .error (.trap tr) s1) :
    regSubmit slot r w s = .ok none (s.postEvent r.vdev (event 0 7 r.queue r.rcd 8)) :=
  (M.bind_ok (attempt_trap hread)).trans rfl

/-- The next time lies one period at most past the clock (R167). -/
theorem next_past_clock {clk next period : Nat} (hperiod : 1 ≤ period) (hlate : period < clk - next) :
    clk < next + (clk - next) / period * period + period ∧ next + (clk - next) / period * period + period ≤ clk + period ∧
      (clk - next) / period ≠ 0 := by
  have hdiv := Nat.div_add_mod' (clk - next) period
  have hmod := Nat.mod_lt (clk - next) hperiod
  have hpos : 1 ≤ (clk - next) / period := (Nat.one_le_div_iff hperiod).mpr hlate.le
  omega

theorem regulatorFiresOnTime : Say.regulatorFiresOnTime := by
  intro k n bs tr s s1 s2 hk r flies
  refine ⟨fun hrest => regulator_rests ?_, fun harm hdue hstill hlate hperiod => ?_,
    fun harm hdue hstill hperiod hlate hclk hmax => ?_⟩
  · refine Bool.eq_false_iff.mpr fun hdue => ?_
    obtain ⟨harm, hle, hstill⟩ := State.regDue_iff.mp hdue
    rcases hrest with h | h | h
    · exact Bool.false_ne_true (h.symm.trans harm)
    · exact Nat.not_le.mpr h hle
    · exact hstill h
  · intro put
    have hfire := regulator_on_time hk (State.regDue_iff.mpr ⟨harm, hdue, hstill⟩) hlate
    refine ⟨fun hovr hqueue => ?_, fun hovr hqueue hread hsub => ?_, fun hovr hqueue hread => ?_⟩
    · rw [hfire hovr, State.regGo_of_no_queue hqueue]
    · rw [hfire hovr, State.regGo_of_submit hqueue (regSubmit_ok hread hsub)]
    · rw [hfire hovr, State.regGo_of_none hqueue (regSubmit_unread hread)]
  · intro missed ovr next u put
    obtain ⟨hlow, hhigh, hpos⟩ := next_past_clock hperiod hlate
    have hnext : r.next + missed * r.period + r.period < 2 ^ 64 := by
      have hle : r.next + missed * r.period + r.period ≤ s.modl.rclk + r.period := hhigh
      omega
    have hfire := regulator_late hk (State.regDue_iff.mpr ⟨harm, hdue, hstill⟩) hlate (missed := missed) rfl hpos (ovr := ovr) rfl
      hnext
    refine ⟨⟨hlow, hhigh⟩, fun hqueue => ?_, fun hqueue hread hsub => ?_, fun hqueue hread => ?_⟩
    · rw [hfire, State.regGo_of_no_queue hqueue]
    · rw [hfire, State.regGo_of_submit hqueue (regSubmit_ok hread hsub)]
    · rw [hfire, State.regGo_of_none hqueue (regSubmit_unread hread)]

end Sys2Proof.Machine
end

section
/-! PROOFS. Launches are chosen, start, complete and are killed (R35 to R37, R137, R391, R395). -/
namespace Sys2Proof.Machine

/-! ### The dispatcher's order -/

theorem State.rank_perm (s : State) (l : Launch) (ls : List Launch) : (s.rank l ls).Perm (l :: ls) := by
  induction ls with
  | nil => exact .refl _
  | cons m ms ih =>
    cases h : s.ahead l m with
    | true => rw [State.rank, h]; exact .refl _
    | false => rw [State.rank, h]; exact (ih.cons m).trans (.swap l m ms)

theorem State.mem_foldl_rank {s : State} {l : Launch} (ls : List Launch) (r : List Launch) :
    l ∈ ls.foldl (fun r l => s.rank l r) r ↔ l ∈ ls ∨ l ∈ r := by
  induction ls generalizing r with
  | nil => simp
  | cons m ms ih => rw [List.foldl_cons, ih, (s.rank_perm m r).mem_iff, List.mem_cons, List.mem_cons]; tauto

theorem State.mem_candidates {s : State} {vd : Nat} {l : Launch} : l ∈ s.candidates vd ↔
    l ∈ s.launches ∧ l.vdev = vd ∧ l.started = false ∧ l.met ≠ none ∧ orderMet l s.launches = true := by
  rw [State.candidates, State.mem_foldl_rank, List.mem_filter]
  simp [Option.isSome_iff_ne_none, and_assoc]

/-- The launches of a list stand in the order of their priorities (R137). -/
def State.Ranked (s : State) (ls : List Launch) : Prop := ls.Pairwise (fun a b => s.effPri b ≤ s.effPri a)

theorem State.effPri_of_ahead {s : State} {l m : Launch} :
    (s.ahead l m = true → s.effPri m ≤ s.effPri l) ∧ (s.ahead l m = false → s.effPri l ≤ s.effPri m) := by
  simp only [State.ahead, Bool.or_eq_true, Bool.or_eq_false_iff, Bool.and_eq_true, decide_eq_true_eq, decide_eq_false_iff_not,
    beq_iff_eq]
  omega

theorem State.Ranked.rank {s : State} {ls : List Launch} (h : s.Ranked ls) (l : Launch) : s.Ranked (s.rank l ls) := by
  induction ls with
  | nil => exact List.pairwise_singleton _ l
  | cons m ms ih =>
    obtain ⟨hm, hms⟩ := List.pairwise_cons.mp h
    cases hahead : s.ahead l m with
    | true =>
      have hle := State.effPri_of_ahead.1 hahead
      rw [State.rank, hahead, if_pos rfl]
      refine List.pairwise_cons.mpr ⟨fun b hb => ?_, h⟩
      rcases List.mem_cons.mp hb with rfl | hb
      · exact hle
      · exact (hm b hb).trans hle
    | false =>
      have hle := State.effPri_of_ahead.2 hahead
      rw [State.rank, hahead, if_neg Bool.false_ne_true]
      refine List.pairwise_cons.mpr ⟨fun b hb => ?_, ih hms⟩
      rcases List.mem_cons.mp ((s.rank_perm l ms).mem_iff.mp hb) with rfl | hb
      · exact hle
      · exact hm b hb

theorem State.candidates_ranked (s : State) (vd : Nat) : s.Ranked (s.candidates vd) := by
  have hfold (ls r : List Launch) (hr : s.Ranked r) : s.Ranked (ls.foldl (fun r l => s.rank l r) r) := by
    induction ls generalizing r with
    | nil => exact hr
    | cons m ms ih => exact ih _ (hr.rank m)
  exact hfold _ [] List.Pairwise.nil

/-- The first candidate has the highest priority. -/
theorem State.effPri_le_head {s : State} {vd : Nat} {l m : Launch} (hm : (s.candidates vd).head? = some m)
    (hl : l ∈ s.candidates vd) : s.effPri l ≤ s.effPri m := by
  have hranked := s.candidates_ranked vd
  obtain ⟨ms, hms⟩ := List.head?_eq_some_iff.mp hm
  rw [hms] at hl hranked
  rcases List.mem_cons.mp hl with rfl | hl
  · exact Nat.le_refl _
  · exact (List.pairwise_cons.mp hranked).1 l hl

theorem State.chosen_spec {s : State} {vd : Nat} {l : Launch} (h : s.chosen vd = some l) :
    l ∈ s.candidates vd ∧ s.seatsFree l = true := by
  unfold State.chosen at h
  cases hc : s.candidates vd with
  | nil => rw [hc] at h; cases h
  | cons t ls =>
    rw [hc] at h
    cases hfree : s.seatsFree t with
    | true =>
      obtain rfl : t = l := by simpa [hfree] using h
      exact ⟨List.mem_cons_self, hfree⟩
    | false =>
      simp only [hfree, Bool.false_eq_true, if_false] at h
      have hl := List.find?_some h
      exact ⟨List.mem_cons_of_mem t (List.mem_of_find?_eq_some h), (Bool.and_eq_true_iff.mp hl).1⟩

theorem State.chosen_of_head {s : State} {vd : Nat} {m : Launch} (hm : (s.candidates vd).head? = some m)
    (hfree : s.seatsFree m = true) : s.chosen vd = some m := by
  obtain ⟨ms, hms⟩ := List.head?_eq_some_iff.mp hm
  simp only [State.chosen, hms, hfree, if_true]

/-! ### A visit of the dispatcher -/

/-- A device as its visit finds it, its credit given (R391). -/
def State.visited (s : State) (vd : Nat) : State :=
  let w : Int := (s.quota vd).weight
  (s.noteMet.modVd vd (fun v => { v with cr := min (v.cr + w * 2 ^ 24) (w * 2 ^ 26) })).modModule (fun m => { m with lastVd := vd })

/-- The visit of a device that may start a launch. -/
def State.dispatch (s : State) (vd : Nat) : Out :=
  match s.chosen vd with
  | none => .next s
  | some l =>
    match startLaunch l s with
    | .ok 0 t => .next (t.modVd vd (fun v => { v with rrq := l.queue }))
    | .ok n t => .next (t.refuse l n)
    | .error .waitAt t => .next t
    | .error _ _ => .next s

section
variable {s t : State} {vd : Nat} {l : Launch}

theorem exec_dispatchVisit_eq (hvd : s.nextVisit = some vd) : exec (.dispatchVisit vd) s =
    if ((s.visited vd).vd vd).cr ≤ 0 ∨ !(s.visited vd).mayStart vd then .next (s.visited vd) else (s.visited vd).dispatch vd := by
  show execDispatchVisit vd s = _
  unfold execDispatchVisit State.dispatch
  exact if_neg (not_not.mpr hvd)

theorem State.dispatch_of_none (h : s.chosen vd = none) : s.dispatch vd = .next s := by rw [State.dispatch, h]

theorem State.dispatch_of_start (h : s.chosen vd = some l) (hstart : startLaunch l s = .ok 0 t) :
    s.dispatch vd = .next (t.modVd vd (fun v => { v with rrq := l.queue })) := by
  simp only [State.dispatch, h, hstart]

theorem State.dispatch_of_refusal {n : Nat} (h : s.chosen vd = some l) (hstart : startLaunch l s = .ok (n + 1) t) :
    s.dispatch vd = .next (t.refuse l (n + 1)) := by
  simp only [State.dispatch, h, hstart]

theorem exec_dispatchVisit_of_nothing (hvd : s.nextVisit = some vd) (h : (s.visited vd).chosen vd = none ∨
    ((s.visited vd).vd vd).cr ≤ 0 ∨ (s.visited vd).mayStart vd = false) :
    exec (.dispatchVisit vd) s = .next (s.visited vd) := by
  rw [exec_dispatchVisit_eq hvd]
  split
  · rfl
  · rename_i hmay
    rcases h with hnone | hbad
    · exact State.dispatch_of_none hnone
    · exact absurd (hbad.imp_right (fun h => by rw [h]; rfl)) hmay

theorem exec_dispatchVisit_of_may (hvd : s.nextVisit = some vd) (hcr : 0 < ((s.visited vd).vd vd).cr)
    (hmay : (s.visited vd).mayStart vd = true) : exec (.dispatchVisit vd) s = (s.visited vd).dispatch vd := by
  rw [exec_dispatchVisit_eq hvd, if_neg]
  simp [hcr, hmay]
end

/-! ### Start messages -/

/-- A seat whose thread j of a launch has just begun (R36, R74). -/
def Seat.Began (x : Seat) (l : Launch) (rank j : Nat) : Prop :=
  x.occ = .thread ∧ x.lid = l.lid ∧ x.queue = l.queue ∧ x.vdev = l.vdev ∧ x.curdom = l.base ∧ x.basedom = l.base ∧
    x.depth = 0 ∧ x.main.pc = ⟨l.rcd.codeoff / 32, l.rcd.entry⟩ ∧ x.segb = l.rcd.segbound % 2 ^ 16 ∧
    x.reg 0 = l.rcd.arg ∧ x.reg 1 = BitVec.ofNat 64 rank ∧ x.reg 2 = BitVec.ofNat 64 j ∧
    x.reg 3 = BitVec.ofNat 64 (l.rcd.setw * l.rcd.seth) ∧ (∀ r, 4 ≤ r → x.reg r = 0) ∧ x.p 0 = true ∧ x.fstat = 0

/-- A new thread's registers are its arguments, then zeros (R74). -/
theorem Seat.reg_start (x : Seat) (t : Start) (i : Nat) : (x.start t).reg i = if i < 64 then (t.args[i]?).getD 0 else 0 := by
  by_cases hi : i < 64
  · simp [Seat.reg, Seat.start, vget, hi]
  · simp [Seat.reg, Seat.start, vget, hi]


/-- The slice of a seat's first thread, and the launch that the seat belongs to, leave what the thread begins with. -/
theorem Seat.began_start (x : Seat) (l : Launch) (rank j : Nat) (q : Quota) (hm : Option SeatHome) :
    ({ (x.start (l.start rank j)).sliceFor q with home := hm } : Seat).Began l rank j := by
  have hbegan (y : Seat) (hy : y = x.start (l.start rank j) ∨ ∃ n, y = { x.start (l.start rank j) with cyc := n, sliced := true }) :
      ({ y with home := hm } : Seat).Began l rank j := by
    have hreg (i : Nat) : ({ y with home := hm } : Seat).reg i = (x.start (l.start rank j)).reg i := by
      rcases hy with rfl | ⟨n, rfl⟩ <;> rfl
    have hargs (i : Nat) := (hreg i).trans (x.reg_start (l.start rank j) i)
    have hrest (r : Nat) (hr : 4 ≤ r) : ({ y with home := hm } : Seat).reg r = 0 := by
      rw [hargs r]
      split
      · rw [List.getElem?_eq_none (by exact hr)]
        rfl
      · rfl
    rcases hy with rfl | ⟨n, rfl⟩ <;>
      exact ⟨rfl, rfl, rfl, rfl, rfl, rfl, rfl, rfl, rfl, hargs 0, hargs 1, hargs 2, hargs 3, hrest, rfl, rfl⟩
  refine hbegan _ ?_
  unfold Seat.sliceFor
  split
  · exact .inl rfl
  · exact .inr ⟨_, rfl⟩

@[simp] theorem Core.setTl_seats (x : Core) (i : Nat) (t : Timeline) : (x.setTl i t).seats = x.seats := rfl

@[simp] theorem Core.setCtx_seats (x : Core) (i : Nat) (t : CopyCtx) : (x.setCtx i t).seats = x.seats := rfl

/-- The counters of a new thread leave the seats as they are (R189). -/
theorem Core.freshTl_seat (x : Core) (k j : Nat) : (x.freshTl k).seat j = x.seat j := by
  have hseats : (x.freshTl k).seats = x.seats := by
    unfold Core.freshTl
    dsimp only
    split
    · split
      · simp only [Core.setTl_seats, Core.setCtx_seats]
      · simp only [Core.setTl_seats, Core.setCtx_seats]
    · simp only [Core.setTl_seats, Core.setCtx_seats]
  rw [Core.seat, Core.seat, hseats]

/-- One thread of a start message (R36). -/
def State.startOne (c lid rank : Nat) (l : Launch) (s : State) (p : Nat × Nat) : State :=
  (s.startThread c p.2 (l.start rank p.1)).modSeat c p.2 (fun x => { x with
    home := some { lid := lid, queue := l.queue, limit := (l.start rank p.1).limit, image := (l.start rank p.1).image } })

section
variable {c lid rank j k : Nat} {l : Launch}

theorem State.startOne_began (hk : k < 4) (s : State) : ((s.startOne c lid rank l (j, k)).seat c k).Began l rank j := by
  have hstart : (s.startThread c k (l.start rank j)).seat c k =
      ((s.seat c k).start (l.start rank j)).sliceFor (s.quota (l.start rank j).vdev) := by
    rw [State.seat, State.startThread, State.core_modCore_self, Core.seat_modSeat_self _ hk, Core.freshTl_seat]
    rfl
  rw [State.startOne, State.seat_modSeat_self _ _ hk, hstart]
  exact Seat.began_start _ l rank j _ _

theorem State.startOne_other {i : Nat} (hi : i ≠ k) (s : State) : (s.startOne c lid rank l (j, k)).seat c i = s.seat c i := by
  rw [State.startOne, State.seat_modSeat_ne _ (.inr hi), State.seat, State.startThread, State.core_modCore_self,
    Core.seat_modSeat_ne _ hi, Core.freshTl_seat]
  rfl

theorem foldl_startOne_other {ps : List (Nat × Nat)} (hk : k ∉ ps.map Prod.snd) (s : State) :
    (ps.foldl (State.startOne c lid rank l) s).seat c k = s.seat c k := by
  induction ps generalizing s with
  | nil => rfl
  | cons p ps ih =>
    obtain ⟨hne, hps⟩ := not_or.mp (mt List.mem_cons.mpr hk)
    exact (ih hps _).trans (State.startOne_other hne s)

theorem foldl_startOne_began {ps : List (Nat × Nat)} (hnodup : (ps.map Prod.snd).Nodup) (hk : k < 4) (hmem : (j, k) ∈ ps)
    (s : State) : ((ps.foldl (State.startOne c lid rank l) s).seat c k).Began l rank j := by
  induction ps generalizing s with
  | nil => cases hmem
  | cons p ps ih =>
    obtain ⟨hp, hnodup⟩ := List.nodup_cons.mp hnodup
    rcases List.mem_cons.mp hmem with rfl | hmem
    · rw [List.foldl_cons, foldl_startOne_other hp]
      exact State.startOne_began hk s
    · exact ih hnodup hmem _
end

theorem map_snd_zip_sublist (xs ys : List Nat) : ((List.zip xs ys).map Prod.snd).Sublist ys := by
  induction xs generalizing ys with
  | nil => exact List.nil_sublist ys
  | cons x xs ih =>
    cases ys with
    | nil => exact .slnil
    | cons y ys => exact (ih ys).cons_cons y

/-- The free seats of a core, lowest first. -/
def State.freeList (s : State) (c : Nat) : List Nat := (upto 4).filter (fun k => (s.seat c k).occ == .free)

theorem State.mem_freeList {s : State} {c k : Nat} : k ∈ s.freeList c ↔ k < 4 ∧ (s.seat c k).occ = .free := by
  simp [State.freeList, upto]

theorem State.freeList_nodup (s : State) (c : Nat) : (s.freeList c).Nodup := List.nodup_range.filter _

/-- The seats of a core after its start message, and before the launch's record of it. -/
def State.startAll (s : State) (c lid : Nat) (l : Launch) : State :=
  (List.zip (upto l.rcd.seats) (s.freeList c)).foldl (State.startOne c lid ((s.coreSet l.vdev l.rcd).idxOf c) l)
    (s.modCore c (fun x => { x with ccache := x.ccache.filter (fun y => y.lid != lid) }))

section
variable {s : State} {c lid : Nat} {l : Launch}

theorem exec_startMessage_ok (hfind : s.launches.find? (fun m => m.lid == lid && m.starts.contains c) = some l)
    (hopen : s.coreOpen l.vdev c = true) (hturn : s.inTurn l.vdev = true) (hfree : l.rcd.seats ≤ (s.freeList c).length) :
    exec (.startMessage lid c) s =
      .next ((s.startAll c lid l).setLaunch { l with starts := l.starts.filter (fun n => n != c) }) := by
  show execStartMessage lid c s = _
  unfold execStartMessage
  rw [hfind]
  have hgo : ¬((!s.coreOpen l.vdev c) = true ∨ (!s.inTurn l.vdev) = true ∨ (s.freeList c).length < l.rcd.seats) := by
    simp [hopen, hturn, hfree]
  exact if_neg hgo

theorem State.startAll_began {j k : Nat} (hj : j < l.rcd.seats) (hk : (s.freeList c)[j]? = some k) :
    ((s.startAll c lid l).seat c k).Began l ((s.coreSet l.vdev l.rcd).idxOf c) j := by
  have hlt := (State.mem_freeList.mp (List.mem_of_getElem? hk)).1
  have hzip : (List.zip (upto l.rcd.seats) (s.freeList c))[j]? = some (j, k) :=
    List.getElem?_zip_eq_some.mpr ⟨by simp [upto, hj], hk⟩
  exact foldl_startOne_began ((map_snd_zip_sublist _ _).nodup (s.freeList_nodup c)) hlt (List.mem_of_getElem? hzip) _

theorem State.startAll_other {k : Nat} (hk : (s.seat c k).occ ≠ .free) : (s.startAll c lid l).seat c k = s.seat c k := by
  have hnot : k ∉ (List.zip (upto l.rcd.seats) (s.freeList c)).map Prod.snd := fun hmem =>
    hk (State.mem_freeList.mp ((map_snd_zip_sublist _ _).subset hmem)).2
  rw [State.startAll, foldl_startOne_other hnot, State.seat, State.core_modCore_self]
  rfl
end

/-! ### Completion and kill -/

theorem exec_launchComplete_ok {s : State} {lid : Nat} {l : Launch} (hfind : s.launches.find? (fun m => m.lid == lid) = some l)
    (hdone : s.finished l = true) (hchild : l.child = none) :
    exec (.launchComplete lid) s = .next (((((({ s with launches := s.launches.filter (fun m => m.lid != lid) } : State).endStreams
      l.vdev lid).endSlots l.vdev lid).endMail l.vdev lid).endSeats l.vdev lid).writeQtl l.vdev l.queue l.rcd.signal) := by
  show execLaunchComplete lid s = _
  unfold execLaunchComplete
  rw [hfind]
  refine (if_neg (show ¬(!s.finished l) = true by simp [hdone])).trans ?_
  rw [hchild]

theorem State.modQueue_modQueue (s : State) (vd q : Nat) (f g : Queue → Queue) :
    (s.modQueue vd q f).modQueue vd q g = s.modQueue vd q (fun x => g (f x)) := by
  simp [State.modQueue, State.modVd, State.vd, VDev.modQueue, VDev.queue]

section
variable {s t : State} {vd q : Nat} {d : Bool}

theorem exec_queueKill_busy (hregs : s.queueRegs vd q = true) (hbusy : (s.queue vd q).qkstat = 1) :
    exec (.queueKill vd q d) s = .next (s.killOn vd q) := by
  show execQueueKill vd q d s = _
  simp only [execQueueKill, hregs, hbusy, Bool.not_true, Bool.false_eq_true, if_false, if_true]

variable (hregs : s.queueRegs vd q = true) (hport : s.portOpen vd = true) (hidle : (s.queue vd q).qkstat ≠ 1)
include hregs hport hidle

theorem exec_queueKill_of_root (hroot : (s.queue vd q).qown = 0) :
    exec (.queueKill vd q true) s = .next (s.modQueue vd q (fun x => { x with qgo := true, qdomk := true, qkstat := 3 })) := by
  show execQueueKill vd q true s = _
  simp only [execQueueKill, hregs, hport, hidle, hroot, Bool.not_true, Bool.false_eq_true, if_false, and_self, if_true,
    State.modQueue_modQueue]

theorem exec_queueKill_starts (hok : (s.queue vd q).qown ≠ 0 ∨ d = false) : exec (.queueKill vd q d) s = .next ((s.modQueue vd q
    (fun x => { x with qgo := true, qdomk := d, qkstat := 1, qkdom := d, qkleft := true, state := .idle })).killOn vd q) := by
  have hno : ¬(d = true ∧ (s.queue vd q).qown = 0) := fun ⟨hd, hroot⟩ => hok.elim (· hroot) (by simp [hd])
  show execQueueKill vd q d s = _
  simp only [execQueueKill, hregs, hport, hidle, Bool.not_true, Bool.false_eq_true, if_false, hno, State.modQueue_modQueue]
end

/-- The queue after steps 1 to 4 of its kill, where they were still to be done (R395). -/
def State.cleared (s : State) (vd q : Nat) : State :=
  if (s.queue vd q).qkleft then (s.killQueue vd q).modQueue vd q (fun x => { x with qkleft := false }) else s

section
variable {s t : State} {vd q : Nat}

theorem State.killOn_waits (hleft : (s.queue vd q).qkleft = true)
    (hlists : s.listsWait (s.launches.filter (fun l => l.vdev == vd && l.queue == q)) = some t) : s.killOn vd q = t := by
  simp only [State.killOn, hleft, if_true, hlists]

theorem State.killOn_goes (h : (s.queue vd q).qkleft = false ∨
      s.listsWait (s.launches.filter (fun l => l.vdev == vd && l.queue == q)) = none) :
    s.killOn vd q = if !(s.queue vd q).qkdom then (s.cleared vd q).modQueue vd q (fun x => { x with qkstat := 2 })
      else if (s.cleared vd q).tablesHeld vd then s.cleared vd q else (s.cleared vd q).killOwner vd q := by
  have hlists : (if (s.queue vd q).qkleft then s.listsWait (s.launches.filter (fun l => l.vdev == vd && l.queue == q)) else none) =
      none := by
    split
    · rename_i hleft
      exact h.resolve_left (by simp [hleft])
    · rfl
  unfold State.killOn
  dsimp only
  rw [hlists]
  rfl
end

theorem launchesStartAndComplete : Say.launchesStartAndComplete := by
  intro vd q c lid l s t
  refine ⟨fun hvd => ?_, State.mem_candidates, State.chosen_spec,
    fun m hm => ⟨fun l hl => State.effPri_le_head hm hl, State.chosen_of_head hm⟩, fun hfind hopen hturn => ?_,
    exec_launchComplete_ok, fun hregs hbusy d => exec_queueKill_busy hregs hbusy, fun hregs hport hidle d => ⟨fun hroot hd => ?_,
      exec_queueKill_starts hregs hport hidle⟩, ?_⟩
  · intro w s2
    refine ⟨exec_dispatchVisit_of_nothing hvd, fun hcr hmay hl => ⟨fun hstart => ?_, fun n hstart => ?_⟩⟩
    · exact (exec_dispatchVisit_of_may hvd hcr hmay).trans (State.dispatch_of_start hl hstart)
    · exact (exec_dispatchVisit_of_may hvd hcr hmay).trans (State.dispatch_of_refusal hl hstart)
  · intro free hfree
    exact ⟨_, exec_startMessage_ok hfind hopen hturn hfree, fun j k hj hk => State.startAll_began hj hk,
      fun k _ hocc => State.startAll_other hocc⟩
  · subst hd
    exact exec_queueKill_of_root hregs hport hidle hroot
  · intro x mine u
    refine ⟨State.killOn_waits, fun h => ?_⟩
    have hgoes := State.killOn_goes h
    have hasked (hdom : x.qkdom = true) : ¬(!(s.queue vd q).qkdom) = true := by
      rw [show (s.queue vd q).qkdom = true from hdom]
      exact Bool.false_ne_true
    refine ⟨fun hdom => ?_, fun hdom hheld => ?_, fun hdom hheld => ?_⟩
    · exact hgoes.trans (if_pos (show (!(s.queue vd q).qkdom) = true from congrArg not hdom))
    · exact hgoes.trans ((if_neg (hasked hdom)).trans (if_pos hheld))
    · exact hgoes.trans ((if_neg (hasked hdom)).trans (if_neg (Bool.eq_false_iff.mp hheld)))

/-- Settles O48: the order of the candidates, each step of a launch's life, and the Regulator on time and late. -/
theorem launchesAndRegulator : Obligations.LaunchesAndRegulator := ⟨launchesStartAndComplete, regulatorFiresOnTime⟩

end Sys2Proof.Machine
end

section
/-! PROOFS. The exact sum and product, and rounding to a neighbour (R47, R260). -/
namespace Sys2Proof.Machine

/-! ### Numbers behind finite values -/

theorem sigAt_zero (n : Bool) (e u : Int) : sigAt n 0 e u = 0 := by simp [sigAt]

/-- A finite value is a number of units 2^u where it is zero or its exponent is not below u. -/
theorem Say.asInts_fin {n : Bool} {m : Nat} {e u x : Int} :
    Say.asInts u (.fin n m e) = some x ↔ (m ≠ 0 → u ≤ e) ∧ sigAt n m e u = x := by
  by_cases hm : m = 0
  · subst hm; simp [Say.asInts, sigAt_zero]
  · by_cases hu : u ≤ e
    · cases n <;> simp [Say.asInts, hm, hu, sigAt]
    · simp [Say.asInts, hm, hu]

theorem Say.asInts_some {a : FVal} {u x : Int} (h : Say.asInts u a = some x) : ∃ n m e, a = .fin n m e := by
  cases a with
  | nan q => cases h
  | inf n => cases h
  | fin n m e => exact ⟨n, m, e, rfl⟩

/-- Units 2^u and coarser units 2^v of one number. -/
theorem sigAt_rebase (n : Bool) {m : Nat} {e u v : Int} (huv : u ≤ v) (hve : m ≠ 0 → v ≤ e) :
    sigAt n m e u = sigAt n m e v * 2 ^ (v - u).toNat := by
  by_cases hm : m = 0
  · simp [hm, sigAt_zero]
  · have hsplit : (e - u).toNat = (e - v).toNat + (v - u).toNat := by have := hve hm; omega
    cases n <;> simp [sigAt, hsplit, pow_add, mul_assoc]

/-- Zero counts as nothing whatever its exponent is. -/
theorem ite_sigAt (n : Bool) (m : Nat) (e u : Int) : (if m = 0 then 0 else sigAt n m e u) = sigAt n m e u := by
  split
  · simp [*, sigAt_zero]
  · rfl

/-- A number as sign and magnitude. -/
theorem sigAt_natAbs (v u : Int) : sigAt (decide (v < 0)) v.natAbs u u = v := by
  simp only [sigAt, sub_self, Int.toNat_zero, pow_zero, mul_one, decide_eq_true_eq]
  split <;> omega

theorem sigAt_mul (n k : Bool) (m l : Nat) {e e' u : Int} (hm : u ≤ e) (hl : u ≤ e') :
    sigAt (xor n k) (m * l) (e + e') (2 * u) = sigAt n m e u * sigAt k l e' u := by
  have hsplit : (e + e' - 2 * u).toNat = (e - u).toNat + (e' - u).toNat := by omega
  cases n <;> cases k <;> simp [sigAt, hsplit, pow_add] <;> ring

/-! ### The exact sum and product (R260) -/

/-- A sum in units 2^v is a value, whose number in finer units 2^u follows. -/
theorem Say.asInts_natAbs {z u v : Int} (huv : u ≤ v) :
    Say.asInts u (.fin (decide (z < 0)) z.natAbs v) = some (z * 2 ^ (v - u).toNat) := by
  rw [Say.asInts_fin, sigAt_rebase _ huv (fun _ => le_rfl), sigAt_natAbs]
  exact ⟨fun _ => huv, rfl⟩

theorem fAdd_exact (r : Rnd) {a b : FVal} {u x y : Int} (ha : Say.asInts u a = some x) (hb : Say.asInts u b = some y) :
    Say.asInts u (fAdd r a b).1 = some (x + y) ∧ (fAdd r a b).2 = 0 := by
  obtain ⟨n, m, e, rfl⟩ := Say.asInts_some ha
  obtain ⟨k, l, e', rfl⟩ := Say.asInts_some hb
  obtain ⟨hue, rfl⟩ := Say.asInts_fin.mp ha
  obtain ⟨hue', rfl⟩ := Say.asInts_fin.mp hb
  by_cases hzero : m = 0 ∧ l = 0
  · obtain ⟨rfl, rfl⟩ := hzero
    simp [fAdd, Say.asInts, sigAt_zero]
  -- the unit of the sum: the lower exponent of those that are not zero
  obtain ⟨v, hv, huv, hm, hl⟩ : ∃ v : Int, (if m = 0 then e' else if l = 0 then e else min e e') = v ∧ u ≤ v ∧
      (m ≠ 0 → v ≤ e) ∧ (l ≠ 0 → v ≤ e') := by
    refine ⟨_, rfl, ?_⟩
    split <;> [skip; split] <;> omega
  simp only [fAdd, hzero, if_false, hv, ite_sigAt]
  rw [sigAt_rebase n huv hm, sigAt_rebase k huv hl, ← add_mul]
  by_cases hsum : sigAt n m e v + sigAt k l e' v = 0
  · simp [hsum, Say.asInts]
  · rw [if_neg hsum]
    exact ⟨Say.asInts_natAbs huv, rfl⟩

theorem fMul_exact {a b : FVal} {u x y : Int} (ha : Say.asInts u a = some x) (hb : Say.asInts u b = some y) :
    Say.asInts (2 * u) (fMul a b).1 = some (x * y) ∧ (fMul a b).2 = 0 := by
  obtain ⟨n, m, e, rfl⟩ := Say.asInts_some ha
  obtain ⟨k, l, e', rfl⟩ := Say.asInts_some hb
  obtain ⟨hue, rfl⟩ := Say.asInts_fin.mp ha
  obtain ⟨hue', rfl⟩ := Say.asInts_fin.mp hb
  refine ⟨Say.asInts_fin.mpr ?_, rfl⟩
  rcases Nat.eq_zero_or_pos (m * l) with hzero | hpos
  · rw [hzero, sigAt_zero]
    rcases Nat.mul_eq_zero.mp hzero with rfl | rfl <;> simp [sigAt_zero]
  · have hm := hue (Nat.pos_of_mul_pos_right hpos).ne'
    have hl := hue' (Nat.pos_of_mul_pos_left hpos).ne'
    exact ⟨fun _ => by omega, sigAt_mul n k m l hm hl⟩

/-! ### Rounding (R47) -/

theorem roundAt_exact (r : Rnd) (neg : Bool) (m : Nat) (e : Int) : roundAt r neg m e e = (m, false) := by
  simp [roundAt]

/-- Rounding of a quotient by 2^sh, the remainder not yet cut off. -/
theorem roundAt_coarser (r : Rnd) (neg : Bool) (m : Nat) {sh : Nat} (hsh : sh ≠ 0) (e : Int) :
    roundAt r neg m e (e + sh) =
      (if roundUp r neg (m / 2 ^ sh) (m % 2 ^ sh) sh then m / 2 ^ sh + 1 else m / 2 ^ sh, decide (m % 2 ^ sh ≠ 0)) := by
  have hlt : ¬ e + sh ≤ e := by omega
  have hcount : (e + sh - e).toNat = sh := by omega
  simp only [roundAt, hlt, if_false, hcount]

theorem roundingPicksNeighbour : Say.roundingPicksNeighbour := by
  intro r neg m sh e
  rcases Nat.eq_zero_or_pos sh with rfl | hpos
  · simp only [Nat.cast_zero, add_zero, roundAt_exact]
    simp
  rw [roundAt_coarser r neg m hpos.ne' e]
  -- m lies between two neighbours, the multiples n · d and n · d + d of d = 2^sh
  have hm : m / 2 ^ sh * 2 ^ sh + m % 2 ^ sh = m := Nat.div_add_mod' m (2 ^ sh)
  have hrem : m % 2 ^ sh < 2 ^ sh := Nat.mod_lt _ (Nat.two_pow_pos sh)
  generalize m / 2 ^ sh = n at *
  generalize m % 2 ^ sh = rem at *
  have hnext : (n + 1) * 2 ^ sh = n * 2 ^ sh + 2 ^ sh := by ring
  have hpick (b : Bool) : (if b then n + 1 else n) * 2 ^ sh = n * 2 ^ sh + (if b then 2 ^ sh else 0) := by
    cases b <;> simp [hnext]
  simp only [hpick]
  clear hpick hnext
  generalize n * 2 ^ sh = low at *
  generalize hd : 2 ^ sh = d at *
  cases r with
  | rne =>
    simp only [roundUp, hd, Bool.or_eq_true, Bool.and_eq_true, decide_eq_true_eq, decide_eq_false_iff_not, reduceCtorEq,
      false_implies, true_implies, and_true]
    split <;> omega
  | rtz => simp [roundUp]; omega
  | rup => cases neg <;> simp [roundUp] <;> [split; skip] <;> omega
  | rdn => cases neg <;> simp [roundUp] <;> [skip; split] <;> omega

/-- Settles O8: a sum or product of numbers of units, and rounding by the remainder that it cuts off. -/
theorem exactRounding : Obligations.ExactRounding :=
  ⟨fun r _ _ _ _ _ ha hb => ⟨fAdd_exact r ha hb, fMul_exact ha hb⟩, roundingPicksNeighbour⟩

end Sys2Proof.Machine
end

section
/-! PROOFS. CVT between integer types and between integers and floats (R50, R246, R262). -/
namespace Sys2Proof.Machine

/-! ### Integer results (R246) -/

/-- Half of a type's range, the weight of its sign bit. -/
theorem two_pow_wOf (ty : ITy) : 2 ^ wOf ty = 2 * 2 ^ (wOf ty - 1) := by cases ty <;> rfl

/-- The low bits of a number, read in a type of either kind. -/
theorem readBits_wOf (ty : ITy) (v : Int) : readBits (sgn ty) (wOf ty) v = Say.wrapTo ty v := by
  have hhalf : (2 ^ wOf ty + 1) / 2 = 2 ^ (wOf ty - 1) := by rw [two_pow_wOf]; omega
  simp only [readBits, Say.wrapTo, Int.bmod]
  cases sgn ty with
  | false => simp
  | true =>
    simp only [true_and, if_true, ← hhalf]
    split <;> split <;> first | rfl | omega

/-- A number inside the range of a type is what its low bits hold. -/
theorem Say.wrapTo_of_inside {ty : ITy} {v : Int} (h : Say.outside ty v = false) : Say.wrapTo ty v = v := by
  have hw := two_pow_wOf ty
  have hpos : 0 < 2 ^ (wOf ty - 1) := Nat.two_pow_pos _
  revert h
  simp only [Say.outside, Say.wrapTo, hw]
  generalize 2 ^ (wOf ty - 1) = m at hpos
  cases sgn ty with
  | false =>
    simp only [Bool.false_eq_true, if_false, Bool.or_eq_false_iff, decide_eq_false_iff_not, not_lt, not_le]
    exact fun h => Int.emod_eq_of_lt h.1 h.2
  | true =>
    simp only [if_true, Bool.or_eq_false_iff, decide_eq_false_iff_not, not_lt, not_le]
    exact fun h => Int.bmod_eq_of_le_mul_two (by push_cast; omega) (by push_cast; omega)

/-- Outside the range of a type is below its least or above its greatest value. -/
theorem Say.outside_iff {ty : ITy} {v : Int} :
    Say.outside ty v = true ↔ v < loOf (sgn ty) (wOf ty) ∨ hiOf (sgn ty) (wOf ty) < v := by
  by_cases h : sgn ty = true <;> simp [Say.outside, loOf, hiOf, h]

theorem Say.nearest_eq (ty : ITy) (v : Int) :
    Say.nearest ty v = if v < 0 then loOf (sgn ty) (wOf ty) else hiOf (sgn ty) (wOf ty) := rfl

/-- The clamp to a type's range gives its nearest end for a number outside. -/
theorem clampInt_wOf (ty : ITy) (v : Int) :
    clampInt (sgn ty) (wOf ty) v = if Say.outside ty v then (Say.nearest ty v, true) else (v, false) := by
  have hhalf : 0 < 2 ^ (wOf ty - 1) := Nat.two_pow_pos _
  have hwhole : 0 < 2 ^ wOf ty := Nat.two_pow_pos _
  have hlo : loOf (sgn ty) (wOf ty) ≤ 0 := by unfold loOf; split <;> omega
  have hhi : 0 ≤ hiOf (sgn ty) (wOf ty) := by unfold hiOf; split <;> omega
  simp only [clampInt, Say.outside_iff, Say.nearest_eq]
  by_cases hbelow : v < loOf (sgn ty) (wOf ty)
  · have hneg : v < 0 := by omega
    simp [hbelow, hneg]
  · by_cases habove : hiOf (sgn ty) (wOf ty) < v
    · have hnonneg : ¬ v < 0 := by omega
      simp [hbelow, habove, hnonneg]
    · simp [hbelow, habove]

theorem fitInt_wOf (ty : ITy) (sat : Bool) (v : Int) : fitInt (sgn ty) sat (wOf ty) v =
    if sat && Say.outside ty v then (Say.nearest ty v, fSAT) else (Say.wrapTo ty v, 0) := by
  cases sat with
  | false => simp [fitInt, readBits_wOf]
  | true =>
    simp only [fitInt, clampInt_wOf, if_true, Bool.true_and]
    cases h : Say.outside ty v with
    | false => simp [Say.wrapTo_of_inside h]
    | true => simp

/-- Flags and a result that is written to a full register. -/
theorem flag_writeScal {d : Nat} {s : State} (hd : Say.Dest d s) (f : Flags) (w : Word) :
    (do flag f; writeScal d w : M Unit) s = .ok () (s.modMe (fun x => (x.raiseFlags f).setReg d w)) := by
  have hfull : (s.modMe (fun x => x.raiseFlags f)).me.full d = true := by
    exact (State.full_modMe s (fun x => x.raiseFlags f) (fun _ => rfl) d).trans hd.2
  rw [M.bind_ok (flag_eq f s), writeScal_full hd.1 hfull, State.modMe_modMe]

theorem writeInt_ok {ty : ITy} {sat : Bool} {d : Nat} {v : Int} {s : State} (hd : Say.Dest d s) :
    writeInt ty sat d v s = .ok () (s.modMe (Say.putInt ty sat d v 0)) := by
  simp only [writeInt, fitInt_wOf]
  have hput : Say.putInt ty sat d v 0 = fun x => (x.raiseFlags (if sat && Say.outside ty v then fSAT else 0)).setReg d
      (BitVec.ofInt 64 (if sat && Say.outside ty v then Say.nearest ty v else Say.wrapTo ty v)) := by
    funext x
    unfold Say.putInt
    split <;> simp
  rw [hput]
  split <;> exact flag_writeScal hd _ _

/-! ### CVT -/

/-- What CVT makes of a value in a floating-point type (R50). -/
theorem cvtTo_float {c : CTy} (hc : ∀ t, c ≠ .int t) (rnd : Rnd) (satc ftz : Bool) (v : FVal) :
    let r := roundF (cfmt c) ftz rnd (if satc then .nan else .sat) v
    cvtTo c rnd satc ftz v = (BitVec.ofNat 64 r.1, r.2) := by
  cases c with
  | int t => exact absurd rfl (hc t)
  | _ => rfl

section
variable {h : Head} {c e : CTy} {t : ITy} {rnd : Rnd} {satc : Bool} {d p : Nat} {x : Int} {a : Src} {s s1 : State}
  (hg : guardOk h s.me = true) (hd : Say.Dest d s1)
include hg hd

theorem exec_cvt_of_int (hx : readInt t 2 a s = .ok x s1) (hc : ∀ t, c ≠ .int t) :
    let r := cvtTo c rnd satc s1.me.ftz (.ofInt x)
    exec (.cvt h c (.int t) rnd satc d a) s = .next ((s1.modMe (fun y => (y.raiseFlags r.2).setReg d r.1)).advance h) := by
  refine issue_ok (u := ()) hg ((M.bind_ok hx).trans ?_)
  cases c with
  | int t => exact absurd rfl (hc t)
  | _ => exact (M.bind_ok (me_eq s1)).trans (flag_writeScal hd _ _)

theorem exec_cvt_of_float (hp : readF (cfmt e) 2 a s = .ok p s1) (he : ∀ t, e ≠ .int t) :
    let v := decodeF (cfmt e) s1.me.ftz p
    let r := cvtTo c rnd satc s1.me.ftz v
    exec (.cvt h c e rnd satc d a) s =
      .next ((s1.modMe (fun y => (y.raiseFlags (r.2 ||| v.nvOf)).setReg d r.1)).advance h) := by
  refine issue_ok (u := ()) hg ?_
  cases e with
  | int t => exact absurd rfl (he t)
  | _ => exact (M.bind_ok hp).trans ((M.bind_ok (me_eq s1)).trans (flag_writeScal hd _ _))
end

/-- Settles O10: an integer is read and clamped or wrapped, or rounded; a float is rounded to either kind. -/
theorem cvtResults : Obligations.CvtResults := by
  intro h t u c e rnd satc d p x a s s1 hg hd hc he
  refine ⟨fun hx => ⟨?intToInt, ?intToFloat⟩, fun hp => ⟨?floatToFloat, exec_cvt_of_float hg hd hp he⟩⟩
  case intToInt => exact issue_ok hg ((M.bind_ok hx).trans (writeInt_ok hd))
  case intToFloat =>
    simpa only [cvtTo_float hc] using exec_cvt_of_int (rnd := rnd) (satc := satc) hg hd hx hc
  case floatToFloat =>
    simpa only [cvtTo_float hc] using exec_cvt_of_float (c := c) (rnd := rnd) (satc := satc) hg hd hp he

end Sys2Proof.Machine
end

section
/-! PROOFS. Bits of a memory: what a write of bits puts and leaves (R44, R68, R270). -/
namespace Sys2Proof.Machine

/-! ### Bits of a number -/

/-- Replacing the bits [lo, lo + len) of a number. -/
theorem testBit_splice (old v lo len i : Nat) :
    (old % 2 ^ lo + (v % 2 ^ len) * 2 ^ lo + old / 2 ^ (lo + len) * 2 ^ (lo + len)).testBit i =
      if lo ≤ i ∧ i < lo + len then v.testBit (i - lo) else old.testBit i := by
  have hlow : old % 2 ^ lo < 2 ^ lo := Nat.mod_lt _ (Nat.two_pow_pos _)
  have hmid : v % 2 ^ len < 2 ^ len := Nat.mod_lt _ (Nat.two_pow_pos _)
  have hboth : old % 2 ^ lo + (v % 2 ^ len) * 2 ^ lo < 2 ^ (lo + len) := by
    calc old % 2 ^ lo + v % 2 ^ len * 2 ^ lo < (v % 2 ^ len + 1) * 2 ^ lo := by rw [Nat.succ_mul]; omega
      _ ≤ 2 ^ len * 2 ^ lo := Nat.mul_le_mul_right _ hmid
      _ = 2 ^ (lo + len) := by rw [Nat.add_comm, pow_add]
  rw [Nat.add_comm, Nat.mul_comm (old / _), Nat.testBit_two_pow_mul_add _ hboth, Nat.add_comm (old % _), Nat.mul_comm (v % _),
    Nat.testBit_two_pow_mul_add _ hlow]
  by_cases hi : i < lo
  · have : i < lo + len := by omega
    have : ¬ lo ≤ i := by omega
    simp [*, Nat.testBit_mod_two_pow]
  · by_cases hi2 : i < lo + len
    · have : i - lo < len := by omega
      have : lo ≤ i := by omega
      simp [*, Nat.testBit_mod_two_pow]
    · have : i - (lo + len) + (lo + len) = i := by omega
      simp [*, Nat.testBit_div_two_pow]

/-! ### Bits of a memory -/

/-- Bit k of a memory, counted from its first byte. -/
def memBit (m : Memory) (k : Nat) : Bool := (memRead m (k / 8)).getLsbD (k % 8)

/-- Bytes that the bits [at_, at_ + len) touch. -/
def bitSpan (at_ len : Nat) : Nat := if len = 0 then 0 else (at_ + len + 7) / 8 - at_ / 8

/-- The number in the bits [at_, at_ + len). -/
def memBits (m : Memory) (at_ len : Nat) : Nat := bitsAt (leNat (memReads m (at_ / 8) (bitSpan at_ len))) (at_ % 8) len

/-- A memory with a number in the bits [at_, at_ + len). -/
def memSetBits (m : Memory) (at_ len v : Nat) : Memory :=
  if len = 0 then m
  else
    let old := leNat (memReads m (at_ / 8) (bitSpan at_ len))
    let lo := at_ % 8
    memWrites m (at_ / 8)
      (leBytes (old % 2 ^ lo + (v % 2 ^ len) * 2 ^ lo + old / 2 ^ (lo + len) * 2 ^ (lo + len)) (bitSpan at_ len))

theorem memSetBits_wf {m : Memory} (at_ len v : Nat) (h : m.wf = true) : (memSetBits m at_ len v).wf = true := by
  unfold memSetBits
  split
  · exact h
  · exact memWrites_wf _ _ h

/-- Bytes are equal where their bits are. -/
theorem memRead_of_memBit {m m' : Memory} {a : Nat} (h : ∀ k, k / 8 = a → memBit m k = memBit m' k) :
    memRead m a = memRead m' a := by
  refine BitVec.eq_of_getLsbD_eq fun i hi => ?_
  have hk := h (8 * a + i) (by omega)
  have hdiv : (8 * a + i) / 8 = a := by omega
  have hmod : (8 * a + i) % 8 = i := by omega
  simpa only [memBit, hdiv, hmod] using hk

theorem testBit_leNat_memReads (m : Memory) (a n i : Nat) :
    (leNat (memReads m a n)).testBit i = (decide (i < 8 * n) && memBit m (8 * a + i)) := by
  induction n generalizing a i with
  | zero => simp [memReads, leNat]
  | succ n ih =>
    have hsum : leNat (memReads m a (n + 1)) = 2 ^ 8 * leNat (memReads m (a + 1) n) + (memRead m a).toNat := by
      simp [memReads, leNat, Nat.add_comm]
    rw [hsum, Nat.testBit_two_pow_mul_add _ (memRead m a).isLt, ih]
    by_cases hi : i < 8
    · have hdiv : (8 * a + i) / 8 = a := by omega
      have hmod : (8 * a + i) % 8 = i := by omega
      have hin : i < 8 * (n + 1) := by omega
      simp [hi, hin, memBit, hdiv, hmod, BitVec.getLsbD]
    · have hpos : 8 * (a + 1) + (i - 8) = 8 * a + i := by omega
      have hin : (i - 8 < 8 * n) = (i < 8 * (n + 1)) := by simp; omega
      simp only [hi, if_false, hpos, hin]

theorem leBytes_getElem (v n i : Nat) (hi : i < (leBytes v n).length) : (leBytes v n)[i] = BitVec.ofNat 8 (v / 256 ^ i) := by
  induction n generalizing v i with
  | zero => simp [leBytes] at hi
  | succ n ih =>
    cases i with
    | zero => simp [leBytes]
    | succ i =>
      simp only [leBytes, List.getElem_cons_succ]
      rw [ih, Nat.div_div_eq_div_mul, Nat.pow_succ, Nat.mul_comm 256]

theorem memBit_memWrites_leBytes {m : Memory} (h : m.wf = true) (a v n k : Nat) :
    memBit (memWrites m a (leBytes v n)) k = if 8 * a ≤ k ∧ k < 8 * (a + n) then v.testBit (k - 8 * a) else memBit m k := by
  by_cases hk : 8 * a ≤ k ∧ k < 8 * (a + n)
  · have hidx : k / 8 - a < (leBytes v n).length := by rw [leBytes_length]; omega
    have hread := memRead_memWrites_of_inside a (k / 8 - a) _ hidx h
    rw [show a + (k / 8 - a) = k / 8 by omega, leBytes_getElem] at hread
    have hpos : k - 8 * a = 8 * (k / 8 - a) + k % 8 := by omega
    have hmod : k % 8 < 8 := Nat.mod_lt _ (by decide)
    have hbase : 256 ^ (k / 8 - a) = 2 ^ (8 * (k / 8 - a)) := by rw [pow_mul]; rfl
    rw [if_pos hk, memBit, hread, hpos, BitVec.getLsbD_ofNat, hbase, Nat.testBit_div_two_pow, decide_eq_true hmod, Bool.true_and,
      Nat.add_comm]
  · rw [if_neg hk, memBit, memBit, memRead_memWrites_of_outside _ (by rw [leBytes_length]; omega)]

/-- Each bit of a number read. -/
theorem testBit_memBits (m : Memory) (at_ len i : Nat) :
    (memBits m at_ len).testBit i = (decide (i < len) && memBit m (at_ + i)) := by
  rw [memBits, bitsAt, Nat.testBit_mod_two_pow, Nat.testBit_div_two_pow, testBit_leNat_memReads]
  by_cases hi : i < len
  · have hin : at_ % 8 + i < 8 * bitSpan at_ len := by unfold bitSpan; split <;> omega
    have hpos : 8 * (at_ / 8) + (at_ % 8 + i) = at_ + i := by omega
    simp [hi, Nat.add_comm i, hin, hpos]
  · simp [hi]

/-- Each bit after a number has been put: the number's where it stands, as before elsewhere. -/
theorem memBit_memSetBits {m : Memory} (h : m.wf = true) (at_ len v k : Nat) :
    memBit (memSetBits m at_ len v) k = if at_ ≤ k ∧ k < at_ + len then v.testBit (k - at_) else memBit m k := by
  by_cases hlen : len = 0
  · have hk : ¬ (at_ ≤ k ∧ k < at_ + len) := by omega
    rw [memSetBits, if_pos hlen, if_neg hk]
  have hspan : bitSpan at_ len = (at_ + len + 7) / 8 - at_ / 8 := if_neg hlen
  rw [memSetBits, if_neg hlen, memBit_memWrites_leBytes h, testBit_splice, testBit_leNat_memReads]
  by_cases hk : at_ ≤ k ∧ k < at_ + len
  · have hbyte : 8 * (at_ / 8) ≤ k ∧ k < 8 * (at_ / 8 + bitSpan at_ len) := by omega
    have hmid : at_ % 8 ≤ k - 8 * (at_ / 8) ∧ k - 8 * (at_ / 8) < at_ % 8 + len := by omega
    rw [if_pos hbyte, if_pos hmid, if_pos hk, show k - 8 * (at_ / 8) - at_ % 8 = k - at_ by omega]
  · rw [if_neg hk]
    by_cases hbyte : 8 * (at_ / 8) ≤ k ∧ k < 8 * (at_ / 8 + bitSpan at_ len)
    · have hout : ¬ (at_ % 8 ≤ k - 8 * (at_ / 8) ∧ k - 8 * (at_ / 8) < at_ % 8 + len) := by omega
      have hin : k - 8 * (at_ / 8) < 8 * bitSpan at_ len := by omega
      rw [if_pos hbyte, if_neg hout, show 8 * (at_ / 8) + (k - 8 * (at_ / 8)) = k by omega]
      simp [hin]
    · rw [if_neg hbyte]

/-- Numbers are equal where their bits are. -/
theorem memBits_congr {m m' : Memory} {at_ len : Nat} (h : ∀ k, at_ ≤ k → k < at_ + len → memBit m k = memBit m' k) :
    memBits m at_ len = memBits m' at_ len := by
  refine Nat.eq_of_testBit_eq fun i => ?_
  rw [testBit_memBits, testBit_memBits]
  by_cases hi : i < len
  · rw [h (at_ + i) (by omega) (by omega)]
  · simp [hi]

theorem memBits_memSetBits_self {m : Memory} (h : m.wf = true) (at_ len v : Nat) :
    memBits (memSetBits m at_ len v) at_ len = v % 2 ^ len := by
  refine Nat.eq_of_testBit_eq fun i => ?_
  rw [testBit_memBits, memBit_memSetBits h, Nat.testBit_mod_two_pow]
  by_cases hi : i < len <;> simp [hi]

/-- Bits that a write does not meet read as before. -/
theorem memBits_memSetBits_apart {m : Memory} (h : m.wf = true) {at_ len at' len' : Nat} (v : Nat)
    (hapart : at' + len' ≤ at_ ∨ at_ + len ≤ at') : memBits (memSetBits m at_ len v) at' len' = memBits m at' len' :=
  memBits_congr fun k hlo hhi => by rw [memBit_memSetBits h, if_neg (by omega)]

/-- A byte that no bit of a write lies in reads as before. -/
theorem memRead_memSetBits_apart {m : Memory} (h : m.wf = true) {at_ len a : Nat} (v : Nat)
    (hapart : 8 * a + 8 ≤ at_ ∨ at_ + len ≤ 8 * a) : memRead (memSetBits m at_ len v) a = memRead m a :=
  memRead_of_memBit fun k hk => by rw [memBit_memSetBits h, if_neg (by omega)]

/-! ### Bits of local memory -/

/-- First bit of a run of core c in the memory that holds every core's. -/
def Run.abs (c : Nat) (r : Run) : Nat := 8 * lkey c 0 + r.at_

/-- The byte, the bit in it and the number of bytes of a run, in its core's memory and in the whole. -/
theorem Run.abs_parts (c : Nat) (r : Run) :
    lkey c r.off = r.abs c / 8 ∧ r.at_ % 8 = r.abs c % 8 ∧ r.bytes = bitSpan (r.abs c) r.len := by
  unfold Run.abs lkey Run.off Run.bytes bitSpan
  refine ⟨by omega, by omega, ?_⟩
  split <;> omega

theorem State.bits_eq (s : State) (c : Nat) (r : Run) : s.bits c r = memBits s.lmem (r.abs c) r.len := by
  obtain ⟨hoff, hbit, hbytes⟩ := r.abs_parts c
  rw [State.bits, State.locNum, State.locRead, hoff, hbit, hbytes, memBits]

@[simp] theorem State.setBits_lmem (s : State) (c : Nat) (r : Run) (v : Nat) :
    (s.setBits c r v).lmem = memSetBits s.lmem (r.abs c) r.len v := by
  obtain ⟨hoff, hbit, hbytes⟩ := r.abs_parts c
  unfold State.setBits memSetBits
  split
  · rfl
  · simp only [State.locWrite, State.locNum, State.locRead, hoff, hbit, hbytes]

/-! ### Where the elements of a view lie (R44) -/

/-- Line and position in it of element (i, j) of a row-major or column-major view. -/
def View.linePos (v : View) (i j : Nat) : Nat × Nat := if v.layout = 1 then (j, i) else (i, j)

/-- First bit of the elements of line l. -/
def View.lineBit (v : View) (l : Nat) : Nat := 8 * (v.base + v.pitch * l + v.hdr)

theorem View.bitPos_eq (v : View) (i j : Nat) :
    v.bitPos i j = v.lineBit (v.linePos i j).1 + (v.linePos i j).2 * fmtWidth v.fm := by
  unfold View.bitPos View.linePos View.lineBit
  split <;> rfl

theorem View.linePos_inj {v : View} {i j i' j' : Nat} (h : v.linePos i j = v.linePos i' j') : (i, j) = (i', j') := by
  unfold View.linePos at h
  split at h <;> simp_all

theorem View.linePos_lt {v : View} {i j : Nat} (hi : i < v.rows) (hj : j < v.cols) :
    (v.linePos i j).1 < v.nlines ∧ (v.linePos i j).2 < v.nelems := by
  unfold View.linePos View.nlines View.nelems
  split <;> exact ⟨by assumption, by assumption⟩

/-- A packed run holds its elements in whole bytes. -/
theorem packLen_bits (f : Fmt) (n : Nat) : n * fmtWidth f ≤ 8 * packLen f n := by
  have hgroup : grain f * fmtWidth f % 8 = 0 := by cases f <;> rfl
  have hgrain : 0 < grain f := by cases f <;> decide
  have hup : n ≤ (n + grain f - 1) / grain f * grain f := by
    have := Nat.div_add_mod' (n + grain f - 1) (grain f)
    have := Nat.mod_lt (n + grain f - 1) hgrain
    omega
  have hbits : n * fmtWidth f ≤ (n + grain f - 1) / grain f * (grain f * fmtWidth f) := by
    rw [← Nat.mul_assoc]; exact Nat.mul_le_mul_right _ hup
  have hwhole : (n + grain f - 1) / grain f * (grain f * fmtWidth f) % 8 = 0 := by rw [Nat.mul_mod, hgroup]; simp
  rw [packLen, Nat.mul_assoc]
  omega

theorem View.lineLen_le_pitch {v : View} (h : v.ok = true) : v.lineLen ≤ v.pitch := by
  simp only [View.ok, Bool.and_eq_true, decide_eq_true_eq] at h
  obtain ⟨⟨⟨⟨⟨⟨-, hlen⟩, -⟩, -⟩, -⟩, -⟩, -⟩ := h
  exact hlen

/-- A line's elements and its padding fill it to its end (R44). -/
theorem View.lineBit_padded {v : View} (hlay : v.layout < 2) (l : Nat) :
    v.lineBit l + v.nelems * fmtWidth v.fm + v.padBits = 8 * (v.base + v.pitch * l + v.lineLen) := by
  have hbits := packLen_bits v.fm v.nelems
  have hlay : v.layout ≠ 2 := by omega
  simp only [View.lineBit, View.padBits, View.lineLen, hlay, if_false]
  omega

/-- Different lines do not meet. -/
theorem View.line_apart {v : View} (hok : v.ok = true) {l l' : Nat} (h : l < l') :
    8 * (v.base + v.pitch * l + v.lineLen) ≤ v.lineBit l' := by
  have hpitch := View.lineLen_le_pitch hok
  have hnext : v.pitch * (l + 1) ≤ v.pitch * l' := Nat.mul_le_mul_left _ h
  rw [Nat.mul_succ] at hnext
  unfold View.lineBit
  omega

/-- An element ends where the next one of its line begins, or before. -/
theorem pos_mul_succ_le {p q w : Nat} (h : p < q) : p * w + w ≤ q * w := by
  rw [← Nat.succ_mul]; exact Nat.mul_le_mul_right _ h

section
variable {v : View} (hok : v.ok = true) (hlay : v.layout < 2) {i j i' j' : Nat} (hi : i < v.rows) (hj : j < v.cols)
  (hi' : i' < v.rows) (hj' : j' < v.cols)
include hlay hi hj

/-- An element lies in its line, before the padding. -/
theorem View.elem_in_line : v.lineBit (v.linePos i j).1 ≤ (v.elem i j).at_ ∧
    (v.elem i j).at_ + (v.elem i j).len ≤ (v.padRun (v.linePos i j).1).at_ ∧
    (v.padRun (v.linePos i j).1).at_ + (v.padRun (v.linePos i j).1).len =
      8 * (v.base + v.pitch * (v.linePos i j).1 + v.lineLen) := by
  obtain ⟨-, hp⟩ := View.linePos_lt hi hj
  have hend := pos_mul_succ_le (w := fmtWidth v.fm) hp
  have hat : (v.elem i j).at_ = v.lineBit (v.linePos i j).1 + (v.linePos i j).2 * fmtWidth v.fm := v.bitPos_eq i j
  have hpad : (v.padRun (v.linePos i j).1).at_ = v.lineBit (v.linePos i j).1 + v.nelems * fmtWidth v.fm := rfl
  have hline := View.lineBit_padded hlay (v.linePos i j).1
  have hlen : (v.elem i j).len = fmtWidth v.fm := rfl
  have hpadLen : (v.padRun (v.linePos i j).1).len = v.padBits := rfl
  omega

include hok hi' hj'

/-- Different elements do not meet. -/
theorem View.elem_apart (hne : (i', j') ≠ (i, j)) : (v.elem i' j').at_ + (v.elem i' j').len ≤ (v.elem i j).at_ ∨
    (v.elem i j).at_ + (v.elem i j).len ≤ (v.elem i' j').at_ := by
  have hin := View.elem_in_line hlay hi hj
  have hin' := View.elem_in_line hlay hi' hj'
  rcases Nat.lt_trichotomy (v.linePos i j).1 (v.linePos i' j').1 with hl | hl | hl
  · have := View.line_apart hok hl; omega
  · have hp : (v.linePos i' j').2 ≠ (v.linePos i j).2 := fun hp => hne (View.linePos_inj (Prod.ext hl.symm hp))
    have hlen : (v.elem i j).len = fmtWidth v.fm ∧ (v.elem i' j').len = fmtWidth v.fm := ⟨rfl, rfl⟩
    have hat : (v.elem i j).at_ = _ ∧ (v.elem i' j').at_ = _ := ⟨v.bitPos_eq i j, v.bitPos_eq i' j'⟩
    rw [hl] at hat
    rcases Nat.lt_or_gt_of_ne hp with hp | hp <;> have := pos_mul_succ_le (w := fmtWidth v.fm) hp <;> omega
  · have := View.line_apart hok hl; omega

/-- A line's padding meets no element. -/
theorem View.pad_apart : (v.elem i' j').at_ + (v.elem i' j').len ≤ (v.padRun (v.linePos i j).1).at_ ∨
    (v.padRun (v.linePos i j).1).at_ + (v.padRun (v.linePos i j).1).len ≤ (v.elem i' j').at_ := by
  have hin := View.elem_in_line hlay hi hj
  have hin' := View.elem_in_line hlay hi' hj'
  rcases Nat.lt_trichotomy (v.linePos i j).1 (v.linePos i' j').1 with hl | hl | hl
  · have := View.line_apart hok hl; omega
  · rw [hl]; omega
  · have := View.line_apart hok hl; omega
end

/-! ### Elements written and read -/

theorem State.elemBits_eq {v : View} (hlay : v.layout < 2) (s : State) (c i j : Nat) :
    s.elemBits c v i j = memBits s.lmem ((v.elem i j).abs c) (fmtWidth v.fm) := by
  have hlay : v.layout ≠ 2 := by omega
  rw [State.elemBits, if_neg hlay, State.bits_eq]
  rfl

/-- Local memory after the write of an element: its bits, and zero in the padding that shares its group (R68). -/
theorem State.putElem_lmem {v : View} (hlay : v.layout < 2) (s : State) (c i j x : Nat) :
    (s.putElem c v i j x).lmem =
      let m := memSetBits s.lmem ((v.elem i j).abs c) (v.elem i j).len x
      if v.inLast (v.linePos i j).2 then
        memSetBits m ((v.padRun (v.linePos i j).1).abs c) (v.padRun (v.linePos i j).1).len 0
      else m := by
  have hlay : v.layout ≠ 2 := by omega
  have hput : s.putElem c v i j x = if v.inLast (v.linePos i j).2 then
      (s.setBits c (v.elem i j) x).setBits c (v.padRun (v.linePos i j).1) 0 else s.setBits c (v.elem i j) x := by
    simp only [State.putElem, State.setElem, View.linePos, hlay, if_false, bne_iff_ne.mpr hlay, Bool.true_and]
    rfl
  rw [hput]
  split <;> simp

section
variable {v : View} {s : State} (hwf : s.lmem.wf = true) (hlay : v.layout < 2) {c i j : Nat} (x : Nat)
include hwf hlay

/-- A bit outside an element and outside its line's padding stays when the element is written. -/
theorem State.memBit_putElem_of_apart {k : Nat}
    (helem : k < (v.elem i j).abs c ∨ (v.elem i j).abs c + (v.elem i j).len ≤ k)
    (hpad : k < (v.padRun (v.linePos i j).1).abs c ∨
      (v.padRun (v.linePos i j).1).abs c + (v.padRun (v.linePos i j).1).len ≤ k) :
    memBit (s.putElem c v i j x).lmem k = memBit s.lmem k := by
  have hset : memBit (memSetBits s.lmem ((v.elem i j).abs c) (v.elem i j).len x) k = memBit s.lmem k := by
    rw [memBit_memSetBits hwf, if_neg (by omega)]
  rw [State.putElem_lmem hlay]
  dsimp only
  split
  · rw [memBit_memSetBits (memSetBits_wf _ _ _ hwf), if_neg (by omega), hset]
  · exact hset

theorem State.elemBits_putElem_self (hi : i < v.rows) (hj : j < v.cols) :
    (s.putElem c v i j x).elemBits c v i j = x % 2 ^ fmtWidth v.fm := by
  obtain ⟨-, hend, -⟩ := View.elem_in_line hlay hi hj
  have hpad : (v.elem i j).abs c + fmtWidth v.fm ≤ (v.padRun (v.linePos i j).1).abs c := by
    rw [Run.abs, Run.abs, Nat.add_assoc]; exact Nat.add_le_add_left hend _
  rw [State.elemBits_eq hlay, State.putElem_lmem hlay]
  dsimp only
  split
  · rw [memBits_memSetBits_apart (memSetBits_wf _ _ _ hwf) _ (.inl hpad)]
    exact memBits_memSetBits_self hwf _ _ _
  · exact memBits_memSetBits_self hwf _ _ _
end

/-- Settles O17: the element, the other elements and the padding of a line lie apart, and inside the line. -/
theorem elementWriteReadsBack : Obligations.ElementWriteReadsBack := by
  intro s c v i j x hwf hok hlay hi hj t
  refine ⟨State.elemBits_putElem_self hwf hlay x hi hj, fun i' j' hi' hj' hne => ?other, fun a ha => ?outside⟩
  case other =>
    have helem := View.elem_apart hok hlay hi hj hi' hj' hne
    have hpad := View.pad_apart hok hlay hi hj hi' hj'
    have hlen : (v.elem i' j').len = fmtWidth v.fm := rfl
    rw [State.elemBits_eq hlay, State.elemBits_eq hlay]
    refine memBits_congr fun k hlo hhi => State.memBit_putElem_of_apart hwf hlay x ?_ ?_ <;> unfold Run.abs at * <;> omega
  case outside =>
    obtain ⟨hstart, hpad, hend⟩ := View.elem_in_line hlay hi hj
    rw [show (if v.layout = 1 then j else i) = (v.linePos i j).1 by unfold View.linePos; split <;> rfl] at ha
    refine memRead_of_memBit fun k hk => State.memBit_putElem_of_apart hwf hlay x ?_ ?_ <;>
      unfold Run.abs lkey View.lineBit at * <;> omega

end Sys2Proof.Machine
end

section
/-! PROOFS. A tile instruction whose runs are free takes its row groups whole, one after another (R69, R91 to R97, R270, R271). -/
namespace Sys2Proof.Machine

/-! ### What the checks of a row group see -/

/-- The checks of a row group see in `t` what they saw in `s`, or fewer words with an error: the issuer, the rights of its core
and the accessor, the scoreboard, the tile engine (R91, R94, R97, R271). -/
structure State.SameChecks (s t : State) : Prop where
  cur : t.cur = s.cur
  quotas : t.quotas = s.quotas
  rowVd : t.rowVd = s.rowVd
  lrt : t.myCore.lrt = s.myCore.lrt
  ctxs : t.myCore.ctxs = s.myCore.ctxs
  sboard : t.myCore.sboard = s.myCore.sboard
  tile : t.myCore.tile = s.myCore.tile
  who : t.me.who = s.me.who
  poison : ∀ i, (mapFind i t.lpoison).isSome → (mapFind i s.lpoison).isSome

theorem State.SameChecks.refl (s : State) : s.SameChecks s := ⟨rfl, rfl, rfl, rfl, rfl, rfl, rfl, rfl, fun _ h => h⟩

theorem State.SameChecks.trans {s t u : State} (h : s.SameChecks t) (k : t.SameChecks u) : s.SameChecks u :=
  ⟨k.cur.trans h.cur, k.quotas.trans h.quotas, k.rowVd.trans h.rowVd, k.lrt.trans h.lrt, k.ctxs.trans h.ctxs,
    k.sboard.trans h.sboard, k.tile.trans h.tile, k.who.trans h.who, fun i hi => h.poison i (k.poison i hi)⟩

/-- Changes one after another, each of which keeps what the checks see; `p` is the state in what is carried along. -/
theorem State.SameChecks.foldl {α β : Type} {p : β → State} {f : β → α → β} {l : List α}
    (h : ∀ b, ∀ a ∈ l, (p b).SameChecks (p (f b a))) (b : β) : (p b).SameChecks (p (l.foldl f b)) := by
  induction l generalizing b with
  | nil => exact .refl _
  | cons a l ih =>
    exact (h b a (List.mem_cons_self ..)).trans (ih (fun b a' ha' => h b a' (List.mem_cons_of_mem _ ha')) (f b a))

theorem State.myCore_modMe (s : State) (f : Seat → Seat) : (s.modMe f).myCore = s.myCore.modSeat s.cur.seat f := by
  simp [State.myCore, State.modMe, State.modSeat]

/-- A change of the issuer's seat that keeps who it is. -/
theorem State.SameChecks.modMe (s : State) {f : Seat → Seat} (hf : ∀ x, (f x).who = x.who) : s.SameChecks (s.modMe f) where
  cur := rfl
  quotas := rfl
  rowVd := rfl
  lrt := by rw [State.myCore_modMe]; rfl
  ctxs := by rw [State.myCore_modMe]; rfl
  sboard := by rw [State.myCore_modMe]; rfl
  tile := by rw [State.myCore_modMe]; rfl
  who := by
    by_cases hk : s.cur.seat < 4
    · rw [State.me_modMe s hk, hf]
    · have hk : 4 ≤ s.cur.seat := by omega
      simp [State.me, State.seat, State.modMe, State.modSeat, Core.seat, Core.modSeat, vget_ge _ hk]
  poison := fun _ h => h

theorem mapFind_filter_isSome {α : Type} {p : Nat × α → Bool} {m : List (Nat × α)} {k : Nat}
    (h : (mapFind k (m.filter p)).isSome) : (mapFind k m).isSome := by
  induction m with
  | nil => exact h
  | cons e m ih =>
    obtain ⟨j, v⟩ := e
    by_cases hj : j = k
    · simp [mapFind, hj]
    · by_cases hp : p (j, v) = true
      · simp [List.filter, hp, mapFind, hj] at h ⊢; exact ih h
      · simp [List.filter, hp, mapFind, hj] at h ⊢; exact ih h

theorem mapFind_mapDel_isSome {α : Type} {m : List (Nat × α)} {i k : Nat} (h : (mapFind k (mapDel i m)).isSome) :
    (mapFind k m).isSome := by
  induction m with
  | nil => exact h
  | cons e m ih =>
    obtain ⟨j, v⟩ := e
    by_cases hk : j = k
    · simp [mapFind, hk]
    · by_cases hi : j = i
      · subst hi; simpa [mapDel, mapFind, hk] using h
      · simp [mapDel, hi, mapFind, hk] at h ⊢; exact ih h

/-- A write of local memory. -/
theorem State.SameChecks.locWrite (s : State) (n off : Nat) (bs : List Byte) : s.SameChecks (s.locWrite n off bs) :=
  ⟨rfl, rfl, rfl, rfl, rfl, rfl, rfl, rfl, fun _ h => mapFind_filter_isSome h⟩

theorem State.SameChecks.setBits (s : State) (c : Nat) (r : Run) (v : Nat) : s.SameChecks (s.setBits c r v) := by
  unfold State.setBits
  split
  · exact .refl s
  · exact .locWrite ..

theorem State.SameChecks.setElem (s : State) (c : Nat) (v : View) (i j x : Nat) : s.SameChecks (s.setElem c v i j x) := by
  unfold State.setElem
  split
  · exact .foldl (p := id) (fun _ _ _ => .setBits ..) s
  · exact .setBits ..

theorem State.SameChecks.putElem (s : State) (c : Nat) (v : View) (i j x : Nat) : s.SameChecks (s.putElem c v i j x) := by
  unfold State.putElem
  generalize (if v.layout = 1 then (j, i) else (i, j)) = at_
  dsimp only
  split
  · exact (State.SameChecks.setElem ..).trans (.setBits ..)
  · exact .setElem ..

theorem State.SameChecks.fillCells (s : State) (c : Nat) (v : View) (cells : List (Nat × Nat)) (f : Nat → Nat → Nat × Flags) :
    s.SameChecks (s.fillCells c v cells f) :=
  (State.SameChecks.foldl (p := Prod.fst) (fun _ _ _ => .putElem ..) (s, 0)).trans (.modMe _ fun _ => rfl)

/-- The end of an error in local memory. -/
theorem State.SameChecks.unpoison (s : State) (n i : Nat) : s.SameChecks (s.unpoison (.bank n) i) :=
  ⟨rfl, rfl, rfl, rfl, rfl, rfl, rfl, rfl, fun _ h => mapFind_mapDel_isSome h⟩

theorem State.SameChecks.clearWhole (s : State) (c : Nat) (rs : List Run) : s.SameChecks (s.clearWhole (fragsAt c rs)) := by
  refine .foldl (p := id) (fun t f hf => .foldl (p := id) (fun u i _ => ?_) t) s
  obtain ⟨r, -, rfl⟩ := List.mem_map.mp hf
  dsimp only [id]
  split
  · exact .unpoison ..
  · exact .refl u

/-! ### The checks -/

/-- The units with an error among those that some bits lie in. -/
theorem Frag.mem_bad {s : State} {f : Frag} {i : Nat} : i ∈ f.bad s ↔ f.len ≠ 0 ∧
    i ∈ List.range' (f.abs / f.unit) ((f.abs + f.len - 1) / f.unit - f.abs / f.unit + 1) ∧ (mapFind i (s.poison f.home)).isSome := by
  unfold Frag.bad
  dsimp only
  split
  case isTrue hnone =>
    refine ⟨nofun, fun ⟨hlen, _, hsome⟩ => ?_⟩
    rw [List.isEmpty_iff.mp (hnone.resolve_left hlen)] at hsome
    cases hsome
  case isFalse hsome =>
    have hlen : f.len ≠ 0 := fun hlen => hsome (.inl hlen)
    simp [hlen]

section
variable {s t : State} (h : s.SameChecks t)
include h

theorem State.SameChecks.runDenied (w : Who) (k : Right) (st : Bool) (r : Run) :
    t.runDenied s.cur.core w k st r = s.runDenied s.cur.core w k st r := by
  have hlrt : (t.core s.cur.core).lrt = (s.core s.cur.core).lrt := by rw [← h.cur]; exact h.lrt.trans (by rw [h.cur]; rfl)
  have hgranule (g : Nat) (w : Who) (k : Right) (st win : Bool) :
      granuleOk t s.cur.core g w k st win = granuleOk s s.cur.core g w k st win := by
    simp only [granuleOk, State.lrtEntry, hlrt, h.rowVd]
  simp only [State.runDenied, State.holdsCore, State.quota, h.quotas, hgranule]
  rfl

theorem State.SameChecks.heldRange (off len : Nat) :
    t.myCore.heldRange off len none = s.myCore.heldRange off len none := by
  simp only [Core.heldRange, h.ctxs, h.sboard]

theorem State.SameChecks.runBad {c : Nat} {r : Run} (hr : s.runBad c r = none) : t.runBad c r = none := by
  simp only [State.runBad, State.locBad, Option.map_eq_none_iff, List.find?_eq_none] at hr ⊢
  exact fun i hi hbad => hr i hi (h.poison _ hbad)

theorem State.SameChecks.bad {c i : Nat} {f : Frag} (hf : f.home = .bank c) (hi : i ∈ f.bad t) : i ∈ f.bad s := by
  rw [Frag.mem_bad] at hi ⊢
  obtain ⟨hlen, hrange, hsome⟩ := hi
  rw [hf] at hsome ⊢
  exact ⟨hlen, hrange, h.poison i hsome⟩
end

/-- A write covers every word with an error that it meets. -/
theorem State.partBadAt_eq_none {s : State} {c : Nat} {rs : List Run} :
    s.partBadAt c rs = none ↔ ∀ f ∈ fragsAt c rs, ∀ i ∈ f.bad s, unitCovered (fragsAt c rs) 64 i = true := by
  unfold State.partBadAt
  split
  case isTrue hempty =>
    simp only [true_iff]
    intro f hf i hi
    obtain ⟨r, -, rfl⟩ := List.mem_map.mp hf
    simp [Frag.bad, State.poison, hempty] at hi
  case isFalse =>
    simp only [List.min?_eq_none_iff, List.flatMap_eq_nil_iff, List.map_eq_nil_iff, List.filter_eq_nil_iff]
    simp

theorem State.SameChecks.partBadAt {s t : State} (h : s.SameChecks t) {c : Nat} {rs : List Run}
    (hrs : s.partBadAt c rs = none) : t.partBadAt c rs = none := by
  rw [State.partBadAt_eq_none] at hrs ⊢
  intro f hf i hi
  obtain ⟨r, -, rfl⟩ := List.mem_map.mp hf
  exact hrs _ hf i (h.bad rfl hi)

theorem leastOf_of_none {l : List (Option Nat)} (h : ∀ x ∈ l, x = none) : leastOf l = none := by
  unfold leastOf
  induction l with
  | nil => rfl
  | cons x l ih =>
    rw [List.foldl_cons, h x (List.mem_cons_self ..)]
    exact ih fun y hy => h y (List.mem_cons_of_mem _ hy)

theorem checkRuns_ok {n : Nat} {k : Right} {rs : List Run} {s : State}
    (h : ∀ r ∈ rs, s.runDenied s.cur.core s.me.who k (k == .w) r = none) : checkRuns n k rs s = .ok () s := by
  have hleast : leastOf (rs.map (s.runDenied s.cur.core s.me.who k (k == .w))) = none :=
    leastOf_of_none fun x hx => by obtain ⟨r, hr, rfl⟩ := List.mem_map.mp hx; exact h r hr
  simp [checkRuns, M.bind_run, hleast]

theorem goodRuns_ok {rd wr : List Run} {s : State} (hrd : ∀ r ∈ rd, s.runBad s.cur.core r = none)
    (hwr : s.partBadAt s.cur.core wr = none) : goodRuns rd wr s = .ok () s := by
  have hleast : leastOf (s.partBadAt s.cur.core wr :: rd.map (s.runBad s.cur.core)) = none := by
    refine leastOf_of_none fun x hx => ?_
    rcases List.mem_cons.mp hx with rfl | hx
    · exact hwr
    · obtain ⟨r, hr, rfl⟩ := List.mem_map.mp hx; exact hrd r hr
  simp only [goodRuns, M.bind_run, look_eq, hleast, M.pure_eq]

theorem forL_ok {α : Type} {l : List α} {f : α → M Unit} {s : State} (h : ∀ a ∈ l, f a s = .ok () s) :
    forL l f s = .ok () s := by
  induction l with
  | nil => rfl
  | cons a l ih =>
    rw [forL, M.bind_ok (h a (List.mem_cons_self ..))]
    exact ih fun b hb => h b (List.mem_cons_of_mem _ hb)

/-! ### Row groups -/

/-- Neither PROG nor the mode of a view is part of who the seat is. -/
@[simp] theorem Seat.who_setProg (x : Seat) (n g : Nat) : (x.setProg n g).who = x.who := by
  unfold Seat.setProg
  split <;> rfl

theorem State.myTile_none {s : State} (h : s.myCore.tile = none) : s.myTile = none := by
  rw [State.myTile, h]; rfl

theorem State.freeTile_none {s : State} (h : s.myCore.tile = none) : s.freeTile = s := by
  rw [State.freeTile, State.myTile_none h]

/-- Where no instruction has been paused, the group at work is the one in PROG (R69). -/
theorem atGroup_ok {n g : Nat} {fills : Bool} {s : State} (h : s.myCore.tile = none) :
    atGroup n g fills s = .ok () (s.modMe (fun x => x.setProg n g)) := by
  simp only [atGroup, change_eq, State.myTile_none h]
  rfl

/-- The state after a row group that is taken whole (R91, R270). -/
def Job.after (j : Job) (c : Nat) (t : State) (g : Nat) : State :=
  let u := t.modMe (fun x => x.setProg j.restart g)
  (j.act u g).clearWhole (fragsAt c ((j.writes u g).flatMap (fun e => e.2)))

/-- The runs that group g of a job reads and writes are free in `s` (R91, R92, R94, R97). -/
def Job.FreeAt (j : Job) (s : State) (t : State) (g : Nat) : Prop :=
  (∀ e ∈ j.reads t g, ∀ r ∈ e.2, s.runDenied s.cur.core s.me.who .r false r = none ∧
    s.myCore.heldRange r.off r.bytes none = false ∧ s.runBad s.cur.core r = none) ∧
  (∀ e ∈ j.writes t g, ∀ r ∈ e.2, s.runDenied s.cur.core s.me.who .w true r.wide = none ∧
    s.myCore.heldRange r.wide.off r.wide.bytes none = false) ∧
  s.partBadAt s.cur.core ((j.writes t g).flatMap (fun e => e.2)) = none

/-- A job changes of what the checks see nothing. -/
def Job.Quiet (j : Job) : Prop := ∀ (t : State) (g : Nat), t.SameChecks (j.act t g)

section
variable {j : Job} {s t : State} (h : s.SameChecks t)
include h

/-- Runs that are free are still free after what a job has done. -/
theorem Job.FreeAt.of_sameChecks {u : State} {g : Nat} (hfree : j.FreeAt s u g) : j.FreeAt t u g := by
  obtain ⟨hrd, hwr, hbad⟩ := hfree
  refine ⟨fun e he r hr => ?_, fun e he r hr => ?_, ?_⟩
  · obtain ⟨hok, hheld, hgood⟩ := hrd e he r hr
    rw [h.cur, h.who, h.runDenied, h.heldRange]
    exact ⟨hok, hheld, h.runBad hgood⟩
  · obtain ⟨hok, hheld⟩ := hwr e he r hr
    rw [h.cur, h.who, h.runDenied, h.heldRange]
    exact ⟨hok, hheld⟩
  · rw [h.cur]; exact h.partBadAt hbad

theorem Job.after_sameChecks (hj : j.Quiet) (c g : Nat) : s.SameChecks (j.after c t g) :=
  h.trans ((State.SameChecks.modMe t fun _ => Seat.who_setProg ..).trans ((hj _ g).trans (.clearWhole ..)))

theorem Job.group_ok (htile : s.myCore.tile = none) {g : Nat}
    (hfree : j.FreeAt s (t.modMe (fun x => x.setProg j.restart g)) g) :
    j.group g none t = .ok none (j.after s.cur.core t g) := by
  have hat : t.SameChecks (t.modMe (fun x => x.setProg j.restart g)) := .modMe t fun _ => Seat.who_setProg ..
  rw [Job.group, M.bind_ok (atGroup_ok (h.tile.trans htile))]
  obtain ⟨hrd, hwr, hbad⟩ := hfree.of_sameChecks (h.trans hat)
  have hcur : (t.modMe (fun x => x.setProg j.restart g)).cur.core = s.cur.core := congrArg Agent.core h.cur
  generalize hu : t.modMe (fun x => x.setProg j.restart g) = u at *
  have hwrites : forL (j.writes u g) (fun (n, l) => checkRuns n .w (l.map Run.wide)) u = .ok () u :=
    forL_ok fun e he => checkRuns_ok fun r hr => by
      obtain ⟨q, hq, rfl⟩ := List.mem_map.mp hr
      exact (hwr e he q hq).1
  have hreads : forL (j.reads u g) (fun (n, l) => checkRuns n .r l) u = .ok () u :=
    forL_ok fun e he => checkRuns_ok fun r hr => (hrd e he r hr).1
  have hheld : (((j.reads u g).flatMap (fun e => e.2) ++ (j.writes u g).flatMap (fun e => e.2.map Run.wide)).any
      (fun r => u.myCore.heldRange r.off r.bytes none)) = false := by
    refine List.any_eq_false.mpr fun r hr => ?_
    rcases List.mem_append.mp hr with hr | hr <;> obtain ⟨e, he, hr⟩ := List.mem_flatMap.mp hr
    · simp [(hrd e he r hr).2.1]
    · obtain ⟨q, hq, rfl⟩ := List.mem_map.mp hr
      simp [(hwr e he q hq).2]
  have hgood : goodRuns ((j.reads u g).flatMap (fun e => e.2)) ((j.writes u g).flatMap (fun e => e.2)) u = .ok () u :=
    goodRuns_ok (fun r hr => by obtain ⟨e, he, hr⟩ := List.mem_flatMap.mp hr; exact (hrd e he r hr).2.2) hbad
  simp only [reduceCtorEq, if_false, M.bind_run, M.pure_eq, look_eq, hwrites, hreads, hheld, hgood, change_eq]
  subst hu
  rw [hcur]
  rfl

/-- Groups that are free are taken in order. -/
theorem Job.groups_ok (hj : j.Quiet) (htile : s.myCore.tile = none) {gs : List Nat} (hfree : ∀ g ∈ gs, ∀ u, j.FreeAt s u g) :
    j.groups gs none t = .ok () (gs.foldl (j.after s.cur.core) t) := by
  induction gs generalizing t with
  | nil => rfl
  | cons g gs ih =>
    rw [Job.groups, M.bind_ok (Job.group_ok h htile (hfree g (List.mem_cons_self ..) _))]
    exact ih (Job.after_sameChecks h hj s.cur.core g) fun g' hg' => hfree g' (List.mem_cons_of_mem _ hg')
end

/-- A job that is open runs its groups from the first to the last, and leaves PROG 0 (R69, R270). -/
theorem Job.run_ok {j : Job} {n : Nat} {s : State} (hj : j.Quiet) (h : Say.Open j n s) : j.run n s = .ok () (Say.jobDone j n s) := by
  obtain ⟨hreach, htile, ⟨hlda, hbank⟩, hfree⟩ := h
  have hgroups := Job.groups_ok (.refl s) hj htile (gs := List.range' (Say.firstGroup j.restart s) (n - Say.firstGroup j.restart s))
    fun g hg u => hfree u g (by have := List.mem_range'_1.mp hg; omega)
  have hkept : s.SameChecks ((List.range' (Say.firstGroup j.restart s) (n - Say.firstGroup j.restart s)).foldl
      (j.after s.cur.core) s) := .foldl (p := id) (fun t g _ => Job.after_sameChecks (.refl t) hj s.cur.core g) s
  rw [Job.run, M.bind_ok (afterLda_ok hlda), M.bind_ok (bankQuiet_ok hbank)]
  simp only [Say.firstGroup] at hgroups hkept
  simp only [M.bind_run, look_eq, State.myTile_none htile, hreach, me_eq, hgroups, change_eq,
    State.freeTile_none (hkept.tile.trans htile), modMe_eq]
  rfl

/-! ### A tile instruction -/

theorem tileFree_ok {s : State} (htile : s.myCore.tile = none) : tileFree s = .ok () s := by
  simp [tileFree, M.bind_run, htile]

theorem fromZero_ok {n : Nat} {m : M Unit} {s s' : State} (htile : s.myCore.tile = none) (hm : m s = .ok () s') :
    fromZero n m s = .ok () s' := by
  refine (M.bind_ok (tileFree_ok htile)).trans ?_
  rw [hm]

theorem tileOp_ok {n : Nat} {m : M Unit} {s s' : State} (htile : s.myCore.tile = none) (hhnd : s.me.hnd = false)
    (hm : m s = .ok () s') : tileOp n m s = .ok () s' :=
  (M.bind_ok (noHandler_ok hhnd)).trans (fromZero_ok htile hm)

theorem useView_ok {o n : Nat} {s : State} (hn : n < 64) (hdef : (s.me.view n).defd = true) :
    useView o n s = .ok (s.me.view n) s := by
  have hn : ¬ 64 ≤ n := by omega
  simp [useView, M.bind_run, hn, hdef]

theorem viewFull_ok {o n : Nat} {fe : Bool} {s : State} (h : (s.me.view n).fe = true) : viewFull o n fe s = .ok () s := by
  simp [viewFull, M.bind_run, h]

theorem viewFree_ok {n : Nat} {s : State} (h : (s.me.view n).fe = true) : viewFree n s = .ok () s := by
  simp [viewFree, M.bind_run, h]

theorem destView_ok {fm : Option Fmt} {set : Fmt → Bool} {d : Nat} {v : View} {s : State} (h : Say.TileDest fm set d v s) :
    destView fm set d s = .ok v s := by
  obtain ⟨-, -, hd, rfl, hdef, hplain, hset, hfm⟩ := h
  refine (M.bind_ok (useView_ok hd hdef)).trans ((M.bind_ok (need_ok ?_)).trans (M.bind_ok (need_ok ?_)))
  · rcases hfm with rfl | rfl <;> simp
  · simp [hplain, hset]

theorem tileSrc_ok {v y : View} {n : Nat} {q : SrcMod} {fe : Bool} {s : State} (h : Say.MoveSrc v n y s) :
    tileSrc v (.tile n q fe) s = .ok (n, y) s := by
  obtain ⟨hn, rfl, hdef, hplain, hfm, hfull⟩ := h
  have hsame : sameFmt v.fm (s.me.view n) = true := by simp [sameFmt, hplain, hfm]
  have hcheck : checkSrc 2 (sameFmt v.fm) (.tile n q fe) s = .ok () s := by
    rw [checkSrc, M.bind_ok (useView_ok hn hdef)]
    exact need_ok hsame
  simp only [tileSrc, tileNum, M.bind_run, M.pure_eq, hcheck, viewFull_ok hfull, me_eq]

theorem cellJob_quiet (c d : Nat) (v : View) (reads : State → Nat → List (Nat × List Run)) (f : State → Nat → Nat → Nat × Flags) :
    (cellJob c d v reads f).Quiet := fun _ _ => .fillCells ..

end Sys2Proof.Machine
end

section
/-! PROOFS. TGATHER and TRED (R60, R276, R282). -/
namespace Sys2Proof.Machine

theorem checkSrc_tile_ok {o n : Nat} {q : SrcMod} {fe : Bool} {ok : View → Bool} {s : State} (hn : n < 64)
    (hdef : (s.me.view n).defd = true) (hok : ok (s.me.view n) = true) : checkSrc o ok (.tile n q fe) s = .ok () s :=
  (M.bind_ok (useView_ok hn hdef)).trans (need_ok hok)

theorem loadI64_tile_ok {o n : Nat} {q : SrcMod} {fe : Bool} {s : State} (h : (s.me.view n).fe = true) :
    loadI64 o (.tile n q fe) s = .ok (.view n (s.me.view n) q, 0) s :=
  (M.bind_ok ((M.bind_ok (viewFull_ok h)).trans (M.bind_ok (me_eq s)))).trans rfl

theorem loadI64_value_ok {o : Nat} {a : Src} {w : Int} {s s1 : State} (ha : ∀ n q fe, a ≠ .tile n q fe)
    (h : readI64 o a s = .ok w s1) : loadI64 o a s = .ok (.one 0, w) s1 := by
  cases a with
  | tile n q fe => exact absurd rfl (ha n q fe)
  | _ => exact (M.bind_ok h).trans rfl

theorem tgatherFollowsIndices : Say.tgatherFollowsIndices := by
  intro h fm flat fe q d n k w a b bf v y z s s1 hg hdest hvfull hsrc
  obtain ⟨htile, hhnd, -, hview, -⟩ := id hdest
  obtain ⟨hn, hy, hydef, hyplain, hyfm, -⟩ := id hsrc
  have hcheck : checkSrc 2 (sameFmt v.fm) (.tile n q fe) s = .ok () s := by
    subst hy
    exact checkSrc_tile_ok hn hydef (by simp [sameFmt, hyplain, hyfm])
  refine ⟨?byView, ?byValue⟩
  case byView =>
    intro hk hz hzdef hzplain hzint hzfull job hopen
    subst hz
    have hidx : checkSrc 3 (fun y => y.plain && isIN y.fm) (.tile k b bf) s = .ok () s :=
      checkSrc_tile_ok hk hzdef (by simp [hzplain, hzint])
    have hfree : viewFree d s = .ok () s := viewFree_ok (by rw [hview]; exact hvfull)
    refine issue_ok (u := ()) hg (tileOp_ok htile hhnd ?_)
    refine (M.bind_ok (destView_ok hdest)).trans ((M.bind_ok hcheck).trans ((M.bind_ok hidx).trans
      ((M.bind_ok (tileSrc_ok hsrc)).trans ((M.bind_ok (loadI64_tile_ok hzfull)).trans ((M.bind_ok hfree).trans
      ((M.bind_ok (look_eq _ s)).trans ?_))))))
    exact Job.run_ok (cellJob_quiet _ _ _ _ _) hopen
  case byValue =>
    intro hnone hread hcur hfull1 job hopen
    refine issue_ok (u := ()) hg (tileOp_ok htile hhnd ?_)
    refine (M.bind_ok (destView_ok hdest)).trans ((M.bind_ok hcheck).trans ?_)
    cases a with
    | tile i m e => exact absurd rfl (hnone i m e)
    | _ =>
      refine (M.bind_ok (M.pure_eq () s)).trans ((M.bind_ok (tileSrc_ok hsrc)).trans
        ((M.bind_ok (loadI64_value_ok hnone hread)).trans ((M.bind_ok (viewFree_ok hfull1)).trans ((M.bind_ok (look_eq _ s1)).trans ?_))))
      rw [hcur]
      exact Job.run_ok (cellJob_quiet _ _ _ _ _) hopen

/-! ### TRED -/

/-- A job that reads, writes and changes nothing. -/
def idleJob (d : Nat) : Job := { restart := d, reads := fun _ _ => [], writes := fun _ _ => [], act := fun t _ => t }

/-- A job without runs that changes nothing does what the idle job does. -/
theorem Job.run_idle {j : Job} {d n : Nat} {s : State} (hd : j.restart = d) (hreads : ∀ t g, ∀ e ∈ j.reads t g, e.2 = [])
    (hwrites : ∀ t g, ∀ e ∈ j.writes t g, e.2 = []) (hact : ∀ t g, j.act t g = t) (hopen : Say.Open (idleJob d) n s) :
    j.run n s = .ok () (Say.jobDone (idleJob d) n s) := by
  subst hd
  have hflat (t : State) (g : Nat) : (j.writes t g).flatMap (fun e => e.2) = [] := List.flatMap_eq_nil_iff.mpr (hwrites t g)
  obtain ⟨hreach, htile, hquiet, hfree⟩ := hopen
  have hopen : Say.Open j n s := by
    refine ⟨hreach, htile, hquiet, fun t g hg => ⟨fun e he r hr => ?_, fun e he r hr => ?_, ?_⟩⟩
    · rw [hreads t g e he] at hr; cases hr
    · rw [hwrites t g e he] at hr; cases hr
    · rw [hflat]; exact (hfree t g hg).2.2
  rw [Job.run_ok (fun t g => by rw [hact]; exact .refl t) hopen]
  simp only [Say.jobDone, hact, hflat]
  rfl

theorem redJob_of_none {v : View} (hnone : v.vrows = 0 ∨ v.vcols = 0) (m : TMod) (op : RedOp) (axis : RedAxis) (d n : Nat)
    (y : View) (ftz : Bool) (c : Nat) : Say.redJob m op axis d v n y ftz c = idleJob d := if_pos hnone

theorem redJob_quiet (m : TMod) (op : RedOp) (axis : RedAxis) (d : Nat) (v : View) (n : Nat) (y : View) (ftz : Bool) (c : Nat) :
    (Say.redJob m op axis d v n y ftz c).Quiet := by
  intro t g
  by_cases hnone : v.vrows = 0 ∨ v.vcols = 0
  · rw [redJob_of_none hnone]
    exact .refl t
  · simp only [Say.redJob, if_neg hnone]
    cases axis <;> dsimp only <;> exact State.SameChecks.fillCells ..

theorem tredReduces : Say.tredReduces := by
  intro h m op axis fe q d n v y s hg hdest hvfull hsrc job k hopen
  obtain ⟨htile, hhnd, -, hview, -⟩ := id hdest
  have hset : (fun f => if op = .sum then isFLINCX f else isFLIN f) = fun f => if op == .sum then isFLINCX f else isFLIN f := by
    cases op <;> rfl
  rw [hset] at hdest
  have hfree : viewFree d s = .ok () s := viewFree_ok (by rw [hview]; exact hvfull)
  refine issue_ok (u := ()) hg (tileOp_ok htile hhnd ?_)
  refine (M.bind_ok (destView_ok hdest)).trans ((M.bind_ok (tileSrc_ok hsrc)).trans ((M.bind_ok hfree).trans
    ((M.bind_ok (look_eq _ s)).trans ((M.bind_ok (me_eq s)).trans ?_))))
  by_cases hnone : v.vrows = 0 ∨ v.vcols = 0
  · have hidle : job = idleJob d := redJob_of_none hnone ..
    have hnone' : (v.vrows == 0 || v.vcols == 0) = true := by simpa using hnone
    rw [hidle] at hopen ⊢
    cases axis <;> exact Job.run_idle rfl (by simp [hnone']) (by simp [hnone']) (by simp [hnone']) hopen
  · have hnone' : (v.vrows == 0 || v.vcols == 0) = false := by simpa using hnone
    have hrun := Job.run_ok (redJob_quiet _ _ _ _ _ _ _ _ _) hopen
    simp only [job, Say.redJob, if_neg hnone] at hrun ⊢
    cases axis <;> simp only [hnone', Bool.false_eq_true, if_false] <;> exact hrun

/-- Settles O13: TGATHER's and TRED's checks pass, and then their jobs run group by group. -/
theorem gatherAndReduce : Obligations.GatherAndReduce := ⟨tgatherFollowsIndices, tredReduces⟩

end Sys2Proof.Machine
end

section
/-! PROOFS. TCONV and TSPLIT, and the parts of a split (R61, R284, R286). -/
namespace Sys2Proof.Machine

/-! ### What a conversion leaves as it was -/

theorem State.SameChecks.convRow (s : State) (c : Nat) (v : View) (cv : Conv) (fromInt : Bool) (i : Nat) (xs : List FVal) :
    s.SameChecks (s.convRow c v cv fromInt i xs).1 := by
  unfold State.convRow
  dsimp only
  split
  · refine State.SameChecks.trans (t := s.zeroRest c v i) (.setBits ..)
      (.foldl (p := Prod.fst) (fun acc e _ => ?_) (s.zeroRest c v i, 0))
    refine (State.SameChecks.locWrite ..).trans (.foldl (p := id) (fun t x _ => ?_) _)
    dsimp only [id]
    split
    · exact .putElem ..
    · exact .refl t
  · exact .foldl (p := Prod.fst) (fun _ _ _ => .putElem ..) (s, 0)

theorem State.SameChecks.convGroup (s : State) (c : Nat) (v y : View) (cv : Conv) (g : Nat) :
    s.SameChecks (convGroup s c v y cv g) := by
  unfold Machine.convGroup
  refine .foldl (p := id) (fun t i _ => ?_) s
  exact (State.SameChecks.convRow ..).trans (.modMe _ fun _ => rfl)

theorem State.SameChecks.convComplex (s : State) (c : Nat) (v y : View) (cv : Conv) (g : Nat) :
    s.SameChecks (convComplex s c v y cv g) := by
  refine .foldl (p := id) (fun t e _ => ?_) s
  exact (State.SameChecks.putElem ..).trans (.modMe _ fun _ => rfl)

/-- A job is quiet where what it does is: its other parts do not matter. -/
theorem Job.quiet_mk {d : Nat} {reads writes : State → Nat → List (Nat × List Run)} {act : State → Nat → State}
    (h : ∀ (t : State) (g : Nat), t.SameChecks (act t g)) : Job.Quiet ⟨d, reads, writes, act⟩ := h

theorem convJob_quiet (d : Nat) (v : View) (n : Nat) (y : View) (cv : Conv) (c : Nat) : (Say.convJob d v n y cv c).Quiet := by
  refine Job.quiet_mk fun t g => ?_
  split
  · exact .refl t
  · split
    · exact .convComplex ..
    · exact .convGroup ..

theorem splitJob_quiet (d : Nat) (v v1 v2 : View) (n : Nat) (y : View) (c : Nat) : (Say.splitJob d v v1 v2 n y c).Quiet :=
  Job.quiet_mk fun _ _ => (State.SameChecks.fillCells ..).trans ((State.SameChecks.fillCells ..).trans (.fillCells ..))

/-! ### TCONV and TSPLIT -/

/-- Row-major, or column-major where the format has no blocks (R284). -/
theorem rowsOfBlocks_ok {v : View} (hlay : v.layout < 2) (hblk : isBlock v.fm = true → v.layout = 0) :
    (decide (v.layout < 2) && (!isBlock v.fm || v.layout == 0)) = true := by
  cases h : isBlock v.fm with
  | false => simp [hlay]
  | true => simp [hblk h]

theorem tconvAndTsplitRun : Say.conversionAndSplitting := by
  intro h m had d n q fe b e v v1 v2 y s s1 hg htile hhnd hd hn hv hy hvdef hydef hyfull
  subst hv hy
  refine ⟨?conv, ?split⟩
  case conv =>
    intro k hfm hlay hblk hylay hyblk hpair hdiv hread hlo hhi hvfull job hopen
    have hrows (c : Nat) (hc : k ≠ 0 → c % k = 0) : (k == 0 || c % k == 0) = true := by
      by_cases hk : k = 0 <;> simp [hk, hc]
    refine issue_ok (u := ()) hg (tileOp_ok htile hhnd ?_)
    refine (M.bind_ok (useView_ok hd hvdef)).trans ((M.bind_ok (need_ok ?_)).trans ((M.bind_ok (M.pure_eq _ s)).trans
      ((M.bind_ok (useView_ok hn hydef)).trans ((M.bind_ok (need_ok (rowsOfBlocks_ok hlay hblk))).trans
      ((M.bind_ok (need_ok (rowsOfBlocks_ok hylay hyblk))).trans ((M.bind_ok (need_ok hpair)).trans
      ((M.bind_ok (need_ok (hrows _ fun hk => (hdiv hk).1))).trans ((M.bind_ok (need_ok (hrows _ fun hk => (hdiv hk).2))).trans
      ((M.bind_ok (viewFull_ok hyfull)).trans ((M.bind_ok hread).trans ((M.bind_ok (need_ok ?_)).trans
      ((M.bind_ok (viewFree_ok hvfull)).trans ((M.bind_ok (look_eq _ s1)).trans ((M.bind_ok (me_eq s1)).trans
      (Job.run_ok (convJob_quiet _ _ _ _ _ _) hopen)))))))))))))))
    · rcases hfm with hfm | hfm <;> simp [hfm]
    · simp [hlo, hhi]
  case split =>
    intro hd61 hfm hv1 hv2 hv1def hv2def hbf hyplain hyfm job hopen
    subst hv1 hv2
    obtain ⟨hplain, hbf16, hfull⟩ := hbf _ (.inl rfl)
    obtain ⟨hplain1, hbf16_1, hfull1⟩ := hbf _ (.inr (.inl rfl))
    obtain ⟨hplain2, hbf16_2, hfull2⟩ := hbf _ (.inr (.inr rfl))
    have hdest : Say.TileDest m.fmt (fun f => f == .bf16) d (s.me.view d) s :=
      ⟨htile, hhnd, hd, rfl, hvdef, hplain, by simp [hbf16], by rwa [hbf16]⟩
    refine issue_ok (u := ()) hg (tileOp_ok htile hhnd ?_)
    refine (M.bind_ok (need_ok (decide_eq_true hd61))).trans ((M.bind_ok (destView_ok hdest)).trans
      ((M.bind_ok (useView_ok (by omega) hv1def)).trans ((M.bind_ok (useView_ok (by omega) hv2def)).trans
      ((M.bind_ok (need_ok (by simp [hplain1, hbf16_1]))).trans ((M.bind_ok (need_ok (by simp [hplain2, hbf16_2]))).trans
      ((M.bind_ok (M.pure_eq _ s)).trans
      ((M.bind_ok (checkSrc_tile_ok hn hydef (by simp [sameFmt, hyplain, hyfm]))).trans ((M.bind_ok (viewFull_ok hyfull)).trans
      ((M.bind_ok (viewFree_ok hfull)).trans ((M.bind_ok (viewFree_ok hfull1)).trans ((M.bind_ok (viewFree_ok hfull2)).trans
      ((M.bind_ok (look_eq _ s)).trans ((M.bind_ok (me_eq s)).trans
      (Job.run_ok (splitJob_quiet _ _ _ _ _ _ _) hopen))))))))))))))

/-! ### Rounding that loses nothing (R47, R48) -/

/-- Rounding that reports nothing inexact keeps the number, in units 2^w (R47). -/
theorem roundAt_value {r : Rnd} {neg : Bool} {m : Nat} {e v w : Int} (hexact : (roundAt r neg m e v).2 = false) (he : w ≤ e)
    (hv : w ≤ v) : (roundAt r neg m e v).1 * 2 ^ (v - w).toNat = m * 2 ^ (e - w).toNat := by
  by_cases hve : v ≤ e
  · have hsplit : (e - w).toNat = (e - v).toNat + (v - w).toNat := by omega
    rw [roundAt, if_pos hve, hsplit, pow_add, Nat.mul_assoc]
  · obtain ⟨sh, rfl⟩ : ∃ sh : Nat, v = e + sh := ⟨(v - e).toNat, by omega⟩
    have hsplit : (e + sh - w).toNat = sh + (e - w).toNat := by omega
    obtain ⟨hiff, -⟩ := roundingPicksNeighbour r neg m sh e
    rw [hsplit, pow_add, ← Nat.mul_assoc, hiff.mp hexact]

/-- The fields of a pattern give the value (R41). -/
theorem decodeF_packF {f : Fmt} (hf : f ≠ .e8m0) (htop : (fpar f).top = .ieee) {neg : Bool} {ex frac : Nat}
    (hex : ex < 2 ^ (fpar f).ebits - 1) (hfrac : frac < 2 ^ (fpar f).fbits) :
    decodeF f false (packF (fpar f) neg ex frac) =
      if ex = 0 then .fin neg frac (1 - ((fpar f).bias : Int) - (fpar f).fbits)
      else .fin neg (frac + 2 ^ (fpar f).fbits) ((ex : Int) - (fpar f).bias - (fpar f).fbits) := by
  have hval : packF (fpar f) neg ex frac = 2 ^ (fpar f).fbits * (2 ^ (fpar f).ebits * neg.toNat + ex) + frac := by
    rw [packF, pow_add]; ring
  have hlow : packF (fpar f) neg ex frac % 2 ^ (fpar f).fbits = frac := by
    rw [hval, Nat.mul_add_mod, Nat.mod_eq_of_lt hfrac]
  have hhigh : packF (fpar f) neg ex frac / 2 ^ (fpar f).fbits = 2 ^ (fpar f).ebits * neg.toNat + ex := by
    rw [hval, Nat.mul_add_div (Nat.two_pow_pos _), Nat.div_eq_of_lt hfrac, Nat.add_zero]
  have hexp : packF (fpar f) neg ex frac / 2 ^ (fpar f).fbits % 2 ^ (fpar f).ebits = ex := by
    rw [hhigh, Nat.mul_add_mod, Nat.mod_eq_of_lt (by omega)]
  have hsign : packF (fpar f) neg ex frac / 2 ^ ((fpar f).fbits + (fpar f).ebits) = neg.toNat := by
    rw [pow_add, ← Nat.div_div_eq_div_mul, hhigh, Nat.mul_add_div (Nat.two_pow_pos _), Nat.div_eq_of_lt (by omega), Nat.add_zero]
  have hneg : (neg.toNat % 2 == 1) = neg := by cases neg <;> rfl
  simp only [decodeF, hf, if_false, hlow, hexp, hsign, hneg, htop]
  simp [hex.ne]

section
variable {f : Fmt} {r : Rnd} {ov : Over} {neg : Bool} {m : Nat} {e : Int}

/-- Exponent field of a significand k in units 2^u (R47). -/
def exField (f : Fmt) (k : Nat) (u : Int) : Int := if k < 2 ^ (fpar f).fbits then 0 else u + (fpar f).fbits + (fpar f).bias

/-- Unit of the significand of m · 2^e (R47). -/
def unitOf (f : Fmt) (m : Nat) (e : Int) : Int := max ((Nat.log2 m : Int) + e) (1 - ((fpar f).bias : Int)) - (fpar f).fbits

/-- Rounding that raises no NX into a format with infinities has cut nothing off and does not overflow; without a carry its
pattern is that of the significand (R47, R48). -/
theorem roundF_of_no_NX (htop : (fpar f).top = .ieee) (hm : m ≠ 0) (hx : (roundF f false r ov (.fin neg m e)).2 &&& fNX = 0) :
    let q := roundAt r neg m e (unitOf f m e)
    q.2 = false ∧ (q.1 ≠ 2 ^ ((fpar f).fbits + 1) → exField f q.1 (unitOf f m e) < 2 ^ (fpar f).ebits - 1 ∧
      (roundF f false r ov (.fin neg m e)).1 =
        packF (fpar f) neg (exField f q.1 (unitOf f m e)).toNat (q.1 % 2 ^ (fpar f).fbits)) := by
  intro q
  obtain ⟨c, hc⟩ : ∃ c, c = if q.1 = 2 ^ ((fpar f).fbits + 1) then (2 ^ (fpar f).fbits, unitOf f m e + 1) else (q.1, unitOf f m e) :=
    ⟨_, rfl⟩
  have heq : roundF f false r ov (.fin neg m e) =
      if 2 ^ (fpar f).ebits - 1 ≤ exField f c.1 c.2 then (overflowBits f r ov neg, fOF ||| fNX)
      else (packF (fpar f) neg (exField f c.1 c.2).toNat (c.1 % 2 ^ (fpar f).fbits),
        if q.2 then (if (Nat.log2 m : Int) + e < 1 - (fpar f).bias then fNX ||| fUF else fNX) else 0) := by
    subst hc
    simp only [roundF, hm, if_false, Bool.false_eq_true, false_and, htop, decide_eq_true_eq]
    rfl
  have hNX : (fOF ||| fNX) &&& fNX ≠ 0 ∧ fNX &&& fNX ≠ 0 ∧ (fNX ||| fUF) &&& fNX ≠ 0 := by decide
  rw [heq] at hx ⊢
  by_cases hover : 2 ^ (fpar f).ebits - 1 ≤ exField f c.1 c.2
  · rw [if_pos hover] at hx
    exact absurd hx hNX.1
  rw [if_neg hover] at hx ⊢
  refine ⟨?_, fun hcarry => ?_⟩
  · cases hinexact : q.2 with
    | false => rfl
    | true =>
      simp only [hinexact, if_true] at hx
      split at hx
      · exact absurd hx hNX.2.2
      · exact absurd hx hNX.2.1
  · rw [if_neg hcarry] at hc
    subst hc
    exact ⟨not_le.mp hover, rfl⟩

/-- A number rounded exactly to its leading bits has at most that many, and all of them where it is normal. -/
theorem roundAt_bounds {k : Nat} {v w : Int} (hm : m ≠ 0) (he : w ≤ e) (hv : w ≤ v)
    (hval : k * 2 ^ (v - w).toNat = m * 2 ^ (e - w).toNat) {b : Nat} :
    ((Nat.log2 m : Int) + e ≤ v + b → k < 2 ^ (b + 1)) ∧ (v + b ≤ (Nat.log2 m : Int) + e → 2 ^ b ≤ k) := by
  have hpos : 0 < 2 ^ (v - w).toNat := Nat.two_pow_pos _
  refine ⟨fun hle => Nat.lt_of_mul_lt_mul_right (a := 2 ^ (v - w).toNat) ?_,
    fun hle => Nat.le_of_mul_le_mul_right (c := 2 ^ (v - w).toNat) ?_ hpos⟩
  · calc k * 2 ^ (v - w).toNat = m * 2 ^ (e - w).toNat := hval
      _ < 2 ^ (Nat.log2 m + 1) * 2 ^ (e - w).toNat := Nat.mul_lt_mul_of_pos_right Nat.lt_log2_self (Nat.two_pow_pos _)
      _ = 2 ^ (Nat.log2 m + 1 + (e - w).toNat) := (pow_add ..).symm
      _ ≤ 2 ^ (b + 1 + (v - w).toNat) := Nat.pow_le_pow_right (by decide) (by omega)
      _ = 2 ^ (b + 1) * 2 ^ (v - w).toNat := pow_add ..
  · calc 2 ^ b * 2 ^ (v - w).toNat = 2 ^ (b + (v - w).toNat) := (pow_add ..).symm
      _ ≤ 2 ^ (Nat.log2 m + (e - w).toNat) := Nat.pow_le_pow_right (by decide) (by omega)
      _ = 2 ^ Nat.log2 m * 2 ^ (e - w).toNat := pow_add ..
      _ ≤ m * 2 ^ (e - w).toNat := Nat.mul_le_mul_right _ (Nat.log2_self_le hm)
      _ = k * 2 ^ (v - w).toNat := hval.symm

/-- The fields of a significand k in units 2^u give back k · 2^u: with its leading bit where it is normal, in the least unit
where it is not (R41). -/
theorem decodeF_fields (hf : f ≠ .e8m0) (htop : (fpar f).top = .ieee) {k : Nat} {u : Int} (hk : k < 2 ^ ((fpar f).fbits + 1))
    (hex : exField f k u < 2 ^ (fpar f).ebits - 1) (hunit : 1 - ((fpar f).bias : Int) - (fpar f).fbits ≤ u)
    (hsub : k < 2 ^ (fpar f).fbits → u = 1 - ((fpar f).bias : Int) - (fpar f).fbits) :
    decodeF f false (packF (fpar f) neg (exField f k u).toNat (k % 2 ^ (fpar f).fbits)) = .fin neg k u := by
  have hcast : ((2 ^ (fpar f).ebits : Nat) : Int) = 2 ^ (fpar f).ebits := by push_cast; rfl
  have hnonneg : 0 ≤ exField f k u := by unfold exField; split <;> omega
  have hex' : (exField f k u).toNat < 2 ^ (fpar f).ebits - 1 := by omega
  rw [decodeF_packF hf htop hex' (Nat.mod_lt _ (Nat.two_pow_pos _))]
  by_cases hlow : k < 2 ^ (fpar f).fbits
  · rw [exField, if_pos hlow, Int.toNat_zero, if_pos rfl, Nat.mod_eq_of_lt hlow, hsub hlow]
  · have hnormal : exField f k u = u + (fpar f).fbits + (fpar f).bias := if_neg hlow
    have hfrac : k % 2 ^ (fpar f).fbits + 2 ^ (fpar f).fbits = k := by
      rw [pow_succ] at hk
      rw [Nat.mod_eq_sub_mod (by omega), Nat.mod_eq_of_lt (by omega)]
      omega
    rw [if_neg (by omega), hfrac]
    congr 1
    omega

/-- Rounding that raises no NX keeps the number (R47, R48). -/
theorem roundF_exact (hf : f ≠ .e8m0) (htop : (fpar f).top = .ieee) {w z : Int}
    (hw : w ≤ 1 - ((fpar f).bias : Int) - (fpar f).fbits) (hz : Say.asInts w (.fin neg m e) = some z)
    (hx : (roundF f false r ov (.fin neg m e)).2 &&& fNX = 0) :
    Say.asInts w (decodeF f false (roundF f false r ov (.fin neg m e)).1) = some z := by
  obtain ⟨he, rfl⟩ := Say.asInts_fin.mp hz
  by_cases hm : m = 0
  · subst hm
    have hrange : 0 < 2 ^ (fpar f).ebits - 1 := by cases f <;> decide
    have hzero : (roundF f false r ov (.fin neg 0 e)).1 = packF (fpar f) neg 0 0 := rfl
    rw [hzero, decodeF_packF hf htop hrange (Nat.two_pow_pos _), if_pos rfl, Say.asInts_fin, sigAt_zero, sigAt_zero]
    exact ⟨fun h => absurd rfl h, rfl⟩
  obtain ⟨hexact, hfields⟩ := roundF_of_no_NX htop hm hx
  have hunit : 1 - ((fpar f).bias : Int) - (fpar f).fbits ≤ unitOf f m e := by unfold unitOf; omega
  have hval := roundAt_value hexact (he hm) (hw.trans hunit)
  obtain ⟨hbelow, habove⟩ := roundAt_bounds (b := (fpar f).fbits) hm (he hm) (hw.trans hunit) hval
  have hlt := hbelow (by unfold unitOf; omega)
  obtain ⟨hex, hbits⟩ := hfields hlt.ne
  rw [hbits, decodeF_fields hf htop hlt hex hunit, Say.asInts_fin]
  · refine ⟨fun _ => hw.trans hunit, ?_⟩
    simp only [sigAt]
    exact_mod_cast congrArg (fun k : Nat => if neg then -(k : Int) else (k : Int)) hval
  · intro hsub
    by_contra hne
    exact absurd (habove (by unfold unitOf at *; omega)) (by omega)
end

/-! ### The parts of a split (R61) -/

theorem Say.asInts_negate {a : FVal} {w x : Int} (h : Say.asInts w a = some x) : Say.asInts w a.negate = some (-x) := by
  obtain ⟨n, m, e, rfl⟩ := Say.asInts_some h
  obtain ⟨he, rfl⟩ := Say.asInts_fin.mp h
  refine Say.asInts_fin.mpr ⟨he, ?_⟩
  cases n <;> simp [sigAt]

theorem splitPartsSumToValue : Say.splitPartsSumToValue := by
  intro a x hi mid lo hx hflags hhi hmid hlo
  obtain ⟨n, m, e, hfin⟩ := Say.asInts_some hx
  simp only [split3, hfin] at hflags hhi hmid hlo
  rw [hfin] at hx
  -- what is left after the first part, and after the second
  have hr := (fAdd_exact .rne hx (Say.asInts_negate hhi)).1
  have hq := (fAdd_exact .rne hr (Say.asInts_negate hmid)).1
  generalize (fAdd .rne (fAdd .rne _ _).1 _).1 = q at hq hflags hlo
  obtain ⟨n', m', e', rfl⟩ := Say.asInts_some hq
  have hexact : (roundF .bf16 false .rne .sat (.fin n' m' e')).2 &&& fNX = 0 := by
    by_contra hne
    rw [if_pos (by simpa using hne)] at hflags
    exact absurd hflags (by decide)
  rw [roundF_exact (by decide) rfl (by simp [fpar]) hq hexact] at hlo
  have := Option.some.inj hlo
  omega

/-- Settles O16: the checks of TCONV and TSPLIT pass and their jobs run; each part of a split is taken off exactly. -/
theorem conversionAndSplitting : Obligations.ConversionAndSplitting := ⟨tconvAndTsplitRun, splitPartsSumToValue⟩

end Sys2Proof.Machine
end

section
/-! PROOFS. O24: a bit-plane view of more than 128 columns (R44, R320). -/
namespace Sys2Proof.Machine

/-- A view of one row of 256 8-bit integers in bit planes, each plane a granule of 16 bytes: `View.ok` accepts it, as it does not
hold COLSM1 to the seven bits of its field. -/
def widePlanes : View :=
  { defd := true, fmt := Fmt.int8.code, layout := 2, base := 0, pitch := 128, rowsm1 := 0, colsm1 := 255, vrows := 1, vcols := 256 }

theorem widePlanes_ok : widePlanes.ok = true := by decide

/-- Its only line ends at byte 128. -/
theorem widePlanes_lineEnd {l : Nat} (hl : l < widePlanes.nlines) :
    widePlanes.base + widePlanes.pitch * l + widePlanes.lineLen = 128 := by
  have hlines : widePlanes.nlines = 1 := by decide
  obtain rfl : l = 0 := by omega
  decide

/-- The run of the last of its eight planes begins in the last granule of the line and is 32 bytes long. -/
theorem lastPlane_mem_memRuns : ⟨896, 256⟩ ∈ widePlanes.memRuns 0 := by decide

/-- Refutes O24: `View.ok` does not hold COLSM1 to its seven bits, so it accepts bit planes of more than 128 columns; the run of
the last plane of such a view ends past the end of its line. -/
theorem not_tileLoadStoreRunsGroups : ¬ Obligations.TileLoadStoreRunsGroups := by
  rintro ⟨hplaces, -, -⟩
  obtain ⟨-, hruns⟩ := hplaces widePlanes 0 0 0 0 widePlanes_ok
  obtain ⟨⟨l, hl, -, hend⟩, -⟩ := hruns _ lastPlane_mem_memRuns
  exact absurd hend (by rw [widePlanes_lineEnd hl]; decide)

end Sys2Proof.Machine
end

section
/-! PROOFS. What sources give (R70, R72, R101, R220 to R225, R245), and scalar float arithmetic (R247, R260, R261). -/
namespace Sys2Proof.Machine

/-! ### Literals (R223) -/

section
variable {f : Fmt} {r : Rnd} {ov : Over} {neg : Bool} {m : Nat} {e : Int}

/-- A number that needs no finer unit than the format's, and lies a factor of two below its overflow, is rounded without a flag
(R47, R48). -/
theorem roundF_flags_of_short (htop : (fpar f).top = .ieee) (hunit : unitOf f m e ≤ e)
    (hover : unitOf f m e + (fpar f).fbits + 1 + (fpar f).bias < 2 ^ (fpar f).ebits - 1)
    (hpos : 0 < (2 : Int) ^ (fpar f).ebits - 1) : (roundF f false r ov (.fin neg m e)).2 = 0 := by
  by_cases hm : m = 0
  · subst hm; rfl
  have hround : roundAt r neg m e (unitOf f m e) = (m * 2 ^ (e - unitOf f m e).toNat, false) := if_pos hunit
  obtain ⟨c, hc, hle⟩ : ∃ c : Nat × Int, c = (if m * 2 ^ (e - unitOf f m e).toNat = 2 ^ ((fpar f).fbits + 1) then
      (2 ^ (fpar f).fbits, unitOf f m e + 1) else (m * 2 ^ (e - unitOf f m e).toNat, unitOf f m e)) ∧ c.2 ≤ unitOf f m e + 1 := by
    refine ⟨_, rfl, ?_⟩
    split <;> dsimp only <;> omega
  have heq : roundF f false r ov (.fin neg m e) =
      if 2 ^ (fpar f).ebits - 1 ≤ exField f c.1 c.2 then (overflowBits f r ov neg, fOF ||| fNX)
      else (packF (fpar f) neg (exField f c.1 c.2).toNat (c.1 % 2 ^ (fpar f).fbits), 0) := by
    have hu : unitOf f m e = max ((Nat.log2 m : Int) + e) (1 - ((fpar f).bias : Int)) - (fpar f).fbits := rfl
    rw [hu] at hround hc
    subst hc
    simp only [roundF, hm, if_false, Bool.false_eq_true, false_and, htop, hround, decide_eq_true_eq]
    rfl
  have hfit : exField f c.1 c.2 < 2 ^ (fpar f).ebits - 1 := by
    unfold exField
    split <;> omega
  rw [heq, if_neg (not_le.mpr hfit)]
end

/-- The value of an FP32 pattern (R41). -/
theorem decodeF_fp32 (n : Nat) : decodeF .fp32 false n =
    let neg := n / 2 ^ 31 % 2 == 1
    if n / 2 ^ 23 % 2 ^ 8 = 255 then (if n % 2 ^ 23 = 0 then .inf neg else .nan (decide (n % 2 ^ 23 < 2 ^ 22)))
    else if n / 2 ^ 23 % 2 ^ 8 = 0 then .fin neg (n % 2 ^ 23) (-149)
    else .fin neg (n % 2 ^ 23 + 2 ^ 23) ((n / 2 ^ 23 % 2 ^ 8 : Nat) - 127 - 23) := by
  simp [decodeF, fpar, isFL]
  rfl

/-- A number of 24 bits or fewer in the range of FP32 is exact in FP64 (R223). -/
theorem roundF_fp64_exact {neg : Bool} {m : Nat} {e : Int} (hm : m < 2 ^ 24) (hlo : -149 ≤ e) (hhi : e ≤ 104) :
    Say.asInts (-1100) (decodeF .fp64 false (roundF .fp64 false .rne .sat (.fin neg m e)).1) =
      Say.asInts (-1100) (.fin neg m e) := by
  have hlog : Nat.log2 m < 24 := by
    by_cases h0 : m = 0
    · subst h0; decide
    · exact (Nat.log2_lt h0).mpr hm
  have hsome : Say.asInts (-1100) (.fin neg m e) = some (sigAt neg m e (-1100)) :=
    Say.asInts_fin.mpr ⟨fun _ => by omega, rfl⟩
  have hflags : (roundF .fp64 false .rne .sat (.fin neg m e)).2 = 0 :=
    roundF_flags_of_short rfl (by simp [unitOf, fpar]; omega) (by simp [unitOf, fpar]; omega) (by simp [fpar])
  rw [hsome]
  exact roundF_exact (by decide) rfl (by simp [fpar]) hsome (by rw [hflags]; rfl)

/-- A NaN of FP32 is a NaN with its sign and fraction in FP64 (R223). -/
theorem asInts_fp64_of_nan (u : Int) {n : Nat} (hfrac : n % 2 ^ 23 ≠ 0) :
    Say.asInts u (decodeF .fp64 false (n / 2 ^ 31 * 2 ^ 63 + 0x7FF * 2 ^ 52 + n % 2 ^ 23 * 2 ^ 29)) = none := by
  have hex : (n / 2 ^ 31 * 2 ^ 63 + 0x7FF * 2 ^ 52 + n % 2 ^ 23 * 2 ^ 29) / 2 ^ 52 % 2 ^ 11 = 2 ^ 11 - 1 := by omega
  have hfr : (n / 2 ^ 31 * 2 ^ 63 + 0x7FF * 2 ^ 52 + n % 2 ^ 23 * 2 ^ 29) % 2 ^ 52 ≠ 0 := by omega
  simp only [decodeF, fpar, hex, reduceCtorEq, if_false, true_and, if_true, hfr]
  rfl

/-- A literal in FP64 has the value of the FP32 pattern that holds it (R223). -/
theorem decodeF_litFp64 (v : BitVec 22) :
    Say.asInts (-1100) (decodeF .fp64 false (litFp64 v)) = Say.asInts (-1100) (decodeF .fp32 false (litFp32 v)) := by
  unfold litFp64
  generalize litFp32 v = n at *
  dsimp only
  rw [decodeF_fp32]
  simp only [bitsAt, pow_zero, Nat.div_one]
  by_cases hex : n / 2 ^ 23 % 2 ^ 8 = 255
  · by_cases hfrac : n % 2 ^ 23 = 0
    · rw [if_neg (fun h => h.2 hfrac), if_pos hex, if_pos hfrac]
      generalize (n / 2 ^ 31 % 2 == 1) = neg
      cases neg <;> rfl
    · rw [if_pos ⟨hex, hfrac⟩, asInts_fp64_of_nan _ hfrac, if_pos hex, if_neg hfrac]
      rfl
  · rw [if_neg (fun h => hex h.1), if_neg hex]
    split
    · exact roundF_fp64_exact (by omega) (by omega) (by omega)
    · exact roundF_fp64_exact (by omega) (by omega) (by omega)

/-! ### What a source gives -/

theorem readInt_lit (ty : ITy) (o : Nat) (v : BitVec 22) (s : State) :
    readInt ty o (.lit v) s = .ok (Say.wrapTo ty v.toInt) s := by
  rw [← readBits_wOf]; rfl

theorem readN64_lit (o : Nat) (v : BitVec 22) (s : State) :
    readN64 o (.lit v) s = .ok (v.toInt % (2 ^ 64 : Nat)).toNat s := M.bind_ok (readInt_lit .n64 o v s)

theorem readF_lit (f : Fmt) (o : Nat) (v : BitVec 22) (s : State) : readF f o (.lit v) s = .ok (litF f v) s := rfl

theorem litF_of_narrow {f : Fmt} (hf : f = .fp16 ∨ f = .bf16) (v : BitVec 22) :
    litF f v = (roundF f false .rne .sat (decodeF .fp32 false (litFp32 v))).1 := by
  rcases hf with rfl | rfl <;> rfl

theorem modInt_wOf (ty : ITy) (m : SrcMod) (x : Int) : modInt (sgn ty) (wOf ty) m x =
    let y := if m.abs then Say.wrapTo ty x.natAbs else x
    if m.neg then Say.wrapTo ty (-y) else y := by
  simp only [modInt, readBits_wOf]

theorem fmtWidth_ne_zero (f : Fmt) : fmtWidth f ≠ 0 := by cases f <;> decide

/-- ABS and NEG act on the sign bit of a pattern of k + 1 bits (R221). -/
theorem modBitsF_parts {f : Fmt} {k : Nat} (hk : fmtWidth f = k + 1) (m : SrcMod) (v : Nat) :
    modBitsF f m (v % 2 ^ (k + 1)) < 2 ^ (k + 1) ∧ modBitsF f m (v % 2 ^ (k + 1)) % 2 ^ k = v % 2 ^ k ∧
      (modBitsF f m (v % 2 ^ (k + 1))).testBit k = ((v.testBit k && !m.abs) != m.neg) := by
  have hmag : v % 2 ^ (k + 1) % 2 ^ k = v % 2 ^ k := Nat.mod_mod_of_dvd _ (pow_dvd_pow 2 k.le_succ)
  have hsign : v % 2 ^ (k + 1) / 2 ^ k % 2 = (v.testBit k).toNat := by
    rw [pow_succ, Nat.mod_mul_right_div_self, Nat.mod_mod, Nat.toNat_testBit]
  have hlt : v % 2 ^ k < 2 ^ k := Nat.mod_lt _ (Nat.two_pow_pos k)
  obtain ⟨b, hb, hval⟩ : ∃ b : Bool, b = ((v.testBit k && !m.abs) != m.neg) ∧
      modBitsF f m (v % 2 ^ (k + 1)) = 2 ^ k * b.toNat + v % 2 ^ k := by
    refine ⟨_, rfl, ?_⟩
    simp only [modBitsF, hk, Nat.succ_ne_zero, if_false, Nat.add_sub_cancel, hmag, hsign, Nat.mul_comm _ (2 ^ k)]
    cases v.testBit k <;> cases m.abs <;> cases m.neg <;> rfl
  rw [hval, ← hb]
  refine ⟨?_, by rw [Nat.mul_add_mod, Nat.mod_mod], ?_⟩
  · cases b <;> simp [pow_succ] <;> omega
  · rw [Nat.testBit_two_pow_mul_add _ hlt]
    cases b <;> simp

section
variable {n o : Nat} {m : SrcMod} {fe : Bool} {s : State} (hn : n < 64)
include hn

theorem readInt_scal (ty : ITy) (hfull : s.me.full n = true) : readInt ty o (.scal n m fe) s =
    .ok (modInt (sgn ty) (wOf ty) m (Say.wrapTo ty (s.me.reg n).toNat)) s := by
  rw [← readBits_wOf]
  exact M.bind_ok (readScal_full hn hfull)

theorem readF_scal (f : Fmt) (hfull : s.me.full n = true) : readF f o (.scal n m fe) s =
    .ok (modBitsF f m ((s.me.reg n).toNat % 2 ^ fmtWidth f)) s := M.bind_ok (readScal_full hn hfull)

/-- A register that is not full: EMPTY under the mode bit, else a wait, whatever the read is for (R70, R72, R225). -/
theorem read_scal_empty (ty : ITy) (f : Fmt) (hempty : s.me.full n = false) :
    let stop : Stop := if fe then .trap { cause := .empty, opnd := o, val := BitVec.ofNat 64 (256 + n) } else .wait
    readInt ty o (.scal n m fe) s = .error stop s ∧ readF f o (.scal n m fe) s = .error stop s :=
  ⟨M.bind_error (readScal_empty hn hempty), M.bind_error (readScal_empty hn hempty)⟩
end

/-! ### Constant banks (R101, R102, R222) -/

theorem leNat_lt (bs : List Byte) : leNat bs < 256 ^ bs.length := by
  induction bs with
  | nil => simp [leNat]
  | cons b bs ih =>
    have := b.isLt
    rw [leNat, List.length_cons, pow_succ]
    omega

/-- A number that fits in w bits, read in them. -/
theorem readBits_of_lt (signed : Bool) {w n : Nat} (hw : w ≠ 0) (hn : n < 2 ^ w) :
    readBits signed w n = if signed then Int.bmod n (2 ^ w) else n := by
  obtain ⟨k, rfl⟩ := Nat.exists_eq_succ_of_ne_zero hw
  have hmod : ((n : Int) % ((2 ^ (k + 1) : Nat) : Int)) = n := Int.emod_eq_of_lt (by omega) (by exact_mod_cast hn)
  simp only [readBits, Nat.succ_eq_add_one, Nat.add_sub_cancel, Int.bmod, hmod]
  cases signed with
  | false => simp
  | true =>
    simp only [true_and, if_true]
    split <;> split <;> omega

theorem readBits_bankInt (ty : ITy) {size : Nat} {bs : List Byte} (hlen : bs.length ≤ 2 ^ size) :
    readBits (sgn ty) (wOf ty) (readBits (sgn ty) (8 * 2 ^ size) (leNat bs)) = Say.bankInt ty size bs := by
  have hpos : 0 < 2 ^ size := Nat.two_pow_pos size
  have hlt : leNat bs < 2 ^ (8 * 2 ^ size) := calc
    leNat bs < 256 ^ bs.length := leNat_lt bs
    _ ≤ 256 ^ 2 ^ size := Nat.pow_le_pow_right (by decide) hlen
    _ = 2 ^ (8 * 2 ^ size) := by rw [pow_mul]; rfl
  rw [readBits_wOf, readBits_of_lt _ (by omega) hlt]
  rfl

section
variable {ty : ITy} {f : Fmt} {o bank size off base len : Nat} {s s1 : State} {l : Launch} {bs : List Byte}

/-- What a bank's bytes give an integer and a float instruction. -/
theorem read_cbank_ok (hlen : bs.length ≤ 2 ^ size) (hread : readBank o bank size off s = .ok bs s1) :
    readInt ty o (.cbank bank size off) s = .ok (Say.bankInt ty size bs) s1 ∧
      readF f o (.cbank bank size off) s = .ok (leNat bs) s1 := by
  rw [← readBits_bankInt ty hlen]
  exact ⟨M.bind_ok hread, M.bind_ok hread⟩

variable (hl : s.launch s.me.vdev s.me.lid = some l) (hbank : l.banks[bank]? = some (base, len))
include hl hbank

theorem readBank_refused (hbad : l.rcd.cbmask.testBit bank = false ∨ len < off + 2 ^ size) :
    readBank o bank size off s = raise .operand o (bank * 2 ^ 18 + size * 2 ^ 16 + off) s := by
  simp [readBank, myLaunch, M.bind_run, hl, hbank, hbad]

variable (hon : l.rcd.cbmask.testBit bank = true) (hin : off + 2 ^ size ≤ len)
include hon hin

theorem readBank_hit {e : CLine}
    (hhit : s.myCore.ccache.find? (fun x => x.lid == l.lid && x.bank == bank && x.line == off / 64) = some e) :
    readBank o bank size off s = .ok ((e.data.drop (off % 64)).take (2 ^ size)) s := by
  have hok : ¬ len < off + 2 ^ size := by omega
  simp only [State.myCore] at hhit
  simp [readBank, myLaunch, M.bind_run, hl, hbank, hon, hok, hhit]

theorem readBank_miss
    (hmiss : s.myCore.ccache.find? (fun x => x.lid == l.lid && x.bank == bank && x.line == off / 64) = none)
    (hread : unitRead (some s.cur.core) { vdev := l.vdev, dom := l.base, win := none } (base + 64 * (off / 64))
      (min 64 (len - 64 * (off / 64))) s = .ok bs s1) :
    ∃ t, readBank o bank size off s = .ok ((bs.drop (off % 64)).take (2 ^ size)) t := by
  have hok : ¬ len < off + 2 ^ size := by omega
  simp only [State.myCore] at hmiss
  simp [readBank, myLaunch, M.bind_run, hl, hbank, hon, hok, hmiss, hread]
end

theorem operandReading : Say.operandReading := by
  intro ty f o n bank size off base len m fe v e l bs s s1 low
  refine ⟨⟨readInt_lit .., readN64_lit .., rfl, ⟨_, readF_lit .., decodeF_litFp64 v⟩, fun hf => ?narrow⟩, ?full,
    fun hn hempty => ?empty, ?bank⟩
  case narrow => rw [readF_lit, litF_of_narrow hf]; rfl
  case full =>
    intro hn hfull x y w
    refine ⟨by rw [readInt_scal hn ty hfull, modInt_wOf], fun _ => ⟨_, readF_scal hn f hfull, ?_⟩⟩
    obtain ⟨k, hk⟩ := Nat.exists_eq_succ_of_ne_zero (fmtWidth_ne_zero f)
    simp only [w, hk]
    exact modBitsF_parts hk m (s.me.reg n).toNat
  case empty =>
    obtain ⟨hint, hfloat⟩ := read_scal_empty (o := o) (m := m) (fe := fe) hn ty f hempty
    refine ⟨fun hfe => ?_, fun hfe => ?_⟩ <;> subst hfe <;> exact ⟨hint, hfloat⟩
  case bank =>
    intro hl hbank src num hit
    refine ⟨fun hbad => ?refused, fun hon hin => ⟨fun hhit => ?hit, fun hmiss hread => ?miss⟩⟩
    case refused =>
      have hread := readBank_refused (o := o) hl hbank hbad
      exact ⟨M.bind_error hread, M.bind_error hread⟩
    case hit => exact read_cbank_ok (List.length_take_le ..) (readBank_hit hl hbank hon hin hhit)
    case miss =>
      obtain ⟨t, ht⟩ := readBank_miss (o := o) hl hbank hon hin hmiss hread
      exact ⟨t, read_cbank_ok (List.length_take_le ..) ht⟩

/-! ### Scalar float arithmetic -/

section
variable {h : Head} {m : FMod} {d x y : Nat} {a b : Src} {s s2 : State} (hf : isFL m.fmt = true)
  (hread : Say.ReadsF m.fmt a b s x y s2)

include hf hread in
theorem readF2_ok : readF2 m.fmt a b s = .ok (decodeF m.fmt s2.me.ftz x, decodeF m.fmt s2.me.ftz y) s2 := by
  obtain ⟨s1, hx, hy⟩ := hread
  exact (M.bind_ok (need_ok hf)).trans <| (M.bind_ok hx).trans <| (M.bind_ok hy).trans rfl

/-- One rounding into D, with the flags of the operation and of the rounding (R247). -/
theorem writeRound_ok (hd : Say.Dest d s2) (v : FVal × Flags) :
    (writeRound m.fmt m.rnd d v.1 v.2 s2 = .ok () (s2.modMe (fun x =>
      (x.raiseFlags (v.2 ||| (roundF m.fmt s2.me.ftz m.rnd .sat v.1).2)).setReg d
        (BitVec.ofNat 64 (roundF m.fmt s2.me.ftz m.rnd .sat v.1).1)))) :=
  (M.bind_ok (me_eq s2)).trans (flag_writeScal hd _ _)

variable (hg : guardOk h s.me = true) (hd : Say.Dest d s2)
include hf hread hg hd

theorem float2_ok (op : FVal → FVal → FVal × Flags) : float2 h m d a b op s =
    .next (Say.floatDone h m d (op (decodeF m.fmt s2.me.ftz x) (decodeF m.fmt s2.me.ftz y)) s2) :=
  issue_ok (u := ()) hg ((M.bind_ok (readF2_ok hf hread)).trans (writeRound_ok hd _))

theorem exec_ffma_ok : exec (.ffma h m d a b) s = .next (Say.floatDone h m d (fFma m.rnd (decodeF m.fmt s2.me.ftz x)
    (decodeF m.fmt s2.me.ftz y) (decodeF m.fmt s2.me.ftz ((s2.me.reg d).toNat % 2 ^ fmtWidth m.fmt))) s2) := by
  refine issue_ok (u := ()) hg ((M.bind_ok (readF2_ok hf hread)).trans <| (M.bind_ok (readScal_full hd.1 hd.2)).trans <|
    (M.bind_ok (me_eq s2)).trans ?_)
  generalize fFma m.rnd _ _ _ = v
  exact writeRound_ok hd v
end

theorem floatArithmetic : Say.floatArithmeticResults := by
  intro h m d a b x y s s2 hg hf hread hd v
  refine ⟨?_, ?_, exec_ffma_ok hf hread hg hd, ?_, ?_⟩
  · exact float2_ok hf hread hg hd (fAdd m.rnd)
  · exact float2_ok hf hread hg hd fMul
  · exact float2_ok (m := ⟨m.fmt, .rne⟩) hf hread hg hd (fMinMax false)
  · exact float2_ok (m := ⟨m.fmt, .rne⟩) hf hread hg hd (fMinMax true)

/-- Settles O7: each kind of source in turn, and one rounding of the exact result. -/
theorem floatArithmeticResults : Obligations.FloatArithmeticResults := ⟨operandReading, floatArithmetic⟩

end Sys2Proof.Machine
end

section
/-! PROOFS. View instructions, tile moves and fills (R67, R271 to R276). -/
namespace Sys2Proof.Machine

/-! ### Moves of elements (R276) -/

section
variable {h : Head} {fm : Option Fmt} {fe : Bool} {q : SrcMod} {d n : Nat} {v y : View} {s : State}

/-- A job that moves whole elements from places that D's positions name. -/
def moveJob (c d : Nat) (v : View) (n : Nat) (y : View) (src : Nat → Nat → Nat × Nat) : Job :=
  cellJob c d v
    (fun _ g => [(n, (v.cells g).filterMap (fun e =>
      if y.valid (src e.1 e.2).1 (src e.1 e.2).2 then some (y.elem (src e.1 e.2).1 (src e.1 e.2).2) else none))])
    (fun t i k => (if y.valid (src i k).1 (src i k).2 then t.elemBits c y (src i k).1 (src i k).2 else 0, 0))

theorem Say.moved_iff {i : Instr} {src : Nat → Nat → Nat × Nat} : Say.Moved i h d v n y src s ↔
    (Say.Open (moveJob s.cur.core d v n y src) v.groups s →
      exec i s = .next ((Say.jobDone (moveJob s.cur.core d v n y src) v.groups s).advance h)) := Iff.rfl

theorem moveCells_ok {src : Nat → Nat → Nat × Nat} (hopen : Say.Open (moveJob s.cur.core d v n y src) v.groups s) :
    moveCells d v n y (fun _ i j => some (src i j)) s = .ok () (Say.jobDone (moveJob s.cur.core d v n y src) v.groups s) :=
  (M.bind_ok (look_eq _ s)).trans (Job.run_ok (j := moveJob s.cur.core d v n y src) (cellJob_quiet _ _ _ _ _) hopen)

variable (hg : guardOk h s.me = true) (hvfull : v.fe = true) (hsrc : Say.MoveSrc v n y s)
include hg hvfull hsrc

theorem moveOp_ok (hdest : Say.TileDest fm isNB d v s) {src : Nat → Nat → Nat × Nat}
    (hopen : Say.Open (moveJob s.cur.core d v n y src) v.groups s) :
    moveOp h fm d (.tile n q fe) src s = .next ((Say.jobDone (moveJob s.cur.core d v n y src) v.groups s).advance h) := by
  obtain ⟨htile, hhnd, -, hview, -⟩ := id hdest
  have hfree : viewFree d s = .ok () s := viewFree_ok (by rw [hview]; exact hvfull)
  exact issue_ok (u := ()) hg (tileOp_ok htile hhnd ((M.bind_ok (destView_ok hdest)).trans <|
    (M.bind_ok (tileSrc_ok hsrc)).trans <| (M.bind_ok hfree).trans (moveCells_ok hopen)))

theorem moved_of_moveOp (hdest : Say.TileDest fm isNB d v s) {i : Instr} {src : Nat → Nat → Nat × Nat}
    (hi : exec i s = moveOp h fm d (.tile n q fe) src s) : Say.Moved i h d v n y src s :=
  Say.moved_iff.mpr fun hopen => hi.trans (moveOp_ok hg hvfull hsrc hdest hopen)
end

/-! ### TCOPY (R276) -/

/-- Steps from state to state, each of which keeps what the checks see. -/
theorem State.SameChecks.steps {α : Type} {f : State → α → State} (h : ∀ (u : State) a, u.SameChecks (f u a)) (l : List α) (s : State) :
    s.SameChecks (l.foldl f s) := .foldl (p := id) (fun u a _ => h u a) s

theorem blockJob_quiet (d : Nat) (v : View) (n : Nat) (y : View) (c : Nat) : (Say.blockJob d v n y c).Quiet := by
  intro t g
  dsimp only [Say.blockJob]
  refine State.SameChecks.trans (.steps (fun u i => ?_) _ _) (.fillCells ..)
  exact (State.SameChecks.setBits u c (v.hdrRest i) 0).trans (.steps (fun w e => .setBits ..) _ _)

theorem copyBlocks_run (d : Nat) (v : View) (n : Nat) (y : View) (s : State) :
    copyBlocks d v n y s = (Say.blockJob d v n y s.cur.core).run v.groups s := by
  refine (M.bind_ok (look_eq _ s)).trans (congrArg (fun j => Job.run j v.groups s) ?_)
  simp only [Say.blockJob, Bool.and_eq_true, decide_eq_true_eq]

theorem copyPlanes_ok {d n : Nat} {v y : View} {s : State} (hopen : Say.Open (Say.planeJob d v n y s.cur.core) 1 s) :
    copyPlanes d v n y s = .ok () (Say.jobDone (Say.planeJob d v n y s.cur.core) 1 s) :=
  (M.bind_ok (look_eq _ s)).trans
    (Job.run_ok (j := Say.planeJob d v n y s.cur.core) (fun t _ => .foldl (p := id) (fun _ _ _ => .setBits ..) t) hopen)

section
variable {h : Head} {fm : Option Fmt} {fe : Bool} {q : SrcMod} {d n : Nat} {v y : View} {s t : State}

/-- TCOPY past its checks, on to the copy that the layout and the format need. -/
theorem exec_tcopy_ok (hg : guardOk h s.me = true) (hhnd : s.me.hnd = false) (htile : s.myCore.tile = none) (hd : d < 64)
    (hview : s.me.view d = v) (hdef : v.defd = true) (hvfull : v.fe = true) (hfm : fm = none ∨ fm = some v.fm) (hn : n < 64)
    (hy : s.me.view n = y) (hydef : y.defd = true) (hyfull : y.fe = true) (hrows : v.rowsm1 = y.rowsm1) (hcols : v.colsm1 = y.colsm1)
    (hfmt : v.fmt = y.fmt) (hlay : v.layout = y.layout) (hblock : isBlock v.fm = true → v.layout ≠ 1)
    (hwhole : v.layout = 2 → v.vrows = v.rows ∧ v.vcols = v.cols ∧ y.vrows = y.rows ∧ y.vcols = y.cols)
    (hcopy : (if v.layout = 2 then copyPlanes d v n y
      else if isBlock v.fm then copyBlocks d v n y else moveCells d v n y (fun _ i j => some (i, j))) s = .ok () t) :
    exec (.tcopy h fm d (.tile n q fe)) s = .next (t.advance h) := by
  subst hview hy
  have hwhole (k : M Unit) : (if (s.me.view d).layout = 2 then
      need ((s.me.view d).vrows == (s.me.view d).rows && (s.me.view d).vcols == (s.me.view d).cols) 1 d >>= fun _ =>
        need ((s.me.view n).vrows == (s.me.view n).rows && (s.me.view n).vcols == (s.me.view n).cols) 2 n >>= fun _ => k
      else k) s = k s := by
    split
    · obtain ⟨hr, hc, hyr, hyc⟩ := hwhole ‹_›
      exact (M.bind_ok (need_ok (by simp [hr, hc]))).trans (M.bind_ok (need_ok (by simp [hyr, hyc])))
    · rfl
  refine issue_ok (u := ()) hg (tileOp_ok htile hhnd ((M.bind_ok (useView_ok hd hdef)).trans <| (M.bind_ok (need_ok ?fmt)).trans <|
    (M.bind_ok (M.pure_eq _ s)).trans <| (M.bind_ok (useView_ok hn hydef)).trans <| (M.bind_ok (need_ok ?same)).trans <|
    (M.bind_ok (need_ok ?order)).trans <| (hwhole _).trans <| (M.bind_ok (viewFull_ok hyfull)).trans <|
    (M.bind_ok (viewFree_ok hvfull)).trans hcopy))
  case fmt => rcases hfm with rfl | rfl <;> simp
  case same => simp [hrows, hcols, hfmt, hlay]
  case order => simpa [imp_iff_not_or] using hblock
end

/-! ### Fills (R276) -/

section
variable {h : Head} {m : TMod} {d b1 b2 : Nat} {a b : Src} {v : View} {s s1 s2 : State}

theorem pointwise_ok {xs : List TSrc} {f : State → Nat → Nat → Nat → Nat × Flags}
    (hopen : Say.Open (cellJob s.cur.core d v (fun _ g => alike v xs g) (fun t i j => f t s.cur.core i j)) v.groups s) :
    pointwise d v xs f s = .ok () (Say.jobDone
      (cellJob s.cur.core d v (fun _ g => alike v xs g) (fun t i j => f t s.cur.core i j)) v.groups s) :=
  (M.bind_ok (look_eq _ s)).trans (Job.run_ok (cellJob_quiet _ _ _ _ _) hopen)

/-- No format of TIOTA has two components (R276). -/
theorem not_complex_of_isFLIN {f : Fmt} (hf : isFLIN f = true) : isCX f = false ∧ compOf f = f := by
  revert hf
  cases f <;> decide

/-- The element of TIOTA: A + k · B, with one rounding (R276). -/
def iotaEl (m : TMod) (ftz : Bool) (f : Fmt) (b1 b2 k : Nat) : Nat × Flags :=
  arith f ftz m.satx m.rnd (fun p q _ => p + k * q) (fun p q _ => fFma m.rnd (.ofInt k) q p) b1 b2 0

theorem iotaEl_eq {f : Fmt} (hf : isFLIN f = true) (ftz : Bool) (k : Nat) : iotaEl m ftz f b1 b2 k =
    if isInt f then
      (intElem f (fitInt (isSigned f) m.satx (fmtWidth f) (elemInt f b1 + k * elemInt f b2)).1,
        (fitInt (isSigned f) m.satx (fmtWidth f) (elemInt f b1 + k * elemInt f b2)).2)
    else
      roundEl f ftz m.rnd (fFma m.rnd (.ofInt k) (decodeF f ftz b2) (decodeF f ftz b1)) := by
  obtain ⟨hcx, hcomp⟩ := not_complex_of_isFLIN hf
  simp only [iotaEl, arith, hcx, hcomp, Bool.false_eq_true, if_false]

variable (hg : guardOk h s.me = true)
include hg

theorem exec_tfill_ok (hdest : Say.TileDest m.fmt isNB d v s) (hb : readElem v.fm 2 a s = .ok b1 s1)
    (hfree : (s1.me.view d).fe = true) : Say.Cells (.tfill h m.fmt d a) h d v [] (fun _ _ _ => (b1, 0)) s s1 := by
  intro hopen
  obtain ⟨htile, hhnd, -⟩ := id hdest
  exact issue_ok (u := ()) hg (tileOp_ok htile hhnd ((M.bind_ok (destView_ok hdest)).trans <| (M.bind_ok hb).trans <|
    (M.bind_ok (viewFree_ok hfree)).trans (pointwise_ok (f := fun _ _ _ _ => (b1, 0)) hopen)))

theorem exec_tiota_ok {mode : IotaMode} (hdest : Say.TileDest m.fmt isFLIN d v s) (hb1 : readElem v.fm 2 a s = .ok b1 s1)
    (hb2 : readElem v.fm 3 b s1 = .ok b2 s2) (hfree : (s2.me.view d).fe = true) :
    Say.Cells (.tiota h m mode d a b) h d v [] (fun _ i j => iotaEl m s2.me.ftz v.fm b1 b2 (iotaK mode v.cols i j)) s s2 := by
  intro hopen
  obtain ⟨htile, hhnd, -, -, -, -, hset, -⟩ := id hdest
  have hel : (fun (_ : State) i j => iotaEl m s2.me.ftz v.fm b1 b2 (iotaK mode v.cols i j)) = _ :=
    funext fun _ => funext fun i => funext fun j => iotaEl_eq hset s2.me.ftz (iotaK mode v.cols i j)
  refine issue_ok (u := ()) hg (tileOp_ok htile hhnd ((M.bind_ok (destView_ok hdest)).trans <| (M.bind_ok hb1).trans <|
    (M.bind_ok hb2).trans <| (M.bind_ok (viewFree_ok hfree)).trans <| (M.bind_ok (me_eq s2)).trans ?_))
  simp only [hel] at hopen ⊢
  exact pointwise_ok hopen
end

theorem tileMovesAndFills : Say.tileMovesAndFills := by
  intro h m mode col fe q d n b1 b2 a b v y s s1 s2 hg hvfull
  refine ⟨fun hdest hsrc => ⟨moved_of_moveOp hg hvfull hsrc hdest rfl, moved_of_moveOp hg hvfull hsrc hdest rfl,
      moved_of_moveOp hg hvfull hsrc hdest rfl, fun hrows hcols hfmt hlay => Say.moved_iff.mpr fun hopen => ?copy⟩,
    fun hhnd htile hd hview hdef hfm hn hy hydef hyfull hrows hcols hfmt hlay =>
      ⟨fun hrow hblk hopen => ?block, fun hplane hr hc hyr hyc hopen => ?plane⟩,
    fun hdest hb hfree _ => exec_tfill_ok hg hdest hb hfree,
    fun hdest hb1 hb2 hfree _ => ?iota⟩
  case copy =>
    obtain ⟨htile, hhnd, hd, hview, hdef, hplain, -, hfm⟩ := hdest
    obtain ⟨hn, hy, hydef, -, -, hyfull⟩ := hsrc
    obtain ⟨hlt, hnb⟩ : v.layout < 2 ∧ isBlock v.fm = false := by simpa [View.plain] using hplain
    have hlay2 : v.layout ≠ 2 := by omega
    refine exec_tcopy_ok hg hhnd htile hd hview hdef hvfull hfm hn hy hydef hyfull hrows hcols hfmt hlay
      (fun h => absurd h (by simp [hnb])) (fun h => absurd h hlay2) ?_
    rw [if_neg hlay2, if_neg (by simp [hnb])]
    exact moveCells_ok hopen
  case block =>
    have hlay2 : v.layout ≠ 2 := by omega
    refine exec_tcopy_ok hg hhnd htile hd hview hdef hvfull hfm hn hy hydef hyfull hrows hcols hfmt hlay
      (fun _ => by omega) (fun h => absurd h hlay2) ?_
    rw [if_neg hlay2, if_pos hblk, copyBlocks_run]
    exact Job.run_ok (blockJob_quiet _ _ _ _ _) hopen
  case plane =>
    refine exec_tcopy_ok hg hhnd htile hd hview hdef hvfull hfm hn hy hydef hyfull hrows hcols hfmt hlay
      (fun _ => by omega) (fun _ => ⟨hr, hc, hyr, hyc⟩) ?_
    rw [if_pos hplane]
    exact copyPlanes_ok hopen
  case iota =>
    have hiota := exec_tiota_ok (mode := mode) hg hdest hb1 hb2 hfree
    simp only [iotaEl] at hiota
    cases mode <;> exact hiota

/-! ### View instructions (R271 to R275) -/

/-- The tile engine is another seat's (R271). -/
theorem tileFree_taken {r : TileRun} {s : State} (h : s.myCore.tile = some r) (hne : r.seat ≠ s.cur.seat) :
    tileFree s = .error .wait s := by
  have hmine : s.myTile = none := by simp [State.myTile, h, hne]
  simp [tileFree, M.bind_run, h, hmine]

section
variable {h : Head} {n d k : Nat} {r c : Int} {a b : Src} {q : SrcMod} {fe clamp : Bool} {v : View} {s s1 s2 : State}
  (hg : guardOk h s.me = true) (hhnd : s.me.hnd = false)
include hg hhnd

theorem viewInstructions_wait {r0 : TileRun} (htile : s.myCore.tile = some r0) (hne : r0.seat ≠ s.cur.seat) :
    exec (.tview h d a) s = .next s ∧ exec (.tvalid h clamp d a b) s = .next s ∧ exec (.tget h d a b) s = .next s ∧
      exec (.tldr h d a) s = .next s := by
  have hwait {α : Type} (f : Unit → M α) : (noHandler >>= fun _ => tileFree >>= f) s = .error .wait s :=
    (M.bind_ok (noHandler_ok hhnd)).trans (M.bind_error (tileFree_taken htile hne))
  exact ⟨issue_stop hg (hwait _), issue_stop hg (hwait _), issue_stop hg (hwait _), issue_stop hg (hwait _)⟩

variable (htile : s.myCore.tile = none)
include htile

/-- Past the checks that every view instruction makes first. -/
theorem viewOp_ok {i : M Unit} {t : State} (hi : i s = .ok () t) :
    issue h (noHandler >>= fun _ => tileFree >>= fun _ => i) s = .next (t.advance h) :=
  issue_ok hg ((M.bind_ok (noHandler_ok hhnd)).trans ((M.bind_ok (tileFree_ok htile)).trans hi))

theorem exec_tview_ok (hn : readN64 2 a s = .ok n s1) (hlt : n < 2 ^ 58) (hfree : (s1.me.view d).fe = true) {w : View}
    (hw : w = View.ofImage (n + 2 ^ 80 + 2 ^ 79)) (hok : { w with vrows := w.rows, vcols := w.cols }.ok = true) :
    exec (.tview h d a) s =
      .next ((s1.modMe (fun x => x.setView d { w with vrows := w.rows, vcols := w.cols })).advance h) := by
  subst hw
  exact viewOp_ok hg hhnd htile ((M.bind_ok hn).trans <| (M.bind_ok (need_ok (decide_eq_true hlt))).trans <|
    (M.bind_ok (need_ok hok)).trans (M.bind_ok (viewFree_ok hfree)))

section
variable (hd : d < 64) (hview : s.me.view d = v) (hdef : v.defd = true) (hr : readI64 2 a s = .ok r s1)
  (hc : readI64 3 b s1 = .ok c s2) (hfree : (s2.me.view d).fe = true)
include hd hview hdef hr hc hfree

theorem exec_tvalid_clamp : exec (.tvalid h true d a b) s = .next ((s2.modMe (fun x => x.setView d
    { v with vrows := (min (max r 0) v.rows).toNat, vcols := (min (max c 0) v.cols).toNat, prog := 0 })).advance h) := by
  subst hview
  exact issue_ok (u := ()) hg (tileOp_ok htile hhnd ((M.bind_ok (useView_ok hd hdef)).trans <| (M.bind_ok hr).trans <|
    (M.bind_ok hc).trans (M.bind_ok (viewFree_ok hfree))))

theorem exec_tvalid_inside (hr0 : 0 ≤ r) (hrv : r ≤ v.rows) (hc0 : 0 ≤ c) (hcv : c ≤ v.cols) :
    exec (.tvalid h false d a b) s =
      .next ((s2.modMe (fun x => x.setView d { v with vrows := r.toNat, vcols := c.toNat, prog := 0 })).advance h) := by
  subst hview
  exact issue_ok (u := ()) hg (tileOp_ok htile hhnd ((M.bind_ok (useView_ok hd hdef)).trans <| (M.bind_ok hr).trans <|
    (M.bind_ok hc).trans <| (M.bind_ok (viewFree_ok hfree)).trans <| (M.bind_ok (need_ok (by simp [hr0, hrv]))).trans
    (M.bind_ok (need_ok (by simp [hc0, hcv])))))
end

theorem exec_tget_ok (hr : readI64 3 b s = .ok r s1) (hword : r = 0 ∨ r = 1) (hd : Say.Dest d s1) :
    exec (.tget h d (.tile k q fe) b) s = .next ((s1.modMe (fun x => x.setReg d
      (BitVec.ofNat 64 ((s1.me.view k).image / 2 ^ (64 * r.toNat))))).advance h) := by
  refine viewOp_ok hg hhnd htile ((M.bind_ok (M.pure_eq _ s)).trans <| (M.bind_ok hr).trans <| (M.bind_ok (need_ok ?_)).trans <|
    (M.bind_ok (me_eq s1)).trans ?_)
  · rcases hword with rfl | rfl <;> rfl
  · rw [← writeScal_full hd.1 hd.2]
    rcases hword with rfl | rfl <;> simp

theorem exec_tldr_ok (hn : readN64 2 a s = .ok n s1) (halign : n % 16 = 0) (hlt : n < 2 ^ 18) (hfree : (s1.me.view d).fe = true)
    (hquiet : Say.BankQuiet s1) (hperm : localOk s1 s1.cur.core n 16 s1.me.who .r false = true)
    (hheld : s1.myCore.heldRange n 16 none = false) (hgood : s1.locBad s1.cur.core n 16 = none)
    (himage : imageOk (s1.locNum s1.cur.core n 16) = true) :
    exec (.tldr h d a) s = .next ((s1.modMe (fun x => x.setView d
      { View.ofImage (s1.locNum s1.cur.core n 16) with fe := true })).advance h) := by
  obtain ⟨hlda, hbank⟩ := hquiet
  refine viewOp_ok hg hhnd htile ((M.bind_ok hn).trans <| (M.bind_ok (need_ok (by simp [halign]; omega))).trans <|
    (M.bind_ok (me_eq s1)).trans <| (M.bind_ok (viewFree_ok hfree)).trans <| (M.bind_ok (afterLda_ok hlda)).trans <|
    (M.bind_ok (bankQuiet_ok hbank)).trans ?_)
  simp only [M.bind_run, look_eq, hperm, hheld, hgood, himage, Bool.not_true, Bool.false_eq_true, if_false, need_true,
    Bool.not_false, waitFor_true, modMe_eq]
end

theorem viewInstructions : Say.viewInstructions := by
  intro h n d k r c a b q fe clamp v r0 s s1 s2 hg
  refine ⟨fun htile hne hhnd => viewInstructions_wait hg hhnd htile hne, fun htile hhnd => ⟨fun hn hlt hfree => ?view,
    fun hd hview hdef hr hc hfree => ⟨exec_tvalid_clamp hg hhnd htile hd hview hdef hr hc hfree,
      exec_tvalid_inside hg hhnd htile hd hview hdef hr hc hfree⟩,
    exec_tget_ok hg hhnd htile, exec_tldr_ok hg hhnd htile⟩⟩
  case view =>
    intro w w' hok
    exact exec_tview_ok hg hhnd htile hn hlt hfree rfl hok

/-- Settles O14: the checks of each instruction pass; then its job runs group by group, or its descriptor is set or read. -/
theorem viewsMovesAndFills : Obligations.ViewsMovesAndFills := ⟨tileMovesAndFills, viewInstructions⟩

end Sys2Proof.Machine
end

section
/-! PROOFS. Homes perform pieces, replies and reports reach their strands, walks and the dirty log (R72, R92, R106, R108, R113 to
R115, R315 to R324, R398). -/
namespace Sys2Proof.Machine

/-! ### Pieces at their homes -/

/-- The right that an access needs at its home (R94). -/
def AccKind.right : AccKind → Right
  | .load _ => .r | .store _ => .w | .atomic .. => .rw

/-- A store reads only the words that it writes in part (R92). -/
def AccKind.isStore : AccKind → Bool
  | .store _ => true | _ => false

/-- What a piece whose checks pass answers and leaves: a load reads its bytes, a store writes them, an atomic does both (R317). -/
def State.perform (s : State) (a : Access) (q : Piece) : List Byte × State :=
  let old := s.homeRead q.home q.addr q.len
  match a.kind with
  | .load _ => (old, s)
  | .store bs => ([], s.homeWrite q.home q.addr ((bs.drop (q.va - a.va.toNat)).take q.len))
  | .atomic op ty b => (old, s.homeWrite q.home q.addr
      (leBytes (atomNew op ty (leNat old) (b.toNat % 2 ^ (8 * q.len))) q.len))

section
variable {s : State} {a : Access} {i : Nat} {q : Piece} {right : Right} {isSt : Bool}

/-- The step of a piece's home performs it. -/
theorem exec_homeStep (ha : s.access a.num = some a) (hq : a.pieces[i]? = some q) :
    exec (Say.homeStep a.num i q) s = .next (s.stepPiece a.num i) := by
  have hfind : (s.access a.num).bind (fun a => a.pieces[i]?) = some q := by rw [ha]; exact hq
  cases hhome : q.home with
  | bank n =>
    simp only [Say.homeStep, hhome]
    show execRemoteAccess a.num i s = _
    simp only [execRemoteAccess, hfind, hhome]
  | _ =>
    simp only [Say.homeStep, hhome]
    show execDeviceHomeAccess a.num i s = _
    simp only [execDeviceHomeAccess, hfind, hhome]

section
variable (h : Say.PieceReady s a i q right isSt)
include h

/-- A piece whose turn has come is performed; a write waits until the host caches none of its lines (R110). -/
theorem State.stepPiece_of_ready (hsnoop : (∀ sx, a.kind ≠ .load sx) → s.snooped q.home q.addr q.len = false) :
    s.stepPiece a.num i =
      (s.performPiece a q).2.setAccess { a with pieces := a.pieces.set i (s.performPiece a q).1 } := by
  obtain ⟨ha, hq, hghost, htwin, hst, hbehind, hheld, hpull, hlink, -⟩ := h
  have hsent : q.sent = true := by simp [Piece.sent, hst]
  simp only [State.stepPiece, ha, hq, hghost, hsent, hbehind, hheld, hpull, hlink, htwin]
  cases hk : a.kind with
  | load sx => simp
  | _ => simp [hsnoop (by simp [hk])]

theorem State.slot_clear_of_ready : (q.dom != 0 && s.slotHeld q.vdev q.home q.addr q.len) = false := by
  obtain ⟨-, -, -, -, -, -, -, -, -, hslot, -⟩ := h
  rcases hslot with h0 | hfree
  · simp [h0]
  · simp [hfree]
end


theorem State.performPiece_of_ready (h : Say.PieceReady s a i q a.kind.right a.kind.isStore) :
    s.performPiece a q = ({ q with st := .done (s.perform a q).1 }, (s.perform a q).2) := by
  have hslot := State.slot_clear_of_ready h
  obtain ⟨-, -, -, -, -, -, -, -, -, -, hbank, hgood⟩ := h
  cases hk : a.kind <;> simp only [hk, AccKind.right, AccKind.isStore, if_true, if_false, Bool.false_eq_true] at hbank hgood <;>
    simp only [State.performPiece, State.perform, hk, hslot, hgood, if_true, if_false, Bool.false_eq_true]
  all_goals
    cases hhome : q.home with
    | bank n => rcases hbank n hhome with hown | ⟨hmapped, hok⟩ <;> simp [*]
    | _ => simp

theorem exec_homeStep_of_ready (h : Say.PieceReady s a i q a.kind.right a.kind.isStore)
    (hsnoop : (∀ sx, a.kind ≠ .load sx) → s.snooped q.home q.addr q.len = false) :
    exec (Say.homeStep a.num i q) s =
      .next ((s.perform a q).2.setAccess (Say.pieceDone a i q (s.perform a q).1)) := by
  rw [exec_homeStep h.1 h.2.1, State.stepPiece_of_ready h hsnoop, State.performPiece_of_ready h]
  rfl
end

theorem homesPerformPieces : Say.homesPerformPieces := by
  intro s a i q
  refine ⟨fun sx hk h => ?load, fun bs hk h hsnoop => ?store, fun op ty b hk h hsnoop => ?atomic⟩
  case load =>
    have hgo := exec_homeStep_of_ready (by rw [hk]; exact h) fun hno => absurd hk (hno sx)
    rw [hgo, State.perform, hk]
  case store =>
    have hgo := exec_homeStep_of_ready (by rw [hk]; exact h) fun _ => hsnoop
    rw [hgo, State.perform, hk]
  case atomic =>
    have hgo := exec_homeStep_of_ready (by rw [hk]; exact h) fun _ => hsnoop
    rw [hgo, State.perform, hk]

/-! ### Replies and reports -/

/-- What the report of a failed access leaves of its seat: the trap to be raised, the destinations full (R315). -/
def Seat.reported (x : Seat) (a : Access) (t : Trap) : Seat :=
  let y := match a.dst with | some d => x.fillRegs d (if a.pair then 2 else 1) [] | none => x
  { y with reports := y.reports ++ [(a.strn, t)] }

section
variable {s : State} {n d : Nat} {a : Access} {t : Trap} (ha : s.access n = some a)
include ha

section
variable (hdec : a.decided = true)
include hdec

/-- The reply of a decided access that did not fail fills its destinations (R72, R319, R324). -/
theorem exec_accessReply_ok (hok : a.failed = none) (hret : a.returns = true) (hdst : a.dst = some d) :
    exec (.accessReply n) s = .next (((s.dropAccess n).modSeat a.core a.seat
      (fun x => x.fillRegs d (if a.pair then 2 else 1) a.values)).settleTrap a.core a.seat) := by
  show execAccessReply n s = _
  simp [execAccessReply, ha, hdec, hok, hret, hdst]

theorem exec_storeAcknowledgement_ok (hok : a.failed = none) (hret : a.returns = false) :
    exec (.storeAcknowledgement n) s = .next (s.dropAccess n) := by
  show execStoreAcknowledgement n s = _
  simp [execStoreAcknowledgement, ha, hdec, hok, hret]

theorem exec_homeFailureReport_awake (hfail : a.failed = some t) (hawake : Say.Awake a s) (hseat : a.seat < 4) :
    exec (.homeFailureReport n) s = .next (((s.dropAccess n).modSeat a.core a.seat (fun x => x.reported a t)).settleTrap
      a.core a.seat) := by
  have hseat : ¬ 4 ≤ a.seat := by omega
  show execHomeFailureReport n s = _
  simp only [execHomeFailureReport, ha, hdec, hfail, hseat, hawake, Bool.not_true, Bool.or_self, Bool.false_eq_true, if_false]
  rfl
end

theorem exec_homeFailureReport_asleep (hasleep : s.asleep { core := a.core, seat := a.seat, strn := a.strn } = true) :
    exec (.homeFailureReport n) s = .next s := by
  show execHomeFailureReport n s = _
  simp [execHomeFailureReport, ha, hasleep]
end

theorem Access.decided_iff {a : Access} : a.decided = true ↔ ∀ p ∈ a.pieces, p.st ≠ .sent := by
  simp [Access.decided, Piece.sent]

theorem Access.values_atomic {a : Access} {op : AtomOp} {ty : ITy} {b : Word} (hk : a.kind = .atomic op ty b) :
    a.values = [BitVec.ofInt 64 (Say.wrapTo ty (leNat a.bytes))] := by
  rw [Access.values, hk, ← readBits_wOf]

theorem repliesAndReports : Say.repliesAndReports := by
  intro s n d a t ha hdec
  have hdec := Access.decided_iff.mpr hdec
  refine ⟨fun hok hret hdst hone => ⟨fun sx hk => ?load, fun op ty b hk => ?atomic⟩, fun hok hdst hpair ⟨sx, hk⟩ => ?pair,
    exec_storeAcknowledgement_ok ha hdec, exec_homeFailureReport_asleep ha, fun hfail hawake hseat hdst => ?none,
    fun hfail hawake hseat hdst hone => ?one, fun hfail hawake hseat hdst hpair => ?two⟩
  case load => rw [exec_accessReply_ok ha hdec hok hret hdst, hone, Access.values, hk, hone]; rfl
  case atomic => rw [exec_accessReply_ok ha hdec hok hret hdst, hone, Access.values_atomic hk]; rfl
  case pair =>
    have hret : a.returns = true := by rw [Access.returns, hk]
    rw [exec_accessReply_ok ha hdec hok hret hdst, hpair, Access.values, hk, hpair]; rfl
  case none => rw [exec_homeFailureReport_awake ha hdec hfail hawake hseat]; simp only [Seat.reported, hdst]
  case one => rw [exec_homeFailureReport_awake ha hdec hfail hawake hseat]; simp only [Seat.reported, hdst, hone]; rfl
  case two => rw [exec_homeFailureReport_awake ha hdec hfail hawake hseat]; simp only [Seat.reported, hdst, hpair]; rfl

/-! ### Walks -/

section
variable {s : State} {n : Nat} {w : Walk} {r : Region} (hw : s.walks[n]? = some w)
include hw

theorem exec_translationWalk_eq : exec (.translationWalk n) s = .next (s.walkOn w) := by
  show execTranslationWalk n s = _
  rw [execTranslationWalk, hw]

theorem exec_translationWalk_queued (hq : s.walking w = false) : exec (.translationWalk n) s = .next s := by
  rw [exec_translationWalk_eq hw, State.walkOn]
  cases regionOf w.va with
  | none => rfl
  | some r => simp [hq]

variable (hr : regionOf w.va = some r) (hgo : s.walking w = true)
include hr hgo

theorem exec_translationWalk_pull {p : Nat} (hp : s.walkPull w.vdev w.dom w.va = some p) :
    exec (.translationWalk n) s = .next (s.startPull p w.va (.walk w)) := by
  rw [exec_translationWalk_eq hw]
  simp [State.walkOn, hr, hgo, hp]

variable (hp : s.walkPull w.vdev w.dom w.va = none)
include hp

/-- A walk that finds a translation fills the caches for every miss that has joined it (R114). -/
theorem exec_translationWalk_found {e : TlbEntry} (he : walk s w.vdev w.dom w.va r = .ok e) :
    exec (.translationWalk n) s = .next ((s.walks.filter w.joins).foldl (fun u v =>
      if e ∈ (u.core v.core).tlb then u else u.tlbFill v.core e)
      { s with walks := s.walks.filter (fun v => !w.joins v) }) := by
  rw [exec_translationWalk_eq hw]
  simp [State.walkOn, hr, hgo, hp, he]

theorem exec_translationWalk_fails {t : Trap} (ht : walk s w.vdev w.dom w.va r = .error t) :
    exec (.translationWalk n) s = .next (s.walksFail (s.walks.filter w.joins) t) := by
  rw [exec_translationWalk_eq hw]
  simp [State.walkOn, hr, hgo, hp, ht]
end

/-! ### The dirty log -/

section
variable {s s1 : State} {n : Nat} {q : LogReq} (hq : s.logs[n]? = some q) (hdone : q.done = false)
include hq hdone

theorem exec_dirtyLogAtomic_poisoned (hbad : s.devPoisoned q.entry.vdev q.entry.leaf 8 = true) :
    exec (.dirtyLogAtomic n) s = .next { s with logs := s.logs.erase q } := by
  show execDirtyLogAtomic n s = _
  simp [execDirtyLogAtomic, hq, hdone, hbad]

variable (hgood : s.devPoisoned q.entry.vdev q.entry.leaf 8 = false)
include hgood

theorem exec_dirtyLogAtomic_waits (h : s.logAtomic q.entry = none) : exec (.dirtyLogAtomic n) s = .next s := by
  show execDirtyLogAtomic n s = _
  simp [execDirtyLogAtomic, hq, hdone, hgood, h]

/-- The atomic has found LOG = 1: the page is logged and the walk is repeated (R115). -/
theorem exec_dirtyLogAtomic_logged (h : s.logAtomic q.entry = some (true, s1)) :
    exec (.dirtyLogAtomic n) s = .next { s1 with logs := s1.logs.erase q } := by
  show execDirtyLogAtomic n s = _
  simp [execDirtyLogAtomic, hq, hdone, hgood, h]

theorem exec_dirtyLogAtomic_clear (h : s.logAtomic q.entry = some (false, s1)) : exec (.dirtyLogAtomic n) s =
    .next { s1 with logs := s1.logs.map (fun x => if x = q then { x with done := true } else x) } := by
  show execDirtyLogAtomic n s = _
  simp [execDirtyLogAtomic, hq, hdone, hgood, h]
end

theorem walksAndDirtyLog : Say.walksAndDirtyLog := by
  intro s s1 n w r e t q
  refine ⟨fun hw hr hgo => ⟨fun p hp => exec_translationWalk_pull hw hr hgo hp,
      fun hp he => exec_translationWalk_found hw hr hgo hp he, fun hp ht => exec_translationWalk_fails hw hr hgo hp ht⟩, exec_translationWalk_queued,
    fun hq hdone => ⟨exec_dirtyLogAtomic_poisoned hq hdone, fun hgood => ⟨exec_dirtyLogAtomic_waits hq hdone hgood,
      exec_dirtyLogAtomic_logged hq hdone hgood, exec_dirtyLogAtomic_clear hq hdone hgood⟩⟩⟩

/-- Settles O25: a ready piece is performed, a decided access answers, a walk and a logged write end, each by its outcome. -/
theorem homesRepliesAndWalks : Obligations.HomesRepliesAndWalks := ⟨homesPerformPieces, repliesAndReports, walksAndDirtyLog⟩

end Sys2Proof.Machine
end

section
/-! PROOFS. What SYSR and CAPR read (R75 to R87, R146, R166, R196, R308, R358, R365). -/
namespace Sys2Proof.Machine

/-! ### Words of the seat registers (R75 to R83) -/

theorem Core.status_eq_statusWord (s : State) : s.myCore.status s.cur.seat = Say.statusWord s := by
  have hlevel (x : Seat) : (if x.occ = .free then 0 else levelOf x.vdev x.curdom) =
      if x.occ = .free ∨ x.curdom ≠ 0 then 0 else if x.vdev ≠ 0 then 1 else 2 := by
    unfold levelOf
    split <;> simp_all
  have hholder : (s.myCore.mat.holder == some s.cur.seat).toNat * 2 ^ 13 =
      if s.myCore.mat.holder = some s.cur.seat then 2 ^ 13 else 0 := by
    split <;> simp_all
  have hseat : s.myCore.seat s.cur.seat = s.me := rfl
  unfold Core.status Say.statusWord
  rw [hseat]
  dsimp only
  rw [hlevel, hholder]
  cases s.myCore.pair with
  | none => simp
  | some p => cases hon : p.on <;> simp [hon]

theorem Rep.word_eq (r : Rep) : r.word = Say.repWord r := by
  unfold Rep.word Say.repWord
  omega

/-- A seat register but QUOTA (R75, R358). -/
theorem readSeat_ok {n : Nat} (hn : n ≤ 13) (hq : n ≠ 12) (s : State) : readSeat n s = .ok (Say.seatValue s n) s :=
  match n, hn, hq with
  | 0, _, _ => rfl
  | 1, _, _ => congrArg (EStateM.Result.ok · s) (Core.status_eq_statusWord s)
  | 2, _, _ => rfl
  | 3, _, _ => rfl
  | 4, _, _ => rfl
  | 5, _, _ => rfl
  | 6, _, _ => rfl
  | 7, _, _ => congrArg (EStateM.Result.ok · s) (by rw [Rep.word_eq, Rep.word_eq, ← apply_ite Say.repWord]; rfl)
  | 8, _, _ => congrArg (EStateM.Result.ok · s) (by simp only [Seat.domWord, Say.seatValue]; omega)
  | 9, _, _ => congrArg (EStateM.Result.ok · s) (by simp only [Seat.dspWord, Say.seatValue]; omega)
  | 10, _, _ => rfl
  | 11, _, _ => congrArg (EStateM.Result.ok · s) (Nat.add_comm ..)
  | 12, _, hq => absurd rfl hq
  | 13, _, _ => rfl

theorem readSeat_quota (s : State) :
    readSeat 12 s = .ok (if (s.quota s.me.vdev).fixed then 2 ^ 48 - 1 else s.me.cyc.toNat) s := by
  simp [readSeat, readCyc, M.bind_run]

theorem readSeat_beyond {n : Nat} (hn : 14 ≤ n) (s : State) : readSeat n s = raise .operand 2 n s := by
  obtain ⟨h0, h1, h2, h3, h4, h5, h6⟩ : n ≠ 0 ∧ n ≠ 1 ∧ n ≠ 2 ∧ n ≠ 3 ∧ n ≠ 4 ∧ n ≠ 5 ∧ n ≠ 6 := by omega
  obtain ⟨h7, h8, h9, h10, h11, h12, h13⟩ : n ≠ 7 ∧ n ≠ 8 ∧ n ≠ 9 ∧ n ≠ 10 ∧ n ≠ 11 ∧ n ≠ 12 ∧ n ≠ 13 := by omega
  simp only [readSeat, *, if_false]
  rfl

/-! ### Core registers (R86, R87) -/

/-- Four 16-bit numbers in one word. -/
theorem foldl_halves (f : Nat → Nat) : (upto 4).foldl (fun v k => v + f k % 2 ^ 16 * 2 ^ (16 * k)) 0 =
    f 0 % 2 ^ 16 + f 1 % 2 ^ 16 * 2 ^ 16 + f 2 % 2 ^ 16 * 2 ^ 32 + f 3 % 2 ^ 16 * 2 ^ 48 := by
  have hlist : upto 4 = [0, 1, 2, 3] := by decide
  rw [hlist, List.foldl_cons, List.foldl_cons, List.foldl_cons, List.foldl_cons, List.foldl_nil]
  omega

theorem readCore_segb (s : State) : readCore 1 s = .ok ((s.myCore.seat 0).segb % 2 ^ 16
    + (s.myCore.seat 1).segb % 2 ^ 16 * 2 ^ 16 + (s.myCore.seat 2).segb % 2 ^ 16 * 2 ^ 32
    + (s.myCore.seat 3).segb % 2 ^ 16 * 2 ^ 48) s := by
  rw [← foldl_halves (fun k => (s.myCore.seat k).segb)]
  rfl

theorem readCore_beyond {n : Nat} (hn : 5 ≤ n ∧ n < 0x40 ∨ 0x140 ≤ n) (s : State) : readCore n s = raise .operand 2 n s := by
  have hslot : ¬ (0x40 ≤ n ∧ n < 0x140) := by omega
  obtain ⟨h0, h1, h2, h3, h4⟩ : n ≠ 0 ∧ n ≠ 1 ∧ n ≠ 2 ∧ n ≠ 3 ∧ n ≠ 4 := by omega
  simp only [readCore, h0, h1, h2, h3, h4, hslot, if_false]
  rfl

/-- Word w of deque slot k, for the supervisor alone (R86, R358). -/
theorem readCore_slot {k w : Nat} (hk : k < 64) (hw : w < 4) (s : State) : readCore (0x40 + 4 * k + w) s =
    if s.me.who.dom ≠ 0 then raise .privilege 0 (0x40 + 4 * k + w) s
    else .ok ((s.myCore.dqSlot k).toNat / 2 ^ (64 * w) % 2 ^ 64) s := by
  have hslot : 0x40 ≤ 0x40 + 4 * k + w ∧ 0x40 + 4 * k + w < 0x140 := by omega
  obtain ⟨h0, h1, h2, h3, h4⟩ : 0x40 + 4 * k + w ≠ 0 ∧ 0x40 + 4 * k + w ≠ 1 ∧ 0x40 + 4 * k + w ≠ 2 ∧ 0x40 + 4 * k + w ≠ 3 ∧
      0x40 + 4 * k + w ≠ 4 := by omega
  have hdiv : (0x40 + 4 * k + w - 0x40) / 4 = k := by omega
  have hmod : (0x40 + 4 * k + w) % 4 = w := by omega
  simp only [readCore, h0, h1, h2, h3, h4, hslot, hdiv, hmod, if_false, if_true, and_self, M.bind_run, me_eq, look_eq]
  split <;> rfl

/-! ### Tables (R144, R146) -/

/-- An index word names entry k and word w (R358). -/
theorem bitsAt_indexWord {k w : Nat} (hw : w < 32) (hk : k < 2 ^ 32) :
    bitsAt (32 * k + w) 0 5 = w ∧ bitsAt (32 * k + w) 5 32 = k := by
  unfold bitsAt
  omega

section
variable {n k w o : Nat} {s : State} (hw : w < 32) (hk : k < 2 ^ 32) (hlo : 1 ≤ n) (hhi : n ≤ 6)
  (hok : s.tableOk s.me.vdev n k w = true)
include hw hk hlo hhi hok

theorem tableIndex_ok : tableIndex n (32 * k + w) o s = .ok (k, w) s := by
  obtain ⟨hword, hentry⟩ := bitsAt_indexWord hw hk
  have hsel : (decide (1 ≤ n) && decide (n ≤ 6)) = true := by simp [hlo, hhi]
  simp only [tableIndex, hsel, hword, hentry, M.bind_run, need_true, me_eq, look_eq, hok, M.pure_eq]

/-- What the table form reads, by selector; the supervisor's tables are refused to others (R146, R358, log 48). -/
theorem readTable_refused (hsel : 4 ≤ n) (hdom : s.me.who.dom ≠ 0) :
    readTable n (32 * k + w) s = raise .privilege 0 (n + k * 2 ^ 16) s := by
  obtain ⟨h1, h2, h3⟩ : n ≠ 1 ∧ n ≠ 2 ∧ n ≠ 3 := by omega
  have hroot : s.me.root = false := by simp [Seat.root, hdom]
  simp only [readTable, M.bind_run, tableIndex_ok hw hk hlo hhi hok, me_eq, look_eq, h1, h2, h3, if_false, hroot, Bool.not_false,
    if_true, tableDenied]
end

section
variable {k w : Nat} {s : State} (hw : w < 32) (hk : k < 2 ^ 32)
include hw hk

theorem readTable_lrt (hok : s.tableOk s.me.vdev 1 k w = true) :
    readTable 1 (32 * k + w) s = .ok (s.lrtEntry s.cur.core k).toNat s :=
  M.bind_ok (tableIndex_ok hw hk (by decide) (by decide) hok)

theorem readTable_gate (hok : s.tableOk s.me.vdev 2 k w = true) (h3 : w = 3) :
    readTable 2 (32 * k + w) s = .ok (s.gateNum s.me.vdev k 0x18 4) s := by
  refine (M.bind_ok (tableIndex_ok hw hk (by decide) (by decide) hok)).trans ?_
  subst h3
  rfl

theorem readTable_events (hok : s.tableOk s.me.vdev 3 k w = true) (hdom : s.me.who.dom = 0) (hword : w = 11 ∨ w = 12) :
    readTable 3 (32 * k + w) s = .ok (if w = 11 then (s.quota s.me.vdev).evbase else (s.quota s.me.vdev).evcap) s := by
  refine (M.bind_ok (tableIndex_ok hw hk (by decide) (by decide) hok)).trans ?_
  simp [M.bind_run, hdom, hword]

section
variable (hdom : s.me.who.dom = 0) (hvdev : s.me.vdev = 0)
include hdom hvdev

theorem readTable_lpt (hok : s.tableOk s.me.vdev 4 k w = true) :
    readTable 4 (32 * k + w) s = .ok ((s.lptEntry (k / 4096) (k % 4096)).toNat &&& 0x8FFF) s := by
  have hroot : s.me.root = true := by simp [Seat.root, hdom, hvdev]
  refine (M.bind_ok (tableIndex_ok hw hk (by decide) (by decide) hok)).trans ?_
  simp [M.bind_run, hroot]

theorem readTable_key (hok : s.tableOk s.me.vdev 5 k w = true) : readTable 5 (32 * k + w) s = .ok (s.key k).word s := by
  have hroot : s.me.root = true := by simp [Seat.root, hdom, hvdev]
  refine (M.bind_ok (tableIndex_ok hw hk (by decide) (by decide) hok)).trans ?_
  simp [M.bind_run, hroot]

theorem readTable_reg (hok : s.tableOk s.me.vdev 6 k w = true) :
    readTable 6 (32 * k + w) s = .ok ((mapGet ({} : RegSlot) k s.regs).word w) s := by
  have hroot : s.me.root = true := by simp [Seat.root, hdom, hvdev]
  refine (M.bind_ok (tableIndex_ok hw hk (by decide) (by decide) hok)).trans ?_
  simp [M.bind_run, hroot]
end
end

theorem KeySlot.word_eq (y : KeySlot) :
    y.word = y.kstate + y.use * 2 ^ 2 + y.vdev * 2 ^ 16 + y.kgen % 2 ^ 16 * 2 ^ 48 := by
  unfold KeySlot.word
  omega

/-- A Regulator slot has five words that hold something (R166). -/
theorem RegSlot.word_beyond (r : RegSlot) (w : Nat) : r.word (w + 5) = 0 := by
  simp [RegSlot.word]

/-! ### Engines (R308) -/

/-- The engine words that selector n names: 0 to 3 a copy context, 4 the matrix unit. -/
def Core.engineOf (x : Core) (n : Nat) : EngWords := if n = 4 then x.mat.eng else (x.ctx n).eng

section
variable {n w : Nat} {s : State} (hn : n ≤ 4) (hw : w ≤ 4)
include hn hw

theorem readEng_ok (hmay : n = 4 ∨ n = s.cur.seat ∨ s.me.who.dom = 0) :
    let e := s.myCore.engineOf n
    readEng n w s = .ok (([e.efop, e.efcode, e.efval, e.efrst, e.errlast][w]?).getD 0).toNat s := by
  have hno : ¬ (n ≠ 4 ∧ n ≠ s.cur.seat ∧ s.me.who.dom ≠ 0) := by rcases hmay with h | h | h <;> simp [h]
  simp only [readEng, M.bind_run, hn, hw, decide_true, need_true, me_eq, look_eq, hno, if_false, M.pure_eq]
  rfl

theorem readEng_refused (h4 : n ≠ 4) (hother : n ≠ s.cur.seat) (hdom : s.me.who.dom ≠ 0) :
    readEng n w s = raise .privilege 0 n s := by
  have hno : n ≠ 4 ∧ n ≠ s.cur.seat ∧ s.me.who.dom ≠ 0 := ⟨h4, hother, hdom⟩
  simp only [readEng, M.bind_run, hn, hw, decide_true, need_true, me_eq, look_eq, hno, if_true, and_self, ne_eq, not_false_eq_true]
  rfl
end

/-! ### SYSR and CAPR -/

/-- What SYSR reads in each form (R358). -/
def sysRead (form : SysForm) (n i : Nat) : M Nat :=
  match form with
  | .seat => readSeat n | .core => readCore n | .tab => readTable n i | .eng => readEng n i

theorem exec_sysr_eq (h : Head) (form : SysForm) (d : Nat) (a : Src) (b : Option Src) (s : State) :
    exec (.sysr h form d a b) s = issue h (do
      let n ← readN64 2 a
      let i ← readOpt 0 (readN64 3) b
      let v ← sysRead form n i
      writeScal d (BitVec.ofNat 64 v)) s := by
  cases form <;> rfl

theorem readOpt_of_index {b : Option Src} {i : Nat} {s s1 : State} (h : Say.Index b s i s1) :
    readOpt 0 (readN64 3) b s = .ok i s1 := by
  cases b with
  | none => obtain ⟨rfl, rfl⟩ := h; rfl
  | some b => exact h

section
variable {h : Head} {form : SysForm} {d n i v : Nat} {a : Src} {b : Option Src} {s s0 s1 : State} (hg : guardOk h s.me = true)
  (hn : readN64 2 a s = .ok n s0) (hi : Say.Index b s0 i s1)
include hg hn hi

theorem exec_sysr_answers (hd : Say.Dest d s1) (hv : sysRead form n i s1 = .ok v s1) :
    exec (.sysr h form d a b) s = Say.answer h d v s1 := by
  rw [exec_sysr_eq]
  exact issue_ok (u := ()) hg ((M.bind_ok hn).trans <| (M.bind_ok (readOpt_of_index hi)).trans <| (M.bind_ok hv).trans
    (writeScal_full hd.1 hd.2))

theorem exec_sysr_raises {c : Cause} {o e : Nat} (hv : sysRead form n i s1 = raise c o e s1) :
    exec (.sysr h form d a b) s = .next (s.takeTrap s.cur { cause := c, opnd := o, val := BitVec.ofNat 64 e } false) := by
  rw [exec_sysr_eq]
  exact issue_stop (e := .trap _) (s' := s1) hg ((M.bind_ok hn).trans <| (M.bind_ok (readOpt_of_index hi)).trans (M.bind_error hv))
end

theorem sysrReadsRegisters : Say.sysrReadsRegisters := by
  intro h d n i a b s s0 s1 hg hd hn
  refine ⟨fun hi => ?_, ?capr⟩
  case capr =>
    rintro rfl
    exact issue_ok (u := ()) hg ((M.bind_ok hn).trans <| (M.bind_ok (look_eq _ s1)).trans (writeScal_full hd.1 hd.2))
  have answers {form : SysForm} {v : Nat} (hv : sysRead form n i s1 = .ok v s1) :
    exec (.sysr h form d a b) s = Say.answer h d v s1 := exec_sysr_answers hg hn hi hd hv
  have raises {form : SysForm} {c : Cause} {o e : Nat} (hv : sysRead form n i s1 = raise c o e s1) :
    exec (.sysr h form d a b) s = .next (s.takeTrap s.cur { cause := c, opnd := o, val := BitVec.ofNat 64 e } false) :=
    exec_sysr_raises hg hn hi hv
  refine ⟨fun hle hq => answers (readSeat_ok hle hq s1), fun hfixed h12 => answers ?fixed, fun hfree h12 => answers ?counted,
    fun hbeyond => raises (readSeat_beyond hbeyond s1), fun h0 => answers ?coreId, fun h1 => answers ?segb, fun h2 => answers ?dqh,
    fun h3 => answers ?dqt, fun h4 => answers ?inbox, fun hbeyond => raises (readCore_beyond hbeyond s1), ?slot, ?slotDenied,
    ?table, fun h3 hother hdom hw => raises ?engDenied, ?eng⟩
  case fixed => subst h12; rw [sysRead, readSeat_quota, hfixed]; rfl
  case counted => subst h12; rw [sysRead, readSeat_quota, hfree]; rfl
  case coreId => subst h0; rfl
  case segb => subst h1; exact readCore_segb s1
  case dqh => subst h2; rfl
  case dqt => subst h3; rfl
  case inbox => subst h4; rfl
  case slot =>
    intro k w hk hw hslot hdom
    subst hslot
    exact answers (by rw [sysRead, readCore_slot hk hw, if_neg (not_not.mpr hdom)])
  case slotDenied =>
    intro k w hk hw hslot hdom
    subst hslot
    exact raises (by rw [sysRead, readCore_slot hk hw, if_pos hdom])
  case engDenied => exact readEng_refused (by omega) hw (by omega) hother hdom
  case eng =>
    intro hmay hle e
    have hread (w : Nat) (hw : w ≤ 4) := readEng_ok hle hw hmay
    refine ⟨?_, ?_, ?_, ?_, ?_⟩ <;> rintro rfl <;> exact answers (hread _ (by decide))
  case table =>
    intro k w hiw hw hk
    subst hiw
    refine ⟨fun h1 hk1 hw1 => answers ?lrt, fun h2 hk2 hw2 => answers ?gate, fun h3 hk3 hw3 hdom => answers ?evbase,
      fun h3 hk3 hw3 hdom => answers ?evcap, fun h4 hdie hidx hw4 hdom hvd => answers ?lpt, ?reg, ?key,
      fun hlo hhi hok hdom => raises (readTable_refused hw hk (by omega) hhi hok hlo hdom)⟩
    case lrt => subst h1; exact readTable_lrt hw hk (by simp [State.tableOk, hk1, hw1])
    case gate => subst h2; exact readTable_gate hw hk (by simp [State.tableOk, hk2, hw2]) hw2
    case evbase => subst h3 hw3; exact readTable_events hw hk (by simp [State.tableOk, hk3]) hdom (.inl rfl)
    case evcap => subst h3 hw3; exact readTable_events hw hk (by simp [State.tableOk, hk3]) hdom (.inr rfl)
    case lpt => subst h4; exact readTable_lpt hw hk hdom hvd (by simp [State.tableOk, hdie, hidx, hw4])
    case reg =>
      intro h6 hk6 hw6 hdom hvd r
      subst h6
      have hok : s1.tableOk s1.me.vdev 6 k w = true := by simp [State.tableOk, hk6, hw6]
      refine (answers (form := .tab) (readTable_reg hw hk hdom hvd hok)).trans (congrArg (Say.answer h d · s1) ?_)
      rcases w with _ | _ | _ | _ | _ | w
      exacts [rfl, rfl, rfl, rfl, rfl, r.word_beyond w]
    case key =>
      intro h5 hk5 hw5 hdom hvd y
      subst h5
      have hok : s1.tableOk s1.me.vdev 5 k w = true := by simp [State.tableOk, hk5, hw5]
      refine (answers (form := .tab) (readTable_key hw hk hdom hvd hok)).trans ?_
      rw [KeySlot.word_eq]

end Sys2Proof.Machine
end

section
/-! PROOFS. What SYSW writes and refuses (R75, R76, R84, R86, R123, R146, R153, R161, R168, R358). -/
namespace Sys2Proof.Machine

theorem bitAt_eq_testBit (v i : Nat) : bitAt v i = v.testBit i := by
  rw [bitAt, Nat.testBit_eq_decide_div_mod_eq]
  rfl

/-! ### Seat registers (R75, R76, R84) -/

theorem Seat.setFlags_eq (x : Seat) (v : Nat) :
    x.setFlags v = { x with pred := BitVec.ofNat 8 (v % 2 ^ 8) ||| 1, ftz := v.testBit 8 } := by
  simp [Seat.setFlags, bitAt_eq_testBit, bitsAt]

theorem Rep.ofWord_eq_repCut (v : Nat) : Rep.ofWord v = Say.repCut v := by
  simp [Rep.ofWord, Say.repCut, bitsAt]

section
variable {v : Nat} {s : State}

theorem writeSeat_status :
    writeSeat 1 v s = .ok () (s.modMe (fun x => { x with pred := BitVec.ofNat 8 (v % 2 ^ 8) ||| 1, ftz := v.testBit 8 })) := by
  simp only [← Seat.setFlags_eq]
  rfl

theorem writeSeat_amax (hv : v ≤ 0x7FF0000000000000) :
    writeSeat 3 v s = .ok () (s.modMe (fun x => { x with amax := BitVec.ofNat 64 v })) := by
  have hsign : v.testBit 63 = false := Nat.testBit_lt_two_pow (by omega)
  have hgood : (!amaxBad v) = true := by simp [amaxBad, hsign, hv]
  exact M.bind_ok (need_ok hgood)

section
variable (hhnd : s.me.hnd = true)
include hhnd

/-- In the handler's trap EPC, ECAUSE, EVAL and REPC can be written (R84). -/
theorem writeSeat_handler {n : Nat} (hn : n = 4 ∨ n = 5 ∨ n = 6 ∨ n = 7) : writeSeat n v s = .ok () (s.modMe (fun x =>
    if n = 4 then { x with epc := Pc.ofWord v, rsm := false }
    else if n = 5 then { x with ecause := BitVec.ofNat 16 (v % 2 ^ 12) }
    else if n = 6 then { x with eval := BitVec.ofNat 64 v }
    else { x with repSys := Rep.ofWord v })) := by
  obtain ⟨hlt, h1, h2, h3⟩ : n < 14 ∧ n ≠ 1 ∧ n ≠ 2 ∧ n ≠ 3 := by omega
  simp only [writeSeat, M.bind_run, me_eq, hlt, decide_true, need_true, h1, h2, h3, if_false, hn, hhnd, and_self, if_true, modMe_eq]

theorem writeSeat_epc :
    writeSeat 4 v s = .ok () (s.modMe (fun x => { x with epc := ⟨v / 2 ^ 32 % 2 ^ 13, v % 2 ^ 32⟩, rsm := false })) :=
  Pc.ofWord_eq v ▸ writeSeat_handler hhnd (.inl rfl)

theorem writeSeat_ecause : writeSeat 5 v s = .ok () (s.modMe (fun x => { x with ecause := BitVec.ofNat 16 (v % 2 ^ 12) })) :=
  writeSeat_handler hhnd (.inr (.inl rfl))

theorem writeSeat_eval : writeSeat 6 v s = .ok () (s.modMe (fun x => { x with eval := BitVec.ofNat 64 v })) :=
  writeSeat_handler hhnd (.inr (.inr (.inl rfl)))

theorem writeSeat_repc : writeSeat 7 v s = .ok () (s.modMe (fun x => { x with repSys := Say.repCut v })) :=
  Rep.ofWord_eq_repCut v ▸ writeSeat_handler hhnd (.inr (.inr (.inr rfl)))
end

/-- The seat registers that SYSW cannot write, ever or for this issuer (R84). -/
theorem writeSeat_refused {n : Nat} (hlt : n < 14) (hfree : ¬ (1 ≤ n ∧ n ≤ 3))
    (hhnd : 4 ≤ n → n ≤ 7 → s.me.hnd = false) (hroot : n = 12 → s.me.root = false) :
    writeSeat n v s = raise .privilege 0 n s := by
  obtain ⟨h1, h2, h3⟩ : n ≠ 1 ∧ n ≠ 2 ∧ n ≠ 3 := by omega
  have h4 : ¬ ((n = 4 ∨ n = 5 ∨ n = 6 ∨ n = 7) ∧ s.me.hnd = true) := fun ⟨hn, ht⟩ => by
    simp [hhnd (by omega) (by omega)] at ht
  have h12 : ¬ (n = 12 ∧ s.me.root = true) := fun ⟨hn, ht⟩ => by simp [hroot hn] at ht
  simp only [writeSeat, M.bind_run, me_eq, hlt, decide_true, need_true, h1, h2, h3, h4, h12, if_false]

theorem writeSeat_quota (hroot : s.me.root = true) : writeSeat 12 v s =
    .ok () (if (s.quota s.me.vdev).fixed then s else s.modMe (fun x => { x with cyc := BitVec.ofNat 48 v })) := by
  simp [writeSeat, M.bind_run, hroot]
  cases (s.quota s.me.vdev).fixed <;> rfl
end

/-! ### Core registers (R86, R123) -/

section
variable {v : Nat} {s : State} (hdom : s.me.who.dom = 0)
include hdom

theorem writeCore_dqh (hcount : { s.myCore with dqh := v % 128 }.dqCount ≤ 64) :
    writeCore 2 v s = .ok () (s.modMyCore (fun x => { x with dqh := v % 128 })) := by
  simp [writeCore, M.bind_run, hdom, hcount]
  rfl

theorem writeCore_dqt (hcount : { s.myCore with dqt := v % 128 }.dqCount ≤ 64) :
    writeCore 3 v s = .ok () (s.modMyCore (fun x => { x with dqt := v % 128 })) := by
  simp [writeCore, M.bind_run, hdom, hcount]
  rfl
end

theorem writeCore_refused {n v : Nat} {s : State} (hn : n < 5) (hdom : s.me.who.dom ≠ 0) :
    writeCore n v s = raise .privilege 0 n s := by
  simp only [writeCore, M.bind_run, me_eq, hn, decide_true, Bool.true_or, need_true, hdom, and_false, if_false]

/-! ### Tables (R146, R153, R161, R166, R168) -/

theorem powerOf2_two_pow (e : Nat) : powerOf2 (2 ^ e) = true := by
  have hand : 2 ^ e &&& (2 ^ e - 1) = 0 := by rw [Nat.and_two_pow_sub_one_eq_mod, Nat.mod_self]
  have hpos : 2 ^ e ≠ 0 := (Nat.two_pow_pos e).ne'
  simp [powerOf2, hand]

section
variable {k v : Nat} {s : State}

/-- The word that a local region entry takes: bits 27:6 of the value over its own VDEV (R161). -/
def regionWord (old : BitVec 32) (v : Nat) : Nat := old.toNat / 2 ^ 28 * 2 ^ 28 + v / 2 ^ 6 % 2 ^ 22 * 2 ^ 6

theorem writeRegion_ok (hdom : s.me.who.dom = 0) (hvdev : (s.lrtEntry s.cur.core k).toNat / 2 ^ 28 = s.me.vdev)
    (hcover : (s.lrtEntry s.cur.core k).getLsbD 10 = true → regionWord (s.lrtEntry s.cur.core k) v ≠ (s.lrtEntry s.cur.core k).toNat →
      ∀ r, s.myCore.hinst = some r → k ∉ r.cover)
    (hlive : (regionWord (s.lrtEntry s.cur.core k) v).testBit 11 = true →
      s.domLive s.me.vdev (regionWord (s.lrtEntry s.cur.core k) v / 2 ^ 12 % 2 ^ 16) = true) :
    writeRegion k v s = .ok () (s.modMyCore (fun x =>
      { x with lrt := mapPut k (BitVec.ofNat 32 (regionWord (s.lrtEntry s.cur.core k) v)) x.lrt })) := by
  have hbits (o : BitVec 32) : o.toNat / 2 ^ 28 * 2 ^ 28 + bitsAt v 6 22 * 2 ^ 6 = regionWord o v := rfl
  have hdomBits (w : Nat) : bitsAt w 12 16 = w / 2 ^ 12 % 2 ^ 16 := rfl
  simp only [writeRegion, M.bind_run, me_eq, look_eq, hbits, hdomBits, bitAt_eq_testBit]
  rw [if_neg, change_eq]
  rintro (h | h | ⟨h10, hcov, hne⟩ | ⟨h11, hdead⟩)
  · exact h hdom
  · exact h hvdev
  · cases hinst : s.myCore.hinst with
    | none => simp [hinst] at hcov
    | some r => exact hcover h10 hne r hinst (by simpa [hinst] using hcov)
  · rw [hlive h11] at hdead
    cases hdead

theorem writeRegion_refused (hdom : s.me.who.dom ≠ 0) : writeRegion k v s = raise .privilege 0 (1 + k * 2 ^ 16) s := by
  simp only [writeRegion, M.bind_run, me_eq, look_eq]
  rw [if_pos (.inl hdom)]
  rfl

variable {w : Nat} (hw : w < 32) (hk : k < 2 ^ 32)
include hw hk

theorem writeTable_lrt (hok : s.tableOk s.me.vdev 1 k w = true) : writeTable 1 (32 * k + w) v s = writeRegion k v s :=
  M.bind_ok (tableIndex_ok hw hk (by decide) (by decide) hok)

theorem writeTable_gate (hok : s.tableOk s.me.vdev 2 k w = true) (h3 : w = 3) (hdom : s.me.who.dom = 0)
    (hlo : 1024 ≤ v % 2 ^ 32) (hhi : v % 2 ^ 32 ≤ 65536) (hfree : s.devSnooped 0 (s.gateAddr s.me.vdev k + 0x18) 4 = false) :
    writeTable 2 (32 * k + w) v s = .ok () (s.devWrite 0 (s.gateAddr s.me.vdev k + 0x18) (leBytes (v % 2 ^ 32) 4)) := by
  refine (M.bind_ok (tableIndex_ok hw hk (by decide) (by decide) hok)).trans ?_
  refine (M.bind_ok (me_eq s)).trans ?_
  rw [if_neg (by decide), if_pos rfl, if_neg (by simp [h3, hdom])]
  exact (M.bind_ok (need_ok (by simp only [hlo, hhi, decide_true, Bool.and_self]))).trans <|
    (M.bind_ok (look_eq _ s)).trans <| M.bind_ok (by rw [hfree]; rfl)

theorem writeTable_evbase (hok : s.tableOk s.me.vdev 3 k w = true) (h11 : w = 11) (hdom : s.me.who.dom = 0) (hv : v % 32 = 0) :
    writeTable 3 (32 * k + w) v s = .ok () (({ s with
      quotas := mapPut s.me.vdev { s.quota s.me.vdev with evbase := v } s.quotas } : State).flushEvents 257 s.me.vdev) := by
  refine (M.bind_ok (tableIndex_ok hw hk (by decide) (by decide) hok)).trans ?_
  simp [M.bind_run, h11, hdom, hv]

theorem writeTable_evcap (hok : s.tableOk s.me.vdev 3 k w = true) (h12 : w = 12) (hdom : s.me.who.dom = 0)
    (hpow : ∃ e, e < 32 ∧ v % 2 ^ 32 = 2 ^ e) (hlo : 64 ≤ v % 2 ^ 32) (hhi : v % 2 ^ 32 ≤ 65536) :
    writeTable 3 (32 * k + w) v s = .ok () (({ s with
      quotas := mapPut s.me.vdev { s.quota s.me.vdev with evcap := v % 2 ^ 32 } s.quotas } : State).flushEvents 257 s.me.vdev) := by
  obtain ⟨e, -, he⟩ := hpow
  have hp2 : powerOf2 (v % 2 ^ 32) = true := he ▸ powerOf2_two_pow e
  refine (M.bind_ok (tableIndex_ok hw hk (by decide) (by decide) hok)).trans ?_
  simp only [M.bind_run, me_eq, h12, hdom, hlo, hhi, hp2]
  rfl

theorem writeTable_reg (hok : s.tableOk s.me.vdev 6 k w = true) (hdom : s.me.who.dom = 0) (hvdev : s.me.vdev = 0) {r' : RegSlot}
    (hput : (mapGet ({} : RegSlot) k s.regs).put w v = some r') :
    writeTable 6 (32 * k + w) v s = .ok () { s with regs := mapSet {} k r' s.regs } := by
  have hroot : s.me.root = true := by simp [Seat.root, hdom, hvdev]
  refine (M.bind_ok (tableIndex_ok hw hk (by decide) (by decide) hok)).trans ?_
  simp [M.bind_run, hroot, hput]
end

/-! ### SYSW -/

/-- The index word that SYSW reads from the register it names (R358). -/
def readIndexWord (d : Option Nat) : M Nat :=
  match d with
  | some d => do let v ← readD d; pure v.toNat
  | none => pure 0

/-- What SYSW writes in each form (R358). -/
def sysWrite (form : SysForm) (n iw v : Nat) : M Unit :=
  match form with
  | .seat => writeSeat n v
  | .core => writeCore n v
  | .tab => writeTable n iw v
  | .eng => do
    need (decide (n ≤ 4)) 2 n
    raise .privilege 0 n

theorem exec_sysw_eq (h : Head) (form : SysForm) (d : Option Nat) (a b : Src) (s : State) :
    exec (.sysw h form d a b) s = issue h (do
      let iw ← readIndexWord d
      let n ← readN64 2 a
      let v ← readN64 3 b
      sysWrite form n iw v) s := by
  cases d with
  | none => cases form <;> rfl
  | some d =>
    refine (show _ = issue h _ s from rfl).trans (congrArg (issue h · s) ?_)
    simp only [readIndexWord, bind_assoc, pure_bind]
    cases form <;> rfl

theorem readIndexWord_full {d : Nat} {s : State} (hd : d < 64) (hf : s.me.full d = true) :
    readIndexWord (some d) s = .ok (s.me.reg d).toNat s :=
  M.bind_ok (readScal_full hd hf)

section
variable {h : Head} {form : SysForm} {n iw v : Nat} {d : Option Nat} {a b : Src} {s s0 s1 : State} (hg : guardOk h s.me = true)
  (hiw : readIndexWord d s = .ok iw s) (hn : readN64 2 a s = .ok n s0) (hv : readN64 3 b s0 = .ok v s1)
include hg hiw hn hv

theorem exec_sysw_ok {t : State} (hwrite : sysWrite form n iw v s1 = .ok () t) :
    exec (.sysw h form d a b) s = .next (t.advance h) := by
  rw [exec_sysw_eq]
  exact issue_ok hg ((M.bind_ok hiw).trans <| (M.bind_ok hn).trans <| (M.bind_ok hv).trans hwrite)

theorem exec_sysw_denied {e : Nat} (hwrite : sysWrite form n iw v s1 = raise .privilege 0 e s1) :
    exec (.sysw h form d a b) s = Say.denied s e := by
  rw [exec_sysw_eq]
  exact issue_stop (e := .trap _) (s' := s1) hg ((M.bind_ok hiw).trans <| (M.bind_ok hn).trans <| (M.bind_ok hv).trans hwrite)
end

theorem syswWritesRegisters : Say.syswWritesRegisters := by
  intro h n v iw k w dd a b s s0 s1 hg
  refine ⟨?registers, ?tables⟩
  case registers =>
    intro hn hv hlt seat
    have written {form : SysForm} {t : State} (hw : sysWrite form n 0 v s1 = .ok () t) :
        exec (.sysw h form none a b) s = .next (t.advance h) := exec_sysw_ok hg rfl hn hv hw
    have denied {form : SysForm} (hw : sysWrite form n 0 v s1 = raise .privilege 0 n s1) :
        exec (.sysw h form none a b) s = Say.denied s n := exec_sysw_denied hg rfl hn hv hw
    refine ⟨?status, ?fstat, ?amax, fun hhnd => ⟨?epc, ?eval, ?ecause, ?repc⟩, fun hhnd hlo hhi => denied ?noHandler,
      fun hfixed => denied ?fixed, ?quota, ?quotaFixed, ?quotaDenied, fun hdom => ⟨?dqh, ?dqt⟩,
      fun hdom hn5 => denied (writeCore_refused hn5 hdom), fun hn4 => denied (M.bind_ok (need_ok (decide_eq_true hn4)))⟩
    case status => rintro rfl; exact written writeSeat_status
    case fstat => rintro rfl; exact written (form := .seat) rfl
    case amax => rintro rfl hle; exact written (writeSeat_amax hle)
    case epc => rintro rfl; exact written (writeSeat_epc hhnd)
    case eval => rintro rfl; exact written (writeSeat_eval hhnd)
    case ecause => rintro rfl; exact written (writeSeat_ecause hhnd)
    case repc => rintro rfl; exact written (writeSeat_repc hhnd)
    case noHandler => exact writeSeat_refused (by omega) (by omega) (fun _ _ => hhnd) (by omega)
    case fixed =>
      obtain ⟨hlt, hfree, h4, h12⟩ : n < 14 ∧ ¬ (1 ≤ n ∧ n ≤ 3) ∧ ¬ (4 ≤ n ∧ n ≤ 7) ∧ n ≠ 12 := by
        simp only [List.mem_cons, List.not_mem_nil, or_false] at hfixed
        omega
      exact writeSeat_refused hlt hfree (fun hlo hhi => absurd ⟨hlo, hhi⟩ h4) (fun hn12 => absurd hn12 h12)
    case quota =>
      rintro rfl hdom hvd hfixed
      refine written ((writeSeat_quota (by simp [Seat.root, hdom, hvd])).trans ?_)
      rw [hvd, hfixed]
      rfl
    case quotaFixed =>
      rintro rfl hdom hvd hfixed
      refine written ((writeSeat_quota (by simp [Seat.root, hdom, hvd])).trans ?_)
      rw [hvd, hfixed]
      rfl
    case quotaDenied =>
      rintro rfl hother
      have hroot : s1.me.root = false := by
        rcases hother with hdom | hvd
        · simp [Seat.root, hdom]
        · simp [Seat.root, hvd]
      exact denied (writeSeat_refused (by decide) (by decide) (by omega) (fun _ => hroot))
    case dqh => rintro rfl hcount; exact written (writeCore_dqh hdom hcount)
    case dqt => rintro rfl hcount; exact written (writeCore_dqt hdom hcount)
  case tables =>
    intro hdd hfull hreg hsplit hw hk hn hv
    subst hsplit
    intro tab old new
    have hiw : readIndexWord (some dd) s = .ok (32 * k + w) s := hreg ▸ readIndexWord_full hdd hfull
    have written {t : State} (hwr : writeTable n (32 * k + w) v s1 = .ok () t) : tab t :=
      exec_sysw_ok (form := .tab) hg hiw hn hv hwr
    refine ⟨?region, ?regionDenied, ?gate, ?evbase, ?evcap, ?reg⟩
    case region =>
      rintro rfl hk64 hw0 hdom hvdev hcover hlive
      have hok : s1.tableOk s1.me.vdev 1 k w = true := by simp [State.tableOk, hk64, hw0]
      exact written ((writeTable_lrt hw hk hok).trans (writeRegion_ok hdom hvdev hcover hlive))
    case regionDenied =>
      rintro rfl hk64 hw0 hdom
      have hok : s1.tableOk s1.me.vdev 1 k w = true := by simp [State.tableOk, hk64, hw0]
      exact exec_sysw_denied (form := .tab) hg hiw hn hv ((writeTable_lrt hw hk hok).trans (writeRegion_refused hdom))
    case gate =>
      rintro rfl hcap h3 hdom hlo hhi hfree
      exact written (writeTable_gate hw hk (by simp [State.tableOk, hcap, h3]) h3 hdom hlo hhi hfree)
    case evbase =>
      rintro rfl hk0 h11 hdom hv32
      exact written (writeTable_evbase hw hk (by simp [State.tableOk, hk0, h11]) h11 hdom hv32)
    case evcap =>
      rintro rfl hk0 h12 hdom hpow hlo hhi
      exact written (writeTable_evcap hw hk (by simp [State.tableOk, hk0, h12]) h12 hdom hpow hlo hhi)
    case reg =>
      rintro r r' rfl hk256 hw8 hdom hvdev rfl hput
      exact written (writeTable_reg hw hk (by simp [State.tableOk, hk256, hw8]) hdom hvdev hput)

/-- Settles O37: SYSR and SYSW read their sources and then do what the selected register's own read or write does, register by
register. -/
theorem systemRegisters : Obligations.SystemRegisters := ⟨sysrReadsRegisters, syswWritesRegisters⟩

end Sys2Proof.Machine
end

section
/-! PROOFS. Trap entry (R69, R79, R201, R202). -/
namespace Sys2Proof.Machine

/-! ### Numbers in written memory -/

theorem memReads_getElem (m : Memory) (a n i : Nat) (hi : i < (memReads m a n).length) : (memReads m a n)[i] = memRead m (a + i) := by
  induction n generalizing a i with
  | zero => simp [memReads] at hi
  | succ n ih =>
    cases i with
    | zero => rfl
    | succ i =>
      refine (ih (a + 1) i _).trans ?_
      rw [Nat.add_assoc, Nat.add_comm 1]

theorem memReads_slice (m : Memory) (a : Nat) {n off len : Nat} (h : off + len ≤ n) :
    ((memReads m a n).drop off).take len = memReads m (a + off) len := by
  refine List.ext_getElem ?_ fun i hi hi' => ?_
  · simp [memReads_length]; omega
  · rw [List.getElem_take, List.getElem_drop, memReads_getElem, memReads_getElem, Nat.add_assoc]

/-- Part of the bytes written is read back at its place. -/
theorem memReads_memWrites_slice {m : Memory} (hm : m.wf = true) (a : Nat) (bs : List Byte) {off len : Nat} (h : off + len ≤ bs.length) :
    memReads (memWrites m a bs) (a + off) len = (bs.drop off).take len := by
  rw [← memReads_slice _ a h, memReads_memWrites a bs hm]

/-- The words of 8 bytes, one after the other. -/
def wordBytes (ws : List Nat) : List Byte := ws.flatMap (fun v => leBytes v 8)

theorem wordBytes_length (ws : List Nat) : (wordBytes ws).length = 8 * ws.length := by
  induction ws with
  | nil => rfl
  | cons v ws ih => simp [wordBytes, leBytes_length] at ih ⊢; omega

theorem wordBytes_slice (ws : List Nat) (i : Nat) (hi : i < ws.length) :
    ((wordBytes ws).drop (8 * i)).take 8 = leBytes ws[i] 8 := by
  induction ws generalizing i with
  | nil => simp at hi
  | cons v ws ih =>
    have hcons : wordBytes (v :: ws) = leBytes v 8 ++ wordBytes ws := rfl
    have hlen := leBytes_length v 8
    cases i with
    | zero => rw [hcons, Nat.mul_zero, List.drop_zero, List.take_append_of_le_length hlen.ge, List.take_of_length_le hlen.le]; rfl
    | succ i =>
      rw [hcons, show 8 * (i + 1) = (leBytes v 8).length + 8 * i by omega, List.drop_length_add_append]
      exact ih i (by simpa using hi)

/-- A word of several written reads as it was written. -/
theorem leNat_memReads_memWrites_words {m : Memory} (hm : m.wf = true) (a : Nat) (ws : List Nat) {i : Nat} (hi : i < ws.length) :
    leNat (memReads (memWrites m a (wordBytes ws)) (a + 8 * i) 8) = ws[i] % 2 ^ 64 := by
  rw [memReads_memWrites_slice hm _ _ (by rw [wordBytes_length]; omega), wordBytes_slice ws i hi, leNat_leBytes]
  rfl

theorem lkey_add (n off i : Nat) : lkey n (off + i) = lkey n off + i := (Nat.add_assoc ..).symm

/-! ### Writes of memory -/

/-- What a write of memory at any home keeps. -/
structure State.Written (s t : State) : Prop where
  cores : t.cores = s.cores
  acc : t.acc = s.acc
  wf : s.lmem.wf = true → t.lmem.wf = true

namespace State.Written

theorem refl (s : State) : s.Written s := ⟨rfl, rfl, id⟩

theorem trans {s t u : State} (h : s.Written t) (h' : t.Written u) : s.Written u :=
  ⟨h'.cores.trans h.cores, h'.acc.trans h.acc, h'.wf ∘ h.wf⟩

theorem foldl {α : Type} {f : State → α → State} (h : ∀ (t : State) a, t.Written (f t a)) (l : List α) (s : State) :
    s.Written (l.foldl f s) := by
  induction l generalizing s with
  | nil => exact refl s
  | cons a l ih => exact (h s a).trans (ih (f s a))

theorem frag (s : State) (f : Frag) (v : Nat) : s.Written (f.write s v) := by
  unfold Frag.write
  split
  · exact refl s
  · dsimp only
    cases f.home with
    | bank n => exact ⟨rfl, rfl, memWrites_wf _ _⟩
    | slice n => exact ⟨rfl, rfl, id⟩
    | host => exact ⟨rfl, rfl, id⟩
    | fabric n => exact ⟨rfl, rfl, id⟩

theorem loc (s : State) (v : Nat) (l : Loc) : s.Written (Loc.write s v l) := by
  induction l generalizing s v with
  | nil => exact refl s
  | cons f l ih => exact (frag s f v).trans (ih (f.write s v) (v / 2 ^ f.len))

theorem unpoison (s : State) (h : Home) (i : Nat) : s.Written (s.unpoison h i) := by
  cases h <;> exact ⟨rfl, rfl, id⟩

theorem writeUnit (s : State) (all : List Frag) (u : Loc) (v : Nat) : s.Written (s.writeUnit all u v) := by
  refine (loc s v u).trans (foldl (fun t f => foldl (fun t i => ?_) _ t) u _)
  split
  · exact unpoison t ..
  · exact refl t

end State.Written

/-! ### The boundary at which a seat stops (R69, R199, R204) -/

section
variable (x : Core) (k : Nat)

@[simp] theorem Core.unhold_hinst : (x.unhold k).hinst = x.hinst := by unfold Core.unhold; dsimp only; split <;> rfl
@[simp] theorem Core.unhold_seat (n : Nat) : (x.unhold k).seat n = x.seat n := by unfold Core.unhold; dsimp only; split <;> rfl
@[simp] theorem Core.unoffer_hinst : (x.unoffer k).hinst = x.hinst := by unfold Core.unoffer; split <;> rfl

theorem Core.unoffer_seat_hnd (hk : k < 4) : ((x.unoffer k).seat k).hnd = (x.seat k).hnd := by
  unfold Core.unoffer
  split
  · exact (congrArg Seat.hnd (Core.seat_modSeat_self x hk (fun t => { t with main := { t.main with blk := .none } }))).trans rfl
  · rfl

theorem Core.unoffer_of_ne (h : (x.seat k).main.blk ≠ .comparing) : x.unoffer k = x := if_neg h
end

theorem Seat.leftTile_hnd (x : Seat) (r : TileRun) (g : Nat) : (x.leftTile r g).hnd = x.hnd := by
  unfold Seat.leftTile Seat.setProg
  dsimp only
  split <;> split <;> rfl

/-- What a stop at a boundary keeps for the trap entry that follows it. -/
structure State.KeepsEntry (c k : Nat) (s t : State) : Prop where
  hinst : (t.core c).hinst = (s.core c).hinst
  hnd : (t.seat c k).hnd = (s.seat c k).hnd
  acc : t.acc = s.acc
  wf : s.lmem.wf = true → t.lmem.wf = true

section
variable {s t u : State} {c k : Nat}

theorem State.KeepsEntry.trans (h : s.KeepsEntry c k t) (h' : t.KeepsEntry c k u) : s.KeepsEntry c k u :=
  ⟨h'.hinst.trans h.hinst, h'.hnd.trans h.hnd, h'.acc.trans h.acc, h'.wf ∘ h.wf⟩

theorem State.Written.keepsEntry (h : s.Written t) : s.KeepsEntry c k t := by
  have hcore : t.core c = s.core c := by rw [State.core, State.core, h.cores]
  exact ⟨congrArg Core.hinst hcore, congrArg (fun x => (x.seat k).hnd) hcore, h.acc, h.wf⟩

theorem State.KeepsEntry.modCore {f : Core → Core} (hinst : (f (s.core c)).hinst = (s.core c).hinst)
    (hhnd : ((f (s.core c)).seat k).hnd = ((s.core c).seat k).hnd) : s.KeepsEntry c k (s.modCore c f) :=
  ⟨by rw [State.core_modCore_self, hinst], by rw [State.seat, State.core_modCore_self, hhnd]; rfl, rfl, id⟩

theorem State.settleTile_of_other (h : ∀ q, (s.core c).tile = some q → q.seat ≠ k) : s.settleTile c k = s := by
  unfold State.settleTile
  cases htile : (s.core c).tile with
  | none => rfl
  | some q => exact if_pos (h q htile)

theorem State.settleTile_keepsEntry (hk : k < 4) : s.KeepsEntry c k (s.settleTile c k) := by
  unfold State.settleTile
  have hstop {t : State} (ht : s.Written t) (q : TileRun) (g : Nat) : s.KeepsEntry c k
      (t.modCore c (fun x => { x.modSeat k (fun t => t.leftTile q g) with tile := none })) := by
    refine ht.keepsEntry.trans (.modCore rfl ?_)
    exact (congrArg Seat.hnd (Core.seat_modSeat_self (t.core c) hk (·.leftTile q g))).trans (Seat.leftTile_hnd ..)
  cases (s.core c).tile with
  | none => exact (State.Written.refl s).keepsEntry
  | some q =>
    dsimp only
    split
    · exact (State.Written.refl s).keepsEntry
    · cases q.phase with
      | writes all todo => exact hstop (.foldl (fun t u => .writeUnit ..) _ s) q _
      | _ => exact hstop (.refl s) q _

theorem State.settle_keepsEntry (hk : k < 4) : s.KeepsEntry c k (s.settle c k) :=
  (State.settleTile_keepsEntry hk).trans (.modCore (by simp) (by rw [Core.unoffer_seat_hnd _ _ hk, Core.unhold_seat]))

/-- Without a tile instruction of the seat a stop writes no memory, and changes the seat only where a store waits for its
comparison. -/
theorem State.settle_of_other (h : ∀ q, (s.core c).tile = some q → q.seat ≠ k) :
    s.settle c k = s.modCore c (fun x => (x.unhold k).unoffer k) := by
  rw [State.settle, State.settleTile_of_other h]

theorem State.seat_settle_of_other (h : ∀ q, (s.core c).tile = some q → q.seat ≠ k) (hblk : (s.seat c k).main.blk ≠ .comparing) :
    (s.settle c k).seat c k = s.seat c k := by
  rw [State.settle_of_other h, State.seat, State.core_modCore_self, Core.unoffer_of_ne _ _ (by rw [Core.unhold_seat]; exact hblk),
    Core.unhold_seat]
  rfl
end

/-! ### EPC of a gang's members (R26) -/

/-- States whose seat differs in EPC alone: what precedes a trap entry. -/
structure State.EpcOnly (c k : Nat) (s t : State) : Prop where
  seat : ∃ e, t.seat c k = { s.seat c k with epc := e }
  status : (t.core c).status k = (s.core c).status k
  lmem : t.lmem = s.lmem
  acc : t.acc = s.acc
  dram : t.dram = s.dram
  host : t.host = s.host
  fabric : t.fabric = s.fabric

/-- A core whose gang seat records the EPC of its leader. -/
def Core.gangEpc (x : Core) (n : Nat) (pc : Pc) : Core :=
  match x.gang with
  | some h => if h.leader = n then x.modSeat h.seat (fun t => { t with epc := pc }) else x
  | none => x

theorem Core.seat_modSeat_epc (x : Core) (j k : Nat) (pc : Pc) :
    ∃ e, (x.modSeat j (fun t => { t with epc := pc })).seat k = { x.seat k with epc := e } := by
  by_cases hj : k = j
  · subst hj
    by_cases hk : k < 4
    · exact ⟨pc, Core.seat_modSeat_self x hk _⟩
    · have hge : 4 ≤ k := by omega
      refine ⟨(x.seat k).epc, ?_⟩
      simp [Core.seat, Core.modSeat, vget_ge _ hge]
  · exact ⟨(x.seat k).epc, Core.seat_modSeat_ne x hj _⟩

theorem Core.seat_gangEpc (x : Core) (n k : Nat) (pc : Pc) : ∃ e, (x.gangEpc n pc).seat k = { x.seat k with epc := e } := by
  unfold Core.gangEpc
  split
  · split
    · exact Core.seat_modSeat_epc x _ k pc
    · exact ⟨(x.seat k).epc, rfl⟩
  · exact ⟨(x.seat k).epc, rfl⟩

theorem Core.gangEpc_eq (x : Core) (n : Nat) (pc : Pc) : ∃ v, x.gangEpc n pc = { x with seats := v } := by
  unfold Core.gangEpc
  split
  · split
    · exact ⟨_, rfl⟩
    · exact ⟨x.seats, rfl⟩
  · exact ⟨x.seats, rfl⟩

/-- STATUS does not depend on EPC. -/
theorem Core.status_gangEpc (x : Core) (n k : Nat) (pc : Pc) : (x.gangEpc n pc).status k = x.status k := by
  obtain ⟨e, hseat⟩ := x.seat_gangEpc n k pc
  obtain ⟨v, hcore⟩ := x.gangEpc_eq n pc
  unfold Core.status
  rw [hseat, hcore]

theorem State.EpcOnly.gangEpc (s : State) (a : Agent) (pc : Pc) (c k : Nat) : s.EpcOnly c k (s.gangEpc a pc) := by
  have hrefl : s.EpcOnly c k s := ⟨⟨(s.seat c k).epc, rfl⟩, rfl, rfl, rfl, rfl, rfl, rfl⟩
  unfold State.gangEpc
  split
  · next g hg =>
    split
    · have hcore : (s.modCores (fun _ x => x.gangEpc g.leader pc)).core c = (s.core c).gangEpc g.leader pc :=
        mapGet_mapVals (fun _ (x : Core) => x.gangEpc g.leader pc) (d := {}) (k := c) rfl s.cores
      show s.EpcOnly c k (s.modCores (fun _ x => x.gangEpc g.leader pc))
      obtain ⟨e, hseat⟩ := (s.core c).seat_gangEpc g.leader k pc
      exact ⟨⟨e, by rw [State.seat, hcore, hseat]; rfl⟩, by rw [hcore, Core.status_gangEpc], rfl, rfl, rfl, rfl, rfl⟩
    · exact hrefl
  · exact hrefl

/-! ### The handler data area (R201) -/

/-- The words that a trap entry saves: s56 to s63, STATUS, FSTAT, SEGB. -/
def Seat.savedWords (x : Seat) (status : Nat) : List Nat :=
  (upto 8).map (fun i => (x.reg (56 + i)).toNat) ++ [status, x.fstat.toNat, x.segb]

theorem Seat.savedWords_length (x : Seat) (status : Nat) : (x.savedWords status).length = 11 := rfl

theorem State.handlerArea_eq (s : State) (c k : Nat) :
    s.handlerArea c k = wordBytes ((s.seat c k).savedWords ((s.core c).status k)) := by
  simp [State.handlerArea, wordBytes, Seat.savedWords, List.flatMap_map]

theorem State.handlerArea_length (s : State) (c k : Nat) : (s.handlerArea c k).length = 88 := by
  rw [State.handlerArea_eq, wordBytes_length, Seat.savedWords_length]

theorem Core.status_lt (x : Core) (k : Nat) : x.status k < 2 ^ 64 := by
  have hlevel : (if (x.seat k).occ = .free then 0 else levelOf (x.seat k).vdev (x.seat k).curdom) ≤ 2 := by
    unfold levelOf
    split
    · omega
    · split
      · omega
      · split <;> omega
  have hpred := (x.seat k).pred.isLt
  have hftz := (x.seat k).ftz.toNat_le
  have hrsm := (x.seat k).rsm.toNat_le
  have hhnd := (x.seat k).hnd.toNat_le
  have hholder := (x.mat.holder == some k).toNat_le
  have hmat := (x.seat k).mat.live.toNat_le
  have hcpy := (x.seat k).cpy.live.toNat_le
  have hgang := (x.seat k).gang.toNat_le
  have hlead := (x.seat k).lead.toNat_le
  unfold Core.status
  cases x.pair with
  | none => dsimp only; omega
  | some p => have hon := p.on.toNat_le; dsimp only; omega

/-- A seat's words in its part of the data area (R201). -/
theorem areaHolds_of_words {t : State} {c area status : Nat} {x : Seat} (hstatus : status < 2 ^ 64)
    (hwords : ∀ i (hi : i < (x.savedWords status).length), t.locNum c (area + 8 * i) 8 = (x.savedWords status)[i] % 2 ^ 64) :
    Say.AreaHolds t c area x status := by
  have hlen := x.savedWords_length status
  refine ⟨fun i hi => ?_, ?_, ?_, hwords 10 (by omega)⟩
  · have hreg : (x.savedWords status)[i]'(by omega) = (x.reg (56 + i)).toNat := by simp [Seat.savedWords, upto, hi]
    rw [hwords i (by omega), hreg]
    exact Nat.mod_eq_of_lt (x.reg (56 + i)).isLt
  · exact (hwords 8 (by omega)).trans (Nat.mod_eq_of_lt hstatus)
  · exact (hwords 9 (by omega)).trans (Nat.mod_eq_of_lt (x.fstat.isLt.trans (by decide)))

/-! ### Trap entry (R202) -/

section
variable {s : State} {c k : Nat} {inst : HRec} {p : PendTrap}

theorem State.seat_enterTrap (hk : k < 4) : (s.enterTrap c k inst p).seat c k = (s.seat c k).entered inst p :=
  State.seat_modSeat_self (s.locWrite c (inst.area k) (s.handlerArea c k)) c hk _

theorem State.areaHolds_enterTrap (hwf : s.lmem.wf = true) :
    Say.AreaHolds (s.enterTrap c k inst p) c (inst.area k) (s.seat c k) ((s.core c).status k) := by
  refine areaHolds_of_words (Core.status_lt ..) fun i hi => ?_
  have hmem : (s.enterTrap c k inst p).lmem = memWrites s.lmem (lkey c (inst.area k)) (s.handlerArea c k) := rfl
  rw [State.locNum, State.locRead, hmem, State.handlerArea_eq, lkey_add]
  exact leNat_memReads_memWrites_words hwf _ _ hi

theorem State.memRead_enterTrap_of_outside {m : Nat} (hm : m < lkey c (inst.area k) ∨ lkey c (inst.area k) + 88 ≤ m) :
    memRead (s.enterTrap c k inst p).lmem m = memRead s.lmem m :=
  memRead_memWrites_of_outside _ (by rw [State.handlerArea_length]; exact hm) _
end

theorem Trap.ecause_eq (t : Trap) (k : StrandK) : t.ecause k =
    BitVec.ofNat 16 ((match k with | .main => 0 | .matrix => 1 | .copy => 2) * 256 + t.opnd * 1024 + t.cause.code) := by
  cases k <;> rfl

theorem Seat.topFull_iff (x : Seat) : x.topFull = true ↔ ∀ i, 56 ≤ i → i < 64 → x.full i = true := by
  simp only [Seat.topFull, upto, List.all_eq_true, List.mem_range]
  constructor
  · intro h i hlo hhi
    have hi := h (i - 56) (by omega)
    rwa [show 56 + (i - 56) = i by omega] at hi
  · exact fun h i hi => h (56 + i) (by omega) (by omega)

/-- The state from which a trap is entered: at the seat's boundary, its walks and log requests withdrawn, its gang's EPC set. -/
def State.beforeEntry (s : State) (a : Agent) (save : Bool) : State :=
  let s0 := s.settle a.core a.seat
  let s1 := { s0 with
    walks := s0.walks.filter (fun w => !(w.core == a.core && w.seat == a.seat))
    logs := s0.logs.filter (fun r => !(r.core == a.core && r.seat == a.seat)) }
  if save then s1 else s1.gangEpc a (s0.strand a).pc

theorem State.epcOnly_beforeEntry (s : State) (a : Agent) (save : Bool) :
    (s.settle a.core a.seat).EpcOnly a.core a.seat (s.beforeEntry a save) := by
  unfold State.beforeEntry
  dsimp only
  split
  · exact ⟨⟨_, rfl⟩, rfl, rfl, rfl, rfl, rfl, rfl⟩
  · obtain ⟨hseat, hstatus, hlmem, hacc, hdram, hhost, hfabric⟩ := State.EpcOnly.gangEpc
      { s.settle a.core a.seat with
        walks := (s.settle a.core a.seat).walks.filter (fun w => !(w.core == a.core && w.seat == a.seat))
        logs := (s.settle a.core a.seat).logs.filter (fun r => !(r.core == a.core && r.seat == a.seat)) }
      a ((s.settle a.core a.seat).strand a).pc a.core a.seat
    exact ⟨hseat, hstatus, hlmem, hacc, hdram, hhost, hfabric⟩

/-- With a handler, outside it, a trap enters it or waits to (R202). -/
theorem State.takeTrap_eq {s : State} {a : Agent} {t : Trap} {save : Bool} {r : HRec}
    (hinst : ((s.settle a.core a.seat).core a.core).hinst = some r) (hhnd : ((s.settle a.core a.seat).seat a.core a.seat).hnd = false) :
    s.takeTrap a t save =
      let p : PendTrap := { trap := t, strn := a.strn, pc := ((s.settle a.core a.seat).strand a).pc, save := save }
      if ((s.settle a.core a.seat).seat a.core a.seat).topFull then (s.beforeEntry a save).enterTrap a.core a.seat r p
      else (s.beforeEntry a save).modSeat a.core a.seat (fun x => { x with pend := some p }) := by
  unfold State.takeTrap
  dsimp only
  rw [hinst]
  dsimp only
  rw [hhnd]
  rfl

theorem trapEntrySavesState : Say.trapEntrySavesState := by
  intro s a t save r hk hwf hinst hhnd s0 x u y
  obtain ⟨khinst, khnd, kacc, kwf⟩ := State.settle_keepsEntry (s := s) (c := a.core) hk
  obtain ⟨⟨e, hseat⟩, hstatus, hlmem, hacc, hdram, hhost, hfabric⟩ := s.epcOnly_beforeEntry a save
  have htake := State.takeTrap_eq (t := t) (save := save) (khinst.trans hinst) (khnd.trans hhnd)
  dsimp only at htake
  generalize s.beforeEntry a save = w at *
  generalize hp : ({ trap := t, strn := a.strn, pc := ((s.settle a.core a.seat).strand a).pc, save := save } : PendTrap) = p at htake
  refine ⟨fun hfull => ?_, fun ⟨i, hlo, hhi, hempty⟩ => ?_, fun hother => ?_⟩
  · have hu : u = w.enterTrap a.core a.seat r p := htake.trans (if_pos (x.topFull_iff.mpr hfull))
    have hy : y = (w.seat a.core a.seat).entered r p := (congrArg (·.seat a.core a.seat) hu).trans (State.seat_enterTrap hk)
    rw [hy, hu, hseat]
    have harea := State.areaHolds_enterTrap (s := w) (c := a.core) (k := a.seat) (inst := r) (p := p) (hlmem ▸ kwf hwf)
    rw [hseat, hstatus] at harea
    subst hp
    refine ⟨rfl, rfl, rfl, rfl, Trap.ecause_eq t a.strn, ?repSys, rfl, rfl, rfl, fun i hi => rfl, harea, fun m hm => ?frame,
      hacc.trans kacc, hdram, hhost, hfabric⟩
    case repSys => cases a.strn <;> rfl
    case frame => exact (State.memRead_enterTrap_of_outside hm).trans (congrArg (memRead · m) hlmem)
  · have hnot : ¬ x.topFull = true := fun h => by rw [x.topFull_iff.mp h i hlo hhi] at hempty; cases hempty
    have hu : u = w.modSeat a.core a.seat (fun x => { x with pend := some p }) := htake.trans (if_neg hnot)
    have hy : y = { w.seat a.core a.seat with pend := some p } :=
      (congrArg (·.seat a.core a.seat) hu).trans (State.seat_modSeat_self w _ hk _)
    rw [hy, hu, hseat]
    exact ⟨khnd.trans hhnd, congrArg some hp.symm, rfl, hlmem⟩
  · have hs0 : s0 = s.modCore a.core (fun x => (x.unhold a.seat).unoffer a.seat) := State.settle_of_other hother
    exact ⟨by rw [hs0]; rfl, by rw [hs0]; rfl, by rw [hs0]; rfl, by rw [hs0]; rfl, State.seat_settle_of_other hother⟩

end Sys2Proof.Machine
end

section
/-! PROOFS. TRAP and the return from a handler's trap (R79, R201 to R203, R306, R359). -/
namespace Sys2Proof.Machine

/-! ### What an issued word leaves for the return (R217) -/

/-- Two seats that a handler's return treats alike. -/
structure Seat.KeepsReturn (x y : Seat) : Prop where
  scal : y.scal = x.scal
  scalFe : y.scalFe = x.scalFe
  rsm : y.rsm = x.rsm
  epc : y.epc = x.epc
  repSys : y.repSys = x.repSys
  ending : y.ending = x.ending

theorem Seat.KeepsReturn.modStrand (x : Seat) (k : StrandK) (f : Strand → Strand) : x.KeepsReturn (x.modStrand k f) :=
  ⟨by simp, by simp, by simp, by simp, by simp, by simp⟩

/-- A state after steps that keep what a handler's return reads. -/
structure State.KeepsReturn (s t : State) : Prop where
  cur : t.cur = s.cur
  me : s.me.KeepsReturn t.me
  ctxs : t.myCore.ctxs = s.myCore.ctxs
  mat : t.myCore.mat = s.myCore.mat
  lmem : t.lmem = s.lmem
  acc : t.acc = s.acc
  dram : t.dram = s.dram
  host : t.host = s.host
  fabric : t.fabric = s.fabric

theorem State.KeepsReturn.trans {s t u : State} (h : s.KeepsReturn t) (h' : t.KeepsReturn u) : s.KeepsReturn u where
  cur := h'.cur.trans h.cur
  me := ⟨h'.me.scal.trans h.me.scal, h'.me.scalFe.trans h.me.scalFe, h'.me.rsm.trans h.me.rsm, h'.me.epc.trans h.me.epc,
    h'.me.repSys.trans h.me.repSys, h'.me.ending.trans h.me.ending⟩
  ctxs := h'.ctxs.trans h.ctxs
  mat := h'.mat.trans h.mat
  lmem := h'.lmem.trans h.lmem
  acc := h'.acc.trans h.acc
  dram := h'.dram.trans h.dram
  host := h'.host.trans h.host
  fabric := h'.fabric.trans h.fabric

theorem State.KeepsReturn.modMe {s : State} (hk : s.cur.seat < 4) {f : Seat → Seat} (hf : ∀ x : Seat, x.KeepsReturn (f x)) :
    s.KeepsReturn (s.modMe f) where
  cur := rfl
  me := by rw [State.me_modMe s hk]; exact hf _
  ctxs := by rw [State.myCore_modMe]; rfl
  mat := by rw [State.myCore_modMe]; rfl
  lmem := rfl
  acc := rfl
  dram := rfl
  host := rfl
  fabric := rfl

section
variable {s t : State} (h : s.KeepsReturn t)
include h

theorem State.KeepsReturn.modSeat (hk : s.cur.seat < 4) {f : Seat → Seat} (hf : ∀ x : Seat, x.KeepsReturn (f x)) :
    s.KeepsReturn (t.modSeat s.cur.core s.cur.seat f) := by
  rw [← h.cur]
  exact h.trans (.modMe (h.cur ▸ hk) hf)

/-- The core's note of the seat that issued last. -/
theorem State.KeepsReturn.setLast (k : Nat) : s.KeepsReturn (t.modCore s.cur.core (fun x => { x with last := k })) := by
  rw [← h.cur]
  have hcore : (t.modMyCore (fun x => { x with last := k })).myCore = { t.myCore with last := k } := State.core_modCore_self ..
  have hme : (t.modMyCore (fun x => { x with last := k })).me = t.me := show (State.myCore _).seat _ = _ by rw [hcore]; rfl
  have hkeeps : t.KeepsReturn (t.modMyCore (fun x => { x with last := k })) :=
    ⟨rfl, by rw [hme]; exact ⟨rfl, rfl, rfl, rfl, rfl, rfl⟩, by rw [hcore], by rw [hcore], rfl, rfl, rfl, rfl, rfl⟩
  exact h.trans hkeeps
end

theorem State.KeepsReturn.hints {s : State} (hk : s.cur.seat < 4) (h : Head) : s.KeepsReturn (s.hints h) := by
  unfold State.hints State.modStrand
  dsimp only
  have hbase (w : List Walk) (l : List LogReq) : s.KeepsReturn { s with did := true, walks := w, logs := l } :=
    ⟨rfl, ⟨rfl, rfl, rfl, rfl, rfl, rfl⟩, rfl, rfl, rfl, rfl, rfl, rfl, rfl⟩
  have hhint (x : Seat) : x.KeepsReturn { x with age := 0, pri := h.pri, yld := h.yld, resume := false } :=
    ⟨rfl, rfl, rfl, rfl, rfl, rfl⟩
  split
  · exact (((hbase _ _).modSeat hk fun x => .modStrand x _ _).modSeat hk hhint).setLast _
  · exact (hbase _ _).modSeat hk fun x => .modStrand x _ _

/-! ### Writes that waited for the return (R201, R202) -/

/-- A write that completed while the handler ran: a register, a predicate (R201, R202). -/
def Seat.finished (x : Seat) (e : Option (Nat × Word) × Option (Nat × Bool)) : Seat :=
  let x1 := match e.1 with | some (n, v) => x.setReg n v | none => x
  match e.2 with | some (n, b) => x1.setP n b | none => x1

theorem lastOf_cons {β : Type} (e : Option (Nat × β)) (l : List (Option (Nat × β))) (n : Nat) (old : β) :
    Say.lastOf (e :: l) n old = Say.lastOf l n (Say.lastOf [e] n old) := by
  rcases e with _ | ⟨m, v⟩
  · rfl
  · by_cases hm : m = n
    · simp [Say.lastOf, hm, List.getLast?_cons]
    · simp [Say.lastOf, hm]

theorem Seat.finished_eq (x : Seat) (e : Option (Nat × Word) × Option (Nat × Bool)) :
    ∃ sc pr, x.finished e = { x with scal := sc, pred := pr } := by
  obtain ⟨_ | ⟨m, v⟩, _ | ⟨n, b⟩⟩ := e
  · exact ⟨_, _, rfl⟩
  · simp only [Seat.finished, Seat.setP]
    split <;> exact ⟨_, _, rfl⟩
  · exact ⟨_, _, rfl⟩
  · simp only [Seat.finished, Seat.setP]
    split <;> exact ⟨_, _, rfl⟩

theorem Seat.p_setP (x : Seat) (m : Nat) (b : Bool) {n : Nat} (hlo : 1 ≤ n) (hhi : n < 8) :
    (x.setP m b).p n = if m = n then b else x.p n := by
  have hn0 : n ≠ 0 := by omega
  have hbit : (BitVec.twoPow 8 m).getLsbD n = decide (m = n) := by simpa [hhi] using eq_comm
  unfold Seat.setP
  by_cases hm : m = 0 ∨ 8 ≤ m
  · have hne : m ≠ n := by omega
    rw [if_pos hm, if_neg hne]
  · rw [if_neg hm]
    unfold Seat.p
    rw [if_neg hn0, if_neg hn0]
    cases b
    · rw [if_neg Bool.false_ne_true, BitVec.getLsbD_and, BitVec.getLsbD_not, hbit]
      by_cases hmn : m = n <;> simp [hmn, hhi]
    · rw [if_pos rfl, BitVec.getLsbD_or, hbit]
      by_cases hmn : m = n <;> simp [hmn]

theorem Seat.reg_finished (x : Seat) (e : Option (Nat × Word) × Option (Nat × Bool)) {n : Nat} (hn : n < 64) :
    (x.finished e).reg n = Say.lastOf [e.1] n (x.reg n) := by
  obtain ⟨d, q⟩ := e
  have hp (y : Seat) : (match q with | some (n, b) => y.setP n b | none => y).reg n = y.reg n := by
    cases q <;> simp [Seat.reg]
  refine (hp _).trans ?_
  rcases d with _ | ⟨m, v⟩
  · rfl
  · by_cases hm : m = n
    · exact hm ▸ (Seat.reg_setReg_self x (hm ▸ hn) v).trans (by simp [Say.lastOf])
    · exact (Seat.reg_setReg_ne x (Ne.symm hm) v).trans (by simp [Say.lastOf, hm])

theorem Seat.p_finished (x : Seat) (e : Option (Nat × Word) × Option (Nat × Bool)) {n : Nat} (hlo : 1 ≤ n) (hhi : n < 8) :
    (x.finished e).p n = Say.lastOf [e.2] n (x.p n) := by
  obtain ⟨d, q⟩ := e
  have hd : (match d with | some (n, v) => x.setReg n v | none => x).p n = x.p n := by cases d <;> rfl
  rcases q with _ | ⟨m, b⟩
  · exact hd
  · refine (Seat.p_setP _ m b hlo hhi).trans ?_
    by_cases hm : m = n
    · simp [Say.lastOf, hm]
    · rw [if_neg hm]
      exact hd.trans (by simp [Say.lastOf, hm])

/-- Writes that waited change scalars and predicates alone. -/
theorem Seat.foldl_finished_eq (l : List (Option (Nat × Word) × Option (Nat × Bool))) (x : Seat) :
    ∃ sc pr, l.foldl Seat.finished x = { x with scal := sc, pred := pr } := by
  induction l generalizing x with
  | nil => exact ⟨_, _, rfl⟩
  | cons e l ih =>
    obtain ⟨sc, pr, he⟩ := x.finished_eq e
    obtain ⟨sc', pr', hl⟩ := ih (x.finished e)
    exact ⟨sc', pr', by rw [List.foldl_cons, hl, he]⟩

theorem Seat.reg_foldl_finished (l : List (Option (Nat × Word) × Option (Nat × Bool))) (x : Seat) {n : Nat} (hn : n < 64) :
    (l.foldl Seat.finished x).reg n = Say.lastOf (l.map (·.1)) n (x.reg n) := by
  induction l generalizing x with
  | nil => rfl
  | cons e l ih => rw [List.foldl_cons, ih, Seat.reg_finished x e hn, List.map_cons, ← lastOf_cons]

theorem Seat.p_foldl_finished (l : List (Option (Nat × Word) × Option (Nat × Bool))) (x : Seat) {n : Nat} (hlo : 1 ≤ n) (hhi : n < 8) :
    (l.foldl Seat.finished x).p n = Say.lastOf (l.map (·.2)) n (x.p n) := by
  induction l generalizing x with
  | nil => rfl
  | cons e l ih => rw [List.foldl_cons, ih, Seat.p_finished x e hlo hhi, List.map_cons, ← lastOf_cons]

/-! ### The registers that the data area holds (R201, R202) -/

/-- s56 to s63 from the handler data area. -/
def Seat.topRestored (x : Seat) (hs : List Byte) (n : Nat) : Seat :=
  (upto n).foldl (fun (x : Seat) i => (x.setReg (56 + i) (BitVec.ofNat 64 (numAt hs (8 * i) 8))).setFull (56 + i) true) x

theorem Seat.topRestored_succ (x : Seat) (hs : List Byte) (n : Nat) : x.topRestored hs (n + 1) =
    ((x.topRestored hs n).setReg (56 + n) (BitVec.ofNat 64 (numAt hs (8 * n) 8))).setFull (56 + n) true := by
  simp [Seat.topRestored, upto, List.range_succ]

theorem Seat.topRestored_eq (x : Seat) (hs : List Byte) (n : Nat) :
    ∃ sc fe, x.topRestored hs n = { x with scal := sc, scalFe := fe } := by
  induction n with
  | zero => exact ⟨_, _, rfl⟩
  | succ n ih =>
    obtain ⟨sc, fe, h⟩ := ih
    exact ⟨_, _, by rw [Seat.topRestored_succ, h]; rfl⟩

theorem Seat.reg_topRestored (x : Seat) (hs : List Byte) {n i : Nat} (hn : n ≤ 8) (hi : i < n) :
    (x.topRestored hs n).reg (56 + i) = BitVec.ofNat 64 (numAt hs (8 * i) 8) ∧ (x.topRestored hs n).full (56 + i) = true := by
  induction n with
  | zero => omega
  | succ n ih =>
    rw [Seat.topRestored_succ]
    have hlt : 56 + n < 64 := by omega
    by_cases hin : i = n
    · subst hin
      exact ⟨Seat.reg_setReg_self _ hlt _, vget_vset_self _ hlt _ _⟩
    · obtain ⟨hreg, hfull⟩ := ih (by omega) (by omega)
      have hne : 56 + i ≠ 56 + n := by omega
      exact ⟨(Seat.reg_setReg_ne _ hne _).trans hreg, (vget_vset_ne _ hne _ _).trans hfull⟩

theorem Seat.reg_topRestored_below (x : Seat) (hs : List Byte) (n : Nat) {i : Nat} (hi : i < 56) :
    (x.topRestored hs n).reg i = x.reg i := by
  induction n with
  | zero => rfl
  | succ n ih =>
    rw [Seat.topRestored_succ]
    exact (Seat.reg_setReg_ne _ (by omega) _).trans ih

/-! ### ERET (R202) -/

/-- A seat back at what its trap interrupted, before the writes that waited. -/
def Seat.recalled (x : Seat) (h : Held) (hs : List Byte) : Seat :=
  let x2 := (x.topRestored hs 8).setFlags (numAt hs 0x40 8)
  let x3 := { x2 with
    fstat := BitVec.ofNat 7 (numAt hs 0x48 8), segb := numAt hs 0x50 8 % 2 ^ 16, hnd := false
    resume := x.rsm && (h.res || (!h.save && h.strn == StrandK.main))
    rsm := false, held := none, main := { x.main with pc := h.mpc, rep := h.mrep, blk := h.mblk, fbuf := [] }, repSys := {} }
  let back := if h.strn = StrandK.main then h.ret.getD x.epc else x.epc
  let x4 := x3.modStrand h.strn (fun t => { t with pc := back, rep := x.repSys, blk := .none, fbuf := [] })
  if h.save then x4.modStrand StrandK.main (fun t => { t with blk := h.mblk }) else x4

theorem Seat.returned_eq (x : Seat) (h : Held) (hs : List Byte) :
    x.returned h hs = h.fins.foldl Seat.finished (x.recalled h hs) := rfl

section
variable (x : Seat) (h : Held) (hs : List Byte)

theorem Seat.recalled_fields : let y := x.recalled h hs
    y.hnd = false ∧ y.rsm = false ∧ y.held = none ∧ y.resume = (x.rsm && (h.res || (!h.save && h.strn == .main))) ∧
    y.ending = x.ending ∧ y.fstat = BitVec.ofNat 7 (numAt hs 0x48 8) ∧ y.segb = numAt hs 0x50 8 % 2 ^ 16 ∧
    y.ftz = (numAt hs 0x40 8).testBit 8 ∧ y.scal = (x.topRestored hs 8).scal ∧ y.scalFe = (x.topRestored hs 8).scalFe ∧
    y.pred = BitVec.ofNat 8 (numAt hs 0x40 8 % 2 ^ 8) ||| 1 := by
  obtain ⟨sc, fe, htop⟩ := x.topRestored_eq hs 8
  unfold Seat.recalled
  rw [htop, Seat.setFlags_eq]
  cases h.save <;> simp

theorem Seat.recalled_strands : let y := x.recalled h hs
    y.main.blk = (if h.strn = .main ∧ h.save = false then .none else h.mblk) ∧
    (y.strand h.strn).pc = (if h.strn = .main then h.ret.getD x.epc else x.epc) ∧ (y.strand h.strn).rep = x.repSys ∧
    (h.strn ≠ .main → y.main.pc = h.mpc ∧ y.main.rep = h.mrep) := by
  unfold Seat.recalled
  cases hstrn : h.strn <;> cases h.save <;> simp [Seat.modStrand, Seat.setStrand, Seat.strand]
end

section
variable (x : Seat) (h : Held) (hs : List Byte)

/-- The writes that waited change scalars and predicates alone. -/
theorem Seat.returned_eq_recalled : ∃ sc pr, x.returned h hs = { x.recalled h hs with scal := sc, pred := pr } := by
  rw [Seat.returned_eq]
  exact Seat.foldl_finished_eq ..

theorem Seat.reg_recalled (n : Nat) : (x.recalled h hs).reg n = (x.topRestored hs 8).reg n := by
  obtain ⟨-, -, -, -, -, -, -, -, hscal, -⟩ := x.recalled_fields h hs
  exact congrArg (vget · n 0) hscal

theorem Seat.reg_returned_top {i : Nat} (hi : i < 8) : (x.returned h hs).reg (56 + i) =
      Say.lastOf (h.fins.map (·.1)) (56 + i) (BitVec.ofNat 64 (numAt hs (8 * i) 8)) ∧
    (x.returned h hs).full (56 + i) = true := by
  obtain ⟨hreg, hfull⟩ := x.reg_topRestored hs (le_refl 8) hi
  constructor
  · rw [Seat.returned_eq, Seat.reg_foldl_finished _ _ (by omega), Seat.reg_recalled, hreg]
  · obtain ⟨sc, pr, hret⟩ := x.returned_eq_recalled h hs
    obtain ⟨-, -, -, -, -, -, -, -, -, hscalFe, -⟩ := x.recalled_fields h hs
    rw [hret]
    exact (congrArg (vget · (56 + i) true) hscalFe).trans hfull

theorem Seat.reg_returned_below {i : Nat} (hi : i < 56) :
    (x.returned h hs).reg i = Say.lastOf (h.fins.map (·.1)) i (x.reg i) := by
  rw [Seat.returned_eq, Seat.reg_foldl_finished _ _ (by omega), Seat.reg_recalled, Seat.reg_topRestored_below _ _ _ hi]

theorem Seat.p_returned {i : Nat} (hlo : 1 ≤ i) (hhi : i < 8) :
    (x.returned h hs).p i = Say.lastOf (h.fins.map (·.2)) i ((numAt hs 0x40 8).testBit i) := by
  obtain ⟨-, -, -, -, -, -, -, -, -, -, hpred⟩ := x.recalled_fields h hs
  have hi0 : i ≠ 0 := by omega
  have hp : (x.recalled h hs).p i = (numAt hs 0x40 8).testBit i := by
    rw [Seat.p, if_neg hi0, hpred, BitVec.getLsbD_or, BitVec.getLsbD_ofNat, Nat.testBit_mod_two_pow]
    simp [hhi, hi0]
  rw [Seat.returned_eq, Seat.p_foldl_finished _ _ hlo hhi, hp]
end

section
variable (x : Seat) (h : Held) (hs : List Byte)

theorem Seat.returned_fields : let y := x.returned h hs
    y.hnd = false ∧ y.rsm = false ∧ y.held = none ∧ y.resume = (x.rsm && (h.res || (!h.save && h.strn == .main))) ∧
    y.ending = x.ending ∧ y.fstat = BitVec.ofNat 7 (numAt hs 0x48 8) ∧ y.segb = numAt hs 0x50 8 % 2 ^ 16 ∧
    y.ftz = (numAt hs 0x40 8).testBit 8 := by
  obtain ⟨sc, pr, hret⟩ := x.returned_eq_recalled h hs
  obtain ⟨hhnd, hrsm, hheld, hresume, hending, hfstat, hsegb, hftz, -⟩ := x.recalled_fields h hs
  rw [hret]
  exact ⟨hhnd, hrsm, hheld, hresume, hending, hfstat, hsegb, hftz⟩

theorem Seat.returned_strands : let y := x.returned h hs
    y.main.blk = (if h.strn = .main ∧ h.save = false then .none else h.mblk) ∧
    (y.strand h.strn).pc = (if h.strn = .main then h.ret.getD x.epc else x.epc) ∧ (y.strand h.strn).rep = x.repSys ∧
    (h.strn ≠ .main → y.main.pc = h.mpc ∧ y.main.rep = h.mrep) := by
  obtain ⟨sc, pr, hret⟩ := x.returned_eq_recalled h hs
  have hstrand (k : StrandK) : (x.returned h hs).strand k = (x.recalled h hs).strand k := by
    rw [hret]
    cases k <;> rfl
  have hmain : (x.returned h hs).main = (x.recalled h hs).main := hstrand .main
  dsimp only
  rw [hmain, hstrand]
  exact x.recalled_strands h hs
end

section
variable (x : Core) (tl : Nat)

@[simp] theorem Core.restartEng_seats : (x.restartEng tl).seats = x.seats := by
  unfold Core.restartEng
  split
  · rfl
  · split <;> rfl

theorem Core.ctx_restartEng {n : Nat} (hn : n < 4) :
    ((x.restartEng tl).ctx n).eng = if tl = n then (x.ctx n).eng.restart else (x.ctx n).eng := by
  unfold Core.restartEng
  by_cases htl : tl < 4
  · rw [if_pos htl]
    by_cases hne : tl = n
    · subst hne
      rw [if_pos rfl]
      exact congrArg CopyCtx.eng (vget_vset_self _ htl _ _)
    · rw [if_neg hne]
      exact congrArg CopyCtx.eng (vget_vset_ne _ (Ne.symm hne) _ _)
  · have hne : tl ≠ n := by omega
    rw [if_neg htl, if_neg hne]
    split <;> rfl

theorem Core.mat_restartEng : (x.restartEng tl).mat.eng = if tl = 4 then x.mat.eng.restart else x.mat.eng := by
  unfold Core.restartEng
  by_cases htl : tl < 4
  · have hne : tl ≠ 4 := by omega
    rw [if_pos htl, if_neg hne]
    rfl
  · rw [if_neg htl]
    split <;> rfl
end

/-- The state after a return from the handler, before a retirement that waited for it (R202, R306). -/
def State.handlerLeft (s : State) (c k : Nat) (h : Held) : State :=
  let s1 := s.modSeat c k (fun x => x.returned h (s.locRead c (h.inst.area k) 0x58))
  if h.trap.cause = .engine then s1.modCore c (fun x => x.restartEng (h.trap.val.toNat / 2 ^ 56 % 16)) else s1

theorem State.leaveHandler_eq (s : State) (c k : Nat) (h : Held) : s.leaveHandler c k h =
    if ((s.handlerLeft c k h).seat c k).ending then (s.handlerLeft c k h).retireNow c k else s.handlerLeft c k h := rfl

section
variable (s : State) (c : Nat) {k : Nat} (hk : k < 4) (h : Held)

/-- A return from the handler changes one core. -/
theorem State.handlerLeft_eq : s.handlerLeft c k h = s.modCore c (fun x =>
    let y := x.modSeat k (fun t => t.returned h (s.locRead c (h.inst.area k) 0x58))
    if h.trap.cause = .engine then y.restartEng (h.trap.val.toNat / 2 ^ 56 % 16) else y) := by
  unfold State.handlerLeft State.modSeat
  by_cases heng : h.trap.cause = .engine
  · simp only [heng, if_true, State.modCore_modCore]
  · simp only [heng, if_false]

theorem State.core_handlerLeft : (s.handlerLeft c k h).core c =
    let y := (s.core c).modSeat k (fun t => t.returned h (s.locRead c (h.inst.area k) 0x58))
    if h.trap.cause = .engine then y.restartEng (h.trap.val.toNat / 2 ^ 56 % 16) else y := by
  rw [State.handlerLeft_eq]
  exact State.core_modCore_self ..

include hk in
theorem State.seat_handlerLeft :
    (s.handlerLeft c k h).seat c k = (s.seat c k).returned h (s.locRead c (h.inst.area k) 0x58) := by
  rw [State.seat, State.core_handlerLeft]
  refine Eq.trans ?_ (Core.seat_modSeat_self (s.core c) hk (·.returned h (s.locRead c (h.inst.area k) 0x58)))
  dsimp only
  split
  · exact congrArg (vget · k {}) (Core.restartEng_seats ..)
  · rfl

theorem State.ctx_handlerLeft {n : Nat} (hn : n < 4) : (((s.handlerLeft c k h).core c).ctx n).eng =
    if h.trap.cause = .engine ∧ h.trap.val.toNat / 2 ^ 56 % 16 = n then ((s.core c).ctx n).eng.restart else ((s.core c).ctx n).eng := by
  rw [State.core_handlerLeft]
  by_cases heng : h.trap.cause = .engine
  · simp only [heng, if_true, true_and]
    exact Core.ctx_restartEng _ _ hn
  · simp only [heng, if_false, false_and]
    rfl

theorem State.mat_handlerLeft : ((s.handlerLeft c k h).core c).mat.eng =
    if h.trap.cause = .engine ∧ h.trap.val.toNat / 2 ^ 56 % 16 = 4 then (s.core c).mat.eng.restart else (s.core c).mat.eng := by
  rw [State.core_handlerLeft]
  by_cases heng : h.trap.cause = .engine
  · simp only [heng, if_true, true_and]
    exact Core.mat_restartEng ..
  · simp only [heng, if_false, false_and]
    rfl
end

/-! ### Words of the data area (R201) -/

theorem numAt_locRead (s : State) (c area : Nat) {n off len : Nat} (h : off + len ≤ n) :
    numAt (s.locRead c area n) off len = s.locNum c (area + off) len := by
  rw [numAt, State.locRead, memReads_slice _ _ h, State.locNum, State.locRead, lkey_add]

/-! ### TRAP and ERET -/

section
variable {h : Head} {s : State} (hg : guardOk h s.me = true)
include hg

theorem exec_trap {a : Src} {v : Nat} {s1 : State} (hv : readN64 2 a s = .ok v s1) :
    exec (.trap h a) s = .next (s.takeTrap s.cur { cause := .software, val := BitVec.ofNat 64 v } false) :=
  issue_stop (e := .trap _) (s' := s1) hg ((M.bind_ok hv).trans rfl)

theorem exec_eret_of_none (hheld : s.me.held = none) :
    exec (.eret h) s = .next (s.takeTrap s.cur { cause := .operand } false) := by
  refine leave_stop (e := .trap _) (s' := s) hg ((M.bind_ok (me_eq s)).trans ((M.bind_ok (look_eq _ s)).trans ?_))
  rw [hheld]
  rfl

variable {r : Held} (hheld : s.me.held = some r)
include hheld

theorem exec_eret_waits (hbank : s.bankDone = false) : exec (.eret h) s = .next s := by
  refine leave_stop (e := .wait) (s' := s) hg ((M.bind_ok (me_eq s)).trans ((M.bind_ok (look_eq _ s)).trans ?_))
  rw [hheld]
  refine M.bind_error (?_ : bankQuiet s = _)
  exact (M.bind_ok (look_eq _ s)).trans (by rw [hbank]; rfl)

theorem exec_eret_leaves (hbank : s.bankDone = true) :
    exec (.eret h) s = .next ((s.hints h).leaveHandler s.cur.core s.cur.seat r) := by
  refine leave_ok (u := ()) hg ((M.bind_ok (me_eq s)).trans ((M.bind_ok (look_eq _ s)).trans ?_))
  rw [hheld]
  refine M.bind_ok (?_ : bankQuiet s = .ok () s)
  exact (M.bind_ok (look_eq _ s)).trans (by rw [hbank]; rfl)
end

theorem State.handlerLeft_keeps (s : State) (c k : Nat) (h : Held) : let t := s.handlerLeft c k h
    t.cur = s.cur ∧ t.lmem = s.lmem ∧ t.acc = s.acc ∧ t.dram = s.dram ∧ t.host = s.host ∧ t.fabric = s.fabric := by
  rw [State.handlerLeft_eq]
  exact ⟨rfl, rfl, rfl, rfl, rfl, rfl⟩

theorem trapAndEret : Say.trapAndEret := by
  intro h a v r s s1 hg
  refine ⟨exec_trap hg, exec_eret_of_none hg, exec_eret_waits hg, fun hheld hbank hk => ?_⟩
  have hkeeps := State.KeepsReturn.hints hk h
  have hexec := exec_eret_leaves hg hheld hbank
  generalize s.hints h = w at hkeeps hexec
  obtain ⟨hcur, hme, hctxs, hmat, hlmem, hacc, hdram, hhost, hfabric⟩ := hkeeps
  obtain ⟨hscal, -, hrsm, hepc, hrep, hending⟩ := hme
  obtain ⟨htcur, htlmem, htacc, htdram, hthost, htfabric⟩ := w.handlerLeft_keeps s.cur.core s.cur.seat r
  have hwcore : w.core s.cur.core = w.myCore := by rw [State.myCore, hcur]
  have hwme : w.seat s.cur.core s.cur.seat = w.me := by rw [State.me, hcur]
  have hseat := State.seat_handlerLeft w s.cur.core hk r
  rw [hwme] at hseat
  generalize hbytes : w.locRead s.cur.core (r.inst.area s.cur.seat) 0x58 = bytes at hseat
  have hread (off : Nat) (hoff : off + 8 ≤ 0x58) :
      numAt bytes off 8 = s.locNum s.cur.core (r.inst.hdata + 0x40 + 128 * s.cur.seat + off) 8 := by
    rw [← hbytes, numAt_locRead w _ _ hoff, State.locNum, State.locRead, hlmem]
    rfl
  have htme : (w.handlerLeft s.cur.core s.cur.seat r).me = w.me.returned r bytes := by
    rw [State.me, htcur, hcur, hseat]
  have htcore : (w.handlerLeft s.cur.core s.cur.seat r).myCore = (w.handlerLeft s.cur.core s.cur.seat r).core s.cur.core := by
    rw [State.myCore, htcur, hcur]
  obtain ⟨fhnd, frsm, fheld, fresume, fending, ffstat, fsegb, fftz⟩ := w.me.returned_fields r bytes
  obtain ⟨fblk, fpc, frep, fmain⟩ := w.me.returned_strands r bytes
  refine ⟨w.handlerLeft s.cur.core s.cur.seat r, ?_, ?_⟩
  · rw [hexec, State.leaveHandler_eq, hseat, fending, hending]
  · rw [htme, htcore, ← hrsm, ← hepc, ← hrep]
    intro area hs redone tl
    have hreg (i : Nat) : s.me.reg i = w.me.reg i := congrArg (vget · i 0) hscal.symm
    have hctx (n : Nat) : s.myCore.ctx n = (w.core s.cur.core).ctx n := by
      rw [Core.ctx, Core.ctx, hwcore, hctxs]
    have hunit : s.myCore.mat = (w.core s.cur.core).mat := hwcore ▸ hmat.symm
    refine ⟨fhnd, frsm, fheld, fresume, fblk, fpc, frep, fmain, fun i hi => ?top, fun i hi => ?below, fun i hlo hhi => ?preds,
      fftz.trans ?ftz, ffstat.trans ?fstat, fsegb.trans ?segb, fun n hn => ?ctx, ?mat, htlmem.trans hlmem, htacc.trans hacc,
      htdram.trans hdram, hthost.trans hhost, htfabric.trans hfabric⟩
    case top =>
      rw [show hs (8 * i) = numAt bytes (8 * i) 8 from (hread (8 * i) (by omega)).symm]
      exact w.me.reg_returned_top r bytes hi
    case below => rw [hreg]; exact w.me.reg_returned_below r bytes hi
    case preds =>
      rw [show hs 0x40 = numAt bytes 0x40 8 from (hread 0x40 (by decide)).symm]
      exact w.me.p_returned r bytes hlo hhi
    case ftz => rw [hread 0x40 (by decide)]
    case fstat => rw [hread 0x48 (by decide)]
    case segb => rw [hread 0x50 (by decide)]
    case ctx => rw [hctx]; exact w.ctx_handlerLeft s.cur.core r hn
    case mat => rw [hunit]; exact w.mat_handlerLeft s.cur.core r

/-- Settles O38: a trap stops its seat at a boundary, then saves words that its handler reads back; ERET is the return of
`Seat.returned` on the state after the hints, or waits, or traps. -/
theorem trapEntryAndReturn : Obligations.TrapEntryAndReturn := ⟨trapEntrySavesState, trapAndEret⟩

end Sys2Proof.Machine
end
section
/-! PROOFS. Every operation of the model keeps the canonical form of every memory (R89, R92; log 4): the notions, and the
rules of the operations that everything else is made of. -/
namespace Sys2Proof.Safety
open Sys2Proof.Machine

/-- The state in which a computation ends, whether it completes or stops. -/
def endState {α : Type} : EStateM.Result Stop State α → State
  | .ok _ t => t
  | .error _ t => t

/-- A computation keeps the canonical form, whether it completes or stops. -/
def KeepsMem {α : Type} (m : M α) : Prop := ∀ s, MemWf s → MemWf (endState (m s))

/-- Where an outcome goes on, its memories stand in their canonical form. -/
def NextWf (o : Out) : Prop := ∀ t, o = .next t → MemWf t

section
variable {s t : State} {α β : Type}

/-! ### States -/

namespace MemWf

/-- A state with the memories of a well-formed one is well formed. -/
theorem of_mems (h : MemWf s) (hl : t.lmem = s.lmem) (ha : t.acc = s.acc) (hd : t.dram = s.dram) (hh : t.host = s.host)
    (hf : t.fabric = s.fabric) : MemWf t := by
  unfold MemWf
  rw [hl, ha, hd, hh, hf]
  exact h

/-! The memories one by one. -/

protected theorem lmem (h : MemWf s) : s.lmem.wf = true := h.1
protected theorem acc (h : MemWf s) : s.acc.wf = true := h.2.1
protected theorem dram (h : MemWf s) : s.dram.wf = true := h.2.2.1
protected theorem host (h : MemWf s) : s.host.wf = true := h.2.2.2.1
protected theorem fabric (h : MemWf s) : s.fabric.wf = true := h.2.2.2.2

variable {m : Memory}

theorem setLmem {p} (h : MemWf s) (hm : m.wf = true) : MemWf { s with lmem := m, lpoison := p } :=
  ⟨hm, h.acc, h.dram, h.host, h.fabric⟩
theorem setAcc (h : MemWf s) (hm : m.wf = true) : MemWf { s with acc := m } := ⟨h.lmem, hm, h.dram, h.host, h.fabric⟩
theorem setDram (h : MemWf s) (hm : m.wf = true) : MemWf { s with dram := m } := ⟨h.lmem, h.acc, hm, h.host, h.fabric⟩
theorem setHost (h : MemWf s) (hm : m.wf = true) : MemWf { s with host := m } := ⟨h.lmem, h.acc, h.dram, hm, h.fabric⟩
theorem setFabric (h : MemWf s) (hm : m.wf = true) : MemWf { s with fabric := m } := ⟨h.lmem, h.acc, h.dram, h.host, hm⟩

/-! Parts of the state that are no memories. -/

theorem setCur {a} (h : MemWf s) : MemWf { s with cur := a } := h
theorem setLptRoute {l r} (h : MemWf s) : MemWf { s with lpt := l, route := r } := h
theorem setLpt {l} (h : MemWf s) : MemWf { s with lpt := l } := h
theorem setRows {r l} (h : MemWf s) : MemWf { s with rowVd := r, launches := l } := h
theorem setFresh {n} (h : MemWf s) : MemWf { s with fresh := n } := h
theorem setDpoison {d} (h : MemWf s) : MemWf { s with dpoison := d } := h
theorem setPulls {p} (h : MemWf s) : MemWf { s with pulls := p } := h
theorem setQuotas {q} (h : MemWf s) : MemWf { s with quotas := q } := h

/-- The first part of an answer, taken apart. -/
theorem of_fst {p : State × α} {a : α} (h : MemWf p.1) (hp : p = (t, a)) : MemWf t := by
  rw [hp] at h
  exact h

theorem of_snd {p : α × State} {a : α} (h : MemWf p.2) (hp : p = (a, t)) : MemWf t := by
  rw [hp] at h
  exact h

protected theorem ite {c : Prop} [Decidable c] (hs : MemWf s) (ht : MemWf t) : MemWf (if c then s else t) := by
  split
  · exact hs
  · exact ht

protected theorem ite_snd {c : Prop} [Decidable c] {p q : α × State} (hp : MemWf p.2) (hq : MemWf q.2) :
    MemWf (if c then p else q).2 := by
  split
  · exact hp
  · exact hq

/-! A choice between an error and a state. -/

theorem of_ite_ok {c : Prop} [Decidable c] {e : Nat} (h : MemWf s)
    (hr : (if c then .error e else .ok s : Except Nat State) = .ok t) : MemWf t := by
  split at hr
  · cases hr
  · exact Except.ok.inj hr ▸ h

theorem of_ite_ok_ok {c d : Prop} [Decidable c] [Decidable d] {e : Nat} {u : State} (h : MemWf s) (hu : MemWf u)
    (hr : (if c then .error e else if d then .ok s else .ok u : Except Nat State) = .ok t) : MemWf t := by
  split at hr
  · cases hr
  split at hr
  · exact Except.ok.inj hr ▸ h
  · exact Except.ok.inj hr ▸ hu

protected theorem foldl {f : State → α → State} {l : List α} (hf : ∀ t a, MemWf t → MemWf (f t a)) (h : MemWf s) :
    MemWf (l.foldl f s) := by
  induction l generalizing s with
  | nil => exact h
  | cons a l ih => exact ih (hf s a h)

/-- A fold that carries an answer beside the state. -/
theorem foldl_fst {f : State × β → α → State × β} {l : List α} {p : State × β} (hf : ∀ q a, MemWf q.1 → MemWf (f q a).1)
    (h : MemWf p.1) : MemWf (l.foldl f p).1 := by
  induction l generalizing p with
  | nil => exact h
  | cons a l ih => exact ih (hf p a h)

end MemWf

/-! ### Computations -/

namespace KeepsMem
variable {m : M α} {f : α → M β}

/-- What a completed computation leaves. -/
theorem ok (hm : KeepsMem m) (h : MemWf s) {a : α} (hr : m s = .ok a t) : MemWf t := by
  have := hm s h
  rwa [hr] at this

/-- What a stopped computation leaves. -/
theorem error (hm : KeepsMem m) (h : MemWf s) {e : Stop} (hr : m s = .error e t) : MemWf t := by
  have := hm s h
  rwa [hr] at this

protected theorem pure {a : α} : KeepsMem (pure a : M α) := fun _ h => h
protected theorem throw {e : Stop} : KeepsMem (throw e : M α) := fun _ h => h
protected theorem look {g : State → α} : KeepsMem (look g) := fun _ h => h
protected theorem change {g : State → State} (hg : ∀ s, MemWf s → MemWf (g s)) : KeepsMem (change g) := hg

protected theorem bind (hm : KeepsMem m) (hf : ∀ a, KeepsMem (f a)) : KeepsMem (m >>= f) := by
  intro s h
  rw [M.bind_run]
  split
  next a t hr => exact hf a t (hm.ok h hr)
  next e t hr => exact hm.error h hr

/-- The state read, or what is read of it, goes on in the state that it was read from. -/
protected theorem look_bind {g : State → α} (hf : ∀ s, MemWf s → KeepsMem (f (g s))) : KeepsMem (look g >>= f) :=
  fun s h => hf s h s h

/-- Nothing follows a stop. -/
protected theorem throw_bind {e : Stop} {f : α → M β} : KeepsMem (throw e >>= f) := fun _ h => h
protected theorem raise_bind {c : Cause} {o v : Nat} {f : α → M β} : KeepsMem (raise c o v >>= f) := fun _ h => h

protected theorem ite {c : Prop} [Decidable c] {m n : M α} (hm : KeepsMem m) (hn : KeepsMem n) :
    KeepsMem (if c then m else n) := by
  split
  · exact hm
  · exact hn

/-- Both ways of a choice go on in the same way. -/
protected theorem ite_bind {c : Prop} [Decidable c] {m : M Unit} {f : Unit → M β} (hm : KeepsMem m)
    (hf : ∀ a, KeepsMem (f a)) : KeepsMem (if c then m >>= f else f ()) := .ite (.bind hm hf) (hf ())

protected theorem ite_else_bind {c : Prop} [Decidable c] {m : M Unit} {f : Unit → M β} (hm : KeepsMem m)
    (hf : ∀ a, KeepsMem (f a)) : KeepsMem (if c then f () else m >>= f) := .ite (hf ()) (.bind hm hf)

protected theorem ite_bind_bind {c : Prop} [Decidable c] {m n : M α} (hm : KeepsMem m) (hn : KeepsMem n)
    (hf : ∀ a, KeepsMem (f a)) : KeepsMem (if c then m >>= f else n >>= f) := .ite (.bind hm hf) (.bind hn hf)

protected theorem forL {l : List α} {f : α → M Unit} (hf : ∀ a, KeepsMem (f a)) : KeepsMem (forL l f) := by
  induction l with
  | nil => exact .pure
  | cons a l ih => exact .bind (hf a) fun _ => ih

protected theorem mapL {l : List α} (hf : ∀ a, KeepsMem (f a)) : KeepsMem (mapL l f) := by
  induction l with
  | nil => exact .pure
  | cons a l ih => exact .bind (hf a) fun _ => .bind ih fun _ => .pure

protected theorem raise {c : Cause} {o v : Nat} : KeepsMem (raise c o v : M α) := .throw
protected theorem modMe {f : Seat → Seat} : KeepsMem (modMe f) := fun _ h => h

end KeepsMem

/-! ### Outcomes -/

namespace NextWf

protected theorem next (h : MemWf s) : NextWf (.next s) := fun _ e => Host.Outcome.next.inj e ▸ h
protected theorem fault {r : Fault} : NextWf (.fault r) := fun _ e => by simp at e

protected theorem ite {c : Prop} [Decidable c] {o p : Out} (ho : NextWf o) (hp : NextWf p) : NextWf (if c then o else p) := by
  split
  · exact ho
  · exact hp

end NextWf
end

end Sys2Proof.Safety
end

section
/-! PROOFS. Sys2Proof/Machine/Base.lean: what its operations do keeps the canonical form of every memory (R89, R92; log 4). -/
namespace Sys2Proof.Safety
open Sys2Proof.Machine

variable {s t : State} {α : Type}

protected theorem KeepsMem.need {b opnd val} : KeepsMem (need b opnd val) := .ite .pure .raise
protected theorem KeepsMem.waitFor {b} : KeepsMem (waitFor b) := .ite .pure .throw
protected theorem MemWf.setCore {c x} (h : MemWf s) : MemWf (s.setCore c x) := h
protected theorem MemWf.modCore {c f} (h : MemWf s) : MemWf (s.modCore c f) := h.setCore
protected theorem MemWf.modSeat {c k f} (h : MemWf s) : MemWf (s.modSeat c k f) := h.modCore
protected theorem MemWf.modVd {v f} (h : MemWf s) : MemWf (s.modVd v f) := h
protected theorem MemWf.setOwner {p o} (h : MemWf s) : MemWf (s.setOwner p o) := h
protected theorem MemWf.setKey {k x} (h : MemWf s) : MemWf (s.setKey k x) := h
protected theorem MemWf.modQueue {v q f} (h : MemWf s) : MemWf (s.modQueue v q f) := h.modVd
protected theorem MemWf.modModule {f} (h : MemWf s) : MemWf (s.modModule f) := h
protected theorem MemWf.setStream {i x} (h : MemWf s) : MemWf (s.setStream i x) := h
protected theorem MemWf.modStrand {a f} (h : MemWf s) : MemWf (s.modStrand a f) := h.modSeat
protected theorem MemWf.modMe {f} (h : MemWf s) : MemWf (s.modMe f) := h.modSeat
protected theorem MemWf.modMyCore {f} (h : MemWf s) : MemWf (s.modMyCore f) := h.modCore
protected theorem MemWf.modCores {f} (h : MemWf s) : MemWf (s.modCores f) := h
protected theorem KeepsMem.me : KeepsMem me := .look
protected theorem MemWf.hints {h0} (h : MemWf s) : MemWf (s.hints h0) := .ite (.modCore (.modSeat (.modStrand h)))
  (.modStrand h)

protected theorem MemWf.advance {h0} (h : MemWf s) : MemWf (s.advance h0) := h.modMe.hints
protected theorem MemWf.goto {taken i} (h : MemWf s) : MemWf (s.goto taken i) := h.modStrand

end Sys2Proof.Safety
end

section
/-! PROOFS. Sys2Proof/Machine/Space.lean: what its operations do keeps the canonical form of every memory (R89, R92; log 4). -/
namespace Sys2Proof.Safety
open Sys2Proof.Machine

variable {s t : State} {α : Type}

protected theorem MemWf.devPut {ok vd dpa bs} (h : MemWf s) : MemWf (s.devPut ok vd dpa bs) := by
  induction bs generalizing s dpa with
  | nil => exact h
  | cons b bs ih =>
    refine ih ?_
    split
    · exact .ite (h.setDram (memWrite_wf _ _ h.dram)) h
    · exact h

protected theorem MemWf.devWrite {vd dpa bs} (h : MemWf s) : MemWf (s.devWrite vd dpa bs) := (h.devPut :)
protected theorem MemWf.setDstate {vd dom v} (h : MemWf s) : MemWf (s.setDstate vd dom v) := h.devWrite
protected theorem MemWf.locWrite {n off bs} (h : MemWf s) : MemWf (s.locWrite n off bs) :=
  h.setLmem (memWrites_wf _ _ h.lmem)

protected theorem MemWf.tlbFill {n e} (h : MemWf s) : MemWf (s.tlbFill n e) := h
protected theorem MemWf.tlbDrop {p} (h : MemWf s) : MemWf (s.tlbDrop p) := h

end Sys2Proof.Safety
end

section
/-! PROOFS. Sys2Proof/Machine/Access.lean: what its operations do keeps the canonical form of every memory (R89, R92; log 4). -/
namespace Sys2Proof.Safety
open Sys2Proof.Machine

variable {s t : State} {α : Type}

protected theorem KeepsMem.orTrap {e} : KeepsMem (orTrap e : M α) := by
  unfold orTrap
  split
  · exact .pure
  · exact .throw

protected theorem MemWf.setPoison {h0 l} (h : MemWf s) : MemWf (s.setPoison h0 l) := by
  unfold State.setPoison
  (repeat' split) <;> exact h

protected theorem MemWf.homeWrite {hm addr bs} (h : MemWf s) : MemWf (s.homeWrite hm addr bs) := by
  cases hm with
  | bank n => exact h.locWrite
  | slice n => exact h.setPoison.setDram (memWrites_wf _ _ h.dram)
  | host => exact h.setPoison.setHost (memWrites_wf _ _ h.host)
  | fabric n => exact h.setPoison.setFabric (memWrites_wf _ _ h.fabric)

protected theorem MemWf.startPull {p va h0} (h : MemWf s) : MemWf (s.startPull p va h0) := .ite h h
protected theorem KeepsMem.unitPull {vd dom va bad p} : KeepsMem (unitPull vd dom va bad p) :=
  .bind .look fun _ => .ite_bind (.change fun _ h1 => h1) fun _ => .ite .throw (by
    split
    · exact .bind (.change fun _ h1 => h1.startPull) fun _ => .throw
    · exact .pure)

protected theorem MemWf.dlThrottle {vd} (h : MemWf s) : MemWf (s.dlThrottle vd) := h.modVd
protected theorem MemWf.logAtomic {e b} (h : MemWf s) (hr : s.logAtomic e = some (b, t)) : MemWf t := by
  unfold State.logAtomic at hr
  dsimp only at hr
  split at hr
  · cases hr
  split at hr
  · cases hr; exact h
  split at hr
  · cases hr
  cases hr
  exact h.devWrite.devWrite.modVd.dlThrottle.tlbDrop

protected theorem KeepsMem.unitXlate {c w r k at_} : KeepsMem (unitXlate c w r k at_) :=
  .bind .look fun _ => by
    dsimp only
    split
    · exact .bind .pure fun _ => .ite .pure .throw
    · exact .bind .look fun _ => .bind .look fun _ => .bind .unitPull fun _ => .bind .look fun _ => .bind .waitFor fun _ =>
        .bind (.bind .look fun _ => .orTrap) fun _ => by
        split
        · exact .bind (.change fun _ h1 => h1.tlbFill) fun _ => .bind .pure fun _ => .ite .pure .throw
        · exact .bind .pure fun _ => .ite .pure .throw

protected theorem KeepsMem.unitPlace {c w va len k storeLike} : KeepsMem (unitPlace c w va len k storeLike) :=
  .bind (.bind .look fun _ => .orTrap) fun _ => by
    split
    · exact .bind .look fun _ => .ite .throw_bind (.bind .look fun _ => .ite .pure .throw)
    · exact .bind .unitXlate fun _ => by
        extract_lets _ jp
        have hjp : ∀ a, KeepsMem (jp a) := fun _ => .bind .look fun _ => by
            split
            · exact .throw
            · exact .bind .look fun _ => .ite .throw_bind (.bind .look fun _ => .bind .look fun _ => .bind .unitPull fun _ =>
                .bind .look fun _ => .bind .waitFor fun _ => .bind .look fun _ => .ite .throw .pure)
        exact .ite (.bind .look fun _ => .ite .throw_bind (.look_bind fun _ h1 => by
          split
          · exact .throw_bind
          next hr =>
            exact .bind (.change fun _ _ => h1.logAtomic hr) hjp)) (hjp ())

protected theorem KeepsMem.unitPlaces {c w va len k storeLike} : KeepsMem (unitPlaces c w va len k storeLike) :=
  .ite .throw_bind (.mapL fun _ => .bind .unitPlace fun _ => .pure)

protected theorem KeepsMem.unitRead {c w va len} : KeepsMem (unitRead c w va len) :=
  .bind .unitPlaces fun _ => .bind .look fun _ => .ite .throw_bind .look

protected theorem MemWf.writePlaces {ps bs} (h : MemWf s) : MemWf (s.writePlaces ps bs) := by
  induction ps generalizing s bs with
  | nil => exact h
  | cons p ps ih => exact ih h.homeWrite

protected theorem KeepsMem.unitWrite {c w va bs} : KeepsMem (unitWrite c w va bs) :=
  .bind .unitPlaces fun _ => .bind .look fun _ => .ite .throw_bind (.change fun _ h1 => h1.writePlaces)

protected theorem MemWf.tryUnit {m : M α} {a : α} (h : MemWf s) (hm : KeepsMem m) (hr : s.tryUnit m = some (a, t)) :
    MemWf t := by
  unfold State.tryUnit M.run? at hr
  split at hr
  next _ _ hok => cases hr; exact hm.ok h hok
  next => cases hr

protected theorem KeepsMem.seatXlate {dom va reg k at_} : KeepsMem (seatXlate dom va reg k at_) :=
  .bind .me fun _ => .bind .look fun _ => .bind .look fun _ => by
    split
    · exact .bind (.change fun _ h1 => .ite h1 h1) fun _ => .throw
    · exact .ite .throw_bind (.ite .throw_bind (.ite (.bind .look fun _ => .ite .throw_bind (.bind .look fun _ => .ite .pure
        (.bind (.change fun _ h1 => .ite h1 h1) fun _ => .throw))) .pure))

protected theorem KeepsMem.seatPiece {w va pva len dom reg k store atom} : KeepsMem
  (seatPiece w va pva len dom reg k store atom) :=
  .bind .look fun _ => by
    split
    · exact .bind .look fun _ => .ite .throw_bind (.ite (.bind .look fun _ => .ite .throw_bind (.bind .look fun _ =>
        .bind .waitFor fun _ => .bind .look fun _ => .ite .throw .pure)) .pure)
    · exact .ite .raise_bind (.bind .seatXlate fun _ => .bind .look fun _ => by
        split
        · exact .throw
        · exact .bind .look fun _ => .ite .throw .pure)

protected theorem KeepsMem.seatRoute {va len k} : KeepsMem (seatRoute va len k) :=
  .bind .me fun _ => .bind .look fun _ => .bind .orTrap fun _ => .pure

protected theorem KeepsMem.seatPieces {va len k store atom strict} : KeepsMem (seatPieces va len k store atom strict) :=
  .bind .seatRoute fun _ => .ite .raise_bind (.mapL fun _ => .seatPiece)

protected theorem MemWf.launchAccess {a} (h : MemWf s) : MemWf (s.launchAccess a) := h
protected theorem KeepsMem.release : KeepsMem release := .bind .look fun _ => .waitFor
protected theorem KeepsMem.fenced {scope kind} : KeepsMem (fenced scope kind) := .bind .look fun _ => .waitFor
protected theorem KeepsMem.bankQuiet : KeepsMem bankQuiet := .bind .look fun _ => .waitFor
protected theorem KeepsMem.afterLda : KeepsMem afterLda := .bind .look fun _ => .waitFor
protected theorem MemWf.performPiece {a p} (h : MemWf s) : MemWf (s.performPiece a p).2 := by
  refine .ite_snd h (.ite_snd h (.ite_snd h (.ite_snd h ?_)))
  split
  · exact h
  · exact h.homeWrite
  · exact h.homeWrite

protected theorem KeepsMem.seatRead {w va len} : KeepsMem (seatRead w va len) :=
  .bind .afterLda fun _ => .bind .look fun _ => .bind .unitPlaces fun _ => .bind .look fun _ => .bind .waitFor fun _ =>
    .unitRead

protected theorem MemWf.setAccess {a} (h : MemWf s) : MemWf (s.setAccess a) := h
protected theorem MemWf.dropAccess {n} (h : MemWf s) : MemWf (s.dropAccess n) := h
protected theorem MemWf.stepPiece {n i} (h : MemWf s) : MemWf (s.stepPiece n i) := by
  unfold State.stepPiece
  split
  · exact h
  · split
    · exact h
    · exact .ite h (by
        split
        · exact h.startPull
        · exact .ite h (by
            dsimp only
            split
            · exact h.performPiece.setAccess.setAccess
            · exact h.performPiece.setAccess))

end Sys2Proof.Safety
end

section
/-! PROOFS. Sys2Proof/Machine/Places.lean: what its operations do keeps the canonical form of every memory (R89, R92; log 4). -/
namespace Sys2Proof.Safety
open Sys2Proof.Machine

variable {s t : State} {α : Type}

theorem MemWf.homeMem_wf (h : MemWf s) (hm : Home) : (s.homeMem hm).wf = true := by
  cases hm with
  | bank n => exact h.lmem
  | slice n => exact h.dram
  | host => exact h.host
  | fabric n => exact h.fabric

protected theorem MemWf.setHomeMem {hm m} (h : MemWf s) (hwf : Memory.wf m = true) : MemWf (s.setHomeMem hm m) := by
  cases hm with
  | bank n => exact h.setLmem hwf
  | slice n => exact h.setDram hwf
  | host => exact h.setHost hwf
  | fabric n => exact h.setFabric hwf

protected theorem MemWf.fragWrite {f v} (h : MemWf s) : MemWf (Frag.write s f v) :=
  .ite h (h.setHomeMem (memWrites_wf _ _ (h.homeMem_wf _)))

protected theorem MemWf.unpoison {h0 i} (h : MemWf s) : MemWf (s.unpoison h0 i) := h.setPoison
protected theorem MemWf.writeLoc {v l} (h : MemWf s) : MemWf (Loc.write s v l) := by
  induction l generalizing s v with
  | nil => exact h
  | cons f l ih => exact ih h.fragWrite

protected theorem MemWf.writeUnit {all u v} (h : MemWf s) : MemWf (s.writeUnit all u v) :=
  .foldl (fun _ _ h1 => .foldl (fun _ _ h2 => .ite h2.unpoison h2) h1) h.writeLoc

protected theorem MemWf.clearWhole {all} (h : MemWf s) : MemWf (s.clearWhole all) :=
  .foldl (fun _ _ h1 => .foldl (fun _ _ h2 => .ite h2.unpoison h2) h1) h

end Sys2Proof.Safety
end

section
/-! PROOFS. Sys2Proof/Machine/Moves.lean: what its operations do keeps the canonical form of every memory (R89, R92; log 4). -/
namespace Sys2Proof.Safety
open Sys2Proof.Machine

variable {s t : State} {α : Type}

protected theorem MemWf.doMoves {f cj adds ms} (h : MemWf s) : MemWf (s.doMoves f cj adds ms).1 :=
  .foldl (fun _ _ h1 => .foldl (fun _ _ h2 => .foldl (fun _ _ h3 => h3.unpoison) h2) h1.writeLoc) h

end Sys2Proof.Safety
end

section
/-! PROOFS. Sys2Proof/Machine/Operands.lean: what its operations do keeps the canonical form of every memory (R89, R92; log 4). -/
namespace Sys2Proof.Safety
open Sys2Proof.Machine

variable {s t : State} {α : Type}

protected theorem KeepsMem.fullOr {full fe opnd kind n} : KeepsMem (fullOr full fe opnd kind n) := .ite .pure
  (.ite .raise .throw)

protected theorem KeepsMem.readScal {opnd n fe} : KeepsMem (readScal opnd n fe) :=
  .ite .raise_bind (.bind .me fun _ => .bind .fullOr fun _ => .pure)

protected theorem KeepsMem.readScals {opnd n k fe} : KeepsMem (readScals opnd n k fe) := .mapL fun _ => .readScal
protected theorem KeepsMem.writeScal {n v} : KeepsMem (writeScal n v) :=
  .ite .raise_bind (.bind .me fun _ => .bind .waitFor fun _ => .modMe)

protected theorem KeepsMem.writeScals {n vs} : KeepsMem (writeScals n vs) := by
  induction vs generalizing n with
  | nil => exact .pure
  | cons v vs ih => exact .bind .writeScal fun _ => ih

protected theorem KeepsMem.readD {n} : KeepsMem (readD n) := .readScal
protected theorem KeepsMem.myLaunch : KeepsMem myLaunch := .bind .me fun _ => .look
protected theorem KeepsMem.readBank {opnd bank size off} : KeepsMem (readBank opnd bank size off) :=
  .bind .myLaunch fun _ => by
    split
    · exact .raise
    · exact .ite .raise_bind (.bind .look fun _ => .bind .look fun _ => by
        dsimp only
        split
        · exact .bind .pure fun _ => .pure
        · exact .bind .unitRead fun _ => .bind (.change fun _ h1 => h1.modCore) fun _ => .bind .pure fun _ => .pure)

protected theorem KeepsMem.readInt {ty opnd a} : KeepsMem (readInt ty opnd a) := by
  unfold readInt
  dsimp only
  split
  · exact .raise
  · exact .bind .readScal fun _ => .pure
  · exact .bind .readBank fun _ => .pure
  · exact .pure

protected theorem KeepsMem.readN64 {opnd a} : KeepsMem (readN64 opnd a) := .bind .readInt fun _ => .pure
protected theorem KeepsMem.readI64 {opnd a} : KeepsMem (readI64 opnd a) := .readInt
protected theorem KeepsMem.readOpt {d rd a} (hf : ∀ a, KeepsMem (rd a)) : KeepsMem (readOpt d rd a : M α) := by
  unfold readOpt
  split
  · exact .pure
  · exact hf _

protected theorem KeepsMem.readF {f opnd a} : KeepsMem (readF f opnd a) := by
  unfold readF
  dsimp only
  split
  · exact .raise
  · exact .bind .readScal fun _ => .pure
  · exact .bind .readBank fun _ => .pure
  · exact .pure

protected theorem KeepsMem.scalNum {opnd a} : KeepsMem (scalNum opnd a) := by
  unfold scalNum
  split
  · exact .pure
  · exact .raise
  · exact .raise
  · exact .raise

protected theorem KeepsMem.readRow {opnd k a} : KeepsMem (readRow opnd k a) := .bind .scalNum fun _ =>
  .ite .raise_bind .readScals

protected theorem KeepsMem.readPair {opnd a} : KeepsMem (readPair opnd a) :=
  .bind .scalNum fun _ => .bind .need fun _ => .bind .readRow fun _ => by
    split
    · exact .pure
    · exact .raise

protected theorem KeepsMem.evenD {d} : KeepsMem (evenD d) := .need
protected theorem KeepsMem.tileNum {opnd a} : KeepsMem (tileNum opnd a) := by
  unfold tileNum
  split
  · exact .pure
  · exact .raise
  · exact .raise
  · exact .raise

protected theorem KeepsMem.useView {opnd n} : KeepsMem (useView opnd n) := .ite .raise_bind (.bind .me fun _ =>
  .ite .pure .raise)

protected theorem KeepsMem.viewFull {opnd n fe} : KeepsMem (viewFull opnd n fe) := .bind .me fun _ => .fullOr
protected theorem KeepsMem.viewFree {n} : KeepsMem (viewFree n) := .bind .me fun _ => .waitFor
protected theorem KeepsMem.writeP {n b} : KeepsMem (writeP n b) := .modMe

end Sys2Proof.Safety
end

section
/-! PROOFS. Sys2Proof/Machine/Flags.lean: what its operations do keeps the canonical form of every memory (R89, R92; log 4). -/
namespace Sys2Proof.Safety
open Sys2Proof.Machine

variable {s t : State} {α : Type}

protected theorem KeepsMem.flag {f} : KeepsMem (flag f) := .modMe
protected theorem KeepsMem.writeInt {ty sat d v} : KeepsMem (writeInt ty sat d v) := .bind .flag fun _ => .writeScal
protected theorem KeepsMem.writeF {d v} : KeepsMem (writeF d v) := .writeScal
protected theorem KeepsMem.writeRound {f r d x fl} : KeepsMem (writeRound f r d x fl) :=
  .bind .me fun _ => .bind .flag fun _ => .writeF

end Sys2Proof.Safety
end

section
/-! PROOFS. Sys2Proof/Machine/Sync.lean: what its operations do keeps the canonical form of every memory (R89, R92; log 4). -/
namespace Sys2Proof.Safety
open Sys2Proof.Machine

variable {s t : State} {α : Type}

protected theorem MemWf.finishSaved {a d p} (h : MemWf s) : MemWf (s.finishSaved a d p) := h
protected theorem MemWf.finish {a d p} (h : MemWf s) : MemWf (s.finish a d p) :=
  .ite h.finishSaved (by
    split
    · exact .ite h.modSeat h.modSeat
    · exact h.modSeat)

protected theorem MemWf.setSlot {c y l} (h : MemWf s) : MemWf (s.setSlot c y l) := h.modCore
protected theorem MemWf.streamsErr {c y} (h : MemWf s) : MemWf (s.streamsErr c y) := h
protected theorem MemWf.dropParty {c y} (h : MemWf s) : MemWf (s.dropParty c y) := by
  unfold State.dropParty
  split
  · exact h.setSlot
  · exact h

protected theorem MemWf.streamsDone {c y} (h : MemWf s) : MemWf (s.streamsDone c y) :=
  .foldl (fun _ _ h1 => .ite h1.setStream.dropParty h1.setStream) h

protected theorem MemWf.arrive {c y a} (h : MemWf s) : MemWf (s.arrive c y a) := by
  unfold State.arrive
  split
  · exact h
  · split
    · exact .ite h.setSlot (.ite h.setSlot h.setSlot.finish)
    · exact .ite h.setSlot h.setSlot.setStream

protected theorem MemWf.completeF {n c y} (h : MemWf s) : MemWf (s.completeF n c y) := by
  induction n generalizing s with
  | zero => exact h
  | succ n ih =>
    unfold State.completeF
    split
    · exact h
    · exact .ite h (ih (.foldl (fun _ _ h => h.arrive) (.foldl (fun _ _ h => h.finish) h.setSlot.streamsDone)))

protected theorem MemWf.complete {c y} (h : MemWf s) : MemWf (s.complete c y) := by
  unfold State.complete
  split
  · exact h
  · exact h.completeF

protected theorem MemWf.leaveSlot {c y tc tk} (h : MemWf s) : MemWf (s.leaveSlot c y tc tk) := by
  unfold State.leaveSlot
  split
  · exact h
  · split
    · exact h
    · exact h.setSlot.complete

protected theorem MemWf.leaveAll {tc tk} (h : MemWf s) : MemWf (s.leaveAll tc tk) := .foldl (fun _ _ h1 => h1.leaveSlot) h
protected theorem MemWf.renameThread {tc k n} (h : MemWf s) : MemWf (s.renameThread tc k n) := h.modCores
protected theorem MemWf.dropWaits {tc tk} (h : MemWf s) : MemWf (s.dropWaits tc tk) := h
protected theorem MemWf.serveTq {c y acq} (h : MemWf s) : MemWf (s.serveTq c y acq) := by
  unfold State.serveTq
  split
  · exact h
  · dsimp only
    split
    · exact h.setSlot.finish
    · exact h

protected theorem MemWf.slotDo {a c y op} (h : MemWf s) (hr : s.slotDo a c y op = .ok t) : MemWf t := by
  unfold State.slotDo at hr
  split at hr
  · cases hr
  cases op with
  | phreg n => exact .of_ite_ok h.setSlot.finish.complete hr
  | phdrop n => exact .of_ite_ok h.setSlot.finish.complete hr
  | phsig => exact .of_ite_ok h.arrive.complete hr
  | phnext => exact .of_ite_ok h.arrive.complete hr
  | phwait v => exact .of_ite_ok_ok h.finish h.setSlot hr
  | phwaitMem =>
    dsimp only at hr
    split at hr
    · cases hr
    · exact .of_ite_ok_ok h.setSlot h.finish hr
  | phwaitJoin => exact .of_ite_ok_ok h.finish h.setSlot hr
  | tqacq d => exact .of_ite_ok h.setSlot.serveTq hr
  | tqtake d => exact .of_ite_ok h.setSlot.serveTq hr
  | tqpost p => exact .of_ite_ok h.setSlot.finish.serveTq hr
  | tqrel p => exact .of_ite_ok h.setSlot.finish.serveTq hr
  | join => exact .of_ite_ok h.setSlot.finish.complete hr
  | leave => exact .of_ite_ok h.finish.leaveSlot hr
  | tdone => exact .of_ite_ok_ok (.foldl (fun _ _ h => h.finish) h.setSlot.finish) h.setSlot.finish hr

protected theorem MemWf.freeSlot {c y} (h : MemWf s) : MemWf (s.freeSlot c y).2 := by
  unfold State.freeSlot
  split
  · exact h
  · exact h.modCore.streamsErr

protected theorem MemWf.removeParty {i} (h : MemWf s) : MemWf (s.removeParty i) := by
  unfold State.removeParty
  dsimp only
  split
  · exact h
  · exact .ite h h.setSlot.complete

protected theorem MemWf.freeStream {i} (h : MemWf s) : MemWf (s.freeStream i) := .setStream (.ite h.removeParty h)

end Sys2Proof.Safety
end

section
/-! PROOFS. Sys2Proof/Machine/View.lean: what its operations do keeps the canonical form of every memory (R89, R92; log 4). -/
namespace Sys2Proof.Safety
open Sys2Proof.Machine

variable {s t : State} {α : Type}

protected theorem MemWf.setBits {c r v} (h : MemWf s) : MemWf (s.setBits c r v) := .ite h h.locWrite
protected theorem MemWf.setElem {c v i j x} (h : MemWf s) : MemWf (s.setElem c v i j x) :=
  .ite (.foldl (fun _ _ h1 => h1.setBits) h) h.setBits

protected theorem MemWf.putElem {c v i j x} (h : MemWf s) : MemWf (s.putElem c v i j x) := .ite h.setElem.setBits h.setElem
protected theorem MemWf.zeroRest {c v l} (h : MemWf s) : MemWf (s.zeroRest c v l) := h.setBits
protected theorem KeepsMem.checkRuns {n k rs} : KeepsMem (checkRuns n k rs) :=
  .bind .look fun _ => .bind .me fun _ => .bind .look fun _ => by
    split
    · exact .throw
    · exact .pure

protected theorem KeepsMem.goodRuns {rd wr} : KeepsMem (goodRuns rd wr) :=
  .bind .look fun _ => .bind .look fun _ => by
    split
    · exact .throw
    · exact .pure

end Sys2Proof.Safety
end

section
/-! PROOFS. Sys2Proof/Machine/TileUnit.lean: what its operations do keeps the canonical form of every memory (R89, R92; log 4). -/
namespace Sys2Proof.Safety
open Sys2Proof.Machine

variable {s t : State} {α : Type}

protected theorem KeepsMem.tileFree : KeepsMem tileFree := .bind .look fun _ => .waitFor
protected theorem KeepsMem.pauseTile {n fills g ph} : KeepsMem (pauseTile n fills g ph : M α) :=
  .bind (.change fun _ h1 => h1.modMyCore.modMe) fun _ => .throw

protected theorem MemWf.freeTile (h : MemWf s) : MemWf s.freeTile := by
  unfold State.freeTile
  split
  · exact h.modMyCore.modMe
  · exact h

protected theorem MemWf.settleTile {c k} (h : MemWf s) : MemWf (s.settleTile c k) := by
  unfold State.settleTile
  split
  · exact h
  · exact .ite h (.modCore (by
      split
      · exact .foldl (fun _ _ h1 => h1.writeUnit) h
      · exact h))

protected theorem MemWf.settle {c k} (h : MemWf s) : MemWf (s.settle c k) := h.settleTile.modCore
protected theorem KeepsMem.boundary {n fills g} : KeepsMem (boundary n fills g) :=
  .bind .look fun _ => .bind .look fun _ => .ite .pauseTile .pure

/-- What a group of a tile instruction does keeps the canonical form: its pause, and what it computes. -/
def KeepsGroup (p : Group) : Prop := (∀ ph, KeepsMem (p.pause ph)) ∧ ∀ s, MemWf s → MemWf (p.act s)
protected theorem KeepsMem.groupReadAll {p n todo got ch} (hp : KeepsGroup p) : KeepsMem (Group.readAll p n todo got ch) := by
  induction n generalizing todo got ch with
  | zero => exact .pure
  | succ n ih =>
    unfold Group.readAll
    split
    · exact .pure
    · exact .ite_bind (hp.1 _) fun _ => .bind .look fun _ => .ite_bind (hp.1 _) fun _ => .bind .look fun _ =>
        .ite .throw_bind (.bind .look fun _ => ih)

protected theorem MemWf.memoryOf (h : MemWf s) (ht : MemWf t) : MemWf (s.memoryOf t) :=
  ⟨ht.lmem, h.acc, ht.dram, ht.host, ht.fabric⟩

protected theorem MemWf.taken {got} (h : MemWf s) : MemWf (s.taken got) := .foldl (fun _ _ h => h.writeLoc) h
protected theorem KeepsMem.groupCompute {p got} (hp : KeepsGroup p) : KeepsMem (Group.compute p got) :=
  fun _ h => (hp.2 _ h.taken).memoryOf h

protected theorem KeepsMem.groupWriteAll {p all n todo ch} (hp : KeepsGroup p) : KeepsMem (Group.writeAll p all n todo ch) := by
  induction n generalizing todo ch with
  | zero => exact .pure
  | succ n ih =>
    unfold Group.writeAll
    split
    · exact .pure
    · exact ih
    · exact .ite_bind (hp.1 _) fun _ => .bind .look fun _ => .ite_bind (hp.1 _) fun _ =>
        .bind (.change fun _ h => h.writeUnit) fun _ => ih

protected theorem KeepsMem.groupRun {p ph ch} (hp : KeepsGroup p) : KeepsMem (Group.run p ph ch) := by
  cases ph with
  | start => exact .pure
  | reads todo got =>
    refine .bind (.groupReadAll hp) fun r => .bind (.bind .look fun e => ?_) fun _ =>
      .bind (.groupReadAll hp) fun r => .bind (.groupCompute hp) fun _ => .groupWriteAll hp
    cases e with
    | ok us => exact .pure
    | error t => exact .throw
  | writes all todo => exact .groupWriteAll hp

end Sys2Proof.Safety
end

section
/-! PROOFS. Sys2Proof/Machine/Thread.lean: what its operations do keeps the canonical form of every memory (R89, R92; log 4). -/
namespace Sys2Proof.Safety
open Sys2Proof.Machine

variable {s t : State} {α : Type}

protected theorem KeepsMem.asSave {m : M α} (hm : KeepsMem m) : KeepsMem (asSave m) := by
  intro s h
  unfold asSave
  split
  next hr => exact hm.error h hr
  next => exact hm s h

protected theorem KeepsMem.pushFrame {f} : KeepsMem (pushFrame f) :=
  .bind .me fun _ => .bind .look fun _ => by
    dsimp only
    split
    · exact .bind (.asSave .unitWrite) fun _ => .modMe
    · exact .modMe

protected theorem KeepsMem.readFrame {k} : KeepsMem (readFrame k) :=
  .bind .me fun _ => .bind .look fun _ => by
    split
    · exact .pure
    · exact .bind (.asSave .unitRead) fun _ => .pure

protected theorem KeepsMem.dropFrame : KeepsMem dropFrame :=
  .bind .me fun _ => .ite (.bind .look fun _ => .bind (.asSave .unitRead) fun _ => .modMe) .modMe

protected theorem MemWf.retract {vd i} (h : MemWf s) : MemWf (s.retract vd i) := h.devWrite
protected theorem MemWf.retractAll {vd p} (h : MemWf s) : MemWf (s.retractAll vd p) := .foldl (fun _ _ h1 =>
  .ite h1.retract h1) h

protected theorem MemWf.syncChild {c} (h : MemWf s) : MemWf (s.syncChild c) := h.modCore
protected theorem MemWf.cancel {c pc pm} (h : MemWf s) : MemWf (s.cancel c pc pm) := h.modCore
protected theorem MemWf.cancelImages {vd pc pm} (h : MemWf s) : MemWf (s.cancelImages vd pc pm) := h.modVd
protected theorem MemWf.startThread {c k t} (h : MemWf s) : MemWf (s.startThread c k t) := h.modCore
protected theorem MemWf.orphan {c k} (h : MemWf s) : MemWf (s.orphan c k) := h
protected theorem MemWf.endGang {leader} (h : MemWf s) : MemWf (s.endGang leader) := h.modCores
protected theorem MemWf.quitGang {c k} (h : MemWf s) : MemWf (s.quitGang c k) := by
  unfold State.quitGang
  split
  · exact .ite h.endGang h
  · exact h

protected theorem MemWf.quitPair {c} (h : MemWf s) : MemWf (s.quitPair c) := by
  unfold State.quitPair
  split
  · exact .ite h.modCore.modCore h.modCore
  · exact h

protected theorem MemWf.vacate {c k} (h : MemWf s) : MemWf (s.vacate c k) := by
  unfold State.vacate
  dsimp only
  (repeat' split) <;> exact h.modSeat

protected theorem MemWf.endThread {c k} (h : MemWf s) : MemWf (s.endThread c k) := h.modCore.leaveAll.vacate
protected theorem MemWf.retireNow {c k} (h : MemWf s) : MemWf (s.retireNow c k) := by
  unfold State.retireNow
  extract_lets s1 s2 s3 s4
  have h1 : MemWf s1 := h.settle.dropWaits.quitGang
  have h2 : MemWf s2 := .ite h1.quitPair h1
  have h3 : MemWf s3 := h2.cancel.modCore
  have h4 : MemWf s4 := h3
  exact h4.orphan.endThread

protected theorem MemWf.retire {c k} (h : MemWf s) : MemWf (s.retire c k) := .ite h.modSeat h.retireNow
protected theorem MemWf.teardown {vd} (h : MemWf s) : MemWf (s.teardown vd) := by
  unfold State.teardown
  extract_lets mine s0 s1 s2 s3 s4 s5
  have h3 : MemWf s3 := MemWf.foldl (fun _ _ h1 => .ite h1.cancel h1) (.foldl (fun _ _ h1 => h1.retireNow) h)
  exact .modVd (.foldl (fun _ _ h1 => .ite h1.setDstate h1) h3.retractAll)

end Sys2Proof.Safety
end

section
/-! PROOFS. Sys2Proof/Machine/Ops.lean: what its operations do keeps the canonical form of every memory (R89, R92; log 4). -/
namespace Sys2Proof.Safety
open Sys2Proof.Machine

variable {s t : State} {α : Type}

protected theorem MemWf.doubleFault {c k} (h : MemWf s) : MemWf (s.doubleFault c k) := h.teardown.modCore
protected theorem MemWf.enterTrap {c k inst p} (h : MemWf s) : MemWf (s.enterTrap c k inst p) := h.locWrite.modSeat
protected theorem MemWf.settleTrap {c k} (h : MemWf s) : MemWf (s.settleTrap c k) := by
  unfold State.settleTrap
  dsimp only
  split
  · exact .ite h.enterTrap h
  · exact h.doubleFault
  · exact h

protected theorem MemWf.gangEpc {a pc} (h : MemWf s) : MemWf (s.gangEpc a pc) := by
  unfold State.gangEpc
  split
  · exact .ite h.modCores h
  · exact h

protected theorem MemWf.takeTrap {a t save} (h : MemWf s) : MemWf (s.takeTrap a t save) := by
  unfold State.takeTrap
  dsimp only
  split
  · exact .doubleFault (.modSeat (h.settle :))
  · exact .ite (.doubleFault (.modSeat (h.settle :))) (.ite (.enterTrap (.ite (h.settle :) (.gangEpc (h.settle :))))
      (.modSeat (.ite (h.settle :) (.gangEpc (h.settle :)))))

protected theorem MemWf.leaveHandler {c k h0} (h : MemWf s) : MemWf (s.leaveHandler c k h0) :=
  .ite (.retireNow (.ite h.modSeat.modCore h.modSeat)) (.ite h.modSeat.modCore h.modSeat)

protected theorem MemWf.stopped {st} (h : MemWf s) (ht : MemWf t) : MemWf (stopped s st t) := by
  cases st with
  | trap tr => exact h.takeTrap
  | trapAt tr => exact ht.takeTrap
  | wait => exact h
  | waitAt => exact ht
  | double => exact h.doubleFault

protected theorem NextWf.issue {hd} {body : M Unit} (hb : KeepsMem body) (h : MemWf s) : NextWf (issue hd body s) := by
  unfold issue
  split
  · split
    next hr => exact .next (hb.ok h hr).advance
    next hr => exact .next (h.stopped (hb.error h hr))
  · exact .next h.advance

protected theorem NextWf.jump {hd} {body : M (Bool × Nat)} (hb : KeepsMem body) (h : MemWf s) : NextWf (jump hd body s) := by
  unfold jump
  split
  · split
    next hr => exact .next (hb.ok h hr).goto.hints
    next hr => exact .next (h.stopped (hb.error h hr))
  · exact .next h.advance

protected theorem NextWf.leave {hd} {body : M Unit} (hb : KeepsMem body) (h : MemWf s) : NextWf (leave hd body s) := by
  unfold leave
  split
  · split
    next hr => exact .next (hb.ok h hr)
    next hr => exact .next (h.stopped (hb.error h hr))
  · exact .next h.advance

protected theorem KeepsMem.noHandler : KeepsMem noHandler := .bind .me fun _ => .ite .throw .pure
protected theorem KeepsMem.nextIdx : KeepsMem nextIdx := .bind .look fun _ => .bind .look fun _ => .pure

end Sys2Proof.Safety
end

section
/-! PROOFS. Sys2Proof/Machine/Deque.lean: what its operations do keeps the canonical form of every memory (R89, R92; log 4). -/
namespace Sys2Proof.Safety
open Sys2Proof.Machine

variable {s t : State} {α : Type}

protected theorem MemWf.flushEvents {n vd} (h : MemWf s) : MemWf (s.flushEvents n vd) := by
  induction n generalizing s with
  | zero => exact h
  | succ n ih =>
    unfold State.flushEvents
    dsimp only
    split
    · exact h
    · split
      · exact h
      · split
        next hr => exact (KeepsMem.unitWrite.error h hr)
        next => exact h
        next hr => exact ih (KeepsMem.unitWrite.ok h hr).modVd

protected theorem MemWf.postEvent {vd e} (h : MemWf s) : MemWf (s.postEvent vd e) :=
  .ite h.modVd.flushEvents.teardown h.modVd.flushEvents

protected theorem KeepsMem.attempt {m : M α} (hm : KeepsMem m) : KeepsMem (attempt m) := by
  intro s h
  unfold attempt
  split
  next hr => exact hm.ok h hr
  next => exact h
  next hr => exact hm.error h hr
  next hr => exact hm.error h hr

protected theorem MemWf.setLaunch {l} (h : MemWf s) : MemWf (s.setLaunch l) := h
protected theorem KeepsMem.placeTake {c t src} : KeepsMem (placeTake c t src) :=
  .bind .look fun _ => .bind (.change fun _ h1 => h1.setCore) fun _ => .pure

protected theorem KeepsMem.stealFrom {c l ns} : KeepsMem (stealFrom c l ns) := by
  induction ns with
  | nil => exact .pure
  | cons n ns ih =>
    exact .bind .look fun _ => .ite (.bind (.change fun _ h => h.modCore) fun _ => .bind .look fun _ =>
      .ite (.bind (.change fun _ h => h.setCore) fun _ => .ite .pure .placeTake) ih) ih

protected theorem KeepsMem.overflowTake {c l} : KeepsMem (overflowTake c l) :=
  .bind (.attempt (.bind .unitRead fun _ => .ite .pure (.bind .unitRead fun _ => .bind .unitWrite fun _ => .pure))) fun _ => by
    split
    · exact .bind .look fun _ => .ite_else_bind (.change fun _ h1 => h1.setLaunch.postEvent) fun _ => .pure
    · exact .bind (.change fun _ h1 => by
        split
        · exact h1.setLaunch
        · exact h1) fun _ => by
        split
        · exact .pure
        · exact .ite .placeTake .pure

protected theorem KeepsMem.search {c l} : KeepsMem (search c l) :=
  .bind (.change fun _ h1 => h1.modCore) fun _ => .bind .look fun _ => .ite (.bind (.change fun _ h1 => h1.setCore) fun _ =>
    .pure) (.ite .pure (.bind .stealFrom fun _ => by
    split
    · exact .pure
    · exact .overflowTake))

end Sys2Proof.Safety
end

section
/-! PROOFS. Sys2Proof/Machine/Fetch.lean: what its operations do keeps the canonical form of every memory (R89, R92; log 4). -/
namespace Sys2Proof.Safety
open Sys2Proof.Machine

variable {s t : State} {α : Type}

protected theorem MemWf.prefetch {a} (h : MemWf s) : MemWf (s.prefetch a) := by
  unfold State.prefetch
  dsimp only
  split
  · exact h
  · exact .ite h (.ite h (.ite h (.ite h h.modStrand)))

end Sys2Proof.Safety
end

section
/-! PROOFS. Sys2Proof/Machine/Control.lean: what its operations do keeps the canonical form of every memory (R89, R92; log 4). -/
namespace Sys2Proof.Safety
open Sys2Proof.Machine

variable {s t : State} {α : Type}

protected theorem KeepsMem.deliver {tls} : KeepsMem (deliver tls) :=
  .bind .look fun _ => by
    split
    · exact .raise
    · exact .pure

protected theorem KeepsMem.meet {crossing} : KeepsMem (meet crossing) :=
  .bind .deliver fun _ => .bind .look fun _ => .bind .waitFor fun _ => .ite .pure .release

protected theorem KeepsMem.mayEnd : KeepsMem mayEnd := .bind .me fun _ => .bind .need fun _ => .need
protected theorem KeepsMem.target {a} : KeepsMem (target a) :=
  .bind .nextIdx fun _ => by
    split
    · exact .pure
    · exact .bind .readN64 fun _ => .pure

protected theorem NextWf.execNop {h0} (h : MemWf s) : NextWf (execNop h0 s) := .issue .pure h
protected theorem NextWf.execBra {h0 a} (h : MemWf s) : NextWf (execBra h0 a s) := .jump (.bind .target fun _ => .pure) h
protected theorem NextWf.execBrx {h0 lim a b} (h : MemWf s) : NextWf (execBrx h0 lim a b s) :=
  .jump (.bind .target fun _ => .bind .readN64 fun _ => .ite .pure (.bind .nextIdx fun _ => .pure)) h

protected theorem NextWf.execCall {h0 d a} (h : MemWf s) : NextWf (execCall h0 d a s) :=
  .jump (.bind .target fun _ => .bind .nextIdx fun _ => .bind .writeScal fun _ => .pure) h

protected theorem NextWf.execRet {h0 a} (h : MemWf s) : NextWf (execRet h0 a s) := .jump (.bind .readN64 fun _ => .pure) h
protected theorem NextWf.execLoop {h0 d a} (h : MemWf s) : NextWf (execLoop h0 d a s) :=
  .jump (.bind .target fun _ => .bind .readD fun _ => .bind .nextIdx fun _ => .ite .pure (.bind .writeScal fun _ => .pure)) h

protected theorem NextWf.execRep {h0 ds as bs a} (h : MemWf s) : NextWf (execRep h0 ds as bs a s) := by
  unfold execRep
  split
  · exact .next h.takeTrap
  · exact .jump (.bind .readN64 fun _ => .bind .need fun _ => .bind .look fun _ => .bind .modMe fun _ =>
      .bind .nextIdx fun _ => .pure) h

protected theorem NextWf.execExit {h0} (h : MemWf s) : NextWf (execExit h0 s) :=
  .leave (.bind .look fun _ => by
    split
    · exact .bind .noHandler fun _ => .bind .mayEnd fun _ => .bind .meet fun _ => .change fun _ h1 => h1.hints.endThread
    · exact .bind .deliver fun _ => .change fun _ h1 => h1.hints.modStrand) h

protected theorem KeepsMem.fullField {opnd a} : KeepsMem (fullField opnd a) :=
  .bind .me fun _ => by
    split
    · exact .bind .useView fun _ => .ite_bind .fullOr fun _ => .pure
    · exact .ite .raise_bind (.ite_bind .fullOr fun _ => .pure)
    · exact .raise
    · exact .raise

protected theorem NextWf.execWaitf {h0 a b} (h : MemWf s) : NextWf (execWaitf h0 a b s) :=
  .issue (.bind .fullField fun _ => by
    dsimp only
    split
    · exact .bind .fullField fun _ => .waitFor
    · exact .bind .pure fun _ => .waitFor) h

end Sys2Proof.Safety
end

section
/-! PROOFS. Sys2Proof/Machine/Tile.lean: what its operations do keeps the canonical form of every memory (R89, R92; log 4). -/
namespace Sys2Proof.Safety
open Sys2Proof.Machine

variable {s t : State} {α : Type}

protected theorem KeepsMem.readElem {f opnd a} : KeepsMem (readElem f opnd a) := by
  unfold readElem
  dsimp only
  split
  · exact .raise
  · exact .bind .readScal fun _ => .pure
  · exact .ite .raise_bind (.bind .readBank fun _ => .ite .pure .pure)
  · exact .pure

protected theorem KeepsMem.modOk {f a} : KeepsMem (modOk f a) := .bind .look fun _ => .ite .raise .pure
protected theorem KeepsMem.destView {f set d} : KeepsMem (destView f set d) :=
  .bind .useView fun _ => .bind .need fun _ => .bind .need fun _ => .pure

protected theorem KeepsMem.checkSrc {opnd ok a} : KeepsMem (checkSrc opnd ok a) := by
  unfold checkSrc
  split
  · exact .bind .useView fun _ => .need
  · exact .pure

protected theorem KeepsMem.loadSrc {opnd f a} : KeepsMem (loadSrc opnd f a) := by
  unfold loadSrc
  split
  · exact .bind .viewFull fun _ => .bind .me fun _ => .pure
  · exact .bind .readElem fun _ => .pure

protected theorem KeepsMem.loadI64 {opnd a} : KeepsMem (loadI64 opnd a) := by
  unfold loadI64
  split
  · exact .bind .loadSrc fun _ => .pure
  · exact .bind .readI64 fun _ => .pure

protected theorem KeepsMem.atGroup {n g fills} : KeepsMem (atGroup n g fills) := .change fun _ h1 => .modMe
  (.ite h1.modMyCore h1)

/-- What a tile instruction does to a group keeps the canonical form. -/
def KeepsJob (j : Job) : Prop := ∀ s g, MemWf s → MemWf (j.act s g)

theorem KeepsJob.of_act {act : State → Nat → State} (h : ∀ s g, MemWf s → MemWf (act s g)) {n r w} :
    KeepsJob ⟨n, r, w, act⟩ := h

theorem KeepsJob.plan {j : Job} (hj : KeepsJob j) (c g : Nat) : KeepsGroup (j.plan c g) := ⟨fun _ => .pauseTile, fun s => hj s g⟩

protected theorem KeepsMem.jobGroup {j g ch} (hj : KeepsJob j) : KeepsMem (Job.group j g ch) := by
  refine .bind .atGroup fun _ => .ite_bind .pauseTile fun _ => .bind .look fun rs => .bind .look fun ws =>
    .bind (.forL fun _ => .checkRuns) fun _ => .bind (.forL fun _ => .checkRuns) fun _ => .bind .look fun _ =>
    .ite_bind .pauseTile fun _ => .bind .goodRuns fun _ => ?_
  cases ch with
  | none => exact .bind (.change fun _ h => (hj _ _ h).clearWhole) fun _ => .pure
  | some _ => exact .bind .look fun _ => .groupRun (hj.plan _ _)

protected theorem KeepsMem.jobGroups {j gs ch} (hj : KeepsJob j) : KeepsMem (Job.groups j gs ch) := by
  induction gs generalizing ch with
  | nil => exact .pure
  | cons g gs ih => exact .bind (.jobGroup hj) fun _ => ih

protected theorem KeepsMem.jobRun {j n} (hj : KeepsJob j) : KeepsMem (Job.run j n) := by
  refine .bind .afterLda fun _ => .bind .bankQuiet fun _ => .bind .look fun ch => .bind .look fun r => ?_
  cases r with
  | some r =>
    exact .bind .look fun _ => .bind (.groupRun (hj.plan _ _)) fun _ => .ite_bind .boundary fun _ =>
      .bind (.jobGroups hj) fun _ => .bind (.change fun _ h => h.freeTile) fun _ => .modMe
    trace_state
  | none => exact .bind .me fun _ => .bind (.jobGroups hj) fun _ => .bind (.change fun _ h => h.freeTile) fun _ => .modMe

protected theorem KeepsMem.fromZero {n m} (hm : KeepsMem m) : KeepsMem (fromZero n m) := by
  refine .bind .tileFree fun _ s h => ?_
  have hr := hm s h
  split
  · exact .ite h h.modMe
  · exact hr

protected theorem KeepsMem.tileOp {n m} (hm : KeepsMem m) : KeepsMem (tileOp n m) := .bind .noHandler fun _ => .fromZero hm
protected theorem MemWf.fillCells {c v cells f} (h : MemWf s) : MemWf (s.fillCells c v cells f) :=
  (MemWf.foldl_fst (fun _ _ h => h.putElem) h).modMe

theorem KeepsJob.cellJob {c d v reads f} : KeepsJob (cellJob c d v reads f) := fun _ _ h => h.fillCells
protected theorem KeepsMem.pointwise {d v xs f} : KeepsMem (pointwise d v xs f) := .bind .look fun _ => .jobRun .cellJob
protected theorem NextWf.execTview {h0 d a} (h : MemWf s) : NextWf (execTview h0 d a s) :=
  .issue (.bind .noHandler fun _ => .bind .tileFree fun _ => .bind .readN64 fun _ => .bind .need fun _ =>
    .bind .need fun _ => .bind .me fun _ => .bind .waitFor fun _ => .modMe) h

protected theorem NextWf.execTvalid {h0 clamp d a b} (h : MemWf s) : NextWf (execTvalid h0 clamp d a b s) :=
  .issue (.tileOp (.bind .useView fun _ => .bind .readI64 fun _ => .bind .readI64 fun _ => .bind .viewFree fun _ =>
    .ite .modMe (.bind .need fun _ => .bind .need fun _ => .modMe))) h

protected theorem NextWf.execTget {h0 d a b} (h : MemWf s) : NextWf (execTget h0 d a b s) :=
  .issue (.bind .noHandler fun _ => .bind .tileFree fun _ => .bind .tileNum fun _ => .bind .readI64 fun _ =>
    .bind .need fun _ => .bind .me fun _ => .writeScal) h

protected theorem NextWf.execTldr {h0 d a} (h : MemWf s) : NextWf (execTldr h0 d a s) :=
  .issue (.bind .noHandler fun _ => .bind .tileFree fun _ => .bind .readN64 fun _ => .bind .need fun _ => .bind .me fun _ =>
    .bind .waitFor fun _ => .bind .afterLda fun _ => .bind .bankQuiet fun _ => .bind .look fun _ => .bind .look fun _ =>
      .ite .throw_bind (.bind .look fun _ => .bind .waitFor fun _ => .bind .look fun _ => by
    split
    · exact .throw
    · exact .bind .look fun _ => .bind .need fun _ => .modMe)) h

end Sys2Proof.Safety
end

section
/-! PROOFS. Sys2Proof/Machine/TileOps.lean: what its operations do keeps the canonical form of every memory (R89, R92; log 4). -/
namespace Sys2Proof.Safety
open Sys2Proof.Machine

variable {s t : State} {α : Type}

protected theorem KeepsMem.moveCells {d v n y src} : KeepsMem (moveCells d v n y src) := .bind .look fun _ => .jobRun .cellJob
protected theorem KeepsMem.tileSrc {v a} : KeepsMem (tileSrc v a) :=
  .bind .tileNum fun _ => .bind .checkSrc fun _ => .bind .viewFull fun _ => .bind .me fun _ => .pure

protected theorem NextWf.moveOp {h0 f d a src} (h : MemWf s) : NextWf (moveOp h0 f d a src s) :=
  .issue (.tileOp (.bind .destView fun _ => .bind .tileSrc fun _ => .bind .viewFree fun _ => .moveCells)) h

protected theorem NextWf.execTmov {h0 f d a} (h : MemWf s) : NextWf (execTmov h0 f d a s) := .moveOp h
protected theorem NextWf.execTbcast {h0 f col d a} (h : MemWf s) : NextWf (execTbcast h0 f col d a s) := .moveOp h
protected theorem NextWf.execTtrans {h0 f d a} (h : MemWf s) : NextWf (execTtrans h0 f d a s) := .moveOp h
protected theorem KeepsMem.copyBlocks {d v n y} : KeepsMem (copyBlocks d v n y) :=
  .bind .look fun _ => .jobRun fun _ _ h1 => by
    dsimp only
    exact .fillCells (.foldl (fun _ _ h2 => .foldl (fun _ _ h3 => h3.setBits) h2.zeroRest) h1)

protected theorem KeepsMem.copyPlanes {d v n y} : KeepsMem (copyPlanes d v n y) :=
  .bind .look fun _ => .jobRun fun _ _ h1 => by
    dsimp only
    exact .foldl (fun _ _ h2 => h2.setBits) h1

protected theorem NextWf.execTcopy {h0 f d a} (h : MemWf s) : NextWf (execTcopy h0 f d a s) :=
  .issue (.tileOp (.bind .useView fun _ => .bind .need fun _ => .bind .tileNum fun _ => .bind .useView fun _ =>
    .bind .need fun _ => .bind .need fun _ => by
    extract_lets jp
    have hjp : ∀ a, KeepsMem (jp a) := fun _ => .bind .viewFull fun _ => .bind .viewFree fun _ => .ite .copyPlanes
      (.ite .copyBlocks .moveCells)
    exact .ite (.bind .need fun _ => .bind .need hjp) (hjp ()))) h

protected theorem NextWf.execTfill {h0 f d a} (h : MemWf s) : NextWf (execTfill h0 f d a s) :=
  .issue (.tileOp (.bind .destView fun _ => .bind .readElem fun _ => .bind .viewFree fun _ => .pointwise)) h

protected theorem NextWf.execTiota {h0 m mode d a b} (h : MemWf s) : NextWf (execTiota h0 m mode d a b s) :=
  .issue (.tileOp (.bind .destView fun _ => .bind .readElem fun _ => .bind .readElem fun _ => .bind .viewFree fun _ =>
    .bind .me fun _ => .pointwise)) h

protected theorem NextWf.execTgather {h0 f flat d a b} (h : MemWf s) : NextWf (execTgather h0 f flat d a b s) :=
  .issue (.tileOp (.bind .destView fun _ => .bind .checkSrc fun _ => .bind .checkSrc fun _ => .bind .tileSrc fun _ =>
    .bind .loadI64 fun _ => .bind .viewFree fun _ => .bind .look fun _ => .jobRun .cellJob)) h

protected theorem NextWf.tile2 {h0 fm set rd d a b f} (h : MemWf s) : NextWf (tile2 h0 fm set rd d a b f s) :=
  .issue (.tileOp (.bind .destView fun _ => .bind .checkSrc fun _ => .bind .checkSrc fun _ => .bind .modOk fun _ =>
    .bind .modOk fun _ => .bind .loadSrc fun _ => .bind .loadSrc fun _ => .bind .viewFree fun _ => .bind .me fun _ =>
      .pointwise)) h

protected theorem NextWf.tile1 {h0 fm set d a f} (h : MemWf s) : NextWf (tile1 h0 fm set d a f s) :=
  .issue (.tileOp (.bind .destView fun _ => .bind .checkSrc fun _ => .bind .modOk fun _ => .bind .loadSrc fun _ =>
    .bind .viewFree fun _ => .bind .me fun _ => .pointwise)) h

protected theorem NextWf.execTadd {h0 m d a b} (h : MemWf s) : NextWf (execTadd h0 m d a b s) := .tile2 h
protected theorem NextWf.execTsub {h0 m d a b} (h : MemWf s) : NextWf (execTsub h0 m d a b s) := .tile2 h
protected theorem NextWf.execTmul {h0 m d a b} (h : MemWf s) : NextWf (execTmul h0 m d a b s) := .tile2 h
protected theorem NextWf.execTfma {h0 m d a b} (h : MemWf s) : NextWf (execTfma h0 m d a b s) := .tile2 h
protected theorem NextWf.execTdiv {h0 f rnd d a b} (h : MemWf s) : NextWf (execTdiv h0 f rnd d a b s) := .tile2 h
protected theorem NextWf.execTmin {h0 f d a b} (h : MemWf s) : NextWf (execTmin h0 f d a b s) := .tile2 h
protected theorem NextWf.execTmax {h0 f d a b} (h : MemWf s) : NextWf (execTmax h0 f d a b s) := .tile2 h
protected theorem NextWf.execTabs {h0 f satx d a} (h : MemWf s) : NextWf (execTabs h0 f satx d a s) := .tile1 h
protected theorem NextWf.execTneg {h0 f satx d a} (h : MemWf s) : NextWf (execTneg h0 f satx d a s) := .tile1 h
protected theorem NextWf.execTand {h0 f d a b} (h : MemWf s) : NextWf (execTand h0 f d a b s) := .tile2 h
protected theorem NextWf.execTor {h0 f d a b} (h : MemWf s) : NextWf (execTor h0 f d a b s) := .tile2 h
protected theorem NextWf.execTxor {h0 f d a b} (h : MemWf s) : NextWf (execTxor h0 f d a b s) := .tile2 h
protected theorem NextWf.tileShift {h0 fm d a b f} (h : MemWf s) : NextWf (tileShift h0 fm d a b f s) :=
  .issue (.tileOp (.bind .destView fun _ => .bind .checkSrc fun _ => .bind .checkSrc fun _ => .bind .modOk fun _ =>
    .bind .modOk fun _ => .bind .loadSrc fun _ => by
    extract_lets jp
    have hjp : ∀ a, KeepsMem (jp a) := fun _ => .bind .viewFree fun _ => .pointwise
    split
    · exact .bind .readN64 fun _ => .bind .pure hjp
    · exact .bind .loadSrc hjp)) h

protected theorem NextWf.execTshl {h0 f d a b} (h : MemWf s) : NextWf (execTshl h0 f d a b s) := .tileShift h
protected theorem NextWf.execTshr {h0 f d a b} (h : MemWf s) : NextWf (execTshr h0 f d a b s) := .tileShift h
protected theorem KeepsMem.viewFmt {a} : KeepsMem (viewFmt a) := by
  unfold viewFmt
  split
  · exact .bind .me fun _ => .pure
  · exact .pure

protected theorem NextWf.execTcmp {h0 f cc d a b} (h : MemWf s) : NextWf (execTcmp h0 f cc d a b s) :=
  .issue (.tileOp (.bind .destView fun _ => .bind .viewFmt fun _ => .bind .viewFmt fun _ => .bind .checkSrc fun _ =>
    .bind .checkSrc fun _ => .bind .loadSrc fun _ => .bind .loadSrc fun _ => .bind .viewFree fun _ => .bind .me fun _ =>
      .pointwise)) h

protected theorem NextWf.execTsel {h0 f mv d a b} (h : MemWf s) : NextWf (execTsel h0 f mv d a b s) :=
  .issue (.tileOp (.bind .destView fun _ => .bind .checkSrc fun _ => .bind .checkSrc fun _ => .bind .useView fun _ =>
    .bind .need fun _ => .bind .loadSrc fun _ => .bind .loadSrc fun _ => .bind .viewFull fun _ => .bind .viewFree fun _ =>
      .pointwise)) h

protected theorem NextWf.execTcmul {h0 f rnd d a b} (h : MemWf s) : NextWf (execTcmul h0 f rnd d a b s) := .tile2 h
protected theorem NextWf.execTcfma {h0 f rnd d a b} (h : MemWf s) : NextWf (execTcfma h0 f rnd d a b s) := .tile2 h
protected theorem NextWf.execTred {h0 m op axis d a} (h : MemWf s) : NextWf (execTred h0 m op axis d a s) :=
  .issue (.tileOp (.bind .destView fun _ => .bind .tileSrc fun _ => .bind .viewFree fun _ => .bind .look fun _ =>
    .bind .me fun _ => by
    dsimp only
    split
    · exact .jobRun fun _ _ h1 => by
        dsimp only
        exact .ite h1 h1.fillCells
    · exact .jobRun fun _ _ h1 => by
        dsimp only
        exact .ite h1 h1.fillCells
    · exact .jobRun fun _ _ h1 => by
        dsimp only
        exact .ite h1 h1.fillCells)) h

end Sys2Proof.Safety
end

section
/-! PROOFS. Sys2Proof/Machine/Special.lean: what its operations do keeps the canonical form of every memory (R89, R92; log 4). -/
namespace Sys2Proof.Safety
open Sys2Proof.Machine

variable {s t : State} {α : Type}

protected theorem NextWf.execTexp2 {h0 f d a} (h : MemWf s) : NextWf (execTexp2 h0 f d a s) := .tile1 h
protected theorem NextWf.execTlog2 {h0 f d a} (h : MemWf s) : NextWf (execTlog2 h0 f d a s) := .tile1 h
protected theorem NextWf.execTrsq {h0 f d a} (h : MemWf s) : NextWf (execTrsq h0 f d a s) := .tile1 h
protected theorem NextWf.execTsin {h0 f d a} (h : MemWf s) : NextWf (execTsin h0 f d a s) := .tile1 h
protected theorem NextWf.execTcos {h0 f d a} (h : MemWf s) : NextWf (execTcos h0 f d a s) := .tile1 h
protected theorem NextWf.execTrcp {h0 f rnd d a} (h : MemWf s) : NextWf (execTrcp h0 f rnd d a s) := .tile1 h
protected theorem NextWf.execTsqrt {h0 f rnd d a} (h : MemWf s) : NextWf (execTsqrt h0 f rnd d a s) := .tile1 h
protected theorem MemWf.convRow {c v cv fromInt i xs} (h : MemWf s) : MemWf (s.convRow c v cv fromInt i xs).1 := by
  unfold State.convRow
  dsimp only
  split
  · exact .foldl_fst (fun _ _ hq => .foldl (fun _ _ ht => .ite ht.putElem ht) hq.locWrite) h.zeroRest
  · exact .foldl_fst (fun _ _ hq => hq.putElem) h

protected theorem MemWf.convGroup {c v y cv g} (h : MemWf s) : MemWf (convGroup s c v y cv g) :=
  .foldl (fun _ _ h1 => h1.convRow.modMe) h

protected theorem MemWf.convComplex {c v y cv g} (h : MemWf s) : MemWf (convComplex s c v y cv g) :=
  .foldl (fun _ _ h1 => h1.putElem.modMe) h

protected theorem NextWf.execTconv {h0 m had d a b} (h : MemWf s) : NextWf (execTconv h0 m had d a b s) :=
  .issue (.tileOp (.bind .useView fun _ => .bind .need fun _ => .bind .tileNum fun _ => .bind .useView fun _ =>
    .bind .need fun _ => .bind .need fun _ => .bind .need fun _ => .bind .need fun _ => .bind .need fun _ =>
      .bind .viewFull fun _ => .bind (.readOpt fun _ => .readI64) fun _ => .bind .need fun _ => .bind .viewFree fun _ =>
        .bind .look fun _ => .bind .me fun _ => .jobRun fun _ _ h1 => by
    dsimp only
    exact .ite h1 (.ite h1.convComplex h1.convGroup))) h

protected theorem NextWf.execTscale {h0 f rnd d a b} (h : MemWf s) : NextWf (execTscale h0 f rnd d a b s) :=
  .issue (.tileOp (.bind .destView fun _ => .bind .checkSrc fun _ => .bind .checkSrc fun _ => .bind .loadSrc fun _ =>
    .bind .loadI64 fun _ => .bind .viewFree fun _ => .bind .me fun _ => .pointwise)) h

protected theorem NextWf.execTsplit {h0 f d a} (h : MemWf s) : NextWf (execTsplit h0 f d a s) := by
  refine .issue (.tileOp (.bind .need fun _ => .bind .destView fun _ => .bind .useView fun _ => .bind .useView fun _ =>
    .bind .need fun _ => .bind .need fun _ => .bind .tileNum fun _ => .bind .checkSrc fun _ => .bind .viewFull fun _ =>
    .bind .viewFree fun _ => .bind .viewFree fun _ => .bind .viewFree fun _ => .bind .look fun _ => .bind .me fun _ =>
    .jobRun (.of_act fun t g ht => ?_))) h
  extract_lets _ _ t1 t2
  have h1 : MemWf t1 := ht.fillCells
  have h2 : MemWf t2 := h1.fillCells
  exact h2.fillCells

end Sys2Proof.Safety
end

section
/-! PROOFS. Sys2Proof/Machine/Engine.lean: what its operations do keeps the canonical form of every memory (R89, R92; log 4). -/
namespace Sys2Proof.Safety
open Sys2Proof.Machine

variable {s t : State} {α : Type}

protected theorem KeepsMem.readTensor {z} : KeepsMem (readTensor z) :=
  .bind .myLaunch fun _ => .bind .look fun _ => by
    split
    · exact .raise
    · exact .bind .unitRead fun _ => by
        split
        · exact .pure
        · exact .raise

protected theorem KeepsMem.spotPlace {c w k st x} : KeepsMem (Spot.place c w k st x) := by
  unfold Spot.place
  split
  · exact .pure
  · exact .bind .unitPlaces fun _ => .pure

protected theorem KeepsMem.freeHdr : KeepsMem freeHdr := .bind .look fun _ => .bind (.change fun _ h1 => h1) fun _ => .pure
protected theorem KeepsMem.rowMoves {c w f adds zero src dst r n} : KeepsMem (rowMoves c w f adds zero src dst r n) :=
  .bind (.mapL fun _ => by
    split
    · exact .bind .spotPlace fun _ => .bind .spotPlace fun _ => .pure
    · exact .ite (.bind .spotPlace fun _ => .pure) .pure
    · exact .pure) fun _ => .ite .pure (.bind (.mapL fun _ => by
    split
    · exact .bind .spotPlace fun _ => .pure
    · exact .ite (.bind .spotPlace fun _ => .bind .spotPlace fun _ => .pure) (.bind .freeHdr fun _ =>
        .bind .spotPlace fun _ => .pure)) fun _ => by
    dsimp only
    split
    · exact .ite (.bind .pure fun _ => .pure) (.bind (.bind .spotPlace fun _ => .pure) fun _ => .bind .pure fun _ => .pure)
    · exact .bind .pure fun _ => .pure)

protected theorem KeepsMem.sideCheck {c w k st tr rs} : KeepsMem (sideCheck c w k st tr rs) :=
  .bind .look fun _ => by
    split
    · exact .throw
    · exact .pure

protected theorem KeepsMem.viewSide {c w k st rs} : KeepsMem (viewSide c w k st rs) := .sideCheck
protected theorem KeepsMem.operandSide {c n w k rs} : KeepsMem (operandSide c n w k rs) := .sideCheck

end Sys2Proof.Safety
end

section
/-! PROOFS. Sys2Proof/Machine/Launch.lean: what its operations do keeps the canonical form of every memory (R89, R92; log 4). -/
namespace Sys2Proof.Safety
open Sys2Proof.Machine

variable {s t : State} {α : Type}

protected theorem MemWf.writeQtl {vd q w} (h : MemWf s) : MemWf (s.writeQtl vd q w) := h.modQueue
protected theorem KeepsMem.traps {m : M α} (hm : KeepsMem m) : KeepsMem (traps m) :=
  .bind (.attempt hm) fun _ => by split <;> exact .pure

theorem KeepsMem.readable {w : Who} {a n : Nat} : KeepsMem (do
    let bad ← traps (unitPlaces none w a n .r false)
    pure !bad) := .bind (.traps .unitPlaces) fun _ => .pure

protected theorem KeepsMem.checkLaunch {l} : KeepsMem (checkLaunch l) := by
  refine .bind .look fun _ => .ite .pure (.ite .pure (.bind .look fun _ => .ite .pure (.ite .pure (.ite .pure
    (.bind .readable fun _ => .ite_bind_bind .pure .readable fun t2 => ?_)))))
  beta_reduce
  extract_lets jp
  have hjp : ∀ a, KeepsMem (jp a) := fun _ => .bind (.attempt .unitRead) fun _ => .ite .pure
    (.bind (.traps .unitPlaces) fun _ => .ite .pure (.bind .readable fun _ => .pure))
  refine .ite (.bind .pure hjp) (.bind (.attempt .unitRead) fun r => ?_)
  cases r with
  | error _ => exact .bind .pure hjp
  | ok _ => exact .bind .readable hjp

protected theorem MemWf.refuse {l reason} (h : MemWf s) : MemWf (s.refuse l reason) := by
  unfold State.refuse
  dsimp only
  split
  · exact .syncChild (.postEvent (.writeQtl h))
  · exact .postEvent (.writeQtl h)

protected theorem KeepsMem.submit {l} : KeepsMem (submit l) :=
  .bind .look fun _ => .bind .checkLaunch fun _ => .bind (.change fun _ h1 => .ite (.refuse h1) h1) fun _ => .pure

end Sys2Proof.Safety
end

section
/-! PROOFS. Sys2Proof/Machine/Copy.lean: what its operations do keeps the canonical form of every memory (R89, R92; log 4). -/
namespace Sys2Proof.Safety
open Sys2Proof.Machine

variable {s t : State} {α : Type}

protected theorem KeepsMem.copyOpPlan {o c g} : KeepsMem (CopyOp.plan o c g) := by
  refine .look_bind fun s _ => ?_
  split
  · exact .bind (.mapL fun _ => .rowMoves) fun _ => .pure
  · refine .bind .viewSide fun _ => ?_
    cases o.idx with
    | some b => exact .bind .viewSide fun _ => .bind (.mapL fun _ => .rowMoves) fun _ => .pure
    | none => exact .bind (.mapL fun _ => .rowMoves) fun _ => .pure

protected theorem MemWf.copyOpRunGroup_ok {o c code} (h : MemWf s) (hr : CopyOp.runGroup o c s = .ok (t, code)) : MemWf t := by
  unfold CopyOp.runGroup at hr
  split at hr
  case h_5 ms s1 hp =>
    obtain ⟨-, hr⟩ | ⟨-, hr⟩ := ite_eq_iff.mp hr
    · cases hr
    · have hw : MemWf (s1.doMoves (if o.fills then o.view.fm else o.tens.fm) o.c o.adds ms).1 :=
        (KeepsMem.copyOpPlan.ok h hp).doMoves
      cases hr
      exact hw
  all_goals cases hr

protected theorem MemWf.copyOpRunGroup {o c tr} (h : MemWf s) (hr : CopyOp.runGroup o c s = .error (tr, t)) : MemWf t := by
  unfold CopyOp.runGroup at hr
  split at hr
  case h_3 hp => cases hr; exact KeepsMem.copyOpPlan.error h hp
  case h_5 ms s1 hp =>
    obtain ⟨-, hr⟩ | ⟨-, hr⟩ := ite_eq_iff.mp hr
    · cases hr; exact h
    · cases hr
  all_goals cases hr; exact h

protected theorem NextWf.execCopyOpRetire {c k op} (h : MemWf s) : NextWf (execCopyOpRetire c k op s) := by
  unfold execCopyOpRetire
  split
  · exact .next h
  · refine .ite (.next h.modCore) ?_
    split
    next hr => exact .next (h.copyOpRunGroup hr)
    next hr => exact .ite (.next (h.copyOpRunGroup_ok hr).modCore) (.next (h.copyOpRunGroup_ok hr).modCore)

protected theorem KeepsMem.copyOrg {a} : KeepsMem (copyOrg a) := .bind .readRow fun _ => .pure
protected theorem KeepsMem.issueCopy {o} : KeepsMem (issueCopy o) :=
  .bind .look fun _ => .bind .look fun _ => .bind .look fun _ => by
    split
    · exact .bind .waitFor fun _ => .change fun _ h1 => h1.modMyCore
    · exact .bind .waitFor fun _ => .ite (.change fun _ h1 => h1.modMyCore) (.bind (.change fun _ h1 =>
        h1.modMyCore) fun _ => .throw)

protected theorem KeepsMem.mySpace : KeepsMem mySpace := .bind .me fun _ => .pure
protected theorem KeepsMem.copyView {d} : KeepsMem (copyView d) := .bind .useView fun _ => .bind .need fun _ => .pure
protected theorem KeepsMem.copyMods {d f t c} : KeepsMem (copyMods d f t c) := .bind .need fun _ => .need
protected theorem KeepsMem.viewCopy {kind z t c fit d a b} : KeepsMem (viewCopy kind z t c fit d a b) := by
  refine .bind .noHandler fun _ => .bind .afterLda fun _ => .bind .look fun _ => .bind .copyView fun _ => ?_
  extract_lets _ jp
  have hjp : ∀ idx, KeepsMem (jp idx) := by
    refine fun idx => .bind .copyMods fun _ => .bind .need fun _ => .bind .copyOrg fun _ => ?_
    extract_lets -underBinder last
    have hlast : ∀ u, KeepsMem (last u) := fun _ => .ite_bind_bind .viewFree .viewFull fun _ => .bind .readTensor fun _ =>
      .bind .need fun _ => .bind .mySpace fun _ => .look_bind fun _ _ => .bind .modMe fun _ => .issueCopy
    split
    · exact .bind .viewFull hlast
    · exact hlast ()
  cases b with
  | none => exact .bind .pure hjp
  | some b => exact .bind .tileNum fun _ => .bind .useView fun _ => .bind .need fun _ => .bind .pure hjp

protected theorem NextWf.execCpyLd {h0 z t c fit d a} (h : MemWf s) : NextWf (execCpyLd h0 z t c fit d a s) :=
  .issue .viewCopy h

protected theorem NextWf.execCpySt {h0 z t c d a} (h : MemWf s) : NextWf (execCpySt h0 z t c d a s) := .issue .viewCopy h
protected theorem NextWf.execCpyg {h0 z c d a b} (h : MemWf s) : NextWf (execCpyg h0 z c d a b s) := .issue .viewCopy h
protected theorem NextWf.execCpys {h0 z c d a b} (h : MemWf s) : NextWf (execCpys h0 z c d a b s) := .issue .viewCopy h
protected theorem NextWf.execCpyadd {h0 z t c d a} (h : MemWf s) : NextWf (execCpyadd h0 z t c d a s) := .issue .viewCopy h
protected theorem NextWf.execCpyx {h0 a} (h : MemWf s) : NextWf (execCpyx h0 a s) :=
  .issue (.bind .noHandler fun _ => .bind .afterLda fun _ => .bind .readN64 fun _ => .bind .need fun _ =>
    .bind .look fun _ => .bind .me fun _ => .bind .look fun _ => .ite .throw_bind (.bind .bankQuiet fun _ =>
      .bind .look fun _ => .bind .waitFor fun _ => .bind .look fun _ => by
    split
    · exact .throw
    · exact .bind .look fun _ => .bind .need fun _ => .bind .readTensor fun _ => .bind .readTensor fun _ =>
        .bind .need fun _ => .bind .mySpace fun _ => .issueCopy)) h

protected theorem NextWf.execTlwait {h0 d a} (h : MemWf s) : NextWf (execTlwait h0 d a s) :=
  .issue (.bind .noHandler fun _ => .bind .readN64 fun _ => .bind .look fun _ => .bind .need fun _ => .bind .deliver fun _ =>
    .waitFor) h

protected theorem NextWf.execTlget {h0 d a b} (h : MemWf s) : NextWf (execTlget h0 d a b s) :=
  .issue (.bind .noHandler fun _ => .bind .readN64 fun _ => .bind .readN64 fun _ => .bind .need fun _ => .bind .need fun _ =>
    .bind .deliver fun _ => .bind .look fun _ => .writeScal) h

protected theorem NextWf.execTladv {h0 d a} (h : MemWf s) : NextWf (execTladv h0 d a s) :=
  .issue (.bind .noHandler fun _ => .bind .need fun _ => .bind .readN64 fun _ => .bind .need fun _ => .bind .release fun _ =>
    .change fun _ h1 => h1.modMyCore) h

end Sys2Proof.Safety
end

section
/-! PROOFS. Sys2Proof/Machine/Matrix.lean: what its operations do keeps the canonical form of every memory (R89, R92; log 4). -/
namespace Sys2Proof.Safety
open Sys2Proof.Machine

variable {s t : State} {α : Type}

protected theorem MemWf.accWrite {c a r j v} (h : MemWf s) : MemWf (s.accWrite c a r j v) := h.setAcc (memWrites_wf _ _ h.acc)
protected theorem MemWf.putCells {c a l} (h : MemWf s) : MemWf (s.putCells c a l).1 := by
  unfold State.putCells
  split
  · exact .foldl (fun _ _ h1 => h1.accWrite) h
  · exact .foldl (fun _ _ h1 => (h1.accWrite :)) h

protected theorem MemWf.putAcc {c o l} (h : MemWf s) : MemWf (s.putAcc c o l).1 := h.putCells.modSeat
protected theorem MemWf.mmaGroup {c o sat la lb} (h : MemWf s) : MemWf (s.mmaGroup c o sat la lb).1 := h.putAcc
protected theorem KeepsMem.matOpLocalQuiet {o c rs} : KeepsMem (MatOp.localQuiet o c rs) := .bind .look fun _ => .waitFor
protected theorem KeepsMem.await {l} : KeepsMem (await l : M α) := by
  unfold await
  split
  · exact .pure
  · exact .throw

protected theorem KeepsMem.matOpMulGroup {o c sat} : KeepsMem (MatOp.mulGroup o c sat) := by
  refine .ite_bind .operandSide fun _ => .ite_bind .operandSide fun _ => ?_
  beta_reduce
  extract_lets jpa
  have hjpa : ∀ fa, KeepsMem (jpa fa) := by
    intro fa
    dsimp -zeta only [jpa]
    extract_lets jpb
    have hjpb : ∀ fb, KeepsMem (jpb fb) := fun fb => .bind .matOpLocalQuiet fun _ => .bind .look fun _ =>
      .bind .look fun _ => .ite_bind (.change fun _ h => h.modCore)
        fun _ => .look_bind fun s h => .bind (.change fun _ _ => h.mmaGroup) fun _ => .pure
    exact .ite (.bind .pure hjpb) (.bind .look fun _ => .bind .await hjpb)
  exact .ite (.bind .pure hjpa) (.bind .look fun _ => .bind .await hjpa)

protected theorem KeepsMem.matOpLoadGroup {o c} : KeepsMem (MatOp.loadGroup o c) :=
  .bind .operandSide fun _ => .bind .matOpLocalQuiet fun _ => .look_bind fun _ h1 => .bind (.change fun _ _ =>
    h1.putAcc) fun _ => .pure

protected theorem KeepsMem.matOpDrainGroup {o c e rnd satx clr} : KeepsMem (MatOp.drainGroup o c e rnd satx clr) := by
  refine .bind .operandSide fun _ => .bind .matOpLocalQuiet fun _ => .look_bind fun s h => ?_
  refine .bind (.change fun _ _ => ?_) fun _ => .pure
  exact .ite (.foldl (fun _ _ h => h.accWrite) h.doMoves) h.doMoves

protected theorem KeepsMem.matOpPortMoves {o c g add t tens org} : KeepsMem (MatOp.portMoves o c g add t tens org) :=
  .bind (.mapL fun _ => .rowMoves) fun _ => .pure

protected theorem KeepsMem.matOpNextGroup {o c} : KeepsMem (MatOp.nextGroup o c) := by
  unfold MatOp.nextGroup
  split
  · exact .bind .matOpMulGroup fun _ => .pure
  · exact .bind .matOpMulGroup fun _ => .pure
  · exact .bind .matOpMulGroup fun _ => .pure
  · exact .look_bind fun _ h1 => .bind (.change fun _ _ => h1.putCells) fun _ => .pure
  · exact .bind .matOpLoadGroup fun _ => .pure
  · exact .bind .matOpDrainGroup fun _ => .pure
  · exact .bind .matOpPortMoves fun _ => .bind .matOpDrainGroup fun _ => .bind .look fun _ => .pure

protected theorem KeepsMem.matOpSendPort {o c ms} : KeepsMem (MatOp.sendPort o c ms) :=
  .bind .look fun _ => .bind .waitFor fun _ => .look_bind fun _ h1 => .bind (.change fun _ _ => h1.doMoves) fun _ => .pure

protected theorem KeepsMem.matTurnRun {t c} : KeepsMem (MatTurn.run t c) := by
  unfold MatTurn.run
  split
  · exact .bind .matOpSendPort fun _ => .pure
  · exact .ite .pure .matOpNextGroup

protected theorem NextWf.execMatrixOpRetire {c op} (h : MemWf s) : NextWf (execMatrixOpRetire c op s) := by
  unfold execMatrixOpRetire
  split
  · exact .next h
  · extract_lets s0
    have h0 : MemWf s0 := h
    split
    next hr => exact .next (KeepsMem.matTurnRun.error h0 hr)
    next => exact .next h0
    next hr =>
      have h1 := KeepsMem.matTurnRun.ok h0 hr
      exact .ite (.next h1.modCore) (.next h1.modCore)

protected theorem NextWf.execEngineFault {c x op} (h : MemWf s) : NextWf (execEngineFault c x op s) := by
  unfold execEngineFault
  split
  · split
    · exact .next h.modCore
    · exact .next h
  split
  · split
    · split
      · exact .next h.modCore
      · exact .next h
    · exact .next h
  · exact .next h

protected theorem KeepsMem.accOrigin {opnd v af rows cols} : KeepsMem (accOrigin opnd v af rows cols) :=
  .bind .need fun _ => .bind .need fun _ => .pure

protected theorem KeepsMem.issueMat {o} : KeepsMem (issueMat o) :=
  .bind .afterLda fun _ => .bind .look fun _ => .bind .look fun _ => by
    extract_lets jp
    have hjp : ∀ a, KeepsMem (jp a) := fun _ => .bind .look fun _ => .bind .waitFor fun _ => .bind .mySpace fun _ =>
      .bind .me fun _ => .change fun _ h1 => h1.modMyCore
    split
    · exact .bind .waitFor hjp
    · exact .bind (.change fun _ h1 => h1.modMyCore) hjp

protected theorem KeepsMem.planeView {opnd a} : KeepsMem (planeView opnd a) :=
  .bind .tileNum fun _ => .bind .useView fun _ => .bind .need fun _ => .pure

protected theorem KeepsMem.mulOwn {kind af d a b} : KeepsMem (mulOwn kind af d a b) :=
  .bind .planeView fun _ => .bind .planeView fun _ => .bind .need fun _ => .bind .readD fun _ => .bind .viewFull fun _ =>
    .bind .viewFull fun _ => .bind .accOrigin fun _ => .issueMat

protected theorem NextWf.execMma {h0 af sat d a b} (h : MemWf s) : NextWf (execMma h0 af sat d a b s) :=
  .issue (.bind .noHandler fun _ => .mulOwn) h

protected theorem NextWf.execMmac {h0 af d a b} (h : MemWf s) : NextWf (execMmac h0 af d a b s) :=
  .issue (.bind .noHandler fun _ => .mulOwn) h

protected theorem KeepsMem.sentView {c opnd a} : KeepsMem (sentView c opnd a) :=
  .bind .tileNum fun _ => .bind .look fun _ => .bind .look fun _ => .bind .waitFor fun _ => .pure

protected theorem NextWf.execMgang {h0 af sat d a b} (h : MemWf s) : NextWf (execMgang h0 af sat d a b s) := by
  refine .issue (.bind .noHandler fun _ => .bind .look fun g => .bind .look fun gang => ?_) h
  cases gang with
  | none => exact .mulOwn
  | some q =>
    refine .ite .mulOwn ?_
    dsimp -zeta only [gangPos]
    extract_lets jpa
    have hjpa : ∀ r, KeepsMem (jpa r) := by
      intro ⟨n, ma, va⟩
      dsimp -zeta only [jpa]
      extract_lets jpb
      have hjpb : ∀ r, KeepsMem (jpb r) := fun ⟨m, mb, vb⟩ => .bind .need fun _ => .bind .readD fun _ =>
        .bind .accOrigin fun _ => .ite_bind (.change fun _ h => h) fun _ => .bind .look fun _ => .issueMat
      exact .ite (.bind .planeView fun _ => .bind .viewFull fun _ => .bind .pure hjpb) (.bind .sentView hjpb)
    exact .ite (.bind .planeView fun _ => .bind .viewFull fun _ => .bind .pure hjpa) (.bind .sentView hjpa)

protected theorem KeepsMem.countIn {opnd a hi} : KeepsMem (countIn opnd a hi) := .bind .readN64 fun _ => .bind .need fun _ =>
  .pure

protected theorem NextWf.execMzero {h0 af d a b} (h : MemWf s) : NextWf (execMzero h0 af d a b s) :=
  .issue (.bind .noHandler fun _ => .bind .countIn fun _ => .bind .countIn fun _ => .bind .readD fun _ =>
    .bind .accOrigin fun _ => .issueMat) h

protected theorem NextWf.execMload {h0 af d a} (h : MemWf s) : NextWf (execMload h0 af d a s) :=
  .issue (.bind .noHandler fun _ => .bind .tileNum fun _ => .bind .useView fun _ => .bind .need fun _ =>
    .bind .readD fun _ => .bind .viewFull fun _ => .bind .accOrigin fun _ => .issueMat) h

protected theorem KeepsMem.drainScale {b} : KeepsMem (drainScale b) :=
  .bind (.readOpt fun _ => .readI64) fun _ => .bind .need fun _ => .pure

protected theorem NextWf.execMdrain {h0 af rnd satx clr d a b} (h : MemWf s) : NextWf (execMdrain h0 af rnd satx clr d a b s) :=
  .issue (.bind .noHandler fun _ => .bind .useView fun _ => .bind .need fun _ => .bind .readRow fun _ =>
    .bind .drainScale fun _ => .bind .viewFree fun _ => .bind .accOrigin fun _ => .bind .modMe fun _ => .issueMat) h

protected theorem NextWf.execMdrainc {h0 af z add clr satx t d a b} (h : MemWf s) : NextWf
  (execMdrainc h0 af z add clr satx t d a b s) :=
  .issue (.bind .noHandler fun _ => .bind .useView fun _ => .bind .need fun _ => .bind .need fun _ => .bind .readRow fun _ =>
    .bind .drainScale fun _ => .bind .viewFree fun _ => .bind .accOrigin fun _ => .bind .readTensor fun _ =>
      .bind .need fun _ => .bind .modMe fun _ => .issueMat) h

end Sys2Proof.Safety
end

section
/-! PROOFS. Sys2Proof/Machine/Memory.lean: what its operations do keeps the canonical form of every memory (R89, R92; log 4). -/
namespace Sys2Proof.Safety
open Sys2Proof.Machine

variable {s t : State} {α : Type}

protected theorem KeepsMem.myPair : KeepsMem myPair := .look
protected theorem MemWf.mismatch {c m va vb} (h : MemWf s) : MemWf (s.mismatch c m va vb) := by
  unfold State.mismatch
  extract_lets -underBinder k on j hit s0 task rcd s1
  have h0 : MemWf s0 := h.modCore.modCore
  have h1 : MemWf s1 := by
    unfold s1
    clear_value rcd
    cases rcd with
    | some r => exact h0.modCore
    | none => exact h0
  have hhit : ∀ t c k va, MemWf t → MemWf (hit t c k va) := fun _ _ _ _ ht => .ite ht (.ite ht.retireNow ht.takeTrap)
  exact hhit _ _ _ _ (hhit _ _ _ _ h1)

protected theorem KeepsMem.compared {o act} (hact : KeepsMem act) : KeepsMem (compared o act) := by
  refine .bind .myPair fun p => .bind .look fun _ => ?_
  cases p with
  | none => exact hact
  | some p =>
    refine .bind .look fun q => .bind .look fun _ => ?_
    cases q with
    | none => exact .ite hact (.bind (.change fun _ h => h.modMyCore.modStrand) fun _ => .throw)
    | some q =>
      refine .ite (.bind .look fun _ => .bind hact fun _ => .change fun s h => ?_)
        (.bind (.change fun _ h => h.mismatch) fun _ => .throw)
      extract_lets -underBinder k mine s1 s2 g
      have h1 : MemWf s1 := h.modCore
      have h2 : MemWf s2 := by
        unfold s2
        split
        · exact h1
        · have h2 : ∀ fl n, MemWf { s1 with flight := fl, accNum := n } := fun _ _ => h1
          dsimp only
          split
          · exact (h2 _ _).modSeat
          · exact h2 _ _
      exact h2.setCur.modStrand.advance.setCur

protected theorem KeepsMem.memAddr {a b} : KeepsMem (memAddr a b) := .bind .readN64 fun _ => .bind .readI64 fun _ => .pure
protected theorem KeepsMem.freeRegs {d pair} : KeepsMem (freeRegs d pair) := .bind .me fun _ => .waitFor
protected theorem KeepsMem.sendAccess {h0 kind len dst pair acq va data ps} : KeepsMem
  (sendAccess h0 kind len dst pair acq va data ps) :=
  .bind .look fun _ => .bind .me fun _ => .ite (.compared (.bind (.change fun _ h1 => h1.launchAccess) fun _ => .modMe))
    (.bind (.change fun _ h1 => h1.launchAccess) fun _ => .modMe)

protected theorem KeepsMem.loadOp {h0 acq sz sx d a b} : KeepsMem (loadOp h0 acq sz sx d a b) :=
  .bind .afterLda fun _ => .ite_bind .evenD fun _ => .bind .memAddr fun _ => .bind .freeRegs fun _ =>
    .bind .seatPieces fun _ => .sendAccess

protected theorem NextWf.execLd {h0 sz sx d a b} (h : MemWf s) : NextWf (execLd h0 sz sx d a b s) := .issue .loadOp h
protected theorem NextWf.execLda {h0 sz sx d a b} (h : MemWf s) : NextWf (execLda h0 sz sx d a b s) := .issue .loadOp h
protected theorem KeepsMem.storeOp {h0 rel sz d a b} : KeepsMem (storeOp h0 rel sz d a b) :=
  .bind .afterLda fun _ => .ite_bind .evenD fun _ => .bind .memAddr fun _ => .bind .readD fun _ =>
    .ite_bind_bind .readD .pure fun _ => .ite_bind .release fun _ => .bind .seatPieces fun _ => .sendAccess

protected theorem NextWf.execSt {h0 sz d a b} (h : MemWf s) : NextWf (execSt h0 sz d a b s) := .issue .storeOp h
protected theorem NextWf.execStl {h0 sz d a b} (h : MemWf s) : NextWf (execStl h0 sz d a b s) := .issue .storeOp h
protected theorem NextWf.execPref {h0 a x2} (h : MemWf s) : NextWf (execPref h0 a x2 s) :=
  .issue (.bind .scalNum fun _ => .bind .readScal fun _ => .pure) h

protected theorem KeepsMem.atomicOp {h0 op w ty d a b} : KeepsMem (atomicOp h0 op w ty d a b) := by
  refine .bind .afterLda fun _ => .bind .readN64 fun _ => ?_
  cases d with
  | some d => exact .bind .freeRegs fun _ => .bind .seatPieces fun _ => .sendAccess
  | none => exact .bind .seatPieces fun _ => .sendAccess

protected theorem NextWf.intAtomic {h0 op ty d a b} (h : MemWf s) : NextWf (intAtomic h0 op ty d a b s) :=
  .issue (.bind .need fun _ => .bind .readInt fun _ => .atomicOp) h

protected theorem NextWf.execAadd {h0 ty d a b} (h : MemWf s) : NextWf (execAadd h0 ty d a b s) := .intAtomic h
protected theorem NextWf.execAmin {h0 ty d a b} (h : MemWf s) : NextWf (execAmin h0 ty d a b s) := .intAtomic h
protected theorem NextWf.execAmax {h0 ty d a b} (h : MemWf s) : NextWf (execAmax h0 ty d a b s) := .intAtomic h
protected theorem NextWf.execAand {h0 ty d a b} (h : MemWf s) : NextWf (execAand h0 ty d a b s) := .intAtomic h
protected theorem NextWf.execAor {h0 ty d a b} (h : MemWf s) : NextWf (execAor h0 ty d a b s) := .intAtomic h
protected theorem NextWf.execAxor {h0 ty d a b} (h : MemWf s) : NextWf (execAxor h0 ty d a b s) := .intAtomic h
protected theorem NextWf.execAxchg {h0 ty d a b} (h : MemWf s) : NextWf (execAxchg h0 ty d a b s) := .intAtomic h
protected theorem NextWf.execAincw {h0 ty d a b} (h : MemWf s) : NextWf (execAincw h0 ty d a b s) := .intAtomic h
protected theorem NextWf.execAcas {h0 ty d a b} (h : MemWf s) : NextWf (execAcas h0 ty d a b s) :=
  .issue (.bind .need fun _ => .bind .readPair fun _ => .atomicOp) h

protected theorem NextWf.execAfadd {h0 m d a b} (h : MemWf s) : NextWf (execAfadd h0 m d a b s) :=
  .issue (.bind .need fun _ => .bind .readF fun _ => .atomicOp) h

protected theorem NextWf.execFence {h0 scope kind} (h : MemWf s) : NextWf (execFence h0 scope kind s) := .issue .fenced h
protected theorem KeepsMem.dropFetch : KeepsMem dropFetch := .modMe
protected theorem KeepsMem.codeDone : KeepsMem codeDone := .bind .look fun _ => .waitFor
protected theorem NextWf.execCodefLoc {h0} (h : MemWf s) : NextWf (execCodefLoc h0 s) :=
  .issue (.bind .codeDone fun _ => .dropFetch) h

protected theorem NextWf.execCodefDev {h0 a b} (h : MemWf s) : NextWf (execCodefDev h0 a b s) :=
  .issue (.bind .readN64 fun _ => .bind .readN64 fun _ => .bind .me fun _ => .bind .look fun _ => .bind .need fun _ =>
    .bind .look fun _ => .bind .waitFor fun _ => .bind .codeDone fun _ => .dropFetch) h

protected theorem KeepsMem.inGroup {n fills g} {m : M α} (hm : KeepsMem m) : KeepsMem (inGroup n fills g m) := by
  intro s h
  unfold inGroup
  split
  next => exact h
  next => exact KeepsMem.pauseTile s h
  next hr => exact KeepsMem.pauseTile _ (hm.error h hr)
  next => exact hm s h

theorem keepsGroup_memPlan {load d v addr g c here zero locs} : KeepsGroup (memPlan load d v addr g c here zero locs) := by
  refine ⟨fun _ => .pauseTile, fun s h => ?_⟩
  cases load with
  | true => exact .foldl (fun _ _ h => h.setBits) (.foldl (fun _ _ h => h.setBits) h)
  | false => exact .foldl (fun _ _ h => h.writeLoc) h

protected theorem KeepsMem.tileMemGroup {load d v addr g ch} : KeepsMem (tileMemGroup load d v addr g ch) := by
  refine .bind .atGroup fun _ => .ite_bind .pauseTile fun _ => .bind .look fun _ => .bind .me fun _ =>
    .bind .checkRuns fun _ => .bind (.inGroup (.mapL fun _ => .spotPlace)) fun _ => .bind .look fun _ =>
    .ite_bind .pauseTile fun _ => .ite_bind_bind .goodRuns .goodRuns fun _ => .bind .look fun bad => ?_
  cases bad with
  | some e => exact .throw_bind
  | none =>
    cases ch with
    | none => exact .bind (.change fun s h => (keepsGroup_memPlan.2 s h).clearWhole) fun _ => .pure
    | some _ => exact .groupRun keepsGroup_memPlan

protected theorem KeepsMem.tileMemGroups {load d v addr gs ch} : KeepsMem (tileMemGroups load d v addr gs ch) := by
  induction gs generalizing ch with
  | nil => exact .pure
  | cons g gs ih => exact .bind .tileMemGroup fun _ => ih

/-- What a tile load or store does after the group that it goes on with. -/
theorem KeepsMem.tileMemRest {load d v addr gs ch} {f : Unit → M Unit} (hf : ∀ u, KeepsMem (f u)) : KeepsMem (do
    tileMemGroups load d v addr gs ch
    let u ← change State.freeTile
    f u) := .bind .tileMemGroups fun _ => .bind (.change fun _ h => h.freeTile) hf

protected theorem KeepsMem.tileMemRun {load d v addr} : KeepsMem (tileMemRun load d v addr) := by
  refine .bind .look fun ch => .bind .look fun r => ?_
  cases r with
  | some r =>
    exact .ite (.bind .pure fun _ => .tileMemRest fun _ => .modMe)
      (.bind .look fun _ => .bind .me fun _ => .bind (.inGroup (.mapL fun _ => .spotPlace)) fun _ =>
        .bind (.groupRun keepsGroup_memPlan) fun _ =>
          .ite_bind .boundary fun _ => .bind .pure fun _ => .tileMemRest fun _ => .modMe)
  | none => exact .bind .me fun _ => .tileMemRest fun _ => .modMe

protected theorem KeepsMem.tileMem {h0 load d a b} : KeepsMem (tileMem h0 load d a b) := by
  refine .bind .afterLda fun _ => .bind .useView fun _ => .bind .memAddr fun _ => .bind .need fun _ => .bind .need fun _ =>
    .bind .look fun _ => ?_
  extract_lets _ jp
  have hjp : ∀ u, KeepsMem (jp u) := fun _ => .bind .bankQuiet fun _ => .bind .look fun _ => .bind .me fun _ =>
    .bind .look fun _ => .ite .tileMemRun (.bind .look fun _ => .compared .tileMemRun)
  exact .ite (hjp ()) (.ite (.bind .viewFree hjp) (.bind .viewFull hjp))

protected theorem NextWf.execLdTile {h0 d a b} (h : MemWf s) : NextWf (execLdTile h0 d a b s) := .issue (.fromZero .tileMem) h
protected theorem NextWf.execStTile {h0 d a b} (h : MemWf s) : NextWf (execStTile h0 d a b s) := .issue (.fromZero .tileMem) h
protected theorem NextWf.execRemoteAccess {n p} (h : MemWf s) : NextWf (execRemoteAccess n p s) := by
  unfold execRemoteAccess
  split
  · split
    · exact .next h.stepPiece
    · exact .next h
  · exact .next h

protected theorem NextWf.execDeviceHomeAccess {n p} (h : MemWf s) : NextWf (execDeviceHomeAccess n p s) := by
  unfold execDeviceHomeAccess
  split
  · split
    · exact .next h
    · exact .next h.stepPiece
  · exact .next h

protected theorem NextWf.execAccessReply {n} (h : MemWf s) : NextWf (execAccessReply n s) := by
  unfold execAccessReply
  split
  · exact .next h
  · exact .ite (.next h) (by
      dsimp only
      split
      · exact .next h.dropAccess.modSeat.settleTrap
      · exact .next h.dropAccess)

protected theorem NextWf.execStoreAcknowledgement {n} (h : MemWf s) : NextWf (execStoreAcknowledgement n s) := by
  unfold execStoreAcknowledgement
  split
  · exact .next h
  · exact .ite (.next h) (.next h.dropAccess)

protected theorem NextWf.execHomeFailureReport {n} (h : MemWf s) : NextWf (execHomeFailureReport n s) := by
  unfold execHomeFailureReport
  split
  · exact .next h
  · exact .ite (.next h) (by
      split
      · exact .next h
      · exact .ite (.next h.dropAccess) (.next h.dropAccess.modSeat.settleTrap))

protected theorem MemWf.walkFault {w t} (h : MemWf s) : MemWf (s.walkFault w t) := h.takeTrap
protected theorem MemWf.walksFail {ws t} (h : MemWf s) : MemWf (s.walksFail ws t) := .foldl (fun _ _ h1 =>
  .ite h1.walkFault h1) h

protected theorem MemWf.walkOn {w} (h : MemWf s) : MemWf (s.walkOn w) := by
  unfold State.walkOn
  split
  · exact h
  · exact .ite h (by
      split
      · exact h.startPull
      · dsimp only
        split
        · exact .foldl (fun _ _ h1 => .ite h1 h1.tlbFill) h
        · exact h.walksFail)

protected theorem NextWf.execTranslationWalk {n} (h : MemWf s) : NextWf (execTranslationWalk n s) :=
  .next (by
    split
    · exact h
    · exact h.walkOn)

protected theorem NextWf.execDirtyLogAtomic {n} (h : MemWf s) : NextWf (execDirtyLogAtomic n s) := by
  unfold execDirtyLogAtomic
  split
  · exact .next h
  · exact .ite (.next h) (.ite (.next h) (by
      split
      · exact .next h
      next hr =>
        exact .ite (.next (h.logAtomic hr :)) (.next (h.logAtomic hr :))))

end Sys2Proof.Safety
end

section
/-! PROOFS. Sys2Proof/Machine/Scalar.lean: what its operations do keeps the canonical form of every memory (R89, R92; log 4). -/
namespace Sys2Proof.Safety
open Sys2Proof.Machine

variable {s t : State} {α : Type}

protected theorem NextWf.int1 {h0 ty sat d a f} (h : MemWf s) : NextWf (int1 h0 ty sat d a f s) :=
  .issue (.bind .readInt fun _ => .writeInt) h

protected theorem NextWf.int2 {h0 ty sat d a b f} (h : MemWf s) : NextWf (int2 h0 ty sat d a b f s) :=
  .issue (.bind .readInt fun _ => .bind .readInt fun _ => .writeInt) h

protected theorem NextWf.intN {h0 ty d a b f} (h : MemWf s) : NextWf (intN h0 ty d a b f s) :=
  .issue (.bind .readInt fun _ => .bind .readN64 fun _ => .writeInt) h

protected theorem NextWf.execMov {h0 ty d a} (h : MemWf s) : NextWf (execMov h0 ty d a s) := .int1 h
protected theorem NextWf.execLdil {h0 d k} (h : MemWf s) : NextWf (execLdil h0 d k s) := .issue .writeScal h
protected theorem NextWf.execLdih {h0 d k} (h : MemWf s) : NextWf (execLdih h0 d k s) := .issue (.bind .readD fun _ =>
  .writeScal) h

protected theorem NextWf.execAdd {h0 m d a b} (h : MemWf s) : NextWf (execAdd h0 m d a b s) := .int2 h
protected theorem NextWf.execSub {h0 m d a b} (h : MemWf s) : NextWf (execSub h0 m d a b s) := .int2 h
protected theorem NextWf.execMul {h0 m d a b} (h : MemWf s) : NextWf (execMul h0 m d a b s) := .int2 h
protected theorem NextWf.execMulh {h0 ty d a b} (h : MemWf s) : NextWf (execMulh h0 ty d a b s) := .int2 h
protected theorem NextWf.execMad {h0 m d a b} (h : MemWf s) : NextWf (execMad h0 m d a b s) :=
  .issue (.bind .readInt fun _ => .bind .readInt fun _ => .bind .readD fun _ => .writeInt) h

protected theorem NextWf.execDiv {h0 m d a b} (h : MemWf s) : NextWf (execDiv h0 m d a b s) :=
  .issue (.bind .readInt fun _ => .bind .readInt fun _ => .ite (.bind .flag fun _ => .writeInt) .writeInt) h

protected theorem NextWf.execRem {h0 ty d a b} (h : MemWf s) : NextWf (execRem h0 ty d a b s) :=
  .issue (.bind .readInt fun _ => .bind .readInt fun _ => .ite (.bind .flag fun _ => .writeInt) .writeInt) h

protected theorem NextWf.execNeg {h0 m d a} (h : MemWf s) : NextWf (execNeg h0 m d a s) := .int1 h
protected theorem NextWf.execAbs {h0 m d a} (h : MemWf s) : NextWf (execAbs h0 m d a s) := .int1 h
protected theorem NextWf.execMin {h0 ty d a b} (h : MemWf s) : NextWf (execMin h0 ty d a b s) := .int2 h
protected theorem NextWf.execMax {h0 ty d a b} (h : MemWf s) : NextWf (execMax h0 ty d a b s) := .int2 h
protected theorem NextWf.execAnd {h0 ty d a b} (h : MemWf s) : NextWf (execAnd h0 ty d a b s) := .int2 h
protected theorem NextWf.execOr {h0 ty d a b} (h : MemWf s) : NextWf (execOr h0 ty d a b s) := .int2 h
protected theorem NextWf.execXor {h0 ty d a b} (h : MemWf s) : NextWf (execXor h0 ty d a b s) := .int2 h
protected theorem NextWf.execAndn {h0 ty d a b} (h : MemWf s) : NextWf (execAndn h0 ty d a b s) := .int2 h
protected theorem NextWf.execShl {h0 ty d a b} (h : MemWf s) : NextWf (execShl h0 ty d a b s) := .intN h
protected theorem NextWf.execShr {h0 ty d a b} (h : MemWf s) : NextWf (execShr h0 ty d a b s) := .intN h
protected theorem NextWf.execSar {h0 ty d a b} (h : MemWf s) : NextWf (execSar h0 ty d a b s) := .intN h
protected theorem NextWf.execRol {h0 ty d a b} (h : MemWf s) : NextWf (execRol h0 ty d a b s) := .intN h
protected theorem KeepsMem.fieldWord {ty b} : KeepsMem (fieldWord ty b) :=
  .bind .need fun _ => .bind .readN64 fun _ => .bind .need fun _ => .pure

protected theorem NextWf.execBext {h0 ty d a b} (h : MemWf s) : NextWf (execBext h0 ty d a b s) :=
  .issue (.bind .readInt fun _ => .bind .fieldWord fun _ => .writeInt) h

protected theorem NextWf.execBins {h0 ty d a b} (h : MemWf s) : NextWf (execBins h0 ty d a b s) :=
  .issue (.bind .readInt fun _ => .bind .fieldWord fun _ => .bind .readD fun _ => .writeInt) h

protected theorem NextWf.execClz {h0 ty d a} (h : MemWf s) : NextWf (execClz h0 ty d a s) := .int1 h
protected theorem NextWf.execCtz {h0 ty d a} (h : MemWf s) : NextWf (execCtz h0 ty d a s) := .int1 h
protected theorem NextWf.execPopc {h0 ty d a} (h : MemWf s) : NextWf (execPopc h0 ty d a s) := .int1 h
protected theorem NextWf.execSel {h0 ty psel pinv d a b} (h : MemWf s) : NextWf (execSel h0 ty psel pinv d a b s) :=
  .issue (.bind .me fun _ => .bind .readInt fun _ => .bind .readInt fun _ => .writeInt) h

protected theorem NextWf.execGaddr {h0 d a b} (h : MemWf s) : NextWf (execGaddr h0 d a b s) :=
  .issue (.bind .evenD fun _ => .bind .look fun _ => .bind .waitFor fun _ => .bind .readN64 fun _ => .bind .readRow fun _ =>
    .bind .myLaunch fun _ => .bind .look fun _ => by
    split
    · exact .raise
    · exact .bind .need fun _ => .bind .unitRead fun _ => .bind .need fun _ => .ite .writeScals (.bind .look fun _ =>
        .bind .need fun _ => .writeScals)) h

end Sys2Proof.Safety
end

section
/-! PROOFS. Sys2Proof/Machine/Slots.lean: what its operations do keeps the canonical form of every memory (R89, R92; log 4). -/
namespace Sys2Proof.Safety
open Sys2Proof.Machine

variable {s t : State} {α : Type}

protected theorem KeepsMem.slotCore {b} : KeepsMem (slotCore b) :=
  .bind .look fun _ => by
    split
    · exact .pure
    · exact .bind .readN64 fun _ => .bind .look fun _ => .ite .raise_bind (.bind .me fun _ => .bind .look fun _ =>
        .bind .need fun _ => .pure)

protected theorem MemWf.setBlk {a b} (h : MemWf s) : MemWf (s.setBlk a b) := h.modStrand
protected theorem KeepsMem.slotGo {h0 c y op} : KeepsMem (slotGo h0 c y op) :=
  .bind .look fun _ => .bind .me fun _ => .ite (.bind .bankQuiet fun _ => .look_bind fun _ h1 => by
    split
    · exact .raise
    next hr =>
      exact .change fun _ h2 => h1.hints.setBlk.slotDo hr) (.change fun _ h1 => (h1.hints :))

protected theorem NextWf.slotInstr {h0 y b arrival op} (hop : KeepsMem op) (h : MemWf s) : NextWf
  (slotInstr h0 y b arrival op s) :=
  .leave (.bind hop fun _ => .bind .slotCore fun _ => .ite_bind_bind .release .afterLda fun _ => .slotGo) h

protected theorem KeepsMem.parties {a} : KeepsMem (parties a) := .bind .readN64 fun _ => .bind .need fun _ => .pure
protected theorem KeepsMem.tokenD {d} : KeepsMem (tokenD d) := .ite .raise_bind (.bind .me fun _ => .waitFor)
protected theorem NextWf.execSynew {h0 kind pst d a} (h : MemWf s) : NextWf (execSynew h0 kind pst d a s) :=
  .issue (.bind .readN64 fun _ => .bind .need fun _ => .bind .afterLda fun _ => .bind .bankQuiet fun _ =>
    .bind .look fun _ => .bind .look fun _ => .ite .raise_bind (.bind .me fun _ => by
    dsimp only
    split
    · exact .bind (.change fun _ h1 => h1.setSlot) fun _ => .writeP
    · exact .bind (.change fun _ h1 => h1.setSlot) fun _ => .writeP
    · exact .bind .look fun _ => .ite (.bind (.change fun _ h1 => h1.setSlot) fun _ => .writeP) .writeP)) h

protected theorem NextWf.execSyfree {h0 d} (h : MemWf s) : NextWf (execSyfree h0 d s) :=
  .issue (.bind .afterLda fun _ => .bind .bankQuiet fun _ => .bind .look fun _ => .bind .look fun _ => by
    split
    · exact .raise
    · exact .ite .raise (.change fun _ h1 => h1.freeSlot)) h

protected theorem NextWf.execPhreg {h0 d a b} (h : MemWf s) : NextWf (execPhreg h0 d a b s) :=
  .slotInstr (.bind .parties fun _ => .pure) h

protected theorem NextWf.execPhdrop {h0 d a b} (h : MemWf s) : NextWf (execPhdrop h0 d a b s) :=
  .slotInstr (.bind .parties fun _ => .pure) h

protected theorem NextWf.execPhsig {h0 d b} (h : MemWf s) : NextWf (execPhsig h0 d b s) := .slotInstr .pure h
protected theorem NextWf.execPhwait {h0 mem d a b} (h : MemWf s) : NextWf (execPhwait h0 mem d a b s) :=
  .slotInstr (by
    split
    · exact .pure
    · exact .bind .readN64 fun _ => .pure
    · exact .pure) h

protected theorem NextWf.execPhnext {h0 d b} (h : MemWf s) : NextWf (execPhnext h0 d b s) := .slotInstr .pure h
protected theorem NextWf.execTqacq {h0 slot d b} (h : MemWf s) : NextWf (execTqacq h0 slot d b s) :=
  .slotInstr (.bind .tokenD fun _ => .pure) h

protected theorem NextWf.execTqpost {h0 d a b} (h : MemWf s) : NextWf (execTqpost h0 d a b s) :=
  .slotInstr (.bind .readN64 fun _ => .pure) h

protected theorem NextWf.execTqtake {h0 slot d b} (h : MemWf s) : NextWf (execTqtake h0 slot d b s) :=
  .slotInstr (.bind .tokenD fun _ => .pure) h

protected theorem NextWf.execTqrel {h0 d a b} (h : MemWf s) : NextWf (execTqrel h0 d a b s) :=
  .slotInstr (.bind .readN64 fun _ => .pure) h

protected theorem NextWf.execJoin {h0 d b} (h : MemWf s) : NextWf (execJoin h0 d b s) := .slotInstr .pure h
protected theorem NextWf.execLeave {h0 d b} (h : MemWf s) : NextWf (execLeave h0 d b s) := .slotInstr .pure h
protected theorem MemWf.lateTrap {a t} (h : MemWf s) : MemWf (s.lateTrap a t) := by
  unfold State.lateTrap
  extract_lets -underBinder x again s1
  have h1 : MemWf s1 := .ite h.modCore h
  refine .ite h ?_
  split
  · exact .ite h1.setBlk.takeTrap (.ite h1.modSeat h1.setBlk)
  · exact .ite h1.setBlk.modSeat h1.setBlk.takeTrap

protected theorem MemWf.atSlot {a c y} (h : MemWf s) : MemWf (s.atSlot a c y) := by
  unfold State.atSlot
  split
  · exact .ite h.modSeat h.setBlk
  · exact h.setBlk

protected theorem NextWf.execRemoteSyncArrival {n} (h : MemWf s) : NextWf (execRemoteSyncArrival n s) := by
  unfold execRemoteSyncArrival
  split
  · exact .next h
  · refine .ite (.next h) ?_
    extract_lets a s1
    have h1 : MemWf s1 := h
    split
    next hr => exact .next (h1.atSlot.slotDo hr)
    next => exact .next h1.lateTrap

protected theorem MemWf.freeSlotNow {c y} (h : MemWf s) : MemWf (s.freeSlotNow c y) := .foldl (fun _ _ h1 =>
  h1.lateTrap) h.freeSlot

protected theorem NextWf.execSstep {h0} (h : MemWf s) : NextWf (execSstep h0 s) :=
  .leave (.bind .release fun _ => .bind .look fun _ => .bind .myLaunch fun _ => by
    split
    · exact .change fun _ h1 => h1.advance
    · exact .change fun _ h1 => h1.hints.setBlk) h

protected theorem KeepsMem.xferPart {l c k x} : KeepsMem (xferPart l c k x) := by
  unfold xferPart
  dsimp only
  split
  · exact .bind .unitRead fun _ => .pure
  · exact .ite .pure (.bind .unitRead fun _ => .ite .pure (.bind .need fun _ => .bind .readTensor fun _ =>
      .bind .readTensor fun _ => .bind .need fun _ => .bind .look fun _ => .bind .waitFor fun _ => .bind .look fun _ =>
      .bind (.change fun _ h => h.modCore) fun _ => .pure))
  · refine .look_bind fun s h => ?_
    split
    next => exact .throw
    next hr => exact .bind (.change fun _ _ => h.copyOpRunGroup hr) fun _ => .throw
    next hr =>
      refine .bind (.change fun _ _ => h.copyOpRunGroup_ok hr) fun _ => ?_
      exact .ite (.bind (.change fun _ h => h) fun _ => .pure) .pure

protected theorem MemWf.xferStep {l xs x} (h : MemWf s) : MemWf (s.xferStep l xs x) := by
  unfold State.xferStep
  extract_lets -underBinder c put trap
  have hput : ∀ t y, MemWf t → MemWf (put t y) := fun _ _ h => h.setLaunch
  have htrap : ∀ tr, MemWf (trap tr) := fun tr => by
    unfold trap
    split
    · refine MemWf.lateTrap ?_
      exact hput _ (some _) h
    · exact h
  split
  · exact h
  split
  next hr => exact hput _ _ (KeepsMem.xferPart.ok h.setCur hr).setCur
  next => exact htrap _
  next => exact htrap _
  next hr => exact (KeepsMem.xferPart.error h.setCur hr).setCur
  next => exact h

protected theorem MemWf.stepOver {l} (h : MemWf s) : MemWf (s.stepOver l) :=
  .foldl (fun _ _ h1 => by
    dsimp only
    split
    · exact h1.finish
    · exact h1) h.setLaunch

protected theorem NextWf.execSuperstepRelease {lid} (h : MemWf s) : NextWf (execSuperstepRelease lid s) := by
  unfold execSuperstepRelease
  split
  · exact .next h
  · split
    · exact .ite (.next h.setLaunch) (.next h)
    · exact .next h.stepOver
    · split
      · exact .next h
      · exact .next (.xferStep h)

end Sys2Proof.Safety
end

section
/-! PROOFS. Sys2Proof/Machine/Tasks.lean: what its operations do keeps the canonical form of every memory (R89, R92; log 4). -/
namespace Sys2Proof.Safety
open Sys2Proof.Machine

variable {s t : State} {α : Type}

protected theorem KeepsMem.taskEntry {a} : KeepsMem (taskEntry a) :=
  .bind .me fun _ => .bind .need fun _ => .bind .readN64 fun _ => .bind .myLaunch fun _ => by
    split
    · exact .raise
    · exact .bind .need fun _ => .pure

protected theorem KeepsMem.pushTask {t} : KeepsMem (pushTask t) :=
  .bind .release fun _ => .bind .look fun _ => .ite .raise_bind (.bind .waitFor fun _ => .change fun _ h1 => h1.modMyCore)

protected theorem NextWf.execFork {h0 a b} (h : MemWf s) : NextWf (execFork h0 a b s) :=
  .issue (.bind .noHandler fun _ => .bind .taskEntry fun _ => .bind .readRow fun _ => .pushTask) h

protected theorem NextWf.execRfork {h0 a b} (h : MemWf s) : NextWf (execRfork h0 a b s) :=
  .issue (.bind .noHandler fun _ => .bind .taskEntry fun _ => .bind .readRow fun _ => .bind .need fun _ =>
    .ite .pure .pushTask) h

protected theorem NextWf.execTask {h0 d} (h : MemWf s) : NextWf (execTask h0 d s) := by
  refine .leave (.bind .noHandler fun _ => .bind .mayEnd fun _ => .bind .look fun _ => .bind .myLaunch fun l => ?_) h
  cases l with
  | none => exact .bind .pure fun _ => .bind .writeP fun _ => .change fun _ h => h.advance
  | some l =>
    refine .bind .search fun f => ?_
    cases f with
    | none => exact .bind .writeP fun _ => .change fun _ h => h.advance
    | some f => exact .bind .meet fun _ => .change fun _ h => h.hints.endThread.startThread

protected theorem NextWf.execTaskEv {h0 pst d} (h : MemWf s) : NextWf (execTaskEv h0 pst d s) :=
  .issue (.bind .noHandler fun _ => .bind .need fun _ => .bind .me fun _ => .ite .raise_bind (.bind .look fun _ =>
    .bind .look fun _ => .ite .writeP (.bind .seatRead fun _ => .bind .writeScals fun _ => .bind (.change fun _ h1 =>
      h1.modVd.flushEvents) fun _ => .writeP))) h

protected theorem NextWf.execIdleSeatSearch {c k} (h : MemWf s) : NextWf (execIdleSeatSearch c k s) := by
  refine .ite (.next h) ?_
  split
  · exact .next h
  · split
    next hr => exact .next (KeepsMem.search.ok h.setCur hr).setCur.startThread
    next hr => exact .next (KeepsMem.search.ok h.setCur hr).setCur
    next hr => exact .next (KeepsMem.search.error h.setCur hr).setCur
    next => exact .next h

protected theorem NextWf.execReturnSlotEntry {c} (h : MemWf s) : NextWf (execReturnSlotEntry c s) := by
  unfold execReturnSlotEntry
  dsimp only
  split
  · exact .ite (.next h.setCore) (.next h)
  · exact .next h

protected theorem NextWf.execTdone {h0 d b} (h : MemWf s) : NextWf (execTdone h0 d b s) :=
  .slotInstr (.bind .noHandler fun _ => .pure) h

protected theorem NextWf.execEfork {h0 copy pst a} (h : MemWf s) : NextWf (execEfork h0 copy pst a s) :=
  .issue (.bind .noHandler fun _ => .bind .readN64 fun _ => .bind .me fun _ => .bind .need fun _ => .bind .look fun _ =>
    .bind .look fun _ => .ite .writeP (.bind .release fun _ => .bind (.change fun _ h1 => .modMe
      (.ite h1.modMyCore h1)) fun _ => .writeP)) h

protected theorem NextWf.execRdv {h0} (h : MemWf s) : NextWf (execRdv h0 s) := .issue (.bind .noHandler fun _ => .meet) h
protected theorem NextWf.execLaunch {h0 d a b} (h : MemWf s) : NextWf (execLaunch h0 d a b s) :=
  .issue (.bind .noHandler fun _ => .bind .readN64 fun _ => .bind .readN64 fun _ => .bind .me fun _ => .bind .need fun _ =>
    .bind .look fun _ => .bind .need fun _ => .bind .release fun _ => .bind .look fun _ => .bind .unitRead fun _ =>
      .bind .look fun _ => .bind (.change fun _ h1 => h1.modMyCore) fun _ => by
    extract_lets jp
    have hjp : ∀ a, KeepsMem (jp a) := fun _ => .bind .submit fun _ => .change fun _ h1 => h1.syncChild
    split
    · exact .bind .writeScal hjp
    · exact (hjp ())) h

protected theorem NextWf.execSend {h0 len xl a b} (h : MemWf s) : NextWf (execSend h0 len xl a b s) :=
  .issue (.bind .noHandler fun _ => .bind .need fun _ => .bind .scalNum fun _ => .bind .need fun _ =>
    .bind .readScal fun _ => .bind .me fun _ => .ite_bind_bind (.bind .readScal fun _ => .pure) .pure fun _ =>
      .bind .readRow fun _ => .bind .need fun _ => .bind .look fun _ => .ite .raise_bind (.bind .look fun _ =>
        .bind .need fun _ => .bind .afterLda fun _ => .bind .look fun _ => .bind .look fun _ => .bind .waitFor fun _ =>
          .change fun _ h1 => h1)) h

protected theorem NextWf.execRecv {h0 d} (h : MemWf s) : NextWf (execRecv h0 d s) :=
  .issue (.bind .noHandler fun _ => .bind .need fun _ => .bind .afterLda fun _ => .bind .bankQuiet fun _ =>
    .bind .look fun _ => .bind .me fun _ => .bind .look fun _ => by
    split
    · exact .throw
    · exact .bind (.change fun _ h1 => h1.modMyCore) fun _ => .writeScals) h

protected theorem MemWf.deliverMsg {m} (h : MemWf s) : MemWf (s.deliverMsg m) := .ite (.modCore h) (.ite h (.modCore h))
protected theorem NextWf.execMessageArrival {n} (h : MemWf s) : NextWf (execMessageArrival n s) := by
  unfold execMessageArrival
  split
  · exact .next h
  · exact .ite (.next h.deliverMsg) (.next h)

protected theorem NextWf.execMessageRetry {n} (h : MemWf s) : NextWf (execMessageRetry n s) := .next h

end Sys2Proof.Safety
end

section
/-! PROOFS. Sys2Proof/Machine/Gates.lean: what its operations do keeps the canonical form of every memory (R89, R92; log 4). -/
namespace Sys2Proof.Safety
open Sys2Proof.Machine

variable {s t : State} {α : Type}

protected theorem KeepsMem.gateInstr : KeepsMem gateInstr := .bind .noHandler fun _ => .bind .me fun _ => .need
protected theorem KeepsMem.crossing : KeepsMem crossing := .bind .meet fun _ => .bind .me fun _ => .waitFor
protected theorem KeepsMem.localImage {opnd off n} : KeepsMem (localImage opnd off n) :=
  .bind .need fun _ => .bind .look fun _ => .bind .me fun _ => .bind .look fun _ => .ite .throw_bind
    (.bind .afterLda fun _ => .bind .bankQuiet fun _ => .bind .look fun _ => .bind .waitFor fun _ => .bind .look fun _ => by
    split
    · exact .throw
    · exact .look)

protected theorem NextWf.execGpost {h0 d a} (h : MemWf s) : NextWf (execGpost h0 d a s) :=
  .issue (.bind .gateInstr fun _ => .bind .readN64 fun _ => .bind .me fun _ => .bind .localImage fun _ =>
    .bind .look fun _ => by
    dsimp only
    split
    · exact .raise_bind
    · exact .bind .release fun _ => .bind .look fun _ => by
        split
        · exact .writeScal
        · exact .bind .look fun _ => .bind .look fun _ => .bind .waitFor fun _ => .bind (.change fun _ h1 =>
            h1.devWrite) fun _ => .writeScal) h

protected theorem NextWf.execGretract {h0 pst a} (h : MemWf s) : NextWf (execGretract h0 pst a s) :=
  .issue (.bind .gateInstr fun _ => .bind .readN64 fun _ => .bind .me fun _ => .bind .look fun _ => .ite .writeP
    (.bind .look fun _ => .ite .raise_bind (.bind .release fun _ => .bind .look fun _ => .bind .waitFor fun _ => .bind
      (.change fun _ h1 => h1.retract) fun _ => .writeP))) h

protected theorem NextWf.execGwin {h0 wr ww d a b} (h : MemWf s) : NextWf (execGwin h0 wr ww d a b s) :=
  .issue (.bind .gateInstr fun _ => .bind .evenD fun _ => .bind .readN64 fun _ => .bind .readN64 fun _ =>
    .bind .need fun _ => .bind .need fun _ => .bind .me fun _ => .writeScals) h

protected theorem NextWf.execGcall {h0 a b} (h : MemWf s) : NextWf (execGcall h0 a b s) :=
  .leave (.bind .gateInstr fun _ => .bind .readN64 fun _ => by
    extract_lets jp
    have hjp : ∀ a, KeepsMem (jp a) := fun _ => .bind .me fun _ => .bind .need fun _ => .bind .crossing fun _ =>
      .bind .look fun _ => .bind .look fun _ => by
        split
        · exact .bind .modMe fun _ => .change fun _ h1 => h1.advance
        · exact .bind .look fun _ => .bind .pushFrame fun _ => .change fun _ h1 => h1.modMe.hints
    split
    · exact .bind .pure hjp
    · exact .bind .readPair fun _ => .bind .pure hjp) h

protected theorem NextWf.execGret {h0} (h : MemWf s) : NextWf (execGret h0 s) :=
  .leave (.bind .gateInstr fun _ => .bind .me fun _ => .bind .need fun _ => .bind .crossing fun _ =>
    .bind .readFrame fun _ => .bind .dropFrame fun _ => .change fun _ h1 => h1.modMe.hints) h

protected theorem NextWf.execGinfo {h0 d a} (h : MemWf s) : NextWf (execGinfo h0 d a s) :=
  .issue (.bind .gateInstr fun _ => .bind .evenD fun _ => .bind .readN64 fun _ => .bind .me fun _ => .bind .need fun _ =>
    .ite .writeScals (.bind .readFrame fun _ => .bind .need fun _ => .writeScals)) h

protected theorem KeepsMem.lowestDoom {n k} : KeepsMem (lowestDoom n k) := by
  induction n generalizing k with
  | zero => exact .pure
  | succ n ih => exact .bind .readFrame fun _ => .ite .pure ih

protected theorem KeepsMem.unwTarget : KeepsMem unwTarget :=
  .bind .me fun _ => .ite .pure (.bind .readFrame fun _ => .ite .pure (.bind .lowestDoom fun _ => .pure))

protected theorem KeepsMem.unwNext : KeepsMem unwNext :=
  .bind .me fun _ => .bind .look fun _ => by
    split
    · exact .pure
    · exact .ite (by
        split
        · exact .pure
        · exact .ite .modMe (.ite .modMe (.bind .look fun _ => .modMe))) (.ite (.bind .look fun _ => .ite .modMe
            (.change fun _ h1 => h1.retireNow)) .modMe)

protected theorem KeepsMem.unwPop : KeepsMem unwPop :=
  .bind .me fun _ => by
    split
    · exact .ite_bind_bind .unwTarget .pure fun _ => .bind .dropFrame fun _ => .bind .modMe fun _ =>
        .ite_bind .modMe fun _ => .unwNext
    · exact .unwNext

protected theorem NextWf.execGclean {h0} (h : MemWf s) : NextWf (execGclean h0 s) :=
  .leave (.bind .gateInstr fun _ => .bind .me fun _ => .bind .need fun _ => .bind .crossing fun _ => .bind .release fun _ =>
    .bind (.change fun _ h1 => h1.hints) fun _ => .unwPop) h

protected theorem MemWf.forSeat {c k m} (hm : KeepsMem m) (h : MemWf s) : MemWf (s.forSeat c k m) := by
  unfold State.forSeat
  dsimp only
  split
  next hr => exact (hm.ok h.setCur hr).setCur
  next => exact h.takeTrap
  next hr => exact (hm.error h.setCur hr).setCur.takeTrap
  next hr => exact (hm.error h.setCur hr).setCur
  next => exact h

protected theorem NextWf.execUnwindTake {c k} (h : MemWf s) : NextWf (execUnwindTake c k s) :=
  .ite (.next h) (.next (.forSeat (.bind .modMe fun _ => .bind .unwTarget fun _ => .bind .modMe fun _ => .unwNext)
    (.ite h.settle.dropWaits.quitPair h.settle.dropWaits)))

protected theorem MemWf.popAt {c k} (h : MemWf s) : MemWf (s.popAt c k) :=
  h.settle.dropWaits.forSeat (.bind .modMe fun _ => .unwPop)

protected theorem NextWf.execUnwindPop {c k} (h : MemWf s) : NextWf (execUnwindPop c k s) :=
  .ite (.next h) (by
    split
    · exact .next h
    · exact .ite (.next h) (.ite (.next (h.forSeat .unwNext)) (.next h.popAt)))

protected theorem NextWf.execCleanupOverrun {c k} (h : MemWf s) : NextWf (execCleanupOverrun c k s) :=
  .ite (.next h) (by
    split
    · exact .ite (.next h.modVd.popAt) (.next h)
    · exact .next h)

protected theorem MemWf.markSlots {w at_ x kill base n} (h : MemWf s) : MemWf (s.markSlots w at_ x kill base n).1 := by
  induction n with
  | zero => exact h
  | succ n ih =>
    unfold State.markSlots
    dsimp only
    split
    · exact ih
    · split
      · exact ih
      · split
        next hr => exact ih.tryUnit .unitWrite hr
        · exact ih

protected theorem MemWf.markSeat {c k x kill} (h : MemWf s) : MemWf (s.markSeat c k x kill) :=
  .ite (.ite h (.ite h.modSeat h.retireNow)) h.markSlots.modSeat

protected theorem MemWf.markSaved {vd i x kill} (h : MemWf s) : MemWf (s.markSaved vd i x kill) := by
  unfold State.markSaved
  extract_lets -underBinder w
  split
  · refine .ite ?_ h
    extract_lets -underBinder s1
    have h1 : MemWf s1 := by
      unfold s1
      split
      next hr => exact h.tryUnit .unitWrite hr
      next => exact h
    have h2 := (h1.dropWaits (tc := i.core) (tk := i.id)).leaveAll (tc := i.core) (tk := i.id)
    exact .ite h2.modVd.vacate h2.modVd
  · exact h.markSlots

protected theorem MemWf.markAll {vd x kill} (h : MemWf s) : MemWf (s.markAll vd x kill) :=
  .foldl (fun _ _ h1 => h1.markSaved) (.foldl (fun _ _ h1 => h1.markSeat) h)

protected theorem MemWf.settleAs {vd x} (h : MemWf s) : MemWf (s.settleAs vd x) :=
  .foldl (fun _ _ h1 => by
    dsimp only
    split
    · exact .ite h1.settle h1
    · exact h1) h

protected theorem MemWf.revoke {vd x} (h : MemWf s) : MemWf (s.revoke vd x) :=
  .tlbDrop (.cancelImages (.foldl (fun _ _ h1 => h1.cancel) h.settleAs.setDstate.retractAll))

protected theorem MemWf.reclaim {page next prop} (h : MemWf s) : MemWf (s.reclaim page next prop) := h
protected theorem MemWf.cpDone {vd code} (h : MemWf s) : MemWf (s.cpDone vd code) := h.modVd
protected theorem MemWf.reclaimAll {p} (h : MemWf s) : MemWf (s.reclaimAll p) :=
  .foldl (fun _ _ h1 => h1.reclaim) (.foldl (fun _ _ h1 => by
    split
    · exact h1.cpDone
    · exact h1) h)

protected theorem MemWf.revokeEnd {vd x kill} (h : MemWf s) : MemWf (s.revokeEnd vd x kill) :=
  .ite h.markAll.modVd.reclaimAll.modVd h.markAll.modVd

protected theorem NextWf.drevoke {h0 kill a} (h : MemWf s) : NextWf (drevoke h0 kill a s) :=
  .leave (.bind .gateInstr fun _ => .bind .me fun _ => .ite .raise_bind (.bind .readN64 fun _ => .bind .look fun _ =>
    .bind .look fun _ => .bind .need fun _ => .bind .fenced fun _ => .bind .look fun _ => by
    extract_lets jp
    have hjp : ∀ a, KeepsMem (jp a) := fun _ => .change fun _ h1 => .ite h1.advance h1.advance.revokeEnd
    exact .ite (hjp ()) (.bind .look fun _ => .bind .waitFor fun _ => .ite_else_bind (.change fun _ h1 =>
      h1.revoke.modVd) fun _ => .bind .look fun _ => .ite .throw_bind (hjp ())))) h

protected theorem NextWf.execDrevoke {h0 a} (h : MemWf s) : NextWf (execDrevoke h0 a s) := .drevoke h
protected theorem NextWf.execDrevokeKill {h0 a} (h : MemWf s) : NextWf (execDrevokeKill h0 a s) := .drevoke h
protected theorem NextWf.execDomainFreed {vd d} (h : MemWf s) : NextWf (execDomainFreed vd d s) :=
  .ite (.next h) (.next h.setDstate.modVd)

end Sys2Proof.Safety
end

section
/-! PROOFS. Sys2Proof/Machine/Save.lean: what its operations do keeps the canonical form of every memory (R89, R92; log 4). -/
namespace Sys2Proof.Safety
open Sys2Proof.Machine

variable {s t : State} {α : Type}

protected theorem MemWf.preempt {c why} (h : MemWf s) : MemWf (s.preempt c why) := .foldl (fun _ _ h1 => .ite h1.modCore h1) h
protected theorem NextWf.execQuotaExpiry {c k} (h : MemWf s) : NextWf (execQuotaExpiry c k s) := .ite (.next h)
  (.next h.preempt)

protected theorem MemWf.setProgress {c k n fault} (h : MemWf s) : MemWf (s.setProgress c k n fault) := by
  unfold State.setProgress
  dsimp only
  split
  · exact h.modSeat.locWrite
  · exact h.modSeat

protected theorem MemWf.saveUnits {c k w fault us n} (h : MemWf s) : MemWf (State.saveUnits c k w fault us n s).1 := by
  induction us generalizing s n with
  | nil => exact h
  | cons u us ih =>
    unfold State.saveUnits
    split
    next hr => exact ih (KeepsMem.unitWrite.ok h hr).setProgress
    next hr => exact KeepsMem.unitWrite.error h hr
    next => exact h

protected theorem MemWf.saveDone {c k} (h : MemWf s) : MemWf (s.saveDone c k) :=
  .ite h.retireNow.modCore (.modCore (.vacate (.modCore (.modVd h))))

protected theorem MemWf.saveFault {c k t} (h : MemWf s) : MemWf (s.saveFault c k t) := h.takeTrap
protected theorem MemWf.doSave {c k} (h : MemWf s) : MemWf (s.doSave c k) := by
  unfold State.doSave
  dsimp only
  split
  next hr =>
    exact .saveDone (MemWf.of_fst (.saveUnits (by
      split
      · exact (h.settle :)
      · exact .setProgress (h.settle :))) hr)
  next hr =>
    exact .saveFault (.modSeat (MemWf.of_fst (.saveUnits (by
      split
      · exact (h.settle :)
      · exact .setProgress (h.settle :))) hr))
  next hr =>
    exact MemWf.of_fst (.saveUnits (by
      split
      · exact (h.settle :)
      · exact .setProgress (h.settle :))) hr

protected theorem KeepsMem.restoreBody {vd i} : KeepsMem (restoreBody vd i) :=
  .bind .unitRead fun _ => .bind (.mapL fun _ => .bind .unitRead fun _ => .pure) fun _ => .bind .unitWrite fun _ => .bind
    (.change fun _ h1 => h1.modCore) fun _ => .bind .unwTarget fun _ => by
    extract_lets jp
    have hjp : ∀ a, KeepsMem (jp a) := fun _ => .change fun _ h1 => .foldl (fun _ _ h2 => h2.finish)
      (.ite h1.renameThread.modVd.modSeat h1.renameThread.modVd)
    split
    · exact .ite (.bind .modMe hjp) (.bind .modMe hjp)
    · exact (hjp ())

protected theorem MemWf.restoreSeat {vd i} (h : MemWf s) : MemWf (s.restoreSeat vd i) := by
  unfold State.restoreSeat
  dsimp only
  split
  next hr => exact (KeepsMem.restoreBody.ok h.setCur hr).setCur
  next => exact h.modSeat.saveFault
  next => exact h.modSeat.saveFault
  next hr => exact (KeepsMem.restoreBody.error h.setCur hr).setCur.modSeat
  next => exact h.modSeat

protected theorem MemWf.restore {vd i} (h : MemWf s) : MemWf (s.restore vd i) :=
  .ite h (by
    split
    · exact .ite h.restoreSeat h.dropWaits.leaveAll.modVd.vacate
    · exact h.restoreSeat)

protected theorem NextWf.execThreadSave {c k} (h : MemWf s) : NextWf (execThreadSave c k s) :=
  .ite (.next h) (by
    split
    · exact .ite (.next h.vacate.modCore) (by
        split
        · exact .next h.restore
        · exact .next h.vacate)
    · exact .next h.doSave
    · exact .ite (.next h) (by
        split
        · exact .next h.modSeat.takeTrap
        · exact .ite (.next (h.forSeat .unwNext)) (.ite (.next h) (.next (.doSave (.foldl (fun _ _ h1 =>
            .ite h1.deliverMsg h1) h))))))

protected theorem NextWf.execSavefaultTimeout {c k} (h : MemWf s) : NextWf (execSavefaultTimeout c k s) := by
  unfold execSavefaultTimeout
  dsimp only
  split
  · exact .next h.teardown
  · exact .next h.teardown
  · exact .next h

protected theorem NextWf.execHandlerTimeout {c k} (h : MemWf s) : NextWf (execHandlerTimeout c k s) := by
  unfold execHandlerTimeout
  dsimp only
  split
  · exact .ite (.next h.doubleFault) (.next h)
  · exact .next h

protected theorem MemWf.restoreCore {c b m} (h : MemWf s) : MemWf (s.restoreCore c b m) :=
  MemWf.syncChild ⟨memWrites_wf _ _ h.lmem, memWrites_wf _ _ h.acc, h.dram, h.host, h.fabric⟩

protected theorem MemWf.emptyCores {mine} (h : MemWf s) : MemWf (s.emptyCores mine) :=
  ⟨filter_wf _ h.lmem, filter_wf _ h.acc, h.dram, h.host, h.fabric⟩

protected theorem MemWf.scrub {mine} (h : MemWf s) : MemWf (s.scrub mine) := (h.emptyCores :)
protected theorem MemWf.passRow {vd y} (h : MemWf s) : MemWf (s.passRow vd y) := .ite h h.scrub.setRows
protected theorem NextWf.execCoreImageSave {c addr} (h : MemWf s) : NextWf (execCoreImageSave c addr s) := by
  unfold execCoreImageSave
  split
  · exact .next h
  · exact .ite (.next h.devWrite.setFresh.modVd) (.next h)

protected theorem MemWf.prune {v c} (h : MemWf s) : MemWf (s.prune v c) := .foldl (fun _ _ h1 => h1.freeSlotNow) h.modCore
protected theorem MemWf.restoreCores {v pass} (h : MemWf s) : MemWf (s.restoreCores v pass) := by
  refine .foldl (fun t e ht => ?_) h
  obtain ⟨c, a⟩ := e
  have hf : ∀ f, MemWf ((t.teardown v).modCore c f) := fun _ => ht.teardown.modCore
  dsimp only
  split
  · exact ht
  split
  · exact hf _
  split
  · exact ht.restoreCore.prune
  · exact hf _

protected theorem NextWf.execTurnStart {vd} (h : MemWf s) : NextWf (execTurnStart vd s) :=
  .ite (.next h) (.next (.modCores (.foldl (fun _ _ h1 => h1.restore) (.modVd (.modModule (.modCores (.modVd (.restoreCores
    (.foldl (fun _ _ h1 => h1.passRow) h)))))))))

end Sys2Proof.Safety
end

section
/-! PROOFS. Sys2Proof/Machine/System.lean: what its operations do keeps the canonical form of every memory (R89, R92; log 4). -/
namespace Sys2Proof.Safety
open Sys2Proof.Machine

variable {s t : State} {α : Type}

protected theorem KeepsMem.readCyc : KeepsMem readCyc := .bind .me fun _ => .bind .look fun _ => .pure
protected theorem KeepsMem.readSeat {n} : KeepsMem (readSeat n) :=
  .bind .me fun _ => .bind .look fun _ => .ite .pure (.ite .look (.ite .pure (.ite .pure (.ite .pure (.ite .pure (.ite .pure
    (.ite .pure (.ite .pure (.ite .pure (.ite .pure (.ite .pure (.ite .readCyc (.ite .pure .raise)))))))))))))

protected theorem KeepsMem.readCore {n} : KeepsMem (readCore n) :=
  .bind .me fun _ => .bind .look fun _ => .bind .look fun _ => .ite .look (.ite .pure (.ite .pure (.ite .pure (.ite .pure
    (.ite (.ite .raise .pure) .raise)))))

protected theorem KeepsMem.tableIndex {sel iw opnd} : KeepsMem (tableIndex sel iw opnd) :=
  .bind .need fun _ => .bind .me fun _ => .bind .look fun _ => .bind .need fun _ => .pure

protected theorem KeepsMem.tableDenied {sel i} : KeepsMem (tableDenied sel i : M α) := .raise
protected theorem KeepsMem.readTable {sel iw} : KeepsMem (readTable sel iw) :=
  .bind .tableIndex fun _ => .bind .me fun _ => .bind .look fun _ => .ite .look (.ite (.ite .look .tableDenied) (.ite
    (.ite .look .tableDenied) (.ite .tableDenied (.ite .look (.ite .look .look)))))

protected theorem KeepsMem.readEng {n w} : KeepsMem (readEng n w) :=
  .bind .need fun _ => .bind .need fun _ => .bind .me fun _ => .bind .look fun _ => .ite .raise_bind (.bind .look fun _ =>
    .pure)

protected theorem NextWf.execSysr {h0 form d a b} (h : MemWf s) : NextWf (execSysr h0 form d a b s) :=
  .issue (.bind .readN64 fun _ => .bind (.readOpt fun _ => .readN64) fun _ => by
    dsimp only
    split
    · exact .bind .readSeat fun _ => .writeScal
    · exact .bind .readCore fun _ => .writeScal
    · exact .bind .readTable fun _ => .writeScal
    · exact .bind .readEng fun _ => .writeScal) h

protected theorem KeepsMem.writeSeat {n v} : KeepsMem (writeSeat n v) :=
  .bind .me fun _ => .bind .need fun _ => .ite .modMe (.ite .modMe (.ite (.bind .need fun _ => .modMe) (.ite .modMe (.ite
    (.bind .look fun _ => .ite .pure .modMe) .raise))))

protected theorem KeepsMem.writeCore {n v} : KeepsMem (writeCore n v) :=
  .bind .me fun _ => .bind .need fun _ => .ite (.bind .look fun _ => .bind .need fun _ => .change fun _ h1 =>
    h1.modMyCore) .raise

protected theorem KeepsMem.writeRegion {i v} : KeepsMem (writeRegion i v) :=
  .bind .me fun _ => .bind .look fun _ => .bind .look fun _ => .bind .look fun _ => .bind .look fun _ => .ite .tableDenied
    (.change fun _ h1 => h1.modMyCore)

protected theorem KeepsMem.writeTable {sel iw v} : KeepsMem (writeTable sel iw v) :=
  .bind .tableIndex fun _ => .bind .me fun _ => .ite .writeRegion (.ite (.ite .tableDenied (.bind .need fun _ =>
    .bind .look fun _ => .bind .waitFor fun _ => .change fun _ h1 => h1.devWrite)) (.ite (.ite .tableDenied
      (.bind .need fun _ => .change fun _ h1 => .flushEvents h1)) (.ite (.bind .look fun _ => by
    split
    · exact .change fun _ h1 => h1
    · exact .raise) .tableDenied)))

protected theorem NextWf.execSysw {h0 form d a b} (h : MemWf s) : NextWf (execSysw h0 form d a b s) :=
  .issue (by
    extract_lets jp
    have hjp : ∀ a, KeepsMem (jp a) := fun _ => .bind .readN64 fun _ => .bind .readN64 fun _ => by
        split
        · exact .writeSeat
        · exact .writeCore
        · exact .writeTable
        · exact .bind .need fun _ => .raise
    split
    · exact .bind .readD fun _ => .bind .pure hjp
    · exact .bind .pure hjp) h

protected theorem NextWf.execTrap {h0 a} (h : MemWf s) : NextWf (execTrap h0 a s) := .issue (.bind .readN64 fun _ => .raise) h
protected theorem NextWf.execEret {h0} (h : MemWf s) : NextWf (execEret h0 s) :=
  .leave (.bind .me fun _ => .bind .look fun _ => by
    split
    · exact .bind .bankQuiet fun _ => .change fun _ h1 => h1.hints.leaveHandler
    · exact .raise) h

protected theorem NextWf.execWait {h0 x1 d a b} (h : MemWf s) : NextWf (execWait h0 x1 d a b s) := by
  refine .issue (.bind .readN64 fun _ => .bind .readN64 fun _ => .bind .me fun x => ?_) h
  extract_lets jp
  have hjp : ∀ e, KeepsMem (jp e) := fun e => by
    cases e with
    | some b => exact .bind .writeP fun _ => .change fun _ h => h.setBlk
    | none => exact .bind (.change fun _ h => h.setBlk) fun _ => .throw
  split
  · exact .bind .pure hjp
  · exact .bind .localImage fun _ => .bind .pure hjp

protected theorem NextWf.execWaitTimeout {c k} (h : MemWf s) : NextWf (execWaitTimeout c k s) := by
  unfold execWaitTimeout
  dsimp only
  split
  · exact .ite (.next h) (.next h.setBlk)
  · exact .next h

protected theorem NextWf.execIssueHoldExpiry {c k st} (h : MemWf s) : NextWf (execIssueHoldExpiry c k st s) :=
  .ite (.next h) (.next h.modStrand)

protected theorem NextWf.execTlbinv {h0 sc d a b} (h : MemWf s) : NextWf (execTlbinv h0 sc d a b s) :=
  .issue (.bind .me fun _ => .ite .raise_bind (.bind .look fun _ => .bind .need fun _ => .bind .need fun _ => .bind
    (.readOpt fun _ => .readN64) fun _ => .bind (.readOpt fun _ => .readN64) fun _ => .bind .need fun _ =>
      .bind .look fun _ => .bind .writeScal fun _ => .change fun _ h1 => h1.modVd)) h

protected theorem NextWf.execTlbinvComplete {vd} (h : MemWf s) : NextWf (execTlbinvComplete vd s) := by
  unfold execTlbinvComplete
  split
  · exact .next h
  · exact .ite (.next h) (.next h.tlbDrop.modVd)

protected theorem NextWf.execHinst {h0 a} (h : MemWf s) : NextWf (execHinst h0 a s) :=
  .issue (.bind .me fun _ => .ite .raise_bind (.bind .readPair fun _ => .bind .need fun _ => .bind .need fun _ =>
    .bind .need fun _ => .bind .look fun _ => .bind .look fun _ => by
    dsimp only
    split
    · exact .raise_bind
    · exact .bind .look fun _ => .bind .waitFor fun _ => .change fun _ h1 => h1.modMyCore)) h

protected theorem MemWf.finishMain {c k p} (h : MemWf s) : MemWf (s.finishMain c k p) := by
  unfold State.finishMain
  exact h.finish

protected theorem MemWf.refusePair {m} (h : MemWf s) : MemWf (s.refusePair m) := by
  unfold State.refusePair
  split
  · exact h.modCore.finishMain
  · exact h

protected theorem NextWf.execChkp {h0 d a} (h : MemWf s) : NextWf (execChkp h0 d a s) :=
  .leave (.bind .me fun _ => .bind .look fun _ => .ite .raise_bind (.bind .readN64 fun _ => .bind .need fun _ => by
    dsimp only
    split
    · exact .bind .pure fun _ => .bind .look fun _ => .ite .raise_bind (.bind .look fun _ => .bind .look fun _ =>
        .bind .look fun _ => .ite (.change fun _ h1 => .advance (.ite (.refusePair
          (.ite h1.modMe.setBlk.modMyCore h1.modMe.setBlk)) (.ite h1.modMe.setBlk.modMyCore h1.modMe.setBlk))) (.ite
            (.bind .look fun _ => by
        split
        · exact .change fun _ h1 => .advance (.setBlk (.modMe (.finishMain (.ite h1.modMyCore.modCore h1.modMyCore.modCore))))
        · exact .change fun _ h1 => h1.hints.setBlk) (.change fun _ h1 => h1.modMyCore.hints.setBlk)))
    · exact .raise_bind)) h

protected theorem NextWf.execChkpTimeout {c} (h : MemWf s) : NextWf (execChkpTimeout c s) := by
  unfold execChkpTimeout
  split
  · exact .ite (.next h) (.next h.modCore.finishMain)
  · exact .next h

protected theorem NextWf.execChkx {h0} (h : MemWf s) : NextWf (execChkx h0 s) :=
  .leave (.bind .look fun _ => .bind .look fun _ => by
    split
    · exact .raise
    · exact .ite .raise (.bind .look fun _ => .bind .look fun _ => by
        split
        · exact .ite (.change fun _ h1 => h1.modMyCore.modCore.finishMain.setBlk.advance) .raise
        · exact .change fun _ h1 => h1.modMyCore.hints.setBlk)) h

protected theorem NextWf.execChkxTimeout {c} (h : MemWf s) : NextWf (execChkxTimeout c s) := by
  unfold execChkxTimeout
  split
  · exact .ite (.next h) (.next h.modCore.setBlk.setCur.mismatch.setCur)
  · exact .next h

protected theorem MemWf.finishFollow {n k v} (h : MemWf s) : MemWf (s.finishFollow n k v) := h.finish
protected theorem MemWf.refuseGang {l cs} (h : MemWf s) : MemWf (s.refuseGang l cs) :=
  .foldl (fun _ _ h1 => .foldl (fun _ _ h2 => h2.finishFollow) h1) h

protected theorem MemWf.startGang {l w h0 cs} (h : MemWf s) : MemWf (s.startGang l w h0 cs) :=
  .foldl (fun _ _ h1 => by
    split
    · exact h1.finishFollow.modSeat.modCore
    · exact h1) h

protected theorem NextWf.execFollow {h0 wm1 hm1 d a} (h : MemWf s) : NextWf (execFollow h0 wm1 hm1 d a s) :=
  .leave (.bind .me fun _ => .bind .look fun _ => .bind .need fun _ => .bind .readN64 fun _ => .bind .look fun _ =>
    .bind .look fun _ => by
    split
    · exact .change fun _ h1 => h1.setBlk.refuseGang.modMe.advance
    · exact .bind .look fun _ => .ite (.change fun _ h1 => h1.setBlk.refuseGang.modMe.advance) (.ite (.change fun _ h1 =>
        h1.setBlk.refuseGang.modMe.advance) (.bind (.change fun _ h1 => h1.hints.setBlk) fun _ => .bind .look fun _ => .ite
          (.change fun _ h1 => h1.startGang) .pure))) h

protected theorem NextWf.execUnfollow {h0} (h : MemWf s) : NextWf (execUnfollow h0 s) :=
  .leave (.bind .me fun _ => .bind .need fun _ => .change fun _ h1 => h1.advance.endGang) h

protected theorem NextWf.execCapr {h0 d a} (h : MemWf s) : NextWf (execCapr h0 d a s) :=
  .issue (.bind .readN64 fun _ => .bind .look fun _ => .writeScal) h

protected theorem KeepsMem.sigTarget {a} : KeepsMem (sigTarget a) :=
  .bind .me fun _ => .ite .raise_bind (.bind .readN64 fun _ => .bind .look fun _ => .ite .raise_bind (.bind .look fun _ =>
    .bind .need fun _ => .pure))

protected theorem NextWf.execSigcorePre {h0 pst a} (h : MemWf s) : NextWf (execSigcorePre h0 pst a s) :=
  .leave (.bind .sigTarget fun _ => .bind .writeP fun _ => .change fun _ h1 => h1.advance.preempt) h

protected theorem NextWf.execSigcoreSpawn {h0 pst a b} (h : MemWf s) : NextWf (execSigcoreSpawn h0 pst a b s) :=
  .issue (.bind .sigTarget fun _ => .bind .readN64 fun _ => .bind .need fun _ => .bind .me fun _ => .bind .seatRead fun _ =>
    .bind .look fun _ => .bind .need fun _ => .bind .look fun _ => .ite .writeP (.bind .look fun _ => .bind
      (.change fun _ h1 => h1.startThread) fun _ => .writeP)) h

protected theorem NextWf.execSigcoreRes {h0 pst a b} (h : MemWf s) : NextWf (execSigcoreRes h0 pst a b s) :=
  .leave (.bind .sigTarget fun _ => .bind .readN64 fun _ => .bind .me fun _ => .bind .look fun _ => by
    split
    · exact .bind .writeP fun _ => .change fun _ h1 => h1.advance
    · exact .bind .look fun _ => .bind .writeP fun _ => .change fun _ h1 => .ite h1.advance (.restoreSeat (.ite h1.advance
        (h1.advance :)))) h

end Sys2Proof.Safety
end

section
/-! PROOFS. Sys2Proof/Machine/Dispatcher.lean: what its operations do keeps the canonical form of every memory (R89, R92; log 4). -/
namespace Sys2Proof.Safety
open Sys2Proof.Machine

variable {s t : State} {α : Type}

protected theorem MemWf.rejectQueue {vd q seq reason} (h : MemWf s) : MemWf (s.rejectQueue vd q seq reason) :=
  h.modQueue.postEvent

protected theorem KeepsMem.segment {vd q n} : KeepsMem (segment vd q n) := .bind .look fun _ => .bind .look fun _ => .unitRead
protected theorem MemWf.settleQueue {vd q} (h : MemWf s) : MemWf (s.settleQueue vd q) := by
  unfold State.settleQueue
  extract_lets -underBinder x s1 y
  have h1 : MemWf s1 := by
    unfold s1
    split
    · exact h
    split
    next hr =>
      have ht := KeepsMem.segment.ok h hr
      exact .ite ht.rejectQueue (.ite ht.rejectQueue ht.modQueue)
    next => exact h
    next hr => exact KeepsMem.segment.error h hr
    next => exact h.rejectQueue
  refine .ite h ?_
  split
  · exact .ite h1.rejectQueue h1
  · exact h1

protected theorem NextWf.execDoorbell {vd q put} (h : MemWf s) : NextWf (execDoorbell vd q put s) :=
  .ite (.next h) (.ite (.next h.modQueue.modQueue) (.next h.modQueue.settleQueue))

protected theorem MemWf.nextCommand {vd q len} (h : MemWf s) : MemWf (s.nextCommand vd q len) := h.modQueue.settleQueue
protected theorem NextWf.execQcmdEnd {vd q} (h : MemWf s) : NextWf (execQcmdEnd vd q s) := by
  unfold execQcmdEnd
  dsimp only
  split
  · exact .next h.settleQueue.modQueue.settleQueue
  · exact .next h.settleQueue

protected theorem NextWf.execQcmdLaunch {vd q} (h : MemWf s) : NextWf (execQcmdLaunch vd q s) := by
  unfold execQcmdLaunch
  dsimp only
  split
  · split
    next hr => exact .next (KeepsMem.submit.ok h.settleQueue hr).nextCommand
    next hr => exact .next (KeepsMem.submit.error h.settleQueue hr)
    next => exact .next h.settleQueue
  · exact .next h.settleQueue

protected theorem NextWf.execQcmdCopy {vd q} (h : MemWf s) : NextWf (execQcmdCopy vd q s) := by
  unfold execQcmdCopy
  dsimp only
  split
  · exact .ite (.next h.settleQueue.modQueue.nextCommand) (.next h.settleQueue)
  · exact .next h.settleQueue

protected theorem NextWf.execQcmdSignal {vd q} (h : MemWf s) : NextWf (execQcmdSignal vd q s) := by
  unfold execQcmdSignal
  dsimp only
  split
  · exact .ite (.next h.settleQueue.writeQtl.nextCommand) (.next h.settleQueue)
  · exact .next h.settleQueue

protected theorem NextWf.execQcmdWait {vd q} (h : MemWf s) : NextWf (execQcmdWait vd q s) := by
  unfold execQcmdWait
  dsimp only
  split
  · exact .ite (.next h.settleQueue.nextCommand) (.next h.settleQueue)
  · exact .next h.settleQueue

protected theorem NextWf.execCopyCommandComplete {vd q} (h : MemWf s) : NextWf (execCopyCommandComplete vd q s) := by
  unfold execCopyCommandComplete
  split
  · exact .next h
  · dsimp only
    split
    next hr =>
      exact .ite (.next (.settleQueue (.modQueue (KeepsMem.ok (.bind .unitRead fun _ => .unitWrite) h hr)))) (.next
        (.modQueue (KeepsMem.ok (.bind .unitRead fun _ => .unitWrite) h hr)))
    next hr =>
      exact .next h
    next hr =>
      exact .next (KeepsMem.error (.bind .unitRead fun _ => .unitWrite) h hr)
    next hr =>
      exact .next h.modQueue.rejectQueue

protected theorem MemWf.noteMet (h : MemWf s) : MemWf s.noteMet := h
protected theorem MemWf.deliver {l code off b c} (h : MemWf s) : MemWf (s.deliver l code off b c) :=
  .foldl (fun _ _ h1 => h1.modCore) h.locWrite

protected theorem KeepsMem.startLaunch {l} : KeepsMem (startLaunch l) :=
  .bind .look fun _ => .bind (.attempt .unitRead) fun _ => by
    split
    · exact .pure
    · exact .bind (.change fun _ h1 => .foldl (fun _ _ h2 => h2.deliver) h1) fun _ => .bind (.attempt .unitRead) fun _ => by
        split
        · exact .pure
        · exact .bind (.change fun _ h1 => .foldl (fun _ _ h2 => h2.deliver) h1) fun _ => .bind (.traps .unitWrite) fun _ =>
            .ite .pure (.bind .unitPlaces fun _ => .bind (.change fun _ h1 => h1.setLaunch) fun _ => .pure)

protected theorem NextWf.execDispatchVisit {vd} (h : MemWf s) : NextWf (execDispatchVisit vd s) := by
  refine .ite (.next h) ?_
  extract_lets w s1 s2
  have h2 : MemWf s2 := h.noteMet
  refine .ite (.next h2) ?_
  split
  · exact .next h2
  · split
    next hr => exact .next (KeepsMem.startLaunch.ok h2 hr).modVd
    next hr => exact .next (KeepsMem.startLaunch.ok h2 hr).refuse
    next hr => exact .next (KeepsMem.startLaunch.error h2 hr)
    next => exact .next h2

protected theorem NextWf.execStartMessage {lid c} (h : MemWf s) : NextWf (execStartMessage lid c s) := by
  unfold execStartMessage
  split
  · exact .next h
  · exact .ite (.next h) (.next (.setLaunch (.foldl (fun _ _ h1 => h1.startThread.modSeat) h.modCore)))

protected theorem MemWf.endStreams {vd lid} (h : MemWf s) : MemWf (s.endStreams vd lid) :=
  .foldl (fun _ _ h1 => .ite h1.freeStream h1) h

protected theorem MemWf.endSlots {vd lid} (h : MemWf s) : MemWf (s.endSlots vd lid) := .foldl (fun _ _ h1 => h1.freeSlotNow) h
protected theorem MemWf.endSeats {vd lid} (h : MemWf s) : MemWf (s.endSeats vd lid) := h.modCores
protected theorem MemWf.endMail {vd lid} (h : MemWf s) : MemWf (s.endMail vd lid) := .foldl (fun _ _ h1 =>
  h1.modCore) h.modCores

protected theorem NextWf.execLaunchComplete {lid} (h : MemWf s) : NextWf (execLaunchComplete lid s) := by
  unfold execLaunchComplete
  split
  · exact .next h
  · exact .ite (.next h) (.next (by
      split
      · exact .syncChild (.writeQtl (.endSeats (.endMail (.endSlots (.endStreams h)))))
      · exact .writeQtl (.endSeats (.endMail (.endSlots (.endStreams h))))))

protected theorem NextWf.execQueueEnable {vd q} (h : MemWf s) : NextWf (execQueueEnable vd q s) :=
  .ite (.next h) (.ite (.next h.modQueue) (.next h.modQueue.settleQueue))

protected theorem MemWf.writeQtls {vd q vs} (h : MemWf s) : MemWf (s.writeQtls vd q vs) := h.modQueue
protected theorem KeepsMem.emptyGet {l} : KeepsMem (emptyGet l) := .bind .unitRead fun _ => .unitWrite
protected theorem MemWf.emptyList {l} (h : MemWf s) : MemWf (s.emptyList l) := by
  unfold State.emptyList
  split
  next hr =>
    exact KeepsMem.ok .emptyGet h hr
  next hr =>
    exact h

protected theorem MemWf.listsWait {ls} (h : MemWf s) (hr : s.listsWait ls = some t) : MemWf t := by
  obtain ⟨l, -, hl⟩ := List.exists_of_findSome?_eq_some hr
  split at hl
  · cases hl
  · split at hl
    next => cases hl; exact h
    next he => cases hl; exact KeepsMem.emptyGet.error h he
    next => cases hl

protected theorem MemWf.cancelSaved {vd i} (h : MemWf s) : MemWf (s.cancelSaved vd i) := .ite h.cancelImages (.ite h h.cancel)
protected theorem MemWf.killLaunch {l} (h : MemWf s) : MemWf (s.killLaunch l) :=
  .emptyList (.endSeats (.endSlots (.endStreams (.modCores (.modVd (.foldl (fun _ _ h1 => h1.cancelSaved.dropWaits.leaveAll)
    (.foldl (fun _ _ h1 => h1.retire) h)))))))

protected theorem MemWf.killQueue {vd q} (h : MemWf s) : MemWf (s.killQueue vd q) :=
  .modVd (.writeQtls (.foldl (fun _ _ h1 => by
    split
    · exact h1.syncChild
    · exact h1) (.modCores (.foldl (fun _ _ h1 => h1.killLaunch) (.modQueue h)))))

protected theorem MemWf.killOwner {vd q} (h : MemWf s) : MemWf (s.killOwner vd q) :=
  .ite h.modQueue (.ite h.revokeEnd.modQueue (.ite (.ite h h.revoke.modVd) (.modQueue (.revokeEnd (.ite h h.revoke.modVd)))))

protected theorem MemWf.killOn {vd q} (h : MemWf s) : MemWf (s.killOn vd q) := by
  unfold State.killOn
  dsimp only
  split
  next hr =>
    split at hr
    · exact h.listsWait hr
    · cases hr
  next =>
    have h1 : MemWf (if (s.queue vd q).qkleft then (s.killQueue vd q).modQueue vd q (fun x => { x with qkleft := false })
        else s) := .ite h.killQueue.modQueue h
    exact .ite h1.modQueue (.ite h1 h1.killOwner)

protected theorem NextWf.execQueueKill {vd q domk} (h : MemWf s) : NextWf (execQueueKill vd q domk s) :=
  .ite (.next h) (.ite (.next h.killOn) (.ite (.next h) (.ite (.next h.modQueue.modQueue) (.next h.modQueue.modQueue.killOn))))

protected theorem NextWf.execRegulatorFire {slot} (h : MemWf s) : NextWf (execRegulatorFire slot s) := by
  unfold execRegulatorFire
  extract_lets -underBinder r k ovr next s1 set w go
  have h1 : MemWf s1 := .ite h h.postEvent
  have hset : ∀ t n, MemWf t → MemWf (set t n) := fun _ _ h => h
  have hgo : KeepsMem go := .bind (.attempt .unitRead) fun b => by
    cases b with
    | error _ => exact .bind (.change fun _ h => h.postEvent) fun _ => .pure
    | ok b => exact .bind .submit fun _ => .pure
  refine .ite (.next h) (.ite (.next (hset _ _ h1)) ?_)
  split
  next hr => exact .next (hset _ _ (hgo.ok h1 hr))
  next => exact .next h
  next => exact .next h

end Sys2Proof.Safety
end

section
/-! PROOFS. Sys2Proof/Machine/Host.lean: what its operations do keeps the canonical form of every memory (R89, R92; log 4). -/
namespace Sys2Proof.Safety
open Sys2Proof.Machine

variable {s t : State} {α : Type}

protected theorem MemWf.killQueues {vd} (h : MemWf s) : MemWf (s.killQueues vd) := .modVd (.foldl (fun _ _ h1 =>
  h1.killQueue) h)

protected theorem MemWf.tdiError {fn} (h : MemWf s) : MemWf (s.tdiError fn) := by
  unfold State.tdiError
  split
  next hr =>
    exact h.listsWait hr
  · exact h.killQueues.modVd

protected theorem MemWf.queueReg {vd q idle f} (h : MemWf s) : MemWf (s.queueReg vd q idle f) := .ite h.modQueue h
protected theorem MemWf.loadReg {vd f} (h : MemWf s) : MemWf (s.loadReg vd f) := .ite h h.modVd
protected theorem MemWf.propReg {vd f} (h : MemWf s) : MemWf (s.propReg vd f) := .ite h h.modVd
protected theorem MemWf.writeReg {r vd q v} (h : MemWf s) : MemWf (s.writeReg r vd q v) := by
  unfold State.writeReg
  split
  · exact h.queueReg
  · exact .ite h.queueReg h
  · exact h.queueReg
  · exact h.queueReg
  · exact h.queueReg
  · exact h.loadReg
  · exact h.loadReg
  · exact .ite h.loadReg h
  · exact h.loadReg
  · exact h.loadReg
  · exact .ite h h.modModule
  · exact .ite h h.modModule
  · exact .ite h.propReg h
  · exact h.propReg
  · exact h.propReg
  · exact h.propReg
  · exact h.propReg
  · exact h.modModule
  · exact .ite h.modModule h
  · exact h.modModule
  · exact h.modModule
  · exact .ite h.modCore h
  · exact .ite h.modCore h
  · exact .ite h.modModule h
  · exact .ite h.modModule h
  · exact .ite h.modModule h
  · exact .ite h.modModule h
  · exact h.queueReg
  · exact h
  · exact h
  · exact h
  · exact h
  · exact h
  · exact h
  · exact h
  · exact h
  · exact h

protected theorem NextWf.execRegisterWrite {r vd q v} (h : MemWf s) : NextWf (execRegisterWrite r vd q v s) :=
  .ite (.next h.writeReg) (.ite (.next h) (.ite (.execQueueKill h) (.ite (by
    split
    · exact .next h.writeReg
    · exact .next h
    · exact .next h.tdiError) (.next h.writeReg))))

protected theorem NextWf.execDlgetWrite {vd v} (h : MemWf s) : NextWf (execDlgetWrite vd v s) :=
  .ite (.next h.modVd.dlThrottle) (.next h)

protected theorem MemWf.writePage {vd page b} (h : MemWf s) : MemWf (s.writePage vd page b) := by
  unfold State.writePage
  split
  · exact h
  · exact h.devWrite

protected theorem MemWf.eraseKeys {vd} (h : MemWf s) : MemWf (s.eraseKeys vd) := .foldl (fun _ _ h1 => .ite h1 h1.setKey) h
protected theorem MemWf.moveRows {vd old made} (h : MemWf s) : MemWf (s.moveRows vd old made) :=
  .foldl (fun _ _ h1 => .ite h1.scrub (.ite h1 (.ite h1.passRow (.ite h1.scrub h1)))) h

protected theorem MemWf.createVd {vd} (h : MemWf s) : MemWf (s.createVd vd) :=
  .foldl (fun _ _ h1 => h1.setDstate) (.foldl (fun _ _ h1 => h1.devWrite) h)

protected theorem MemWf.qtDone {code} (h : MemWf s) : MemWf (s.qtDone code) := h.modModule
protected theorem NextWf.execQuotaWrite (h : MemWf s) : NextWf (execQuotaWrite s) :=
  .ite (.next h) (by
    dsimp only
    split
    · exact .next h.modModule.qtDone
    · exact .ite (.next h.modModule.qtDone) (.ite (.next h) (.next (.qtDone (.dlThrottle (.moveRows (.ite (.createVd h) h)))))))

protected theorem NextWf.execQuotaTeardown (h : MemWf s) : NextWf (execQuotaTeardown s) := by
  unfold execQuotaTeardown
  extract_lets -underBinder vd busy s0 s1 q e s2
  have h0 : MemWf s0 := .ite h.modModule h
  have h1 : MemWf s1 := .ite h0 h0.teardown.reclaimAll.qtDone
  have h2 : MemWf s2 := MemWf.setQuotas (s := e) h1.eraseKeys
  exact .ite (.next h0) (.ite (.next (.ite h0 h0.qtDone)) (.ite (.next h1) (.next h2.moveRows.qtDone)))

protected theorem KeepsMem.ldRead {vd va n} : KeepsMem (ldRead vd va n) := .unitRead
protected theorem KeepsMem.ldWrite {vd va b} : KeepsMem (ldWrite vd va b) := .ite .pure .unitWrite
protected theorem KeepsMem.ldParts {vd ps} : KeepsMem (ldParts vd ps) := by
  induction ps with
  | nil => exact .pure
  | cons p ps ih =>
    refine .bind (.attempt .ldWrite) fun r => ?_
    cases r with
    | error e => exact .pure
    | ok a => exact ih

protected theorem NextWf.execLoadGo {vd} (h : MemWf s) : NextWf (execLoadGo vd s) :=
  .ite (.next h) (.ite (.next h.loadReg) (.next h.loadReg))

protected theorem KeepsMem.loadRun {vd} : KeepsMem (loadRun vd) :=
  .bind .look fun _ => .bind (.attempt (.bind .ldRead fun _ => .ldRead)) fun _ => by
    split
    · exact .pure
    · split
      · exact .pure
      · exact .ite .pure (.bind .look fun _ => by
          split
          · exact .pure
          · exact .bind (.change fun _ h1 => h1.modVd) fun _ => .bind .look fun _ => by
              dsimp only
              split
              · exact .pure
              · split
                · exact .pure
                · exact .ite .pure (.bind .ldParts fun _ => .pure))

protected theorem NextWf.execLoadComplete {vd} (h : MemWf s) : NextWf (execLoadComplete vd s) := by
  refine .ite (.next h) ?_
  extract_lets put
  split
  next hr => exact .next (KeepsMem.loadRun.ok h hr :)
  next hr =>
    have ht := KeepsMem.loadRun.ok h hr
    exact .next (.ite (MemWf.modVd ht :).writeQtl ht)
  next => exact .next h
  next => exact .next h

protected theorem MemWf.reply {r} (h : MemWf s) : MemWf (s.reply r) := h
protected theorem MemWf.hostReq {r} (h : MemWf s) : MemWf (s.hostReq r) :=
  .ite h (by
    split
    · exact .ite h.startPull (by
        split
        · exact .reply h
        · exact .ite h.reply h.homeWrite.reply
        · exact h)
    · exact h)

protected theorem NextWf.execHostMemAccess {vd dpa acc} (h : MemWf s) : NextWf (execHostMemAccess vd dpa acc s) := .next
  (.hostReq h)

protected theorem NextWf.execBackInvalidateResponse {l} (h : MemWf s) : NextWf (execBackInvalidateResponse l s) := .next
  (.ite h h)

protected theorem NextWf.execFabricRequest {vd dom va acc} (h : MemWf s) : NextWf (execFabricRequest vd dom va acc s) := by
  unfold execFabricRequest
  extract_lets w a len s0 go bad
  have h0 : MemWf s0 := h
  have hgo : KeepsMem go := by
    cases acc with
    | read n => exact .bind .unitRead fun _ => .pure
    | write b => exact .bind .unitWrite fun _ => .pure
    | atomic op ty v => exact .bind .unitPlaces fun _ => .bind .unitRead fun _ => .bind .unitWrite fun _ => .pure
  refine .ite (.next h0) ?_
  split
  next hr => exact .next (hgo.ok h0 hr).reply
  next hr => exact .next (hgo.error h0 hr)
  next hr => exact .next (hgo.error h0 hr).reply
  next => exact .next h0.reply
  next => exact .next h0

protected theorem MemWf.nextPull {die} (h : MemWf s) : MemWf (s.nextPull die) := by
  unfold State.nextPull
  split <;> exact h

protected theorem MemWf.performOne {x} (h : MemWf s) : MemWf (s.performOne x) := by
  unfold State.performOne
  split
  · exact h.stepPiece
  · exact h.walkOn
  · exact h.hostReq
  · exact h

protected theorem MemWf.performHeld {q} (h : MemWf s) : MemWf (s.performHeld q) := (MemWf.foldl (fun _ _ h1 =>
  h1.performOne) h :)

protected theorem NextWf.execPullDataArrival {page bytes} (h : MemWf s) : NextWf (execPullDataArrival page bytes s) := by
  unfold execPullDataArrival
  split
  · exact .next h
  · refine .ite (.next h) ?_
    extract_lets s0 s1 s2
    have h1 : MemWf s1 := MemWf.ite (MemWf.writePage (s := { s with resps := [] }) h) h
    have h2 : MemWf s2 := (MemWf.nextPull (s := { s1 with pulls := _ }) h1)
    exact .next h2.performHeld

protected theorem MemWf.failPiece {n i t} (h : MemWf s) : MemWf (s.failPiece n i t) := by
  unfold State.failPiece
  dsimp only
  split
  · split
    · exact .setAccess (by
        split
        · exact h.setAccess
        · exact h)
    · split
      · exact h.setAccess
      · exact h
  · split
    · exact h.setAccess
    · exact h

protected theorem MemWf.pageLost {page} (h : MemWf s) : MemWf (s.pageLost page) := .nextPull h
protected theorem MemWf.lose {x} (h : MemWf s) : MemWf (s.lose x) := by
  unfold State.lose
  split
  · split
    · exact .ite h.failPiece h
    · exact h
  · exact h.walksFail
  · exact h.reply
  · exact h

protected theorem NextWf.execPullFail {page} (h : MemWf s) : NextWf (execPullFail page s) := by
  unfold execPullFail
  dsimp only
  split
  · exact .next h
  · exact .ite (.next h) (.next (.postEvent (.foldl (fun _ _ h1 => h1.lose) (.pageLost h))))

end Sys2Proof.Safety
end

section
/-! PROOFS. Sys2Proof/Machine/Caddy.lean: what its operations do keeps the canonical form of every memory (R89, R92; log 4). -/
namespace Sys2Proof.Safety
open Sys2Proof.Machine

variable {s t : State} {α : Type}

protected theorem MemWf.pageDone {vd} (h : MemWf s) : MemWf (s.pageDone vd) := .ite h.modVd.cpDone h.modVd
protected theorem MemWf.commitPage {vd} (h : MemWf s) : MemWf (s.commitPage vd) := .ite h.cpDone
  (.ite h.setOwner.pageDone h.reclaim)

protected theorem MemWf.propose {vd kind req go on} (hgo : ∀ t, MemWf t → MemWf (go t)) (hon : ∀ t, MemWf t → MemWf (on t))
  (h : MemWf s) : MemWf (s.propose vd kind req go on) :=
  .ite h (.ite (.ite h.tdiError h) (.ite (.ite (hon _ h) h) (by
    split
    · exact .ite (hgo _ h.modVd) h
    · exact .ite (hgo _ h.modVd.modVd) h)))

protected theorem NextWf.execProposePage {vd req} (h : MemWf s) : NextWf (execProposePage vd req s) :=
  .next (h.propose (fun _ h1 => .ite h1.cpDone h1.commitPage) fun _ h1 => .ite h1 h1.commitPage)

protected theorem MemWf.commitDomain {vd} (h : MemWf s) : MemWf (s.commitDomain vd) :=
  .ite h.cpDone (.ite h.cpDone (.ite h.cpDone (.ite h h.devWrite.setDstate.cpDone)))

protected theorem NextWf.execProposeDomain {vd req} (h : MemWf s) : NextWf (execProposeDomain vd req s) :=
  .next (h.propose (fun _ h1 => h1.commitDomain) fun _ h1 => h1.commitDomain)

protected theorem NextWf.execReclaimZeroFillDone {page} (h : MemWf s) : NextWf (execReclaimZeroFillDone page s) := by
  unfold execReclaimZeroFillDone
  split
  · exact .next h
  · exact .ite (.next h) (by
      split
      · exact .next (.ite (.pageDone (h.writePage :)) (.cpDone (h.writePage :)))
      · exact .next (h.writePage :))

protected theorem NextWf.execMigrationStart {vd page srcdev key own} (h : MemWf s) : NextWf
  (execMigrationStart vd page srcdev key own s) :=
  .ite (.next h) (.next h.reclaim)

protected theorem MemWf.answer {r} (h : MemWf s) : MemWf (s.answer r) := h.modModule
protected theorem MemWf.modSpdm {f} (h : MemWf s) : MemWf (s.modSpdm f) := h.modModule
protected theorem NextWf.spdmFrom {n f} (hf : ∀ t, MemWf t → MemWf (f t)) (h : MemWf s) : NextWf (spdmFrom n s f) :=
  .next (.ite h.answer (hf _ h))

protected theorem NextWf.inSession {f} (hf : ∀ t, MemWf t → MemWf (f t)) (h : MemWf s) : NextWf (inSession s f) :=
  .next (.ite (hf _ h) h.answer)

protected theorem NextWf.execGetVersion (h : MemWf s) : NextWf (execGetVersion s) := .next h.modSpdm.answer
protected theorem NextWf.execGetCapabilities (h : MemWf s) : NextWf (execGetCapabilities s) :=
  .spdmFrom (fun _ h1 => h1.modSpdm.answer) h

protected theorem NextWf.execNegotiateAlgorithms {asym hash dhe aead} (h : MemWf s) : NextWf
  (execNegotiateAlgorithms asym hash dhe aead s) :=
  .spdmFrom (fun _ h1 => .ite h1.modSpdm.answer h1.answer) h

protected theorem NextWf.execGetDigests (h : MemWf s) : NextWf (execGetDigests s) := .spdmFrom (fun _ h1 => h1.answer) h
protected theorem NextWf.execGetCertificate {slot off len} (h : MemWf s) : NextWf (execGetCertificate slot off len s) :=
  .spdmFrom (fun _ h1 => h1.answer) h

protected theorem NextWf.execSetCertificate {slot chain} (h : MemWf s) : NextWf (execSetCertificate slot chain s) :=
  .spdmFrom (fun _ h1 => .ite h1.answer (.ite h1.answer h1.modSpdm.answer)) h

protected theorem NextWf.execChallenge {slot nonce} (h : MemWf s) : NextWf (execChallenge slot nonce s) :=
  .spdmFrom (fun _ h1 => by
    split
    · exact h1.answer
    · exact h1.answer
    · exact h1.modSpdm) h

protected theorem NextWf.execChallengeResponseSent (h : MemWf s) : NextWf (execChallengeResponseSent s) := by
  unfold execChallengeResponseSent
  split
  · exact .next h
  · exact .next h.modSpdm.answer

protected theorem NextWf.execGetMeasurements {index} (h : MemWf s) : NextWf (execGetMeasurements index s) :=
  .spdmFrom (fun _ h1 => .ite h1.answer (.ite h1.answer h1.answer)) h

protected theorem NextWf.execKeyExchange {slot peer} (h : MemWf s) : NextWf (execKeyExchange slot peer s) :=
  .spdmFrom (fun _ h1 => by
    split
    · exact h1.answer
    · exact .ite h1.answer h1) h

protected theorem NextWf.execFinish {mac} (h : MemWf s) : NextWf (execFinish mac s) :=
  .next (by
    split
    · exact h.answer
    · exact .ite h.answer (.ite h.modSpdm.answer h.modSpdm.answer))

protected theorem NextWf.execEndSession (h : MemWf s) : NextWf (execEndSession s) := .inSession (fun _ h1 =>
  h1.modSpdm.answer) h

protected theorem NextWf.execKeySlotLoad {vd slot use q} (h : MemWf s) : NextWf (execKeySlotLoad vd slot use q s) :=
  .inSession (fun _ h1 => .ite h1.answer (.answer (.ite h1.setKey.modQueue h1.setKey))) h

protected theorem NextWf.execKeySlotErase {vd slot} (h : MemWf s) : NextWf (execKeySlotErase vd slot s) :=
  .inSession (fun _ h1 => .ite h1.answer (.answer (.ite h1 h1.setKey))) h

protected theorem NextWf.execIdeKm {fn} (h : MemWf s) : NextWf (execIdeKm fn s) :=
  .inSession (fun _ h1 => .ite h1.answer h1.modVd.answer) h

protected theorem NextWf.execIdeStreamFailure {fn} (h : MemWf s) : NextWf (execIdeStreamFailure fn s) :=
  .ite (.next h) (.next (.ite (.modVd (.ite h h.tdiError)) (.ite h h.tdiError)))

protected theorem NextWf.execLockInterfaceRequest {fn} (h : MemWf s) : NextWf (execLockInterfaceRequest fn s) :=
  .inSession (fun _ h1 => .ite h1.answer (.ite h1 h1)) h

protected theorem NextWf.execStartInterfaceRequest {fn nonce} (h : MemWf s) : NextWf (execStartInterfaceRequest fn nonce s) :=
  .inSession (fun _ h1 => .ite h1.answer h1.modVd.answer) h

protected theorem NextWf.execStopInterfaceRequest {fn} (h : MemWf s) : NextWf (execStopInterfaceRequest fn s) :=
  .inSession (fun _ h1 => .ite h1.answer (by
    split
    next hr =>
      exact h1.listsWait hr
    · exact .ite h1.killQueues.reclaimAll (.answer (.modVd (.foldl (fun _ _ h2 =>
        .ite h2.setDstate h2) h1.killQueues.reclaimAll.eraseKeys))))) h

protected theorem NextWf.execGetDeviceInterfaceReport {fn} (h : MemWf s) : NextWf (execGetDeviceInterfaceReport fn s) :=
  .inSession (fun _ h1 => .ite h1.answer h1.answer) h

protected theorem NextWf.execGetDeviceInterfaceState {fn} (h : MemWf s) : NextWf (execGetDeviceInterfaceState fn s) :=
  .inSession (fun _ h1 => .ite h1.answer h1.answer) h

protected theorem NextWf.execDebugTokenSubmit (h : MemWf s) : NextWf (execDebugTokenSubmit s) :=
  .ite (.next h) (.ite (.next h.modModule) (.ite (.next h.modModule) (.next h)))

protected theorem MemWf.modFw {k f} (h : MemWf s) : MemWf (s.modFw k f) := h.modModule
protected theorem MemWf.fwStat {n} (h : MemWf s) : MemWf (s.fwStat n) := h.modModule
protected theorem NextWf.execFwStage (h : MemWf s) : NextWf (execFwStage s) := by
  unfold execFwStage
  extract_lets m n img
  refine .ite (.next h) ?_
  cases img with
  | none => exact .next h.modModule.fwStat
  | some b => exact .ite (.next h.modModule.modFw.fwStat) (.next h.modModule.fwStat)

protected theorem NextWf.execFwActivate (h : MemWf s) : NextWf (execFwActivate s) :=
  .ite (.next h) (.ite (.next h.modModule.fwStat) (.next h.modModule.modFw.fwStat))

protected theorem MemWf.setLink {n l} (h : MemWf s) : MemWf (s.setLink n l) := h.modModule
protected theorem MemWf.retrain {p} (h : MemWf s) : MemWf (s.retrain p) := .foldl (fun _ _ h1 => .ite h1.setLink h1) h
protected theorem NextWf.execFwSwitch {sub selfTest} (h : MemWf s) : NextWf (execFwSwitch sub selfTest s) := by
  unfold execFwSwitch
  dsimp only
  split
  · exact .next h
  · exact .ite (.next h) (.ite (.next h.retrain.modFw) (.ite (.next h.modFw.fwStat) (.next h.modFw.fwStat)))

end Sys2Proof.Safety
end

section
/-! PROOFS. Sys2Proof/Machine/Escape.lean: what its operations do keeps the canonical form of every memory (R89, R92; log 4). -/
namespace Sys2Proof.Safety
open Sys2Proof.Machine

variable {s t : State} {α : Type}

protected theorem KeepsMem.myStream {v} : KeepsMem (myStream v) :=
  .bind .me fun _ => .bind .look fun _ => .bind .need fun _ => .pure

protected theorem KeepsMem.synced {b v} : KeepsMem (synced b v) := .ite .pure .raise
protected theorem NextWf.execEsubOpen {h0 pst d a} (h : MemWf s) : NextWf (execEsubOpen h0 pst d a s) :=
  .issue (.bind .readN64 fun _ => .bind .me fun _ => .bind .look fun _ => .bind .need fun _ => .bind .myLaunch fun _ => by
    split
    · exact .raise
    · exact .bind .look fun _ => .bind .need fun _ => .bind .look fun _ => by
        split
        · exact .writeP
        · exact .bind .look fun _ => by
            split
            · exact .raise
            · exact .bind .synced fun _ => .bind (.change fun _ h1 => h1.setSlot.setStream) fun _ =>
                .bind .writeScal fun _ => .writeP) h

protected theorem NextWf.execEsub {h0 a b} (h : MemWf s) : NextWf (execEsub h0 a b s) :=
  .issue (.bind .readN64 fun _ => .bind .readPair fun _ => .bind .myStream fun _ => by
    dsimp only
    split
    · exact .raise
    · exact .bind .synced fun _ => .bind .look fun _ => .bind .waitFor fun _ => .bind .release fun _ => .change fun _ h1 =>
        h1.setStream) h

protected theorem KeepsMem.closeCut {a} : KeepsMem (closeCut a) :=
  .bind .readN64 fun _ => .bind .myStream fun _ => .bind .synced fun _ => .bind (.change fun _ h1 => h1.setStream) fun _ =>
    .pure

protected theorem NextWf.execEcloseCut {h0 a} (h : MemWf s) : NextWf (execEcloseCut h0 a s) :=
  .issue (.bind .closeCut fun _ => .pure) h

protected theorem NextWf.execEcloseEnd {h0 a} (h : MemWf s) : NextWf (execEcloseEnd h0 a s) :=
  .issue (.bind .closeCut fun _ => .change fun _ h1 => .ite (by
    split
    · exact .ite h1.setStream.setStream.dropParty.complete h1.setStream.setStream
    · exact h1.setStream.setStream) h1.setStream) h

protected theorem KeepsMem.batchStream {a} : KeepsMem (batchStream a) :=
  .bind .readN64 fun _ => .bind .myStream fun _ => .bind .synced fun _ => .bind .synced fun _ => .pure

protected theorem NextWf.execEnext {h0 d a b} (h : MemWf s) : NextWf (execEnext h0 d a b s) :=
  .issue (.bind .need fun _ => .bind .readN64 fun _ => .bind .batchStream fun _ => by
    dsimp only
    split
    · exact .raise
    · exact .writeScals) h

protected theorem NextWf.execEnextDone {h0 a b} (h : MemWf s) : NextWf (execEnextDone h0 a b s) :=
  .issue (.bind .readN64 fun _ => .bind .batchStream fun _ => .bind .synced fun _ => .bind .release fun _ =>
    .change fun _ h1 => .ite h1.setStream.arrive.complete h1.setStream) h

protected theorem NextWf.execEstat {h0 d a} (h : MemWf s) : NextWf (execEstat h0 d a s) :=
  .issue (.bind .readN64 fun _ => .bind .myStream fun _ => .writeScal) h

protected theorem NextWf.execEscapementBatchRelease {die} (h : MemWf s) : NextWf (execEscapementBatchRelease die s) := by
  unfold execEscapementBatchRelease
  dsimp only
  split
  · exact .next h
  · exact .ite (.next h) (.next h.modCore.setStream.modModule)

end Sys2Proof.Safety
end

section
/-! PROOFS. Sys2Proof/Machine/Float.lean: what its operations do keeps the canonical form of every memory (R89, R92; log 4). -/
namespace Sys2Proof.Safety
open Sys2Proof.Machine

variable {s t : State} {α : Type}

protected theorem KeepsMem.readF2 {f a b} : KeepsMem (readF2 f a b) :=
  .bind .need fun _ => .bind .readF fun _ => .bind .readF fun _ => .bind .me fun _ => .pure

protected theorem NextWf.float2 {h0 m d a b f} (h : MemWf s) : NextWf (float2 h0 m d a b f s) :=
  .issue (.bind .readF2 fun _ => .writeRound) h

protected theorem NextWf.execFadd {h0 m d a b} (h : MemWf s) : NextWf (execFadd h0 m d a b s) := .float2 h
protected theorem NextWf.execFmul {h0 m d a b} (h : MemWf s) : NextWf (execFmul h0 m d a b s) := .float2 h
protected theorem NextWf.execFfma {h0 m d a b} (h : MemWf s) : NextWf (execFfma h0 m d a b s) :=
  .issue (.bind .readF2 fun _ => .bind .readD fun _ => .bind .me fun _ => .writeRound) h

protected theorem NextWf.execFmin {h0 f d a b} (h : MemWf s) : NextWf (execFmin h0 f d a b s) := .float2 h
protected theorem NextWf.execFmax {h0 f d a b} (h : MemWf s) : NextWf (execFmax h0 f d a b s) := .float2 h
protected theorem NextWf.execFcmp {h0 f cc d a b} (h : MemWf s) : NextWf (execFcmp h0 f cc d a b s) :=
  .issue (.bind .readF2 fun _ => .bind .flag fun _ => .writeP) h

protected theorem NextWf.execCvt {h0 dty sty rnd satc d a} (h : MemWf s) : NextWf (execCvt h0 dty sty rnd satc d a s) :=
  .issue (by
    split
    · exact .bind .readInt fun _ => by
        split
        · exact .writeInt
        · exact .bind .me fun _ => .bind .flag fun _ => .writeScal
    · exact .bind .readF fun _ => .bind .me fun _ => .bind .flag fun _ => .writeScal) h

protected theorem NextWf.execCmp {h0 ty cc d a b} (h : MemWf s) : NextWf (execCmp h0 ty cc d a b s) :=
  .issue (.bind .readInt fun _ => .bind .readInt fun _ => .writeP) h

protected theorem NextWf.execPset {h0 pa pb lut d} (h : MemWf s) : NextWf (execPset h0 pa pb lut d s) :=
  .issue (.bind .me fun _ => .writeP) h

end Sys2Proof.Safety
end

section
/-! PROOFS. Sys2Proof/Machine/Power.lean: what its operations do keeps the canonical form of every memory (R89, R92; log 4). -/
namespace Sys2Proof.Safety
open Sys2Proof.Machine

variable {s t : State} {α : Type}

protected theorem NextWf.execFlitTagFail {link retrained} (h : MemWf s) : NextWf (execFlitTagFail link retrained s) :=
  .next (.ite h (.ite (.postEvent (.setLink h)) h.setLink))

protected theorem NextWf.execLinkRekey {link} (h : MemWf s) : NextWf (execLinkRekey link s) := .next (.ite h h.setLink)
protected theorem MemWf.replaceCore {n} (h : MemWf s) : MemWf (s.replaceCore n) := by
  unfold State.replaceCore
  dsimp only
  split
  · exact h.modCore.setLpt.postEvent
  · exact h.emptyCores.modCore.setLptRoute.postEvent

protected theorem NextWf.execCoreRetire {n} (h : MemWf s) : NextWf (execCoreRetire n s) :=
  .next (.ite h (.ite h.modCore.preempt h.replaceCore))

protected theorem NextWf.execPtpSync {offset elapsed} (h : MemWf s) : NextWf (execPtpSync offset elapsed s) :=
  .next h.noteMet.modModule

protected theorem NextWf.execThermalStep {temp} (h : MemWf s) : NextWf (execThermalStep temp s) := .next h.modModule
protected theorem NextWf.execThermalTrip {temp} (h : MemWf s) : NextWf (execThermalTrip temp s) := .next (.ite h.modModule h)
protected theorem NextWf.execCoolantFlowLow {flow} (h : MemWf s) : NextWf (execCoolantFlowLow flow s) := .next
  (.ite h.modModule h)

protected theorem NextWf.execCoolantFlowRestored {flow} (h : MemWf s) : NextWf (execCoolantFlowRestored flow s) :=
  .next (.ite h.modModule h)

protected theorem NextWf.execPowerLimitStep {p} (h : MemWf s) : NextWf (execPowerLimitStep p s) := .next h.modModule
protected theorem NextWf.execDieReset {die reason} (h : MemWf s) : NextWf (execDieReset die reason s) :=
  .next (.ite h (.postEvent (.foldl (fun _ _ h1 => .ite h1.teardown h1) h.retrain)))

protected theorem NextWf.execModuleColdReset (h : MemWf s) : NextWf (execModuleColdReset s) :=
  .next ⟨rfl, rfl, rfl, h.host, h.fabric⟩

end Sys2Proof.Safety
end

section
/-! PROOFS. Sys2Proof/Machine/Dispatch.lean: what its operations do keeps the canonical form of every memory (R89, R92; log 4). -/
namespace Sys2Proof.Safety
open Sys2Proof.Machine

variable {s t : State} {α : Type}

protected theorem NextWf.exec {i} (h : MemWf s) : NextWf (exec i s) := by
  unfold exec
  split
  · exact .execNop h
  · exact .execBra h
  · exact .execBrx h
  · exact .execCall h
  · exact .execRet h
  · exact .execLoop h
  · exact .execRep h
  · exact .execExit h
  · exact .execWaitf h
  · exact .execMov h
  · exact .execLdil h
  · exact .execLdih h
  · exact .execAdd h
  · exact .execSub h
  · exact .execMul h
  · exact .execMulh h
  · exact .execMad h
  · exact .execDiv h
  · exact .execRem h
  · exact .execNeg h
  · exact .execAbs h
  · exact .execMin h
  · exact .execMax h
  · exact .execAnd h
  · exact .execOr h
  · exact .execXor h
  · exact .execAndn h
  · exact .execShl h
  · exact .execShr h
  · exact .execSar h
  · exact .execRol h
  · exact .execBext h
  · exact .execBins h
  · exact .execClz h
  · exact .execCtz h
  · exact .execPopc h
  · exact .execSel h
  · exact .execGaddr h
  · exact .execFadd h
  · exact .execFmul h
  · exact .execFfma h
  · exact .execFmin h
  · exact .execFmax h
  · exact .execFcmp h
  · exact .execCvt h
  · exact .execCmp h
  · exact .execPset h
  · exact .execTview h
  · exact .execTvalid h
  · exact .execTget h
  · exact .execTldr h
  · exact .execTmov h
  · exact .execTcopy h
  · exact .execTfill h
  · exact .execTiota h
  · exact .execTbcast h
  · exact .execTtrans h
  · exact .execTgather h
  · exact .execTadd h
  · exact .execTsub h
  · exact .execTmul h
  · exact .execTfma h
  · exact .execTdiv h
  · exact .execTmin h
  · exact .execTmax h
  · exact .execTabs h
  · exact .execTneg h
  · exact .execTand h
  · exact .execTor h
  · exact .execTxor h
  · exact .execTshl h
  · exact .execTshr h
  · exact .execTcmp h
  · exact .execTsel h
  · exact .execTcmul h
  · exact .execTcfma h
  · exact .execTred h
  · exact .execTexp2 h
  · exact .execTlog2 h
  · exact .execTrcp h
  · exact .execTrsq h
  · exact .execTsqrt h
  · exact .execTsin h
  · exact .execTcos h
  · exact .execTconv h
  · exact .execTscale h
  · exact .execTsplit h
  · exact .execMma h
  · exact .execMmac h
  · exact .execMzero h
  · exact .execMload h
  · exact .execMdrain h
  · exact .execMdrainc h
  · exact .execMgang h
  · exact .execCpyLd h
  · exact .execCpySt h
  · exact .execCpyg h
  · exact .execCpys h
  · exact .execCpyadd h
  · exact .execCpyx h
  · exact .execTlwait h
  · exact .execTlget h
  · exact .execTladv h
  · exact .execLd h
  · exact .execLdTile h
  · exact .execSt h
  · exact .execStTile h
  · exact .execLda h
  · exact .execStl h
  · exact .execPref h
  · exact .execAadd h
  · exact .execAmin h
  · exact .execAmax h
  · exact .execAand h
  · exact .execAor h
  · exact .execAxor h
  · exact .execAxchg h
  · exact .execAcas h
  · exact .execAincw h
  · exact .execAfadd h
  · exact .execFence h
  · exact .execCodefLoc h
  · exact .execCodefDev h
  · exact .execSynew h
  · exact .execSyfree h
  · exact .execPhreg h
  · exact .execPhdrop h
  · exact .execPhsig h
  · exact .execPhwait h
  · exact .execPhnext h
  · exact .execTqacq h
  · exact .execTqpost h
  · exact .execTqtake h
  · exact .execTqrel h
  · exact .execSstep h
  · exact .execJoin h
  · exact .execLeave h
  · exact .execFork h
  · exact .execRfork h
  · exact .execTask h
  · exact .execTaskEv h
  · exact .execTdone h
  · exact .execEfork h
  · exact .execRdv h
  · exact .execLaunch h
  · exact .execSend h
  · exact .execRecv h
  · exact .execGpost h
  · exact .execGretract h
  · exact .execGwin h
  · exact .execGcall h
  · exact .execGret h
  · exact .execGinfo h
  · exact .execGclean h
  · exact .execDrevoke h
  · exact .execDrevokeKill h
  · exact .execEsubOpen h
  · exact .execEsub h
  · exact .execEcloseCut h
  · exact .execEcloseEnd h
  · exact .execEnext h
  · exact .execEnextDone h
  · exact .execEstat h
  · exact .execSysr h
  · exact .execSysw h
  · exact .execTrap h
  · exact .execEret h
  · exact .execWait h
  · exact .execTlbinv h
  · exact .execHinst h
  · exact .execChkp h
  · exact .execChkx h
  · exact .execFollow h
  · exact .execUnfollow h
  · exact .execCapr h
  · exact .execSigcorePre h
  · exact .execSigcoreSpawn h
  · exact .execSigcoreRes h
  · exact .execAccessReply h
  · exact .execHomeFailureReport h
  · exact .execRemoteAccess h
  · exact .execDeviceHomeAccess h
  · exact .execTranslationWalk h
  · exact .execDirtyLogAtomic h
  · exact .execTlbinvComplete h
  · exact .execCopyOpRetire h
  · exact .execMatrixOpRetire h
  · exact .execEngineFault h
  · exact .execMessageArrival h
  · exact .execMessageRetry h
  · exact .execSuperstepRelease h
  · exact .execIdleSeatSearch h
  · exact .execReturnSlotEntry h
  · exact .execIssueHoldExpiry h
  · exact .execWaitTimeout h
  · exact .execChkpTimeout h
  · exact .execChkxTimeout h
  · exact .execQuotaExpiry h
  · exact .execThreadSave h
  · exact .execSavefaultTimeout h
  · exact .execCoreImageSave h
  · exact .execTurnStart h
  · exact .execHandlerTimeout h
  · exact .execUnwindTake h
  · exact .execUnwindPop h
  · exact .execCleanupOverrun h
  · exact .execDomainFreed h
  · exact .execEscapementBatchRelease h
  · exact .execRegulatorFire h
  · exact .execDoorbell h
  · exact .execQcmdEnd h
  · exact .execQcmdLaunch h
  · exact .execQcmdCopy h
  · exact .execQcmdSignal h
  · exact .execQcmdWait h
  · exact .execCopyCommandComplete h
  · exact .execDispatchVisit h
  · exact .execStartMessage h
  · exact .execLaunchComplete h
  · exact .execQueueEnable h
  · exact .execQueueKill h
  · exact .execLoadGo h
  · exact .execLoadComplete h
  · exact .execQuotaWrite h
  · exact .execQuotaTeardown h
  · exact .execDlgetWrite h
  · exact .execRegisterWrite h
  · exact .execHostMemAccess h
  · exact .execBackInvalidateResponse h
  · exact .execFabricRequest h
  · exact .execPullDataArrival h
  · exact .execPullFail h
  · exact .execProposePage h
  · exact .execProposeDomain h
  · exact .execReclaimZeroFillDone h
  · exact .execGetVersion h
  · exact .execGetCapabilities h
  · exact .execNegotiateAlgorithms h
  · exact .execGetDigests h
  · exact .execGetCertificate h
  · exact .execSetCertificate h
  · exact .execChallenge h
  · exact .execGetMeasurements h
  · exact .execKeyExchange h
  · exact .execFinish h
  · exact .execEndSession h
  · exact .execKeySlotLoad h
  · exact .execKeySlotErase h
  · exact .execIdeKm h
  · exact .execIdeStreamFailure h
  · exact .execLockInterfaceRequest h
  · exact .execStartInterfaceRequest h
  · exact .execStopInterfaceRequest h
  · exact .execGetDeviceInterfaceReport h
  · exact .execGetDeviceInterfaceState h
  · exact .execDebugTokenSubmit h
  · exact .execFwStage h
  · exact .execFwActivate h
  · exact .execFwSwitch h
  · exact .execFlitTagFail h
  · exact .execLinkRekey h
  · exact .execCoreRetire h
  · exact .execPtpSync h
  · exact .execThermalStep h
  · exact .execThermalTrip h
  · exact .execCoolantFlowLow h
  · exact .execPowerLimitStep h
  · exact .execDieReset h
  · exact .execModuleColdReset h
  · exact .execMigrationStart h
  · exact .execChallengeResponseSent h
  · exact .execStoreAcknowledgement h
  · exact .execRemoteSyncArrival h
  · exact .execCoolantFlowRestored h

end Sys2Proof.Safety
end

section
/-! PROOFS. Sys2Proof/Machine/Run.lean: what its operations do keeps the canonical form of every memory (R89, R92; log 4). -/
namespace Sys2Proof.Safety
open Sys2Proof.Machine

variable {s t : State} {α : Type}

protected theorem MemWf.afterIssue {a old i pre} (h : MemWf s) : MemWf (s.afterIssue a old i pre) :=
  .ite (.ite h.modStrand (.foldl (fun _ _ h1 => h1.prefetch) h.modStrand)) h

protected theorem MemWf.modGang {n f} (h : MemWf s) : MemWf (s.modGang n f) := h.modCore
protected theorem NextWf.memberExec {i} (h : MemWf s) : NextWf (memberExec i s) := by
  unfold memberExec
  split
  · exact .issue .pure h
  · exact .issue .pure h
  · exact .issue .pure h
  · exact .issue .pure h
  · exact .issue (.bind .nextIdx fun _ => .writeScal) h
  · exact .issue (.bind .readD fun _ => .ite .pure .writeScal) h
  · exact .exec h

protected theorem NextWf.forwardTo {i pc rep ms} (h : MemWf s) : NextWf (forwardTo i pc rep ms s) := by
  induction ms generalizing s with
  | nil => exact .next h
  | cons m ms ih =>
    obtain ⟨n, g⟩ := m
    unfold forwardTo
    extract_lets -underBinder a e s1
    have he : MemWf e := h.modStrand
    have h1 : MemWf s1 := he
    refine .ite (.next h1) ?_
    split
    next s2 hr =>
      have h2 : MemWf s2 := NextWf.memberExec h1 _ hr
      refine .ite (ih (MemWf.modGang ?_)) (.next h2)
      exact .ite h2 h2.modSeat
    next ho => exact fun t e => (ho t e).elim

protected theorem MemWf.syncGang {l k} (h : MemWf s) : MemWf (s.syncGang l k) :=
  .foldl (fun _ _ h1 => .ite h1.modGang h1.modGang.modStrand) h

protected theorem NextWf.forward {l k} (h : MemWf s) : NextWf (s.forward l k) := by
  unfold State.forward
  split
  · exact .next h
  split
  · exact .next h
  split
  next s2 hr =>
    have h2 : MemWf s2 := NextWf.forwardTo h _ hr
    exact .ite (.next h2.syncGang) (.next h2)
  next ho => exact fun t e => (ho t e).elim

protected theorem NextWf.issueAt {a pre} (h : MemWf s) : NextWf (s.issueAt a pre) := by
  unfold State.issueAt
  extract_lets -underBinder s0 x lead fwd
  have h0 : MemWf s0 := h
  refine .ite (.next h0) ?_
  split
  · exact .next (MemWf.takeTrap (h0.modSeat :))
  clear_value fwd
  cases fwd with
  | some f => exact .forward h0
  | none =>
    dsimp only
    split
    · exact .next h0.takeTrap
    split
    next s1 hr =>
      have h1 : MemWf s1 := NextWf.exec h0 _ hr
      exact .ite (.forward h1.afterIssue.modGang) (.next h1.afterIssue)
    next ho => exact fun t e => (ho t e).elim

protected theorem MemWf.unmet {c k pre} (h : MemWf s) (hr : s.unmet c k pre = some t) : MemWf t := by
  unfold State.unmet at hr
  split at hr
  next t' ht =>
    obtain ⟨-, hr⟩ | ⟨-, hr⟩ := ite_eq_iff.mp hr
    · cases hr
    · cases hr
      exact NextWf.issueAt h _ ht
  next => cases hr

protected theorem MemWf.readySeats {c pre} (h : MemWf s) : MemWf (s.readySeats c pre).1 := by
  refine .foldl_fst (fun q k hq => ?_) h
  obtain ⟨s, l⟩ := q
  dsimp only
  split
  · split
    next hr => exact MemWf.unmet hq hr
    next => exact hq
  · exact hq

protected theorem NextWf.portAt {c pre} (h : MemWf s) : NextWf (s.portAt c pre) := by
  unfold State.portAt
  have h0 := h.readySeats (c := c) (pre := pre)
  generalize s.readySeats c pre = p at h0 ⊢
  obtain ⟨s0, ready⟩ := p
  dsimp -zeta only
  extract_lets -underBinder k s1
  have h1 : MemWf s1 := h0.modCore
  clear_value k
  cases k with
  | none => exact .next h1
  | some k =>
    dsimp only
    split
    next t ht => exact .next (.foldl (fun _ _ h => h.modCore) (NextWf.issueAt h1 _ ht))
    next ho => exact fun t e => (ho t e).elim

protected theorem MemWf.elapse {ns cycles} (h : MemWf s) : MemWf (s.elapse ns cycles) := by
  unfold State.elapse
  extract_lets -underBinder s' s0 s1 s2
  have h' : MemWf s' := .foldl (fun _ _ ht => .ite ht ht.flushEvents) h
  have h1 : MemWf s1 := h'.noteMet.modModule
  have h2 : MemWf s2 := .foldl (fun _ _ ht => .ite ht ht.modVd) h1
  exact .ite h2 h2.modCores

protected theorem MemWf.flaw {m n hard} (h : MemWf s) : MemWf (s.flaw m n hard) := by
  unfold State.flaw
  extract_lets -underBinder owner tear core
  have htear : ∀ t vd, MemWf t → MemWf (tear t vd) := fun _ _ ht => .ite ht.teardown ht
  have hcore : ∀ c known t, MemWf t → MemWf (core c known t) := fun _ _ _ ht => .ite h (.ite ht h.modCore)
  have hmark : MemWf ((s.tablesOn n).foldl tear { s with dpoison := mapPut n () s.dpoison }) :=
    .foldl (fun t _ ht => htear t _ ht) h.setDpoison
  cases m with
  | bank => exact hcore _ _ _ h
  | acc => exact hcore _ _ _ h
  | deque => exact .ite h (htear _ _ h)
  | sync => exact .ite h (htear _ _ h)
  | table => exact htear _ _ h
  | cache => exact .ite h (.ite hmark h.modModule)
  | dram => exact .ite h (.ite hmark h.modModule)

protected theorem MemWf.flits {l tx n} (h : MemWf s) : MemWf (s.flits l tx n) := .ite h h.modModule
protected theorem MemWf.wake (h : MemWf s) : MemWf s.wake := .ite h.modCores h
protected theorem NextWf.act {m} (h : MemWf s) : NextWf (act m s) := by
  cases m with
  | strand c k st pre => exact .ite (.next h) (.issueAt h)
  | port c pre => exact .portAt h
  | reach l => exact .next h
  | flaw m n hard => exact .next h.flaw
  | pass ns cycles => exact .next h.elapse
  | flits l tx n => exact .next h.flits
  | event i => exact .ite (.exec h) (.next h)

protected theorem NextWf.runMove {m} (h : MemWf s) : NextWf (runMove m s) := by
  unfold runMove
  split
  next t ht => exact .next (NextWf.act h _ ht).setPulls.wake
  next ho => exact fun t e => (ho t e).elim

protected theorem MemWf.popMove (h : MemWf s) : MemWf s.popMove.2 := by
  unfold State.popMove
  split
  · exact h
  · exact h

end Sys2Proof.Safety
end

section
/-! PROOFS. Sys2Proof/Machine/Step.lean: what its operations do keeps the canonical form of every memory (R89, R92; log 4). -/
namespace Sys2Proof.Safety
open Sys2Proof.Machine

variable {s t : State} {α : Type}

protected theorem NextWf.step (h : MemWf s) : NextWf (step s) := .ite .fault (.runMove h.popMove)

end Sys2Proof.Safety
end

section
/-! PROOFS. Every step keeps the canonical form of every memory. -/
namespace Sys2Proof.Safety

/-- Settles O59: a step makes a move (`NextWf.runMove`), whose operations keep the form one by one. -/
theorem stepKeepsMemoryForm : Obligations.StepKeepsMemoryForm := by
  unfold Obligations.StepKeepsMemoryForm
  intro s s' h hstep
  exact NextWf.step h s' hstep

end Sys2Proof.Safety
end

section
/-! PROOFS. Requests from outside the module, and the end of a post-copy pull (R110, R111, R397 to R399). -/
namespace Sys2Proof.Machine

variable {s s1 s2 s3 : State} {vd dom dpa p m l n : Nat} {b : List Byte} {va v : BitVec 64} {acc : OutAcc} {tr : Trap}

/-! ### Host requests -/

/-- A request to a page that the host may not see changes nothing (R110). -/
theorem State.hostReq_unseen {r : OutReq} (h : ∀ p, s.modPage r.vdev r.dpa = some p →
      (s.owner p).hostvis = false ∨ (s.owner p).vdev ≠ r.vdev ∨ (s.owner p).state ≠ 1) : s.hostReq r = s := by
  unfold State.hostReq
  refine if_pos (.inr (.inr (.inr ?_)))
  cases hpage : s.modPage r.vdev r.dpa with
  | none => rfl
  | some p => rcases h p hpage with hvis | hvd | hstate <;> simp [*]

section
variable {r : OutReq} (hport : s.portOpen r.vdev = true) (hlen : 1 ≤ outLen r.acc) (hline : r.dpa % 64 + outLen r.acc ≤ 64)
  (hpage : s.modPage r.vdev r.dpa = some p) (hstate : (s.owner p).state = 1) (hvd : (s.owner p).vdev = r.vdev)
  (hvis : (s.owner p).hostvis = true) (hh : s.dpaHome r.vdev r.dpa = some (m, l))
include hport hlen hline hpage hstate hvd hvis hh

/-- A request to one line of a page that the host may see: it waits while the page is being pulled, a read marks the line as
one that the host may cache, and poison answers where an error meets it (R108, R110, R398, log 80). -/
theorem State.hostReq_seen : s.hostReq r = if (s.owner p).pull then s.startPull p 0 (.req r)
    else match r.acc with
      | .read n => State.reply { s with snoops := mapPut ((m * sliceBytes + l) / 64) () s.snoops }
          (if s.homeBad (.slice m) l n then .poison else .data (s.homeRead (.slice m) l n))
      | .write b => if s.homePartBad (.slice m) l b.length then s.reply .poison else (s.homeWrite (.slice m) l b).reply .done
      | .atomic .. => s := by
  have h0 : outLen r.acc ≠ 0 := by omega
  have h64 : ¬ 64 < r.dpa % 64 + outLen r.acc := by omega
  unfold State.hostReq
  rw [hpage, hh]
  exact if_neg (by simp [hport, h0, h64, hstate, hvd, hvis])
end

section
variable (hport : s.portOpen vd = true) (hlen : 1 ≤ outLen acc) (hline : dpa % 64 + outLen acc ≤ 64)
  (hpage : s.modPage vd dpa = some p) (hstate : (s.owner p).state = 1) (hvd : (s.owner p).vdev = vd)
  (hvis : (s.owner p).hostvis = true) (hh : s.dpaHome vd dpa = some (m, l))
include hport hlen hline hpage hstate hvd hvis hh

theorem exec_hostMemAccess_pulled (hpull : (s.owner p).pull = true) : exec (.hostMemAccess vd dpa acc) s =
    .next (State.startPull { s with resps := [] } p 0 (.req { vdev := vd, dpa := dpa, acc := acc })) :=
  congrArg Host.Outcome.next ((State.hostReq_seen (s := { s with resps := [] }) (r := { vdev := vd, dpa := dpa, acc := acc })
    hport hlen hline hpage hstate hvd hvis hh).trans (if_pos hpull))

theorem exec_hostMemAccess_read (hpull : (s.owner p).pull = false) (ha : acc = .read n) :
    exec (.hostMemAccess vd dpa acc) s = .next { s with
      snoops := mapPut ((m * sliceBytes + l) / 64) () s.snoops
      resps := [if s.homeBad (.slice m) l n then .poison else .data (s.homeRead (.slice m) l n)] } := by
  subst ha
  exact congrArg Host.Outcome.next ((State.hostReq_seen (s := { s with resps := [] }) (r := { vdev := vd, dpa := dpa, acc := _ })
    hport hlen hline hpage hstate hvd hvis hh).trans (if_neg (ne_true_of_eq_false hpull)))

theorem exec_hostMemAccess_write (hpull : (s.owner p).pull = false) (ha : acc = .write b) :
    exec (.hostMemAccess vd dpa acc) s = .next (let s0 := { s with resps := [] }
      if s.homePartBad (.slice m) l b.length then s0.reply .poison else (s0.homeWrite (.slice m) l b).reply .done) := by
  subst ha
  exact congrArg Host.Outcome.next ((State.hostReq_seen (s := { s with resps := [] }) (r := { vdev := vd, dpa := dpa, acc := _ })
    hport hlen hline hpage hstate hvd hvis hh).trans (if_neg (ne_true_of_eq_false hpull)))
end

/-! ### Fabric requests -/

theorem wOf_pos_of_atomTy {ty : ITy} (h : atomTy ty = true) : wOf ty / 8 ≠ 0 := by
  cases ty <;> simp_all [atomTy, wOf]

section
variable {w : Who} (hw : w = { vdev := vd, dom := dom, win := none })
include hw

theorem exec_fabricRequest_read (hn : 1 ≤ n) (hr : regionSpan va.toNat n = some .device) :
    (unitRead none w va.toNat n { s with resps := [] } = .ok b s1 →
      exec (.fabricRequest vd dom va (.read n)) s = .next (s1.reply (.data b))) ∧
    (unitRead none w va.toNat n { s with resps := [] } = .error (.trap tr) s1 →
      exec (.fabricRequest vd dom va (.read n)) s = .next (State.reply { s with resps := [] } (.fault tr))) ∧
    (unitRead none w va.toNat n { s with resps := [] } = .error (.trapAt tr) s1 →
      exec (.fabricRequest vd dom va (.read n)) s = .next (s1.reply (.fault tr))) := by
  subst hw
  have h0 : n ≠ 0 := by omega
  refine ⟨fun h => ?_, fun h => ?_, fun h => ?_⟩
  · simp [exec, execFabricRequest, outLen, h0, hr, M.bind_ok h]
  · simp [exec, execFabricRequest, outLen, h0, hr, M.bind_error h]
  · simp [exec, execFabricRequest, outLen, h0, hr, M.bind_error h]

theorem exec_fabricRequest_write (hb : 1 ≤ b.length) (hr : regionSpan va.toNat b.length = some .device) :
    (unitWrite none w va.toNat b { s with resps := [] } = .ok () s1 →
      exec (.fabricRequest vd dom va (.write b)) s = .next (s1.reply .done)) ∧
    (unitWrite none w va.toNat b { s with resps := [] } = .error (.trap tr) s1 →
      exec (.fabricRequest vd dom va (.write b)) s = .next (State.reply { s with resps := [] } (.fault tr))) := by
  subst hw
  have h0 : b ≠ [] := List.ne_nil_of_length_pos hb
  refine ⟨fun h => ?_, fun h => ?_⟩
  · simp [exec, execFabricRequest, outLen, h0, hr, M.bind_ok h]
  · simp [exec, execFabricRequest, outLen, h0, hr, M.bind_error h]

theorem exec_fabricRequest_atomic {op : AtomOp} {ty : ITy} {q : List (Home × Nat × Nat)} (hty : atomTy ty = true)
    (hal : va.toNat % (wOf ty / 8) = 0) (hr : regionSpan va.toNat (wOf ty / 8) = some .device)
    (hp : unitPlaces none w va.toNat (wOf ty / 8) .rw true { s with resps := [] } = .ok q s1)
    (hread : unitRead none w va.toNat (wOf ty / 8) s1 = .ok b s2)
    (hwrite : unitWrite none w va.toNat (leBytes (atomNew op ty (leNat b) (v.toNat % 2 ^ wOf ty)) (wOf ty / 8)) s2 = .ok () s3) :
    exec (.fabricRequest vd dom va (.atomic op ty v)) s = .next (s3.reply (.data b)) := by
  subst hw
  have h0 := wOf_pos_of_atomTy hty
  simp only [exec, execFabricRequest, outLen]
  refine (if_neg (by simp [hr, hal, hty, h0])).trans ?_
  rw [M.bind_ok hp, M.bind_ok hread, M.bind_ok hwrite]
  rfl
end

/-! ### The end of a pull -/

@[simp] theorem State.nextPull_dpoison {die : Nat} : (s.nextPull die).dpoison = s.dpoison := by
  unfold State.nextPull
  split <;> rfl

@[simp] theorem State.nextPull_dram {die : Nat} : (s.nextPull die).dram = s.dram := by
  unfold State.nextPull
  split <;> rfl

@[simp] theorem State.nextPull_owners {die : Nat} : (s.nextPull die).owners = s.owners := by
  unfold State.nextPull
  split <;> rfl

/-- Each key of a list is found once all have been put. -/
theorem mapFind_foldl_mapPut_isSome {ks : List Nat} {mp : List (Nat × Unit)} {k : Nat}
    (h : k ∈ ks ∨ (mapFind k mp).isSome = true) : (mapFind k (ks.foldl (fun m l => mapPut l () m) mp)).isSome = true := by
  induction ks generalizing mp with
  | nil => simpa using h
  | cons j ks ih =>
    refine ih ?_
    by_cases hk : k = j
    · simp [hk]
    · simpa [hk, mapFind_mapPut_ne hk] using h

/-- An entry that is not the free one is found where it was put. -/
theorem State.owner_setOwner_self {o : Owner} (h : o ≠ {}) : (s.setOwner p o).owner p = o := by
  simp [State.owner, State.setOwner, mapSet, h]

theorem State.pageLost_dpoison {d : Nat} (hd : s.pageDpa (s.owner p).vdev p = some d) :
    ∀ a ∈ s.pageLines (s.owner p).vdev d, (mapFind a (s.pageLost p).dpoison).isSome = true := by
  intro a ha
  simp only [State.pageLost, State.nextPull_dpoison, State.setOwner_dpoison, hd]
  exact mapFind_foldl_mapPut_isSome (.inl ha)

theorem State.pageLost_dram : (s.pageLost p).dram = s.dram := by
  simp [State.pageLost]

theorem State.pageLost_owner : (s.pageLost p).owner p = { s.owner p with pull := false, lost := true } := by
  have h : ({ s.owner p with pull := false, lost := true } : Owner) ≠ {} := fun e => by cases congrArg Owner.lost e
  simp only [State.pageLost, State.owner, State.nextPull_owners]
  exact State.owner_setOwner_self h

/-- Where a page holds no access of a unit, all that it holds is performed at once (R398). -/
theorem State.performHeld_of_no_unit {q : List HeldAcc} (h : ∀ x ∈ q, x.isUnit = false) :
    s.performHeld q = q.foldl State.performOne s := by
  have htake : q.takeWhile (fun x => !x.isUnit) = q := List.takeWhile_eq_self_iff.mpr (fun x hx => by simp [h x hx])
  have hdrop : q.dropWhile (fun x => !x.isUnit) = [] := List.dropWhile_eq_nil_iff.mpr (fun x hx => by simp [h x hx])
  simp [State.performHeld, htake, hdrop]

section
variable {pl : Pull} (hpl : s.pulls.find? (fun x => x.page == p && x.req) = some pl)
include hpl

/-- The data of a page that has been reclaimed meanwhile are dropped (log 99). -/
theorem exec_pullDataArrival (hpull : (s.owner p).pull = true) (hb : b.length = 65536) (hs : s.pageSnooped (s.owner p).vdev p = false) :
    exec (.pullDataArrival p b) s = .next (State.performHeld (State.nextPull
      (let s0 := { s with resps := [] }
       let t := (if (s.owner p).state = 1 then s0.writePage (s.owner p).vdev p b else s0).setOwner p { s.owner p with pull := false }
       { t with pulls := t.pulls.filter (fun x => x.page != p) }) (pageDie p)) pl.queue) := by
  simp only [exec, execPullDataArrival, hpl]
  exact if_neg (by simp [hpull, hb, hs])

/-- The page is not written while the host may cache a line of it (R110). -/
theorem exec_pullDataArrival_snooped (hs : s.pageSnooped (s.owner p).vdev p = true) :
    exec (.pullDataArrival p b) s = .next s := by
  simp only [exec, execPullDataArrival, hpl]
  exact if_pos (.inr (.inr hs))

theorem exec_pullFail (hpull : (s.owner p).pull = true) : exec (.pullFail p) s =
    .next ((pl.queue.foldl State.lose (State.pageLost { s with resps := [] } p)).postEvent (s.owner p).vdev
      (event 0 4 pl.va (s.owner p).owner (s.owner p).srcdev)) := by
  simp only [exec, execPullFail, hpl]
  exact if_neg (by simp [hpull])
end

/-- What a seat's access that was on its way ends with where the pull fails (R399). -/
theorem State.lose_piece {x : Piece} (h : (s.access n).bind (fun a => a.pieces[l]?) = some x) (hx : x.sent = true) :
    s.lose (.piece n l) = s.failPiece n l (pageFault x.va 5) := by
  simp only [State.lose, h]
  exact if_pos hx

/-! ### The obligation -/

/-- Settles O50: the cases of `State.hostReq`, of the fabric request's check, and of the pull that ends. -/
theorem outsideRequests : Obligations.OutsideRequests := by
  unfold Obligations.OutsideRequests
  intro vd dpa p m l n line dom b va v acc op ty tr s s1 s2 s3 s0 ask
  refine ⟨fun hs hh => ?_, fun hport hlen hline hpage hstate hvd hvis hpull hh =>
    exec_hostMemAccess_pulled hport hlen hline hpage hstate hvd hvis hh hpull, fun h =>
    congrArg Host.Outcome.next (State.hostReq_unseen h), ?_, fun w hw => ⟨?_, ?_, ?_⟩, ?_,
    fun q hq => State.performHeld_of_no_unit hq, rfl, rfl, rfl, fun x hx hsent => State.lose_piece hx hsent, fun _ => rfl⟩
  · obtain ⟨hport, hlen, hline, hpage, hstate, hvd, hvis, hpull⟩ := hs
    have hwrite := exec_hostMemAccess_write (b := b) hport hlen hline hpage hstate hvd hvis hh hpull
    refine ⟨exec_hostMemAccess_read hport hlen hline hpage hstate hvd hvis hh hpull, fun ha hbad => ?_, fun ha hbad => ?_⟩
    · exact (hwrite ha).trans (congrArg Host.Outcome.next (if_neg (by simp [hbad])))
    · exact (hwrite ha).trans (congrArg Host.Outcome.next (if_pos hbad))
  · simp only [exec, execBackInvalidateResponse, List.contains_iff_mem]
  · rintro rfl hn hr
    exact exec_fabricRequest_read hw hn hr
  · rintro rfl hb hr
    exact exec_fabricRequest_write hw hb hr
  · rintro q k rfl hty hal hr hp hread hwrite
    exact exec_fabricRequest_atomic hw hty hal hr hp hread hwrite
  · intro pl hpl hpull o rest
    exact ⟨exec_pullDataArrival hpl hpull, exec_pullDataArrival_snooped hpl, exec_pullFail hpl hpull,
      fun d hd => State.pageLost_dpoison hd, State.pageLost_dram, State.pageLost_owner⟩

end Sys2Proof.Machine
end

section
/-! PROOFS. Proposals of pages and domains, and the zero fill that ends a reclaim (R107, R157, R158, R397, R403, R404, R408). -/
namespace Sys2Proof.Machine

variable {s s0 : State} {vd page src key own kind : Nat} {req : Option SessionReq} {n : Owner} {go on : State → State}

/-! ### What a proposal leaves alone -/

theorem State.modVd_dpaHome (s : State) (v : Nat) (f : VDev → VDev) (a dpa : Nat) :
    (s.modVd v f).dpaHome a dpa = s.dpaHome a dpa := rfl

/-- DSTATE of a domain other than the base one is read from its record. -/
theorem State.modVd_dstate (s : State) (v : Nat) (f : VDev → VDev) {d : Nat} (hd : d ≠ 0) :
    (s.modVd v f).dstate vd d = s.dstate vd d :=
  (if_neg (fun h => hd h.1)).trans (if_neg (fun h => hd h.1)).symm

/-! ### Taking a proposal -/

/-- A proposal that is taken is BUSY, with nothing of it done, and decided at once. -/
theorem State.propose_of_takes (h : Say.Takes s vd kind req s0) : s.propose vd kind req go on = go (Say.accepted s0 vd) := by
  obtain ⟨hvd, hstat, h⟩ := h
  have h16 : ¬ 16 ≤ vd := by omega
  cases req with
  | none =>
    obtain ⟨htdi, hport, hkind, rfl⟩ := h
    simp [State.propose, Say.accepted, h16, hstat, htdi, hport, hkind]
  | some r =>
    obtain ⟨htdi, hses, rfl⟩ := h
    have hne : (s.vd vd).tdi ≠ .error ∧ (s.vd vd).tdi ≠ .unlocked := by rcases htdi with h | h <;> simp [h]
    simp [State.propose, Say.accepted, Proposal.take, h16, hstat, hne, hses]

/-- A BUSY proposal goes on. -/
theorem State.propose_of_busy (hvd : vd < 16) (hstat : (s.vd vd).prop.cpstat = 1) (hkind : (s.vd vd).prop.cpkind = kind)
    (htdi : (s.vd vd).tdi ≠ .error) (hreq : req = none → (s.vd vd).tdi = .unlocked) :
    s.propose vd kind req go on = on s := by
  have h16 : ¬ 16 ≤ vd := by omega
  cases req with
  | none => simp [State.propose, h16, hstat, hkind, hreq rfl]
  | some r => simp [State.propose, h16, hstat, hkind, htdi]

/-- In ERROR no ownership changes (R408). -/
theorem State.propose_of_error (htdi : (s.vd vd).tdi = .error) : s.propose vd kind req go on = s := if_pos (.inr htdi)

/-- The host's write of CPGO while the interface is locked makes it ERROR (R408). -/
theorem State.propose_of_locked (hvd : vd < 16) (htdi : (s.vd vd).tdi = .locked ∨ (s.vd vd).tdi = .run)
    (hport : s.portOpen vd = true) : s.propose vd kind none go on = s.tdiError vd := by
  have h16 : ¬ 16 ≤ vd := by omega
  have hne : (s.vd vd).tdi ≠ .error ∧ (s.vd vd).tdi ≠ .unlocked := by rcases htdi with h | h <;> simp [h]
  simp [State.propose, h16, hne, hport]

/-! ### Pages -/

/-- The entry's fields lie side by side (R403). -/
theorem bitsAt_entry {own key : Nat} (hown : own < 2 ^ 16) (hkey : key < 2 ^ 12) (sh hv : Bool) :
    let e := own * 2 ^ 44 + key * 2 ^ 32 + sh.toNat * 2 ^ 29 + hv.toNat * 2 ^ 28
    bitsAt e 44 16 = own ∧ bitsAt e 32 12 = key ∧ bitAt e 29 = sh ∧ bitAt e 28 = hv ∧
      bitsAt e 60 4 = 0 ∧ bitsAt e 30 2 = 0 ∧ bitsAt e 0 28 = 0 := by
  simp only [bitsAt, bitAt, Nat.reducePow] at hown hkey ⊢
  cases sh <;> cases hv <;> simp only [Bool.toNat_true, Bool.toNat_false, beq_iff_eq, beq_eq_false_iff_ne, ne_eq] <;> omega

/-- The registers hold the entry that the proposal asks for (R403). -/
theorem Proposal.entry_of_asks {p : Proposal} (h : Say.Asks p.cpent.toNat n) : p.entry vd = { n with vdev := vd } := by
  obtain ⟨he, hown, hkey, hstate, hpull, hlost, hsrc⟩ := h
  obtain ⟨e1, e2, e3, e4, -⟩ := bitsAt_entry hown hkey n.shared n.hostvis
  simp only [Proposal.entry, he, e1, e2, e3, e4, hstate, hpull, hlost, hsrc]

/-- A field that must be zero is not (R403). -/
def Proposal.bad (p : Proposal) : Prop :=
  p.cpcnt = 0 ∨ bitsAt p.cpent.toNat 60 4 ≠ 0 ∨ bitsAt p.cpent.toNat 30 2 ≠ 0 ∨ bitsAt p.cpent.toNat 0 28 ≠ 0

theorem Proposal.bad_iff (p : Proposal) : p.bad ↔ p.cpcnt = 0 ∨ p.cpent.toNat % 2 ^ 28 ≠ 0 ∨
    p.cpent.toNat / 2 ^ 30 % 4 ≠ 0 ∨ p.cpent.toNat / 2 ^ 60 ≠ 0 := by
  have := p.cpent.isLt
  simp only [Proposal.bad, bitsAt]
  omega

theorem Proposal.not_bad_of_asks {p : Proposal} (h : Say.Asks p.cpent.toNat n) (hcnt : p.cpcnt ≠ 0) : ¬ p.bad := by
  obtain ⟨he, hown, hkey, -⟩ := h
  obtain ⟨-, -, -, -, e5, e6, e7⟩ := bitsAt_entry hown hkey n.shared n.hostvis
  simp only [Proposal.bad, he, e5, e6, e7]
  omega

theorem State.pageDone_owners : (s.pageDone vd).owners = s.owners := by
  unfold State.pageDone
  dsimp only
  split <;> rfl

theorem State.pageDone_dram : (s.pageDone vd).dram = s.dram := by
  unfold State.pageDone
  dsimp only
  split <;> rfl

theorem State.pageDone_prop : ((s.pageDone vd).vd vd).prop = { (s.vd vd).prop with
    cpdone := (s.vd vd).prop.cpdone + 1
    cpstat := if (s.vd vd).prop.cpcnt ≤ (s.vd vd).prop.cpdone + 1 then 0 else (s.vd vd).prop.cpstat } := by
  unfold State.pageDone
  dsimp only
  split <;> simp [State.cpDone, *]

/-- A page of the same owner and key takes its bits at once, any other goes through RECLAIM, and a failed check is named. -/
theorem State.commitPage_decides (hn : Say.Asks (s.vd vd).prop.cpent.toNat n) : Say.Decides s vd n (s.commitPage vd) := by
  have hentry := Proposal.entry_of_asks (vd := vd) hn
  unfold State.commitPage
  dsimp only
  rw [hentry]
  refine ⟨fun hc => if_pos hc, fun hc hst hvd hown hkey => ?_, fun hc hne => ?_⟩
  · rw [if_neg (by simpa using hc), if_pos ⟨hst, hvd, hown, hkey⟩]
    have ho : ({ s.owner ((s.vd vd).prop.cppage + (s.vd vd).prop.cpdone) with
      shared := n.shared, hostvis := n.hostvis } : Owner) ≠ {} := fun e => by
        have := congrArg Owner.state e
        simp [hst] at this
    refine ⟨?_, ?_, ?_, ?_⟩
    · simpa only [State.owner, State.pageDone_owners] using State.owner_setOwner_self ho
    · rw [State.pageDone_prop]; rfl
    · rw [State.pageDone_prop]; rfl
    · rw [State.pageDone_dram]; rfl
  · rw [if_neg (by simpa using hc)]
    refine if_neg ?_
    rintro ⟨h1, h2, h3, h4⟩
    rcases hne with h | h | h | h
    · exact h h1
    · exact h h2
    · exact h h3
    · exact h h4

theorem exec_proposePage_of_asks (h : Say.Takes s vd 1 req s0) (hn : Say.Asks (s0.vd vd).prop.cpent.toNat n)
    (hcnt : (s0.vd vd).prop.cpcnt ≠ 0) : exec (.proposePage vd req) s = .next ((Say.accepted s0 vd).commitPage vd) := by
  refine congrArg Host.Outcome.next ((State.propose_of_takes h).trans (if_neg ?_))
  simpa [Proposal.bad, Say.accepted] using Proposal.not_bad_of_asks hn hcnt

theorem exec_proposePage_of_bad (h : Say.Takes s vd 1 req s0) (hbad : (s0.vd vd).prop.bad) :
    exec (.proposePage vd req) s = .next ((Say.accepted s0 vd).cpDone vd 6) := by
  refine congrArg Host.Outcome.next ((State.propose_of_takes h).trans (if_pos ?_))
  simpa [Proposal.bad, Say.accepted] using hbad

section
variable (hvd : vd < 16) (hstat : (s.vd vd).prop.cpstat = 1) (hkind : (s.vd vd).prop.cpkind = 1) (htdi : (s.vd vd).tdi ≠ .error)
  (hreq : req = none → (s.vd vd).tdi = .unlocked)
include hvd hstat hkind htdi hreq

theorem exec_proposePage_filling (hf : s.filling vd = true) : exec (.proposePage vd req) s = .next s :=
  congrArg Host.Outcome.next ((State.propose_of_busy hvd hstat hkind htdi hreq).trans (if_pos hf))

theorem exec_proposePage_next (hf : s.filling vd = false) : exec (.proposePage vd req) s = .next (s.commitPage vd) :=
  congrArg Host.Outcome.next
    ((State.propose_of_busy hvd hstat hkind htdi hreq).trans (if_neg (ne_true_of_eq_false hf)))
end

/-! ### Domains -/

theorem exec_proposeDomain (h : Say.Takes s vd 2 req s0) :
    exec (.proposeDomain vd req) s = .next ((Say.accepted s0 vd).commitDomain vd) :=
  congrArg Host.Outcome.next (State.propose_of_takes h)

theorem State.accepted_quota (h : Say.Takes s vd kind req s0) (v : Nat) : (Say.accepted s0 vd).quota v = s.quota v := by
  obtain ⟨-, -, h⟩ := h
  cases req with
  | none => obtain ⟨-, -, -, rfl⟩ := h; rfl
  | some r => obtain ⟨-, -, rfl⟩ := h; rfl

theorem State.accepted_dpaHome (h : Say.Takes s vd kind req s0) (dpa : Nat) :
    (Say.accepted s0 vd).dpaHome vd dpa = s.dpaHome vd dpa := by
  obtain ⟨-, -, h⟩ := h
  cases req with
  | none => obtain ⟨-, -, -, rfl⟩ := h; exact State.modVd_dpaHome ..
  | some r =>
    obtain ⟨-, -, rfl⟩ := h
    exact (State.modVd_dpaHome ..).trans (State.modVd_dpaHome ..)

theorem State.accepted_dstate (h : Say.Takes s vd kind req s0) {d : Nat} (hd : d ≠ 0) :
    (Say.accepted s0 vd).dstate vd d = s.dstate vd d := by
  obtain ⟨-, -, h⟩ := h
  cases req with
  | none => obtain ⟨-, -, -, rfl⟩ := h; exact State.modVd_dstate _ _ _ hd
  | some r =>
    obtain ⟨-, -, rfl⟩ := h
    exact (State.modVd_dstate _ _ _ hd).trans (State.modVd_dstate _ _ _ hd)

section
variable {d root : Nat} (hd : (s.vd vd).prop.cpent.toNat = d) (hroot : (s.vd vd).prop.cproot.toNat = root)
include hd hroot

/-- The checks of a domain proposal, in their order (log 61), and what it does where they hold (R404). -/
theorem State.commitDomain_eq : s.commitDomain vd =
    if 2 ^ 16 ≤ d ∨ root % 4096 ≠ 0 ∨ 2 ^ 56 ≤ root then s.cpDone vd 6
    else if !(s.quota vd).active ∨ (s.dpaHome vd root).isNone then s.cpDone vd 2
    else if d = 0 ∨ (s.quota vd).dcap ≤ d ∨ s.dstate vd d ≠ 0 then s.cpDone vd 3
    else if s.tablesHeld vd then s
    else ((s.devWrite 0 ((s.quota vd).dbase + 32 * d) (leBytes root 8)).setDstate vd d 1).cpDone vd 0 := by
  subst hd hroot
  rfl
end

/-- How a domain proposal that has been taken ends, check by check. -/
theorem proposeDomain_ends (h : Say.Takes s vd 2 req s0) :
    let d := (s0.vd vd).prop.cpent.toNat
    let root := (s0.vd vd).prop.cproot.toNat
    let ends := fun (t : State) n => exec (.proposeDomain vd req) s = .next (t.cpDone vd n)
    (2 ^ 16 ≤ d ∨ root % 4096 ≠ 0 ∨ 2 ^ 56 ≤ root → ends (Say.accepted s0 vd) 6) ∧
    (d < 2 ^ 16 → root % 4096 = 0 → root < 2 ^ 56 →
      ((s.quota vd).active = false ∨ s.dpaHome vd root = none → ends (Say.accepted s0 vd) 2) ∧
      ((s.quota vd).active = true → (s.dpaHome vd root).isSome = true →
        (d = 0 ∨ (s.quota vd).dcap ≤ d ∨ s.dstate vd d ≠ 0 → ends (Say.accepted s0 vd) 3) ∧
        (d ≠ 0 → d < (s.quota vd).dcap → s.dstate vd d = 0 → (Say.accepted s0 vd).tablesHeld vd = true →
          exec (.proposeDomain vd req) s = .next (Say.accepted s0 vd)) ∧
        (d ≠ 0 → d < (s.quota vd).dcap → s.dstate vd d = 0 → (Say.accepted s0 vd).tablesHeld vd = false →
          ends (((Say.accepted s0 vd).devWrite 0 ((s.quota vd).dbase + 32 * d) (leBytes root 8)).setDstate vd d 1) 0))) := by
  intro d root ends
  have hd : ((Say.accepted s0 vd).vd vd).prop.cpent.toNat = d := by simp [Say.accepted, d]
  have hroot : ((Say.accepted s0 vd).vd vd).prop.cproot.toNat = root := by simp [Say.accepted, root]
  have e := exec_proposeDomain h
  rw [State.commitDomain_eq hd hroot, State.accepted_quota h, State.accepted_dpaHome h] at e
  refine ⟨fun h6 => by rwa [if_pos h6] at e, fun hd16 hr hr56 => ?_⟩
  rw [if_neg (by omega)] at e
  refine ⟨fun h2 => by rwa [if_pos (by simpa using h2)] at e, fun hact hdpa => ?_⟩
  rw [if_neg (by simp [hact, Option.isSome_iff_ne_none.mp hdpa])] at e
  refine ⟨fun h3 => ?_, fun hd0 hcap hst hheld => ?_, fun hd0 hcap hst hheld => ?_⟩
  · by_cases hd0 : d = 0
    · rwa [if_pos (.inl hd0)] at e
    · rwa [State.accepted_dstate h hd0, if_pos h3] at e
  · rwa [State.accepted_dstate h hd0, if_neg (by omega), if_pos hheld] at e
  · rwa [State.accepted_dstate h hd0, if_neg (by omega), if_neg (ne_true_of_eq_false hheld)] at e

/-! ### The zero fill -/

/-- The entry that a filled page takes: its new one, or a FREE one where a check of R158 has failed (log 120). -/
theorem Owner.after_filled {o next : Owner} {code : Nat} :
    o.after (if code = 0 then next else { next with state := 0 }) =
      if next.state = 0 ∨ code ≠ 0 then { o with state := 0, lost := false }
      else if next.pull then next else { next with pull := o.pull, srcdev := o.srcdev } := by
  by_cases hc : code = 0 <;> by_cases hs : next.state = 0 <;> simp [Owner.after, hc, hs]

theorem Owner.filled_state {next : Owner} {code : Nat} :
    (if code = 0 then next else { next with state := 0 }).state = 1 ↔ next.state = 1 ∧ code = 0 := by
  by_cases hc : code = 0 <;> simp [hc]

/-- A page after its zero fill, with its entry, its reclamation over. -/
def State.filled (s : State) (r : Reclaim) : State :=
  let t := (s.writePage r.next.vdev r.page (zeros 65536)).setOwner r.page
    ((s.owner r.page).after (if s.fillCode r = 0 then r.next else { r.next with state := 0 }))
  { t with reclaims := t.reclaims.filter (fun x => x.page != r.page) }

/-- The change waits: the host may cache a line of the page, or it would be committed in ERROR. -/
def State.fillHeld (s : State) (r : Reclaim) : Prop :=
  s.pageSnooped r.next.vdev r.page = true ∨ (r.next.state = 1 ∧ s.fillCode r = 0 ∧ (s.vd r.next.vdev).tdi = .error)

section
variable {r : Reclaim} (hr : s.reclaims.find? (fun x => x.page == page) = some r)
include hr

theorem exec_reclaimZeroFillDone_held (h : s.fillHeld r) : exec (.reclaimZeroFillDone page) s = .next s := by
  obtain rfl : r.page = page := by simpa using List.find?_some hr
  simp only [exec, execReclaimZeroFillDone, hr]
  refine if_pos ?_
  rw [Owner.filled_state, and_assoc]
  exact h

theorem exec_reclaimZeroFillDone (h : ¬ s.fillHeld r) : exec (.reclaimZeroFillDone page) s = .next (match r.prop with
    | some v => if s.fillCode r = 0 then (s.filled r).pageDone v else (s.filled r).cpDone v (s.fillCode r)
    | none => s.filled r) := by
  obtain rfl : r.page = page := by simpa using List.find?_some hr
  simp only [exec, execReclaimZeroFillDone, hr]
  refine (if_neg ?_).trans ?_
  · rw [Owner.filled_state, and_assoc]
    exact h
  · cases r.prop <;> rfl
end

/-- How a zero fill ends, with what its proposal is told. -/
theorem reclaimZeroFillDone_ends {r : Reclaim} (hr : s.reclaims.find? (fun x => x.page == page) = some r) :
    let code := if r.next.state = 0 then 0 else (s.setOwner r.page {}).pageCode r.next.vdev r.page r.next.owner r.next.key
    let o := s.owner page
    let entry := if r.next.state = 0 ∨ code ≠ 0 then { o with state := 0, lost := false } else if r.next.pull then r.next
      else { r.next with pull := o.pull, srcdev := o.srcdev }
    let held := s.pageSnooped r.next.vdev page = true ∨ (r.next.state = 1 ∧ code = 0 ∧ (s.vd r.next.vdev).tdi = .error)
    let filled := ((s.writePage r.next.vdev page (zeros 65536)).setOwner page entry) |> fun t =>
      { t with reclaims := t.reclaims.filter (fun x => x.page != page) }
    (held → exec (.reclaimZeroFillDone page) s = .next s) ∧
    (¬ held → (r.prop = none → exec (.reclaimZeroFillDone page) s = .next filled) ∧
      (r.prop = some vd → code = 0 → exec (.reclaimZeroFillDone page) s = .next (filled.pageDone vd)) ∧
      (r.prop = some vd → code ≠ 0 → exec (.reclaimZeroFillDone page) s = .next (filled.cpDone vd code))) := by
  obtain rfl : r.page = page := by simpa using List.find?_some hr
  intro code o entry held filled
  have hfilled : s.filled r = filled := by
    unfold State.filled
    rw [Owner.after_filled]
    rfl
  refine ⟨exec_reclaimZeroFillDone_held hr, fun hn => ?_⟩
  have e := exec_reclaimZeroFillDone hr hn
  rw [hfilled] at e
  refine ⟨fun hp => ?_, fun hp hc => ?_, fun hp hc => ?_⟩
  · rwa [hp] at e
  · rw [hp] at e
    exact e.trans (congrArg _ (if_pos hc))
  · rw [hp] at e
    exact e.trans (congrArg _ (if_neg hc))

/-! ### Migration -/

theorem exec_migrationStart {sh hv : Bool} (hvd : vd < 16) (hsrc : src < 256) (htdi : (s.vd vd).tdi ≠ .error)
    (hc : s.pageCode vd page own key = 0) : exec (.migrationStart vd page src key ⟨own, sh, hv⟩) s =
      .next (s.reclaim page { vdev := vd, owner := own, key := key, state := 1, shared := sh, hostvis := hv, pull := true
                              srcdev := src } none) := by
  have h1 : ¬ 16 ≤ vd := by omega
  have h2 : ¬ 256 ≤ src := by omega
  simp [exec, execMigrationStart, hc, h1, h2, htdi]

theorem exec_migrationStart_refused {sh hv : Bool} (h : 16 ≤ vd ∨ 256 ≤ src ∨ s.pageCode vd page own key ≠ 0) :
    exec (.migrationStart vd page src key ⟨own, sh, hv⟩) s = .next s := by
  refine if_pos ?_
  tauto

/-! ### The obligation -/

/-- Settles O51: the branches of `State.propose`, of the two commits, and of the zero fill's end. -/
theorem pagesChangeHands : Obligations.PagesChangeHands := by
  unfold Obligations.PagesChangeHands
  intro vd page src key own req n r s s0
  refine ⟨fun h hn hcnt => ⟨_, exec_proposePage_of_asks h hn hcnt, State.commitPage_decides ?_⟩,
    fun h hbad => exec_proposePage_of_bad h ((Proposal.bad_iff _).mpr hbad),
    fun hvd hstat hkind htdi hreq => ⟨exec_proposePage_filling hvd hstat hkind htdi hreq, fun hf hn =>
      ⟨_, exec_proposePage_next hvd hstat hkind htdi hreq hf, State.commitPage_decides hn⟩⟩,
    fun h => ?_,
    fun hvd htdi hport => ⟨congrArg Host.Outcome.next (State.propose_of_locked hvd htdi hport),
      congrArg Host.Outcome.next (State.propose_of_locked hvd htdi hport)⟩,
    fun htdi => ⟨congrArg Host.Outcome.next (State.propose_of_error htdi),
      congrArg Host.Outcome.next (State.propose_of_error htdi)⟩,
    fun hr => ?_, exec_migrationStart, exec_migrationStart_refused⟩
  · simpa [Say.accepted] using hn
  · exact proposeDomain_ends h
  · exact reclaimZeroFillDone_ends hr

end Sys2Proof.Machine
end

section
/-! PROOFS. What slot instructions do at their unit, and the completion of a phase (R129, R130, R191, R328 to R330). -/
namespace Sys2Proof.Machine

/-! ### What the end of a wait leaves alone -/

/-- A strand that goes on leaves its core's slots as they are. -/
theorem State.slot_finish (s : State) (a : Agent) (d : Option (Nat × Word)) (p : Option (Nat × Bool)) (c y : Nat) :
    (s.finish a d p).slot c y = s.slot c y := by
  by_cases hk : a.seat < 4
  · obtain ⟨f, hf⟩ := s.finish_eq_modSeat a d p hk
    by_cases hc : c = a.core
    · subst hc
      rw [hf, State.slot, State.core_modSeat_self, Core.modSeat_slots, State.slot]
    · rw [hf, State.slot, State.core_modSeat_ne _ hc, State.slot]
  · unfold State.finish
    dsimp only
    rw [if_pos (Nat.not_lt.mp hk)]
    rfl

theorem State.slot_foldl_finish (ws : List Waiter) (s : State) (c y : Nat) :
    (ws.foldl (fun u w => u.finish w.agent none none) s).slot c y = s.slot c y := by
  induction ws generalizing s with
  | nil => rfl
  | cons w ws ih => exact (ih _).trans (s.slot_finish ..)

@[simp] theorem State.slot_setSlot_self (s : State) (c y : Nat) (l : Slot) : (s.setSlot c y l).slot c y = some l := by
  simp [State.slot, State.setSlot]

/-! ### Arrivals (R329) -/

/-- The slot with a thread's arrival counted, and marked where the thread is a member. -/
def Slot.arrived (l : Slot) (c k : Nat) : Slot :=
  { l with narr := l.narr + 1
           members := l.members.map (fun x => if x.core = c ∧ x.seat = k then { x with arr := true } else x) }

/-- A thread that is no member marks nobody. -/
theorem Slot.arrived_of_anonymous {l : Slot} {c k : Nat} (h : l.member? c k = none) :
    l.arrived c k = { l with narr := l.narr + 1 } := by
  have hall : ∀ m ∈ l.members, ¬ (m.core = c ∧ m.seat = k) := by simpa [Slot.member?] using h
  have hmap : l.members.map (fun x => if x.core = c ∧ x.seat = k then { x with arr := true } else x) = l.members :=
    (List.map_congr_left fun m hm => if_neg (hall m hm)).trans (List.map_id' _)
  rw [Slot.arrived, hmap]

/-- A thread's arrival is held for the next phase: the member's own has counted, or those of all anonymous parties (R329). -/
def Slot.holdsBack (l : Slot) (c k : Nat) : Bool :=
  match l.member? c k with | some m => m.arr | none => decide (l.anon ≤ l.aa)

section
variable {s : State} {a : Agent} {c y : Nat} {l : Slot} (hl : s.slot c y = some l)
include hl

theorem State.arrive_held {next : Bool} (hhold : l.holdsBack a.core a.seat = true) :
    s.arrive c y (.thread a.core a.seat a.strn a.hnd next) =
      s.setSlot c y { l with held := l.held ++ [.thread a.core a.seat a.strn a.hnd next] } := by
  rw [State.arrive, hl]
  exact if_pos hhold

theorem State.arrive_signals (hcount : l.holdsBack a.core a.seat = false) :
    s.arrive c y (.thread a.core a.seat a.strn a.hnd false) =
      (s.setSlot c y (l.arrived a.core a.seat)).finish a none none := by
  rw [State.arrive, hl]
  exact if_neg (Bool.eq_false_iff.mp hcount)

theorem State.arrive_waits (hcount : l.holdsBack a.core a.seat = false) :
    s.arrive c y (.thread a.core a.seat a.strn a.hnd true) =
      s.setSlot c y { l.arrived a.core a.seat with
        waiters := l.waiters ++ [⟨a.core, a.seat, a.strn, a.hnd, .phase l.phase⟩] } := by
  rw [State.arrive, hl]
  exact if_neg (Bool.eq_false_iff.mp hcount)

/-! ### Phasers (R329) -/

section
variable (hph : l.kind = .ph)
include hph

theorem State.slotDo_phsig (hparty : l.member? a.core a.seat = none → l.anon ≠ 0) :
    s.slotDo a c y .phsig = .ok ((s.arrive c y (.thread a.core a.seat a.strn a.hnd false)).complete c y) := by
  have hok : ¬ (l.kind ≠ .ph ∨ (l.member? a.core a.seat).isNone ∧ l.anon = 0) := by simpa [hph] using hparty
  simp only [State.slotDo, hl, if_neg hok]

theorem State.slotDo_phnext (hparty : l.member? a.core a.seat = none → l.anon ≠ 0) :
    s.slotDo a c y .phnext = .ok ((s.arrive c y (.thread a.core a.seat a.strn a.hnd true)).complete c y) := by
  have hok : ¬ (l.kind ≠ .ph ∨ (l.member? a.core a.seat).isNone ∧ l.anon = 0) := by simpa [hph] using hparty
  simp only [State.slotDo, hl, if_neg hok]

theorem State.slotDo_phreg {n : Nat} (hn : l.nreg + n ≤ 65535) : s.slotDo a c y (.phreg n) =
    .ok (((s.setSlot c y { l with nreg := l.nreg + n }).finish a none none).complete c y) := by
  have hok : ¬ (l.kind ≠ .ph ∨ 65535 < l.nreg + n) := by simpa [hph] using hn
  simp only [State.slotDo, hl, if_neg hok]

theorem State.slotDo_phdrop {n : Nat} (hn : n ≤ l.anon - l.aa) : s.slotDo a c y (.phdrop n) =
    .ok (((s.setSlot c y { l with nreg := l.nreg - n }).finish a none none).complete c y) := by
  have hok : ¬ (l.kind ≠ .ph ∨ l.anon - l.aa < n) := by simpa [hph] using hn
  simp only [State.slotDo, hl, if_neg hok]

theorem State.slotDo_phwait {n : Nat} (hn : n < 2 ^ 64) : s.slotDo a c y (.phwait (BitVec.ofNat 64 n)) =
    .ok (if l.phase ≠ n % 2 ^ 32 then s.finish a none none else s.setSlot c y
      { l with waiters := l.waiters ++ [⟨a.core, a.seat, a.strn, a.hnd, .phase l.phase⟩] }) := by
  have hv : (BitVec.ofNat 64 n).toNat = n := Nat.mod_eq_of_lt hn
  simp only [State.slotDo, hl, hph, hv, ne_eq, not_true_eq_false, if_false]
  split <;> rfl

theorem State.slotDo_phwaitMem {m : Member} (hm : l.member? a.core a.seat = some m) : s.slotDo a c y .phwaitMem =
    .ok (if m.arr then s.setSlot c y { l with waiters := l.waiters ++ [⟨a.core, a.seat, a.strn, a.hnd, .phase l.phase⟩] }
      else s.finish a none none) := by
  simp only [State.slotDo, hl, hph, hm, ne_eq, not_true_eq_false, if_false]
  split <;> rfl

theorem State.slotDo_join (hm : l.member? a.core a.seat = none) (hgroups : (s.groupsOf a.core a.seat).length < 8)
    (hmembers : l.members.length < 32) (hreg : l.nreg < 65535) : s.slotDo a c y .join =
      .ok (((s.setSlot c y { l with nreg := l.nreg + 1, members := l.members ++ [⟨a.core, a.seat, false⟩] }).finish a
        none none).complete c y) := by
  have hok : ¬ (l.kind ≠ .ph ∨ (l.member? a.core a.seat).isSome ∨ 8 ≤ (s.groupsOf a.core a.seat).length ∨
      32 ≤ l.members.length ∨ 65535 < l.nreg + 1) := by simp [hph, hm]; omega
  simp only [State.slotDo, hl, if_neg hok]

theorem State.slotDo_leave (hm : l.member? a.core a.seat ≠ none) :
    s.slotDo a c y .leave = .ok ((s.finish a none none).leaveSlot c y a.core a.seat) := by
  have hok : ¬ (l.kind ≠ .ph ∨ (l.member? a.core a.seat).isNone) := by simpa [hph] using hm
  simp only [State.slotDo, hl, if_neg hok]
end

/-! ### Join counters (R330) -/

theorem State.slotDo_tdone_of_none (hcount : l.jcount = 0) : s.slotDo a c y .tdone = .error y := by
  simp only [State.slotDo, hl, hcount, or_true, if_true]

section
variable (hjoin : l.kind = .join)
include hjoin

theorem State.slotDo_phwaitJoin : s.slotDo a c y .phwaitJoin = .ok (if l.jcount = 0 then s.finish a none none
    else s.setSlot c y { l with waiters := l.waiters ++ [⟨a.core, a.seat, a.strn, a.hnd, .join⟩] }) := by
  simp only [State.slotDo, hl, hjoin, ne_eq, not_true_eq_false, if_false]
  split <;> rfl

theorem State.slotDo_tdone_of_last (hcount : l.jcount = 1) : s.slotDo a c y .tdone =
    .ok ((l.waiters.filter (fun w => w.kind == .join)).foldl (fun u w => u.finish w.agent none none)
      ((s.setSlot c y { l with jcount := 0, waiters := l.waiters.filter (fun w => w.kind != .join) }).finish a none none)) := by
  simp only [State.slotDo, hl, hjoin, hcount, ne_eq, not_true_eq_false, one_ne_zero, or_self, if_false, Nat.sub_self, if_true,
    List.partition_eq_filter_filter]
  rfl

theorem State.slotDo_tdone_of_more (hcount : 2 ≤ l.jcount) : s.slotDo a c y .tdone =
    .ok ((s.setSlot c y { l with jcount := l.jcount - 1 }).finish a none none) := by
  have hok : ¬ (l.kind ≠ .join ∨ l.jcount = 0) := by simp [hjoin]; omega
  have hmore : ¬ l.jcount - 1 = 0 := by omega
  simp only [State.slotDo, hl, if_neg hok, if_neg hmore]
end

/-! ### Token queues (R130, R330) -/

theorem State.slotDo_tqpost_refused {n : Nat} (hn : n < 2 ^ 64) (hplace : l.places[n]? ≠ some .resv) :
    s.slotDo a c y (.tqpost (BitVec.ofNat 64 n)) = .error n := by
  have hv : (BitVec.ofNat 64 n).toNat = n := Nat.mod_eq_of_lt hn
  simp only [State.slotDo, hl, hv, if_pos (Or.inr hplace)]

section
variable (htq : l.kind = .tq)
include htq

theorem State.slotDo_tqpost {n : Nat} (hn : n < 2 ^ 64) (hplace : l.places[n]? = some .resv) :
    s.slotDo a c y (.tqpost (BitVec.ofNat 64 n)) = .ok (((s.setSlot c y { l with
      places := l.places.set n .posted, postL := l.postL ++ [n] }).finish a none none).serveTq c y false) := by
  have hv : (BitVec.ofNat 64 n).toNat = n := Nat.mod_eq_of_lt hn
  simp only [State.slotDo, hl, htq, hv, hplace, ne_eq, not_true_eq_false, or_self, if_false]

theorem State.slotDo_tqrel {n : Nat} (hn : n < 2 ^ 64) (hplace : l.places[n]? = some .taken) :
    s.slotDo a c y (.tqrel (BitVec.ofNat 64 n)) = .ok (((s.setSlot c y { l with
      places := l.places.set n .free, freeL := l.freeL ++ [n] }).finish a none none).serveTq c y true) := by
  have hv : (BitVec.ofNat 64 n).toNat = n := Nat.mod_eq_of_lt hn
  simp only [State.slotDo, hl, htq, hv, hplace, ne_eq, not_true_eq_false, or_self, if_false]

theorem State.slotDo_tqacq (d : Nat) : s.slotDo a c y (.tqacq d) = .ok ((s.setSlot c y { l with
    waiters := l.waiters ++ [⟨a.core, a.seat, a.strn, a.hnd, .acq d⟩] }).serveTq c y true) := by
  simp only [State.slotDo, hl, htq, ne_eq, not_true_eq_false, if_false]

theorem State.slotDo_tqtake (d : Nat) : s.slotDo a c y (.tqtake d) = .ok ((s.setSlot c y { l with
    waiters := l.waiters ++ [⟨a.core, a.seat, a.strn, a.hnd, .take d⟩] }).serveTq c y false) := by
  simp only [State.slotDo, hl, htq, ne_eq, not_true_eq_false, if_false]
end

/-! ### Slots of another kind (R328) -/

theorem State.slotDo_not_phaser (hkind : l.kind ≠ .ph) : s.slotDo a c y .phsig = .error y ∧ s.slotDo a c y .join = .error y := by
  simp only [State.slotDo, hl, if_pos (Or.inl hkind), and_self]

theorem State.slotDo_not_queue (hkind : l.kind ≠ .tq) (d : Nat) : s.slotDo a c y (.tqacq d) = .error y := by
  simp only [State.slotDo, hl, if_pos hkind]
end

theorem slotOperationEffects : Say.slotOperationEffects := by
  intro s a c y n l hl
  refine ⟨fun hph => ?phaser, fun hjoin => ?join, fun htq hn => ?queue, State.slotDo_not_phaser hl,
    fun hkind => State.slotDo_not_queue hl hkind n⟩
  case phaser =>
    refine ⟨State.slotDo_phreg hl hph, State.slotDo_phdrop hl hph,
      fun hp hn => (State.slotDo_phwait hl hph hn).trans (congrArg _ (if_pos hp)),
      fun hp hn => (State.slotDo_phwait hl hph hn).trans (congrArg _ (if_neg (not_not.mpr hp))), ?_, ?_, ?_, ?_,
      State.slotDo_join hl hph, State.slotDo_leave hl hph⟩
    · intro hm haa
      have hcount : l.holdsBack a.core a.seat = false := by simpa [Slot.holdsBack, hm] using haa
      rw [State.slotDo_phsig hl hph (fun _ => by omega), State.arrive_signals hl hcount, Slot.arrived_of_anonymous hm]
    · intro hm hanon haa
      have hhold : l.holdsBack a.core a.seat = true := by simpa [Slot.holdsBack, hm] using haa
      rw [State.slotDo_phsig hl hph (fun _ => by omega), State.arrive_held hl hhold]
    · intro m hm
      have hsig := State.slotDo_phsig (a := a) hl hph (by simp [hm])
      have hhold : l.holdsBack a.core a.seat = m.arr := by simp [Slot.holdsBack, hm]
      refine ⟨fun harr => ?_, fun harr => ?_, State.slotDo_phwaitMem hl hph hm⟩
      · rw [hsig, State.arrive_signals hl (hhold.trans harr), Slot.arrived]
      · rw [hsig, State.arrive_held hl (hhold.trans harr)]
    · intro hm haa
      have hcount : l.holdsBack a.core a.seat = false := by simpa [Slot.holdsBack, hm] using haa
      rw [State.slotDo_phnext hl hph (fun _ => by omega), State.arrive_waits hl hcount, Slot.arrived_of_anonymous hm]
  case join =>
    exact ⟨fun h0 => ⟨(State.slotDo_phwaitJoin hl hjoin).trans (congrArg _ (if_pos h0)), State.slotDo_tdone_of_none hl h0⟩,
      fun h0 => (State.slotDo_phwaitJoin hl hjoin).trans (congrArg _ (if_neg h0)), State.slotDo_tdone_of_last hl hjoin,
      State.slotDo_tdone_of_more hl hjoin⟩
  case queue =>
    exact ⟨State.slotDo_tqpost hl htq hn, State.slotDo_tqrel hl htq hn, State.slotDo_tqpost_refused hl hn,
      State.slotDo_tqacq hl htq n, State.slotDo_tqtake hl htq n⟩

/-! ### The completion of a phase (R191) -/

/-- Without a stream's arrival a completion changes no stream (R355). -/
theorem State.streamsDone_of_none {s : State} {c y : Nat} (h : ∀ e ∈ s.streams, e.2.arr = true → e.2.target ≠ (c, y)) :
    s.streamsDone c y = s := by
  have hnone : s.streams.filter (fun e => e.2.arr && e.2.target == (c, y)) = [] :=
    List.filter_eq_nil_iff.mpr fun e he => by simpa using h e he
  show List.foldl _ s (s.streams.filter (fun e => e.2.arr && e.2.target == (c, y))) = s
  rw [hnone]
  rfl

/-- A phaser whose arrivals are not complete stands (R191). -/
theorem State.completeF_of_incomplete {s : State} {c y : Nat} {l : Slot} (hl : s.slot c y = some l) (h : l.narr ≠ l.nreg) (n : Nat) :
    s.completeF n c y = s := by
  cases n with
  | zero => rfl
  | succ n =>
    rw [State.completeF, hl]
    exact if_pos (.inr (.inr h))

theorem phaseCompletes : Say.phaseCompletes := by
  intro s c y l hl hph hreg harr hheld hstreams ph old
  have hgo : ¬ (l.kind ≠ .ph ∨ l.nreg = 0 ∨ l.narr ≠ l.nreg) := by simp [hph, hreg, harr]
  have hfuel : s.complete c y = s.completeF 2 c y := by simp only [State.complete, hl, hheld, List.length_nil]
  rw [hfuel, State.completeF, hl]
  refine (if_neg hgo).trans ?_
  dsimp only
  rw [State.streamsDone_of_none (by exact hstreams), hheld]
  refine State.completeF_of_incomplete ((State.slot_foldl_finish ..).trans (State.slot_setSlot_self ..)) ?_ 1
  exact hreg.symm

/-- Settles O26: one law for each slot operation, and a phase's completion, after which the arrivals are incomplete. -/
theorem slotOperations : Obligations.SlotOperations := ⟨slotOperationEffects, phaseCompletes⟩

end Sys2Proof.Machine
end

section
/-! PROOFS. SYNEW and SYFREE (R129, R317, R321, R328). -/
namespace Sys2Proof.Machine

/-! ### SYNEW -/

/-- The values that SYNEW takes as the parameter of a kind (R328). -/
def synewAccepts (k : SyKind) (n : Nat) : Bool :=
  match k with
  | .ph => decide (n ≤ 65535) | .join => decide (n < 2 ^ 32) | .tq => decide (1 ≤ n) && decide (n ≤ 256)

/-- The slot that SYNEW makes, as it first stands (R129). -/
def synewSlot (k : SyKind) (n : Nat) (x : Seat) : Slot :=
  match k with
  | .ph => { kind := .ph, lid := x.lid, vdev := x.vdev, nreg := n }
  | .join => { kind := .join, lid := x.lid, vdev := x.vdev, jcount := n }
  | .tq => { kind := .tq, lid := x.lid, vdev := x.vdev, cap := n, places := List.replicate n .free, freeL := upto n }

/-- The core's token store has room for the new slot; only a token queue takes of it (R129). -/
def State.tokenRoom (s : State) (k : SyKind) (n : Nat) : Bool := k != .tq || decide (s.myCore.tokens + n ≤ 1024)

section
variable {h : Head} {k : SyKind} {pst d n : Nat} {a : Src} {s s1 : State} (hg : guardOk h s.me = true)
  (hn : readN64 2 a s = .ok n s1)
include hg hn

theorem exec_synew_of_parameter (hbad : synewAccepts k n = false) : exec (.synew h k pst d a) s =
    .next (s.takeTrap s.cur { cause := .operand, opnd := 2, val := BitVec.ofNat 64 n } false) := by
  refine issue_stop hg (s' := s1) (e := .trap { cause := .operand, opnd := 2, val := BitVec.ofNat 64 n }) ?_
  refine (M.bind_ok hn).trans (M.bind_error ?_)
  show need (synewAccepts k n) 2 n s1 = _
  rw [hbad, need_false]

variable (hok : synewAccepts k n = true) (hlda : s1.ldaOpen s1.cur = false) (hbank : s1.bankDone = true)
include hok hlda hbank

theorem exec_synew_of_used (hused : (s1.slot s1.cur.core d).isSome = true) : exec (.synew h k pst d a) s =
    .next (s.takeTrap s.cur { cause := .syncstate, val := BitVec.ofNat 64 d } false) := by
  refine issue_stop hg (s' := s1) (e := .trap { cause := .syncstate, val := BitVec.ofNat 64 d }) ?_
  refine (M.bind_ok hn).trans ((M.bind_ok (need_ok hok)).trans ?_)
  simp only [M.bind_run, afterLda_ok hlda, bankQuiet_ok hbank, look_eq, hused, if_true, raise_eq]

theorem exec_synew_of_unused (hunused : s1.slot s1.cur.core d = none) : exec (.synew h k pst d a) s =
    .next (((if s1.tokenRoom k n then s1.setSlot s1.cur.core d (synewSlot k n s1.me) else s1).modMe
      (fun x => x.setP pst (s1.tokenRoom k n))).advance h) := by
  refine issue_ok (u := ()) hg ?_
  refine (M.bind_ok hn).trans ((M.bind_ok (need_ok hok)).trans ?_)
  simp only [M.bind_run, afterLda_ok hlda, bankQuiet_ok hbank, look_eq, hunused, Option.isSome_none, Bool.false_eq_true, if_false,
    me_eq]
  cases k with
  | ph => rfl
  | join => rfl
  | tq =>
    simp only [M.bind_run, look_eq]
    by_cases hroom : s1.myCore.tokens + n ≤ 1024
    · simp [hroom, State.tokenRoom, synewSlot, M.bind_run]
    · simp [hroom, State.tokenRoom]
end

/-! ### SYFREE -/

/-- Nothing waits at the slot, no thread is its member, and every place is free (R328). -/
def Slot.idle (l : Slot) : Prop :=
  l.waiters = [] ∧ l.held = [] ∧ (l.kind = .ph → l.members = []) ∧ (l.kind = .tq → ∀ p ∈ l.places, p = .free)

theorem Slot.busy_iff {l : Slot} : (!l.waiters.isEmpty || !l.held.isEmpty || (l.kind == .ph && !l.members.isEmpty) ||
    (l.kind == .tq && l.places.any (fun p => p != .free))) = true ↔ ¬ l.idle := by
  rw [← not_iff_not, Bool.not_eq_true]
  simp [Slot.idle, and_assoc]

theorem State.freeSlot_state {s : State} {c y : Nat} {l : Slot} (hl : s.slot c y = some l) :
    (s.freeSlot c y).2 = (s.modCore c (fun x => { x with slots := mapDel y x.slots })).streamsErr c y := by
  rw [State.freeSlot, hl]

section
variable {h : Head} {d : Nat} {l : Slot} {s : State} (hg : guardOk h s.me = true) (hlda : s.ldaOpen s.cur = false)
  (hbank : s.bankDone = true)
include hg hlda hbank

theorem exec_syfree_of_free (hfree : s.slot s.cur.core d = none) : exec (.syfree h d) s =
    .next (s.takeTrap s.cur { cause := .syncstate, val := BitVec.ofNat 64 d } false) := by
  refine issue_stop hg (s' := s) (e := .trap { cause := .syncstate, val := BitVec.ofNat 64 d }) ?_
  simp only [M.bind_run, afterLda_ok hlda, bankQuiet_ok hbank, look_eq, hfree, raise_eq]

theorem exec_syfree_of_busy (hl : s.slot s.cur.core d = some l) (hbusy : ¬ l.idle) : exec (.syfree h d) s =
    .next (s.takeTrap s.cur { cause := .syncstate, val := BitVec.ofNat 64 d } false) := by
  refine issue_stop hg (s' := s) (e := .trap { cause := .syncstate, val := BitVec.ofNat 64 d }) ?_
  simp only [M.bind_run, afterLda_ok hlda, bankQuiet_ok hbank, look_eq, hl]
  exact congrFun (if_pos (Slot.busy_iff.mpr hbusy)) s

theorem exec_syfree_of_idle (hl : s.slot s.cur.core d = some l) (hidle : l.idle) : exec (.syfree h d) s =
    .next (((s.modMyCore (fun x => { x with slots := mapDel d x.slots })).streamsErr s.cur.core d).advance h) := by
  refine (issue_ok (u := ()) (s' := (s.freeSlot s.cur.core d).2) hg ?_).trans (by rw [State.freeSlot_state hl]; rfl)
  simp only [M.bind_run, afterLda_ok hlda, bankQuiet_ok hbank, look_eq, hl]
  exact congrFun (if_neg (mt Slot.busy_iff.mp (not_not.mpr hidle))) s
end

/-- Settles O27: SYNEW by its parameter, then by the slot and the token store; SYFREE by the slot. -/
theorem synewAndSyfree : Obligations.SynewAndSyfree := by
  intro h pst d n k a l s s1 hg
  refine ⟨?unused, fun hn hbad => exec_synew_of_parameter hg hn ?_, ?used, fun hlda hbank =>
    ⟨exec_syfree_of_free hg hlda hbank, fun hl => ⟨exec_syfree_of_idle hg hlda hbank hl, exec_syfree_of_busy hg hlda hbank hl⟩⟩⟩
  case unused =>
    intro hn hcur hlda hbank hunused
    rw [← hcur] at hunused ⊢
    have hnew {k : SyKind} (hok : synewAccepts k n = true) := exec_synew_of_unused (pst := pst) hg hn hok hlda hbank hunused
    refine ⟨fun hle => hnew (k := .ph) (decide_eq_true hle), fun hlt => hnew (k := .join) (decide_eq_true hlt),
      fun hlo hhi hroom => ?_, fun hlo hhi hfull => ?_⟩
    · have hroom : s1.tokenRoom .tq n = true := decide_eq_true hroom
      rw [hnew (k := .tq) (by simp [synewAccepts, hlo, hhi]), hroom]
      rfl
    · have hroom : s1.tokenRoom .tq n = false := decide_eq_false (Nat.not_le.mpr hfull)
      rw [hnew (k := .tq) (by simp [synewAccepts, hlo, hhi]), hroom]
      rfl
  case used =>
    intro hn hcur hlda hbank hl hok
    refine exec_synew_of_used hg hn ?_ hlda hbank (hcur ▸ Option.isSome_of_eq_some hl)
    cases k <;> simpa [synewAccepts] using hok
  cases k with
  | ph => simpa [synewAccepts] using hbad
  | join => simpa [synewAccepts] using hbad
  | tq => simpa [synewAccepts] using fun hpos : 1 ≤ n => hbad.resolve_left (Nat.pos_iff_ne_zero.mp hpos)

end Sys2Proof.Machine
end

section
/-! PROOFS. Messages, and LAUNCH (R126 to R128, R136, R337 to R339). -/
namespace Sys2Proof.Machine

/-- A change of the issuer's core that keeps the seats keeps the issuer's. -/
theorem State.me_modMyCore (s : State) {f : Core → Core} (hf : ∀ x, (f x).seats = x.seats) : (s.modMyCore f).me = s.me := by
  show ((s.modCore s.cur.core f).core s.cur.core).seat s.cur.seat = s.me
  rw [State.core_modCore_self, Core.seat, hf]
  rfl

/-! ### A row of registers that is written -/

/-- The seat with values in a row of registers. -/
def Seat.setRegs (x : Seat) (n : Nat) (vs : List Word) : Seat :=
  match vs with
  | [] => x
  | v :: vs => (x.setReg n v).setRegs (n + 1) vs

theorem Seat.reg_setRegs_outside {vs : List Word} {n r : Nat} (h : r < n ∨ n + vs.length ≤ r) (x : Seat) :
    (x.setRegs n vs).reg r = x.reg r := by
  induction vs generalizing n x with
  | nil => rfl
  | cons v vs ih =>
    rw [List.length_cons] at h
    rw [Seat.setRegs, ih (by omega), Seat.reg_setReg_ne _ (by omega)]

theorem Seat.reg_setRegs_inside {vs : List Word} {n i : Nat} (hn : n + vs.length ≤ 64) (hi : i < vs.length) (x : Seat) :
    (x.setRegs n vs).reg (n + i) = vs[i] := by
  induction vs generalizing n i x with
  | nil => cases hi
  | cons v vs ih =>
    rw [List.length_cons] at hn hi
    cases i with
    | zero => rw [Seat.setRegs, Seat.reg_setRegs_outside (by omega), Nat.add_zero, Seat.reg_setReg_self _ (by omega)]; rfl
    | succ i => rw [Seat.setRegs, ← Nat.add_assoc, Nat.add_right_comm, ih (by omega) (by omega)]; rfl

/-- A row of full scalars takes its values. -/
theorem writeScals_ok {n : Nat} {v : Word} {vs : List Word} {s : State} (hn : n + (vs.length + 1) ≤ 64)
    (hfull : ∀ i, i < vs.length + 1 → s.me.full (n + i) = true) :
    writeScals n (v :: vs) s = .ok () (s.modMe (fun x => x.setRegs n (v :: vs))) := by
  induction vs generalizing n v s with
  | nil => exact (M.bind_ok (writeScal_full (by omega) (hfull 0 Nat.one_pos))).trans rfl
  | cons w vs ih =>
    rw [List.length_cons] at hn hfull
    refine (M.bind_ok (writeScal_full (by omega) (hfull 0 (Nat.succ_pos _)))).trans ?_
    rw [ih (by omega) fun i hi => ?_, State.modMe_modMe]
    · rfl
    · rw [State.full_modMe s (fun x => x.setReg (n + 0) v) (fun _ => rfl), Nat.add_right_comm]
      exact hfull (i + 1) (by omega)

/-! ### SEND (R126, R338) -/

/-- A byte of words laid out one after another. -/
theorem getElem?_wordBytes (ws : List Nat) (i : Nat) :
    (wordBytes ws)[i]? = (ws[i / 8]?).map (fun v => BitVec.ofNat 8 (v / 256 ^ (i % 8))) := by
  induction ws generalizing i with
  | nil => rfl
  | cons v ws ih =>
    rw [wordBytes, List.flatMap_cons, ← wordBytes]
    by_cases hi : i < 8
    · have hlen : i < (leBytes v 8).length := by rwa [leBytes_length]
      rw [List.getElem?_append_left hlen, List.getElem?_eq_getElem hlen, leBytes_getElem, Nat.div_eq_of_lt hi, Nat.mod_eq_of_lt hi]
      rfl
    · have hdiv : i / 8 = (i - 8) / 8 + 1 := by omega
      have hmod : i % 8 = (i - 8) % 8 := by omega
      rw [List.getElem?_append_right (by rw [leBytes_length]; omega), leBytes_length, ih, hdiv, hmod, List.getElem?_cons_succ]

/-- A byte of a word, by division and by its bits. -/
theorem ofNat_div_eq_extractLsb' (v : Word) (i : Nat) : BitVec.ofNat 8 (v.toNat / 256 ^ i) = v.extractLsb' (8 * i) 8 := by
  have hpow : 256 ^ i = 2 ^ (8 * i) := (Nat.pow_mul 2 8 i).symm
  rw [hpow, ← Nat.shiftRight_eq_div_pow]
  rfl

/-- The words of the registers from m that hold len bytes (R338). -/
def Seat.sendWords (x : Seat) (m len : Nat) : List Nat := (upto ((len + 7) / 8)).map (fun i => (x.reg (m + i)).toNat)

theorem Seat.sendWords_length (x : Seat) (m len : Nat) : (x.sendWords m len).length = (len + 7) / 8 := by
  rw [Seat.sendWords, List.length_map, upto, List.length_range]

/-- The data of SEND's message: its bytes, with zeros behind them (R126). -/
def Seat.sendData (x : Seat) (m len : Nat) : List Byte := (wordBytes (x.sendWords m len)).take len ++ zeros (64 - len)

theorem Seat.sendData_eq (x : Seat) (m len : Nat) : x.sendData m len =
    (((upto ((len + 7) / 8)).map (fun i => x.reg (m + i))).flatMap (fun v => leBytes v.toNat 8)).take len ++ zeros (64 - len) := by
  simp only [Seat.sendData, wordBytes, Seat.sendWords, List.flatMap_map]

theorem Seat.getElem?_sendData (x : Seat) (m : Nat) {len i : Nat} (hi : i < len) :
    (x.sendData m len)[i]? = some ((x.reg (m + i / 8)).extractLsb' (8 * (i % 8)) 8) := by
  have hrow : i / 8 < (len + 7) / 8 := by omega
  have hword : (x.sendWords m len)[i / 8]? = some (x.reg (m + i / 8)).toNat := by
    rw [Seat.sendWords, List.getElem?_map, upto, List.getElem?_range hrow]
    rfl
  have hbyte : ((wordBytes (x.sendWords m len)).take len)[i]? = some ((x.reg (m + i / 8)).extractLsb' (8 * (i % 8)) 8) := by
    rw [List.getElem?_take_of_lt hi, getElem?_wordBytes, hword, Option.map_some, ofNat_div_eq_extractLsb']
  exact (List.getElem?_append_left (List.getElem?_eq_some_iff.mp hbyte).1).trans hbyte

theorem Seat.sendData_length (x : Seat) (m : Nat) {len : Nat} (hlen : len ≤ 64) : (x.sendData m len).length = 64 := by
  rw [Seat.sendData, List.length_append, List.length_take, wordBytes_length, Seat.sendWords_length, zeros, List.length_replicate]
  omega

/-- SEND once its header and its length are accepted: destination, seat and tag by the header's word (R126, R338). -/
def State.sent (s : State) (w lid m len : Nat) : State :=
  { s with
    accNum := s.accNum + 1
    msgs := s.msgs ++ [{ num := s.accNum, src := s.cur.core, seat := s.cur.seat, dest := w % 2 ^ 14, vdev := s.me.vdev, ref := false
                         msg := { lid := lid, src := s.cur.seat * 2 ^ 14 + s.cur.core, dseat := w / 2 ^ 14 % 4, len := len
                                  tag := BitVec.ofNat 32 (w / 2 ^ 16 % 2 ^ 32), data := s.me.sendData m len } }] }

section
variable {h : Head} {len n m : Nat} {xl : Bool} {q r : SrcMod} {fa fb : Bool} {s : State} (hg : guardOk h s.me = true)
  (hhnd : s.me.hnd = false) (hlo : 1 ≤ len) (hhi : len ≤ 64) (hn : n < 64) (heven : n % 2 = 0) (hfull : s.me.full n = true)
  (hfull1 : xl = true → s.me.full (n + 1) = true) (hm : m + (len + 7) / 8 ≤ 64)
  (hrow : ∀ i, i < (len + 7) / 8 → s.me.full (m + i) = true) (hw : (s.me.reg n).toNat < 2 ^ 48) (hlda : s.ldaOpen s.cur = false)
  (hmapped : s.mapped ((s.me.reg n).toNat % 2 ^ 14) = true) (hheld : s.holdsCore s.me.vdev ((s.me.reg n).toNat % 2 ^ 14) = true)
  (hroom : s.outgoing s.cur.core < 8)
include hg hhnd hlo hhi hn heven hfull hfull1 hm hrow hw hlda hmapped hheld hroom

theorem exec_send_ok : exec (.send h len xl (.scal n q fa) (.scal m r fb)) s = .next
    ((s.sent (s.me.reg n).toNat (if xl then (s.me.reg (n + 1)).toNat % 2 ^ 32 else s.me.lid) m len).advance h) := by
  refine issue_ok (u := ()) hg ?_
  have hhigh : (bitsAt (s.me.reg n).toNat 48 16 == 0) = true := by rw [bitsAt, Nat.div_eq_of_lt hw]; rfl
  have hdest : bitsAt (s.me.reg n).toNat 0 14 = (s.me.reg n).toNat % 2 ^ 14 := by simp [bitsAt]
  have hlid (k : Nat → M Unit) : (if xl then (do let v ← readScal 2 (n + 1) fa; pure (v.toNat % 2 ^ 32)) >>= k
      else pure s.me.lid >>= k) s = k (if xl then (s.me.reg (n + 1)).toNat % 2 ^ 32 else s.me.lid) s := by
    cases xl with
    | false => rfl
    | true => exact M.bind_ok ((M.bind_ok (readScal_full (by omega) (hfull1 rfl))).trans rfl)
  refine (M.bind_ok (noHandler_ok hhnd)).trans ((M.bind_ok (need_ok (by simp [hlo, hhi]))).trans ?_)
  refine (M.bind_ok (M.pure_eq (n, fa) s)).trans ((M.bind_ok (need_ok (by simpa using heven))).trans ?_)
  refine (M.bind_ok (readScal_full hn hfull)).trans ((M.bind_ok (me_eq s)).trans ((hlid _).trans ?_))
  refine (M.bind_ok (readRow_ok hm hrow)).trans ((M.bind_ok (need_ok hhigh)).trans ?_)
  simp only [M.bind_run, look_eq, hdest, hmapped, Bool.not_true, Bool.false_eq_true, if_false, hheld, need_true,
    afterLda_ok hlda, hroom, decide_true, waitFor_true, change_eq]
  rw [State.sent, Seat.sendData_eq]
  rfl
end

/-! ### RECV (R127, R339) -/

/-- The words that RECV writes: source, length and tag, then the data (R339). -/
def Msg.words (g : Msg) : List Word :=
  BitVec.ofNat 64 (g.src + g.len * 2 ^ 16 + g.tag.toNat * 2 ^ 32) ::
    (upto 8).map (fun i => BitVec.ofNat 64 (numAt g.data (8 * i) 8))

theorem Msg.words_length (g : Msg) : g.words.length = 9 := by
  rw [Msg.words, List.length_cons, List.length_map, upto, List.length_range]

/-- The state in which an entry has left the issuer's inbox. -/
def State.unbox (s : State) (g : Msg) : State := s.modMyCore (fun y => { y with inbox := y.inbox.erase g })

theorem State.me_unbox (s : State) (g : Msg) : (s.unbox g).me = s.me := s.me_modMyCore fun _ => rfl

/-- The entry has left the inbox for the thread's registers (R127). -/
def State.received (s : State) (d : Nat) (g : Msg) : State := (s.unbox g).modMe (fun x => x.setRegs d g.words)

theorem exec_recv_ok {h : Head} {d : Nat} {g : Msg} {s : State} (hg : guardOk h s.me = true) (hhnd : s.me.hnd = false) (hd : d ≤ 55)
    (hquiet : Say.BankQuiet s) (hfull : ∀ i, i < 9 → s.me.full (d + i) = true)
    (hfind : s.myCore.inbox.find? (fun x => x.dseat == s.cur.seat && x.lid == s.me.lid) = some g) :
    exec (.recv h d) s = .next ((s.received d g).advance h) := by
  obtain ⟨hlda, hbank⟩ := hquiet
  have hentry : s.myCore.inbox.find? (fun x => x.isFor s.cur.seat s.me.lid) = some g := hfind
  refine issue_ok (u := ()) hg ?_
  simp only [M.bind_run, noHandler_ok hhnd, hd, decide_true, need_true, afterLda_ok hlda, bankQuiet_ok hbank, look_eq, me_eq, hentry,
    change_eq]
  show writeScals d g.words (s.unbox g) = _
  have hlen : ((upto 8).map (fun i => BitVec.ofNat 64 (numAt g.data (8 * i) 8))).length = 8 := by
    rw [List.length_map, upto, List.length_range]
  exact writeScals_ok (by omega) fun i hi => by rw [State.me_unbox]; exact hfull i (by omega)

theorem State.me_received {d : Nat} {g : Msg} {s : State} (hseat : s.cur.seat < 4) :
    (s.received d g).me = s.me.setRegs d g.words := by
  rw [State.received, State.me_modMe _ (by exact hseat), State.me_unbox]

theorem State.inbox_received (d : Nat) (g : Msg) (s : State) : (s.received d g).myCore.inbox = s.myCore.inbox.erase g := by
  simp only [State.received, State.unbox, State.myCore, State.modMe, State.modSeat, State.modMyCore, State.modCore_cur, State.core_modCore_self,
    Core.modSeat_inbox]

theorem State.lmem_received (d : Nat) (g : Msg) (s : State) : (s.received d g).lmem = s.lmem := by
  rw [State.received, State.modMe_lmem, State.unbox, State.modMyCore_lmem]

section
variable {d : Nat} {g : Msg} {s : State} (hseat : s.cur.seat < 4)
include hseat

theorem State.reg_received_other {r : Nat} (hr : r < d ∨ d + 8 < r) : (s.received d g).me.reg r = s.me.reg r := by
  rw [State.me_received hseat, Seat.reg_setRegs_outside (by rw [Msg.words_length]; omega)]

variable (hd : d ≤ 55)
include hd

theorem State.reg_received {i : Nat} {v : Word} (hv : g.words[i]? = some v) : (s.received d g).me.reg (d + i) = v := by
  obtain ⟨hi, rfl⟩ := List.getElem?_eq_some_iff.mp hv
  rw [State.me_received hseat, Seat.reg_setRegs_inside (by rw [Msg.words_length]; omega) hi]

theorem State.reg_received_header :
    (s.received d g).me.reg d = BitVec.ofNat 64 (g.src + g.len * 2 ^ 16 + g.tag.toNat * 2 ^ 32) :=
  State.reg_received hseat hd (i := 0) (by rw [Msg.words, List.getElem?_cons_zero])

theorem State.reg_received_data {i : Nat} (hi : i < 8) :
    (s.received d g).me.reg (d + 1 + i) = BitVec.ofNat 64 (numAt g.data (8 * i) 8) := by
  rw [Nat.add_right_comm, Nat.add_assoc]
  refine State.reg_received hseat hd ?_
  rw [Msg.words, List.getElem?_cons_succ, List.getElem?_map, upto, List.getElem?_range hi, Option.map_some]
end

/-! ### Arrival (R127, R128) -/

section
variable {f : Flying} {s : State} (hfind : s.msgs.find? (fun x => x.num == f.num) = some f) (hdue : s.msgDue f = true)
  (hsaved : s.savedAt f.vdev f.dest = false)
include hfind hdue hsaved

theorem exec_messageArrival_due : exec (.messageArrival f.num) s = .next (s.deliverMsg f) := by
  show execMessageArrival f.num s = _
  rw [execMessageArrival, hfind]
  exact if_pos (by rw [hdue, hsaved]; rfl)
end

section
variable {f : Flying} {s : State}

theorem State.deliverMsg_of_no_launch (h : s.launch f.vdev f.msg.lid = none) : s.deliverMsg f =
    { s with msgs := s.msgs.filter (fun x => x.num != f.num) }.modCore f.dest (fun x => x.discard 1) := by
  simp only [State.deliverMsg, State.liveLid, h, Option.isSome_none, Bool.not_false, if_true]

variable (h : s.launch f.vdev f.msg.lid ≠ none)
include h

theorem State.deliverMsg_of_room (hroom : (s.core f.dest).inbox.length < 64) : s.deliverMsg f =
    { s with msgs := s.msgs.filter (fun x => x.num != f.num) }.modCore f.dest (fun x => { x with inbox := x.inbox ++ [f.msg] }) := by
  simp only [State.deliverMsg, State.liveLid, Option.isSome_iff_ne_none.mpr h, Bool.not_true, Bool.false_eq_true, if_false,
    Nat.not_le.mpr hroom]

theorem State.deliverMsg_of_full (hfull : 64 ≤ (s.core f.dest).inbox.length) : s.deliverMsg f =
    { s with msgs := s.msgs.map (fun x => if x.num = f.num then { x with ref := true } else x) } := by
  simp only [State.deliverMsg, State.liveLid, Option.isSome_iff_ne_none.mpr h, Bool.not_true, Bool.false_eq_true, if_false, hfull,
    if_true]
end

theorem messagesTravel : Say.messagesTravel := by
  intro h len n m d num xl q r fa fb f g s
  refine ⟨?send, fun hfind hdue hsaved => ?arrival, rfl, ?recv⟩
  case send =>
    intro hg hhnd hlo hhi hn heven hfull hfull1 hm hrow hw w dest hlda hmapped hheld hroom
    exact ⟨s.me.sendData m len, s.me.sendData_length m hhi, fun i hi => s.me.getElem?_sendData m hi,
      exec_send_ok hg hhnd hlo hhi hn heven hfull hfull1 hm hrow hw hlda hmapped hheld hroom⟩
  case arrival =>
    rw [exec_messageArrival_due hfind hdue hsaved]
    exact ⟨fun hl => congrArg _ (State.deliverMsg_of_no_launch hl), fun hl hroom => congrArg _ (State.deliverMsg_of_room hl hroom),
      fun hl hfull => congrArg _ (State.deliverMsg_of_full hl hfull)⟩
  case recv =>
    intro hg hhnd hd hquiet hseat hfull hfind
    exact ⟨s.received d g, exec_recv_ok hg hhnd hd hquiet hfull hfind, State.inbox_received d g s,
      State.reg_received_header hseat hd, fun i hi => State.reg_received_data hseat hd hi,
      fun r hr => State.reg_received_other hseat hr, State.lmem_received d g s⟩

/-! ### LAUNCH (R136, R337) -/

theorem launchSubmitsRecord : Say.launchSubmitsRecord := by
  intro h d va q a b bs s s1 s2 s3 s4 hg hhnd ha hb halign hq hquiet hread hd n s3' s3'' hsubmit
  obtain ⟨lid, hsubmit⟩ := hsubmit
  refine issue_ok (u := ()) hg ?_
  refine (M.bind_ok (noHandler_ok hhnd)).trans ((M.bind_ok ha).trans ((M.bind_ok hb).trans ((M.bind_ok (me_eq s2)).trans ?_)))
  refine (M.bind_ok (need_ok (by simpa using halign))).trans ((M.bind_ok (look_eq _ s2)).trans
    ((M.bind_ok (need_ok (decide_eq_true hq))).trans ((M.bind_ok (release_ok hquiet)).trans ((M.bind_ok (look_eq _ s2)).trans
    ((M.bind_ok hread).trans ((M.bind_ok (look_eq _ s3)).trans ((M.bind_ok (change_eq _ s3)).trans ?_)))))))
  cases d with
  | none => exact (M.bind_ok hsubmit).trans rfl
  | some r =>
    obtain ⟨hr, hfull⟩ := hd r rfl
    refine (M.bind_ok (writeScal_full hr ?_)).trans ((M.bind_ok hsubmit).trans rfl)
    rw [State.me_modMyCore _ fun _ => Core.setTl_seats ..]
    exact hfull

/-- Settles O32: a message's way by SEND, arrival, retry and RECV; LAUNCH past its checks to the record that it reads. -/
theorem launchAndMessages : Obligations.LaunchAndMessages := ⟨messagesTravel, launchSubmitsRecord⟩

end Sys2Proof.Machine
end

section
/-! PROOFS. The doorbell of a queue, and what each queue command does (R132 to R135, R188, R190, R394). -/
namespace Sys2Proof.Machine

/-! ### The doorbell and the enabling of a queue (R132) -/

section
variable {vd q : Nat} {s : State} (hport : s.portOpen vd = true) (hq : s.queueIs vd q = true)
include hport hq

theorem exec_doorbell_of_run {put : BitVec 32} (hrun : (s.queue vd q).state = .run) :
    let x := s.queue vd q
    let t := s.modQueue vd q (fun x => { x with qput := put.toNat })
    exec (.doorbell vd q put) s = .next (if x.qsize < (put.toNat + 2 ^ 32 - x.qget) % 2 ^ 32
      then t.modQueue vd q (fun x => { x with state := .error }) else t.settleQueue vd q) := by
  have hgo : ¬ (!s.portOpen vd ∨ !s.queueIs vd q ∨ (s.queue vd q).state ≠ .run) := by simp [hport, hq, hrun]
  refine (if_neg hgo).trans ?_
  split <;> rfl

theorem exec_queueEnable_of_idle (hidle : (s.queue vd q).state = .idle) :
    exec (.queueEnable vd q) s = .next (if s.domLive vd (s.queue vd q).qown
      then (s.modQueue vd q (fun x => { x with state := .run })).settleQueue vd q
      else s.modQueue vd q (fun x => { x with state := .error })) := by
  have hgo : ¬ (!s.portOpen vd ∨ !s.queueIs vd q ∨ (s.queue vd q).state ≠ .idle) := by simp [hport, hq, hidle]
  refine (if_neg hgo).trans ?_
  cases s.domLive vd (s.queue vd q).qown <;> rfl
end

/-! ### The command at the head of a queue (R133, R134) -/

theorem State.allStarted_iff {s : State} {vd q : Nat} : s.allStarted vd q = true ↔ Say.EarlierStarted s vd q := by
  simp only [State.allStarted, Say.EarlierStarted, List.all_eq_true]
  refine forall₂_congr fun l _ => ?_
  cases l.started <;> simp [or_iff_not_imp_left]

section
variable {vd q op off : Nat} {b : List Byte} {s : State} (hat : Say.AtCommand s vd q op b off)
include hat

/-- A queue that stands at a valid command has nothing to fetch or to reject. -/
theorem State.settleQueue_atCommand : s.settleQueue vd q = s := by
  obtain ⟨-, hrun, hcopy, hseg, hoff, -, hok⟩ := hat
  simp [State.settleQueue, hrun, hcopy, hseg, hoff, hok]

theorem State.command_atCommand : s.command vd q op = some (b, off) := by
  obtain ⟨hq, hrun, hcopy, hseg, hoff, hop, -⟩ := hat
  simp [State.command, hq, hrun, hcopy, hseg, hoff, hop]
end

/-! ### Each command (R134, R135) -/

section
variable {vd q off : Nat} {b : List Byte} {s : State}

theorem exec_qcmdEnd_ok (hat : Say.AtCommand s vd q 0 b off) : exec (.qcmdEnd vd q) s = .next ((s.modQueue vd q (fun x =>
    { x with qget := (x.qget + 1) % 2 ^ 32, seg := none, off := 0 })).settleQueue vd q) := by
  show execQcmdEnd vd q s = _
  simp only [execQcmdEnd, State.settleQueue_atCommand hat, State.command_atCommand hat]

/-- The launch that a LAUNCH command submits: its record, and where it lies (R33, R134). -/
def State.queuedLaunch (s : State) (vd q off : Nat) (b : List Byte) : Launch :=
  let x := s.queue vd q
  { lid := 0, vdev := vd, queue := q, base := x.qown, rcd := LRec.ofBytes ((b.drop (off + 8)).take 128)
    addr := (x.qbase * 4096 + 4096 * (x.qget % x.qsize) + off + 8) % 2 ^ 64 }

theorem exec_qcmdLaunch_ok {lid : Nat} {s1 : State} (hat : Say.AtCommand s vd q 1 b off)
    (hsubmit : submit (s.queuedLaunch vd q off b) s = .ok lid s1) :
    exec (.qcmdLaunch vd q) s = .next (s1.nextCommand vd q 16) := by
  show execQcmdLaunch vd q s = _
  rw [State.queuedLaunch] at hsubmit
  simp only [execQcmdLaunch, State.settleQueue_atCommand hat, State.command_atCommand hat, hsubmit]

/-- What a COPY command asks for (R134). -/
def copyAsked (b : List Byte) (off : Nat) : QCopy :=
  { src := numAt b (off + 8) 8, dst := numAt b (off + 16) 8, left := numAt b (off + 24) 8, seq := numAt b 0xFE8 8 }

theorem exec_qcmdCopy_eq (hat : Say.AtCommand s vd q 2 b off) : exec (.qcmdCopy vd q) s = .next (if s.allStarted vd q
    then (s.modQueue vd q (fun x => { x with copy := some (copyAsked b off) })).nextCommand vd q 4 else s) := by
  show execQcmdCopy vd q s = _
  simp only [execQcmdCopy, State.settleQueue_atCommand hat, State.command_atCommand hat]
  split <;> rfl

theorem exec_qcmdSignal_eq (hat : Say.AtCommand s vd q 3 b off) : exec (.qcmdSignal vd q) s = .next (if s.allStarted vd q
    then (s.writeQtl vd q (numAt b (off + 8) 7)).nextCommand vd q 1 else s) := by
  show execQcmdSignal vd q s = _
  simp only [execQcmdSignal, State.settleQueue_atCommand hat, State.command_atCommand hat]
  split <;> rfl

theorem exec_qcmdWait_eq (hat : Say.AtCommand s vd q 4 b off) : exec (.qcmdWait vd q) s = .next
    (if numAt b (off + 15) 1 = 255 ∨ tlMet (s.selTl vd (numAt b (off + 15) 1)) (numAt b (off + 8) 7)
      then s.nextCommand vd q 1 else s) := by
  show execQcmdWait vd q s = _
  simp only [execQcmdWait, State.settleQueue_atCommand hat, State.command_atCommand hat]
  split <;> rfl
end

/-! ### The parts of a COPY (R134; log 83) -/

/-- Bytes of a COPY's next part: up to the next 4 KiB boundary of its source or destination (log 83). -/
def QCopy.part (y : QCopy) : Nat := min y.left (min (4096 - y.src % 4096) (4096 - y.dst % 4096))

/-- One part of a COPY: read, then written. -/
def copyPart (w : Who) (y : QCopy) : M Unit := do
  let b ← unitRead none w y.src y.part
  unitWrite none w y.dst b

section
variable {vd q : Nat} {y : QCopy} {s : State} (hy : (s.queue vd q).copy = some y)
include hy

theorem exec_copyCommandComplete_fault {tr : Trap} {t : State} (hpart : copyPart (s.qWho vd q) y s = .error (.trap tr) t) :
    exec (.copyCommandComplete vd q) s =
      .next ((s.modQueue vd q (fun x => { x with copy := none })).rejectQueue vd q y.seq 4) := by
  show execCopyCommandComplete vd q s = _
  rw [copyPart, QCopy.part] at hpart
  simp only [execCopyCommandComplete, hy, hpart]

theorem exec_copyCommandComplete_part {t : State} (hpart : copyPart (s.qWho vd q) y s = .ok () t) :
    exec (.copyCommandComplete vd q) s = .next (if y.left ≤ y.part
      then (t.modQueue vd q (fun x => { x with copy := none })).settleQueue vd q
      else t.modQueue vd q (fun x => { x with copy := some { y with
        src := (y.src + y.part) % 2 ^ 64, dst := (y.dst + y.part) % 2 ^ 64, left := y.left - y.part } })) := by
  show execCopyCommandComplete vd q s = _
  rw [copyPart, QCopy.part] at hpart
  simp only [execCopyCommandComplete, hy, hpart]
  unfold QCopy.part
  split <;> rfl
end

/-- Settles O47: the queue's registers, then each command from the state in which the queue stands at it, then a COPY's parts. -/
theorem queueCommands : Obligations.QueueCommands := by
  intro vd q off lid put b bs y tr s s1 s2
  refine ⟨fun hport hq => ⟨fun hrun => ⟨fun hfits => ?_, fun hover => ?_⟩, fun hidle => ⟨fun hlive => ?_, fun hdead => ?_⟩⟩,
    exec_qcmdEnd_ok, exec_qcmdLaunch_ok, fun hat hstarted => ?_, fun hat hstarted => ?_,
    fun hlate => ⟨fun hat => ?_, fun hat => ?_⟩, fun hat => ⟨fun hmet => ?_, fun hsel hnot => ?_⟩, fun hy => ⟨fun hread => ?_,
    fun hread hwrite => ⟨fun hlast => ?_, fun hmore => ?_⟩⟩⟩
  · exact (exec_doorbell_of_run hport hq hrun).trans (congrArg _ (if_neg (Nat.not_lt.mpr hfits)))
  · exact (exec_doorbell_of_run hport hq hrun).trans (congrArg _ (if_pos hover))
  · exact (exec_queueEnable_of_idle hport hq hidle).trans (congrArg _ (if_pos hlive))
  · exact (exec_queueEnable_of_idle hport hq hidle).trans (congrArg _ (if_neg (Bool.eq_false_iff.mp hdead)))
  · exact (exec_qcmdCopy_eq hat).trans (congrArg _ (if_pos (State.allStarted_iff.mpr hstarted)))
  · exact (exec_qcmdSignal_eq hat).trans (congrArg _ (if_pos (State.allStarted_iff.mpr hstarted)))
  · exact (exec_qcmdCopy_eq hat).trans (congrArg _ (if_neg (mt State.allStarted_iff.mp hlate)))
  · exact (exec_qcmdSignal_eq hat).trans (congrArg _ (if_neg (mt State.allStarted_iff.mp hlate)))
  · exact (exec_qcmdWait_eq hat).trans (congrArg _ (if_pos hmet))
  · exact (exec_qcmdWait_eq hat).trans (congrArg _ (if_neg (by simp [hsel, hnot])))
  · exact exec_copyCommandComplete_fault hy (M.bind_error hread)
  · exact (exec_copyCommandComplete_part hy ((M.bind_ok hread).trans hwrite)).trans (congrArg _ (if_pos hlast))
  · exact (exec_copyCommandComplete_part hy ((M.bind_ok hread).trans hwrite)).trans (congrArg _ (if_neg (Nat.not_le.mpr hmore)))

end Sys2Proof.Machine
end

section
/-! PROOFS. Host writes of registers, the quota interface, and loads (R132, R168 to R170, R384, R389, R390, R394, R396, R408, R411). -/
namespace Sys2Proof.Machine

/-! ### Where a write goes (R394, R402, R408) -/

/-- A register of BAR0 is no counter, none of the physical function's, and not QKILL. -/
theorem inBar0_apart {r : HostReg} (hr : inBar0 r = true) : isCounter r = false ∧ pfOnly r = false ∧ r ≠ .qkill := by
  revert hr
  cases r <;> decide

theorem not_isCounter_of_pfOnly {r : HostReg} (hr : pfOnly r = true) : isCounter r = false := by
  revert hr
  cases r <;> decide

section
variable {r : HostReg} {vd q : Nat} {v : BitVec 64} {s u : State}

theorem exec_registerWrite_counter (hr : isCounter r = true) (hu : s.writeReg r vd q v.toNat = u) :
    exec (.registerWrite r vd q v) s = .next u := hu ▸ if_pos hr

/-- A closed port, and a register that the function does not have, perform nothing. -/
theorem exec_registerWrite_refused (hr : isCounter r = false) (h : s.portOpen vd = false ∨ pfOnly r = true ∧ vd ≠ 0) :
    exec (.registerWrite r vd q v) s = .next s := by
  have hno : !s.portOpen vd ∨ (pfOnly r ∧ vd ≠ 0) := by simpa using h
  exact (if_neg (Bool.eq_false_iff.mp hr)).trans (if_pos hno)

variable (hport : s.portOpen vd = true)
include hport

theorem exec_registerWrite_qkill (hr : r = .qkill) (hgo : v.getLsbD 63 = true) (hidle : (s.queue vd q).qkstat ≠ 1) :
    exec (.registerWrite r vd q v) s = exec (.queueKill vd q (v.getLsbD 8)) s := by
  have hcounter : ¬ isCounter r := by simp [hr, isCounter]
  have hyes : ¬ (!s.portOpen vd ∨ (pfOnly r ∧ vd ≠ 0)) := by simp [hport, hr, pfOnly]
  exact (if_neg hcounter).trans ((if_neg hyes).trans (if_pos ⟨hr, hgo, hidle⟩))

/-- Outside BAR0 a write takes effect by the register's own rule. -/
theorem exec_registerWrite_plain (hr : isCounter r = false) (hbar : inBar0 r = false) (hpf : pfOnly r = true → vd = 0)
    (hkill : r = .qkill → v.getLsbD 63 = false ∨ (s.queue vd q).qkstat = 1) (hu : s.writeReg r vd q v.toNat = u) :
    exec (.registerWrite r vd q v) s = .next u := by
  have hyes : ¬ (!s.portOpen vd ∨ (pfOnly r ∧ vd ≠ 0)) := by simpa [hport] using hpf
  have hnokill : ¬ (r = .qkill ∧ v.getLsbD 63 ∧ (s.queue vd q).qkstat ≠ 1) := fun ⟨hq, hgo, hidle⟩ =>
    (hkill hq).elim (fun h => Bool.false_ne_true (h.symm.trans hgo)) hidle
  exact hu ▸ (if_neg (Bool.eq_false_iff.mp hr)).trans ((if_neg hyes).trans ((if_neg hnokill).trans (if_neg (Bool.eq_false_iff.mp hbar))))

variable (hbar : inBar0 r = true)
include hbar

/-- In BAR0 the state of the interface decides. -/
theorem exec_registerWrite_bar0 : exec (.registerWrite r vd q v) s = .next (match (s.vd vd).tdi with
    | .unlocked => s.writeReg r vd q v.toNat
    | .error => s
    | _ => s.tdiError vd) := by
  obtain ⟨hr, hpf, hkill⟩ := inBar0_apart hbar
  have hyes : ¬ (!s.portOpen vd ∨ (pfOnly r ∧ vd ≠ 0)) := by simp [hport, hpf]
  refine (if_neg (Bool.eq_false_iff.mp hr)).trans ((if_neg hyes).trans ((if_neg (fun h => hkill h.1)).trans ((if_pos hbar).trans ?_)))
  cases (s.vd vd).tdi <;> rfl

theorem exec_registerWrite_unlocked (htdi : (s.vd vd).tdi = .unlocked) (hu : s.writeReg r vd q v.toNat = u) :
    exec (.registerWrite r vd q v) s = .next u := by
  rw [exec_registerWrite_bar0 hport hbar, htdi, ← hu]

theorem exec_registerWrite_locked (htdi : (s.vd vd).tdi = .locked ∨ (s.vd vd).tdi = .run) :
    exec (.registerWrite r vd q v) s = .next (s.tdiError vd) := by
  rw [exec_registerWrite_bar0 hport hbar]
  rcases htdi with h | h <;> rw [h]

theorem exec_registerWrite_error (htdi : (s.vd vd).tdi = .error) : exec (.registerWrite r vd q v) s = .next s := by
  rw [exec_registerWrite_bar0 hport hbar, htdi]
end

theorem State.tdi_tdiError {s : State} {vd : Nat} (h : s.listsWait (s.launches.filter (fun l => l.vdev == vd)) = none) :
    ((s.tdiError vd).vd vd).tdi = .error := by
  rw [State.tdiError, h, State.vd_modVd_self]

/-! ### The register's own rule (R132, R384, R389, R394, R403) -/

section
variable {s : State} {vd q : Nat}

theorem State.queueReg_ok {idle : Bool} {f : Queue → Queue} (hq : s.queueRegs vd q = true)
    (hidle : idle = true → (s.queue vd q).state = .idle) : s.queueReg vd q idle f = s.modQueue vd q f := by
  have hok : (s.queueRegs vd q && (!idle || (s.queue vd q).state == .idle)) = true := by
    cases idle with
    | false => simp [hq]
    | true => simp [hq, hidle rfl]
  exact if_pos hok

theorem State.queueReg_busy {f : Queue → Queue} (h : (s.queue vd q).state ≠ .idle) : s.queueReg vd q true f = s := by
  have hno : (s.queueRegs vd q && (!true || (s.queue vd q).state == .idle)) = false := by simp [h]
  exact if_neg (Bool.eq_false_iff.mp hno)

theorem State.loadReg_ok {f : Loader → Loader} (h : (s.vd vd).loader.ldstate ≠ 1) :
    s.loadReg vd f = s.modVd vd (fun y => { y with loader := f y.loader }) := if_neg h

theorem State.loadReg_busy {f : Loader → Loader} (h : (s.vd vd).loader.ldstate = 1) : s.loadReg vd f = s := if_pos h

theorem State.propReg_ok {f : Proposal → Proposal} (h : (s.vd vd).prop.cpstat ≠ 1) :
    s.propReg vd f = s.modVd vd (fun y => { y with prop := f y.prop }) := if_neg h

theorem State.propReg_busy {f : Proposal → Proposal} (h : (s.vd vd).prop.cpstat = 1) : s.propReg vd f = s := if_pos h

/-- The read-only registers of BAR0. -/
theorem State.writeReg_readOnly {r : HostReg} (hr : r ∈ [HostReg.qkey, .ldstate, .lderr, .ldsel, .ldrev, .ldused, .cpstat, .cpdone])
    (v : Nat) : inBar0 r = true ∧ s.writeReg r vd q v = s := by
  simp only [List.mem_cons, List.not_mem_nil, or_false] at hr
  rcases hr with rfl | rfl | rfl | rfl | rfl | rfl | rfl | rfl <;> exact ⟨rfl, rfl⟩
end

section
variable {s : State} {vd q : Nat} (v : BitVec 64)

/-- Of an idle queue QBASE, QOWN, QSEQ and QSIZE can be written, the last within its limits (R132; log 63). -/
theorem State.writeReg_idleQueue (hq : s.queueRegs vd q = true) (hidle : (s.queue vd q).state = .idle) :
    s.writeReg .qbase vd q v.toNat = s.modQueue vd q (fun x => { x with qbase := v.toNat / 4096 }) ∧
    s.writeReg .qown vd q v.toNat = s.modQueue vd q (fun x => { x with qown := v.toNat % 2 ^ 16 }) ∧
    s.writeReg .qseq vd q v.toNat = s.modQueue vd q (fun x => { x with qseq := v.toNat }) ∧
    s.writeReg .qsize vd q v.toNat =
      if 1 ≤ v.toNat ∧ v.toNat ≤ 4096 then s.modQueue vd q (fun x => { x with qsize := v.toNat }) else s := by
  have hbase : v.toNat / 4096 % 2 ^ 52 = v.toNat / 4096 := Nat.mod_eq_of_lt (by have := v.isLt; omega)
  have hseq : v.toNat % 2 ^ 64 = v.toNat := Nat.mod_eq_of_lt v.isLt
  simp only [State.writeReg, State.queueReg_ok hq (fun _ => hidle), hbase, hseq, and_self]

theorem State.writeReg_busyQueue (hbusy : (s.queue vd q).state ≠ .idle) :
    s.writeReg .qbase vd q v.toNat = s ∧ s.writeReg .qown vd q v.toNat = s ∧ s.writeReg .qseq vd q v.toNat = s ∧
    s.writeReg .qsize vd q v.toNat = s := by
  simp only [State.writeReg, State.queueReg_busy hbusy, ite_self, and_self]

/-- The load registers, LDDST at multiples of 65,536 (R384; log 63). -/
theorem State.writeReg_load (h : (s.vd vd).loader.ldstate ≠ 1) :
    let put := fun (f : Loader → Loader) => s.modVd vd (fun y => { y with loader := f y.loader })
    s.writeReg .ldsrc vd q v.toNat = put (fun x => { x with ldsrc := v }) ∧
    s.writeReg .lddst vd q v.toNat = (if v.toNat % 65536 = 0 then put (fun x => { x with lddst := v }) else s) ∧
    s.writeReg .ldlen vd q v.toNat = put (fun x => { x with ldlen := v }) ∧
    s.writeReg .ldcap vd q v.toNat = put (fun x => { x with ldcap := v }) ∧
    s.writeReg .ldsig vd q v.toNat = put (fun x => { x with ldsig := v }) := by
  simp only [State.writeReg, State.loadReg_ok h, BitVec.ofNat_toNat, BitVec.setWidth_eq, and_self]

theorem State.writeReg_busyLoad (h : (s.vd vd).loader.ldstate = 1) :
    s.writeReg .ldsrc vd q v.toNat = s ∧ s.writeReg .lddst vd q v.toNat = s ∧ s.writeReg .ldlen vd q v.toNat = s ∧
    s.writeReg .ldcap vd q v.toNat = s ∧ s.writeReg .ldsig vd q v.toNat = s := by
  simp only [State.writeReg, State.loadReg_busy h, ite_self, and_self]

/-- The proposal registers, CPKIND at PAGE and DOMAIN alone (R403; log 63). -/
theorem State.writeReg_proposal (h : (s.vd vd).prop.cpstat ≠ 1) :
    let put := fun (f : Proposal → Proposal) => s.modVd vd (fun y => { y with prop := f y.prop })
    s.writeReg .cpkind vd q v.toNat =
      (if v.toNat % 4 = 1 ∨ v.toNat % 4 = 2 then put (fun x => { x with cpkind := v.toNat % 4 }) else s) ∧
    s.writeReg .cppage vd q v.toNat = put (fun x => { x with cppage := v.toNat % 2 ^ 26 }) ∧
    s.writeReg .cpcnt vd q v.toNat = put (fun x => { x with cpcnt := v.toNat % 2 ^ 16 }) ∧
    s.writeReg .cpent vd q v.toNat = put (fun x => { x with cpent := v }) ∧
    s.writeReg .cproot vd q v.toNat = put (fun x => { x with cproot := v }) := by
  simp only [State.writeReg, State.propReg_ok h, BitVec.ofNat_toNat, BitVec.setWidth_eq, and_self]

theorem State.writeReg_busyProposal (h : (s.vd vd).prop.cpstat = 1) :
    s.writeReg .cpkind vd q v.toNat = s ∧ s.writeReg .cppage vd q v.toNat = s ∧ s.writeReg .cpcnt vd q v.toNat = s ∧
    s.writeReg .cpent vd q v.toNat = s ∧ s.writeReg .cproot vd q v.toNat = s := by
  simp only [State.writeReg, State.propReg_busy h, ite_self, and_self]

/-- The registers of the physical function (R389, R409, R411; log 63). -/
theorem State.writeReg_physical :
    let put := fun (f : Module → Module) => s.modModule f
    s.writeReg .qtsel vd q v.toNat = (if s.modl.qtstat = 1 then s else put (fun m => { m with qtsel := v.toNat % 16 })) ∧
    s.writeReg .qtimg vd q v.toNat = (if s.modl.qtstat = 1 ∨ v.toNat % 128 ≠ 0 then s else put (fun m => { m with qtimg := v })) ∧
    s.writeReg .dbgsrc vd q v.toNat = put (fun m => { m with dbgsrc := v }) ∧
    s.writeReg .fwsel vd q v.toNat =
      (if 1 ≤ v.toNat ∧ v.toNat ≤ 6 then put (fun m => { m with fwsel := v.toNat }) else s) ∧
    s.writeReg .fwsrc vd q v.toNat = put (fun m => { m with fwsrc := v }) ∧
    s.writeReg .fwlen vd q v.toNat = put (fun m => { m with fwlen := v }) := by
  simp only [State.writeReg, BitVec.ofNat_toNat, BitVec.setWidth_eq, and_self]

/-- A counter is written 0 or not at all (R186, R194). -/
theorem State.writeReg_counter {r : HostReg} (hr : isCounter r = true) (hv : v ≠ 0) : s.writeReg r vd q v.toNat = s := by
  have hv : v.toNat ≠ 0 := fun h => hv (BitVec.eq_of_toNat_eq h)
  revert hr
  cases r <;> simp [isCounter, State.writeReg, hv]
end

/-! ### Loads (R384, R385, R388) -/

theorem bitAt_toNat (v : Word) (i : Nat) : bitAt v.toNat i = v.getLsbD i := by
  rw [bitAt, BitVec.getLsbD, Nat.testBit_eq_decide_div_mod_eq]
  rfl

section
variable {s t : State} {vd : Nat}

theorem exec_loadGo_ok (hport : s.portOpen vd = true) (h : (s.vd vd).loader.ldstate ≠ 1) : exec (.loadGo vd) s = .next
    (if (s.quota vd).active then s.modVd vd (fun y => { y with loader := { y.loader with ldctl := false, ldstate := 1, lderr := 0 } })
      else s.modVd vd (fun y => { y with loader := { y.loader with ldstate := 3, lderr := 5 } })) := by
  have hgo : ¬ (!s.portOpen vd ∨ (s.vd vd).loader.ldstate = 1) := by simp [hport, h]
  refine (if_neg hgo).trans ?_
  simp only [State.loadReg_ok h]
  cases (s.quota vd).active <;> rfl

/-- The device whose load has ended as done, with the bytes used. -/
def State.loadDone (t : State) (vd n : Nat) : State :=
  t.modVd vd (fun y => { y with loader := { y.loader with ldstate := 2, ldused := BitVec.ofNat 64 n } })

variable (hbusy : (s.vd vd).loader.ldstate = 1)
include hbusy

theorem exec_loadComplete_error {code : Nat} (h : loadRun vd s = .ok (.error code) t) : exec (.loadComplete vd) s =
    .next (t.modVd vd (fun y => { y with loader := { y.loader with ldstate := 3, lderr := code } })) := by
  refine (if_neg (not_not.mpr hbusy)).trans ?_
  simp only [h]

variable {n : Nat} (h : loadRun vd s = .ok (.ok n) t)
include h

theorem exec_loadComplete_silent (hsig : (t.vd vd).loader.ldsig.getLsbD 63 = false) :
    exec (.loadComplete vd) s = .next (t.loadDone vd n) := by
  refine (if_neg (not_not.mpr hbusy)).trans ?_
  simp only [h, bitAt_toNat, hsig, Bool.false_eq_true, false_and, if_false]
  rfl

theorem exec_loadComplete_signals (hsig : (t.vd vd).loader.ldsig.getLsbD 63 = true)
    (hq : t.queueIs vd ((t.vd vd).loader.ldsig.toNat / 2 ^ 56 % 64) = true) :
    exec (.loadComplete vd) s = .next ((t.loadDone vd n).writeQtl vd ((t.vd vd).loader.ldsig.toNat / 2 ^ 56 % 64)
      ((t.vd vd).loader.ldsig.toNat % 2 ^ 56)) := by
  have hsel (g : Nat) : bitsAt g 56 6 = g / 2 ^ 56 % 64 := rfl
  have hval (g : Nat) : bitsAt g 0 56 = g % 2 ^ 56 := by rw [bitsAt, pow_zero, Nat.div_one]
  refine (if_neg (not_not.mpr hbusy)).trans ?_
  simp only [h, bitAt_toNat, hsig, hsel, hval, hq, and_self, if_true]
  rfl
end

/-! ### The quota interface (R168 to R170, R389, R390) -/

theorem State.dpaHome_modModule (s : State) (f : Module → Module) (vd dpa : Nat) :
    (s.modModule f).dpaHome vd dpa = s.dpaHome vd dpa := rfl

theorem State.dpaAddr_modModule (s : State) (f : Module → Module) (vd dpa : Nat) :
    (s.modModule f).dpaAddr vd dpa = s.dpaAddr vd dpa := by
  rw [State.dpaAddr, State.dpaHome_modModule, State.dpaAddr]

theorem State.devRead_modModule (s : State) (f : Module → Module) (vd dpa n : Nat) :
    (s.modModule f).devRead vd dpa n = s.devRead vd dpa n := by
  induction n generalizing dpa with
  | zero => rfl
  | succ n ih =>
    simp only [State.devRead, ih, State.dpaAddr_modModule, State.modModule_dram]

/-- Poison of device memory depends on the poisoned lines and the places of addresses alone. -/
theorem State.devPoisoned_congr {s t : State} {vd : Nat} (hp : t.dpoison = s.dpoison) (ha : ∀ a, t.dpaAddr vd a = s.dpaAddr vd a)
    (dpa n : Nat) : t.devPoisoned vd dpa n = s.devPoisoned vd dpa n := by
  simp only [State.devPoisoned, hp, ha]

/-- The quota image that QTIMG names; none where it is poisoned or cannot be read (R389). -/
def State.quotaImage (s : State) : Option (List Byte) :=
  if s.devPoisoned 0 s.modl.qtimg.toNat 128 then none else s.devRead 0 s.modl.qtimg.toNat 128

theorem State.quotaImage_eq_none {s : State}
    (h : s.devPoisoned 0 s.modl.qtimg.toNat 128 = true ∨ s.devRead 0 s.modl.qtimg.toNat 128 = none) : s.quotaImage = none := by
  rw [State.quotaImage]
  split
  · rfl
  · exact h.resolve_left ‹_›

theorem State.quotaImage_eq_some {s : State} {b : List Byte} (hclean : s.devPoisoned 0 s.modl.qtimg.toNat 128 = false)
    (h : s.devRead 0 s.modl.qtimg.toNat 128 = some b) : s.quotaImage = some b := by
  rw [State.quotaImage, if_neg (Bool.eq_false_iff.mp hclean), h]

/-- The state in which QTCMD holds its command. -/
def State.quotaCommand (s : State) (n : Nat) : State := s.modModule (fun m => { m with qtcmd := n })

theorem State.modModule_qtcmd (s : State) (n : Nat) : s.modModule (fun m => { m with qtcmd := n }) = s.quotaCommand n := rfl

/-- The state in which a device has the quota of an image. -/
def State.setQuota (s : State) (d : Nat) (b : List Byte) : State :=
  { s with quotas := mapPut d (Quota.ofBytes b (s.quota d)) s.quotas }

theorem State.active_setQuota (s : State) (d : Nat) (b : List Byte) :
    ((s.setQuota d b).quota d).active = bitAt (numAt b 0 1) 0 := by
  rw [State.setQuota, State.quota, mapGet_mapPut_self]
  rfl

theorem exec_quotaWrite_refused {s : State} (h : s.portOpen 0 = false ∨ s.modl.qtstat = 1) : exec .quotaWrite s = .next s :=
  if_pos (by simpa using h)

section
variable {s : State} (hport : s.portOpen 0 = true) (hidle : s.modl.qtstat ≠ 1)
include hport hidle

/-- A WRITE by its image: its code where it fails a check, else the rows move, once a device that it makes can be made. -/
theorem exec_quotaWrite_eq : exec .quotaWrite s =
    let d := s.modl.qtsel
    let s0 := s.quotaCommand 1
    let code := s0.quotaCode d s.quotaImage
    match s.quotaImage with
    | none => .next (s0.qtDone code)
    | some b =>
      if code ≠ 0 then .next (s0.qtDone code)
      else
        let old := s.quota d
        let s1 := s0.setQuota d b
        let made := (s1.quota d).active && !old.active
        if made && s1.tablesHeld d then .next s
        else .next ((((if made then s1.createVd d else s1).moveRows d (if old.active then old.rows else 0) made).dlThrottle d).qtDone
          0) := by
  have hgo : ¬ (!s.portOpen 0 ∨ s.modl.qtstat = 1) := by simp [hport, hidle]
  have himg : (if (s.modModule (fun m => { m with qtcmd := 1 })).devPoisoned 0 s.modl.qtimg.toNat 128 then none
      else (s.modModule (fun m => { m with qtcmd := 1 })).devRead 0 s.modl.qtimg.toNat 128) = s.quotaImage := by
    rw [State.devRead_modModule, State.devPoisoned_congr (s.modModule_dpoison _) (s.dpaAddr_modModule _ 0), State.quotaImage]
  refine (if_neg hgo).trans ?_
  dsimp only
  rw [himg]
  generalize s.quotaImage = img
  cases img <;> rfl

theorem exec_quotaWrite_unread (himg : s.quotaImage = none) :
    exec .quotaWrite s = .next ((s.quotaCommand 1).qtDone (if s.modl.qtsel = 0 then 7 else 8)) := by
  rw [exec_quotaWrite_eq hport hidle, himg]
  rfl

variable {b : List Byte} (himg : s.quotaImage = some b)
include himg

theorem exec_quotaWrite_bad (hcode : (s.quotaCommand 1).quotaCode s.modl.qtsel (some b) ≠ 0) : exec .quotaWrite s =
    .next ((s.quotaCommand 1).qtDone ((s.quotaCommand 1).quotaCode s.modl.qtsel (some b))) := by
  rw [exec_quotaWrite_eq hport hidle, himg]
  exact if_pos hcode

variable (hcode : (s.quotaCommand 1).quotaCode s.modl.qtsel (some b) = 0)
include hcode

theorem exec_quotaWrite_changes (hold : (s.quota s.modl.qtsel).active = true) : exec .quotaWrite s =
    .next (((((s.quotaCommand 1).setQuota s.modl.qtsel b).moveRows s.modl.qtsel (s.quota s.modl.qtsel).rows false).dlThrottle
      s.modl.qtsel).qtDone 0) := by
  rw [exec_quotaWrite_eq hport hidle, himg]
  refine (if_neg (not_not.mpr hcode)).trans ?_
  simp only [hold, Bool.not_true, Bool.and_false, Bool.false_and, Bool.false_eq_true, if_false, if_true]

theorem exec_quotaWrite_creates (hold : (s.quota s.modl.qtsel).active = false) (hnew : numAt b 0 1 % 2 = 1) : exec .quotaWrite s =
    let s1 := (s.quotaCommand 1).setQuota s.modl.qtsel b
    if s1.tablesHeld s.modl.qtsel then .next s
    else .next ((((s1.createVd s.modl.qtsel).moveRows s.modl.qtsel 0 true).dlThrottle s.modl.qtsel).qtDone 0) := by
  have hmade : (((s.quotaCommand 1).setQuota s.modl.qtsel b).quota s.modl.qtsel).active = true := by
    rw [State.active_setQuota]
    simp [bitAt, hnew]
  rw [exec_quotaWrite_eq hport hidle, himg]
  refine (if_neg (not_not.mpr hcode)).trans ?_
  simp only [hold, hmade, Bool.not_false, Bool.and_true, Bool.true_and, Bool.false_eq_true, if_false, if_true]
end

/-! ### Teardown (R389, R390; log 70) -/

/-- A device whose teardown has begun, now or before: its pages are being reclaimed (R390). -/
def State.tearing (s : State) : State :=
  if s.modl.qtstat = 1 then s
  else (((s.quotaCommand 2).teardown s.modl.qtsel).reclaimAll (fun o => o.vdev == s.modl.qtsel)).qtDone 1

/-- A device whose pages have been reclaimed is gone (R390). -/
def State.tornDown (s : State) (d : Nat) : State :=
  (({ s.eraseKeys d with quotas := mapPut d { s.quota d with active := false } s.quotas } : State).moveRows d (s.quota d).rows
    false).qtDone 0

theorem exec_quotaTeardown_refused {s : State} (h : s.portOpen 0 = false) : exec .quotaTeardown s = .next s := by
  show execQuotaTeardown s = _
  simp [execQuotaTeardown, h]

section
variable {s : State} (hport : s.portOpen 0 = true)
include hport

theorem exec_quotaTeardown_eq (hd : s.modl.qtsel ≠ 0) : exec .quotaTeardown s =
    .next (if s.tearing.reclaiming s.modl.qtsel then s.tearing else s.tearing.tornDown s.modl.qtsel) := by
  have hopen : ¬ (!s.portOpen 0) = true := by simp [hport]
  have hopen' : ¬ (!(s.quotaCommand 2).portOpen 0) = true := hopen
  show execQuotaTeardown s = _
  by_cases hbusy : s.modl.qtstat = 1
  · simp only [execQuotaTeardown, State.tearing, hbusy, not_true_eq_false, and_false, if_false, if_true, if_neg hopen, if_neg hd]
    split <;> rfl
  · have hbusy' : ¬ (s.quotaCommand 2).modl.qtstat = 1 := hbusy
    simp only [execQuotaTeardown, State.tearing, State.modModule_qtcmd, hport, hbusy, not_false_eq_true, and_self, if_true, if_neg hopen',
      if_neg hd, if_false, if_neg hbusy']
    split <;> rfl

theorem exec_quotaTeardown_root (hd : s.modl.qtsel = 0) (hidle : s.modl.qtstat ≠ 1) :
    exec .quotaTeardown s = .next ((s.quotaCommand 2).qtDone 7) := by
  have hopen : ¬ (!(s.quotaCommand 2).portOpen 0) = true := by
    show ¬ (!s.portOpen 0) = true
    simp [hport]
  have hidle' : ¬ (s.quotaCommand 2).modl.qtstat = 1 := hidle
  show execQuotaTeardown s = _
  simp only [execQuotaTeardown, State.modModule_qtcmd, hport, hidle, not_false_eq_true, and_self, if_true, if_neg hopen, hd, if_neg hidle']
end

/-! ### The statement -/

/-- Settles O49: a write by its register's place and the state that refuses it, then the quota interface and the loader by theirs. -/
theorem hostRegistersAndLoads : Obligations.HostRegistersAndLoads := by
  intro vd q n v r b s t x wr
  refine ⟨fun hport => ?opened, fun hport hr => exec_registerWrite_refused hr (.inl hport), fun hv hr =>
    exec_registerWrite_counter hr (State.writeReg_counter v hr hv), ?counters, fun h => if_neg ?_, fun hvd hport => if_pos ⟨hvd, hport⟩,
    fun hbusy => ?load, exec_quotaWrite_refused, fun hport hidle => ?write, exec_quotaTeardown_refused, fun hport hd => ?teardown,
    exec_quotaTeardown_root⟩
  case opened =>
    have bar {r : HostReg} {u : State} (hbar : inBar0 r = true) (htdi : (s.vd vd).tdi = .unlocked)
        (hu : s.writeReg r vd q v.toNat = u) : wr r u := exec_registerWrite_unlocked hport hbar htdi hu
    refine ⟨fun htdi hq hidle => ?_, fun htdi hbusy => ?_, fun hq => ?_, fun hq hgo => ?_, exec_registerWrite_qkill hport rfl,
      fun htdi r hr => ?_, fun htdi hload => ?_, fun htdi hload => ?_, fun htdi hprop => ?_, fun htdi hprop => ?_, fun hpf hvd => ?_,
      fun hvd => ?_, fun hbar _ _ htdi => ?_, fun hbar _ htdi => exec_registerWrite_error hport hbar htdi, fun hload hactive => ?_,
      fun hload hactive => ?_⟩
    · obtain ⟨hbase, hown, hseq, hsize⟩ := State.writeReg_idleQueue v hq hidle
      exact ⟨bar rfl htdi hbase, bar rfl htdi hown, bar rfl htdi hseq, fun hlo hhi => bar rfl htdi (hsize.trans (if_pos ⟨hlo, hhi⟩)),
        fun hout => bar rfl htdi (hsize.trans (if_neg (by omega)))⟩
    · obtain ⟨hbase, hown, hseq, hsize⟩ := State.writeReg_busyQueue v hbusy
      exact ⟨bar rfl htdi hbase, bar rfl htdi hown, bar rfl htdi hseq, bar rfl htdi hsize⟩
    · exact exec_registerWrite_plain hport rfl rfl nofun nofun (State.queueReg_ok hq nofun)
    · exact exec_registerWrite_plain hport rfl rfl nofun (fun _ => hgo) (State.queueReg_ok hq nofun)
    · obtain ⟨hbar, hsame⟩ := State.writeReg_readOnly hr v.toNat
      exact bar hbar htdi hsame
    · obtain ⟨hsrc, hdst, hlen, hcap, hsig⟩ := State.writeReg_load v hload
      exact ⟨bar rfl htdi hsrc, bar rfl htdi hdst, bar rfl htdi hlen, bar rfl htdi hcap, bar rfl htdi hsig⟩
    · obtain ⟨hsrc, hdst, hlen, hcap, hsig⟩ := State.writeReg_busyLoad v hload
      exact ⟨bar rfl htdi hsrc, bar rfl htdi hdst, bar rfl htdi hlen, bar rfl htdi hcap, bar rfl htdi hsig⟩
    · obtain ⟨hkind, hpage, hcnt, hent, hroot⟩ := State.writeReg_busyProposal v hprop
      exact ⟨bar rfl htdi hkind, bar rfl htdi hpage, bar rfl htdi hcnt, bar rfl htdi hent, bar rfl htdi hroot⟩
    · obtain ⟨hkind, hpage, hcnt, hent, hroot⟩ := State.writeReg_proposal v hprop
      exact ⟨bar rfl htdi hkind, bar rfl htdi hpage, bar rfl htdi hcnt, bar rfl htdi hent, bar rfl htdi hroot⟩
    · exact exec_registerWrite_refused (not_isCounter_of_pfOnly hpf) (.inr ⟨hpf, hvd⟩)
    · obtain ⟨hsel, himg, hdbg, hfwsel, hfwsrc, hfwlen⟩ := State.writeReg_physical v
      have pf {r : HostReg} {u : State} (hpf : pfOnly r = true) (hbar : inBar0 r = false) (hu : s.writeReg r vd q v.toNat = u) :
          wr r u := exec_registerWrite_plain hport (not_isCounter_of_pfOnly hpf) hbar (fun _ => hvd) (fun h => by simp [h, pfOnly] at hpf) hu
      exact ⟨pf rfl rfl hsel, pf rfl rfl himg, pf rfl rfl hdbg, pf rfl rfl hfwsel, pf rfl rfl hfwsrc, pf rfl rfl hfwlen⟩
    · exact ⟨exec_registerWrite_locked hport hbar htdi, State.tdi_tdiError⟩
    · exact (exec_loadGo_ok hport hload).trans (congrArg _ (if_pos hactive))
    · exact (exec_loadGo_ok hport hload).trans (congrArg _ (if_neg (Bool.eq_false_iff.mp hactive)))
  case counters =>
    rintro rfl
    exact ⟨rfl, rfl, rfl, rfl, rfl, rfl⟩
  · exact fun ⟨hvd, hport⟩ => h.elim (fun hne => hne hvd) (fun hno => Bool.false_ne_true (hno.symm.trans hport))
  case load =>
    exact ⟨fun _ h => exec_loadComplete_error hbusy h, exec_loadComplete_silent hbusy, exec_loadComplete_signals hbusy⟩
  case write =>
    refine ⟨fun hunread => exec_quotaWrite_unread hport hidle (State.quotaImage_eq_none hunread), fun hclean hread => ?_⟩
    have himg := State.quotaImage_eq_some hclean hread
    refine ⟨exec_quotaWrite_bad hport hidle himg, exec_quotaWrite_changes hport hidle himg, fun hcode hold hnew => ?_⟩
    have hmake := exec_quotaWrite_creates hport hidle himg hcode hold hnew
    exact ⟨fun hheld => hmake.trans (if_pos hheld), fun hfree => hmake.trans (if_neg (Bool.eq_false_iff.mp hfree))⟩
  case teardown =>
    have hends := exec_quotaTeardown_eq hport hd
    exact ⟨fun hbusy => hends.trans (congrArg _ (if_pos hbusy)),
      fun hdone => hends.trans (congrArg _ (if_neg (Bool.eq_false_iff.mp hdone)))⟩

end Sys2Proof.Machine
end

section
/-! PROOFS. Bit fields, SEL, constants and GADDR (R149, R254, R256, R257, R259). -/
namespace Sys2Proof.Machine

/-! ### Bits that are read and replaced (R256) -/

/-- Numbers without a common one bit add without a carry. -/
theorem add_eq_or_of_and_eq_zero {x y : Nat} (h : x &&& y = 0) : x + y = x ||| y := by
  have hlt : x + y < 2 ^ (x + y) := Nat.lt_two_pow_self
  have hx : x < 2 ^ (x + y) := by omega
  have hy : y < 2 ^ (x + y) := by omega
  have hand : BitVec.ofNat (x + y) x &&& BitVec.ofNat (x + y) y = 0#(x + y) := by rw [← BitVec.ofNat_and, h]
  have hadd := congrArg BitVec.toNat (BitVec.add_eq_or_of_and_eq_zero _ _ hand)
  simpa [Nat.mod_eq_of_lt, hlt, hx, hy] using hadd

/-- Taking the bits of a mask off a number clears them. -/
theorem sub_and_eq_xor (x m : Nat) : x - (x &&& m) = x ^^^ (x &&& m) := by
  have hdisjoint : (x ^^^ (x &&& m)) &&& (x &&& m) = 0 := Nat.eq_of_testBit_eq fun i => by
    simp only [Nat.testBit_and, Nat.testBit_xor, Nat.zero_testBit]
    cases x.testBit i <;> simp
  have hwhole : (x ^^^ (x &&& m)) ||| (x &&& m) = x := Nat.eq_of_testBit_eq fun i => by
    simp only [Nat.testBit_and, Nat.testBit_xor, Nat.testBit_or]
    cases x.testBit i <;> simp
  have hsum := add_eq_or_of_and_eq_zero hdisjoint
  omega

/-- The bits of a mask replaced by those of a number within it. -/
theorem testBit_sub_and_add {n m : Nat} (hn : ∀ i, m.testBit i = false → n.testBit i = false) (x i : Nat) :
    (x - (x &&& m) + n).testBit i = if m.testBit i then n.testBit i else x.testBit i := by
  have hdisjoint : (x ^^^ (x &&& m)) &&& n = 0 := Nat.eq_of_testBit_eq fun i => by
    simp only [Nat.testBit_and, Nat.testBit_xor, Nat.zero_testBit]
    cases hm : m.testBit i with
    | false => simp [hn i hm]
    | true => simp
  rw [sub_and_eq_xor, add_eq_or_of_and_eq_zero hdisjoint, Nat.testBit_or, Nat.testBit_xor, Nat.testBit_and]
  cases hm : m.testBit i with
  | false => simp [hn i hm]
  | true => simp

theorem testBit_fieldMask (pos len i : Nat) :
    ((2 ^ len - 1) * 2 ^ pos % 2 ^ 64).testBit i = decide (i < 64 ∧ pos ≤ i ∧ i < pos + len) := by
  rw [Nat.testBit_mod_two_pow, Nat.testBit_mul_two_pow, Nat.testBit_two_pow_sub_one, ← Bool.decide_and, ← Bool.decide_and]
  exact decide_eq_decide.mpr (by omega)

theorem testBit_fieldValue (u pos len i : Nat) :
    (u % 2 ^ len * 2 ^ pos % 2 ^ 64).testBit i = (decide (i < 64 ∧ pos ≤ i ∧ i < pos + len) && u.testBit (i - pos)) := by
  rw [Nat.testBit_mod_two_pow, Nat.testBit_mul_two_pow, Nat.testBit_mod_two_pow, ← Bool.and_assoc, ← Bool.and_assoc,
    ← Bool.decide_and, ← Bool.decide_and]
  exact congrArg (· && _) (decide_eq_decide.mpr (by omega))

/-- What BINS writes: a field of LEN bits from POS up replaced, and every other bit kept. -/
def withField (old u pos len : Nat) : Nat :=
  old - (old &&& (2 ^ len - 1) * 2 ^ pos % 2 ^ 64) + u % 2 ^ len * 2 ^ pos % 2 ^ 64

theorem testBit_withField (old u pos len : Nat) {i : Nat} (hi : i < 64) :
    (withField old u pos len).testBit i = if pos ≤ i ∧ i < pos + len then u.testBit (i - pos) else old.testBit i := by
  rw [withField, testBit_sub_and_add fun i hmask => ?within, testBit_fieldMask, testBit_fieldValue]
  case within => rw [testBit_fieldValue, ← testBit_fieldMask, hmask, Bool.false_and]
  simp only [hi, true_and, decide_eq_true_eq]
  split
  · simp [*]
  · rfl

/-- The number in the low bits agrees with it in them. -/
theorem readBits_emod (signed : Bool) (w : Nat) (v : Int) : readBits signed w v % (2 ^ w : Nat) = v % (2 ^ w : Nat) := by
  unfold readBits
  dsimp only
  split
  · rw [Int.sub_emod_right, Int.emod_emod]
  · rw [Int.emod_emod]

theorem readBits_unsigned_bounds (w : Nat) (v : Int) : 0 ≤ readBits false w v ∧ readBits false w v < (2 ^ w : Nat) := by
  have hpos : (0 : Int) < (2 ^ w : Nat) := by exact_mod_cast Nat.two_pow_pos w
  exact ⟨Int.emod_nonneg _ hpos.ne', Int.emod_lt_of_pos _ hpos⟩

theorem readBits_signed_bounds {w : Nat} (hw : 0 < w) (v : Int) :
    -(2 ^ (w - 1) : Nat) ≤ readBits true w v ∧ readBits true w v < (2 ^ (w - 1) : Nat) := by
  obtain ⟨k, rfl⟩ := Nat.exists_eq_add_of_lt hw
  have hhalf : 2 ^ (0 + k + 1) = 2 * 2 ^ k := by rw [Nat.zero_add, pow_succ, Nat.mul_comm]
  have hpos : 0 < 2 ^ k := Nat.two_pow_pos k
  have hlo : 0 ≤ v % (2 ^ (0 + k + 1) : Nat) := Int.emod_nonneg _ (by omega)
  have hhi : v % (2 ^ (0 + k + 1) : Nat) < (2 ^ (0 + k + 1) : Nat) := Int.emod_lt_of_pos _ (by omega)
  unfold readBits
  simp only [true_and, Nat.zero_add, Nat.add_sub_cancel] at *
  split <;> omega

theorem fieldWord_ok {ty : ITy} {f : Nat} {b : Src} {s s1 : State} (hty : ty = .i64 ∨ ty = .n64) (hf : readN64 3 b s = .ok f s1)
    (hlt : f < 2 ^ 13) (hlen : f / 64 ≤ 64) : fieldWord ty b s = .ok (f % 64, f / 64) s1 := by
  have hwide : (ty == .i64 || ty == .n64) = true := by rcases hty with rfl | rfl <;> rfl
  have hok : (decide (f < 2 ^ 13) && decide (f / 64 ≤ 64)) = true := by simp only [hlt, hlen, decide_true, Bool.and_self]
  exact (M.bind_ok (need_ok hwide)).trans ((M.bind_ok hf).trans (M.bind_ok (need_ok hok)))

section
variable {h : Head} {ty : ITy} {d f : Nat} {a b : Src} {x : Int} {s s2 : State} (hg : guardOk h s.me = true) (hd : Say.Dest d s2)
  (hread : Say.ReadsN ty a b s x f s2) (hty : ty = .i64 ∨ ty = .n64) (hlt : f < 2 ^ 13) (hlen : f / 64 ≤ 64)
include hg hd hread hty hlt hlen

theorem exec_bext_ok : exec (.bext h ty d a b) s = .next (Say.intDone h ty false d
    (if f / 64 = 0 then 0 else readBits (sgn ty) (f / 64) (bitsAt (Say.bitsOf .n64 x) (f % 64) (f / 64) : Nat)) s2) := by
  obtain ⟨s1, hx, hf⟩ := hread
  exact issue_ok (u := ()) hg ((M.bind_ok hx).trans ((M.bind_ok (fieldWord_ok hty hf hlt hlen)).trans (writeInt_ok hd)))

theorem exec_bins_ok : exec (.bins h ty d a b) s = .next (Say.intDone h ty false d
    (withField (s2.me.reg d).toNat (Say.bitsOf .n64 x) (f % 64) (f / 64) : Nat) s2) := by
  obtain ⟨s1, hx, hf⟩ := hread
  exact issue_ok (u := ()) hg ((M.bind_ok hx).trans ((M.bind_ok (fieldWord_ok hty hf hlt hlen)).trans
    ((M.bind_ok (readScal_full hd.1 hd.2)).trans (writeInt_ok hd))))
end

theorem exec_sel_ok {h : Head} {ty : ITy} {psel d : Nat} {pinv : Bool} {a b : Src} {x y : Int} {s s2 : State}
    (hg : guardOk h s.me = true) (hd : Say.Dest d s2) (hread : Say.Reads2 ty a b s x y s2) :
    exec (.sel h ty psel pinv d a b) s = .next (Say.intDone h ty false d (if s.me.p psel = pinv then y else x) s2) := by
  obtain ⟨s1, hx, hy⟩ := hread
  have hpick : (if xor (s.me.p psel) pinv then x else y) = if s.me.p psel = pinv then y else x := by
    cases s.me.p psel <;> cases pinv <;> rfl
  rw [← hpick]
  exact issue_ok (u := ()) hg ((M.bind_ok (me_eq s)).trans ((M.bind_ok hx).trans ((M.bind_ok hy).trans (writeInt_ok hd))))

theorem bitFieldsAndSelect : Say.bitFieldsAndSelect := by
  intro h ty d f psel pinv a b x y s s2 hg hd
  refine ⟨fun hread hty hlt hlen => ⟨⟨_, exec_bext_ok hg hd hread hty hlt hlen, ?mod, ?unsigned, ?signed, fun h0 => if_pos h0⟩,
    ⟨_, exec_bins_ok hg hd hread hty hlt hlen, fun i hi => testBit_withField _ _ _ _ hi⟩⟩, exec_sel_ok hg hd⟩
  case mod =>
    split
    · simp [*]
    · rw [readBits_emod, bitsAt, Int.natCast_mod, Int.emod_emod]
  case unsigned =>
    rintro rfl
    split
    · exact ⟨le_rfl, by exact_mod_cast Nat.two_pow_pos _⟩
    · exact readBits_unsigned_bounds _ _
  case signed =>
    rintro rfl hpos
    rw [if_neg hpos.ne']
    exact readBits_signed_bounds hpos _

/-! ### LDIL and LDIH (R257) -/

/-- The constant stands above the low half. -/
theorem ofNat_high_low (k : BitVec 32) (v : Word) :
    BitVec.ofNat 64 (k.toNat * 2 ^ 32 + v.toNat % 2 ^ 32) = (k ++ v.extractLsb' 0 32 : BitVec 64) := by
  have hlow : v.toNat % 2 ^ 32 < 2 ^ 32 := Nat.mod_lt _ (by decide)
  have hk := k.isLt
  apply BitVec.eq_of_toNat_eq
  rw [BitVec.toNat_append, BitVec.extractLsb'_toNat, Nat.shiftRight_zero, ← Nat.shiftLeft_add_eq_or_of_lt hlow, Nat.shiftLeft_eq,
    BitVec.toNat_ofNat]
  omega

theorem wideConstants : Say.wideConstants := by
  intro h d k s hg ⟨hd, hfull⟩
  refine ⟨?ldil, ?ldih⟩
  case ldil =>
    rw [← BitVec.ofNat_toNat]
    exact issue_ok hg (writeScal_full hd hfull)
  case ldih =>
    rw [← ofNat_high_low]
    exact issue_ok hg ((M.bind_ok (readScal_full hd hfull)).trans (writeScal_full hd hfull))

/-! ### GADDR (R149, R259) -/

/-- A full pair of scalars takes two values. -/
theorem writeScals_pair {d : Nat} {s : State} (hd : d + 1 < 64) (hfull : s.me.full d = true) (hfull' : s.me.full (d + 1) = true)
    (v w : Word) : writeScals d [v, w] s = .ok () (s.modMe (fun x => (x.setReg d v).setReg (d + 1) w)) :=
  writeScals_ok hd fun j hj => by
    obtain rfl | rfl : j = 0 ∨ j = 1 := by simp at hj; omega
    · exact hfull
    · exact hfull'

/-- The pair that GADDR writes for a coordinate: 0 and all ones outside the array, else the element's address and core. -/
def Dist.located (e : Dist) (s : State) (l : Launch) (i : List Nat) : Word × Word :=
  if (upto 4).any (fun j => decide (nth e.n j ≤ nth i j)) then (0, BitVec.allOnes 64)
  else
    let core := s.coreOfRank l.vdev l.rcd (e.place i).1
    (BitVec.ofNat 64 (coreVa core (e.place i).2), BitVec.ofNat 64 core)

theorem Dist.outside_iff {e : Dist} {i : List Nat} :
    (upto 4).any (fun j => decide (nth e.n j ≤ nth i j)) = true ↔ ∃ j, j < 4 ∧ nth e.n j ≤ nth i j := by
  simp [upto]

section
variable {h : Head} {d k n : Nat} {m : SrcMod} {fe : Bool} {a : Src} {l : Launch} {bs : List Byte} {s s1 s2 : State}
  (hg : guardOk h s.me = true) (heven : d % 2 = 0) (hd : d + 1 < 64) (hn : n + 3 < 64) (hk : readN64 2 a s = .ok k s1)
  (hcoord : ∀ j, j < 4 → s1.me.full (n + j) = true) (hfull : s.me.full d = true) (hfull' : s.me.full (d + 1) = true)
  (hl : s1.launch s1.me.vdev s1.me.lid = some l) (htab : l.rcd.disttab ≠ 0) (hk255 : k ≤ 255)
  (hread : unitRead (some s1.cur.core) { vdev := l.vdev, dom := l.base, win := none } (l.rcd.disttab + 64 * k) 64 s1 = .ok bs s2)
  (hgood : (Dist.ofBytes bs).bad = false) (hranks : (Dist.ofBytes bs).ranks ≤ l.rcd.setw * l.rcd.seth)
  (hfull2 : s2.me.full d = true) (hfull2' : s2.me.full (d + 1) = true)
include hg heven hd hn hk hcoord hfull hfull' hl htab hk255 hread hgood hranks hfull2 hfull2'

/-- GADDR of an accepted entry, where an element that lies in the array lies in its core's local memory. -/
theorem exec_gaddr_ok {e : Dist} {i : List Nat} (he : e = Dist.ofBytes bs) (hi : i = (upto 4).map (fun j => (s1.me.reg (n + j)).toNat))
    (hfit : (upto 4).any (fun j => decide (nth e.n j ≤ nth i j)) = false → (e.place i).2 + 2 ^ e.esize ≤ 2 ^ 18) :
    exec (.gaddr h d a (.scal n m fe)) s = .next ((s2.modMe (fun x =>
      (x.setReg d (e.located s2 l i).1).setReg (d + 1) (e.located s2 l i).2)).advance h) := by
  have hrow : readRow 3 4 (.scal n m fe) s1 = .ok _ s1 := readRow_ok (by omega) hcoord
  have htabOk : (l.rcd.disttab != 0 && decide (k ≤ 255)) = true := by simp [htab, hk255]
  have hentryOk : (!e.bad && decide (e.ranks ≤ l.rcd.setw * l.rcd.seth)) = true := by simp [he, hgood, hranks]
  have hi' : ((upto 4).map (fun j => s1.me.reg (n + j))).map (fun v => v.toNat) = i := by rw [hi, List.map_map]; rfl
  have hwrite := writeScals_pair hd hfull2 hfull2'
  refine issue_ok (u := ()) hg ?_
  simp only [M.bind_run, evenD_ok heven (Nat.lt_of_succ_lt hd), look_eq, hfull, hfull', Bool.and_self, waitFor_true, hk, hrow, myLaunch,
    me_eq, hl, need_ok htabOk, hread, ← he, need_ok hentryOk, hi', Dist.located]
  cases hany : (upto 4).any (fun j => decide (nth e.n j ≤ nth i j)) with
  | true => simp only [if_true, hwrite]
  | false =>
    have hfits : decide ((e.place i).2 + 2 ^ e.esize ≤ 262144) = true := decide_eq_true (hfit hany)
    simp only [Bool.false_eq_true, if_false, M.bind_run, look_eq, need_ok hfits, hwrite]
end

theorem gaddrLocatesElement : Say.gaddrLocatesElement := by
  intro h d k n m fe a l bs s s1 s2 hg heven hd hn hk hcoord hfull hfull' hl htab hk255 hread hgood hranks hfull2 hfull2' i e
  have hrun := exec_gaddr_ok (m := m) (fe := fe) hg heven hd hn hk hcoord hfull hfull' hl htab hk255 hread hgood hranks hfull2 hfull2'
    (e := e) (i := i) rfl rfl
  refine ⟨fun hout => ?outside, fun hin hfit => ?inside⟩
  case outside =>
    have hany := Dist.outside_iff.mpr hout
    rw [hrun fun h => absurd hany (Bool.eq_false_iff.mp h), Dist.located, if_pos hany]
  case inside =>
    have hany : ¬ (upto 4).any (fun j => decide (nth e.n j ≤ nth i j)) = true := fun hany => by
      obtain ⟨j, hj, hle⟩ := Dist.outside_iff.mp hany
      exact absurd (hin j hj) (Nat.not_lt.mpr hle)
    rw [hrun fun _ => hfit, Dist.located, if_neg hany]
    rfl

/-- Settles O6: a field's bits one by one, the constants' halves, and the pair that GADDR writes past its checks. -/
theorem fieldsConstantsAndAddresses : Obligations.FieldsConstantsAndAddresses :=
  ⟨bitFieldsAndSelect, wideConstants, gaddrLocatesElement⟩

end Sys2Proof.Machine
end

section
/-! PROOFS. Copies are queued: CPY, CPYG, CPYS, CPYADD and CPYX at issue (R98, R150, R187, R300 to R305). -/
namespace Sys2Proof.Machine

/-! ### A copy enters its context's queue (R98, R187) -/

theorem State.myCore_modMyCore (s : State) (f : Core → Core) : (s.modMyCore f).myCore = f s.myCore := s.core_modCore_self _ f

/-- A counter's DONE leaves the ISS of every counter. -/
theorem Core.iss_setDone (x : Core) (i n k : Nat) : ((x.setTl i { x.tl i with done := n }).tl k).iss = (x.tl k).iss := by
  by_cases hk : k = i
  · subst hk
    by_cases h8 : k < 8
    · rw [Core.tl, Core.setTl, vget_vset_self _ h8]
    · rw [Core.tl, Core.setTl, vget_vset_ge _ (Nat.not_lt.mp h8), Core.tl, vget_ge _ (Nat.not_lt.mp h8)]
  · rw [Core.tl, Core.setTl, vget_vset_ne _ hk, Core.tl]

/-- What no counter's DONE changes is as it was after the counters follow their operations (R187). -/
theorem Core.syncTl_keeps {β : Type} {p : Core → β} (hp : ∀ (x : Core) (i n : Nat), p (x.setTl i { x.tl i with done := n }) = p x)
    (x : Core) : p x.syncTl = p x := by
  have hfold (f : Core → Nat → Nat) (is : List Nat) (x : Core) :
      p (is.foldl (fun x i => x.setTl i { x.tl i with done := f x i }) x) = p x := by
    induction is generalizing x with
    | nil => rfl
    | cons i is ih => rw [List.foldl_cons, ih, hp]
  rw [Core.syncTl]
  exact (hp _ 4 _).trans (hfold _ _ x)

@[simp] theorem Core.syncTl_seats (x : Core) : x.syncTl.seats = x.seats := Core.syncTl_keeps (fun _ _ _ => rfl) x

@[simp] theorem Core.syncTl_ctxs (x : Core) : x.syncTl.ctxs = x.ctxs := Core.syncTl_keeps (fun _ _ _ => rfl) x

@[simp] theorem Core.iss_syncTl (x : Core) (k : Nat) : (x.syncTl.tl k).iss = (x.tl k).iss :=
  Core.syncTl_keeps (p := fun x => (x.tl k).iss) (fun x i n => x.iss_setDone i n k) x

section
variable {k : Nat} (hk : k < 4) (x : Core) (o : CopyOp)
include hk

theorem Core.ops_enqueueCopy :
    ((x.enqueueCopy k o).ctx k).ops = (x.ctx k).ops ++ [{ o with num := ((x.tl k).iss + 1) % 2 ^ 56 }] := by
  rw [Core.enqueueCopy, Core.ctx, Core.syncTl_ctxs]
  split <;> simp [Core.setCtx, Core.setTl, Core.ctx, hk]

theorem Core.iss_enqueueCopy : ((x.enqueueCopy k o).tl k).iss = ((x.tl k).iss + 1) % 2 ^ 56 := by
  have h8 : k < 8 := by omega
  rw [Core.enqueueCopy, Core.iss_syncTl, Core.tl]
  split <;> simp [Core.setCtx, Core.setTl, Core.tl, h8]

/-- The view that a copy fills is empty from its issue on. -/
theorem Core.view_enqueueCopy (hfills : o.fills = true) (hv : o.vnum < 64) :
    (((x.enqueueCopy k o).seat k).view o.vnum).fe = false := by
  rw [Core.enqueueCopy, if_pos hfills, Core.seat, Core.syncTl_seats]
  exact (congrArg (fun y : Seat => (y.view o.vnum).fe) (Core.seat_modSeat_self _ hk _)).trans
    (congrArg View.fe (Seat.view_setView_self _ hv _))
end

theorem issueCopy_ok {o : CopyOp} {s : State} (hroom : Say.CopyRoom s) (hranges : o.ranges.length ≤ 4) (hstrn : o.strn = s.cur.strn) :
    issueCopy o s = .ok () (s.modMyCore (fun x => x.enqueueCopy s.cur.seat { o with before := s.accNum })) := by
  obtain ⟨hboard, hqueue, hheld⟩ := hroom
  have hnone : (s.myCore.ctx s.cur.seat).held.find? (fun p => p.strn == o.strn) = none :=
    List.find?_eq_none.mpr fun p hp => by simpa [hstrn] using hheld p hp
  have hfits : decide (s.myCore.boardUse + o.ranges.length ≤ 32) = true := decide_eq_true (by omega)
  simp only [issueCopy, M.bind_run, look_eq, hnone, hfits, waitFor_true, hqueue, if_true, change_eq]

/-- An instruction that ends in the issue of a copy operation queues it (R187, R301). -/
theorem copyIssued {i : Instr} {h : Head} {body : M Unit} {o : CopyOp} {s s1 : State} {P : CopyOp → Prop} (hg : guardOk h s.me = true)
    (hi : exec i s = issue h body s) (hbody : body s = issueCopy o s1) (hcur : s1.cur = s.cur) (hk : s.cur.seat < 4)
    (hroom : Say.CopyRoom s1) (ho : o.seat = s.cur.seat ∧ o.strn = s.cur.strn ∧ o.group = 0) (hranges : o.ranges.length ≤ 4)
    (hv : o.fills = true → o.vnum < 64) (hP : ∀ num before, P { o with num := num, before := before }) :
    Say.CopyIssued i h s s1 P := by
  obtain ⟨hseat, hstrn, hgroup⟩ := ho
  have hissue := hbody.trans (issueCopy_ok hroom hranges (by rw [hstrn, hcur]))
  rw [hcur] at hissue
  refine ⟨_, _, hi.trans (issue_ok hg hissue), hP (((s1.myCore.tl s.cur.seat).iss + 1) % 2 ^ 56) s1.accNum, rfl, hseat, hstrn, hgroup,
    ?ops, ?iss, fun hfills => ?view, rfl, rfl, rfl, rfl, rfl⟩
  case ops => rw [State.myCore_modMyCore]; exact Core.ops_enqueueCopy hk _ _
  case iss => rw [State.myCore_modMyCore]; exact Core.iss_enqueueCopy hk _ _
  case view =>
    show ((((s1.modMyCore _).myCore).seat s1.cur.seat).view o.vnum).fe = false
    rw [State.myCore_modMyCore, hcur]
    exact Core.view_enqueueCopy hk _ _ hfills (hv hfills)

/-- A change of the issuer's seat leaves the room for a copy, and what its issue leaves. -/
theorem copyRoom_modMe {s : State} {f : Seat → Seat} : Say.CopyRoom (s.modMe f) ↔ Say.CopyRoom s := by
  simp only [Say.CopyRoom, State.myCore_modMe]
  rfl

theorem copyIssued_modMe {i : Instr} {h : Head} {s s1 : State} {f : Seat → Seat} {P : CopyOp → Prop}
    (hissued : Say.CopyIssued i h s (s1.modMe f) P) : Say.CopyIssued i h s s1 P := by
  obtain ⟨op, t, hexec, hP, hnum, hseat, hstrn, hgroup, hops, hrest⟩ := hissued
  rw [State.myCore_modMe] at hnum hops
  exact ⟨op, t, hexec, hP, hnum, hseat, hstrn, hgroup, hops, hrest⟩

/-! ### The ranges of a copy (R96) -/

theorem sideRange_length_le (c : Nat) (w : Who) (lo hi : Nat) : (sideRange c w lo hi).length ≤ 1 := by
  unfold sideRange
  dsimp only
  split
  · exact Nat.zero_le 1
  · split
    · exact le_rfl
    · exact Nat.zero_le 1

theorem tensRange_length_le (c : Nat) (w : Who) (t : Tensor) (x : Nat → Nat → List Int) (rows cols : List Nat) :
    (tensRange c w t x rows cols).length ≤ 1 := by
  unfold tensRange
  dsimp only
  split
  · exact Nat.zero_le 1
  · exact sideRange_length_le ..

/-! ### Copies between a view and a tensor (R300 to R304) -/

/-- The sides of a copy between a view and a tensor fill at most three ranges. -/
theorem copyRanges_length_le {p : Nat × Nat} (idx : Option View) {ps : List (Nat × Nat)} (hps : ps.length ≤ 1) :
    (p :: ((idx.map viewRange).toList ++ ps)).length ≤ 4 := by
  have hidx : (idx.map viewRange).toList.length ≤ 1 := by cases idx <;> simp
  rw [List.length_cons, List.length_append]
  omega

/-- A check chosen by a condition passes where both pass. -/
theorem M.ite_checks_run {b : Prop} [Decidable b] {m m' : M Unit} {k : Unit → M Unit} {s : State} (h : m s = .ok () s)
    (h' : m' s = .ok () s) : (if b then m >>= k else m' >>= k) s = k () s := by
  split
  · exact M.bind_ok h
  · exact M.bind_ok h'

theorem mySpace_eq (s : State) : mySpace s = .ok { vdev := s.me.vdev, dom := s.me.curdom, win := s.me.window } s := rfl

theorem copyOrg_ok {n : Nat} {m : SrcMod} {fe : Bool} {s : State} (hfull : Say.FourFull n s) :
    copyOrg (.scal n m fe) s = .ok (Say.originOf n s) s := by
  obtain ⟨hn, hfull⟩ := hfull
  simp only [copyOrg, M.bind_run, readRow_ok hn hfull, M.pure_eq, List.map_map]
  rfl

/-- The index view of CPYG and CPYS, where there is one (R303). -/
inductive CopyIndex (s : State) : Option Src → Option View → Prop
  | none : CopyIndex s none none
  | tile {k : Nat} {q : SrcMod} {bf : Bool} {y : View} (hk : k < 64) (hview : s.me.view k = y) (hdef : y.defd = true)
      (hlayout : y.layout < 3) (hfm : y.fm = .int32 ∨ y.fm = .nat32 ∨ y.fm = .int64) (hfull : y.fe = true) :
      CopyIndex s (some (.tile k q bf)) (some y)

section
variable {z d n : Nat} {t c fit fe : Bool} {kind : CopyKind} {m : SrcMod} {b : Option Src} {idx : Option View} {v : View}
  {tens : Tensor} {s s1 : State} (hhnd : s.me.hnd = false) (hlda : s.ldaOpen s.cur = false) (hd : d < 64) (hview : s.me.view d = v)
  (hdef : v.defd = true) (hfull : v.fe = true) (hlayout : isBlock v.fm = true → v.layout ≠ 1) (hc : c = true → isCX v.fm = true)
  (ht : t = true → isBlock v.fm = false) (hadd : (kind != .add || addFmt v.fm) = true) (horg : Say.FourFull n s)
  (hidx : CopyIndex s b idx) (htens : readTensor z s = .ok tens s1) (hfm : tens.fm = v.fm)
include hhnd hlda hd hview hdef hfull hlayout hc ht hadd horg hidx htens hfm

/-- A copy whose checks pass ends in the issue of its operation. -/
theorem viewCopy_ok : ∃ (o : CopyOp) (f : Seat → Seat),
    viewCopy kind z t c fit d (.scal n m fe) b s = issueCopy o (s1.modMe f) ∧
      (o.kind = kind ∧ o.vnum = d ∧ o.tens = tens ∧ o.org = Say.originOf n s ∧ o.t = t ∧ o.c = c) ∧
      (o.seat = s.cur.seat ∧ o.strn = s.cur.strn ∧ o.group = 0) ∧ (fit = false → o.view = v) ∧ o.idx = idx ∧ o.ranges.length ≤ 4 := by
  subst hview
  have hcopyView : copyView d s = .ok (s.me.view d) s := by
    have hok : (!isBlock (s.me.view d).fm || (s.me.view d).layout != 1) = true := by
      cases hblock : isBlock (s.me.view d).fm <;> simp [hlayout, hblock]
    exact (M.bind_ok (useView_ok hd hdef)).trans (M.bind_ok (need_ok hok))
  have hmods : copyMods d (s.me.view d).fm t c s = .ok () s := by
    have hok : (!t || !isBlock (s.me.view d).fm) = true := by cases t <;> simp [ht]
    have hok' : (!c || isCX (s.me.view d).fm) = true := by cases c <;> simp [hc]
    exact (M.bind_ok (need_ok hok)).trans (need_ok hok')
  have hsame : (tens.fm == (s.me.view d).fm) = true := by simp [hfm]
  have hhead (k : Agent → View → M Unit) :
      (noHandler >>= fun _ => afterLda >>= fun _ => look State.cur >>= fun g => copyView d >>= k g) s = k s.cur (s.me.view d) s :=
    (M.bind_ok (noHandler_ok hhnd)).trans <| (M.bind_ok (afterLda_ok hlda)).trans <| (M.bind_ok (look_eq _ _)).trans <|
      M.bind_ok hcopyView
  have horigin (k : List Int → M Unit) : (copyMods d (s.me.view d).fm t c >>= fun _ =>
      need (kind != .add || addFmt (s.me.view d).fm) 1 d >>= fun _ => copyOrg (.scal n m fe) >>= k) s = k (Say.originOf n s) s :=
    (M.bind_ok hmods).trans <| (M.bind_ok (need_ok hadd)).trans <| M.bind_ok (copyOrg_ok horg)
  cases hidx
  case' none =>
    have hstart : viewCopy kind z t c fit d (.scal n m fe) none s = _ :=
      (hhead _).trans <| (M.bind_ok (M.pure_eq none s)).trans (horigin _)
    rw [hstart]
  case' tile k q bf y hk hidxView hidxDef hidxLayout hidxFm hidxFull =>
    subst hidxView
    have hok : (decide ((s.me.view k).layout < 3) && ((s.me.view k).fm == .int32 || (s.me.view k).fm == .nat32 ||
        (s.me.view k).fm == .int64)) = true := by
      rcases hidxFm with h | h | h <;> simp [hidxLayout, h]
    have hstart : viewCopy kind z t c fit d (.scal n m fe) (some (.tile k q bf)) s = _ :=
      (hhead _).trans <| (M.bind_ok (M.pure_eq (k, q, bf) s)).trans <| (M.bind_ok (useView_ok hk hidxDef)).trans <|
        (M.bind_ok (need_ok hok)).trans <| (M.bind_ok (M.pure_eq (some (s.me.view k, k, bf)) s)).trans <|
        (horigin _).trans <| M.bind_ok (viewFull_ok hidxFull)
    rw [hstart]
  all_goals exact ⟨_, _, (M.ite_checks_run (viewFree_ok hfull) (viewFull_ok hfull)).trans <| (M.bind_ok htens).trans <|
    (M.bind_ok (need_ok hsame)).trans <| (M.bind_ok (mySpace_eq s1)).trans <| (M.bind_ok (look_eq _ _)).trans <|
    (M.bind_ok (modMe_eq _ _)).trans rfl, ⟨rfl, rfl, rfl, rfl, rfl, rfl⟩, ⟨rfl, rfl, rfl⟩, fun hfit => if_neg (Bool.eq_false_iff.mp hfit),
    rfl, copyRanges_length_le _ (tensRange_length_le ..)⟩

/-- A copy whose checks pass is queued. -/
theorem copyIssued_of_viewCopy {i : Instr} {h : Head} {P : CopyOp → Prop} (hg : guardOk h s.me = true)
    (hi : exec i s = issue h (viewCopy kind z t c fit d (.scal n m fe) b) s) (hcur : s1.cur = s.cur) (hk : s.cur.seat < 4)
    (hroom : Say.CopyRoom s1)
    (hP : ∀ op : CopyOp, (op.kind = kind ∧ op.vnum = d ∧ op.tens = tens ∧ op.org = Say.originOf n s ∧ op.t = t ∧ op.c = c) →
      (fit = false → op.view = v) → op.idx = idx → P op) : Say.CopyIssued i h s s1 P := by
  obtain ⟨o, f, hbody, hfields, howner, hwhole, hindex, hranges⟩ := viewCopy_ok (fit := fit) (m := m) (fe := fe) hhnd hlda hd hview hdef
    hfull hlayout hc ht hadd horg hidx htens hfm
  exact copyIssued_modMe (copyIssued hg hi hbody hcur hk (copyRoom_modMe.mpr hroom) howner hranges (fun _ => hfields.2.1 ▸ hd)
    fun _ _ => hP _ hfields hwhole hindex)
end

theorem copiesAreQueued : Say.copiesAreQueued := by
  intro h z d n k t c fit fe bf m q v y tens s s1 hg hhnd hlda hseat hd hview hdef hfull hlayout hc horg htens hfm hcur hroom a P
  refine ⟨fun ht => ⟨?load, ?store, fun hadd => ?add⟩, fun hk hidxView hidxDef hidxLayout hidxFm hidxFull => ?indexed⟩
  case load =>
    exact copyIssued_of_viewCopy hhnd hlda hd hview hdef hfull hlayout hc ht rfl horg .none htens hfm hg rfl hcur hseat hroom
      fun _ hfields hwhole _ => ⟨hfields, hwhole⟩
  case store =>
    exact copyIssued_of_viewCopy hhnd hlda hd hview hdef hfull hlayout hc ht rfl horg .none htens hfm hg rfl hcur hseat hroom
      fun _ hfields hwhole _ => ⟨hfields, hwhole rfl⟩
  case add =>
    exact copyIssued_of_viewCopy (kind := .add) hhnd hlda hd hview hdef hfull hlayout hc ht hadd horg .none htens hfm hg rfl hcur hseat hroom
      fun _ hfields hwhole _ => ⟨hfields, hwhole rfl⟩
  case indexed =>
    have hidx : CopyIndex s (some (.tile k q bf)) (some y) := .tile hk hidxView hidxDef hidxLayout hidxFm hidxFull
    exact ⟨copyIssued_of_viewCopy (t := false) (kind := .gather) hhnd hlda hd hview hdef hfull hlayout hc nofun rfl horg hidx htens hfm hg rfl hcur hseat hroom
        fun _ hfields hwhole hindex => ⟨hfields, hwhole rfl, hindex⟩,
      copyIssued_of_viewCopy (t := false) (kind := .scatter) hhnd hlda hd hview hdef hfull hlayout hc nofun rfl horg hidx htens hfm hg rfl hcur hseat hroom
        fun _ hfields hwhole hindex => ⟨hfields, hwhole rfl, hindex⟩⟩

/-! ### CPYX (R150, R305) -/

theorem Xfer.copyOp_ranges_length_le (e : Xfer) (c k : Nat) (st : StrandK) (t1 t2 : Tensor) (sp : Space) :
    (e.copyOp c k st t1 t2 sp).ranges.length ≤ 2 := by
  show (tensRange _ _ _ _ _ _ ++ tensRange _ _ _ _ _ _).length ≤ 2
  rw [List.length_append]
  exact Nat.add_le_add (tensRange_length_le ..) (tensRange_length_le ..)

/-- CPYX with an accepted entry, in local memory that it may read, ends in the issue of the entry's move. -/
theorem cpyxIssued {h : Head} {a : Src} {off : Nat} {e : Xfer} {t1 t2 : Tensor} {s s1 s2 s3 : State} {P : CopyOp → Prop}
    (hg : guardOk h s.me = true) (hhnd : s.me.hnd = false) (hlda : s.ldaOpen s.cur = false) (hk : s.cur.seat < 4)
    (ha : readN64 2 a s = .ok off s1) (halign : off % 64 = 0) (hlt : off < 2 ^ 18) (hcur1 : s1.cur = s.cur) (hcur3 : s3.cur = s.cur)
    (hbank : s1.bankDone = true) (hperm : localOk s1 s1.cur.core off 64 s1.me.who .r false = true)
    (hheld : s1.myCore.heldRange off 64 none = false) (hclean : s1.locBad s1.cur.core off 64 = none)
    (hentry : Xfer.ofBytes (s1.locRead s1.cur.core off 64) = e) (he : e.ok = true) (ht1 : readTensor e.srcz s1 = .ok t1 s2)
    (ht2 : readTensor e.dstz s2 = .ok t2 s3) (hfmt : e.fmtOk t1.fm t2.fm = true) (hroom : Say.CopyRoom s3)
    (hP : ∀ op : CopyOp, op.kind = .move t2 e.dorg e.nrows e.ncols (e.op == 2) → op.tens = t1 → op.org = e.sorg → op.t = e.tr →
      op.c = e.cj → P op) : Say.CopyIssued (.cpyx h a) h s s3 P := by
  have hoff : (off % 64 == 0 && decide (off < 262144)) = true := by simpa using ⟨halign, hlt⟩
  refine copyIssued (o := e.copyOp s1.cur.core s1.cur.seat s1.cur.strn t1 t2
    { vdev := s3.me.vdev, dom := s3.me.curdom, win := s3.me.window }) hg rfl ?body hcur3 hk hroom (by rw [hcur1]; exact ⟨rfl, rfl, rfl⟩)
    ((e.copyOp_ranges_length_le _ _ _ _ _ _).trans (by decide)) nofun fun _ _ => hP _ rfl rfl rfl rfl rfl
  simp only [M.bind_run, noHandler_ok hhnd, afterLda_ok hlda, ha, need_ok hoff, look_eq, me_eq, hperm, Bool.not_true,
    Bool.false_eq_true, if_false, bankQuiet_ok hbank, hheld, Bool.not_false, waitFor_true, hclean, hentry, need_ok he, ht1, ht2,
    need_ok hfmt, mySpace_eq]

theorem cpyxQueuesMove : Say.cpyxQueuesMove := by
  intro h a off t1 t2 s s1 s2 s3 hg hhnd hlda hseat ha halign hlt hcur1 hcur3 ⟨_, hbank⟩ hperm hheld hclean e he ht1 ht2 hfmt hroom
  have hentry : Xfer.ofBytes (s1.locRead s1.cur.core off 64) = e := by rw [hcur1]
  rw [← hcur1] at hperm hclean
  exact cpyxIssued hg hhnd hlda hseat ha halign hlt hcur1 hcur3 hbank hperm hheld hclean hentry he ht1 ht2 hfmt hroom
    fun _ hkind htens horg ht hc => ⟨hkind, htens, horg, ht, hc⟩

/-- Settles O18: a copy's checks pass and its operation enters the queue with what was read; CPYX by its transfer entry. -/
theorem copyInstructions : Obligations.CopyInstructions := ⟨copiesAreQueued, cpyxQueuesMove⟩

end Sys2Proof.Machine
end

section
/-! PROOFS. GPOST, GRETRACT, GWIN and GINFO (R154, R174, R342 to R346). -/
namespace Sys2Proof.Machine
variable {h : Head} {d pst off v base size k : Nat} {a b : Src} {bs : List Byte} {s s1 s2 : State}

/-! ### Checks and the gate table -/

theorem gateInstr_ok (hmay : Say.MayGate s) : gateInstr s = .ok () s := by
  obtain ⟨hhnd, hgang, hlead⟩ := hmay
  have hok : (!s.me.gang && !s.me.lead) = true := by simp [hgang, hlead]
  exact (M.bind_ok (noHandler_ok hhnd)).trans ((M.bind_ok (me_eq s)).trans (need_ok hok))

/-- An image within its limits passes every check of GPOST. -/
theorem gateBreach_eq_none {n : Nat} (himage : Say.GateImage bs n) : gateBreach bs n = none := by
  obtain ⟨hseg, hbnd, hentry, hclean, hwin, hrights, hdepth, hdepth', hcalls, hzero, hzero', hzero'', hlist⟩ := himage
  rw [gateBreach, Option.map_eq_none_iff, List.find?_eq_none]
  simp only [List.forall_mem_append, List.forall_mem_cons, List.forall_mem_map, List.not_mem_nil, false_imp_iff, implies_true, and_true,
    Bool.not_eq_true, Bool.not_eq_false', bitsAt]
  refine ⟨⟨⟨by simpa using hseg, by simpa using hbnd, by simpa using hentry, by simpa using hclean, by simpa using hwin,
    by simpa using hrights, by simp [hdepth, hdepth'], by simpa using hcalls, by simpa using hzero, by simpa using hzero'⟩,
    fun i hi => ?list⟩, by simpa using hzero''⟩
  have hi := hlist i (List.mem_range.mp hi)
  split at hi <;> simp [*]

theorem State.me_devPut (s : State) (ok : Nat → Bool) (vd dpa : Nat) (bs : List Byte) : (s.devPut ok vd dpa bs).me = s.me := by
  induction bs generalizing s dpa with
  | nil => rfl
  | cons b bs ih =>
    rw [State.devPut, ih]
    split
    · split <;> rfl
    · rfl

/-- A write of device memory leaves the issuer's seat. -/
theorem State.me_devWrite (s : State) (vd dpa : Nat) (bs : List Byte) : (s.devWrite vd dpa bs).me = s.me :=
  s.me_devPut _ vd dpa bs

/-! ### GPOST (R342) -/

/-- The entry that GPOST looks for: the first with V and RETIRED 0. -/
def State.freeGate (s : State) (vd : Nat) : Option Nat :=
  (upto (s.quota vd).gcap).find? (fun i => bitsAt (s.gateNum vd i 0 2) 12 2 == 0)

theorem gateFree_iff {s : State} {vd i : Nat} : (bitsAt (s.gateNum vd i 0 2) 12 2 == 0) = true ↔ Say.GateFree s vd i := beq_iff_eq

theorem State.freeGate_eq_some {vd i : Nat} (hi : i < (s.quota vd).gcap) (hfree : Say.GateFree s vd i)
    (hfirst : ∀ j, j < i → ¬ Say.GateFree s vd j) : s.freeGate vd = some i :=
  List.find?_range_eq_some.mpr ⟨gateFree_iff.mpr hfree, List.mem_range.mpr hi, fun j hj => by
    simpa only [Bool.not_eq_true', Bool.eq_false_iff, ne_eq, gateFree_iff] using hfirst j hj⟩

theorem State.freeGate_eq_none {vd : Nat} (hused : ∀ i, i < (s.quota vd).gcap → ¬ Say.GateFree s vd i) : s.freeGate vd = none :=
  List.find?_eq_none.mpr fun i hi => gateFree_iff.not.mpr (hused i (List.mem_range.mp hi))

section
variable (hg : guardOk h s.me = true) (hmay : Say.MayGate s) (ha : readN64 2 a s = .ok off s1)
  (hbs : localImage 2 off 64 s1 = .ok bs s1) (himage : Say.GateImage bs (s1.quota s1.me.vdev).dcap) (hquiet : s1.quiet s1.cur = true)
  (hd : Say.Dest d s1)
include hg hmay ha hbs himage hquiet hd

theorem exec_gpost_full (hfree : s1.freeGate s1.me.vdev = none) :
    exec (.gpost h d a) s = .next ((s1.modMe (fun x => x.setReg d 0)).advance h) := by
  rw [State.freeGate] at hfree
  refine issue_ok (u := ()) hg ?_
  simp only [M.bind_run, gateInstr_ok hmay, ha, me_eq, hbs, look_eq, gateBreach_eq_none himage, release_ok hquiet, hfree,
    writeScal_full hd.1 hd.2]

theorem exec_gpost_ok {i : Nat} (hfree : s1.freeGate s1.me.vdev = some i)
    (hsnoop : s1.devSnooped 0 (s1.gateAddr s1.me.vdev i) 64 = false) : exec (.gpost h d a) s =
    .next (((s1.devWrite 0 (s1.gateAddr s1.me.vdev i) (leBytes (s1.gateGen s1.me.vdev i + 2 ^ 12) 2 ++ leBytes s1.me.curdom 2 ++
      (bs.drop 4).take 20 ++ leBytes 8192 4 ++ bs.drop 28)).modMe
        (fun x => x.setReg d (BitVec.ofNat 64 (s1.gateGen s1.me.vdev i * 2 ^ 20 + i)))).advance h) := by
  rw [State.freeGate] at hfree
  refine issue_ok (u := ()) hg ?_
  simp only [M.bind_run, gateInstr_ok hmay, ha, me_eq, hbs, look_eq, gateBreach_eq_none himage, release_ok hquiet, hfree,
    hsnoop, Bool.not_false, waitFor_true, change_eq]
  exact writeScal_full hd.1 (by rw [State.me_devWrite]; exact hd.2)
end

/-! ### GRETRACT (R154, R343) -/

section
variable (hg : guardOk h s.me = true) (hmay : Say.MayGate s) (ha : readN64 2 a s = .ok v s1)
include hg hmay ha

theorem exec_gretract_invalid (hv : s1.handleOk s1.me.vdev v = false) :
    exec (.gretract h pst a) s = .next ((s1.modMe (fun x => x.setP pst false)).advance h) := by
  refine issue_ok (u := ()) hg ?_
  simp only [M.bind_run, gateInstr_ok hmay, ha, me_eq, look_eq, hv, Bool.not_false, if_true, writeP_eq]

variable (hv : s1.handleOk s1.me.vdev v = true)
include hv

theorem exec_gretract_ok (howner : s1.gateNum s1.me.vdev (v % 2 ^ 20) 2 2 = s1.me.curdom ∨ s1.me.curdom = 0)
    (hquiet : s1.quiet s1.cur = true) (hsnoop : s1.devSnooped 0 (s1.gateAddr s1.me.vdev (v % 2 ^ 20)) 2 = false) :
    exec (.gretract h pst a) s =
      .next (((s1.retract s1.me.vdev (v % 2 ^ 20)).modMe (fun x => x.setP pst true)).advance h) := by
  have hindex : bitsAt v 0 20 = v % 2 ^ 20 := by simp [bitsAt]
  have hallowed : ¬ (s1.me.curdom ≠ s1.gateNum s1.me.vdev (v % 2 ^ 20) 2 2 ∧ s1.me.curdom ≠ 0) := by
    rintro ⟨hne, hroot⟩
    exact howner.elim (fun h => hne h.symm) hroot
  refine issue_ok (u := ()) hg ?_
  simp only [M.bind_run, gateInstr_ok hmay, ha, me_eq, look_eq, hv, Bool.not_true, Bool.false_eq_true, if_false, hindex, hallowed,
    release_ok hquiet, hsnoop, Bool.not_false, waitFor_true, change_eq, writeP_eq]

theorem exec_gretract_foreign (howner : s1.gateNum s1.me.vdev (v % 2 ^ 20) 2 2 ≠ s1.me.curdom) (hroot : s1.me.curdom ≠ 0) :
    exec (.gretract h pst a) s = .next (s.takeTrap s.cur { cause := .privilege } false) := by
  have hindex : bitsAt v 0 20 = v % 2 ^ 20 := by simp [bitsAt]
  have hforeign : s1.me.curdom ≠ s1.gateNum s1.me.vdev (v % 2 ^ 20) 2 2 ∧ s1.me.curdom ≠ 0 := ⟨howner.symm, hroot⟩
  refine issue_stop (s' := s1) (e := .trap { cause := .privilege }) hg ?_
  simp only [M.bind_run, gateInstr_ok hmay, ha, me_eq, look_eq, hv, Bool.not_true, Bool.false_eq_true, if_false, hindex]
  exact (congrFun (if_pos hforeign) s1).trans rfl
end

/-! ### GWIN and GINFO (R174, R344, R346) -/

/-- A frame that the seat holds reads as it is. -/
theorem readFrame_ok {s : State} {n : Nat} {f : Frame} (hf : s.me.frames[s.me.depth - n]? = some f) : readFrame n s = .ok f s := by
  simp only [readFrame, M.bind_run, me_eq, look_eq, hf, M.pure_eq]

section
variable (hg : guardOk h s.me = true) (hmay : Say.MayGate s) (heven : d % 2 = 0) (hd : d ≤ 62)
include hg hmay heven hd

theorem exec_gwin_ok {wr ww : Bool} (ha : readN64 2 a s = .ok base s1) (hb : readN64 3 b s1 = .ok size s2) (hbase : base < 2 ^ 57)
    (hsize : size ≤ 1048576) (hfull : s2.me.full d = true) (hfull' : s2.me.full (d + 1) = true) : exec (.gwin h wr ww d a b) s =
    .next ((s2.modMe (fun x => (x.setReg d (BitVec.ofNat 64 (base + wr.toNat * 2 ^ 57 + ww.toNat * 2 ^ 58))).setReg (d + 1)
      (BitVec.ofNat 64 (size + s2.me.curdom * 2 ^ 32)))).advance h) := by
  refine issue_ok (u := ()) hg ?_
  simp only [M.bind_run, gateInstr_ok hmay, evenD_ok heven (Nat.lt_of_le_of_lt hd (by decide)), ha, hb, need_ok (decide_eq_true hbase),
    need_ok (decide_eq_true hsize), me_eq]
  exact writeScals_pair (by omega) hfull hfull' _ _

variable (ha : readN64 2 a s = .ok k s1) (hfull : s1.me.full d = true) (hfull' : s1.me.full (d + 1) = true)
include ha hfull hfull'

theorem exec_ginfo_none (hdepth : s1.me.depth = 0) (hk : k = 0) :
    exec (.ginfo h d a) s = .next ((s1.modMe (fun x => (x.setReg d 0).setReg (d + 1) 0)).advance h) := by
  refine issue_ok (u := ()) hg ?_
  simp only [M.bind_run, gateInstr_ok hmay, evenD_ok heven (Nat.lt_of_le_of_lt hd (by decide)), ha, me_eq, hdepth, hk, and_self, if_true]
  exact writeScals_pair (by omega) hfull hfull' _ _

theorem exec_ginfo_frame {f : Frame} {n : Nat} (hpos : 1 ≤ n) (hn : n ≤ s1.me.depth) (hk : k = n ∨ (k = 0 ∧ n = s1.me.depth))
    (hf : s1.me.frames[s1.me.depth - n]? = some f) (hdom : f.caller = s1.me.curdom ∨ f.callee = s1.me.curdom) :
    exec (.ginfo h d a) s = .next ((s1.modMe (fun x => (x.setReg d (BitVec.ofNat 64
      (f.handle.toNat + f.caller * 2 ^ 32 + f.callee * 2 ^ 48))).setReg (d + 1) (BitVec.ofNat 64
        (f.win.size + f.win.wr.toNat * 2 ^ 21 + f.win.ww.toNat * 2 ^ 22 + n * 2 ^ 32 + f.cln.toNat * 2 ^ 39
          + f.doom.toNat * 2 ^ 40)))).advance h) := by
  have hle : decide (k ≤ s1.me.depth) = true := decide_eq_true (by omega)
  have hsome : ¬ (k = 0 ∧ s1.me.depth = 0) := by omega
  have hnumber : (if k = 0 then s1.me.depth else k) = n := by split <;> omega
  have hdom : (f.caller == s1.me.curdom || f.callee == s1.me.curdom) = true := by simpa using hdom
  refine issue_ok (u := ()) hg ?_
  simp only [M.bind_run, gateInstr_ok hmay, evenD_ok heven (Nat.lt_of_le_of_lt hd (by decide)), ha, me_eq, need_ok hle, hsome, if_false,
    hnumber, readFrame_ok hf, need_ok hdom]
  exact writeScals_pair (by omega) hfull hfull' _ _
end

/-- Settles O33: each instruction past its checks, by the gate entries it meets, its handle, and the frame that it names. -/
theorem gateTableInstructions : Obligations.GateTableInstructions := by
  intro h d pst off v base size k wr ww a b bs s s1 s2 hg hmay x q
  refine ⟨fun ha hbs himage hquiet hd => ⟨fun i hi hfree hfirst hsnoop => ?post, fun hused => ?full⟩,
    fun ha => ⟨exec_gretract_invalid hg hmay ha, exec_gretract_ok hg hmay ha, exec_gretract_foreign hg hmay ha⟩,
    fun heven hd => exec_gwin_ok hg hmay heven hd, fun heven hd ha hfull hfull' => ⟨exec_ginfo_none hg hmay heven hd ha hfull hfull',
      fun f n => exec_ginfo_frame hg hmay heven hd ha hfull hfull'⟩⟩
  case post => exact exec_gpost_ok hg hmay ha hbs himage hquiet hd (State.freeGate_eq_some hi hfree hfirst) hsnoop
  case full => exact exec_gpost_full hg hmay ha hbs himage hquiet hd (State.freeGate_eq_none hused)

end Sys2Proof.Machine
end

section
/-! PROOFS. SPDM requests in their order, key slots, streams and interfaces (R160, R402, R405 to R408). -/
namespace Sys2Proof.Machine

variable {s : State}

/-! ### A request at the wrong time, and one at the right time (R405) -/

section
variable {n : Nat} {f : State → State}

theorem spdmFrom_early (h : s.modl.spdm.conn < n) : spdmFrom n s f = Say.reply s (.error 4) id := congrArg _ (if_pos h)

theorem spdmFrom_reached (h : n ≤ s.modl.spdm.conn) : spdmFrom n s f = .next (f s) := congrArg _ (if_neg (Nat.not_lt.mpr h))

theorem inSession_closed (h : s.modl.spdm.session = false) : inSession s f = Say.reply s (.error 4) id :=
  congrArg _ (if_neg (Bool.eq_false_iff.mp h))

theorem inSession_open (h : s.modl.spdm.session = true) : inSession s f = .next (f s) := congrArg _ (if_pos h)
end

section
variable {p : State → Prop} [DecidablePred p] {f : State → State}

/-- In the session a request that fails its check is answered InvalidRequest. -/
theorem inSession_invalid (h : s.modl.spdm.session = true) (hp : p s) :
    inSession s (fun s => if p s then s.answer (.error errInvalid) else f s) = Say.reply s (.error 1) id :=
  (inSession_open h).trans (congrArg _ (if_pos hp))

theorem inSession_valid (h : s.modl.spdm.session = true) (hp : ¬ p s) :
    inSession s (fun s => if p s then s.answer (.error errInvalid) else f s) = .next (f s) :=
  (inSession_open h).trans (congrArg _ (if_neg hp))
end

/-! ### Requests of a connection (R405, R406) -/

theorem exec_negotiateAlgorithms {a b c d : Nat} (h : 2 ≤ s.modl.spdm.conn) (ha : a % 2 = 1) (hb : b % 2 = 1) (hc : c % 2 = 1)
    (hd : d % 2 = 1) : exec (.negotiateAlgorithms a b c d) s = Say.reply s (.algorithms 1 1 1 1) (fun x => { x with conn := 3 }) := by
  have hall : [a, b, c, d].all (fun n => n % 2 == 1) = true := by simp [ha, hb, hc, hd]
  show execNegotiateAlgorithms a b c d s = _
  exact (spdmFrom_reached h).trans (congrArg _ (if_pos hall))

theorem exec_getCertificate {slot off len : Nat} {ch : List Byte} (h : 3 ≤ s.modl.spdm.conn) (hch : s.chain slot = some ch)
    (hoff : off < ch.length) :
    exec (.getCertificate slot off len) s = Say.reply s (.certificate slot ((ch.drop off).take len)) id := by
  show execGetCertificate slot off len s = _
  refine (spdmFrom_reached h).trans ?_
  rw [hch]
  exact congrArg (fun r => Host.Outcome.next (s.answer r)) (if_pos hoff)

theorem exec_getMeasurements_one {i : Nat} (h : 3 ≤ s.modl.spdm.conn) (hlo : 1 ≤ i) (hhi : i ≤ 7) :
    exec (.getMeasurements i) s = Say.reply s (.measurements [(i, s.measurement i)]) id := by
  have hone : i ≠ 0xFF := by omega
  show execGetMeasurements i s = _
  exact (spdmFrom_reached h).trans (congrArg _ ((if_neg hone).trans (if_pos ⟨hlo, hhi⟩)))

theorem exec_getMeasurements_all {i : Nat} (h : 3 ≤ s.modl.spdm.conn) (hi : i = 0xFF) :
    exec (.getMeasurements i) s =
      Say.reply s (.measurements ([1, 2, 3, 4, 5, 6, 7].map (fun k => (k, s.measurement k)))) id := by
  show execGetMeasurements i s = _
  exact (spdmFrom_reached h).trans (congrArg _ (if_pos hi))

/-! ### Certificate slots and challenges (R407) -/

theorem State.challenged_of_none {slot : Nat} (h : s.modl.spdm.chal = none) : s.challenged slot = false := by
  rw [State.challenged, h]

/-- A challenge that waits for its response holds its slot for 2,097,152 μs. -/
theorem State.challenged_of_pending {slot t : Nat} {nonce : BitVec 256} (h : s.modl.spdm.chal = some (slot, nonce, t))
    (ht : s.modl.rclk < t + 2097152000) : s.challenged slot = true := by
  rw [State.challenged, h]
  simp [ht]

section
variable {slot : Nat} {ch : List Byte} {nonce : BitVec 256} (h : 3 ≤ s.modl.spdm.conn)
include h

theorem exec_setCertificate_identity (hslot : slot = 0) : exec (.setCertificate slot ch) s = Say.reply s (.error 1) id := by
  show execSetCertificate slot ch s = _
  exact (spdmFrom_reached h).trans (congrArg _ (if_pos (.inl hslot)))

/-- SET_CERTIFICATE of a slot other than the identity's, by whether a challenge holds it. -/
theorem exec_setCertificate_eq (hlo : 1 ≤ slot) (hhi : slot < 8) : exec (.setCertificate slot ch) s =
    if s.challenged slot then Say.reply s (.error 3) id
    else Say.reply s (.setCertificate slot) (fun x => { x with certs := mapPut slot ch x.certs }) := by
  have hslot : ¬ (slot = 0 ∨ 8 ≤ slot) := by omega
  show execSetCertificate slot ch s = _
  refine (spdmFrom_reached h).trans ((congrArg _ (if_neg hslot)).trans ?_)
  cases s.challenged slot <;> rfl

theorem exec_challenge (hchain : s.chain slot ≠ none) (hfree : s.modl.spdm.chal = none) : exec (.challenge slot nonce) s =
    Say.reply s .none (fun x => { x with chal := some (slot, nonce, s.modl.rclk) }) := by
  obtain ⟨c, hc⟩ := Option.ne_none_iff_exists'.mp hchain
  show execChallenge slot nonce s = _
  refine (spdmFrom_reached h).trans ?_
  rw [hc, hfree]
  rfl

theorem exec_keyExchange {peer : BitVec 768} (hch : s.chain slot = some ch) (hclosed : s.modl.spdm.session = false) :
    exec (.keyExchange slot peer) s = Say.reply { s with fresh := s.fresh + 1 } (.keyExchange (Config.keyShare s.fresh)
      (Config.sign (leBytes peer.toNat 96 ++ leBytes (Config.keyShare s.fresh).toNat 96 ++ ch)))
        (fun x => { x with peer := some peer }) := by
  show execKeyExchange slot peer s = _
  refine (spdmFrom_reached h).trans ?_
  rw [hch, hclosed]
  rfl
end

theorem exec_challengeResponseSent {slot t : Nat} {nonce : BitVec 256} (h : s.modl.spdm.chal = some (slot, nonce, t)) :
    exec .challengeResponseSent s = Say.reply s (.challengeAuth slot
      (Config.sign (leBytes nonce.toNat 32 ++ (s.chain slot).getD []))) (fun x => { x with chal := none }) := by
  show execChallengeResponseSent s = _
  rw [execChallengeResponseSent, h]
  rfl

/-! ### The session (R405) -/

/-- FINISH by its check, after a KEY_EXCHANGE. -/
theorem exec_finish_eq {peer : BitVec 768} {mac : BitVec 512} (hpeer : s.modl.spdm.peer = some peer)
    (hclosed : s.modl.spdm.session = false) : exec (.finish mac) s =
      if Config.finishOk peer mac then Say.reply s .finish (fun x => { x with session := true })
      else Say.reply s (.error 6) (fun x => { x with peer := none }) := by
  show execFinish mac s = _
  rw [execFinish, hpeer, hclosed]
  dsimp only
  rw [if_neg Bool.false_ne_true]
  split <;> rfl

theorem spdmAnswers : Say.spdmAnswers := by
  intro slot off len i a b c d ch nonce peer mac s x
  refine ⟨rfl, fun h => ?unversioned, fun h => ?capabilities, fun h => ?early, exec_negotiateAlgorithms, fun h => ?connected,
    exec_challengeResponseSent, fun hpeer hclosed => ?finish, fun h => ?opened, fun h => ?closed⟩
  case early => refine ⟨?_, ?_, ?_, ?_⟩ <;> apply spdmFrom_early h
  case unversioned => apply spdmFrom_early h
  case opened => apply inSession_open h
  case closed => apply inSession_closed h
  case capabilities => apply spdmFrom_reached h
  case connected =>
    refine ⟨?digests, exec_getCertificate h, fun hlo hhi hfree => ?free, fun hpending ht hlo hhi => ?held,
      exec_setCertificate_identity h, exec_challenge h, exec_getMeasurements_one h, exec_getMeasurements_all h, exec_keyExchange h⟩
    case digests => apply spdmFrom_reached h
    case free =>
      have hfree := State.challenged_of_none (slot := slot) hfree
      exact (exec_setCertificate_eq h hlo hhi).trans (if_neg (Bool.eq_false_iff.mp hfree))
    case held => exact (exec_setCertificate_eq h hlo hhi).trans (if_pos (State.challenged_of_pending hpending ht))
  case finish =>
    have hfinish := exec_finish_eq (mac := mac) hpeer hclosed
    exact ⟨fun hok => hfinish.trans (if_pos hok), fun hbad => hfinish.trans (if_neg (Bool.eq_false_iff.mp hbad))⟩

/-! ### Key slots (R160, R406) -/

section
variable {vd slot q : Nat} (hs : s.modl.spdm.session = true)
include hs

theorem exec_keySlotLoad_page (hin : s.inKeys vd slot = true) : exec (.keySlotLoad vd slot 0 q) s =
    Say.reply (s.setKey slot { kgen := ((s.key slot).kgen + 1) % 2 ^ 16, vdev := vd, use := 0, kstate := 1 }) .vendor id := by
  show execKeySlotLoad vd slot 0 q s = _
  exact inSession_valid hs (by simp [hin])

theorem exec_keySlotLoad_queue (hin : s.inKeys vd slot = true) (hq : s.queueIs vd q = true) :
    exec (.keySlotLoad vd slot 1 q) s = Say.reply
      ((s.setKey slot { kgen := ((s.key slot).kgen + 1) % 2 ^ 16, vdev := vd, use := 1, kstate := 1 }).modQueue vd q
        (fun x => { x with qkey := slot })) .vendor id := by
  show execKeySlotLoad vd slot 1 q s = _
  refine (inSession_valid hs (by simp [hin])).trans ?_
  dsimp only
  rw [if_pos ⟨rfl, hq⟩]
  rfl

theorem exec_keySlotErase_ok (hin : s.inKeys vd slot = true) (hslot : slot ≠ 0) (hstate : (s.key slot).kstate ≠ 0)
    (hunused : ∀ e ∈ s.owners, ¬ (e.2.state = 1 ∧ e.2.key = slot)) :
    exec (.keySlotErase vd slot) s = Say.reply (s.setKey slot { s.key slot with kstate := 0 }) .vendor id := by
  have hany : s.owners.any (fun (_, o) => o.state == 1 && o.key == slot) = false :=
    List.any_eq_false.mpr fun e he => by simpa using hunused e he
  show execKeySlotErase vd slot s = _
  refine (inSession_valid hs (by simp [hin, hslot, hany])).trans ?_
  rw [if_neg hstate]
  rfl

theorem exec_keySlotLoad_refused (hout : s.inKeys vd slot = false) :
    exec (.keySlotLoad vd slot 0 q) s = Say.reply s (.error 1) id := by
  show execKeySlotLoad vd slot 0 q s = _
  exact inSession_invalid hs (.inl (by simp [hout]))

theorem exec_keySlotErase_outside (hout : s.inKeys vd slot = false) :
    exec (.keySlotErase vd slot) s = Say.reply s (.error 1) id := by
  show execKeySlotErase vd slot s = _
  exact inSession_invalid hs (.inl (by simp [hout]))

theorem exec_keySlotErase_used {e : Nat × Owner} (he : e ∈ s.owners) (hstate : e.2.state = 1) (hkey : e.2.key = slot) :
    exec (.keySlotErase vd slot) s = Say.reply s (.error 1) id := by
  have hany : s.owners.any (fun (_, o) => o.state == 1 && o.key == slot) = true :=
    List.any_eq_true.mpr ⟨e, he, by simp [hstate, hkey]⟩
  show execKeySlotErase vd slot s = _
  exact inSession_invalid hs (.inr (.inr hany))
end

/-! ### Streams and interfaces (R402, R408) -/

@[simp] theorem State.vd_answer (s : State) (r : Resp) (vd : Nat) : (s.answer r).vd vd = s.vd vd := rfl

section
variable {vd : Nat} {nonce : BitVec 256} (hs : s.modl.spdm.session = true)
include hs

theorem exec_lockInterfaceRequest_refused (h : (s.vd vd).tdi ≠ .unlocked ∨ s.modl.unlocked = true) :
    exec (.lockInterfaceRequest vd) s = Say.reply s (.error 1) id := by
  show execLockInterfaceRequest vd s = _
  refine inSession_invalid hs (h.elim (fun htdi => .inr (.inr (.inl htdi))) fun hdebug => ?_)
  simp [hdebug]

theorem exec_startInterfaceRequest_refused (h : (s.vd vd).tdi ≠ .locked ∨ (s.vd vd).nonce ≠ nonce) :
    exec (.startInterfaceRequest vd nonce) s = Say.reply s (.error 1) id := by
  show execStartInterfaceRequest vd nonce s = _
  exact inSession_invalid hs (.inr (.inr h))

variable (hvd : vd < 16)
include hvd

theorem exec_ideKm : exec (.ideKm vd) s =
    Say.reply (s.modVd vd (fun v => { v with ide := true, ideKey := v.ideKey + 1 })) (.ideKm vd) id := by
  show execIdeKm vd s = _
  exact inSession_valid hs (Nat.not_le.mpr hvd)

variable (hpos : 1 ≤ vd)
include hpos

theorem exec_lockInterfaceRequest_ok (htdi : (s.vd vd).tdi = .unlocked) (hactive : (s.quota vd).active = true)
    (hide : (s.vd vd).ide = true) (hdebug : s.modl.unlocked = false) (hidle : (s.vd vd).prop.cpstat ≠ 1) :
    exec (.lockInterfaceRequest vd) s = Say.reply ({ s with fresh := s.fresh + 1 }.modVd vd (fun v =>
      { v with tdi := .locked, nonce := Config.random s.fresh })) (.lock (Config.random s.fresh)) id := by
  have hfn : ¬ (vd = 0 ∨ 16 ≤ vd) := by omega
  show execLockInterfaceRequest vd s = _
  refine (inSession_valid hs ?_).trans (congrArg _ (if_neg hidle))
  simp [hfn, htdi, hactive, hide, hdebug]

theorem exec_startInterfaceRequest_ok (htdi : (s.vd vd).tdi = .locked) (hnonce : (s.vd vd).nonce = nonce) :
    exec (.startInterfaceRequest vd nonce) s = Say.reply (s.modVd vd (fun v => { v with tdi := .run })) (.started vd) id := by
  have hfn : ¬ (vd = 0 ∨ 16 ≤ vd) := by omega
  show execStartInterfaceRequest vd nonce s = _
  refine inSession_valid hs ?_
  simp [hfn, htdi, hnonce]

theorem exec_getDeviceInterfaceReport_ok (htdi : (s.vd vd).tdi = .locked ∨ (s.vd vd).tdi = .run) :
    exec (.getDeviceInterfaceReport vd) s = Say.reply s (.report vd true true) id := by
  show execGetDeviceInterfaceReport vd s = _
  exact inSession_valid hs (by rcases htdi with h | h <;> simp [h] <;> omega)

theorem exec_getDeviceInterfaceState_ok : exec (.getDeviceInterfaceState vd) s = Say.reply s (.state vd (s.vd vd).tdi) id := by
  show execGetDeviceInterfaceState vd s = _
  exact inSession_valid hs (by omega)

/-- A stop whose launches can be killed: it waits while pages are being filled or the host caches a table, then the interface is
unlocked. -/
theorem exec_stopInterfaceRequest (htdi : (s.vd vd).tdi ≠ .unlocked)
    (hlists : s.listsWait (s.launches.filter (fun l => l.vdev == vd)) = none) :
    let s1 := (s.killQueues vd).reclaimAll (fun o => o.vdev == vd)
    ∃ t : State, exec (.stopInterfaceRequest vd) s = .next (if s1.reclaiming vd ∨ s1.tablesHeld vd then s1 else t) ∧
      (t.vd vd).tdi = .unlocked ∧ t.modl.spdm.resp = .stopped vd := by
  have hfn : ¬ (vd = 0 ∨ 16 ≤ vd ∨ (s.vd vd).tdi = .unlocked) := by simp [htdi]; omega
  have hopen : execStopInterfaceRequest vd s = _ := inSession_valid hs hfn
  rw [hlists] at hopen
  refine ⟨_, hopen, ?_, rfl⟩
  dsimp only
  rw [State.vd_answer, State.vd_modVd_self]
end

/-- The failure of a function's stream closes its port, and makes an interface ERROR (R402, R408). -/
theorem exec_ideStreamFailure {vd : Nat} (hvd : vd < 16) (hide : (s.vd vd).ide = true) :
    ∃ t, exec (.ideStreamFailure vd) s = .next t ∧
      (vd ≠ 0 → s.listsWait (s.launches.filter (fun l => l.vdev == vd)) = none → (t.vd vd).tdi = .error ∧ (t.vd vd).ide = false) ∧
      (vd = 0 → (t.vd vd).ide = false) := by
  have hgo : ¬ (16 ≤ vd ∨ !(s.vd vd).ide) := by simp [hide, hvd]
  refine ⟨_, if_neg hgo, fun hne hlists => ?_, fun hzero => ?_⟩
  · have herror : ((s.tdiError vd).vd vd).tdi = .error := State.tdi_tdiError hlists
    simp [hne, herror]
  · simp [hzero]

theorem keysAndInterfaces : Say.keysAndInterfaces := by
  intro vd slot q nonce s v mine
  refine ⟨fun hclosed => ?closed, fun hs => ⟨fun hin => ⟨exec_keySlotLoad_page hs hin, exec_keySlotLoad_queue hs hin,
    exec_keySlotErase_ok hs hin⟩, fun hout => ⟨exec_keySlotLoad_refused hs hout, exec_keySlotErase_outside hs hout⟩,
    fun e he => exec_keySlotErase_used hs he, exec_ideKm hs, fun hpos hvd => ⟨exec_lockInterfaceRequest_ok hs hvd hpos,
      exec_lockInterfaceRequest_refused hs, exec_startInterfaceRequest_ok hs hvd hpos, exec_startInterfaceRequest_refused hs,
      fun htdi hlists => ?stop, exec_getDeviceInterfaceReport_ok hs hvd hpos, exec_getDeviceInterfaceState_ok hs hvd hpos⟩⟩,
    exec_ideStreamFailure⟩
  case closed =>
    simp only [List.forall_mem_cons]
    refine ⟨?_, ?_, ?_, ?_, ?_, ?_, ?_, ?_, List.forall_mem_nil _⟩ <;> apply inSession_closed hclosed
  case stop =>
    obtain ⟨t, ht, htdi, hresp⟩ := exec_stopInterfaceRequest hs hvd hpos htdi hlists
    intro s1
    refine ⟨fun hwait => ht.trans (congrArg _ (if_pos hwait)), fun hfilled hfree => ⟨t, ht.trans (congrArg _ (if_neg ?_)), htdi, hresp⟩⟩
    exact not_or.mpr ⟨Bool.eq_false_iff.mp hfilled, Bool.eq_false_iff.mp hfree⟩

/-- Settles O52: each request by the state of the connection or session that it needs, then by its own check. -/
theorem spdmKeysAndInterfaces : Obligations.SpdmKeysAndInterfaces := ⟨spdmAnswers, keysAndInterfaces⟩

end Sys2Proof.Machine
end
